-- ==== Sys2Proof/Word.lean ====
section
/-! DEFINITION. The word types of the CM9616 and the names of its agents (R1, R9, R19). -/

namespace Sys2Proof

abbrev Byte := BitVec 8
/-- A 32-bit scalar word, command word or micro-order (R126). -/
abbrev W32 := BitVec 32
/-- A 64-bit queue-register entry or register (R169). -/
abbrev Word := BitVec 64
/-- A 128-byte vector, line or row: byte `i` is bits `8i+7 : 8i` (R229, R239). -/
abbrev Vec := BitVec 1024
/-- A physical core, `bent × 16 + bay × 4 + core` (R14, R314). -/
abbrev CoreId := Fin 256
abbrev BentId := Fin 16

/-- The three contexts of a core (R9, R35). -/
inductive Ctx where
  | ld | cp | st
deriving DecidableEq, Repr, Inhabited

/-- The four command endpoints (R9, R136): L, M, V, S in the order of their codes. -/
inductive Ep where
  | l | m | v | s
deriving DecidableEq, Repr, Inhabited

def Ctx.idx : Ctx → Fin 3
  | .ld => 0 | .cp => 1 | .st => 2

def Ep.idx : Ep → Fin 4
  | .l => 0 | .m => 1 | .v => 2 | .s => 3

/-- Endpoint of a two-bit `eng` or SIGT code (R129, R135). -/
def Ep.ofCode (c : BitVec 2) : Ep :=
  if c = 0 then .l else if c = 1 then .m else if c = 2 then .v else .s

def Ep.code (e : Ep) : BitVec 2 :=
  match e with
  | .l => 0 | .m => 1 | .v => 2 | .s => 3

end Sys2Proof
end

