-- ==== Sys2Proof/Syntax.lean ====
section
/-! DEFINITION. The instructions of the CM9616: one constructor of `Instr` per row of spec/opcode_table.json.
Scalar words (R127–R134), engine commands (R135–R139), VE micro-orders (R140–R145), and the events of the
hardware agents and the outside world, which have no encoding (spec/95_what_each_step_holds.md).
A scalar operand structure keeps the stop bit `s`, which never changes what a word does (R133). -/

namespace Sys2Proof

/-- Scopes of R116, in the order of their codes (R129). -/
inductive Scope where
  | core | bay | bent | under | dev | sys
deriving DecidableEq, Repr, Inhabited

/-- Format R with two sources (R127): `d`, `a` with peek `pa`, `b` with peek `pb`. -/
structure R3 where
  s : Bool
  d : BitVec 5
  a : BitVec 5
  pa : Bool
  b : BitVec 5
  pb : Bool
deriving DecidableEq, Repr, Inhabited

/-- Format R with one source (R181, R185). -/
structure R2 where
  s : Bool
  d : BitVec 5
  a : BitVec 5
  pa : Bool
deriving DecidableEq, Repr, Inhabited

/-- Format I with a 12-bit immediate (R183, R193). -/
structure I12 where
  s : Bool
  d : BitVec 5
  a : BitVec 5
  pa : Bool
  imm : BitVec 12
deriving DecidableEq, Repr, Inhabited

/-- Immediate shifts: `imm12[5:0]` (R128). -/
structure Sh where
  s : Bool
  d : BitVec 5
  a : BitVec 5
  pa : Bool
  imm : BitVec 6
deriving DecidableEq, Repr, Inhabited

/-- Format U (R184, R193). -/
structure U20 where
  s : Bool
  d : BitVec 5
  imm : BitVec 20
deriving DecidableEq, Repr, Inhabited

/-- QCNT: destination and the register named (R185). -/
structure QCnt where
  s : Bool
  d : BitVec 5
  a : BitVec 5
deriving DecidableEq, Repr, Inhabited

/-- QCLR, DUP, DROP: the register named (R185). -/
structure QReg where
  s : Bool
  a : BitVec 5
deriving DecidableEq, Repr, Inhabited

/-- One source (MONCLR, R191). -/
structure Src where
  s : Bool
  a : BitVec 5
  pa : Bool
deriving DecidableEq, Repr, Inhabited

/-- Format M (R186): `d` is the data source of ST. -/
structure Mem where
  s : Bool
  d : BitVec 5
  a : BitVec 5
  pa : Bool
  cls : BitVec 4
  sz : BitVec 2
  imm : BitVec 8
deriving DecidableEq, Repr, Inhabited

/-- The atomic layout of a returning atomic (R188). -/
structure Atom where
  s : Bool
  d : BitVec 5
  a : BitVec 5
  pa : Bool
  b : BitVec 5
  sz : Bool
  cls : BitVec 4
deriving DecidableEq, Repr, Inhabited

/-- The atomic layout of a reduction (R189). -/
structure Red where
  s : Bool
  a : BitVec 5
  b : BitVec 5
  sz : Bool
  cls : BitVec 4
deriving DecidableEq, Repr, Inhabited

/-- RFADD, which exists only as `.w` (R189). -/
structure RedF where
  s : Bool
  a : BitVec 5
  b : BitVec 5
  cls : BitVec 4
deriving DecidableEq, Repr, Inhabited

/-- Format X with a scope (R190). -/
structure Fen where
  s : Bool
  scope : Scope
  mask : BitVec 16
deriving DecidableEq, Repr, Inhabited

/-- Format B (R192). -/
structure Br where
  s : Bool
  a : BitVec 5
  pa : Bool
  b : BitVec 5
  pb : Bool
  off : BitVec 13
deriving DecidableEq, Repr, Inhabited

/-- CSRW, CSRS, CSRC (R194). -/
structure Csr where
  s : Bool
  d : BitVec 5
  a : BitVec 5
  pa : Bool
  num : BitVec 12
deriving DecidableEq, Repr, Inhabited

/-- SPAWN (R196). -/
structure Spw where
  s : Bool
  a : BitVec 5
  pa : Bool
  b : BitVec 5
  pb : Bool
  stage : BitVec 4
deriving DecidableEq, Repr, Inhabited

/-- EPUSH and XCMD, format E (R197, R199). -/
structure Push where
  s : Bool
  e : Ep
  a : BitVec 5
  pa : Bool
  b : BitVec 5
  pb : Bool
deriving DecidableEq, Repr, Inhabited

/-- ECHAIN and ETAIL (R198). -/
structure ChainOp where
  s : Bool
  e : Ep
  a : BitVec 5
  pa : Bool
deriving DecidableEq, Repr, Inhabited

/-- MCFG (R200). -/
structure MCfg where
  s : Bool
  a : BitVec 5
  pa : Bool
  idx : BitVec 8
deriving DecidableEq, Repr, Inhabited

/-- IINV (R202). -/
structure IInv where
  s : Bool
  a : BitVec 5
  pa : Bool
  all : Bool
  bent : Bool
deriving DecidableEq, Repr, Inhabited

/-- TINV and L1INV (R202). -/
structure Inv where
  s : Bool
  a : BitVec 5
  pa : Bool
  all : Bool
deriving DecidableEq, Repr, Inhabited

/-- PREF (R202). -/
structure Pref where
  s : Bool
  a : BitVec 5
  pa : Bool
  imm : BitVec 12
deriving DecidableEq, Repr, Inhabited

/-- The header of an engine command but for OPC, XWC, HINTR and OPS (R135). -/
structure Hdr where
  wait : BitVec 3
  sige : Bool
  sigt : BitVec 2
  cls : BitVec 4
  hinti : BitVec 2
deriving DecidableEq, Repr, Inhabited

/-- The latency tag of a copy command: OPS[7] and OPS[6:3] (R214). -/
structure Tag where
  tg : Bool
  sym : BitVec 4
deriving DecidableEq, Repr, Inhabited

structure CopyOps where
  tag : Tag
  dst : Word
  src : Word
  ctr : Word
  inc : W32
  len : W32
deriving DecidableEq, Repr, Inhabited

structure CopyNOps where
  tag : Tag
  dst : Word
  src : Word
  ctr : Word
  inc : W32
  desc : Word
deriving DecidableEq, Repr, Inhabited

/-- GATH and SCAT: `esz` is OPS[2:0], `idx` a scratchpad offset, `isz` IDX bit 31 (R214). -/
structure GatherOps where
  tag : Tag
  esz : BitVec 3
  dst : Word
  src : Word
  ctr : Word
  inc : W32
  idx : BitVec 21
  isz : Bool
  count : W32
deriving DecidableEq, Repr, Inhabited

structure RcpyOps where
  tag : Tag
  dst : Word
  src : Word
  ctr : Word
  inc : W32
  len : W32
  fmt : BitVec 4
  rop : BitVec 3
deriving DecidableEq, Repr, Inhabited

structure FillOps where
  tag : Tag
  dst : Word
  pat : Word
  ctr : Word
  inc : W32
  len : W32
deriving DecidableEq, Repr, Inhabited

structure PrefOps where
  tag : Tag
  src : Word
  ctr : Word
  inc : W32
  len : W32
deriving DecidableEq, Repr, Inhabited

structure CpypOps where
  tag : Tag
  strm : BitVec 4
  src : Word
  ctr : Word
  inc : W32
  len : W32
deriving DecidableEq, Repr, Inhabited

structure PsubOps where
  ring : BitVec 21
  rows : BitVec 16
  strm : BitVec 4
deriving DecidableEq, Repr, Inhabited

/-- The word of MFMT (R281). -/
structure MFmt where
  afmt : BitVec 4
  bfmt : BitVec 4
  fi : Bool
  fo : Bool
  sat : Bool
  apod : Bool
  bpod : Bool
  astrm : BitVec 4
  bstrm : BitVec 4
deriving DecidableEq, Repr, Inhabited

structure MGoOps where
  pre : Bool
  qm : BitVec 4
  a : Word
  b : Word
  sa : Word
  sb : Word
  c : BitVec 4
deriving DecidableEq, Repr, Inhabited

structure MBldOps where
  pod : Bool
  qm : BitVec 4
  src : Word
  ssrc : Word
deriving DecidableEq, Repr, Inhabited

structure MHadOps where
  qm : BitVec 4
  n : BitVec 2
  fo : Bool
  h : BitVec 5
deriving DecidableEq, Repr, Inhabited

structure MDrnOps where
  qm : BitVec 4
  dst : Word
  mstr : W32
  qstr : W32
  fmt : BitVec 4
  plane : Bool
  fi : Bool
  fo : Bool
  sat : Bool
  rnd : BitVec 3
  zero : Bool
  sdst : Word
deriving DecidableEq, Repr, Inhabited

structure VRunOps where
  img : Word
  entry : BitVec 13
  len : BitVec 9
  lc0 : BitVec 16
  lc1 : BitVec 16
  lc2 : BitVec 16
  lc3 : BitVec 16
deriving DecidableEq, Repr, Inhabited

/-- A stream descriptor's fields (R234): counts less one, byte strides, control. -/
structure SDesc where
  base : Word
  cnt0 : BitVec 16
  cnt1 : BitVec 16
  cnt2 : BitVec 16
  cnt3 : BitVec 16
  str0 : W32
  str1 : W32
  str2 : W32
  str3 : W32
  dctl : W32
deriving DecidableEq, Repr, Inhabited

/-- The fields common to the Furrow commands (R298); `n1` is N − 1; `reca` is read only with `wrec`. -/
structure Fur where
  wrec : Bool
  nofb : Bool
  dst : Word
  ctr : Word
  inc : W32
  n1 : BitVec 11
  reca : Word
deriving DecidableEq, Repr, Inhabited

structure FQryOps where
  nofb : Bool
  op : BitVec 3
  dst : Word
  ctr : Word
  inc : W32
  n1 : BitVec 11
  s1 : Word
  s2 : Word
  s3 : Word
  res : Word
deriving DecidableEq, Repr, Inhabited

structure InjOp where
  eob : Bool
  strm : BitVec 4
  oq : BitVec 3
  keep : Bool
deriving DecidableEq, Repr, Inhabited

structure DrnOp where
  eob : Bool
  strm : BitVec 4
  wq : BitVec 2
deriving DecidableEq, Repr, Inhabited

structure SrdOp where
  eob : Bool
  sd : BitVec 4
  oq : BitVec 3
  rst : Bool
deriving DecidableEq, Repr, Inhabited

structure SwrOp where
  eob : Bool
  sd : BitVec 4
  wq : BitVec 2
  rst : Bool
deriving DecidableEq, Repr, Inhabited

/-- TIME (R143). -/
structure TimeOp where
  eob : Bool
  c : BitVec 8
  k : BitVec 2
  sym : BitVec 4
  cut : Bool
deriving DecidableEq, Repr, Inhabited

structure LoopOp where
  eob : Bool
  tgt : BitVec 13
  lc : BitVec 2
  vr : Bool
  cnt : BitVec 9
deriving DecidableEq, Repr, Inhabited

/-- A station order (R140). -/
structure StOrd where
  eob : Bool
  stn : BitVec 3
  ds : BitVec 4
  sa : BitVec 4
  sb : BitVec 4
  lt : BitVec 3
  fi : Bool
  fo : Bool
  rnd : BitVec 3
  sat : Bool
  msk : Bool
deriving DecidableEq, Repr, Inhabited

/-- An uncorrectable error (R318, R319): the bent, the array kind, the location, whether the array holds only
clean copies, and the core that consumes the data, if any. The kind of an array of clean copies is the model's own
number: 0 a core's L1, 1 its instruction cache, 2 its TLB, 3 the bent's instruction cache, 4 the shared TLB, else the
LLC. -/
structure UncorrErr where
  b : BentId
  aux : Byte
  loc : Word
  clean : Bool
  consumer : Option CoreId
deriving DecidableEq, Repr, Inhabited

/-- The result of a core's test (R389): whether its logic passed, and the rows that now fail. -/
structure CoreTest where
  good : Bool
  rows : List (BitVec 3 × BitVec 18)
deriving DecidableEq, Repr, Inhabited

/-- One sample of every sensor and rail (R386): TSCOL words, TSSTK words, rail currents in amperes. -/
structure Readings where
  cols : List W32
  stks : List Word
  amps : List Nat
deriving DecidableEq, Repr, Inhabited

/-- The four images of the module's flash (R381). -/
structure Flash where
  bentA : List Byte
  linkA : List Byte
  bentB : List Byte
  linkB : List Byte
deriving DecidableEq, Repr, Inhabited

/-- What a bent's march test finds (R378): the rows it repairs, (array, site, row), and the sites whose logic
fails. -/
structure MarchResult where
  rows : List (BitVec 3 × BitVec 5 × BitVec 18)
  logic : BitVec 17
deriving DecidableEq, Repr, Inhabited

/-- A host request through BAR pair `bar` (R367): `2^n` bytes at `off`, on link `link`. -/
structure HostReq where
  bar : Fin 3
  wr : Bool
  off : Word
  n : Fin 4
  v : Word
  link : Fin 2
deriving DecidableEq, Repr, Inhabited

/-- A peer's request to this device's memory (R375). -/
inductive PeerOp where
  | load
  | store (v : Word)
  | atomic (op : BitVec 4) (b : Word) (new : Word)
  | reduce (op : BitVec 4) (v : Word)
  | chunk (pcore : Byte) (seq : W32) (fmt : BitVec 4) (rop : BitVec 3) (len : Nat) (vals : List Byte)
  /-- The issuer has received the acknowledgement of a chunk (R316). -/
  | confirm (pcore : Byte) (seq : W32)
deriving DecidableEq, Repr, Inhabited

/-- A flit that arrives on a Scarf link: its 256 bytes, and the number of the flit it is sent again as, where the sender
resends it at the receiver's request (R372, R373). -/
structure Flit where
  bytes : List Byte
  resent : Option (BitVec 12)
deriving DecidableEq, Repr, Inhabited

structure PeerReq where
  dev : BitVec 10
  off : BitVec 45
  n : Fin 4
  op : PeerOp
deriving DecidableEq, Repr, Inhabited

/-- The instructions of the part, in the order of spec/opcode_table.json. -/
inductive Instr where
  | add (r : R3)
  | sub (r : R3)
  | and (r : R3)
  | or (r : R3)
  | xor (r : R3)
  | andn (r : R3)
  | shl (r : R3)
  | shr (r : R3)
  | sra (r : R3)
  | rotr (r : R3)
  | min (r : R3)
  | max (r : R3)
  | minu (r : R3)
  | maxu (r : R3)
  | cmpeq (r : R3)
  | cmpne (r : R3)
  | cmplt (r : R3)
  | cmpltu (r : R3)
  | cmple (r : R3)
  | cmpleu (r : R3)
  | sel (r : R3)
  | clz (r : R2)
  | ctz (r : R2)
  | popc (r : R2)
  | sext (r : R3)
  | zext (r : R3)
  | mul (r : R3)
  | mulh (r : R3)
  | mulhu (r : R3)
  | div (r : R3)
  | divu (r : R3)
  | rem (r : R3)
  | remu (r : R3)
  | addi (r : I12)
  | andi (r : I12)
  | ori (r : I12)
  | xori (r : I12)
  | shli (r : Sh)
  | shri (r : Sh)
  | srai (r : Sh)
  | rotri (r : Sh)
  | cmpeqi (r : I12)
  | cmpnei (r : I12)
  | cmplti (r : I12)
  | cmpltui (r : I12)
  | lih (r : U20)
  | pcah (r : U20)
  | qcnt (r : QCnt)
  | qclr (r : QReg)
  | dup (r : QReg)
  | drop (r : QReg)
  | movq (r : R2)
  | lds (r : Mem)
  | ldz (r : Mem)
  | st (r : Mem)
  | aadd (r : Atom)
  | aand (r : Atom)
  | aor (r : Atom)
  | axor (r : Atom)
  | amin (r : Atom)
  | amax (r : Atom)
  | aminu (r : Atom)
  | amaxu (r : Atom)
  | aswap (r : Atom)
  | acas (r : Atom)
  | radd (r : Red)
  | rand (r : Red)
  | ror (r : Red)
  | rxor (r : Red)
  | rmin (r : Red)
  | rmax (r : Red)
  | rminu (r : Red)
  | rmaxu (r : Red)
  | rfadd (r : RedF)
  | fence (s : Bool) (mask : BitVec 16)
  | acq (r : Fen)
  | rel (r : Fen)
  | acqrel (r : Fen)
  | waitge (r : R3)
  | waitne (r : R3)
  | monclr (r : Src)
  | beq (r : Br)
  | bne (r : Br)
  | blt (r : Br)
  | bge (r : Br)
  | bltu (r : Br)
  | bgeu (r : Br)
  | j (s : Bool) (off : BitVec 25)
  | jal (r : U20)
  | jalr (r : I12)
  | csrr (s : Bool) (d : BitVec 5) (num : BitVec 12)
  | csrw (r : Csr)
  | csrs (r : Csr)
  | csrc (r : Csr)
  | trap (s : Bool) (n : BitVec 8)
  | sysret (s : Bool)
  | idle (s : Bool)
  | brk (s : Bool) (n : BitVec 8)
  | stepover (s : Bool)
  | trapWord (w : W32)
  | spawn (r : Spw)
  | epush (r : Push)
  | echain (r : ChainOp)
  | etail (r : ChainOp)
  | eseq (s : Bool) (e : Ep) (d : BitVec 5)
  | xcmd (r : Push)
  | mcfg (r : MCfg)
  | tnext (s : Bool) (d : BitVec 5)
  | tdone (s : Bool)
  | tyield (s : Bool)
  | iinv (r : IInv)
  | tinv (r : Inv)
  | l1inv (r : Inv)
  | pref (r : Pref)
  | qregFill (p : CoreId) (k : Ctx) (n : Nat)
  | waitWake (p : CoreId) (k : Ctx)
  | monitorPoll (p : CoreId) (k : Ctx)
  | combiningFlush (p : CoreId) (n : Nat)
  | cpy (h : Hdr) (c : CopyOps)
  | cpyn (h : Hdr) (c : CopyNOps)
  | gath (h : Hdr) (c : GatherOps)
  | scat (h : Hdr) (c : GatherOps)
  | rcpy (h : Hdr) (c : RcpyOps)
  | fill (h : Hdr) (c : FillOps)
  | prefCmd (h : Hdr) (c : PrefOps)
  | cpyp (h : Hdr) (c : CpypOps)
  | psub (h : Hdr) (c : PsubOps)
  | puns (h : Hdr) (strm : BitVec 4)
  | chunkApply (p : CoreId) (seq : W32)
  | chunkResend (p : CoreId) (seq : W32)
  | qinit (h : Hdr) (desc : Word)
  | qacq (h : Hdr) (desc : Word) (resa : Word)
  | qrel (h : Hdr) (desc : Word) (slot : Word)
  | qres (h : Hdr) (desc : Word) (resa : Word) (nw : Bool)
  | qcom (h : Hdr) (desc : Word) (slot : Word)
  | qstat (h : Hdr) (desc : Word) (resa : Word)
  | clampRefill (b : BentId) (n : Nat)
  | csig (h : Hdr) (ctr : Word) (inc : W32)
  | cwait (h : Hdr) (ctr : Word) (target : Word)
  | cseq (h : Hdr) (addr : Word) (val : Word)
  | cnop (h : Hdr)
  | clink (h : Hdr) (next : Word)
  | cloop (h : Hdr) (rep : W32)
  | cend (h : Hdr)
  | launch (h : Hdr) (q : BitVec 6) (reca : Word)
  | tokenPush (p : CoreId) (n : Nat)
  | counterAdd (p : CoreId) (n : Nat)
  | chainBlockFetch (p : CoreId) (e : Ep)
  | sequenceAdvance (p : CoreId) (e : Ep)
  | podRowDelivery (bay : Fin 64) (strm : BitVec 4)
  | mfmt (h : Hdr) (f : MFmt)
  | mnest (h : Hdr) (kstep : BitVec 8) (nlev : BitVec 3)
  | mgo (h : Hdr) (c : MGoOps)
  | mbld (h : Hdr) (c : MBldOps)
  | mzero (h : Hdr) (qm : BitVec 4)
  | mhad (h : Hdr) (c : MHadOps)
  | mdrn (h : Hdr) (c : MDrnOps)
  | meStep (p : CoreId)
  | bBlockLoad (p : CoreId)
  | vrun (h : Hdr) (c : VRunOps)
  | vstop (h : Hdr) (imm : Bool)
  | vbase (h : Hdr) (n : BitVec 4) (base : Word)
  | vsdesc (h : Hdr) (n : BitVec 4) (d : SDesc)
  | bundleIssue (p : CoreId)
  | cutDrain (p : CoreId)
  | walkRequest (p : CoreId) (q : Fin 8)
  | vectorLanding (p : CoreId) (q : Fin 8)
  | windowClose (p : CoreId) (n : BitVec 4)
  | writeWalkWrite (p : CoreId) (q : Fin 4)
  | inj (o : InjOp)
  | drn (o : DrnOp)
  | srd (o : SrdOp)
  | swr (o : SwrOp)
  | time (o : TimeOp)
  | jmpt (eob : Bool) (tgt : BitVec 13)
  | loopt (o : LoopOp)
  | halt (eob : Bool)
  | vadd (o : StOrd)
  | vsub (o : StOrd)
  | vmul (o : StOrd)
  | vfma (o : StOrd)
  | vmin (o : StOrd)
  | vmax (o : StOrd)
  | vabs (o : StOrd)
  | vneg (o : StOrd)
  | vand (o : StOrd)
  | vor (o : StOrd)
  | vxor (o : StOrd)
  | vnot (o : StOrd)
  | vshl (o : StOrd)
  | vshr (o : StOrd)
  | vsra (o : StOrd)
  | vcmp (o : StOrd)
  | vsel (o : StOrd)
  | vcvt (o : StOrd)
  | vdot4 (o : StOrd)
  | vredadd (o : StOrd)
  | vredmax (o : StOrd)
  | vredmin (o : StOrd)
  | vexp2 (o : StOrd)
  | vlog2 (o : StOrd)
  | vrcp (o : StOrd)
  | vrsq (o : StOrd)
  | vperm (o : StOrd)
  | vbcast (o : StOrd)
  | vrotm (o : StOrd)
  | vpln (o : StOrd)
  | vunpl (o : StOrd)
  | vscale (o : StOrd)
  | vqmx (o : StOrd)
  | vmovs (o : StOrd)
  | vldi (o : StOrd)
  | vmask (o : StOrd)
  | fcopy (h : Hdr) (f : Fur) (s1 : Word)
  | ffill (h : Hdr) (f : Fur) (ones : Bool)
  | fand (h : Hdr) (f : Fur) (s1 : Word) (s2 : Word)
  | forRow (h : Hdr) (f : Fur) (s1 : Word) (s2 : Word)
  | fxor (h : Hdr) (f : Fur) (s1 : Word) (s2 : Word)
  | fnot (h : Hdr) (f : Fur) (s1 : Word)
  | fmaj (h : Hdr) (f : Fur) (s1 : Word) (s2 : Word) (s3 : Word)
  | fqry (h : Hdr) (c : FQryOps)
  | lqtail (q : BitVec 6) (v : W32)
  | gangPlacement
  | spawnDelivery (b : BentId) (n : Nat)
  | balancerInterval (n : Nat)
  | stageSwitch (p : CoreId)
  | watchdogPreempt (q : BitVec 6)
  | watchdogKill (q : BitVec 6)
  | watchdogFence (q : BitVec 6)
  | correctableError (b : BentId) (core : Option (Fin 16))
  | eccFreezeEnd (p : CoreId)
  | uncorrectableError (e : UncorrErr)
  | faultRecordRelease (b : BentId)
  | faultReplay (ticket : BitVec 16)
  | faultAbort (ticket : BitVec 16)
  | preEmpt
  | saveComplete
  | restore
  | restorePlacement
  | kill
  | trinv (v : Word)
  | trinvComplete
  | trroot (v : Word)
  | l1Fusion (bay : Fin 64)
  | formatRegionWrite (b : BentId) (k : Fin 2) (r : Fin 16) (reg : Fin 4) (v : Word)
  | vtctlInv (p : CoreId) (v : Word)
  | fwcc (b : BentId) (k : Fin 2) (v : Word)
  | regionChange (b : BentId) (k : Fin 2)
  | launchQueueReset (v : W32)
  | icinv (v : Word)
  | icbusyClear
  | traceSessionOpen (v : W32)
  | traceSessionClose (v : W32)
  | traceFlush (b : BentId)
  | pmctrWrap (p : CoreId) (n : BitVec 4)
  | veRelease (p : CoreId) (v : Word)
  | clklockLock (v : W32)
  | clklockUnlock (v : W32)
  | opptRequest (v : W32)
  | operatingPointChange
  | operatingPointChangeEnd
  | sensorSample (r : Readings)
  | capStep
  | capRelax
  | currentLimit (b : BentId)
  | emergencyEnd
  | coreReset (b : BentId) (v : W32)
  | coreMarchTest (p : CoreId) (r : CoreTest)
  | repairEntry (b : BentId) (e : BitVec 6) (v : Word)
  | hostPoolWrite (reg : Bool) (v : Word)
  | registerWrite (off : BitVec 26) (n : Fin 4) (v : Word)
  | coldReset
  | powerGood
  | firmwareVerify (f : Flash)
  | bentPowerUp (b : BentId)
  | stackTrainingEnd (b : BentId)
  | marchTestEnd (b : BentId) (r : MarchResult)
  | hostLinkTrained (j : Fin 2) (cxl : Bool)
  | hostAccess (r : HostReq)
  | getVersion
  | getCapabilities (req : List Byte)
  | negotiateAlgorithms (req : List Byte)
  | getDigests
  | getCertificate (slot : BitVec 8) (off : Nat) (len : Nat)
  | challenge (req : List Byte)
  | getMeasurements (req : List Byte)
  | sessionRequest (req : List Byte)
  | scarfFlit (n : Fin 18) (flit : Flit)
  | linkRetrain (n : Fin 18)
  | linkDown (n : Fin 18)
  | peerRequest (r : PeerReq)
  | retrainEnd (n : Fin 18) (good : Bool)
  | hostLinkDown (j : Fin 2)
  | chunkAcknowledgement (p : CoreId) (seq : W32)
  | acknowledgementConfirmation (p : CoreId) (seq : W32)
  | homeAcknowledgement (p : CoreId) (k : Ctx) (n : Nat)
  | cxlCacheRequest (addr : Word) (wr : Option (List Byte))
deriving DecidableEq, Repr, Inhabited

end Sys2Proof
end

