-- ==== Sys2Proof/Machine/State.lean ====
section
/-! DEFINITION. The state of the module as plain data, and the machine right after a cold reset (R6).
INVENTORY.md lists each field with the rule that names it and its reset value. -/

namespace Sys2Proof.Machine

/-- Bytes listed by address in strictly rising order, none equal to what an unlisted address reads as (log 3). -/
abbrev Memory := List Host.Cell

/-- Where an access lands: the issuing core's scratchpad offset (R34), or a physical address (R31). -/
inductive Loc where
  | spad (o : Nat)
  | phys (a : Nat)
deriving DecidableEq, Repr, Inhabited

/-! ### Contexts -/

/-- An entry of a queue register: reserved until filled (R171). -/
structure QEntry where
  id : Nat
  val : Word
  filled : Bool
deriving DecidableEq, Repr, Inhabited

/-- A queue register, head first (R169). -/
abbrev Queue := List QEntry

/-- The operation a home applies for an atomic or a reduction (R188, R189). -/
inductive AtomOp where
  | add | and | or | xor | min | max | minu | maxu | swap | cas | fadd
deriving DecidableEq, Repr, Inhabited

/-- What a context has issued and not yet performed (R115–R117, R174). -/
inductive PendKind where
  /-- A result of latency above one cycle, ready to fill its entry. -/
  | value (v : Word)
  | load (va : Word) (l : Loc) (n : Nat) (sext : Bool)
  | store (va : Word) (l : Loc) (n : Nat) (v : Word)
  | atomic (l : Loc) (n : Nat) (op : AtomOp) (b new : Word)
  | fence (mask : BitVec 16)
  | acq (scope : Scope) (mask : BitVec 16)
  /-- A release: the combining-buffer entries numbered below `mark` are part of it. -/
  | rel (scope : Scope) (mask : BitVec 16) (mark : Nat)
deriving DecidableEq, Repr, Inhabited

/-- The instruction an access came from, for a fault after it issued: its virtual address, its pc and its word (R180,
R374). -/
structure Origin where
  va : Word := 0
  pc : Word := 0
  word : W32 := 0
deriving DecidableEq, Repr, Inhabited

structure Pend where
  id : Nat
  cls : BitVec 4
  kind : PendKind
  /-- The entry to fill: register number, and whether it is a supervisor-bank register. -/
  dst : Option (BitVec 5 × Bool)
  orig : Origin := {}
deriving DecidableEq, Repr, Inhabited

/-- A WAITGE or WAITNE whose condition was false (R124, R191). -/
structure Wait where
  loc : Loc
  /-- The word as the wait last read it at its home. -/
  seen : Word
  monitored : Bool
  nextPoll : Nat
  /-- Woken: the instruction may issue again. -/
  ready : Bool
  /-- Ended by MONCLR while the register its value goes to was full: it completes whatever its condition. -/
  ended : Bool
  /-- The instruction, for a MONCLR that ends it (R191). -/
  op : R3 := default
  word : W32 := 0
deriving DecidableEq, Repr, Inhabited

/-- The run state of a context (R326). -/
inductive Run where
  | issuing | stopped | idle | notStarted
deriving DecidableEq, Repr, Inhabited

structure Context where
  pc : Word := 0
  run : Run := .notStarted
  regs : Vector Queue 32 := Vector.replicate 32 []
  sup : Vector Queue 4 := Vector.replicate 4 []
  status : Word := 0
  tvec : Word := 0
  tepc : Word := 0
  tcause : Word := 0
  tval : Word := 0
  tscr : Word := 0
  tword : Word := 0
  xres : Word := 0
  pend : List Pend := []
  nextId : Nat := 0
  /-- The shadow word to execute at `pc` in a BRK's place (R195). -/
  shadow : Option W32 := none
  /-- SYSRET found SOVR = 1: the next word, if a BRK, is stepped over (R195). -/
  stepOver : Bool := false
  /-- QCLR in progress: entries numbered below this are discarded (R185). -/
  qclr : Option Nat := none
  wait : Option Wait := none
  /-- The last attempt to issue blocked (R36). -/
  blocked : Bool := false
  /-- The fault record a stopped context waits on (R311). -/
  ticket : Option (BitVec 16) := none
  /-- An MCFG waits: the number of MNESTs the core must have taken before it writes (R200). -/
  mcfg : Option Nat := none
deriving DecidableEq, Repr, Inhabited

/-! ### Engines and their queues -/

/-- A command in a queue (R203): its words, the address of a chain command, the block it came from. -/
structure QCmd where
  words : List W32
  pc : Word
  chain : Bool
  blk : Nat
  /-- A second CLOOP of its block (R227). -/
  dup : Bool
  /-- Parked unstarted at the queue head (R391). -/
  ticket : Option (BitVec 16)
deriving DecidableEq, Repr, Inhabited

/-- A fetched block whose commands have not all finished (R206). -/
structure Blk where
  no : Nat
  whole : Bool
deriving DecidableEq, Repr, Inhabited

/-- A chain of command blocks (R205, R206). -/
structure Chain where
  head : Word := 0
  tail : Word := 0
  /-- The next word to fetch. -/
  fetch : Word := 0
  seq : Word := 0
  /-- A block is open: its start. -/
  start : Option Word := none
  /-- Fetching has stopped until the next ECHAIN. -/
  stopped : Bool := false
  /-- Repetitions of the block's CLOOP still to run; `none` before the CLOOP is met. -/
  loop : Option Nat := none
  /-- The CLOOP of this block has run out or a second one is an error (R227). -/
  looped : Bool := false
  blkNo : Nat := 0
  blks : List Blk := []
  ticket : Option (BitVec 16) := none
deriving DecidableEq, Repr, Inhabited

structure Engine where
  q : List QCmd := []
  chain : Chain := {}
deriving DecidableEq, Repr, Inhabited

/-- A Furrow command a controller holds (R302–R308): the flight it came from, its operands at their device-memory
addresses, the next row, what its path decision found, and where its record goes. -/
structure FurRun where
  core : CoreId
  ord : Nat
  opc : Nat
  ones : Bool
  dst : Nat
  srcs : List Nat
  n : Nat
  row : Nat := 0
  reason : Nat
  temp : Nat
  recAt : Option Loc
  ctr : Option (Loc × Word)
  start : Nat
  /-- Its core has been pre-empted, reset or fenced: it runs to its finish on its own (R308). -/
  orphan : Bool := false
  /-- An uncorrectable error in a source row: the rows below this one are still written (R302). -/
  stop : Option Nat := none
deriving DecidableEq, Repr, Inhabited

/-- A command started and not wholly done (R120, R121, R209, R210). -/
structure Flight where
  ord : Nat
  ep : Ep
  words : List W32
  pc : Word
  blk : Option Nat
  /-- Next element, row or segment (R212). -/
  elem : Nat
  ticket : Option (BitVec 16)
  /-- The counter still to be added to, at its translated home. -/
  ctr : Option (Loc × Word)
  /-- The token still to be pushed. -/
  sig : Option Ep
  finished : Bool
  start : Nat
  /-- The CPYN descriptor as read at the start (R216). -/
  desc : List Byte
  /-- The bytes of the source elements from `elem` on as they stood before the command wrote any; none of a byte that
  could not be read then (R216). -/
  saved : List (List (Option Byte))
  /-- The places translated at the start that the command still needs (R391): DESC and RESA, or a counter. -/
  locs : List Loc := []
  /-- The rows of a CPYP not yet in the Pod, and the subscribers when it started (R220). -/
  subs : List Nat
  /-- Started, with nothing performed since: it goes on once what it waits for lets it (R121, R211, R212, R303). -/
  waiting : Bool := false
  /-- It waits for room for its fault record, or was replayed while a freeze, a stop or a region change held its core:
  it holds back its class as a parked command does (R212, R313). -/
  held : Bool := false
  /-- The core's time without freezes at the start (R62). -/
  live : Nat := 0
  /-- A Furrow command that waits for room at its controller, its path decided (R301, R303). -/
  fwd : Option FurRun := none
deriving DecidableEq, Repr, Inhabited

/-! ### Caches, translation, buffers -/

/-- An L1 copy of a device-memory line (R96). -/
structure L1Line where
  line : Nat
  data : Vec
deriving DecidableEq, Repr, Inhabited

/-- A TLB entry: the virtual page, its size code, the leaf and the no-execute mask (R102–R105). -/
structure TlbEntry where
  va : Word
  size : Nat
  leaf : Word
  nx : Word
deriving DecidableEq, Repr, Inhabited

/-- A combining-buffer entry (R119). -/
structure Comb where
  id : Nat
  loc : Loc
  n : Nat
  op : AtomOp
  v : Word
  taken : Nat
  flush : Bool
deriving DecidableEq, Repr, Inhabited

/-- A monitor-table entry (R124). -/
structure Mon where
  loc : Loc
  ctx : Ctx
deriving DecidableEq, Repr, Inhabited

/-! ### Plumb, tasks, stage queues -/

/-- A latency symbol (R61–R64). -/
structure Sym where
  valid : Bool := false
  pend : Bool := false
  lo : Nat := 0
  hi : Nat := 0
  bind : Nat := 0
  pbind : Nat := 0
  wmax : Nat := 0
  lowmax : Nat := 0
  lowcnt : Nat := 0
  cnt : Nat := 0
  /-- The window reached its 4,096th sample and has not been closed (R62). -/
  full : Bool := false
deriving DecidableEq, Repr, Inhabited

structure Plumb where
  syms : Vector Sym 16 := Vector.replicate 16 {}
  retime : Word := 0
  freeze : Word := 0
deriving DecidableEq, Repr, Inhabited

/-- A SPAWN packet (R52): the target, its virtual address, the two arguments, the sender's logical index. -/
structure Packet where
  gang : Nat
  stage : BitVec 4
  target : Word
  loc : Loc
  arg0 : Word
  arg1 : Word
  sender : Byte
deriving DecidableEq, Repr, Inhabited

/-- A claim of a task on a queue (R49): the descriptor, the slot's number and the queue position it held then; the
task still holds the slot while the slot holds that position. -/
structure Claim where
  desc : Word
  slot : Nat
  pos : Nat
deriving DecidableEq, Repr, Inhabited

/-- The current task (R49–R51). -/
inductive Task where
  | stage (index : Nat) (ins outs : List Claim)
  | packet (k : Packet)
deriving DecidableEq, Repr, Inhabited

/-- An open STAMP record (R362). -/
structure Stamp where
  s0 : Nat
  s1 : Nat
  s2 : Nat
  retime : Word
  freeze : Word
  task : W32
  resumed : Bool
deriving DecidableEq, Repr, Inhabited

structure Gate where
  tslot : Vector Word 8 := Vector.replicate 8 0
  cur : Option Task := none
  curWord : Word := 0
  /-- The end marker was delivered (R50). -/
  ended : Bool := false
  /-- CP has reached TNEXT with a move pending (R57). -/
  switching : Bool := false
  spawnq : List Packet := []
  stamp : Option Stamp := none
deriving DecidableEq, Repr, Inhabited

/-- The state of an on-chip slot with the queue position it holds (R222). -/
inductive Slot where
  | free
  | reserved (pos : Nat)
  | full (pos : Nat)
  | claimed (pos : Nat)
deriving DecidableEq, Repr, Inhabited

/-- The live state of a stage queue (R221–R223), named by its descriptor's address. Its slots and its Clamp ring lie
where each of their pages translates (R100). -/
structure StageQ where
  desc : Word
  base : Loc
  slotVa : Word
  size : Nat
  /-- QCBASE, and the place it names. -/
  ringVa : Word := 0
  cbase : Loc
  quota : Nat
  spill : Word
  fill : Word
  pcom : Word
  crel : Word
  slots : List Slot
  /-- Positions in the Clamp ring, oldest first. -/
  ring : List Nat
  nextRes : Nat
  nextClaim : Nat
  /-- The gang that initialised it (R221). -/
  owner : Option Nat
  /-- The runs of bytes its slots and its Clamp ring occupy, in order; none where they are contiguous. -/
  runs : List (Loc × Nat) := []
  cruns : List (Loc × Nat) := []
  /-- The core in whose scratchpad it lies, if it does. -/
  core : CoreId := 0
deriving DecidableEq, Repr, Inhabited

/-! ### Vector engine -/

/-- A stream descriptor with its cursor and the index elements read ahead (R234–R236). -/
structure SdState where
  d : SDesc := default
  cur : Nat := 0
  /-- The index descriptor's elements read and not used, with the cycle of their request. -/
  idx : List (Word × Nat) := []
  ticket : Option (BitVec 16) := none
  /-- The vector at the cursor was parked: it contributes no sample (R238). -/
  parked : Bool := false
deriving DecidableEq, Repr, Inhabited

/-- An operand-queue entry: reserved until its fetch lands (R232). -/
structure OqEntry where
  loc : Loc
  val : Option Vec
  req : Nat
  sym : Option (BitVec 4)
  /-- The vector's address and its number in its walk, for a fault while it is outstanding (R374). -/
  va : Word := 0
  elem : Nat := 0
deriving DecidableEq, Repr, Inhabited

/-- A running VRUN (R244). -/
structure VRun where
  ord : Nat
  cls : BitVec 4
  img : Word
  len : Nat
  first : Bool
deriving DecidableEq, Repr, Inhabited

structure Ve where
  slots : Vector (Option Vec) 144 := Vector.replicate 144 none
  oq : Vector (List OqEntry) 8 := Vector.replicate 8 []
  wq : Vector (List Vec) 4 := Vector.replicate 4 []
  oqAtt : Vector (Option (BitVec 4)) 8 := Vector.replicate 8 none
  wqAtt : Vector (Option (BitVec 4)) 4 := Vector.replicate 4 none
  sd : Vector SdState 16 := Vector.replicate 16 {}
  masks : Vector (BitVec 128) 8 := Vector.replicate 8 (BitVec.allOnes 128)
  lc : Vector Nat 4 := Vector.replicate 4 0
  armed : Vector Bool 4 := Vector.replicate 4 false
  lcv : Vector (BitVec 16) 4 := Vector.replicate 4 0
  /-- The loaded words of the table store; every later word is 0x0000_0000 (R244). -/
  table : List W32 := []
  tag : Option (Word × Nat) := none
  counter : Nat := 0
  due : Nat := 0
  /-- The bundle to issue next has a TIME order whose d is below 1 (R65). -/
  clamp : Bool := false
  step : Nat := 0
  run : Option VRun := none
  /-- A VSTOP waits: its IMM bit and its flight (R245). -/
  stopr : Option (Bool × Nat) := none
  frz : Bool := false
  cutw : Bool := false
  held : Bool := false
  /-- A drain has ended, or VEGO has released the cut: its bundle issues next (R68, R352). -/
  installed : Bool := false
  disc : Nat := 0
  /-- Results of the bundle that issued last, written at the next advance (R230). -/
  results : List (Nat × Vec) := []
  maskPend : List (BitVec 3 × BitVec 128) := []
  /-- VTCTL.INV or TSTAG wait for the run's end (R241, R354). -/
  invPend : Bool := false
  /-- The run is ending (R249): whether it ends by a fault. -/
  ending : Option Bool := none
  /-- Under a timetable freeze: the core's time up to which PLFREEZE has counted it (R66). -/
  frzAt : Nat := 0
deriving DecidableEq, Repr, Inhabited

/-! ### Matrix engine -/

/-- The identity of a B block (R275). -/
structure BlockId where
  b : Word
  sb : Word
  qm : BitVec 4
  kstep : BitVec 8
  fmt : MFmt
deriving DecidableEq, Repr, Inhabited

/-- A bank of all four quadrants: the block it holds, as rows of the active quadrants in ascending order (R269). -/
structure Bank where
  id : Option BlockId := none
  rows : Array Vec := #[]
  scales : Array Vec := #[]
deriving DecidableEq, Repr, Inhabited

/-- A running MGO (R274). -/
structure MRun where
  ord : Nat
  c : MGoOps
  idx : List Nat
  first : Bool
  prevB : Word × Word
  prevA : Word × Word
  /-- Rows of the A block held from a ring, to be consumed when the next is taken (R279). -/
  aRows : Array Vec
  aScales : Array Vec
  aHeld : Nat
  /-- The nest's last B block has begun loading (R277). -/
  lastB : Bool
  /-- The inactive bank holds the run's next B block, loaded ahead (R276, R279). -/
  ahead : Bool := false
deriving DecidableEq, Repr, Inhabited

structure Me where
  shadow : Vector Word 48 := Vector.replicate 48 0
  active : Vector Word 48 := Vector.replicate 48 0
  banks : Vector Bank 2 := Vector.replicate 2 {}
  act : Fin 2 := 0
  acc : Vector (Vector (BitVec 4096) 128) 4 := Vector.replicate 4 (Vector.replicate 128 0)
  fmt : MFmt := default
  nested : Bool := false
  kstep : BitVec 8 := 0
  nlev : BitVec 3 := 0
  steps : W32 := 0
  pre : Bool := false
  bwait : Bool := false
  podw : Bool := false
  run : Option MRun := none
  /-- A running MBLD (R284), and whether it waits for ring rows (R280). -/
  bld : Option (Nat × MBldOps) := none
  bldw : Bool := false
  /-- A running MDRN: its flight, and the next segment as 128q + m (R287). -/
  drn : Option (Nat × Nat) := none
deriving DecidableEq, Repr, Inhabited

/-- A core's subscription to a Pod stream (R220, R279, R280). -/
structure PodSub where
  valid : Bool := false
  win : Nat := 0
  rows : Nat := 0
  rpos : Nat := 0
  ring : Nat := 0
  /-- PUNS waits for rows already accepted (R220). -/
  closing : Bool := false
deriving DecidableEq, Repr, Inhabited

/-! ### Core -/

structure Rng where
  seed : Word := 0
  vPend : Bool := false
  mPend : Bool := false
  vg : Vector W32 128 := Vector.replicate 128 0
  mg : Vector W32 128 := Vector.replicate 128 0
deriving DecidableEq, Repr, Inhabited

structure Debug where
  wpaddr : Vector Word 8 := Vector.replicate 8 0
  wpctl : Vector Word 8 := Vector.replicate 8 0
  pmctr : Vector Word 16 := Vector.replicate 16 0
  pmsel0 : Word := 0
  pmsel1 : Word := 0
  pmctl : Word := 0
  dbgctl : Word := 0
  /-- Counters whose wraps wait for CP's next safe point (R357). -/
  sample : BitVec 16 := 0
deriving DecidableEq, Repr, Inhabited

/-- The gang that holds a core (R16, R48). -/
structure Place where
  gang : Nat
  lidx : Byte
  group : BitVec 4
deriving DecidableEq, Repr, Inhabited

/-- An RCPY chunk sent and not confirmed (R316). -/
structure Chunk where
  pcore : Byte
  seq : W32
  loc : Loc
  fmt : BitVec 4
  rop : BitVec 3
  vals : List Byte
  ord : Nat
  sent : Nat
  /-- The chunk stands at its home, not yet applied. -/
  atHome : Bool
  /-- The home has acknowledged it. -/
  acked : Bool
  /-- Its first element. -/
  elem : Nat := 0
deriving DecidableEq, Repr, Inhabited

structure Core where
  ctx : Vector Context 3 := Vector.replicate 3 {}
  /-- LC, CL, CS, SC (R169). -/
  chans : Vector Queue 4 := Vector.replicate 4 []
  /-- Queue PE at index 4 × P + E (R136, R208). -/
  tok : Vector Nat 16 := Vector.replicate 16 0
  eng : Vector Engine 4 := Vector.replicate 4 {}
  flights : List Flight := []
  nextOrd : Nat := 0
  /-- The CE queue last started from; S at reset, so that L is offered first (R210 names none: DESIGN CHOICE, log 37). -/
  lastCe : Ep := .s
  scratch : Memory := []
  /-- The pointer of each scratchpad bank, a place in the rotation of R98: 0 CE load side, 1 CE store side, 2 ME, 3 VE
  reads, 4 VE write queues, 5 LD, 6 CP, 7 ST. -/
  banks : Vector (Fin 8) 16 := Vector.replicate 16 0
  l1 : List L1Line := []
  icache : List L1Line := []
  tlb : List TlbEntry := []
  comb : List Comb := []
  combNext : Nat := 0
  mon : List Mon := []
  monfull : Bool := false
  plumb : Plumb := {}
  gate : Gate := {}
  rng : Rng := {}
  fuse : Bool := false
  ve : Ve := {}
  me : Me := {}
  pods : Vector PodSub 16 := Vector.replicate 16 {}
  engflt : Word := 0
  dbg : Debug := {}
  sqt : List StageQ := []
  place : Option Place := none
  fenced : Bool := false
  /-- The group a pending balancer move takes the core to (R57). -/
  move : Option (BitVec 4) := none
  /-- The cycle at which the ECC freeze ends (R67). -/
  eccUntil : Option Nat := none
  /-- The cycle at which the freeze in force began, and the cycles of the freezes before it (R62, R67). -/
  frzAt : Option Nat := none
  frzPast : Nat := 0
  /-- MNESTs that have left the M queue, with the shadow table copied (R200). -/
  nestsOut : Nat := 0
  seq : W32 := 0
  chunks : List Chunk := []
  /-- A pre-emption has stopped the core (R321). -/
  saving : Bool := false
  /-- A CORECTL reset is testing the core's arrays (R389). -/
  testing : Bool := false
deriving DecidableEq, Repr, Inhabited

/-! ### Bays and bents -/

/-- A row in the Pod's replay buffer with the logical indices it is still to be delivered to (R278). -/
structure PodRow where
  data : Vec
  dest : List Byte
  ord : Nat
  pcore : CoreId
deriving DecidableEq, Repr, Inhabited

structure PodStream where
  gang : Option Nat := none
  /-- The CPYPs with rows still to read, in the order they started (R220). -/
  feed : List (CoreId × Nat) := []
  rows : List PodRow := []
deriving DecidableEq, Repr, Inhabited

structure Bay where
  fused : Bool := false
  /-- A transition to the unfused mode waits for the bay's outstanding L1 accesses (R110). -/
  unfusing : Bool := false
  pod : Vector PodStream 16 := Vector.replicate 16 {}
deriving DecidableEq, Repr, Inhabited

/-- A format region's registers (R112). -/
structure FmtReg where
  view : Word := 0
  src : Word := 0
  scl : Word := 0
  ctl : Word := 0
deriving DecidableEq, Repr, Inhabited

/-- A memory controller (R112, R294). -/
structure Ctl where
  fwcc : Word := 0
  nfast : Word := 0
  nfb : Word := 0
  nrej : Word := 0
  /-- A region change waits: the value written (R297). -/
  chg : Option Word := none
  fr : Vector FmtReg 16 := Vector.replicate 16 {}
  /-- The Furrow commands it holds, in the order they reached it (R303, R307). -/
  cmds : List FurRun := []
deriving DecidableEq, Repr, Inhabited

/-- A fault record: the eight words of R314. -/
structure FaultRec where
  words : List Word
  ticket : Option (BitVec 16)
deriving DecidableEq, Repr, Inhabited

/-- A trace record of 64 bytes as eight words (R360), with the time it was produced. -/
structure TraceRec where
  words : List Word
  born : Nat
deriving DecidableEq, Repr, Inhabited

/-- A packet a dispatcher holds for a core (R53, R323). -/
structure Held where
  pkt : Packet
  core : CoreId
deriving DecidableEq, Repr, Inhabited

structure Bent where
  balival : W32 := 50
  errce : Word := 0
  errue : Word := 0
  ctl : Vector Ctl 2 := Vector.replicate 2 {}
  sitemap : Word := 0x3E0000
  rep : Vector Word 64 := Vector.replicate 64 0
  /-- Spare rows drawn: (site, array) once for each. -/
  drawn : List (BitVec 5 × BitVec 3) := []
  held : List Held := []
  icache : List L1Line := []
  tlb : List TlbEntry := []
  sqt : List StageQ := []
  faults : List FaultRec := []
  trace : List TraceRec := []
  powered : Bool := false
  marched : Bool := false
  /-- When the rail current first exceeded 1,000 A (R387). -/
  overAmps : Option Nat := none
  /-- Nanoseconds at which it powered up (R377). -/
  poweredAt : Nat := 0
deriving DecidableEq, Repr, Inhabited

/-! ### Device -/

structure LaunchQ where
  base : Word := 0
  size : W32 := 0
  prio : W32 := 0
  head : W32 := 0
  tail : W32 := 0
  wdl1 : W32 := 0
  wdl2 : W32 := 0
  wdl3 : W32 := 0
  /-- BADREC, WDFENCE, WDKILL, WDPREEMPT as bits 5:2 (R42). -/
  stat : W32 := 0
  headwait : Bool := false
  /-- Nanoseconds at which the head became ready (R44). -/
  ready : Option Nat := none
  /-- Nanoseconds at which the watchdog timer restarted (R59). -/
  wdStart : Nat := 0
  /-- The limits reached since it restarted (R60). -/
  wdDone : BitVec 3 := 0
deriving DecidableEq, Repr, Inhabited

/-- A group of a running gang (R38, R47–R51). -/
structure Group where
  entld : Word
  entcp : Word
  entst : Word
  bounds : Option (List Byte)
  minc : Nat
  maxc : Nat
  ins : List Nat
  outs : List Nat
  tasks : Word
  /-- The next task index to hand out. -/
  next : Nat
  /-- Tasks returned by TYIELD, to be handed out first (R201). -/
  back : List Task
deriving DecidableEq, Repr, Inhabited

/-- A running gang (R37, R38). -/
structure Gang where
  id : Nat
  reca : Word
  lq : BitVec 6
  n : Nat
  param : Word
  donectr : Word
  statusa : Word
  qdesca : Word
  savea : Word
  groups : List Group
  /-- Placed cores in placement order; the index is the logical index (R16). -/
  cores : List CoreId
  retired : List CoreId
  /-- Nanoseconds of the next balancer interval, and the intervals counted (R54, R361). -/
  balNext : Nat
  balCount : Nat
  /-- A save is in progress: the area's base (R321). -/
  saving : Option Word
  /-- The save sequencer is parked (R315). -/
  saveTicket : Option (BitVec 16)
  /-- Scratchpad queue tables of cores that have left, whose counters are written back at the gang's end (R221). -/
  rings : List StageQ
  /-- Its event queue: the BALANCE records of its moves, oldest first (R57). -/
  events : List (List Word) := []
deriving DecidableEq, Repr, Inhabited

/-- An entry of the table of pre-empted gangs (R320): the gang and its cores as saved, each with the physical core it
stood on, for the parts of a snapshot whose layout R324 does not give (log 20); the tickets that FLTREPLAY named
meanwhile, with ABORT. -/
structure PreGang where
  base : Word
  gang : Gang
  saved : List (CoreId × Core)
  replies : List (BitVec 16 × Bool)
  /-- The save sequencer is parked in the gang's restore (R315). -/
  ticket : Option (BitVec 16) := none
deriving DecidableEq, Repr, Inhabited

/-- What the launch scheduler has still to write in memory: the outcome of a gang or record (R40), a queue's counters
(R221). -/
inductive Owed where
  | outcome (statusa donectr : Word) (code : Byte) | counters (q : StageQ)
deriving DecidableEq, Repr, Inhabited

structure Launch where
  lq : Vector LaunchQ 64 := Vector.replicate 64 {}
  /-- The queue last selected; 63 at reset, so that queue 0 is tried first (R44 names none: DESIGN CHOICE, log 37). -/
  lastq : BitVec 6 := 63
  gangs : List Gang := []
  nextGang : Nat := 0
  pre : List PreGang := []
  /-- Writes of the scheduler that a region change holds, oldest first (R297). -/
  owed : List Owed := []
deriving DecidableEq, Repr, Inhabited

/-- The operations of PMCTL (R320). -/
inductive PmOp where
  | preempt (gang : Nat) | restore (base : Word) | kill (gang : Nat)
deriving DecidableEq, Repr, Inhabited

structure Pm where
  pmrec : Word := 0
  save : Word := 0
  err : Bool := false
  done : Bool := false
  ecode : Byte := 0
  /-- The operation last written and not yet begun, then in progress. -/
  req : BitVec 2 := 0
  op : Option PmOp := none
  /-- Gangs the watchdog asked to pre-empt, in placement order (R320). -/
  wd : List Nat := []
deriving DecidableEq, Repr, Inhabited

structure Faults where
  base : Word := 0
  size : W32 := 0
  head : W32 := 0
  tail : W32 := 0
  badaddr : Bool := false
  nextTicket : BitVec 16 := 0
  /-- Tickets that name a parked agent, each with the words of its record. -/
  tickets : List (BitVec 16 × List Word) := []
  /-- Aborts the host has given that wait for room for their record (R313). -/
  aborts : List (BitVec 16) := []
  /-- Records of storage errors that wait for room, each in the bent of its array (R313, R319). -/
  errors : List (BentId × FaultRec) := []
deriving DecidableEq, Repr, Inhabited

structure Trans where
  root : Word := 0
  /-- TRINV writes in progress and queued (R107). -/
  inv : List Word := []
deriving DecidableEq, Repr, Inhabited

structure Trace where
  base : Word := 0
  size : W32 := 0
  head : W32 := 0
  tail : W32 := 0
  ctl : W32 := 0
  qmask : Word := 0
  spbase : Word := 0
  spcnt : W32 := 0
  lost : Word := 0
  /-- ICINV writes in progress and queued (R354). -/
  icinv : List Word := []
  /-- A launch-queue reset in progress: its queue, the open stamps it discarded, the cycle of the reset point (R364). -/
  rst : Option (BitVec 6 × Nat × Nat) := none
deriving DecidableEq, Repr, Inhabited

/-- What writes and reads of memory leave behind. -/
structure Marks where
  /-- Contexts whose monitored word has been written since they went to sleep on it (R124). -/
  woken : List (CoreId × Ctx) := []
  /-- Device-memory bytes whose check bits are bad: of dirty LLC lines written back as they stood, not rewritten since
  (R319; byte by byte: log 19). -/
  bad : List Nat := []
  /-- Lines with such a byte that the step in progress has read: by a core, or by none. -/
  met : List (Option CoreId × Nat) := []
deriving DecidableEq, Repr, Inhabited

structure Clock where
  cur : BitVec 2 := 0
  req : BitVec 2 := 0
  cap : BitVec 2 := 0
  /-- A change in progress: its target and the nanosecond it ends (R385). -/
  busy : Option (BitVec 2 × Nat) := none
  lastEnd : Option Nat := none
  lock : Bool := false
  op : BitVec 2 := 0
  broken : Bool := false
  emergency : Bool := false
  /-- In warning: the nanosecond of the last step (R387). -/
  warn : Option Nat := none
  /-- Every sensor 5 °C below its warning threshold since. -/
  coolSince : Option Nat := none
  /-- Every sensor 10 °C below its emergency threshold since. -/
  coldSince : Option Nat := none
  lastSample : Option Nat := none
  tripped : Bool := false
  tscol : Vector W32 272 := Vector.replicate 272 0
  tsstk : Vector Word 32 := Vector.replicate 32 0
deriving DecidableEq, Repr, Inhabited

structure Ready where
  rdy : Word := 0
  und : W32 := 0
  core : Vector Word 4 := Vector.replicate 4 0
  powerGood : Bool := false
  /-- Nanoseconds of T_F (R377). -/
  tf : Option Nat := none
  /-- Measurements recorded, index 1 first (R382). -/
  meas : List (Nat × List Byte) := []
deriving DecidableEq, Repr, Inhabited

/-- A Scarf link (R372–R376). -/
structure Scarf where
  up : Bool := false
  training : Bool := false
  expect : BitVec 12 := 0
  /-- Failed resends of the flit now expected, and of the flit the peer expects (R373). -/
  resends : Nat := 0
  sendFails : Nat := 0
  /-- The number the peer last asked this module to resend from. -/
  askedFrom : Option (BitVec 12) := none
  resend : W32 := 0
  retrain : Byte := 0
  failed : Nat := 0
  /-- The type and the credits of the last flit taken (R372). -/
  type : BitVec 4 := 0
  credits : BitVec 16 := 0
deriving DecidableEq, Repr, Inhabited

/-- The completion of a host request: `none` for a write, the value read, or an Unsupported Request (R367). -/
inductive Completion where
  | written | value (v : Word) | unsupported (v : Word)
deriving DecidableEq, Repr, Inhabited

/-- A pool line the LLC holds, and whether it has been granted exclusively (R371). -/
structure PoolLine where
  line : Nat
  excl : Bool
deriving DecidableEq, Repr, Inhabited

/-- What a peer gets back: a value, an acknowledgement, or an Unsupported Request (R367, R375, R380). -/
inductive PeerReply where
  | value (v : Word) | ack | unsupported (v : Word)
deriving DecidableEq, Repr, Inhabited

structure Links where
  up : Vector Bool 2 := Vector.replicate 2 false
  cxl : Bool := false
  dmwbase : Word := 0
  hpbase : Word := 0
  hpsize : Word := 0
  devid : W32 := 0
  sc : Vector Scarf 18 := Vector.replicate 18 {}
  peermap : Vector W32 1024 := Vector.replicate 1024 0
  /-- Pool lines the LLC holds (R371), the newest first. -/
  pool : List PoolLine := []
  /-- Payloads of the flits delivered by the Scarf links. -/
  rx : List (List Byte) := []
  /-- Resends this module has asked for: the link and the first missing number, oldest first (R373). -/
  asks : List (Fin 18 × BitVec 12) := []
  /-- The BAR2/3 size the host has set: a power of two beyond 28, at most 13 (R367 names none at reset: DESIGN CHOICE,
  log 14). -/
  barLog : Nat := 0
  /-- Requests that a region change holds, oldest first: of the host (R297, R368), and of peers (R375). -/
  hostHeld : List HostReq := []
  peerHeld : List PeerReq := []
  hostOut : List Completion := []
  peerOut : List PeerReply := []
  spdm : List (List Byte) := []
deriving DecidableEq, Repr, Inhabited

/-- A line resident in its home LLC slice: whether dirty, and the decoded data of a format-region view row (R114). -/
structure LlcLine where
  line : Nat
  dirty : Bool
  view : Option Vec
deriving DecidableEq, Repr, Inhabited

/-- Which agent acts. -/
inductive Turn where
  | context (p : CoreId) (k : Ctx)
  | engine (p : CoreId) (e : Ep)
  | event (i : Instr)
  /-- The host sets the BAR2/3 size (R367). -/
  | barSize (log : Nat)
  /-- The peer at a Scarf link asks this module to resend `run` flits from its first missing number on (R373). -/
  | resendAsked (n : Fin 18) (first : BitVec 12) (run : Nat)
deriving DecidableEq, Repr, Inhabited

/-- The model's own fields (log 4): which agent acts next and the agent whose step this is. -/
structure Sched where
  inputs : List Turn := []
  core : CoreId := 0
  ctx : Ctx := .ld
  ep : Ep := .l
  word : W32 := 0
  tick : Nat := 0
  nanos : Nat := 0
  cycle : Nat := 0
deriving DecidableEq, Repr, Inhabited

structure State where
  cores : Vector Core 256 := Vector.replicate 256 {}
  bays : Vector Bay 64 := Vector.replicate 64 {}
  bents : Vector Bent 16 := Vector.replicate 16 {}
  mem : Memory := []
  llc : List LlcLine := []
  marks : Marks := {}
  /-- De-duplication windows: home unit, PCORE, SEQ (R316). -/
  dedup : List (Nat × Byte × W32) := []
  launch : Launch := {}
  pm : Pm := {}
  flt : Faults := {}
  trans : Trans := {}
  trace : Trace := {}
  clock : Clock := {}
  ready : Ready := {}
  links : Links := {}
  bksh : Vector Word 256 := Vector.replicate 256 0
  sched : Sched := {}
deriving DecidableEq, Repr, Inhabited

/-- The module right after a cold reset (R6): every field at its Reset value, every register without one at the
value log 2 names. -/
def State.reset : State := {}

/-- Why the machine stops. -/
inductive Fault where
  /-- Raised by a step of a module whose rails a trip has switched off: only a cold reset follows (R387). Safe:
  nothing runs on that hardware. -/
  | poweredOff
deriving DecidableEq, Repr, Inhabited

/-- Why an instruction has no meaning. -/
inductive Refusal where
  /-- Raised by the dispatch for an instruction not yet given its meaning. Safe: nothing is claimed of it. -/
  | notModelled (mnemonic : String)
deriving DecidableEq, Repr, Inhabited

end Sys2Proof.Machine
end

