-- ==== Sys2Proof/Machine/Acc.lean ====
section
/-! DEFINITION. Reading and updating one part of the state. -/

namespace Sys2Proof.Machine

/-- Entry `i` of a table of fixed size; the default beyond its end. -/
def vget {α : Type} [Inhabited α] {n : Nat} (v : Vector α n) (i : Nat) : α := v.getD i default

def vset {α : Type} {n : Nat} (v : Vector α n) (i : Nat) (x : α) : Vector α n := v.setIfInBounds i x

def vmod {α : Type} [Inhabited α] {n : Nat} (v : Vector α n) (i : Nat) (f : α → α) : Vector α n :=
  vset v i (f (vget v i))

/-- A table made again from each of its entries. -/
def vmap {α : Type} {n : Nat} (f : α → α) (v : Vector α n) : Vector α n :=
  ⟨(v.toArray.toList.map f).toArray, by simp⟩

/-- A table made from its indices. -/
def vgen {α : Type} (n : Nat) (f : Nat → α) : Vector α n := ⟨((List.range n).map f).toArray, by simp⟩

def vlist {α : Type} {n : Nat} (v : Vector α n) : List α := v.toArray.toList

/-- Entry `i` of a list replaced, where it has one. -/
def lmod {α : Type} (i : Nat) (f : α → α) : List α → List α
  | [] => []
  | a :: t => match i with
    | 0 => f a :: t
    | j + 1 => a :: lmod j f t

/-- The first entry that satisfies `p`, changed by `f`. -/
def modFirst {α : Type} (p : α → Bool) (f : α → α) : List α → List α
  | [] => []
  | a :: t => if p a then f a :: t else a :: modFirst p f t

def eraseFirst {α : Type} (p : α → Bool) : List α → List α
  | [] => []
  | a :: t => if p a then t else a :: eraseFirst p t

/-! ### Cores and what they hold -/

def State.core (s : State) (p : CoreId) : Core := vget s.cores p.val
def State.setCore (s : State) (p : CoreId) (c : Core) : State := { s with cores := vset s.cores p.val c }
def State.modCore (s : State) (p : CoreId) (f : Core → Core) : State := s.setCore p (f (s.core p))

def Core.getCtx (c : Core) (k : Ctx) : Context := vget c.ctx k.idx.val
def Core.setCtx (c : Core) (k : Ctx) (x : Context) : Core := { c with ctx := vset c.ctx k.idx.val x }

def State.ctx (s : State) (p : CoreId) (k : Ctx) : Context := (s.core p).getCtx k
def State.setCtx (s : State) (p : CoreId) (k : Ctx) (x : Context) : State := s.modCore p fun c => c.setCtx k x
def State.modCtx (s : State) (p : CoreId) (k : Ctx) (f : Context → Context) : State :=
  s.setCtx p k (f (s.ctx p k))

def Core.getEng (c : Core) (e : Ep) : Engine := vget c.eng e.idx.val
def Core.setEng (c : Core) (e : Ep) (x : Engine) : Core := { c with eng := vset c.eng e.idx.val x }
def Core.modEng (c : Core) (e : Ep) (f : Engine → Engine) : Core := c.setEng e (f (c.getEng e))

def State.eng (s : State) (p : CoreId) (e : Ep) : Engine := (s.core p).getEng e
def State.modEng (s : State) (p : CoreId) (e : Ep) (f : Engine → Engine) : State := s.modCore p fun c => c.modEng e f

def State.ve (s : State) (p : CoreId) : Ve := (s.core p).ve
def State.modVe (s : State) (p : CoreId) (f : Ve → Ve) : State := s.modCore p fun c => { c with ve := f c.ve }
def State.me (s : State) (p : CoreId) : Me := (s.core p).me
def State.modMe (s : State) (p : CoreId) (f : Me → Me) : State := s.modCore p fun c => { c with me := f c.me }
def State.modGate (s : State) (p : CoreId) (f : Gate → Gate) : State := s.modCore p fun c => { c with gate := f c.gate }
def State.modDbg (s : State) (p : CoreId) (f : Debug → Debug) : State := s.modCore p fun c => { c with dbg := f c.dbg }

/-! ### Bents, bays, the device -/

def State.bent (s : State) (b : BentId) : Bent := vget s.bents b.val
def State.setBent (s : State) (b : BentId) (x : Bent) : State := { s with bents := vset s.bents b.val x }
def State.modBent (s : State) (b : BentId) (f : Bent → Bent) : State := s.setBent b (f (s.bent b))

def State.bay (s : State) (y : Fin 64) : Bay := vget s.bays y.val
def State.modBay (s : State) (y : Fin 64) (f : Bay → Bay) : State := { s with bays := vset s.bays y.val (f (s.bay y)) }

def State.lq (s : State) (q : BitVec 6) : LaunchQ := vget s.launch.lq q.toNat
def State.modLq (s : State) (q : BitVec 6) (f : LaunchQ → LaunchQ) : State :=
  { s with launch := { s.launch with lq := vset s.launch.lq q.toNat (f (s.lq q)) } }

def State.modLaunch (s : State) (f : Launch → Launch) : State := { s with launch := f s.launch }
def State.modTrace (s : State) (f : Trace → Trace) : State := { s with trace := f s.trace }
def State.modFlt (s : State) (f : Faults → Faults) : State := { s with flt := f s.flt }
def State.modPm (s : State) (f : Pm → Pm) : State := { s with pm := f s.pm }
def State.modClock (s : State) (f : Clock → Clock) : State := { s with clock := f s.clock }
def State.modReady (s : State) (f : Ready → Ready) : State := { s with ready := f s.ready }
def State.modLinks (s : State) (f : Links → Links) : State := { s with links := f s.links }
def State.modSched (s : State) (f : Sched → Sched) : State := { s with sched := f s.sched }

/-- The bent of a physical core (R14, R314). -/
def bentOf (p : CoreId) : BentId := ⟨p.val / 16, by omega⟩
/-- The bay of a physical core, bent × 4 + bay (R14). -/
def bayOf (p : CoreId) : Fin 64 := ⟨p.val / 4, by omega⟩
/-- Core `j` of a bay. -/
def coreOfBay (y : Fin 64) (j : Nat) : CoreId := ⟨y.val * 4 + j % 4, by omega⟩
/-- Core `j` of a bent. -/
def coreOfBent (b : BentId) (j : Nat) : CoreId := ⟨b.val * 16 + j % 16, by omega⟩
def coreOfNat (n : Nat) : CoreId := ⟨n % 256, by omega⟩
def bentOfNat (n : Nat) : BentId := ⟨n % 16, by omega⟩
def allCores : List CoreId := (List.range 256).map coreOfNat
def allBents : List BentId := (List.range 16).map bentOfNat

/-- Every core changed alike. -/
def State.mapCores (s : State) (f : Core → Core) : State := { s with cores := vmap f s.cores }
def State.mapBents (s : State) (f : Bent → Bent) : State := { s with bents := vmap f s.bents }

/-! ### Time -/

def State.cycle (s : State) : Nat := s.sched.cycle
def State.nanos (s : State) : Nat := s.sched.nanos

def State.gang? (s : State) (g : Nat) : Option Gang := s.launch.gangs.find? fun x => x.id == g

/-- The gang that holds a core. -/
def State.gangOf (s : State) (p : CoreId) : Option Gang :=
  match (s.core p).place with
  | some pl => s.gang? pl.gang
  | none => none

def State.modGang (s : State) (g : Nat) (f : Gang → Gang) : State :=
  s.modLaunch fun l => { l with gangs := modFirst (fun x => x.id == g) f l.gangs }

/-- The cores of a gang that have not retired and are not fenced: its running cores. -/
def Gang.running (g : Gang) : List CoreId := g.cores.filter fun p => !g.retired.contains p

end Sys2Proof.Machine
end

