-- ==== Sys2Proof/Config.lean ====
section
/-! DEFINITION. What an implementation fixes and the free values: opaque constants, so that no proof can see which
value the hardware takes. Each is applied to the model's counter `tick`, or to the operands it depends on. -/

namespace Sys2Proof.Config

/-- Module clocks that pass in a step (log 5). -/
opaque dCycle : Nat → Nat
/-- Nanoseconds that pass in a step (log 5). -/
opaque dNanos : Nat → Nat
/-- Whether an L1 copy has been lost for a reason outside the program's control (R96, log 6). -/
opaque l1Lost : Nat → Nat → Bool
/-- Whether an instruction-cache line has been lost (log 6). -/
opaque icLost : Nat → Nat → Bool
/-- Whether a TLB entry has been replaced (log 6). -/
opaque tlbLost : Nat → Nat → Bool
/-- Whether an LLC line has been evicted (R96, log 6). -/
opaque llcLost : Nat → Nat → Bool
/-- A replaced row's contents after a repair (R388, log 11): the byte at an offset. -/
opaque repairedByte : Nat → Nat → Byte
/-- The line that stood in a replaced row of an LLC slice (R388, log 11): its address. -/
opaque repairedLine : Nat → Nat
/-- ELAPSED of a Furrow completion record (R304, log 5). -/
opaque furrowElapsed : Nat → W32
/-- REASON of an FQRY whose candidate would fault ACCESS, for which R305 names no code (log 22). -/
opaque furrowAccessReason : Nat → Byte
/-- What the timed performance counters add in a step: the counter's event code and the tick (R357, log 5). -/
opaque pmEvents : Byte → Nat → Nat
/-- WAIT, ECCF and FRZ parts of a STAMP record that count cycles (R362, log 5). -/
opaque stampCycles : Nat → W32
/-- What a load reads whose link goes down while it is outstanding (R369, R374, log 25). -/
opaque lostValue : Nat → Word
/-- The number of the agent that acts in a step when no input names one (log 1). -/
opaque schedule : Nat → Nat
/-- Whether the header of a firmware image is well formed and its body length matches (R381, log 21). -/
opaque fwFormat : List Byte → Bool
/-- Whether the ECDSA P-384 signature of an image verifies under the fused key (R381, log 21). -/
opaque fwEcdsa : List Byte → Bool
/-- Whether the LMS signature of an image verifies under the fused key (R381, log 21). -/
opaque fwLms : List Byte → Bool
/-- The 16-bit security version in an image's header (R381, log 21). -/
opaque fwSvn : List Byte → Nat
/-- The fused security version of the bent firmware (`false`) and the link firmware (`true`) (R381, log 21). -/
opaque fusedSvn : Bool → Nat
/-- The bytes of the Sill ROM (R382, log 21). -/
opaque romImage : List Byte
/-- The fused key hashes as measured, before the security versions (R382, log 21). -/
opaque fusedHashes : List Byte
/-- The certificate chain of the device identity key, slot 0 (R383, log 27). -/
opaque certChain : List Byte
/-- The device's ECDSA P-384 signature of a transcript (R383, log 27). -/
opaque spdmSign : List Byte → List Byte
/-- CRC-64 of the first 248 bytes of a flit (R372, log 14). -/
opaque crc64 : List Byte → Word
/-- What a host memory request to an address completes with: `true` for an error status (R369, log 14). -/
opaque hostError : Nat → Nat → Bool
/-- The cycles a copy command takes beyond the steps that run it (R62, log 5). -/
opaque copyCycles : Nat → Nat
/-- The L1 line that stood in a replaced row (R388, log 11): its place in the core's list. -/
opaque repairedL1 : Nat → Nat
/-- The CTExponent of the CAPABILITIES response (R383, log 27). -/
opaque spdmTime : Byte
/-- The DataTransferSize, then the MaxSPDMmsgSize of the CAPABILITIES response (R383, log 27). -/
opaque spdmSizes : W32 × W32

end Sys2Proof.Config
end

