-- ==== Sys2Proof/Machine/Num.lean ====
section
/-! DEFINITION. Number formats and arithmetic (R70–R91): patterns decode to exact values, operations are exact, and
one rounding gives the result. -/

namespace Sys2Proof.Machine

/-- An exact value: ± m × 2^e, an infinity or NaN. A zero keeps its sign. -/
inductive Val where
  | nan
  | inf (neg : Bool)
  | fin (neg : Bool) (m : Nat) (e : Int)
deriving DecidableEq, Repr, Inhabited

/-- The formats of R70 and R71. -/
inductive Fmt where
  | int8 | uint8 | int16 | uint16 | int32 | uint32 | fp32 | bf16 | e4m3 | e5m2 | e2m1 | e2m3 | e3m2 | int4
deriving DecidableEq, Repr, Inhabited

/-- A floating format (R71): exponent and significand field widths, bias, the largest finite pattern. -/
structure FloatFmt where
  ebits : Nat
  mbits : Nat
  bias : Int
  maxPat : Nat
  hasInf : Bool
  nan : Nat
  hasNan : Bool
deriving DecidableEq, Repr, Inhabited

def Fmt.float? (f : Fmt) : Option FloatFmt :=
  match f with
  | .fp32 => some { ebits := 8, mbits := 23, bias := 127, maxPat := 0x7F7FFFFF, hasInf := true, nan := 0x7FC00000, hasNan := true }
  | .bf16 => some { ebits := 8, mbits := 7, bias := 127, maxPat := 0x7F7F, hasInf := true, nan := 0x7FC0, hasNan := true }
  | .e4m3 => some { ebits := 4, mbits := 3, bias := 7, maxPat := 0x7E, hasInf := false, nan := 0x7F, hasNan := true }
  | .e5m2 => some { ebits := 5, mbits := 2, bias := 15, maxPat := 0x7B, hasInf := true, nan := 0x7E, hasNan := true }
  | .e2m1 => some { ebits := 2, mbits := 1, bias := 1, maxPat := 0x7, hasInf := false, nan := 0, hasNan := false }
  | .e2m3 => some { ebits := 2, mbits := 3, bias := 1, maxPat := 0x1F, hasInf := false, nan := 0, hasNan := false }
  | .e3m2 => some { ebits := 3, mbits := 2, bias := 3, maxPat := 0x1F, hasInf := false, nan := 0, hasNan := false }
  | .int8 | .uint8 | .int16 | .uint16 | .int32 | .uint32 | .int4 => none

def Fmt.width (f : Fmt) : Nat :=
  match f with
  | .int4 | .e2m1 => 4
  | .e2m3 | .e3m2 => 6
  | .int8 | .uint8 | .e4m3 | .e5m2 => 8
  | .int16 | .uint16 | .bf16 => 16
  | .int32 | .uint32 | .fp32 => 32

def Fmt.signed (f : Fmt) : Bool :=
  match f with
  | .uint8 | .uint16 | .uint32 => false
  | _ => true

/-- The format of a 4-bit code among those that name one element format (R75); MXFP4 names its elements. -/
def Fmt.ofCode (c : BitVec 4) : Option Fmt :=
  match c.toNat with
  | 0 => some .int8 | 1 => some .uint8 | 2 => some .int16 | 3 => some .int32 | 4 => some .fp32 | 5 => some .bf16
  | 6 => some .e4m3 | 7 => some .e5m2 | 8 => some .e2m1 | 10 => some .int4 | 11 => some .e2m3 | 12 => some .e3m2
  | 13 => some .e2m1
  | _ => none

/-- Rounding modes (R78). -/
inductive Mode where
  | nearest | zero | down | up | stoch
deriving DecidableEq, Repr, Inhabited

def Mode.ofCode (c : BitVec 3) : Mode :=
  match c.toNat with
  | 0 => .nearest | 1 => .zero | 2 => .down | 3 => .up | _ => .stoch

/-! ### Decoding -/

/-- A two's-complement or plain binary pattern as a value (R70). -/
def decodeInt (signed : Bool) (w x : Nat) : Int :=
  if signed ∧ 2 ^ (w - 1) ≤ x then (x : Int) - (2 ^ w : Nat) else x

def Val.ofInt (i : Int) : Val := .fin (decide (i < 0)) i.natAbs 0

def decodeFloat (f : FloatFmt) (x : Nat) : Val :=
  let s := decide (2 ^ (f.ebits + f.mbits) ≤ x % 2 ^ (f.ebits + f.mbits + 1))
  let p := x % 2 ^ (f.ebits + f.mbits)
  let e := p / 2 ^ f.mbits
  let m := p % 2 ^ f.mbits
  if f.maxPat < p then (if f.hasInf ∧ m = 0 then .inf s else .nan)
  else if e = 0 then .fin s m (1 - f.bias - f.mbits)
  else .fin s (2 ^ f.mbits + m) (e - f.bias - f.mbits)

def Fmt.decode (f : Fmt) (x : Nat) : Val :=
  match f.float? with
  | some ff => decodeFloat ff x
  | none => .ofInt (decodeInt f.signed f.width (x % 2 ^ f.width))

/-- Whether a pattern is a subnormal of its format (R83). -/
def Fmt.subnormal (f : Fmt) (x : Nat) : Bool :=
  match f.float? with
  | some ff => let p := x % 2 ^ (ff.ebits + ff.mbits); decide (p ≠ 0 ∧ p < 2 ^ ff.mbits)
  | none => false

/-- Flush-in on a pattern: a subnormal becomes the zero of its sign; E2M1 is never flushed (R83). -/
def Fmt.flushIn (f : Fmt) (fi : Bool) (x : Nat) : Val :=
  match f.decode x with
  | .fin s m e => if fi ∧ f ≠ .e2m1 ∧ f.subnormal x then .fin s 0 0 else .fin s m e
  | v => v

/-! ### Exact arithmetic -/

def Val.neg (v : Val) : Val :=
  match v with
  | .nan => .nan | .inf s => .inf !s | .fin s m e => .fin (!s) m e

def Val.abs (v : Val) : Val :=
  match v with
  | .nan => .nan | .inf _ => .inf false | .fin _ m e => .fin false m e

def Val.isZero (v : Val) : Bool :=
  match v with
  | .fin _ 0 _ => true
  | _ => false

/-- A signed significand scaled to exponent `e` (`e` at most the value's own). -/
def scaled (s : Bool) (m : Nat) (em e : Int) : Int :=
  let k : Int := (m * 2 ^ (em - e).toNat : Nat)
  if s then -k else k

/-- The exact sum; a zero sum of unlike signs is +0, or −0 under DOWN (R84). -/
def Val.add (down : Bool) (a b : Val) : Val :=
  match a, b with
  | .nan, _ | _, .nan => .nan
  | .inf s, .inf t => if s = t then .inf s else .nan
  | .inf s, _ => .inf s
  | _, .inf t => .inf t
  | .fin s m e, .fin t n f =>
    let g := min e f
    let r := scaled s m e g + scaled t n f g
    if r = 0 then .fin (if m = 0 ∧ n = 0 ∧ s = t then s else down) 0 g else .fin (decide (r < 0)) r.natAbs g

def Val.mul (a b : Val) : Val :=
  match a, b with
  | .nan, _ | _, .nan => .nan
  | .inf s, .inf t => .inf (s != t)
  | .inf s, .fin t n _ => if n = 0 then .nan else .inf (s != t)
  | .fin s m _, .inf t => if m = 0 then .nan else .inf (s != t)
  | .fin s m e, .fin t n f => .fin (s != t) (m * n) (e + f)

/-- Times a power of two, exactly. -/
def Val.scale (v : Val) (k : Int) : Val :=
  match v with
  | .fin s m e => .fin s m (e + k)
  | w => w

/-- The exact sum of a list; empty gives +0. -/
def Val.sum (down : Bool) : List Val → Val
  | [] => .fin false 0 0
  | v :: vs => vs.foldl (Val.add down) v

/-- Numerical order of two values that are not NaN; −0 equals +0. -/
def Val.lt (a b : Val) : Bool :=
  match a, b with
  | .inf s, .inf t => s && !t
  | .inf s, .fin .. => s
  | .fin .., .inf t => !t
  | .fin s m e, .fin t n f => let g := min e f; decide (scaled s m e g < scaled t n f g)
  | _, _ => false

def Val.isNan (v : Val) : Bool :=
  match v with
  | .nan => true
  | _ => false

def Val.isInf (v : Val) : Bool :=
  match v with
  | .inf _ => true
  | _ => false

def Val.sign (v : Val) : Bool :=
  match v with
  | .nan => false | .inf s => s | .fin s _ _ => s

/-- −0 ordered below +0 (R84). -/
def Val.ltTotal (a b : Val) : Bool := a.lt b || (!b.lt a && a.isZero && b.isZero && a.sign && !b.sign)

def Val.min (a b : Val) : Val := if a.isNan || b.isNan then .nan else if b.ltTotal a then b else a
def Val.max (a b : Val) : Val := if a.isNan || b.isNan then .nan else if a.ltTotal b then b else a

/-! ### Rounding -/

/-- The binary exponent of m × 2^e. -/
def expOf (m : Nat) (e : Int) : Int := (Nat.log2 m : Int) + e

/-- |v| = m × 2^e in whole quanta 2^q, rounded; `odd` part decides by mode. `z` is the stochastic draw (R80). -/
def quanta (neg : Bool) (m : Nat) (e q : Int) (mode : Mode) (z : Nat) : Nat :=
  if q ≤ e then
    let k := m * 2 ^ (e - q).toNat
    match mode with
    | .stoch => (k * 2 ^ 16 + z) / 2 ^ 16
    | _ => k
  else
    let d := (q - e).toNat
    let k := m / 2 ^ d
    let r := m % 2 ^ d
    match mode with
    | .nearest => if 2 ^ d < 2 * r ∨ (2 * r = 2 ^ d ∧ k % 2 = 1) then k + 1 else k
    | .zero => k
    | .down => if neg ∧ r ≠ 0 then k + 1 else k
    | .up => if !neg ∧ r ≠ 0 then k + 1 else k
    | .stoch => (m * 2 ^ 16 / 2 ^ d + z) / 2 ^ 16

def signPat (f : FloatFmt) (neg : Bool) (p : Nat) : Nat := if neg then 2 ^ (f.ebits + f.mbits) + p else p

/-- An overflow's pattern (R85). -/
def overflowPat (f : FloatFmt) (sat neg : Bool) : Nat :=
  if sat ∨ !f.hasNan then signPat f neg f.maxPat
  else if f.hasInf then signPat f neg ((2 ^ f.ebits - 1) * 2 ^ f.mbits)
  else f.nan

/-- Round, then flush-out, then R85, to a floating format. E2M1 results are never flushed (R83). -/
def encodeFloat (f : FloatFmt) (mode : Mode) (sat fo : Bool) (z : Nat) (v : Val) : Nat :=
  match v with
  | .nan => f.nan
  | .inf s => if f.hasInf then signPat f s ((2 ^ f.ebits - 1) * 2 ^ f.mbits) else overflowPat f sat s
  | .fin s m e =>
    if m = 0 then signPat f s 0
    else
      let q := max (expOf m e) (1 - f.bias) - f.mbits
      let k := quanta s m e q mode z
      let p := ((q + f.mbits + f.bias - 1) * (2 ^ f.mbits : Nat) + k).toNat
      if f.maxPat < p then overflowPat f sat s
      else if fo ∧ f.hasNan ∧ p < 2 ^ f.mbits then signPat f s 0
      else signPat f s p

def minInt (signed : Bool) (w : Nat) : Int := if signed then -(2 ^ (w - 1) : Nat) else 0
def maxInt (signed : Bool) (w : Nat) : Int := if signed then (2 ^ (w - 1) : Nat) - 1 else (2 ^ w : Nat) - 1

/-- The low w bits of an integer. -/
def lowBits (w : Nat) (i : Int) : Nat := (i % (2 ^ w : Nat)).toNat

/-- Low bits, or Sat with the saturate bit (R70, R85). -/
def encodeInt (signed : Bool) (w : Nat) (sat : Bool) (i : Int) : Nat :=
  if sat then lowBits w (max (minInt signed w) (min (maxInt signed w) i)) else lowBits w i

/-- A floating value to an integer format (R85). -/
def floatToInt (signed : Bool) (w : Nat) (mode : Mode) (sat : Bool) (z : Nat) (v : Val) : Nat :=
  match v with
  | .nan => 0
  | .inf s => if sat then lowBits w (if s then minInt signed w else maxInt signed w) else 0
  | .fin s m e =>
    let k : Int := quanta s m e 0 mode z
    encodeInt signed w sat (if s then -k else k)

/-- A value to a format (R86, R85). -/
def Fmt.encode (f : Fmt) (mode : Mode) (sat fo : Bool) (z : Nat) (v : Val) : Nat :=
  match f.float? with
  | some ff => encodeFloat ff mode sat fo z v
  | none => floatToInt f.signed f.width mode sat z v

/-- RoundFP32(v, NEAREST_EVEN). -/
def roundFp32 (v : Val) : Nat := Fmt.fp32.encode .nearest false false 0 v

/-- Whether a rounding draws from a generator: STOCHASTIC on a finite nonzero value (R80). -/
def draws (mode : Mode) (v : Val) : Bool :=
  match mode, v with
  | .stoch, .fin _ m _ => m != 0
  | _, _ => false

/-- One step of a stochastic generator (R81). -/
def rngStep (g : W32) : W32 := if g.getLsbD 0 then (g >>> 1) ^^^ 0x80200003#32 else g >>> 1

def iterate {α : Type} (f : α → α) : Nat → α → α
  | 0, x => x
  | n + 1, x => iterate f n (f x)

/-- A draw: sixteen steps, then the low sixteen bits (R81). -/
def rngDraw (g : W32) : W32 × Nat := let h := iterate rngStep 16 g; (h, h.toNat % 2 ^ 16)

/-! ### Transcendentals (R91): the exact value to far more bits than any format keeps, with a sticky bit -/

/-- ⌊√n⌋ for n below 2^(2b). -/
def isqrtAux : Nat → Nat → Nat → Nat
  | 0, _, r => r
  | b + 1, n, r => let t := r + 2 ^ b; isqrtAux b n (if t * t ≤ n then t else r)

def isqrt (b n : Nat) : Nat := isqrtAux b n 0

/-- A value q × 2^e with a sticky bit below it. -/
def sticky (neg : Bool) (q : Nat) (e : Int) (exact : Bool) : Val := .fin neg (2 * q + if exact then 0 else 1) (e - 1)

/-- 2^(F / 2^k) in units of 2^−256, from below: the square roots of 2 that the bits of F name, high bit first. -/
def exp2Frac : Nat → Nat → Nat → Nat → Nat
  | 0, _, _, acc => acc
  | k + 1, F, r, acc =>
    let r' := isqrt 258 (r * 2 ^ 256)
    exp2Frac k F r' (if F / 2 ^ k % 2 = 1 then acc * r' / 2 ^ 256 else acc)

def exp2Val (v : Val) : Val :=
  match v with
  | .nan => .nan
  | .inf s => if s then .fin false 0 0 else .inf false
  | .fin s m e =>
    if m = 0 then .fin false 1 0
    else if 10 < expOf m e then (if s then .fin false 1 (-4000) else .fin false 1 4000)
    else
      let k := (-e).toNat
      let x : Int := scaled s m e (-(k : Int))
      let i := x / (2 ^ k : Nat)
      let F := (x % (2 ^ k : Nat)).toNat
      if F = 0 then .fin false 1 i
      else sticky false (exp2Frac k F (2 * 2 ^ 256) (2 ^ 256) / 2 ^ 128) (i - 128) false

/-- The first `n` fraction bits of log2 of y / 2^512, y in [2^512, 2^513), by repeated squaring. -/
def log2Frac : Nat → Nat → Nat → Nat
  | 0, _, acc => acc
  | n + 1, y, acc =>
    let y2 := y * y / 2 ^ 512
    if 2 * 2 ^ 512 ≤ y2 then log2Frac n (y2 / 2) (2 * acc + 1) else log2Frac n y2 (2 * acc)

def log2Val (v : Val) : Val :=
  match v with
  | .nan => .nan
  | .inf s => if s then .nan else .inf false
  | .fin s m e =>
    if m = 0 then .inf true
    else if s then .nan
    else
      let E := expOf m e
      let y := m * 2 ^ (512 - Nat.log2 m)
      if y = 2 ^ 512 then .ofInt E
      else
        let l := log2Frac 160 y 0
        if 0 ≤ E then sticky false (E.toNat * 2 ^ 160 + l) (-160) false
        else sticky true ((-E).toNat * 2 ^ 160 - l - 1) (-160) false

def rcpVal (v : Val) : Val :=
  match v with
  | .nan => .nan
  | .inf s => .fin s 0 0
  | .fin s m e =>
    if m = 0 then .inf s
    else
      let k := Nat.log2 m + 160
      sticky s (2 ^ k / m) (-e - k) (2 ^ k % m = 0)

def rsqVal (v : Val) : Val :=
  match v with
  | .nan => .nan
  | .inf s => if s then .nan else .fin false 0 0
  | .fin s m e =>
    if m = 0 then .inf s
    else if s then .nan
    else
      let m' := if e % 2 = 0 then m else 2 * m
      let e' := if e % 2 = 0 then e else e - 1
      let k := Nat.log2 m' + 160
      let r := isqrt (k + 1) (2 ^ (2 * k) / m')
      sticky false r (-(e' / 2) - k) (r * r * m' = 2 ^ (2 * k))

end Sys2Proof.Machine
end

