-- ==== Sys2Proof/Machine/Mem.lean ====
section
/-! DEFINITION. Memory, the physical address map, device-memory placement, format-region views and translation
(R22–R34, R95–R114, R294–R297). -/

namespace Sys2Proof.Machine

/-! ### Memory as a list of cells -/

/-- The byte at an address; an unlisted address reads 0 (log 3). -/
def Memory.get (m : Memory) (a : Nat) : Byte :=
  match m with
  | [] => 0
  | (b, v) :: t => if a = b then v else if a < b then 0 else Memory.get t a

def Memory.set (m : Memory) (a : Nat) (v : Byte) : Memory :=
  match m with
  | [] => if v = 0 then [] else [(a, v)]
  | (b, w) :: t =>
    if a = b then (if v = 0 then t else (a, v) :: t)
    else if a < b then (if v = 0 then (b, w) :: t else (a, v) :: (b, w) :: t)
    else (b, w) :: Memory.set t a v

/-- The canonical form: addresses above `lo` strictly rising, no entry zero. -/
def Memory.wfFrom (lo : Nat) (m : Memory) : Bool :=
  match m with
  | [] => true
  | (a, v) :: t => decide (lo ≤ a) && v != 0 && Memory.wfFrom (a + 1) t

def Memory.wf (m : Memory) : Bool := Memory.wfFrom 0 m

/-- `n` bytes from address `a` of a byte function, little-endian (R1). -/
def leNat (f : Nat → Byte) (a : Nat) : Nat → Nat
  | 0 => 0
  | n + 1 => (f a).toNat + 256 * leNat f (a + 1) n

def byteOf (v i : Nat) : Byte := BitVec.ofNat 8 (v / 256 ^ i)

def toVec (v : Nat) : Vec := BitVec.ofNat 1024 v

/-- Byte `i` of a vector (R239). -/
def vecByte (v : Vec) (i : Nat) : Byte := v.extractLsb' (8 * i) 8

def vecOfBytes (bs : List Byte) : Vec := toVec (bs.foldr (fun b n => b.toNat + 256 * n) 0)

def vecBytes (v : Vec) : List Byte := (List.range 128).map (vecByte v)

def bytesOfNat (v n : Nat) : List Byte := (List.range n).map (byteOf v)

def leOfBytes (bs : List Byte) : Nat := bs.foldr (fun b n => b.toNat + 256 * n) 0

/-! ### The physical address map (R31–R33) -/

inductive Space where
  | dev (off : Nat)
  | host (h : Nat)
  | under (b : Nat) (off : Nat)
  | ctl (off : Nat)
  | peer (d : Nat) (off : Nat)
  | none
deriving DecidableEq, Repr, Inhabited

def devSize : Nat := 0x18000000000
def hostBase : Nat := 0x20000000000000
def underBase : Nat := 0x40000000000000
def ctlBase : Nat := 0x60000000000000
def peerBase : Nat := 0x80000000000000

/-- The row of R31 that covers a physical address; a peer window naming this device is its device memory (R33). -/
def State.space (s : State) (a : Nat) : Space :=
  if a < devSize then .dev a
  else if hostBase ≤ a ∧ a < hostBase + 0x10000000000000 then .host (a - hostBase)
  else if underBase ≤ a ∧ a < underBase + 16 * 0x20000000 then
    let o := a - underBase
    if o % 0x20000000 < 0x1C000000 then .under (o / 0x20000000) (o % 0x20000000) else .none
  else if ctlBase ≤ a ∧ a < ctlBase + 0x4000000 then .ctl (a - ctlBase)
  else if peerBase ≤ a ∧ a < 2 * peerBase then
    let d := a / 2 ^ 45 % 1024
    let o := a % 2 ^ 45
    if devSize ≤ o then .none
    else if d = s.links.devid.toNat % 1024 then .dev o
    else .peer d o
  else .none

/-- Where an access to a physical address is served: one through the window that names this device, locally (R33). -/
def State.home (s : State) (a : Nat) : Nat :=
  match s.space a with
  | .dev o => o
  | _ => a

/-! ### Device memory (R23, R99, R294–R297) -/

/-- The stack that owns a device-memory address (R23). -/
def stackOf (a : Nat) : Nat := a / 2 ^ 21 % 32
/-- The frame's position in its stack. -/
def framePos (a : Nat) : Nat := a / 2 ^ 26

def State.ctlOf (s : State) (stack : Nat) : Ctl := vget (s.bent (bentOfNat (stack / 2))).ctl (stack % 2)

/-- Whether position `p` lies in the compute region that FWCC gives; an ERR region is empty (R294). -/
def inRegion (fwcc : Word) (p : Nat) : Bool :=
  let b := (fwcc.extractLsb' 0 8).toNat
  let l := (fwcc.extractLsb' 8 8).toNat
  decide (b + l ≤ 192 ∧ 128 * b ≤ p ∧ p < 128 * (b + l))

/-- Whether a device-memory address lies in a bank-striped frame. -/
def State.striped (s : State) (a : Nat) : Bool := inRegion (s.ctlOf (stackOf a)).fwcc (framePos a)

/-- Whether a frame position's form differs between two values of FWCC (R297). -/
def formChanges (a b : Word) (p : Nat) : Bool := inRegion a p != inRegion b p

/-- Whether a device-memory address lies in a frame whose form a change in progress will change (R297). -/
def State.moving (s : State) (a : Nat) : Bool :=
  match (s.ctlOf (stackOf a)).chg with
  | some v => formChanges (s.ctlOf (stackOf a)).fwcc v (framePos a)
  | none => false

/-- A DRAM byte: stack, pseudo-channel, bank, row, byte within the row (R293). -/
structure Dram where
  stack : Nat
  pc : Nat
  bank : Nat
  row : Nat
  byte : Nat
deriving DecidableEq, Repr, Inhabited

/-- Placement in the bank-striped form (R295). -/
def stripedPlace (a : Nat) : Dram :=
  let p := framePos a
  let f := a % 2 ^ 21
  { stack := stackOf a, pc := p % 128 % 64, bank := 8 * (p % 128 / 64) + f / 2 ^ 18,
    row := 256 * (p / 128) + f / 2 ^ 10 % 256, byte := f % 1024 }

/-- Placement in the line-interleaved form (R99). -/
def linePlace (a : Nat) : Dram :=
  let f := a % 2 ^ 21
  { stack := stackOf a, pc := f / 2 ^ 7 % 64, bank := f / 2 ^ 13 % 16, row := 2 * framePos a + f / 2 ^ 20,
    byte := f / 2 ^ 17 % 8 * 128 + f % 128 }

/-- The line-interleaved address of a DRAM byte: the key its cell is held under. -/
def lineAddr (d : Dram) : Nat :=
  d.row / 2 * 2 ^ 26 + d.stack * 2 ^ 21 + d.row % 2 * 2 ^ 20 + d.byte / 128 * 2 ^ 17 + d.bank * 2 ^ 13 + d.pc * 2 ^ 7
    + d.byte % 128

/-- The key of a device-memory byte: the DRAM bits do not move when a frame changes form (R297). -/
def State.dramKey (s : State) (a : Nat) : Nat := if s.striped a then lineAddr (stripedPlace a) else a

/-- The key a physical byte's cell is held under. -/
def State.key (s : State) (a : Nat) : Nat :=
  match s.space a with
  | .dev o => s.dramKey o
  | _ => a

/-! ### Reading and writing bytes at their homes -/

/-- Whether two accesses overlap. -/
def Loc.overlap (a : Loc) (n : Nat) (b : Loc) (m : Nat) : Bool :=
  match a, b with
  | .spad x, .spad y | .phys x, .phys y => decide (x < y + m ∧ y < x + n)
  | _, _ => false

def State.rawByte (s : State) (a : Nat) : Byte := s.mem.get (s.key a)

/-- Four-bit or six-bit elements of packed bytes (R73). -/
def packedElem (w : Nat) (f : Nat → Byte) (base k : Nat) : Nat :=
  if w = 4 then ((f (base + k / 2)).toNat / 2 ^ (4 * (k % 2))) % 16
  else leNat f (base + k / 4 * 3) 3 / 2 ^ (6 * (k % 4)) % 64

/-- The bit of plane `p` (of `w`) for an element: planes run from the sign or top bit down (R76). -/
def planeBit (w p x : Nat) : Nat := x / 2 ^ (w - 1 - p) % 2

/-- Byte `j` of plane `p` of a segment of `w`-bit elements (R76). -/
def planeByte (w : Nat) (elem : Nat → Nat) (p j : Nat) : Byte :=
  BitVec.ofNat 8 ((List.range 8).foldr (fun i n => planeBit w p (elem (8 * j + i)) + 2 * n) 0)

/-- A segment's planes `p0` to `p0 + n − 1`, each of 16 bytes. -/
def planeBytes (w : Nat) (elem : Nat → Nat) (p0 n : Nat) : List Byte :=
  (List.range n).flatMap fun p => (List.range 16).map fun j => planeByte w elem (p0 + p) j

/-- Element `k` of a plane-ordered segment whose bytes are `f` (R76). -/
def planeElem (w : Nat) (f : Nat → Byte) (k : Nat) : Nat :=
  (List.range w).foldl (fun n p => 2 * n + (f (16 * p + k / 8)).toNat / 2 ^ (k % 8) % 2) 0

/-- An expansion to E4M3 (R74). -/
def expandE4m3 (f : Fmt) (x : Nat) : Nat := Fmt.e4m3.encode .zero false false 0 (f.decode x)

/-- Whether a format region is enabled. -/
def FmtReg.en (r : FmtReg) : Bool := r.ctl.getLsbD 0
def FmtReg.vbase (r : FmtReg) : Nat := r.view.toNat % 2 ^ 56 / 128 * 128
/-- Element rows of the view. -/
def FmtReg.rows (r : FmtReg) : Nat := (r.ctl.extractLsb' 18 14).toNat + 1
def FmtReg.fmt (r : FmtReg) : BitVec 4 := r.ctl.extractLsb' 4 4
def FmtReg.plane (r : FmtReg) : Bool := r.ctl.getLsbD 3
/-- Element rows, and for MXFP4 the scale rows after them (R113). -/
def FmtReg.allRows (r : FmtReg) : Nat := if r.fmt = 8 then r.rows + (r.rows + 15) / 16 else r.rows
def FmtReg.covers (r : FmtReg) (a : Nat) : Bool :=
  r.en && decide (r.vbase ≤ a ∧ a < r.vbase + 128 * r.allRows)

/-- The enabled view a device-memory address lies in (R112). -/
def State.viewAt (s : State) (a : Nat) : Option FmtReg :=
  (vlist (s.ctlOf (stackOf a)).fr).find? fun r => r.covers a

/-- Row `r` of a view, decoded from the stored source bytes (R113): the DRAM's own, where they lie in another enabled
view too (DESIGN CHOICE, log 57). -/
def State.viewRow (s : State) (g : FmtReg) (r : Nat) : List Byte :=
  let src := g.src.toNat % 2 ^ 56 / 32 * 32
  let byte := fun a => s.rawByte a
  let order := fun (elem : Nat → Nat) =>
    if g.plane then planeBytes 8 elem 0 8 else (List.range 128).map fun k => BitVec.ofNat 8 (elem k)
  match g.fmt.toNat with
  | 0 | 1 | 6 | 7 => order fun k => (byte (src + 128 * r + k)).toNat
  | 5 => planeBytes 16 (fun k => leNat byte (src + 256 * (r / 2) + 2 * k) 2) (8 * (r % 2)) 8
  | 8 =>
    if r < g.rows then
      planeBytes 4 (packedElem 4 byte (src + 128 * r)) 0 4
        ++ planeBytes 4 (packedElem 4 byte (src + 128 * r + 64)) 0 4
    else
      let q := r - g.rows
      let base := g.scl.toNat % 2 ^ 56
      let st := max 1 (g.scl.toNat / 2 ^ 56)
      (List.range 128).map fun j =>
        if 128 * q + j < 8 * g.rows then byte (base + (128 * q + j) * st) else 0
  | 10 => order fun k => expandE4m3 .int4 (packedElem 4 byte (src + 64 * r) k)
  | 13 => order fun k => expandE4m3 .e2m1 (packedElem 4 byte (src + 64 * r) k)
  | 11 => order fun k => expandE4m3 .e2m3 (packedElem 6 byte (src + 96 * r) k)
  | 12 => order fun k => expandE4m3 .e3m2 (packedElem 6 byte (src + 96 * r) k)
  | _ => []

/-- The LLC's copy of a line of a view, if it is still there (R114). -/
def State.llcView (s : State) (line : Nat) : Option Vec :=
  match s.llc.find? fun l => l.line == line && l.view.isSome with
  | some l => if Config.llcLost s.sched.tick line then none else l.view
  | none => none

/-- A byte as its home gives it: a view's byte is decoded, or is the LLC's decoded copy (R112–R114). -/
def State.homeByte (s : State) (a : Nat) : Byte :=
  match s.space a with
  | .dev o =>
    match s.viewAt o with
    | some g =>
      match s.llcView (o / 128 * 128) with
      | some v => vecByte v (o % 128)
      | none => (s.viewRow g ((o - g.vbase) / 128)).getD (o % 128) 0
    | none => s.rawByte a
  | _ => s.rawByte a

/-- The LLC slice a device-memory line is homed in: its bent's, then a[10:7] (R24). -/
def llcSlice (a : Nat) : Nat := stackOf a / 2 * 16 + a / 128 % 16

/-- The lines of a slice beyond its first `n` gone: a slice holds 4 MiB (R21, R24). -/
def capSlice (u : Nat) : Nat → List LlcLine → List LlcLine
  | _, [] => []
  | n, x :: t =>
    if llcSlice x.line = u then
      match n with
      | 0 => capSlice u 0 t
      | k + 1 => x :: capSlice u k t
    else x :: capSlice u n t

/-- The LLC slice of a pool line: the one of the device-memory address h[40:0] in stack 2 × (h[25:21] mod 16) (R371). -/
def poolSlice (h : Nat) : Nat := h / 2 ^ 21 % 16 * 16 + h / 128 % 16

/-- Pool lines a slice holds: they share its 4 MiB with the device-memory lines (R21, R371). -/
def Links.inSlice (l : Links) (u : Nat) : Nat := (l.pool.filter fun x => poolSlice x.line == u).length

/-- A line put into its home slice as its newest of at most 32,768, `n` of them pool lines. -/
def putLlc (n : Nat) (x : LlcLine) (l : List LlcLine) : List LlcLine :=
  x :: capSlice (llcSlice x.line) (32767 - n) (l.filter fun y => y.line != x.line)

/-- The LLC with a line put into it. -/
def State.withLine (s : State) (x : LlcLine) : List LlcLine := putLlc (s.links.inSlice (llcSlice x.line)) x s.llc

/-- Whether a Furrow command at its controller has the row of a device-memory address as an operand row (R306). -/
def State.furHeld (s : State) (a : Nat) : Bool :=
  (s.ctlOf (stackOf a)).cmds.any fun f => (f.dst :: f.srcs).any fun x => decide (x ≤ a ∧ a < x + 1024 * f.n)

/-- The LLC once the line at a device-memory offset has been read: a decoded view line stays in it. -/
def State.viewLlc (s : State) (o : Nat) : List LlcLine :=
  match s.viewAt o with
  | some g =>
    let line := o / 128 * 128
    if (s.llcView line).isSome then s.llc
    else s.withLine { line := line, dirty := false, view := some (vecOfBytes (s.viewRow g ((o - g.vbase) / 128))) }
  | none => s.llc

/-- A read at an address: a decoded view line stays in its home LLC (R114). -/
def State.touchView (s : State) (a : Nat) : State :=
  { s with llc := match s.space a with
      | .dev o => s.viewLlc o
      | _ => s.llc }

/-- A read of `n` bytes at a place. -/
def State.touchLoc (s : State) (l : Loc) (n : Nat) : State :=
  match l with
  | .spad _ => s
  | .phys a => if a / 128 = (a + n - 1) / 128 then s.touchView a else (s.touchView a).touchView (a + n - 1)

/-- Whether a line has a byte whose check bits are bad (R319). -/
def State.badLine (s : State) (a : Nat) : Bool := s.marks.bad.any fun k => k / 128 == s.key a / 128

/-- Core `p`, or an agent without a core, reads `n` bytes at a place: a line with bad check bits is met (R319). -/
def State.meet (s : State) (p : Option CoreId) (l : Loc) (n : Nat) : State :=
  match l with
  | .spad _ => s
  | .phys a =>
    let hit := [a, a + n - 1].filter s.badLine
    if hit.isEmpty then s
    else { s with marks := { s.marks with met := (hit.map fun x => (p, x / 128 * 128)) ++ s.marks.met } }

def State.setByte (s : State) (a : Nat) (v : Byte) : State :=
  { s with mem := s.mem.set (s.key a) v,
           marks := { s.marks with bad := s.marks.bad.filter (· != s.key a) } }

/-- Bytes stored at a physical address, low byte first. -/
def State.storePhys (s : State) (a : Nat) : List Byte → State
  | [] => s
  | b :: t => State.storePhys (s.setByte a b) (a + 1) t

/-- The monitor entries of a core whose word meets some bytes: the contexts they wake (R124). -/
def Core.wakes (c : Core) (p : CoreId) (l : Loc) (n : Nat) : List (CoreId × Ctx) :=
  (c.mon.filter fun m => m.loc.overlap 8 l n).map fun m => (p, m.ctx)

/-- The contexts that a write of `n` bytes at a place wakes; only its own core names a scratchpad. -/
def State.wakesAt (s : State) (p : CoreId) (l : Loc) (n : Nat) : List (CoreId × Ctx) :=
  match l with
  | .spad _ => (s.core p).wakes p l n
  | .phys _ => allCores.flatMap fun q => (s.core q).wakes q l n

/-- A write performed at its home is noted for the contexts that monitor its word (R124). -/
def State.wake (s : State) (p : CoreId) (l : Loc) (n : Nat) : State :=
  { s with marks := { s.marks with woken :=
      ((s.wakesAt p l n).filter fun x => !s.marks.woken.contains x) ++ s.marks.woken } }

/-- `n` bytes written at a physical address. -/
def State.writePhys (s : State) (a : Nat) (bs : List Byte) : State := (s.storePhys a bs).wake 0 (.phys a) bs.length

def State.readPhys (s : State) (a n : Nat) : Nat := leNat s.homeByte a n

/-- `n` bytes at a place, little-endian, read at its home. -/
def State.readLoc (s : State) (p : CoreId) (l : Loc) (n : Nat) : Nat :=
  match l with
  | .spad o => leNat (s.core p).scratch.get o n
  | .phys a => s.readPhys a n

def Memory.write (m : Memory) (a : Nat) : List Byte → Memory
  | [] => m
  | b :: t => Memory.write (m.set a b) (a + 1) t

def State.writeLoc (s : State) (p : CoreId) (l : Loc) (bs : List Byte) : State :=
  match l with
  | .spad o => (s.modCore p fun c => { c with scratch := c.scratch.write o bs }).wake p l bs.length
  | .phys a => s.writePhys a bs

/-- A 64-bit word at a place written. -/
def State.writeWord (s : State) (p : CoreId) (l : Loc) (v : Word) : State := s.writeLoc p l (bytesOfNat v.toNat 8)

def Loc.add (l : Loc) (n : Nat) : Loc :=
  match l with
  | .spad o => .spad (o + n)
  | .phys a => .phys (a + n)

/-- Address bits below log2 n ignored (R108). -/
def Loc.align (l : Loc) (n : Nat) : Loc :=
  match l with
  | .spad o => .spad (o / n * n)
  | .phys a => .phys (a / n * n)

def Loc.isUnder (l : Loc) : Bool :=
  match l with
  | .phys a => decide (underBase ≤ a ∧ a < ctlBase)
  | .spad _ => false

/-- Host memory or a peer window: a write to it completes at sys scope (R116). -/
def Loc.isOutside (l : Loc) : Bool :=
  match l with
  | .phys a => decide ((hostBase ≤ a ∧ a < underBase) ∨ peerBase ≤ a)
  | .spad _ => false

/-! ### Readiness and links (R374, R380) -/

/-- Stack `k` has finished its training at T_F + 2 ms × b + 4 ms, whether or not its bit was set by then (R377, R390). -/
def State.trained (s : State) (k : Nat) : Bool :=
  match s.ready.tf with
  | some t => decide (t + 2000000 * (k / 2) + 4000000 ≤ s.sched.nanos)
  | none => false

def State.stackReady (s : State) (k : Nat) : Bool := s.ready.rdy.getLsbD (16 + k) || s.trained k
def State.underReady (s : State) (b : Nat) : Bool := s.ready.und.getLsbD b

/-- The link of a host-window access: h[12] when both links are up, else the one that is up (R369). -/
def Links.hostLink (l : Links) (h : Nat) : Option Nat :=
  match vget l.up 0, vget l.up 1 with
  | true, true => some (h / 4096 % 2)
  | true, false => some 0
  | false, true => some 1
  | false, false => none

/-- The up links toward a peer, counted from bit 0 of its mask (R374). -/
def Links.upTo (l : Links) (d : Nat) : List Nat :=
  (List.range 18).filter fun j => (vget l.peermap d).getLsbD j && (vget l.sc j).up

/-- The link a request to a peer-window line goes on: the k-th up link, k = a[15:7] mod their number (R374). -/
def Links.peerLink (l : Links) (d a : Nat) : Option Nat := (l.upTo d)[a / 128 % 512 % (l.upTo d).length]?

/-- Whether a physical address can be reached now: its unit is ready, its link is up (R369, R374, R380). -/
def State.reachable (s : State) (a : Nat) : Bool :=
  match s.space a with
  | .dev o => s.stackReady (stackOf o)
  | .under b _ => s.underReady b
  | .host h => (s.links.hostLink h).isSome && !Config.hostError s.sched.tick h
  | .peer d _ => (s.links.peerLink d a).isSome
  | .ctl _ => true
  | .none => false

def State.reachableLoc (s : State) (l : Loc) : Bool :=
  match l with
  | .phys a => s.reachable a
  | .spad _ => true

/-! ### Translation (R100–R107) -/

/-- What an access asks of the leaf (R103). -/
inductive Acc where
  | read | write | rmw | fetch | locate
deriving DecidableEq, Repr, Inhabited

/-- How an access fails: a page fault with its walk cause, ACCESS, ACCESS because its unit or link cannot be reached now
(R369, R374, R380), or FETCH_NX; or a table of its walk lies in a frame whose form is changing, and it waits (R297). -/
inductive XErr where
  | page (cause : Byte)
  | access
  | unready
  | nx
  | held
deriving DecidableEq, Repr, Inhabited

def pageLog (size : Nat) : Nat :=
  match size with
  | 0 => 12 | 1 => 14 | 2 => 16 | 3 => 18 | 4 => 20 | 5 => 21 | 6 => 24 | 7 => 27 | 8 => 30 | _ => 34

/-- The SIZE codes of a level's leaves (R102). -/
def sizeAt (level size : Nat) : Bool :=
  match level with
  | 0 => decide (size ≤ 4)
  | 1 => decide (5 ≤ size ∧ size ≤ 7)
  | 2 => decide (size = 8 ∨ size = 9)
  | _ => false

def pteV (e : Word) : Bool := e.getLsbD 0
def pteLeaf (e : Word) : Bool := e.getLsbD 1
def pteUsr (e : Word) : Bool := e.getLsbD 3
def pteRd (e : Word) : Bool := e.getLsbD 4
def pteW (e : Word) : Bool := e.getLsbD 5
def pteX (e : Word) : Bool := e.getLsbD 6
def pteCc (e : Word) : Bool := e.getLsbD 7
def ptePin (e : Word) : Bool := e.getLsbD 8
def pteNxm (e : Word) : Bool := e.getLsbD 9
def pteSize (e : Word) : Nat := (e.extractLsb' 56 4).toNat
def ptePa (e : Word) : Nat := (e.extractLsb' 12 44).toNat * 4096
/-- Reserved bits 11:10 and 2. -/
def pteZ (e : Word) : Bool := e.extractLsb' 10 2 == 0 && !e.getLsbD 2
/-- Every field of a table pointer but V, LEAF and PA is zero (R101). -/
def ptePtrZ (e : Word) : Bool := e.extractLsb' 56 8 == 0 && e.extractLsb' 2 10 == 0

/-- One level of a walk: the leaf and its no-execute mask, the cause of failure, or what `deeper` makes of the next
level's table (R100–R104). A table entry in a compute region's frame fails R296's check. A level-0 table whose base is
not a multiple of 8 KiB is read where its base stands (DESIGN CHOICE, log 38). -/
def State.walkLevel (s : State) (va level base : Nat) (deeper : Nat → Except XErr (Word × Word)) :
    Except XErr (Word × Word) :=
  let a := base + 8 * (if level = 3 then va / 2 ^ 39 % 8192 else va / 2 ^ (12 + 9 * level) % 512)
  if devSize ≤ a then .error (.page 2)
  else if s.moving a then .error .held
  else if !s.reachable a then .error .unready
  else if s.striped a then .error .access
  else
    let e := BitVec.ofNat 64 (s.readPhys a 8)
    if !pteV e then .error (.page 1)
    else if !pteZ e then .error (.page 2)
    else if pteLeaf e then
      if sizeAt level (pteSize e) then
        .ok (e, if level = 0 then BitVec.ofNat 64 (s.readPhys (a + 4096) 8) else 0)
      else .error (.page 2)
    else if !ptePtrZ e then .error (.page 2)
    else deeper (ptePa e)

/-- The walk from a level's table. -/
def State.walkFrom (s : State) (va : Nat) : Nat → Nat → Except XErr (Word × Word)
  | 0, base => s.walkLevel va 0 base fun _ => .error (.page 2)
  | l + 1, base => s.walkLevel va (l + 1) base (State.walkFrom s va l)

def State.walk (s : State) (va : Nat) : Except XErr (Word × Word) :=
  if s.trans.root.getLsbD 0 then s.walkFrom va 3 (s.trans.root.toNat % 2 ^ 56 / 2 ^ 16 * 2 ^ 16) else .error (.page 1)

def TlbEntry.hits (t : TlbEntry) (va : Nat) : Bool := decide (t.va.toNat / 2 ^ pageLog t.size = va / 2 ^ pageLog t.size)

def State.tlbFind (s : State) (salt : Nat) (l : List TlbEntry) (va : Nat) : Option TlbEntry :=
  match l.find? fun t => t.hits va with
  | some t => if Config.tlbLost s.sched.tick salt then none else some t
  | none => none

/-- The leaf an access of core `p` follows: the L1 TLB, the bent's shared TLB, or a walk (R105). -/
def State.leafFor (s : State) (p : CoreId) (va : Nat) : Except XErr (Word × Word) :=
  if s.trans.root.getLsbD 0 then
    match s.tlbFind 0 (s.core p).tlb va with
    | some t => .ok (t.leaf, t.nx)
    | none =>
      match s.tlbFind 1 (s.bent (bentOf p)).tlb va with
      | some t => .ok (t.leaf, t.nx)
      | none => s.walk va
  else .error (.page 1)

/-- At most `n` entries, the newest first. -/
def insertTlb (n : Nat) (t : TlbEntry) (l : List TlbEntry) : List TlbEntry :=
  (t :: l.filter fun x => !x.hits t.va.toNat).take n

/-- The entry a translation leaves: the whole page of the leaf it followed; none where the walk failed (R102, R105). -/
def State.newTlb (s : State) (p : CoreId) (va : Nat) : Option TlbEntry :=
  match s.leafFor p va with
  | .ok (e, nx) => some { va := BitVec.ofNat 64 va, size := pteSize e, leaf := e, nx := nx }
  | .error _ => none

def addTlb (n : Nat) (t : Option TlbEntry) (l : List TlbEntry) : List TlbEntry :=
  match t with
  | some x => insertTlb n x l
  | none => l

/-- A successful translation leaves its entry in both TLBs (R102, R105). -/
def State.fillTlb (s : State) (p : CoreId) (va : Nat) : State :=
  (s.modCore p fun c => { c with tlb := addTlb 256 (s.newTlb p va) c.tlb }).modBent (bentOf p) fun b =>
    { b with tlb := addTlb 16384 (s.newTlb p va) b.tlb }

/-- The permission an access needs of a leaf (R103, R104). -/
def leafCheck (e nx : Word) (va : Nat) (acc : Acc) (user : Bool) : Option XErr :=
  let ok := match acc with
    | .read => pteRd e
    | .write => pteW e
    | .rmw => pteRd e && pteW e
    | .fetch => pteX e
    | .locate => true
  if !ok || (user && !pteUsr e) then some (.page 3)
  else if acc = .fetch ∧ pteSize e = 0 ∧ pteNxm e ∧ nx.getLsbD (va / 64 % 64) then some .nx
  else none

/-- PA with the bits below the page size taken from VA (R102). -/
def leafAddr (e : Word) (va : Nat) : Nat :=
  let k := pageLog (pteSize e)
  ptePa e / 2 ^ k * 2 ^ k + va % 2 ^ k

/-- The physical checks of a translated access: the space exists and is ready, control registers only for a
supervisor, the compute-capable check of R296. -/
def State.physCheck (s : State) (a : Nat) (cc user : Bool) : Option XErr :=
  match s.space a with
  | .none => some .access
  | .ctl _ => if user || cc then some .access else none
  | .dev o =>
    if cc != s.striped o || (cc && decide (peerBase ≤ a)) then some .access
    else if !s.reachable a then some .unready else none
  | _ => if cc then some .access else if !s.reachable a then some .unready else none

def spadBase : Nat := 0xFFFFFFFE00000
def spadSize : Nat := 0x200000

/-- A user-mode access to the control registers, which faults ACCESS whatever the leaf permits (R32). -/
def State.ctlDenied (s : State) (a : Nat) (user : Bool) : Bool :=
  user && match s.space a with
    | .ctl _ => true
    | _ => false

/-- The place a virtual address names for core `p` (R34, R103, R296). -/
def State.translate (s : State) (p : CoreId) (va : Word) (acc : Acc) (user : Bool) : Except XErr Loc :=
  let v := va.toNat
  if 2 ^ 52 ≤ v then .error .access
  else if spadBase ≤ v then .ok (.spad (v - spadBase))
  else match s.leafFor p v with
    | .error e => .error e
    | .ok (e, nx) =>
      let a := leafAddr e v
      if s.ctlDenied a user then .error .access
      else match leafCheck e nx v acc user with
      | some x => .error x
      | none =>
        match s.physCheck a (pteCc e) user with
        | some x => .error x
        | none => .ok (.phys (s.home a))

/-- The same, leaving the TLB entry behind. -/
def State.noteVa (s : State) (p : CoreId) (va : Word) : State :=
  if 2 ^ 52 ≤ va.toNat ∨ spadBase ≤ va.toNat then s else s.fillTlb p va.toNat

/-- Whether a place lies in an enabled format-region view, where a write faults ACCESS (R114). -/
def State.inView (s : State) (l : Loc) : Bool :=
  match l with
  | .spad _ => false
  | .phys a =>
    match s.space a with
    | .dev o => (s.viewAt o).isSome
    | _ => false

/-- The space of a place; the scratchpad is no physical space. -/
def State.locSpace (s : State) (l : Loc) : Option Space :=
  match l with
  | .spad _ => none
  | .phys a => some (s.space a)

/-- Device memory, understore, scratchpad: where counters of R121 (but the scratchpad) and waits of R191 lie. -/
def State.isDevUnder (s : State) (l : Loc) : Bool :=
  match s.locSpace l with
  | some (.dev _) | some (.under _ _) => true
  | _ => false

/-- An ordinary access that a region change holds (R297). -/
def State.formHeld (s : State) (l : Loc) : Bool :=
  match s.locSpace l with
  | some (.dev o) => s.moving o
  | _ => false

def State.isOnChip (s : State) (l : Loc) : Bool :=
  match l with
  | .spad _ => true
  | .phys _ => s.isDevUnder l

def State.isPeer (s : State) (l : Loc) : Bool :=
  match s.locSpace l with
  | some (.peer _ _) => true
  | _ => false

def State.isHost (s : State) (l : Loc) : Bool :=
  match s.locSpace l with
  | some (.host _) => true
  | _ => false

def State.isDev (s : State) (l : Loc) : Bool :=
  match s.locSpace l with
  | some (.dev _) => true
  | _ => false

/-- Supervisor agents without a core, the launch scheduler and the save sequencer, translate by the walk alone
(R103). The scratchpad window, which is never translated (R34), names nothing for them (DEDUCED, log 39). -/
def State.translateSup (s : State) (va : Word) (acc : Acc) : Except XErr Nat :=
  let v := va.toNat
  if spadBase ≤ v then .error .access
  else match s.walk v with
    | .error e => .error e
    | .ok (e, nx) =>
      match leafCheck e nx v acc false with
      | some x => .error x
      | none =>
        let a := leafAddr e v
        match s.physCheck a (pteCc e) false with
        | some x => .error x
        | none => .ok (s.home a)

end Sys2Proof.Machine
end

