-- ==== Sys2Proof/Machine/Flags.lean ====
section
/-! DEFINITION. Fault codes, the fields of the status and control registers, and the read-only registers computed
from the state (R42, R64, R124, R178, R179, R241, R280, R310, R312, R350). -/

namespace Sys2Proof.Machine

/-! ### Fault codes (R310) -/

def cIllegalOp : Byte := 0x01
def cTrapWord : Byte := 0x02
def cUnderflow : Byte := 0x03
def cOverflow : Byte := 0x04
def cFetchNx : Byte := 0x05
def cPrivilege : Byte := 0x06
def cPageLoad : Byte := 0x07
def cPageStore : Byte := 0x08
def cPageFetch : Byte := 0x09
def cAccess : Byte := 0x0A
def cBreakpoint : Byte := 0x0B
def cStep : Byte := 0x0C
def cIllegalCmd : Byte := 0x0D
def cCmdHint : Byte := 0x0E
def cClampQuota : Byte := 0x10
def cFurrowReject : Byte := 0x11
def cUncorrectable : Byte := 0x13
def cWatchdogKill : Byte := 0x14
def cKilled : Byte := 0x15
def cWatchpoint : Byte := 0x16
def cSyscall : Byte := 0x17
def cOversize : Byte := 0x18
def cMalformed : Byte := 0x19

/-- Codes whose record is replayable (R311). -/
def isPage (c : Byte) : Bool := c == cPageLoad || c == cPageStore || c == cPageFetch

/-! ### Bits and fields -/

def setBit (w : Word) (i : Nat) (b : Bool) : Word := if b then w ||| BitVec.twoPow 64 i else w &&& ~~~(BitVec.twoPow 64 i)

def b2w (b : Bool) : Word := if b then 1 else 0

/-- A number placed at a field's low bit. -/
def at_ (n lo : Nat) : Word := BitVec.ofNat 64 (n * 2 ^ lo)

/-! ### STATUS, TCAUSE, CTXID (R179) -/

def Context.supMode (x : Context) : Bool := x.status.getLsbD 0
def Context.psup (x : Context) : Bool := x.status.getLsbD 1
def Context.sovr (x : Context) : Bool := x.status.getLsbD 2
def Context.stepBit (x : Context) : Bool := x.status.getLsbD 3
def Context.dbgBit (x : Context) : Bool := x.status.getLsbD 4

/-- PSUP := SUP, SUP := 1 (R180). -/
def trapStatus (st : Word) : Word := setBit (setBit st 1 (st.getLsbD 0)) 0 true

/-- SUP := PSUP, PSUP := 0 (R195, R311). -/
def returnStatus (st : Word) : Word := setBit (setBit st 0 (st.getLsbD 1)) 1 false

/-- TCAUSE from a code and a walk cause. -/
def causeOf (code aux : Byte) : Word := at_ aux.toNat 16 ||| at_ code.toNat 0

def ctxNum (k : Ctx) : Nat := k.idx.val

/-- CTXID (R179). CTX names the context from reset on, for all that its Reset column says 0, and a core that no gang holds
reads 0 in the other fields (DESIGN CHOICE, log 29). -/
def Core.ctxid (c : Core) (k : Ctx) : Word :=
  match c.place with
  | some pl => at_ pl.group.toNat 16 ||| at_ pl.lidx.toNat 8 ||| at_ (ctxNum k) 0
  | none => at_ (ctxNum k) 0

/-! ### Read-only registers computed from units -/

/-- PLSYMs (R64). -/
def Sym.reg (y : Sym) : Word :=
  at_ y.lowcnt 56 ||| at_ y.lowmax 48 ||| at_ y.wmax 40 ||| at_ y.pbind 32 ||| at_ y.bind 24 ||| at_ y.hi 16
    ||| at_ y.lo 8 ||| at_ y.pend.toNat 1 ||| at_ y.valid.toNat 0

/-- MONSTAT (R124). -/
def Core.monstat (c : Core) : Word := at_ c.monfull.toNat 8 ||| at_ c.mon.length 0

/-- VSTAT (R241). -/
def Ve.vstat (v : Ve) : Word :=
  at_ v.disc 24 ||| at_ v.cutw.toNat 19 ||| at_ v.frz.toNat 18 ||| at_ (v.stopr.isSome && v.ending.isNone).toNat 17
    ||| at_ v.run.isSome.toNat 16 ||| at_ (v.step % 8192) 0

/-- MSTAT (R280). -/
def Me.mstat (m : Me) : Word :=
  at_ m.steps.toNat 32 ||| at_ m.kstep.toNat 24 ||| at_ m.fmt.bfmt.toNat 20 ||| at_ m.fmt.afmt.toNat 16
    ||| at_ m.bwait.toNat 4 ||| at_ (m.podw || m.bldw).toNat 3 ||| at_ m.pre.toNat 2 ||| at_ m.bld.isSome.toNat 1
    ||| at_ m.run.isSome.toNat 0

/-- The fields of PODWs (R280), those of an ended subscription too. -/
def PodSub.fields (x : PodSub) : Word := at_ x.win 34 ||| at_ x.valid.toNat 33 ||| at_ x.rows 18 ||| at_ x.rpos 0

/-- PODWs (R280); without a subscription every field reads zero (log 28). -/
def PodSub.reg (x : PodSub) : Word := if x.valid then x.fields else 0

/-- ENGFLT after one more fault (R312). -/
def engfltNext (r : Word) (code : Byte) (e : Ep) : Word :=
  let n := (r.extractLsb' 16 16).toNat
  at_ (min 0xFFFF (n + 1)) 16 ||| at_ code.toNat 8 ||| at_ (4 + e.idx.val) 4

/-- A power of two between two bounds. -/
def pow2In (lo hi n : Nat) : Bool := decide (lo ≤ n ∧ n ≤ hi ∧ 2 ^ Nat.log2 n = n)

/-- A launch queue is enabled (R41). -/
def LaunchQ.on (q : LaunchQ) : Bool := pow2In 16 4096 q.size.toNat

/-- Strictly increasing among the nonzero values. -/
def rising (l : List Nat) : Bool :=
  let n := l.filter (· != 0)
  (List.range (n.length - 1)).all fun i => n.getD i 0 < n.getD (i + 1) 0

/-- LQSTAT.CFGERR (R42). -/
def LaunchQ.cfgerr (q : LaunchQ) : Bool :=
  (q.size != 0 && !q.on) || !rising [q.wdl1.toNat, q.wdl2.toNat, q.wdl3.toNat]

/-- The fault ring accepts records (R313). -/
def Faults.on (f : Faults) : Bool := pow2In 64 65536 f.size.toNat && !f.badaddr
def Faults.full (f : Faults) : Bool := f.tail - f.head == f.size

/-- The trace ring's size is valid (R358). -/
def Trace.on (t : Trace) : Bool := pow2In 1024 16777216 t.size.toNat
def Trace.full (t : Trace) : Bool := t.tail - t.head == t.size

/-! ### Comparisons of the scalar and vector instructions -/

def slt (a b : Word) : Bool := a.slt b
def ult (a b : Word) : Bool := decide (a.toNat < b.toNat)

end Sys2Proof.Machine
end

