-- ==== Sys2Proof/Machine/Operands.lean ====
section
/-! DEFINITION. Queue registers: which queue a register number names, what an instruction reads and pushes, and the
conditions of R170–R175 under which it blocks, traps or goes on. -/

namespace Sys2Proof.Machine

/-- What a register number is to a context in a mode (R169, R173). -/
inductive RKind where
  | zero
  | priv
  | sup
  /-- The producing side of a channel, in the order LC, CL, CS, SC. -/
  | prod (ch : Nat)
  /-- The consuming side. -/
  | cons (ch : Nat)
deriving DecidableEq, Repr, Inhabited

def regKind (k : Ctx) (sup : Bool) (r : BitVec 5) : RKind :=
  let n := r.toNat
  if n = 0 then .zero
  else if n < 24 then .priv
  else if n < 28 then (if sup then .sup else .priv)
  else match k, n with
    | .ld, 28 => .prod 0
    | .ld, 29 => .cons 1
    | .cp, 28 => .cons 0
    | .cp, 29 => .prod 1
    | .cp, 30 => .prod 2
    | .cp, 31 => .cons 3
    | .st, 30 => .cons 2
    | .st, 31 => .prod 3
    | _, _ => .priv

/-- The queue a register number names. -/
def Core.queue (c : Core) (k : Ctx) (r : BitVec 5) : Queue :=
  let x := c.getCtx k
  match regKind k x.supMode r with
  | .zero => []
  | .priv => vget x.regs r.toNat
  | .sup => vget x.sup (r.toNat - 24)
  | .prod ch | .cons ch => vget c.chans ch

def Core.setQueue (c : Core) (k : Ctx) (r : BitVec 5) (q : Queue) : Core :=
  let x := c.getCtx k
  match regKind k x.supMode r with
  | .zero => c
  | .priv => c.setCtx k { x with regs := vset x.regs r.toNat q }
  | .sup => c.setCtx k { x with sup := vset x.sup (r.toNat - 24) q }
  | .prod ch | .cons ch => { c with chans := vset c.chans ch q }

/-- A source: the register, and whether it is peeked (R170). -/
structure Rd where
  r : BitVec 5
  peek : Bool
deriving DecidableEq, Repr, Inhabited

def pop (r : BitVec 5) : Rd := { r := r, peek := false }
def src (r : BitVec 5) (p : Bool) : Rd := { r := r, peek := p }

/-- The pops of register `r` among some reads. -/
def popsOf (r : BitVec 5) (l : List Rd) : Nat := (l.filter fun x => x.r == r && !x.peek).length

/-- The distinct entries of `r` the reads touch: the largest of (pops before a read) + 1 (R172). -/
def needAux (r : BitVec 5) (pops : Nat) : List Rd → Nat
  | [] => 0
  | x :: t =>
    if x.r = r then max (pops + 1) (needAux r (if x.peek then pops else pops + 1) t) else needAux r pops t

def need (r : BitVec 5) (l : List Rd) : Nat := needAux r 0 l

/-- The state of the operands of an instruction about to issue. -/
inductive OpState where
  | block
  | trap (code : Byte) (tval : Word)
  | ok (vals : List Word)
deriving DecidableEq, Repr, Inhabited

/-- A read from the wrong side of a channel. -/
def wrongRead (k : Ctx) (sup : Bool) (x : Rd) : Bool :=
  match regKind k sup x.r with
  | .prod _ => true
  | _ => false

def wrongPush (k : Ctx) (sup : Bool) (r : BitVec 5) : Bool :=
  match regKind k sup r with
  | .cons _ => true
  | _ => false

/-- A private register that holds too few entries traps at once (R172). -/
def underflows (c : Core) (k : Ctx) (l : List Rd) (x : Rd) : Bool :=
  match regKind k (c.getCtx k).supMode x.r with
  | .priv | .sup => decide ((c.queue k x.r).length < need x.r l)
  | _ => false

/-- A read that waits: a channel with too few entries, or a head entry not yet filled (R171, R172). -/
def readWaits (c : Core) (k : Ctx) (l : List Rd) (x : Rd) : Bool :=
  match regKind k (c.getCtx k).supMode x.r with
  | .zero | .prod _ => false
  | _ =>
    let q := c.queue k x.r
    decide (q.length < need x.r l) || !(q.take (need x.r l)).all (·.filled)

/-- A push onto a channel that is full waits on the producing side (R172). -/
def pushWaits (c : Core) (k : Ctx) (push : Option (BitVec 5)) : Bool :=
  match push with
  | none => false
  | some r =>
    match regKind k (c.getCtx k).supMode r with
    | .prod ch => decide (4 ≤ (vget c.chans ch).length)
    | _ => false

/-- A push that finds a private register full, its own pops counted first (R170, R172). -/
def pushOverflows (c : Core) (k : Ctx) (l : List Rd) (push : Option (BitVec 5)) : Bool :=
  match push with
  | none => false
  | some r =>
    match regKind k (c.getCtx k).supMode r with
    | .priv | .sup => decide (4 ≤ (c.queue k r).length - popsOf r l)
    | _ => false

/-- The values the reads give, in field order (R170). -/
def readVals (c : Core) (k : Ctx) : List Rd → List Word
  | [] => []
  | x :: t =>
    match regKind k (c.getCtx k).supMode x.r with
    | .zero => 0 :: readVals c k t
    | _ =>
      let q := c.queue k x.r
      (q.headD default).val :: readVals (if x.peek then c else c.setQueue k x.r q.tail) k t

/-- The pops of an instruction made. -/
def popAll (c : Core) (k : Ctx) : List Rd → Core
  | [] => c
  | x :: t => popAll (if x.peek then c else c.setQueue k x.r (c.queue k x.r).tail) k t

def firstReg (f : Rd → Bool) (l : List Rd) : Word :=
  match l.find? f with
  | some x => BitVec.ofNat 64 x.r.toNat
  | none => 0

/-- R172 and steps 1–3 of R175 for an instruction that reads `l`, pushes to `push` and has `illegal` set where its
entry names an ILLEGAL_OP condition. -/
def operands (c : Core) (k : Ctx) (l : List Rd) (push : Option (BitVec 5)) (illegal : Bool) : OpState :=
  let sup := (c.getCtx k).supMode
  let bad := illegal || l.any (wrongRead k sup) || (push.map (wrongPush k sup)).getD false
  if l.any (underflows c k l) then
    if bad then .trap cIllegalOp 0 else .trap cUnderflow (firstReg (underflows c k l) l)
  else if l.any (readWaits c k l) || pushWaits c k push then .block
  else if bad then .trap cIllegalOp 0
  else if pushOverflows c k l push then .trap cOverflow (BitVec.ofNat 64 (push.getD 0).toNat)
  else .ok (readVals c k l)

/-- An entry pushed at the tail (R171). -/
def Core.pushEntry (c : Core) (k : Ctx) (r : BitVec 5) (e : QEntry) : Core := c.setQueue k r (c.queue k r ++ [e])

/-- A value of latency 1 pushed: its entry is present at once (R174). -/
def Core.push (c : Core) (k : Ctx) (r : BitVec 5) (v : Word) : Core :=
  let c1 := c.pushEntry k r { id := (c.getCtx k).nextId, val := v, filled := true }
  let x := c1.getCtx k
  c1.setCtx k { x with nextId := x.nextId + 1 }

/-- An entry reserved for an access or a later value, and that access put among the context's (R171). -/
def Core.issue (c : Core) (k : Ctx) (push : Option (BitVec 5)) (cls : BitVec 4) (kind : PendKind)
    (o : Origin := {}) : Core :=
  let x := c.getCtx k
  let c1 := match push with
    | some r => c.pushEntry k r { id := x.nextId, val := 0, filled := false }
    | none => c
  let y := c1.getCtx k
  c1.setCtx k
    { y with nextId := x.nextId + 1,
             pend := y.pend ++
               [{ id := x.nextId, cls := cls, kind := kind, dst := push.map fun r => (r, x.supMode), orig := o }] }

/-- The reserved entry `id` filled, wherever the register that holds it is (R171). -/
def fillEntry (id : Nat) (v : Word) (q : Queue) : Queue :=
  modFirst (fun e => e.id == id && !e.filled) (fun e => { e with val := v, filled := true }) q

def Core.fill (c : Core) (k : Ctx) (id : Nat) (dst : Option (BitVec 5 × Bool)) (v : Word) : Core :=
  match dst with
  | none => c
  | some (r, sup) =>
    let x := c.getCtx k
    match regKind k sup r with
    | .zero | .cons _ => c
    | .priv => c.setCtx k { x with regs := vmod x.regs r.toNat (fillEntry id v) }
    | .sup => c.setCtx k { x with sup := vmod x.sup (r.toNat - 24) (fillEntry id v) }
    | .prod ch => { c with chans := vmod c.chans ch (fillEntry id v) }

end Sys2Proof.Machine
end

