-- ==== Sys2Proof/Machine/Ops.lean ====
section
/-! DEFINITION. The operations the meanings share: trace and fault records, taking a trap and returning from one,
committing a word, the L1, scalar accesses, counters. -/

namespace Sys2Proof.Machine

abbrev Out := Host.Outcome State Fault Refusal

/-! ### The agent whose step this is -/

def State.p (s : State) : CoreId := s.sched.core
def State.k (s : State) : Ctx := s.sched.ctx
def State.me! (s : State) : Context := s.ctx s.p s.k
def State.user (s : State) : Bool := !(s.ctx s.p s.k).supMode

/-! ### Freezes (R67, R385) -/

/-- An ECC or clock-change freeze holds the core. -/
def State.stalled (s : State) (p : CoreId) : Bool :=
  (match (s.core p).eccUntil with
   | some t => decide (s.cycle < t)
   | none => false) || s.clock.busy.isSome

/-- A freeze that has run out by cycle `now` is put among the past ones; `busy` says a clock change holds the core. -/
def Core.settleFreeze (c : Core) (now : Nat) (busy : Bool) : Core :=
  match c.frzAt, c.eccUntil with
  | some a, some u => if !busy && decide (u ≤ now) then { c with frzAt := none, frzPast := c.frzPast + (u - a) } else c
  | _, _ => c

/-- A core's time without its ECC and clock-change freezes, in cycles (R62, R66). -/
def State.live (s : State) (p : CoreId) : Nat :=
  let c := (s.core p).settleFreeze s.cycle s.clock.busy.isSome
  c.frzAt.getD s.cycle - c.frzPast

/-- A freeze begins at cycle `now`, where none is in force. -/
def Core.freezeAt (c : Core) (now : Nat) (busy : Bool) : Core :=
  let d := c.settleFreeze now busy
  { d with frzAt := some (d.frzAt.getD now) }

/-- A clock change ends at cycle `now`: the freeze goes on where a storage error's lasts longer. -/
def Core.thawAt (c : Core) (now : Nat) : Core :=
  match c.frzAt, c.eccUntil with
  | none, _ => c
  | some a, some u => if now < u then c else { c with frzAt := none, frzPast := c.frzPast + (now - a) }
  | some a, none => { c with frzAt := none, frzPast := c.frzPast + (now - a) }

/-- A region change is in progress at some controller: the engines' accesses wait for its end (R297). -/
def State.changing (s : State) : Bool := (vlist s.bents).any fun b => (vlist b.ctl).any fun c => c.chg.isSome

/-! ### The host pool (R371) -/

/-- Whether a host-window address lies in the host pool. -/
def Links.inPool (l : Links) (h : Nat) : Bool :=
  l.cxl && decide (l.hpbase.toNat ≤ h ∧ h < l.hpbase.toNat + l.hpsize.toNat)

/-- The pool lines of a slice beyond its first `n` gone (R21). -/
def capPool (u : Nat) : Nat → List PoolLine → List PoolLine
  | _, [] => []
  | n, x :: t =>
    if poolSlice x.line = u then
      match n with
      | 0 => capPool u 0 t
      | k + 1 => x :: capPool u k t
    else x :: capPool u n t

/-- A pool line used: the slice holds it as its newest line, exclusively once a write has used it. -/
def putPool (line : Nat) (wr : Bool) (l : List PoolLine) : List PoolLine :=
  let old := l.find? fun x => x.line == line
  { line := line, excl := wr || (old.map (·.excl)).getD false } ::
    capPool (poolSlice line) 32766 (l.filter fun x => x.line != line)

/-- A slice's device-memory lines once its pool lines have taken their share (R21, R371). -/
def Links.yield (l : Links) (h : Nat) (d : List LlcLine) : List LlcLine :=
  capSlice (poolSlice h) (32768 - l.inSlice (poolSlice h)) d

/-- The pool lines of an access of `n` bytes are held by the LLC: at most 32,767 of a slice, so that a device-memory line
always finds room (what leaves is the model's choice: log 6). -/
def State.holdPool (s : State) (l : Loc) (n : Nat) (wr : Bool) : State :=
  match l with
  | .spad _ => s
  | .phys a =>
    match s.space a with
    | .host h =>
      if s.links.inPool h then
        let t := s.modLinks fun x => { x with pool :=
          let first := putPool (h / 128 * 128) wr x.pool
          if (h + n - 1) / 128 = h / 128 then first else putPool ((h + n - 1) / 128 * 128) wr first }
        { t with llc := t.links.yield (h + n - 1) (t.links.yield h s.llc) }
      else s
    | _ => s

/-- Bytes written by a unit of the module at a physical address: a pool line they lie in is held exclusively (R371). -/
def State.writeSup (s : State) (a : Nat) (bs : List Byte) : State :=
  (s.writePhys a bs).holdPool (.phys a) bs.length true

/-! ### Performance counters (R357) -/

/-- The event code of counter `n`. -/
def Debug.code (d : Debug) (n : Nat) : Byte := ((if n < 8 then d.pmsel0 else d.pmsel1)).extractLsb' (8 * (n % 8)) 8

/-- A counter wraps: OVF sets, and an enabled sample is requested once (R357). -/
def Debug.wrap (d : Debug) (n : Nat) : Debug :=
  { d with pmctl := setBit d.pmctl n true,
           sample := if d.pmctl.getLsbD (32 + n) then d.sample ||| BitVec.twoPow 16 n else d.sample }

def Debug.bump (d : Debug) (n k : Nat) : Debug :=
  let v := (vget d.pmctr n).toNat + k
  let d1 := { d with pmctr := vset d.pmctr n (BitVec.ofNat 64 v) }
  if 2 ^ 64 ≤ v then d1.wrap n else d1

/-- `k` events of a code counted in every counter that selects it. -/
def Debug.count (d : Debug) (code : Byte) (k : Nat) : Debug :=
  (List.range 16).foldl (fun x n => if x.code n = code then x.bump n k else x) d

/-- Counted; during an ECC or clock-change freeze only event 0x01 is. -/
def State.count (s : State) (p : CoreId) (code : Byte) (k : Nat) : State :=
  let d := (s.core p).dbg
  if ((List.range 16).any fun n => d.code n == code) && (code == 0x01 || !s.stalled p) then
    s.modDbg p fun x => x.count code k
  else s

/-- PLFREEZE: with the cycles so far of a timetable freeze in force, those of the core's other freezes left out (R66). -/
def State.plfreeze (s : State) (p : CoreId) : Word :=
  (s.core p).plumb.freeze + BitVec.ofNat 64 (if (s.ve p).frz then s.live p - (s.ve p).frzAt else 0)

/-- Shared-TLB misses of a translation: 1 or 0 (R105, R357). -/
def State.misses (s : State) (p : CoreId) (va : Nat) : Nat :=
  if (s.tlbFind 0 (s.core p).tlb va).isNone && (s.tlbFind 1 (s.bent (bentOf p)).tlb va).isNone then 1 else 0

/-- A translation made, its TLB entries left behind, a shared-TLB miss counted (R102, R105, R357). -/
def State.note (s : State) (p : CoreId) (va : Word) : State :=
  if 2 ^ 52 ≤ va.toNat ∨ spadBase ≤ va.toNat then s else (s.noteVa p va).count p 0x10 (s.misses p va.toNat)

/-- A translation that fails leaves no entry, and its shared-TLB miss is counted. -/
def State.noteFail (s : State) (p : CoreId) (va : Word) : State :=
  if 2 ^ 52 ≤ va.toNat ∨ spadBase ≤ va.toNat then s else s.count p 0x10 (s.misses p va.toNat)

def State.noteAll (s : State) (p : CoreId) : List Word → State
  | [] => s
  | v :: t => State.noteAll (s.note p v) p t

/-! ### Trace records (R358–R361) -/

def State.lqOf (s : State) (p : CoreId) : Option (BitVec 6) := (s.gangOf p).map (·.lq)

/-- The header of a record (R360); `lq` is the launch queue a device-wide record names. -/
def State.traceHead (s : State) (type sub : Nat) (p : Option CoreId) (lq : Nat) : Word :=
  at_ type 0 ||| at_ sub 8 ||| at_ (s.trace.ctl.extractLsb' 16 16).toNat 16
    ||| (match p with
        | none => at_ 0xFF 32 ||| at_ lq 52
        | some c =>
          match (s.core c).place with
          | none => at_ c.val 32
          | some pl => at_ c.val 32 ||| at_ pl.lidx.toNat 40 ||| at_ pl.group.toNat 48
                         ||| at_ ((s.lqOf c).getD 0).toNat 52)

/-- Whether a physical address takes a record of a ring: memory that can be reached now (R31, R313). -/
def State.ringAt (s : State) (a : Nat) : Bool :=
  match s.space a with
  | .dev _ | .under _ _ | .host _ => s.reachable a
  | _ => false

/-- A record written to the ring, or dropped and counted where the ring is full (R359). A record whose place no memory
covers, or which lies in a format-region view, has no effect (R31; DEDUCED, log 40). -/
def State.writeTrace (s : State) (r : TraceRec) : State :=
  if s.trace.full then s.modTrace fun t => { t with lost := t.lost + 1 }
  else
    let a := s.trace.base.toNat / 64 * 64 + 64 * (s.trace.tail.toNat % s.trace.size.toNat)
    if !s.ringAt a || s.inView (.phys a) then s
    else (s.writeSup a (r.words.flatMap fun w => bytesOfNat w.toNat 8)).modTrace fun t => { t with tail := t.tail + 1 }

/-- A bent's buffer written out in production order, once no region change holds the ring (R297). -/
def State.flushTrace (s : State) (b : BentId) : State :=
  if s.changing then s else ((s.bent b).trace.foldl State.writeTrace s).modBent b fun x => { x with trace := [] }

/-- Whether a record of a type is produced now, for the gang of core `p` if it concerns one (R359); none after a reset
point, whose TRUNC ends the session (R364). -/
def State.traceOn (s : State) (bit : Nat) (p : Option CoreId) : Bool :=
  s.trace.ctl.getLsbD 0 && s.trace.on && s.trace.ctl.getLsbD bit && s.trace.rst.isNone &&
    match p with
    | none => true
    | some c => match s.lqOf c with
      | some q => s.trace.qmask.getLsbD q.toNat
      | none => true

/-- A record put into a bent's buffer, which is written out at 32 records. -/
def State.emit (s : State) (b : BentId) (type sub : Nat) (p : Option CoreId) (body : List Word) : State :=
  let r : TraceRec :=
    { words := ([s.traceHead type sub p 0, BitVec.ofNat 64 s.cycle] ++ body ++ List.replicate 6 0).take 8, born := s.nanos }
  let s1 := s.modBent b fun x => { x with trace := x.trace ++ [r] }
  if 32 ≤ (s1.bent b).trace.length then s1.flushTrace b else s1

/-- An EVENT record (R361). -/
def State.event (s : State) (b : BentId) (code : Nat) (p : Option CoreId) (body : List Word) : State :=
  if s.traceOn 2 p then s.emit b 3 code p body else s

/-! ### Fault records (R313, R314) -/

/-- What a fault record says of its source. -/
structure FaultSrc where
  core : Option CoreId
  src : Nat
  insn : W32 := 0
  pc : Word := 0
  addr : Word := 0
  elem : Nat := 0
  arg0 : Word := 0
  arg1 : Word := 0
  /-- The place and the record where they are not those of the core's gang now: a saved core's (R315). -/
  place : Option Place := none
  reca : Option Word := none

def placeLidx (pl : Option Place) : Nat :=
  match pl with
  | some x => x.lidx.toNat
  | none => 0

def placeGroup (pl : Option Place) : Nat :=
  match pl with
  | some x => x.group.toNat
  | none => 0

/-- The eight words of a record (R314). -/
def State.faultWords (s : State) (f : FaultSrc) (code aux : Byte) (ticket : Option (BitVec 16)) : List Word :=
  let pl : Option Place := f.place.or (f.core.bind fun c => (s.core c).place)
  let reca : Option Word := f.reca.or ((f.core.bind fun c => s.gangOf c).map fun g => g.reca)
  [at_ ticket.isSome.toNat 63 ||| at_ ((f.core.map (·.val)).getD 0) 48 ||| at_ (placeLidx pl) 40
     ||| at_ (placeGroup pl) 36 ||| at_ f.src 32 ||| at_ (ticket.getD 0).toNat 16
     ||| at_ aux.toNat 8 ||| at_ code.toNat 0,
   at_ f.insn.toNat 0, f.pc, f.addr, BitVec.ofNat 64 f.elem, reca.getD 0, f.arg0, f.arg1]

/-- Whether the ring takes a record now; a region change holds its writes (R297). -/
def State.ringOpen (s : State) : Bool := s.flt.on && !s.flt.full && !s.changing

/-- A record written to its slot; a slot outside device memory, understore and the host window, or a write that
ends in an error, one into a format-region view among them (R114), sets BADADDR and stores nothing (R313). Answers
whether it was stored. -/
def State.storeFault (s : State) (r : FaultRec) : State × Bool :=
  let a := s.flt.base.toNat / 64 * 64 + 64 * (s.flt.tail.toNat % s.flt.size.toNat)
  if s.ringAt a && !s.inView (.phys a) then
    ((s.writeSup a (r.words.flatMap fun w => bytesOfNat w.toNat 8)).modFlt fun f => { f with tail := f.tail + 1 }, true)
  else (s.modFlt fun f => { f with badaddr := true }, false)

/-- A record posted by a source in bent `b`: written at once, or held behind the bent's earlier records (R313). -/
def State.postFault (s : State) (b : BentId) (r : FaultRec) : State :=
  let hold := fun (t : State) => t.modBent b fun x => { x with faults := x.faults ++ [r] }
  if s.ringOpen ∧ (s.bent b).faults.isEmpty then
    match s.storeFault r with
    | (t, true) => t
    | (t, false) => hold t
  else hold s

/-- Whether a new record of bent `b` can be written or held; where it cannot, its source holds in place (R313). -/
def State.faultRoom (s : State) (b : BentId) : Bool :=
  (s.ringOpen && (s.bent b).faults.isEmpty) || decide ((s.bent b).faults.length < 64)

/-- A ticket that no parked agent holds (R314; the order of tickets is the model's, log 7). -/
def State.freshTicket (s : State) : BitVec 16 :=
  (((List.range (s.flt.tickets.length + 1)).map fun i => s.flt.nextTicket + BitVec.ofNat 16 i).find? fun t =>
    !s.flt.tickets.any fun x => x.1 == t).getD 0

def State.takeTicket (s : State) (t : BitVec 16) (words : List Word) : State :=
  s.modFlt fun f => { f with nextTicket := t + 1, tickets := (t, words) :: f.tickets }

def State.dropTicket (s : State) (t : BitVec 16) : State :=
  s.modFlt fun f => { f with tickets := f.tickets.filter fun x => x.1 != t }

/-- A record with no replay. -/
def State.report (s : State) (b : BentId) (f : FaultSrc) (code aux : Byte) : State :=
  s.postFault b { words := s.faultWords f code aux none, ticket := none }

/-- A replayable record under ticket `t`. -/
def State.reportPage (s : State) (b : BentId) (f : FaultSrc) (code aux : Byte) (t : BitVec 16) : State :=
  (s.takeTicket t (s.faultWords f code aux (some t))).postFault b
    { words := s.faultWords f code aux (some t), ticket := some t }

/-! ### Traps (R180) and the return (R195) -/

/-- The trap registers of a context that traps, and its mode after (R180): TEPC, TCAUSE, TWORD, TVAL, STATUS; the
pc goes to TVEC with bits 1:0 cleared, or the context stops where TVEC = 0. -/
def Context.trap (x : Context) (code aux : Byte) (tval epc : Word) (word : W32) : Context :=
  { x with tepc := epc, tcause := causeOf code aux, tword := word.setWidth 64, tval := tval,
           status := trapStatus x.status, pc := if x.tvec = 0 then x.pc else x.tvec &&& ~~~3#64,
           run := if x.tvec = 0 then .stopped else x.run,
           shadow := none, stepOver := false, qclr := none, wait := none, blocked := false, mcfg := none }

/-- TRAP CODES whose record carries an address (R314). -/
def addrOf (code : Byte) (tval : Word) : Word :=
  if isPage code || code == cAccess || code == cWatchpoint || code == cFetchNx then tval else 0

/-- A trap of context `k` of core `p`: the one entry of every exception. With TVEC = 0 it is also reported to the
host, replayable for a page fault (R180, R311). -/
def State.trap (s : State) (p : CoreId) (k : Ctx) (code aux : Byte) (tval epc : Word) (word : W32) : State :=
  let x := s.ctx p k
  let s1 := s.setCtx p k (x.trap code aux tval epc word)
  if x.tvec = 0 then
    let f : FaultSrc :=
      { core := some p, src := k.idx.val, insn := word, pc := epc, addr := addrOf code tval }
    if isPage code then
      let t := s1.freshTicket
      (s1.reportPage (bentOf p) f code aux t).modCtx p k fun y => { y with ticket := some t }
    else s1.report (bentOf p) f code aux
  else s1

/-- A precise trap of the current word: nothing of it commits (R7). -/
def State.trapNow (s : State) (code aux : Byte) (tval : Word) : State :=
  s.trap s.p s.k code aux tval s.me!.pc s.sched.word

/-- A monitor entry of a context freed (R124). -/
def Core.freeMon (c : Core) (k : Ctx) : Core := { c with mon := c.mon.filter fun m => m.ctx != k }

/-- The current word commits and the context goes on at `next`: the word is counted, and with STEP = 1 a user-mode
word is followed by a STEP trap (R179, R180). `user` is the mode the word executed in. -/
def State.commit (s : State) (user : Bool) (next : Word) : State :=
  let s1 := s.modCtx s.p s.k fun x =>
    { x with pc := next, shadow := none, stepOver := false, qclr := none, wait := none, blocked := false, mcfg := none }
  let s2 := s1.count s1.p (match s1.k with | .ld => 0x02 | .cp => 0x03 | .st => 0x04) 1
  if user && (s2.ctx s2.p s2.k).stepBit then s2.trap s2.p s2.k cStep 0 0 next s2.sched.word else s2

/-- The commit of a word that does not branch. -/
def State.advance (s : State) : State := s.commit s.user (s.me!.pc + 4)

/-- SYSRET: pc := TEPC, SUP := PSUP, PSUP := 0, then step-over where SOVR was armed (R195). -/
def Context.sysret (x : Context) : Context :=
  { x with pc := x.tepc, status := setBit (returnStatus x.status) 2 false, stepOver := x.sovr, blocked := false,
           shadow := none }

/-- The current word waits (R36). -/
def State.blockNow (s : State) : State := s.modCtx s.p s.k fun x => { x with blocked := true }

/-- R170–R175 for the current word, then `body` on the values with every pop made. -/
def scalar (rds : List Rd) (push : Option (BitVec 5)) (illegal : Bool) (s : State)
    (body : List Word → State → State) : State :=
  match operands (s.core s.p) s.k rds push illegal with
  | .block => s.blockNow
  | .trap code tval => s.trapNow code 0 tval
  | .ok vals => body vals (s.modCore s.p fun c => popAll c s.k rds)

def arg (l : List Word) (i : Nat) : Word := l.getD i 0

/-- A result of latency 1 pushed, and the word committed. -/
def State.result (s : State) (d : BitVec 5) (v : Word) : State :=
  (s.modCore s.p fun c => c.push s.k d v).advance

/-- A result of longer latency: its entry is reserved and filled by QREG_FILL (R171, R174). -/
def State.later (s : State) (d : BitVec 5) (v : Word) : State :=
  (s.modCore s.p fun c => c.issue s.k (some d) 0 (.value v)).advance

/-! ### The L1 data cache (R95, R96, R110) -/

/-- The core whose L1 holds a line for core `p`: its own, or core `line[8:7]` of a fused bay. -/
def State.l1Core (s : State) (p : CoreId) (line : Nat) : CoreId :=
  if (s.bay (bayOf p)).fused then coreOfBay (bayOf p) (line / 128 % 4) else p

/-- The set of a line (R96). -/
def l1Set (fused : Bool) (line : Nat) : Nat := if fused then line / 512 % 512 else line / 128 % 512

def findLine (l : List L1Line) (line : Nat) : Option Vec := (l.find? fun x => x.line == line).map (·.data)

/-- A line made the most recently used of at most `ways` in its set. -/
def putLine (set : Nat → Nat) (ways : Nat) (x : L1Line) (l : List L1Line) : List L1Line :=
  let rest := l.filter fun y => y.line != x.line
  let same := (rest.filter fun y => set y.line == set x.line).take (ways - 1)
  x :: rest.filter fun y => set y.line != set x.line || same.any fun z => z.line == y.line

def dropLine (line : Nat) (l : List L1Line) : List L1Line := l.filter fun y => y.line != line

def State.dropL1 (s : State) (p : CoreId) (line : Nat) : State :=
  s.modCore (s.l1Core p line) fun c => { c with l1 := dropLine line c.l1 }

/-- The issuer's L1, or the whole fused L1, emptied (R116). -/
def State.clearL1 (s : State) (p : CoreId) : State :=
  if (s.bay (bayOf p)).fused then
    [0, 1, 2, 3].foldl (fun t j => t.modCore (coreOfBay (bayOf p) j) fun c => { c with l1 := [] }) s
  else s.modCore p fun c => { c with l1 := [] }

/-- The scratchpad bank of a row (R98). -/
def bankOf (o : Nat) : Nat := o / 128 % 16

/-- The banks of `n` bytes grant their rows to a requester of R98's rotation, and their pointers go behind it. -/
def State.grant (s : State) (p : CoreId) (r : Fin 8) (l : Loc) (n : Nat) : State :=
  match l with
  | .phys _ => s
  | .spad o => s.modCore p fun c =>
    { c with banks := (List.range ((o % 128 + n + 127) / 128)).foldl (fun t i => vset t (bankOf (o + 128 * i)) (r + 1)) c.banks }

/-- A read of `n` bytes by core `p` at their home: a view line it decodes stays in its LLC (R114), a pool line is held
(R371), a line with bad check bits is met (R319). -/
def State.used (s : State) (p : CoreId) (l : Loc) (n : Nat) : State :=
  ((s.touchLoc l n).holdPool l n false).meet (some p) l n

/-- A scalar load's value, with the L1 filled or used (R96). -/
def State.loadScalar (s : State) (p : CoreId) (l : Loc) (n : Nat) : Nat × State :=
  match l with
  | .spad _ => (s.readLoc p l n, s)
  | .phys a =>
    if s.isDev l then
      let line := a / 128 * 128
      let q := s.l1Core p line
      let fused := (s.bay (bayOf p)).fused
      let hit := match findLine (s.core q).l1 line with
        | some v => if Config.l1Lost s.sched.tick line then none else some v
        | none => none
      match hit with
      | some v =>
        (leNat (vecByte v) (a % 128) n,
         (s.modCore q fun c => { c with l1 := putLine (l1Set fused) 16 { line := line, data := v } c.l1 }).count p 0x08 1)
      | none =>
        let s1 := (s.touchView a).meet (some p) (.phys line) 128
        let v := toVec (s1.readPhys line 128)
        (leNat (vecByte v) (a % 128) n,
         (s1.modCore q fun c => { c with l1 := putLine (l1Set fused) 16 { line := line, data := v } c.l1 }).count p 0x09 1)
    else (s.readLoc p l n, s.holdPool l n false)

/-- Bytes of a vector replaced from offset `o` on. -/
def vecPatch (v : Vec) (o : Nat) (bs : List Byte) : Vec :=
  vecOfBytes ((vecBytes v).take o ++ bs ++ (vecBytes v).drop (o + bs.length))

/-- A write at a home by this core's scalar store: the L1 copy, if present, is updated (R96). The update is no use of
the line for the choice of the least recently used one (DESIGN CHOICE, log 41). -/
def State.storeScalar (s : State) (p : CoreId) (l : Loc) (bs : List Byte) : State :=
  let s1 := (s.writeLoc p l bs).holdPool l bs.length true
  match l with
  | .spad _ => s1
  | .phys a =>
    if s.isDev l then
      let line := a / 128 * 128
      s1.modCore (s.l1Core p line) fun c =>
        { c with l1 := c.l1.map fun x => if x.line = line then { x with data := vecPatch x.data (a % 128) bs } else x }
    else s1

/-- A write by an engine, an atomic or a reduction of core `p`: the L1 copies of the lines it touches go (R96). -/
def State.writeHome (s : State) (p : CoreId) (l : Loc) (bs : List Byte) : State :=
  let s1 := (s.writeLoc p l bs).holdPool l bs.length true
  match l with
  | .spad _ => s1
  | .phys a =>
    if s.isDev l then
      let s2 := s1.dropL1 p (a / 128 * 128)
      if (a + bs.length - 1) / 128 = a / 128 then s2 else s2.dropL1 p ((a + bs.length - 1) / 128 * 128)
    else s1

/-! ### Watchpoints (R356) -/

def wpMatch (d : Debug) (k : Ctx) (sup : Bool) (va n : Nat) (rd wr : Bool) : Bool :=
  (List.range 8).any fun j =>
    let ctl := vget d.wpctl j
    let len := min 30 (ctl.extractLsb' 8 5).toNat
    let base := (vget d.wpaddr j).toNat % 2 ^ 52 / 2 ^ len * 2 ^ len
    ctl.getLsbD 0 && ctl.getLsbD (4 + k.idx.val) && (!sup || ctl.getLsbD 7) &&
      ((rd && ctl.getLsbD 1) || (wr && ctl.getLsbD 2)) && decide (va < base + 2 ^ len ∧ base < va + n)

/-! ### Scalar accesses (R34, R103, R108, R175) -/

/-- No code of R311: the access waits for the end of a region change over a table of its walk (R297). -/
def cHeld : Byte := 0xFF

/-- The code of a failing access of a kind (R103). -/
def pageCode (acc : Acc) : Byte :=
  match acc with
  | .read | .locate => cPageLoad
  | .write | .rmw => cPageStore
  | .fetch => cPageFetch

def xerrCode (acc : Acc) (e : XErr) : Byte × Byte :=
  match e with
  | .page cause => (pageCode acc, cause)
  | .access | .unready => (cAccess, 0)
  | .nx => (cFetchNx, 0)
  | .held => (cHeld, 0)

/-- The place of a scalar access of `n` bytes at `va`, or its fault code and walk cause: translation, then the
format-region views (R114) and the watchpoints: `wp` says the access is watched, `rd` that it is a read for them. -/
def State.scalarAt (s : State) (va : Word) (n : Nat) (acc : Acc) (wp rd : Bool) : Except (Byte × Byte) Loc :=
  match s.translate s.p va acc s.user with
  | .error e => .error (xerrCode acc e)
  | .ok l =>
    let l := l.align n
    if (acc = .write ∨ acc = .rmw) ∧ s.inView l then .error (cAccess, 0)
    else if wp && wpMatch (s.core s.p).dbg s.k (!s.user) (va.toNat / n * n) n rd
        (acc = .write ∨ acc = .rmw) then .error (cWatchpoint, 0)
    else .ok l

/-- The state with the pops of the current word undone: a trap after the operands were read commits nothing. -/
def trapAfter (s0 : State) (code aux : Byte) (tval : Word) : State := s0.trapNow code aux tval

/-- A scalar access to `va` fails: its miss is counted and it traps, or it waits for the end of a region change. -/
def State.trapAt (s0 : State) (code aux : Byte) (va : Word) : State :=
  if code = cHeld then s0.blockNow else trapAfter (s0.noteFail s0.p va) code aux va

/-! ### The home's operation of an atomic or a reduction (R118, R119, R188) -/

/-- A signed 32- or 64-bit value. -/
def asInt (n : Nat) (x : Nat) : Int := decodeInt true (8 * n) (x % 2 ^ (8 * n))

/-- The value an operation leaves in memory that held `m`, on `n` bytes. -/
def AtomOp.apply (op : AtomOp) (n m b new : Nat) : Nat :=
  let w := 2 ^ (8 * n)
  let m := m % w
  let b := b % w
  match op with
  | .add => (m + b) % w
  | .and => m &&& b
  | .or => m ||| b
  | .xor => m ^^^ b
  | .min => if asInt n b < asInt n m then b else m
  | .max => if asInt n m < asInt n b then b else m
  | .minu => if b < m then b else m
  | .maxu => if m < b then b else m
  | .swap => b
  | .cas => if m = b then new % w else m
  | .fadd => roundFp32 (Val.add false (Fmt.fp32.decode m) (Fmt.fp32.decode b))

end Sys2Proof.Machine
end

