-- ==== Sys2Proof/Machine/Alu.lean ====
section
/-! DEFINITION. The register-register ALU operations, multiply and divide (R181, R182). -/

namespace Sys2Proof.Machine

/-- A two-source operation of latency 1: a, then b, then the push to d (R170, R181). -/
def alu3 (f : Word → Word → Word) (r : R3) (s : State) : Out :=
  .next (scalar [src r.a r.pa, src r.b r.pb] (some r.d) false s fun v t => t.result r.d (f (arg v 0) (arg v 1)))

/-- A one-source operation of latency 1. -/
def alu2 (f : Word → Word) (r : R2) (s : State) : Out :=
  .next (scalar [src r.a r.pa] (some r.d) false s fun v t => t.result r.d (f (arg v 0)))

/-- A two-source operation whose value arrives later (R174, R182). -/
def slow3 (f : Word → Word → Word) (r : R3) (s : State) : Out :=
  .next (scalar [src r.a r.pa, src r.b r.pb] (some r.d) false s fun v t => t.later r.d (f (arg v 0) (arg v 1)))

/-! ### The results -/

/-- B[5:0]. -/
def sh6 (b : Word) : Nat := b.toNat % 64

def aluShl (a b : Word) : Word := a <<< sh6 b
def aluShr (a b : Word) : Word := a >>> sh6 b
def aluSra (a b : Word) : Word := a.sshiftRight (sh6 b)
def aluRotr (a b : Word) : Word := a.rotateRight (sh6 b)
def aluMin (a b : Word) : Word := if slt b a then b else a
def aluMax (a b : Word) : Word := if slt a b then b else a
def aluMinu (a b : Word) : Word := if ult b a then b else a
def aluMaxu (a b : Word) : Word := if ult a b then b else a

/-- Leading zeros of the low `n` bits. -/
def clzAux (a : Word) : Nat → Nat
  | 0 => 0
  | n + 1 => if a.getLsbD n then 0 else 1 + clzAux a n

/-- Trailing zeros above bit `i`. -/
def ctzAux (a : Word) (i : Nat) : Nat → Nat
  | 0 => 0
  | n + 1 => if a.getLsbD i then 0 else 1 + ctzAux a (i + 1) n

def aluClz (a : Word) : Word := BitVec.ofNat 64 (clzAux a 64)
def aluCtz (a : Word) : Word := BitVec.ofNat 64 (ctzAux a 0 64)
def aluPopc (a : Word) : Word := BitVec.ofNat 64 ((List.range 64).filter fun i => a.getLsbD i).length

/-- w = B[5:0], and w = 0 read as 64. -/
def extWidth (b : Word) : Nat := if sh6 b = 0 then 64 else sh6 b

def aluSext (a b : Word) : Word := (a <<< (64 - extWidth b)).sshiftRight (64 - extWidth b)
def aluZext (a b : Word) : Word := (a <<< (64 - extWidth b)) >>> (64 - extWidth b)

/-- Bits 127:64 of a product of two integers. -/
def highHalf (a b : Int) : Word := (BitVec.ofInt 128 (a * b)).extractLsb' 64 64

def mulHigh (a b : Word) : Word := highHalf a.toInt b.toInt
def mulHighU (a b : Word) : Word := highHalf a.toNat b.toNat

/-- The quotient rounded toward zero (R7, R182). -/
def divS (a b : Word) : Word :=
  if b = 0 then BitVec.allOnes 64
  else if a = 0x8000000000000000#64 ∧ b = BitVec.allOnes 64 then a
  else BitVec.ofInt 64 (a.toInt.tdiv b.toInt)

def divU (a b : Word) : Word := if b = 0 then BitVec.allOnes 64 else BitVec.ofNat 64 (a.toNat / b.toNat)

/-- The remainder with the dividend's sign. -/
def remS (a b : Word) : Word :=
  if b = 0 then a
  else if a = 0x8000000000000000#64 ∧ b = BitVec.allOnes 64 then 0
  else BitVec.ofInt 64 (a.toInt.tmod b.toInt)

def remU (a b : Word) : Word := if b = 0 then a else BitVec.ofNat 64 (a.toNat % b.toNat)

/-! ### The meanings -/

def execAdd (r : R3) (s : State) : Out := alu3 (· + ·) r s
def execSub (r : R3) (s : State) : Out := alu3 (· - ·) r s
def execAnd (r : R3) (s : State) : Out := alu3 (· &&& ·) r s
def execOr (r : R3) (s : State) : Out := alu3 (· ||| ·) r s
def execXor (r : R3) (s : State) : Out := alu3 (· ^^^ ·) r s
def execAndn (r : R3) (s : State) : Out := alu3 (fun a b => a &&& ~~~b) r s
def execShl (r : R3) (s : State) : Out := alu3 aluShl r s
def execShr (r : R3) (s : State) : Out := alu3 aluShr r s
def execSra (r : R3) (s : State) : Out := alu3 aluSra r s
def execRotr (r : R3) (s : State) : Out := alu3 aluRotr r s
def execMin (r : R3) (s : State) : Out := alu3 aluMin r s
def execMax (r : R3) (s : State) : Out := alu3 aluMax r s
def execMinu (r : R3) (s : State) : Out := alu3 aluMinu r s
def execMaxu (r : R3) (s : State) : Out := alu3 aluMaxu r s
def execCmpeq (r : R3) (s : State) : Out := alu3 (fun a b => b2w (a == b)) r s
def execCmpne (r : R3) (s : State) : Out := alu3 (fun a b => b2w (a != b)) r s
def execCmplt (r : R3) (s : State) : Out := alu3 (fun a b => b2w (slt a b)) r s
def execCmpltu (r : R3) (s : State) : Out := alu3 (fun a b => b2w (ult a b)) r s
def execCmple (r : R3) (s : State) : Out := alu3 (fun a b => b2w (!slt b a)) r s
def execCmpleu (r : R3) (s : State) : Out := alu3 (fun a b => b2w (!ult b a)) r s

/-- SEL pops its condition from d before it reads a and b (R181). -/
def execSel (r : R3) (s : State) : Out :=
  .next (scalar [pop r.d, src r.a r.pa, src r.b r.pb] (some r.d) false s fun v t =>
    t.result r.d (if arg v 0 = 0 then arg v 2 else arg v 1))

def execClz (r : R2) (s : State) : Out := alu2 aluClz r s
def execCtz (r : R2) (s : State) : Out := alu2 aluCtz r s
def execPopc (r : R2) (s : State) : Out := alu2 aluPopc r s
def execSext (r : R3) (s : State) : Out := alu3 aluSext r s
def execZext (r : R3) (s : State) : Out := alu3 aluZext r s

def execMul (r : R3) (s : State) : Out := slow3 (· * ·) r s
def execMulh (r : R3) (s : State) : Out := slow3 mulHigh r s
def execMulhu (r : R3) (s : State) : Out := slow3 mulHighU r s
def execDiv (r : R3) (s : State) : Out := slow3 divS r s
def execDivu (r : R3) (s : State) : Out := slow3 divU r s
def execRem (r : R3) (s : State) : Out := slow3 remS r s
def execRemu (r : R3) (s : State) : Out := slow3 remU r s

end Sys2Proof.Machine
end

