-- ==== Sys2Proof/Machine/Imm.lean ====
section
/-! DEFINITION. The immediate forms, the upper immediates and queue housekeeping (R128, R183–R185). -/

namespace Sys2Proof.Machine

def sext12 (i : BitVec 12) : Word := i.signExtend 64
def zext12 (i : BitVec 12) : Word := i.setWidth 64

/-- An immediate operation: A from a, then the push to d (R183). -/
def aluI (f : Word → Word → Word) (imm : Word) (d a : BitVec 5) (pa : Bool) (s : State) : Out :=
  .next (scalar [src a pa] (some d) false s fun v t => t.result d (f (arg v 0) imm))

def execAddi (r : I12) (s : State) : Out := aluI (· + ·) (sext12 r.imm) r.d r.a r.pa s
def execAndi (r : I12) (s : State) : Out := aluI (· &&& ·) (zext12 r.imm) r.d r.a r.pa s
def execOri (r : I12) (s : State) : Out := aluI (· ||| ·) (zext12 r.imm) r.d r.a r.pa s
def execXori (r : I12) (s : State) : Out := aluI (· ^^^ ·) (zext12 r.imm) r.d r.a r.pa s
def execShli (r : Sh) (s : State) : Out := aluI aluShl (r.imm.setWidth 64) r.d r.a r.pa s
def execShri (r : Sh) (s : State) : Out := aluI aluShr (r.imm.setWidth 64) r.d r.a r.pa s
def execSrai (r : Sh) (s : State) : Out := aluI aluSra (r.imm.setWidth 64) r.d r.a r.pa s
def execRotri (r : Sh) (s : State) : Out := aluI aluRotr (r.imm.setWidth 64) r.d r.a r.pa s
def execCmpeqi (r : I12) (s : State) : Out := aluI (fun a i => b2w (a == i)) (sext12 r.imm) r.d r.a r.pa s
def execCmpnei (r : I12) (s : State) : Out := aluI (fun a i => b2w (a != i)) (sext12 r.imm) r.d r.a r.pa s
def execCmplti (r : I12) (s : State) : Out := aluI (fun a i => b2w (slt a i)) (sext12 r.imm) r.d r.a r.pa s
def execCmpltui (r : I12) (s : State) : Out := aluI (fun a i => b2w (ult a i)) (sext12 r.imm) r.d r.a r.pa s

/-- SignExtend(imm20, 20) × 2^12 (R184). -/
def upper (i : BitVec 20) : Word := (i.signExtend 64) <<< 12

def execLih (r : U20) (s : State) : Out :=
  .next (scalar [] (some r.d) false s fun _ t => t.result r.d (upper r.imm))

def execPcah (r : U20) (s : State) : Out :=
  .next (scalar [] (some r.d) false s fun _ t => t.result r.d (t.me!.pc + upper r.imm))

/-- Present entries in bits 2:0 and reserved entries in bits 5:3 (R185). -/
def qcntVal (q : Queue) : Word :=
  at_ (q.filter (·.filled)).length 0 ||| at_ (q.filter fun e => !e.filled).length 3

def execQcnt (r : QCnt) (s : State) : Out :=
  .next (scalar [] (some r.d) false s fun _ t => t.result r.d (qcntVal ((t.core t.p).queue t.k r.a)))

/-- The context that pushes to what register `r` names: the channel's producer, or the context itself (R169). -/
def producerOf (k : Ctx) (sup : Bool) (r : BitVec 5) : Ctx :=
  match regKind k sup r with
  | .prod ch | .cons ch => if ch = 0 then .ld else if ch = 3 then .st else .cp
  | _ => k

/-- QCLR waits until each entry reserved before its first attempt is filled, then discards those (R185). -/
def execQclr (r : QReg) (s : State) : Out :=
  .next (
    if wrongRead s.k s.me!.supMode (pop r.a) then s.trapNow cIllegalOp 0 0
    else
      let mark := s.me!.qclr.getD (s.ctx s.p (producerOf s.k s.me!.supMode r.a)).nextId
      let q := (s.core s.p).queue s.k r.a
      if q.all fun e => e.filled || decide (mark ≤ e.id) then
        (s.modCore s.p fun c => c.setQueue s.k r.a (q.filter fun e => decide (mark ≤ e.id))).advance
      else (s.modCtx s.p s.k fun x => { x with qclr := some mark }).blockNow)

/-- DUP reads as a peek and pushes a copy in front; only a full register or channel overflows (R172, R185). -/
def execDup (r : QReg) (s : State) : Out :=
  .next (scalar [src r.a true] none false s fun _ t =>
    let q := (t.core t.p).queue t.k r.a
    if 4 ≤ q.length then trapAfter s cOverflow 0 (BitVec.ofNat 64 r.a.toNat)
    else (t.modCore t.p fun c => c.setQueue t.k r.a (q.take 1 ++ q)).advance)

def execDrop (r : QReg) (s : State) : Out := .next (scalar [pop r.a] none false s fun _ t => t.advance)

def execMovq (r : R2) (s : State) : Out := alu2 id r s

end Sys2Proof.Machine
end

