-- ==== Sys2Proof/Machine/Access.lean ====
section
/-! DEFINITION. Issuing loads, stores, atomics and reductions, and what orders them (R115–R119, R175, R186–R189).
An access commits at issue and stands in the context's `pend` until it performs (QREG_FILL, HOME_ACKNOWLEDGEMENT). -/

namespace Sys2Proof.Machine

/-! ### What waits for what -/

def Pend.loc? (i : Pend) : Option (Loc × Nat) :=
  match i.kind with
  | .load _ l n _ | .store _ l n _ | .atomic l n _ _ _ => some (l, n)
  | _ => none

def Pend.isAccess (i : Pend) : Bool := i.loc?.isSome

/-- A load or atomic, which an acquire waits for (R117). -/
def Pend.isRead (i : Pend) : Bool :=
  match i.kind with
  | .load .. | .atomic .. => true
  | _ => false

def Pend.isWrite (i : Pend) : Bool :=
  match i.kind with
  | .store .. | .atomic .. => true
  | _ => false

def inMask (m : BitVec 16) (cls : BitVec 4) : Bool := m.getLsbD cls.toNat

/-- An access of class `cls` waits while an unsatisfied fence before it covers it; a release holds back only a
store, atomic, EPUSH or ETAIL (R117, R190). -/
def Context.fenced (x : Context) (cls : BitVec 4) (write : Bool) : Bool :=
  x.pend.any fun i =>
    match i.kind with
    | .fence m | .acq _ m => inMask m cls
    | .rel _ m _ => write && inMask m cls
    | _ => false

/-- A fence with a nonempty mask, which an ETAIL waits for as a store of every class (R198). -/
def Context.fencedAll (x : Context) : Bool :=
  x.pend.any fun i =>
    match i.kind with
    | .fence m | .acq _ m | .rel _ m _ => m != 0
    | _ => false

/-- Whether a release at a scope waits for a write at a place (R116). -/
def relCovers (sc : Scope) (l : Loc) : Bool :=
  match sc with
  | .under => l.isUnder
  | .sys => true
  | _ => !l.isOutside

/-- Whether a release waits for an access: every load, an atomic among them, and the writes its scope covers (R117). -/
def relWaits (sc : Scope) (i : Pend) : Bool :=
  match i.loc? with
  | some (l, _) => i.isRead || relCovers sc l
  | none => false

/-- Whether a fence's condition holds, given the items before it. -/
def fenceMet (c : Core) (before : List Pend) (i : Pend) : Bool :=
  match i.kind with
  | .fence m => !before.any fun j => j.isAccess && inMask m j.cls
  | .acq _ m => !before.any fun j => j.isRead && inMask m j.cls
  | .rel sc m mark =>
    (!before.any fun j => relWaits sc j && inMask m j.cls) && !c.comb.any fun e => e.id < mark && relCovers sc e.loc
  | _ => false

/-- The items left once every fence that holds is removed. -/
def settleList (c : Core) (before : List Pend) : List Pend → List Pend
  | [] => before
  | i :: t => if fenceMet c before i then settleList c before t else settleList c (before ++ [i]) t

/-- An acquire at bay, dev or sys scope empties the L1 when it takes effect (R116). -/
def acquires (i : Pend) : Bool :=
  match i.kind with
  | .acq sc _ => sc != .core && sc != .under
  | _ => false

/-- The fences of a context whose condition holds take effect. -/
def State.settleCtx (s : State) (p : CoreId) (k : Ctx) : State :=
  let x := s.ctx p k
  let rest := settleList (s.core p) [] x.pend
  let clear := decide (rest.countP acquires < x.pend.countP acquires)
  let s1 := s.setCtx p k { x with pend := rest }
  if clear then s1.clearL1 p else s1

/-- The same for the three contexts, which share the combining buffer. -/
def State.settle (s : State) (p : CoreId) : State :=
  [Ctx.ld, Ctx.cp, Ctx.st].foldl (fun t k => t.settleCtx p k) s

/-! ### Which pending accesses may perform (R98, R115, R117, R375) -/

/-- A context's place in the rotation of a scratchpad bank (R98). -/
def requester (k : Ctx) : Fin 8 := 5 + k.idx.castLE (by omega)

/-- Places whose accesses by one context perform in the order it issued them: one scratchpad bank (R98), one line of a
peer's memory (R375). -/
def Loc.ordered (a b : Loc) : Bool :=
  match a, b with
  | .spad x, .spad y => x / 128 % 16 == y / 128 % 16
  | .phys x, .phys y => decide (peerBase ≤ x) && x / 128 == y / 128
  | _, _ => false

/-- Whether an item may perform: no earlier access of its class, none to overlapping bytes or to a place ordered with its
own, no fence before it that covers it (R98, R115, R117, R375). -/
def mayPerform : List Pend → Pend → Bool
  | [], _ => true
  | j :: t, i =>
    if j.id = i.id then true
    else
      let free := match j.kind, i.loc? with
        | .value _, _ | _, none => true
        | .fence m, _ | .acq _ m, _ => !inMask m i.cls
        | .rel _ m _, _ => !(i.isWrite && inMask m i.cls)
        | _, some (l, n) =>
          j.cls != i.cls && match j.loc? with
            | some (l', n') => !l'.overlap n' l n && !l'.ordered l
            | none => true
      free && mayPerform t i

def Loc.inBank (b : Nat) (l : Loc) : Bool :=
  match l with
  | .spad o => bankOf o == b
  | .phys _ => false

/-- Whether a requester has a request pending at a bank: a context an access that may perform, the VE's reads the oldest
vector that a queue waits for. The other engines are granted in the turn in which they ask. -/
def State.asks (s : State) (p : CoreId) (b : Nat) (r : Fin 8) : Bool :=
  let ctx := fun (k : Ctx) =>
    let pend := (s.ctx p k).pend
    pend.any fun i => (i.loc?.any fun x => x.1.inBank b) && mayPerform pend i
  if r = 3 then (vlist (s.ve p).oq).any fun q => (q.find? fun e => e.val.isNone).any fun e => e.loc.inBank b
  else if r = 5 then ctx .ld else if r = 6 then ctx .cp else r == 7 && ctx .st

/-- The bank of a place grants the requester now: none before it in the rotation from the pointer asks (R98). -/
def State.granted (s : State) (p : CoreId) (r : Fin 8) (l : Loc) : Bool :=
  match l with
  | .phys _ => true
  | .spad o =>
    let first := vget (s.core p).banks (bankOf o)
    ([3, 5, 6, 7] : List (Fin 8)).all fun x => !(decide (x - first < r - first) && s.asks p (bankOf o) x)

/-! ### The combining buffer (R119) -/

def Comb.hits (e : Comb) (l : Loc) (n : Nat) : Bool := e.loc.overlap e.n l n

/-- Entries over some bytes are flushed; the access that found them waits. -/
def Core.flushHits (c : Core) (l : Loc) (n : Nat) : Core :=
  { c with comb := c.comb.map fun e => if e.hits l n then { e with flush := true } else e }

def Core.flushAll (c : Core) : Core := { c with comb := c.comb.map fun e => { e with flush := true } }

/-- A reduction's entry: combined, or the entry that stands in its way flushed (`none`), or a new entry. -/
def Core.reduce (c : Core) (l : Loc) (n : Nat) (op : AtomOp) (v : Word) (now : Nat) : Core ⊕ Core :=
  let clash := fun e : Comb => e.hits l n && (e.n != n || e.op != op)
  let same := fun e : Comb => e.loc == l && e.n == n && e.op == op && !e.flush
  if op ≠ .fadd ∧ c.comb.any same then
    let put := fun e : Comb => { e with v := BitVec.ofNat 64 (op.apply n e.v.toNat v.toNat 0) }
    .inl { c with comb := modFirst same put c.comb }
  else if c.comb.any clash then
    .inr { c with comb := c.comb.map fun e => if clash e then { e with flush := true } else e }
  else if 64 ≤ c.comb.length then .inr { c with comb := lmod 0 (fun e => { e with flush := true }) c.comb }
  else
    .inl { c with comb := c.comb ++ [{ id := c.combNext, loc := l, n := n, op := op, v := v, taken := now, flush := false }],
                  combNext := c.combNext + 1 }

/-! ### Issue -/

/-- Where the current word's access comes from. -/
def State.origin (s : State) (va : Word) : Origin := { va := va, pc := s.me!.pc, word := s.sched.word }

/-- An access issues: `s0` is the state before the instruction, `s` the one with its pops made. `ok` says which
places it accepts. An access to a frame whose form is changing waits (R297). -/
def issueAccess (s0 s : State) (va : Word) (n : Nat) (acc : Acc) (cls : BitVec 4) (ok : Loc → Bool)
    (push : Option (BitVec 5)) (kind : Loc → PendKind) : State :=
  if s0.me!.fenced cls (acc != .read) then s0.blockNow
  else match s0.scalarAt va n acc true (acc == .read || acc == .rmw) with
  | .error (code, aux) => s0.trapAt code aux va
  | .ok l =>
    if !ok l then s0.trapAt cAccess 0 va
    else if s0.formHeld l then s0.blockNow
    else if (s0.core s0.p).comb.any fun e => e.hits l n then (s0.modCore s0.p fun c => c.flushHits l n).blockNow
    else ((s.note s.p va).modCore s.p fun c => c.issue s.k push cls (kind l) (s0.origin va)).advance

/-- ea := (A + SignExtend(imm8, 8) × 2^sz)[63:0] (R186). -/
def memEa (a : Word) (r : Mem) : Word := a + (r.imm.signExtend 64) <<< r.sz.toNat

def memN (r : Mem) : Nat := 2 ^ r.sz.toNat

def loadOp (sext : Bool) (r : Mem) (s : State) : Out :=
  .next (scalar [src r.a r.pa] (some r.d) false s fun v t =>
    let ea := memEa (arg v 0) r
    issueAccess s t ea (memN r) .read r.cls (fun _ => true) (some r.d) fun l => .load ea l (memN r) sext)

def execLds (r : Mem) (s : State) : Out := loadOp true r s
def execLdz (r : Mem) (s : State) : Out := loadOp false r s

def execSt (r : Mem) (s : State) : Out :=
  .next (scalar [src r.a r.pa, pop r.d] none false s fun v t =>
    let ea := memEa (arg v 0) r
    issueAccess s t ea (memN r) .write r.cls (fun _ => true) none fun l => .store ea l (memN r) (arg v 1))

/-! ### Atomics and reductions -/

def szBytes (d : Bool) : Nat := if d then 8 else 4

/-- Device memory, understore, scratchpad and peer windows (R188). -/
def State.atomicAt (s : State) (l : Loc) : Bool := s.isOnChip l || s.isPeer l

def atomic (op : AtomOp) (r : Atom) (s : State) : Out :=
  .next (scalar [src r.a r.pa, pop r.b] (some r.d) false s fun v t =>
    issueAccess s t (arg v 0) (szBytes r.sz) .rmw r.cls s.atomicAt (some r.d)
      fun l => .atomic l (szBytes r.sz) op (arg v 1) 0)

def execAadd (r : Atom) (s : State) : Out := atomic .add r s
def execAand (r : Atom) (s : State) : Out := atomic .and r s
def execAor (r : Atom) (s : State) : Out := atomic .or r s
def execAxor (r : Atom) (s : State) : Out := atomic .xor r s
def execAmin (r : Atom) (s : State) : Out := atomic .min r s
def execAmax (r : Atom) (s : State) : Out := atomic .max r s
def execAminu (r : Atom) (s : State) : Out := atomic .minu r s
def execAmaxu (r : Atom) (s : State) : Out := atomic .maxu r s
def execAswap (r : Atom) (s : State) : Out := atomic .swap r s

/-- ACAS pops the expected value, then the new one, from b (R188). -/
def execAcas (r : Atom) (s : State) : Out :=
  .next (scalar [src r.a r.pa, pop r.b, pop r.b] (some r.d) false s fun v t =>
    issueAccess s t (arg v 0) (szBytes r.sz) .rmw r.cls s.atomicAt (some r.d)
      fun l => .atomic l (szBytes r.sz) .cas (arg v 1) (arg v 2))

/-- A reduction goes to the combining buffer; only a release orders it (R119, R189); a watchpoint
takes it for a write (R356). -/
def reduction (op : AtomOp) (a b : BitVec 5) (n : Nat) (s : State) : Out :=
  .next (scalar [pop a, pop b] none false s fun v t =>
    match s.scalarAt (arg v 0) n .rmw true false with
    | .error (code, aux) => s.trapAt code aux (arg v 0)
    | .ok l =>
      if !s.atomicAt l then s.trapAt cAccess 0 (arg v 0)
      else if s.formHeld l then s.blockNow
      else match (t.core t.p).reduce l n op (arg v 1) s.cycle with
        | .inl c => ((t.setCore t.p c).note t.p (arg v 0)).advance
        | .inr _ =>
          match (s.core s.p).reduce l n op (arg v 1) s.cycle with
          | .inr c0 => (s.setCore s.p c0).blockNow
          | .inl _ => s.blockNow)

def execRadd (r : Red) (s : State) : Out := reduction .add r.a r.b (szBytes r.sz) s
def execRand (r : Red) (s : State) : Out := reduction .and r.a r.b (szBytes r.sz) s
def execRor (r : Red) (s : State) : Out := reduction .or r.a r.b (szBytes r.sz) s
def execRxor (r : Red) (s : State) : Out := reduction .xor r.a r.b (szBytes r.sz) s
def execRmin (r : Red) (s : State) : Out := reduction .min r.a r.b (szBytes r.sz) s
def execRmax (r : Red) (s : State) : Out := reduction .max r.a r.b (szBytes r.sz) s
def execRminu (r : Red) (s : State) : Out := reduction .minu r.a r.b (szBytes r.sz) s
def execRmaxu (r : Red) (s : State) : Out := reduction .maxu r.a r.b (szBytes r.sz) s
def execRfadd (r : RedF) (s : State) : Out := reduction .fadd r.a r.b 4 s

/-- An entry whose link has gone (R374). -/
def State.combGone (s : State) (e : Comb) : Bool :=
  match e.loc with
  | .phys a => e.loc.isOutside && !s.reachable a
  | .spad _ => false

/-- An entry applied at its home as one atomic; one whose link has gone is dropped with a record (R119, R374). -/
def State.applyComb (s : State) (p : CoreId) (e : Comb) : State :=
  if s.combGone e then
    s.report (bentOf p) { core := some p, src := 1, addr := match e.loc with
      | .phys a => BitVec.ofNat 64 a
      | .spad _ => 0 } cAccess 0
  else s.writeHome p e.loc (bytesOfNat (e.op.apply e.n (s.readLoc p e.loc e.n) e.v.toNat 0) e.n)

/-- Whether an entry can be applied now: no region change holds it, and its record, if it needs one, has room (R297,
R313). -/
def State.combMay (s : State) (p : CoreId) (e : Comb) : Bool :=
  !s.formHeld e.loc && (!s.combGone e || s.faultRoom (bentOf p))

/-- The combining buffer applies entry `n` at its home once it is flushed, or 1,024 cycles after it was taken. -/
def execCombiningFlush (p : CoreId) (n : Nat) (s : State) : Out :=
  .next (match (s.core p).comb[n]? with
    | none => s
    | some e =>
      if (e.flush || decide (e.taken + 1024 ≤ s.cycle)) && s.combMay p e then
        ((s.modCore p fun c => { c with comb := c.comb.eraseIdx n }).applyComb p e).settle p
      else s)

end Sys2Proof.Machine
end

