-- ==== Sys2Proof/Decode.lean ====
section
/-! DEFINITION. Decoding the three kinds of 32-bit word (R126–R145), the checks a code object's bits must pass,
and the encoder. Every reserved encoding answers `none`. -/

namespace Sys2Proof

/-- Bits `lo + n − 1 : lo` of a word. -/
abbrev fld (w : W32) (lo n : Nat) : BitVec n := w.extractLsb' lo n

def bit (w : W32) (i : Nat) : Bool := w.getLsbD i

abbrev b1 (b : Bool) : BitVec 1 := BitVec.ofBool b

/-- The row of a code in a table of codes. -/
def lookup {α : Type} (k : Nat) : List (Nat × α) → Option α
  | [] => none
  | (n, a) :: t => if k = n then some a else lookup k t

/-! ### Scopes and endpoints -/

/-- Scope codes 0–5; 6 and 7 are reserved (R129). -/
def Scope.ofCode (c : BitVec 3) : Option Scope :=
  match c.toNat with
  | 0 => some .core | 1 => some .bay | 2 => some .bent | 3 => some .under | 4 => some .dev | 5 => some .sys
  | _ => none

def Scope.code (s : Scope) : BitVec 3 :=
  match s with
  | .core => 0 | .bay => 1 | .bent => 2 | .under => 3 | .dev => 4 | .sys => 5

/-! ### Format words (R127), high field first -/

def wR (s : Bool) (op : BitVec 6) (d a : BitVec 5) (pa : Bool) (b : BitVec 5) (pb : Bool) (fn : BitVec 8) : W32 :=
  b1 s ++ op ++ d ++ a ++ b1 pa ++ b ++ b1 pb ++ fn

def wAtom (s : Bool) (op : BitVec 6) (d a : BitVec 5) (pa : Bool) (b : BitVec 5) (sz : Bool) (f cls : BitVec 4) :
    W32 :=
  b1 s ++ op ++ d ++ a ++ b1 pa ++ b ++ b1 sz ++ f ++ cls

def wI (s : Bool) (op : BitVec 6) (d a : BitVec 5) (pa : Bool) (fn : BitVec 2) (imm : BitVec 12) : W32 :=
  b1 s ++ op ++ d ++ a ++ b1 pa ++ fn ++ imm

def wU (s : Bool) (op : BitVec 6) (d : BitVec 5) (imm : BitVec 20) : W32 := b1 s ++ op ++ d ++ imm

def wM (s : Bool) (op : BitVec 6) (d a : BitVec 5) (pa : Bool) (cls : BitVec 4) (sz : BitVec 2) (imm : BitVec 8) :
    W32 :=
  b1 s ++ op ++ d ++ a ++ b1 pa ++ cls ++ sz ++ imm

def wB (s : Bool) (op : BitVec 6) (off : BitVec 13) (a : BitVec 5) (pa : Bool) (b : BitVec 5) (pb : Bool) : W32 :=
  b1 s ++ op ++ off.extractLsb' 8 5 ++ a ++ b1 pa ++ b ++ b1 pb ++ off.extractLsb' 0 8

def wJ (s : Bool) (op : BitVec 6) (off : BitVec 25) : W32 := b1 s ++ op ++ off

def wE (s : Bool) (op : BitVec 6) (e : Ep) (a : BitVec 5) (pa : Bool) (b : BitVec 5) (pb : Bool) (fn : BitVec 8) :
    W32 :=
  b1 s ++ op ++ e.code ++ (0 : BitVec 3) ++ a ++ b1 pa ++ b ++ b1 pb ++ fn

def wX (s : Bool) (kind : BitVec 2) (scope : BitVec 3) (mask : BitVec 16) : W32 :=
  b1 s ++ (0x12 : BitVec 6) ++ kind ++ scope ++ (0 : BitVec 4) ++ mask

/-! ### Scalar words -/

namespace W

def s (w : W32) : Bool := bit w 31
def op (w : W32) : BitVec 6 := fld w 25 6
def d (w : W32) : BitVec 5 := fld w 20 5
def a (w : W32) : BitVec 5 := fld w 15 5
def pa (w : W32) : Bool := bit w 14
def b (w : W32) : BitVec 5 := fld w 9 5
def pb (w : W32) : Bool := bit w 8
def fn (w : W32) : BitVec 8 := fld w 0 8
def fnI (w : W32) : BitVec 2 := fld w 12 2
def imm12 (w : W32) : BitVec 12 := fld w 0 12
def imm20 (w : W32) : BitVec 20 := fld w 0 20
def ep (w : W32) : Ep := Ep.ofCode (fld w 23 2)

def r3 (w : W32) : R3 := { s := s w, d := d w, a := a w, pa := pa w, b := b w, pb := pb w }
def r2 (w : W32) : R2 := { s := s w, d := d w, a := a w, pa := pa w }
def i12 (w : W32) : I12 := { s := s w, d := d w, a := a w, pa := pa w, imm := imm12 w }
def sh (w : W32) : Sh := { s := s w, d := d w, a := a w, pa := pa w, imm := fld w 0 6 }
def u20 (w : W32) : U20 := { s := s w, d := d w, imm := imm20 w }
def src (w : W32) : Src := { s := s w, a := a w, pa := pa w }
def mem (w : W32) : Mem :=
  { s := s w, d := d w, a := a w, pa := pa w, cls := fld w 10 4, sz := fld w 8 2, imm := fld w 0 8 }
def atom (w : W32) : Atom :=
  { s := s w, d := d w, a := a w, pa := pa w, b := b w, sz := bit w 8, cls := fld w 0 4 }
def red (w : W32) : Red := { s := s w, a := a w, b := b w, sz := bit w 8, cls := fld w 0 4 }
def br (w : W32) : Br :=
  { s := s w, a := a w, pa := pa w, b := b w, pb := pb w, off := fld w 20 5 ++ fld w 0 8 }
def csr (w : W32) : Csr := { s := s w, d := d w, a := a w, pa := pa w, num := imm12 w }
def push (w : W32) : Push := { s := s w, e := ep w, a := a w, pa := pa w, b := b w, pb := pb w }
def chainOp (w : W32) : ChainOp := { s := s w, e := ep w, a := a w, pa := pa w }

/-- The b field and its peek bit hold 0 (R130). -/
def noB (w : W32) : Bool := b w == 0 && !pb w
/-- The a field and its peek bit hold 0. -/
def noA (w : W32) : Bool := a w == 0 && !pa w
def noD (w : W32) : Bool := d w == 0

end W

def optIf {α : Type} (c : Bool) (x : α) : Option α := if c then some x else none

/-- The two-source members of the ALU major with their codes (R130). -/
def aluTable : List (Nat × (R3 → Instr)) :=
  [(0x00, .add), (0x01, .sub), (0x02, .and), (0x03, .or), (0x04, .xor), (0x05, .andn), (0x06, .shl), (0x07, .shr),
   (0x08, .sra), (0x09, .rotr), (0x0A, .min), (0x0B, .max), (0x0C, .minu), (0x0D, .maxu), (0x0E, .cmpeq),
   (0x0F, .cmpne), (0x10, .cmplt), (0x11, .cmpltu), (0x12, .cmple), (0x13, .cmpleu), (0x14, .sel), (0x18, .sext),
   (0x19, .zext)]

/-- The one-source members (R130). -/
def alu1Table : List (Nat × (R2 → Instr)) := [(0x15, .clz), (0x16, .ctz), (0x17, .popc)]

def mulTable : List (Nat × (R3 → Instr)) :=
  [(0, .mul), (1, .mulh), (2, .mulhu), (3, .div), (4, .divu), (5, .rem), (6, .remu)]

def shTable : List (Nat × (Sh → Instr)) := [(0, .shli), (1, .shri), (2, .srai), (3, .rotri)]

def cmpiTable : List (Nat × (I12 → Instr)) := [(0, .cmpeqi), (1, .cmpnei), (2, .cmplti), (3, .cmpltui)]

def atomTable : List (Nat × (Atom → Instr)) :=
  [(0, .aadd), (1, .aand), (2, .aor), (3, .axor), (4, .amin), (5, .amax), (6, .aminu), (7, .amaxu), (8, .aswap),
   (9, .acas)]

def redTable : List (Nat × (Red → Instr)) :=
  [(0, .radd), (1, .rand), (2, .ror), (3, .rxor), (4, .rmin), (5, .rmax), (6, .rminu), (7, .rmaxu)]

def brTable : List (Nat × (Br → Instr)) :=
  [(0x14, .beq), (0x15, .bne), (0x16, .blt), (0x17, .bge), (0x18, .bltu), (0x19, .bgeu)]

def decAlu (w : W32) : Option Instr :=
  match lookup (W.fn w).toNat aluTable with
  | some f => some (f (W.r3 w))
  | none =>
    match lookup (W.fn w).toNat alu1Table with
    | some f => optIf (W.noB w) (f (W.r2 w))
    | none => none

def decMul (w : W32) : Option Instr := (lookup (W.fn w).toNat mulTable).map fun f => f (W.r3 w)

def decImm (f : I12 → Instr) (w : W32) : Option Instr := optIf (W.fnI w == 0) (f (W.i12 w))

def decShift (w : W32) : Option Instr :=
  if fld w 6 6 = 0 then (lookup (W.fnI w).toNat shTable).map fun f => f (W.sh w) else none

def decCmpi (w : W32) : Option Instr := (lookup (W.fnI w).toNat cmpiTable).map fun f => f (W.i12 w)

def decQueue (w : W32) : Option Instr :=
  match (W.fn w).toNat with
  | 0 => optIf (!W.pa w && W.noB w) (.qcnt { s := W.s w, d := W.d w, a := W.a w })
  | 1 => optIf (!W.pa w && W.noB w && W.noD w) (.qclr { s := W.s w, a := W.a w })
  | 2 => optIf (!W.pa w && W.noB w && W.noD w) (.dup { s := W.s w, a := W.a w })
  | 3 => optIf (!W.pa w && W.noB w && W.noD w) (.drop { s := W.s w, a := W.a w })
  | 4 => optIf (W.noB w) (.movq (W.r2 w))
  | _ => none

def decAtom (w : W32) : Option Instr := (lookup (fld w 4 4).toNat atomTable).map fun f => f (W.atom w)

/-- Major 0x11: d and pa are Z; RFADD exists only as `.w` (R129, R131). -/
def decRed (w : W32) : Option Instr :=
  if W.noD w && !W.pa w then
    match lookup (fld w 4 4).toNat redTable with
    | some f => some (f (W.red w))
    | none =>
      optIf (fld w 4 4 == 8 && !bit w 8) (.rfadd { s := W.s w, a := W.a w, b := W.b w, cls := fld w 0 4 })
  else none

def decFence (w : W32) : Option Instr :=
  if fld w 16 4 = 0 then
    match Scope.ofCode (fld w 20 3), (fld w 23 2).toNat with
    | some sc, 0 => optIf (sc == .core) (.fence (W.s w) (fld w 0 16))
    | some sc, 1 => some (.acq { s := W.s w, scope := sc, mask := fld w 0 16 })
    | some sc, 2 => some (.rel { s := W.s w, scope := sc, mask := fld w 0 16 })
    | some sc, _ => some (.acqrel { s := W.s w, scope := sc, mask := fld w 0 16 })
    | none, _ => none
  else none

def decWait (w : W32) : Option Instr :=
  match (W.fn w).toNat with
  | 0 => some (.waitge (W.r3 w))
  | 1 => some (.waitne (W.r3 w))
  | 2 => optIf (W.noD w && W.noB w) (.monclr (W.src w))
  | _ => none

def decBr (w : W32) : Option Instr := (lookup (W.op w).toNat brTable).map fun f => f (W.br w)

def decCsr (w : W32) : Option Instr :=
  match (W.fnI w).toNat with
  | 0 => optIf (W.noA w) (.csrr (W.s w) (W.d w) (W.imm12 w))
  | 1 => some (.csrw (W.csr w))
  | 2 => some (.csrs (W.csr w))
  | _ => some (.csrc (W.csr w))

/-- Major 0x1E: d, a, pa and fn hold 0; imm12[11:8] selects the member (R195). -/
def decSys (w : W32) : Option Instr :=
  if W.noD w && W.noA w && W.fnI w == 0 then
    match (fld w 8 4).toNat with
    | 0 => some (.trap (W.s w) (W.fn w))
    | 1 => optIf (W.fn w == 0) (.sysret (W.s w))
    | 2 => optIf (W.fn w == 0) (.idle (W.s w))
    | 3 => some (.brk (W.s w) (W.fn w))
    | 4 => optIf (W.fn w == 0) (.stepover (W.s w))
    | _ => none
  else none

def decSpawn (w : W32) : Option Instr :=
  optIf (W.noD w && fld w 4 4 == 0)
    (.spawn { s := W.s w, a := W.a w, pa := W.pa w, b := W.b w, pb := W.pb w, stage := fld w 0 4 })

/-- Bits 22:20 of format E hold 0. -/
def zE (w : W32) : Bool := fld w 20 3 == 0

def decChain (w : W32) : Option Instr :=
  if zE w && W.noB w then
    match (W.fn w).toNat with
    | 0 => some (.echain (W.chainOp w))
    | 1 => some (.etail (W.chainOp w))
    | 2 => optIf (!W.pa w) (.eseq (W.s w) (W.ep w) (W.a w))
    | _ => none
  else none

def decTask (w : W32) : Option Instr :=
  if W.noA w && W.noB w then
    match (W.fn w).toNat with
    | 0 => some (.tnext (W.s w) (W.d w))
    | 1 => optIf (W.noD w) (.tdone (W.s w))
    | 2 => optIf (W.noD w) (.tyield (W.s w))
    | _ => none
  else none

/-- With ALL = 1, a must be x0 (R202). -/
def allOk (all : Bool) (a : BitVec 5) (pa : Bool) : Bool := !all || (a == 0 && !pa)

def decCache (w : W32) : Option Instr :=
  if W.noD w then
    match (W.fnI w).toNat with
    | 0 => optIf (fld w 2 10 == 0 && allOk (bit w 0) (W.a w) (W.pa w))
        (.iinv { s := W.s w, a := W.a w, pa := W.pa w, all := bit w 0, bent := bit w 1 })
    | 1 => optIf (fld w 1 11 == 0 && allOk (bit w 0) (W.a w) (W.pa w))
        (.tinv { s := W.s w, a := W.a w, pa := W.pa w, all := bit w 0 })
    | 2 => optIf (fld w 1 11 == 0 && allOk (bit w 0) (W.a w) (W.pa w))
        (.l1inv { s := W.s w, a := W.a w, pa := W.pa w, all := bit w 0 })
    | _ => some (.pref { s := W.s w, a := W.a w, pa := W.pa w, imm := W.imm12 w })
  else none

/-- A word of major 0x00, or the all-ones word (R132). -/
def isTrapWord (w : W32) : Bool := W.op w == 0 || w == 0xFFFFFFFF#32

/-- The instruction a scalar word holds; `none` where check 4 of R131 fails. -/
def decodeScalar (w : W32) : Option Instr :=
  if isTrapWord w then some (.trapWord w)
  else match (W.op w).toNat with
  | 0x01 => decAlu w
  | 0x02 => decMul w
  | 0x03 => decImm .addi w
  | 0x04 => decImm .andi w
  | 0x05 => decImm .ori w
  | 0x06 => decImm .xori w
  | 0x07 => decShift w
  | 0x08 => decCmpi w
  | 0x09 => some (.lih (W.u20 w))
  | 0x0A => some (.pcah (W.u20 w))
  | 0x0B => decQueue w
  | 0x0C => some (.lds (W.mem w))
  | 0x0D => some (.ldz (W.mem w))
  | 0x0E => some (.st (W.mem w))
  | 0x10 => decAtom w
  | 0x11 => decRed w
  | 0x12 => decFence w
  | 0x13 => decWait w
  | 0x1A => some (.j (W.s w) (fld w 0 25))
  | 0x1B => some (.jal (W.u20 w))
  | 0x1C => decImm .jalr w
  | 0x1D => decCsr w
  | 0x1E => decSys w
  | 0x1F => decSpawn w
  | 0x20 => optIf (zE w && W.fn w == 0) (.epush (W.push w))
  | 0x21 => decChain w
  | 0x22 => optIf (zE w && W.fn w == 0) (.xcmd (W.push w))
  | 0x23 => optIf (W.noD w && W.noB w) (.mcfg { s := W.s w, a := W.a w, pa := W.pa w, idx := W.fn w })
  | 0x24 => decTask w
  | 0x25 => decCache w
  | _ => decBr w

/-! ### Engine commands (R135–R139) -/

/-- The classes of R137. -/
inductive CmdClass where
  | copy | matrix | vector | furrow | queue | sync | flow | launch
deriving DecidableEq, Repr, Inhabited

/-- The executing agent of a command: the queue of an endpoint, or an XCMD as that endpoint (R136, R137). -/
structure Exec where
  ep : Ep
  x : Bool
deriving DecidableEq, Repr, Inhabited

def H.opc (h : W32) : Nat := (fld h 26 6).toNat
def H.xwc (h : W32) : Nat := (fld h 12 4).toNat
def H.hintr (h : W32) : BitVec 2 := fld h 8 2
def H.ops (h : W32) : BitVec 8 := fld h 0 8
def H.hdr (h : W32) : Hdr :=
  { wait := fld h 23 3, sige := bit h 22, sigt := fld h 20 2, cls := fld h 16 4, hinti := fld h 10 2 }

/-- The class of an opcode; `none` where it is unassigned (R138). -/
def cmdClass (opc : Nat) : Option CmdClass :=
  if 0x01 ≤ opc ∧ opc ≤ 0x0A then some .copy
  else if 0x10 ≤ opc ∧ opc ≤ 0x16 then some .matrix
  else if 0x18 ≤ opc ∧ opc ≤ 0x1B then some .vector
  else if 0x20 ≤ opc ∧ opc ≤ 0x27 then some .furrow
  else if 0x28 ≤ opc ∧ opc ≤ 0x2D then some .queue
  else if 0x30 ≤ opc ∧ opc ≤ 0x32 then some .sync
  else if 0x38 ≤ opc ∧ opc ≤ 0x3B then some .flow
  else if opc = 0x3C then some .launch
  else none

/-- The endpoints that accept a class (R137). -/
def classAccepted (c : CmdClass) (e : Exec) : Bool :=
  let ce := e.ep == .l || e.ep == .s
  match c with
  | .copy | .furrow | .launch => ce && !e.x
  | .matrix => e.ep == .m && !e.x
  | .vector => e.ep == .v && !e.x
  | .queue => e.x || ce
  | .sync => true
  | .flow => !e.x

/-- The extra word counts an opcode accepts; those of Furrow commands turn on OPS.REC (R214, R298, …). -/
def xwcOk (opc : Nat) (ops : BitVec 8) (n : Nat) : Bool :=
  let r := if ops.getLsbD 7 then 2 else 0
  match opc with
  | 0x01 | 0x06 | 0x07 | 0x08 => n == 8
  | 0x02 | 0x03 | 0x04 | 0x05 => n == 9
  | 0x09 => n == 2
  | 0x0A => n == 1
  | 0x10 | 0x11 => n == 1
  | 0x12 => n == 9
  | 0x13 => n == 4
  | 0x14 => n == 0
  | 0x15 => n == 1
  | 0x16 => n == 7
  | 0x18 => n == 5
  | 0x19 => n == 0
  | 0x1A => n == 2
  | 0x1B => n == 9
  | 0x20 | 0x25 => n == 8 + r
  | 0x21 => n == 6 + r
  | 0x22 | 0x23 | 0x24 => n == 10 + r
  | 0x26 => n == 12 + r
  | 0x27 => n == 14
  | 0x28 | 0x29 | 0x2A | 0x2B | 0x2C | 0x2D => n == 4
  | 0x30 => n == 3
  | 0x31 | 0x32 => n == 4
  | 0x38 | 0x3B => n == 0
  | 0x39 => n == 2
  | 0x3A => n == 1
  | 0x3C => n == 2
  | _ => false

/-- Checks 1–5 of R139 on a header: the fault code of the first that fails. -/
def headerCheck (h : W32) (e : Exec) : Option Byte :=
  match cmdClass (H.opc h) with
  | none => some 0x0D
  | some c =>
    if !classAccepted c e then some 0x0D
    else if !xwcOk (H.opc h) (H.ops h) (H.xwc h) then some 0x0D
    else if (H.hdr h).sige && Ep.ofCode (H.hdr h).sigt == e.ep then some 0x0D
    else if H.hintr h ≠ 0 then some 0x0E
    else none

/-- Two command words as a 64-bit field, the low half first (R214). -/
def w64 (lo hi : W32) : Word := hi ++ lo

def tagOf (ops : BitVec 8) : Tag := { tg := ops.getLsbD 7, sym := ops.extractLsb' 3 4 }

/-- The Furrow fields of words 1–6 (R298). -/
def furOf (ops : BitVec 8) (w1 w2 w3 w4 w5 w6 : W32) (reca : Word) : Fur :=
  { wrec := ops.getLsbD 7, nofb := ops.getLsbD 6, dst := w64 w1 w2, ctr := w64 w3 w4, inc := w5,
    n1 := fld w6 0 11, reca := reca }

/-- OPS bits 5:1 of a Furrow command are zero, and CTL bits 31:11; bit 0 is ONES of FFILL only (R298). -/
def furZ (ops : BitVec 8) (w6 : W32) : Bool := ops.extractLsb' 1 5 == 0 && fld w6 11 21 == 0

def reca? (r : Bool) (ws : List W32) : Option Word :=
  match r, ws with
  | false, [] => some 0
  | true, [a, b] => some (w64 a b)
  | _, _ => none

/-- The command that an opcode, its header and its extra words hold; `none` where XWC is wrong or a bit that
must be zero is set. -/
def decodeBody (opc : Nat) (h : Hdr) (ops : BitVec 8) (ws : List W32) : Option Instr :=
  let t := tagOf ops
  let lo3 := ops.extractLsb' 0 3
  match opc, ws with
  | 0x01, [a, b, c, d, e, f, g, l] =>
    optIf (lo3 == 0) (.cpy h { tag := t, dst := w64 a b, src := w64 c d, ctr := w64 e f, inc := g, len := l })
  | 0x02, [a, b, c, d, e, f, g, l, m] =>
    optIf (lo3 == 0)
      (.cpyn h { tag := t, dst := w64 a b, src := w64 c d, ctr := w64 e f, inc := g, desc := w64 l m })
  | 0x03, [a, b, c, d, e, f, g, x, n] =>
    optIf (fld x 21 10 == 0)
      (.gath h { tag := t, esz := lo3, dst := w64 a b, src := w64 c d, ctr := w64 e f, inc := g, idx := fld x 0 21,
                 isz := bit x 31, count := n })
  | 0x04, [a, b, c, d, e, f, g, x, n] =>
    optIf (fld x 21 10 == 0)
      (.scat h { tag := t, esz := lo3, dst := w64 a b, src := w64 c d, ctr := w64 e f, inc := g, idx := fld x 0 21,
                 isz := bit x 31, count := n })
  | 0x05, [a, b, c, d, e, f, g, l, x] =>
    optIf (lo3 == 0 && fld x 7 25 == 0) 
      (.rcpy h { tag := t, dst := w64 a b, src := w64 c d, ctr := w64 e f, inc := g, len := l, fmt := fld x 0 4,
                   rop := fld x 4 3 })
  | 0x06, [a, b, c, d, e, f, g, l] =>
    optIf (lo3 == 0) (.fill h { tag := t, dst := w64 a b, pat := w64 c d, ctr := w64 e f, inc := g, len := l })
  | 0x07, [a, b, c, d, e, f, g, l] =>
    optIf (lo3 == 0 && a == 0 && b == 0) (.prefCmd h { tag := t, src := w64 c d, ctr := w64 e f, inc := g, len := l })
  | 0x08, [a, b, c, d, e, f, g, l] =>
    optIf (lo3 == 0 && fld a 4 28 == 0 && b == 0)
      (.cpyp h { tag := t, strm := fld a 0 4, src := w64 c d, ctr := w64 e f, inc := g, len := l })
  | 0x09, [a, b] =>
    optIf (ops == 0 && fld a 21 11 == 0 && fld b 20 12 == 0)
      (.psub h { ring := fld a 0 21, rows := fld b 0 16, strm := fld b 16 4 })
  | 0x0A, [a] => optIf (ops == 0 && fld a 4 28 == 0) (.puns h (fld a 0 4))
  | 0x10, [x] =>
    optIf (ops == 0 && fld x 24 8 == 0 && fld x 13 3 == 0)
      (.mfmt h { afmt := fld x 0 4, bfmt := fld x 4 4, fi := bit x 8, fo := bit x 9, sat := bit x 10,
                 apod := bit x 11, bpod := bit x 12, astrm := fld x 16 4, bstrm := fld x 20 4 })
  | 0x11, [x] => optIf (ops == 0 && fld x 11 21 == 0) (.mnest h (fld x 0 8) (fld x 8 3))
  | 0x12, [a, b, c, d, e, f, g, i, x] =>
    optIf (ops.extractLsb' 5 3 == 0 && fld x 4 28 == 0)
      (.mgo h { pre := ops.getLsbD 0, qm := ops.extractLsb' 1 4, a := w64 a b, b := w64 c d, sa := w64 e f,
                sb := w64 g i, c := fld x 0 4 })
  | 0x13, [a, b, c, d] =>
    optIf (ops.extractLsb' 5 3 == 0)
      (.mbld h { pod := ops.getLsbD 0, qm := ops.extractLsb' 1 4, src := w64 a b, ssrc := w64 c d })
  | 0x14, [] => optIf (ops.extractLsb' 4 4 == 0) (.mzero h (ops.extractLsb' 0 4))
  | 0x15, [x] =>
    optIf (ops.extractLsb' 7 1 == 0 && fld x 5 27 == 0)
      (.mhad h { qm := ops.extractLsb' 0 4, n := ops.extractLsb' 4 2, fo := ops.getLsbD 6, h := fld x 0 5 })
  | 0x16, [a, b, ms, qs, x, c, d] =>
    optIf (ops.extractLsb' 4 4 == 0 && fld x 12 20 == 0)
      (.mdrn h { qm := ops.extractLsb' 0 4, dst := w64 a b, mstr := ms, qstr := qs, fmt := fld x 0 4,
                 plane := bit x 4, fi := bit x 5, fo := bit x 6, sat := bit x 7, rnd := fld x 8 3,
                 zero := bit x 11, sdst := w64 c d })
  | 0x18, [a, b, x, y, z] =>
    optIf (ops == 0 && fld x 13 3 == 0 && fld x 25 7 == 0)
      (.vrun h { img := w64 a b, entry := fld x 0 13, len := fld x 16 9, lc0 := fld y 0 16, lc1 := fld y 16 16,
                 lc2 := fld z 0 16, lc3 := fld z 16 16 })
  | 0x19, [] => optIf (ops.extractLsb' 1 7 == 0) (.vstop h (ops.getLsbD 0))
  | 0x1A, [a, b] => optIf (ops.extractLsb' 4 4 == 0) (.vbase h (ops.extractLsb' 0 4) (w64 a b))
  | 0x1B, [a, b, x, y, s0, s1, s2, s3, c] =>
    optIf (ops.extractLsb' 4 4 == 0)
      (.vsdesc h (ops.extractLsb' 0 4)
        { base := w64 a b, cnt0 := fld x 0 16, cnt1 := fld x 16 16, cnt2 := fld y 0 16, cnt3 := fld y 16 16,
          str0 := s0, str1 := s1, str2 := s2, str3 := s3, dctl := c })
  | 0x20, a :: b :: c :: d :: e :: x :: p :: q :: r =>
    match reca? (ops.getLsbD 7) r with
    | some ra => optIf (furZ ops x && !ops.getLsbD 0) (.fcopy h (furOf ops a b c d e x ra) (w64 p q))
    | none => none
  | 0x21, a :: b :: c :: d :: e :: x :: r =>
    match reca? (ops.getLsbD 7) r with
    | some ra => optIf (furZ ops x) (.ffill h (furOf ops a b c d e x ra) (ops.getLsbD 0))
    | none => none
  | 0x22, a :: b :: c :: d :: e :: x :: p :: q :: t :: u :: r =>
    match reca? (ops.getLsbD 7) r with
    | some ra => optIf (furZ ops x && !ops.getLsbD 0) (.fand h (furOf ops a b c d e x ra) (w64 p q) (w64 t u))
    | none => none
  | 0x23, a :: b :: c :: d :: e :: x :: p :: q :: t :: u :: r =>
    match reca? (ops.getLsbD 7) r with
    | some ra => optIf (furZ ops x && !ops.getLsbD 0) (.forRow h (furOf ops a b c d e x ra) (w64 p q) (w64 t u))
    | none => none
  | 0x24, a :: b :: c :: d :: e :: x :: p :: q :: t :: u :: r =>
    match reca? (ops.getLsbD 7) r with
    | some ra => optIf (furZ ops x && !ops.getLsbD 0) (.fxor h (furOf ops a b c d e x ra) (w64 p q) (w64 t u))
    | none => none
  | 0x25, a :: b :: c :: d :: e :: x :: p :: q :: r =>
    match reca? (ops.getLsbD 7) r with
    | some ra => optIf (furZ ops x && !ops.getLsbD 0) (.fnot h (furOf ops a b c d e x ra) (w64 p q))
    | none => none
  | 0x26, a :: b :: c :: d :: e :: x :: p :: q :: t :: u :: v :: w :: r =>
    match reca? (ops.getLsbD 7) r with
    | some ra =>
      optIf (furZ ops x && !ops.getLsbD 0) (.fmaj h (furOf ops a b c d e x ra) (w64 p q) (w64 t u) (w64 v w))
    | none => none
  | 0x27, [a, b, c, d, e, x, p, q, t, u, v, w, y, z] =>
    optIf (ops.extractLsb' 3 3 == 0 && !ops.getLsbD 7 && fld x 11 21 == 0)
      (.fqry h { nofb := ops.getLsbD 6, op := lo3, dst := w64 a b, ctr := w64 c d, inc := e, n1 := fld x 0 11,
                 s1 := w64 p q, s2 := w64 t u, s3 := w64 v w, res := w64 y z })
  | 0x28, [a, b, c, d] => optIf (ops == 0 && c == 0 && d == 0) (.qinit h (w64 a b))
  | 0x29, [a, b, c, d] => optIf (ops == 0) (.qacq h (w64 a b) (w64 c d))
  | 0x2A, [a, b, c, d] => optIf (ops == 0) (.qrel h (w64 a b) (w64 c d))
  | 0x2B, [a, b, c, d] => optIf (ops.extractLsb' 1 7 == 0) (.qres h (w64 a b) (w64 c d) (ops.getLsbD 0))
  | 0x2C, [a, b, c, d] => optIf (ops == 0) (.qcom h (w64 a b) (w64 c d))
  | 0x2D, [a, b, c, d] => optIf (ops == 0) (.qstat h (w64 a b) (w64 c d))
  | 0x30, [a, b, c] => optIf (ops == 0) (.csig h (w64 a b) c)
  | 0x31, [a, b, c, d] => optIf (ops == 0) (.cwait h (w64 a b) (w64 c d))
  | 0x32, [a, b, c, d] => optIf (ops == 0) (.cseq h (w64 a b) (w64 c d))
  | 0x38, [] => optIf (ops == 0) (.cnop h)
  | 0x39, [a, b] => optIf (ops == 0) (.clink h (w64 a b))
  | 0x3A, [a] => optIf (ops == 0) (.cloop h a)
  | 0x3B, [] => optIf (ops == 0) (.cend h)
  | 0x3C, [a, b] => optIf (ops.extractLsb' 6 2 == 0) (.launch h (ops.extractLsb' 0 6) (w64 a b))
  | _, _ => none

/-- The command a header and its extra words hold; `none` where a check of R139 that turns on the words alone
fails. -/
def decodeCmd (words : List W32) : Option Instr :=
  match words with
  | [] => none
  | h :: ws =>
    if ws.length = H.xwc h ∧ H.hintr h = 0 then decodeBody (H.opc h) (H.hdr h) (H.ops h) ws else none

/-- A command header (R135). -/
def wH (opc : BitVec 6) (h : Hdr) (xwc : BitVec 4) (ops : BitVec 8) : W32 :=
  opc ++ h.wait ++ b1 h.sige ++ h.sigt ++ h.cls ++ xwc ++ h.hinti ++ (0 : BitVec 2) ++ ops

def lo32 (v : Word) : W32 := v.extractLsb' 0 32
def hi32 (v : Word) : W32 := v.extractLsb' 32 32

def opsTag (t : Tag) (lo : BitVec 3) : BitVec 8 := b1 t.tg ++ t.sym ++ lo

def furOps (f : Fur) (ones : Bool) : BitVec 8 := b1 f.wrec ++ b1 f.nofb ++ (0 : BitVec 5) ++ b1 ones

def furWords (f : Fur) (srcs : List Word) : List W32 :=
  [lo32 f.dst, hi32 f.dst, lo32 f.ctr, hi32 f.ctr, f.inc, (0 : BitVec 21) ++ f.n1]
    ++ srcs.flatMap (fun s => [lo32 s, hi32 s]) ++ (if f.wrec then [lo32 f.reca, hi32 f.reca] else [])

def furXwc (f : Fur) (n : BitVec 4) : BitVec 4 := if f.wrec then n + 2 else n

/-! ### VE micro-orders (R140–R145) -/

/-- Lane types in the order of their codes (R141). -/
inductive Lane where
  | s8 | s16 | s32 | n8 | n16 | n32 | f32 | bf16
deriving DecidableEq, Repr, Inhabited

def Lane.ofCode (c : BitVec 3) : Lane :=
  match c.toNat with
  | 0 => .s8 | 1 => .s16 | 2 => .s32 | 3 => .n8 | 4 => .n16 | 5 => .n32 | 6 => .f32 | _ => .bf16

/-- Lane width in bits (R239). -/
def Lane.width (l : Lane) : Nat :=
  match l with
  | .s8 | .n8 => 8
  | .s16 | .n16 | .bf16 => 16
  | .s32 | .n32 | .f32 => 32

def Lane.isFloat (l : Lane) : Bool := l == .f32 || l == .bf16

/-- Lanes in a vector (R239). -/
def Lane.count (l : Lane) : Nat := 1024 / l.width

/-- The width of a VCVT format among INT8, UINT8, INT16, INT32, FP32, BF16, E4M3, E5M2 (R75, R259). -/
def cvtWidth (c : BitVec 4) : Option Nat :=
  match c.toNat with
  | 0 | 1 | 6 | 7 => some 8
  | 2 | 5 => some 16
  | 3 | 4 => some 32
  | _ => none

/-- The four kinds of VCVT (R259). -/
inductive CvtKind where
  | same | narrow | widen | expand
deriving DecidableEq, Repr, Inhabited

/-- The widening conversions R86 makes exact (R259). -/
def cvtWidens (l : Lane) (c : BitVec 4) : Bool :=
  match l, c.toNat with
  | .s8, 2 | .s8, 3 | .s8, 4 | .s8, 5 | .n8, 2 | .n8, 3 | .n8, 4 | .n8, 5 => true
  | .s16, 3 | .s16, 4 | .n16, 3 | .n16, 4 | .bf16, 4 => true
  | _, _ => false

/-- The kind of a VCVT order, where its fields are accepted (R253, R259). `.s16` to BF16 is named not accepted. -/
def cvtKind (o : StOrd) : Option CvtKind :=
  let l := Lane.ofCode o.lt
  let sb := o.sb.toNat
  if 0xA ≤ sb ∧ sb ≤ 0xD then
    let part := if sb = 0xA ∨ sb = 0xD then o.rnd.toNat ≤ 1 else o.rnd = 0
    if l = .n8 ∧ !o.fi ∧ !o.fo ∧ !o.sat ∧ !o.msk ∧ part then some .expand else none
  else match cvtWidth o.sb with
  | none => none
  | some wo =>
    let outInt := sb ≤ 3
    if o.fi ∧ !l.isFloat then none
    else if l.width < wo then
      if cvtWidens l o.sb ∧ !o.fo ∧ !o.sat ∧ !o.msk ∧ o.rnd.toNat < wo / l.width then some .widen else none
    else if l = .s16 ∧ sb = 5 then none
    else if o.rnd.toNat > 4 ∨ (outInt ∧ (o.fo ∨ (!l.isFloat ∧ o.rnd ≠ 0))) then none
    else some (if l.width = wo then .same else .narrow)

/-- The LT, SB and part codes of VPLN (R260). -/
def vplnOk (o : StOrd) : Bool :=
  let l := Lane.ofCode o.lt
  !o.fi && !o.fo && !o.sat && !o.msk &&
  match o.sb.toNat with
  | 0 => l == .s8 && o.rnd == 0
  | 1 | 6 | 7 | 8 => l == .n8 && o.rnd == 0
  | 5 => l == .bf16 && !o.rnd.getLsbD 1
  | _ => false

/-- The LT, SB and part codes of VUNPL (R260): the part selects elements that the segment holds. -/
def vunplOk (o : StOrd) : Bool :=
  let l := Lane.ofCode o.lt
  let parts := fun (n : Nat) => o.rnd.toNat * l.count < n
  !o.fo && !o.sat && !o.msk && (!o.fi || l.isFloat) &&
  match o.sb.toNat with
  | 0 => (l == .s8 || l == .s16 || l == .s32) && parts 128
  | 1 => (l == .n8 || l == .n16 || l == .n32) && parts 128
  | 6 | 7 => (l == .n8 || l == .bf16 || l == .f32) && parts 128
  | 8 => (l == .n8 && o.rnd == 0) || ((l == .bf16 || l == .f32) && parts 256)
  | 5 => (l == .bf16 && !o.rnd.getLsbD 1) || l == .f32
  | _ => false

/-- FI, FO and a rounding code on a member that rounds: zero on integer lanes, no reserved code (R253, R78). -/
def roundOk (o : StOrd) : Bool :=
  if (Lane.ofCode o.lt).isFloat then decide (o.rnd.toNat ≤ 4) else !o.fi && !o.fo && o.rnd == 0

def noMods (o : StOrd) : Bool := !o.fi && !o.fo && o.rnd == 0 && !o.sat

/-- FI on floating lanes only. -/
def fiOk (o : StOrd) : Bool := !o.fi || (Lane.ofCode o.lt).isFloat

/-- The fields a station order of opcode `op` accepts (R253–R263). -/
def stationOk (op : Nat) (o : StOrd) : Bool :=
  let l := Lane.ofCode o.lt
  match op with
  | 0x10 | 0x11 | 0x12 | 0x13 => roundOk o
  | 0x14 | 0x15 => fiOk o && !o.fo && o.rnd == 0 && !o.sat
  | 0x16 | 0x17 => o.sb == 0 && !o.fi && !o.fo && o.rnd == 0
  | 0x18 | 0x19 | 0x1A => noMods o
  | 0x1B => o.sb == 0 && noMods o
  | 0x1C | 0x1D | 0x1E => !l.isFloat && noMods o
  | 0x1F => !o.ds.getLsbD 3 && fiOk o && !o.fo && !o.sat && o.rnd != 7
  | 0x20 => noMods o && o.msk
  | 0x21 => (cvtKind o).isSome
  | 0x22 => (l == .s8 || l == .n8) && !o.fi && !o.fo && o.rnd == 0
  | 0x23 => roundOk o && decide (2 ^ o.sb.toNat ≤ l.count)
  | 0x24 | 0x25 => fiOk o && !o.fo && o.rnd == 0 && !o.sat && decide (2 ^ o.sb.toNat ≤ l.count)
  | 0x26 | 0x27 | 0x28 | 0x29 => l.isFloat && o.sb == 0 && roundOk o
  | 0x2A => noMods o
  | 0x2B => !o.fi && !o.fo && !o.sat && decide (o.sb.toNat * 8 + o.rnd.toNat < l.count)
  | 0x2C => l == .n8
  | 0x2D => vplnOk o
  | 0x2E => vunplOk o
  | 0x2F => l.isFloat && o.sb == 9 && !o.fo && o.rnd == 0 && !o.sat && !o.msk
  | 0x30 => l.isFloat && o.sb == 8 && !o.fo && roundOk o && !o.sat && !o.msk
  | 0x31 => o.sb == 0 && noMods o
  | 0x32 => noMods o
  | 0x33 =>
    l == .s8 && !o.ds.getLsbD 3 && !o.sa.getLsbD 3 && !o.sb.getLsbD 3 && !o.fi && !o.fo && !o.sat && !o.msk &&
      o.rnd != 7 && (o.rnd.toNat < 4 || o.sb == 0) && (o.rnd.toNat < 5 || o.sa == 0)
  | _ => false

/-- The station members with their codes (R142). -/
def stationTable : List (Nat × (StOrd → Instr)) :=
  [(0x10, .vadd), (0x11, .vsub), (0x12, .vmul), (0x13, .vfma), (0x14, .vmin), (0x15, .vmax), (0x16, .vabs),
   (0x17, .vneg), (0x18, .vand), (0x19, .vor), (0x1A, .vxor), (0x1B, .vnot), (0x1C, .vshl), (0x1D, .vshr),
   (0x1E, .vsra), (0x1F, .vcmp), (0x20, .vsel), (0x21, .vcvt), (0x22, .vdot4), (0x23, .vredadd), (0x24, .vredmax),
   (0x25, .vredmin), (0x26, .vexp2), (0x27, .vlog2), (0x28, .vrcp), (0x29, .vrsq), (0x2A, .vperm), (0x2B, .vbcast),
   (0x2C, .vrotm), (0x2D, .vpln), (0x2E, .vunpl), (0x2F, .vscale), (0x30, .vqmx), (0x31, .vmovs), (0x32, .vldi),
   (0x33, .vmask)]

def stOf (w : W32) : StOrd :=
  { eob := bit w 31, stn := fld w 22 3, ds := fld w 18 4, sa := fld w 14 4, sb := fld w 10 4, lt := fld w 7 3,
    fi := bit w 6, fo := bit w 5, rnd := fld w 2 3, sat := bit w 1, msk := bit w 0 }

/-- The micro-order a word of the table store holds; `none` where R145 faults its bundle. -/
def decodeOrder (w : W32) : Option Instr :=
  let e := bit w 31
  match (fld w 25 6).toNat with
  | 0x01 => optIf (fld w 0 17 == 0) (.inj { eob := e, strm := fld w 21 4, oq := fld w 18 3, keep := bit w 17 })
  | 0x02 => optIf (fld w 0 19 == 0) (.drn { eob := e, strm := fld w 21 4, wq := fld w 19 2 })
  | 0x03 => optIf (fld w 0 17 == 0) (.srd { eob := e, sd := fld w 21 4, oq := fld w 18 3, rst := bit w 17 })
  | 0x04 => optIf (fld w 0 18 == 0) (.swr { eob := e, sd := fld w 21 4, wq := fld w 19 2, rst := bit w 18 })
  | 0x05 => optIf (fld w 0 10 == 0)
      (.time { eob := e, c := fld w 17 8, k := fld w 15 2, sym := fld w 11 4, cut := bit w 10 })
  | 0x06 => optIf (fld w 0 12 == 0) (.jmpt e (fld w 12 13))
  | 0x07 => optIf (!bit w 9 || fld w 0 9 == 0)
      (.loopt { eob := e, tgt := fld w 12 13, lc := fld w 10 2, vr := bit w 9, cnt := fld w 0 9 })
  | 0x08 => optIf (fld w 0 25 == 0) (.halt e)
  | n =>
    match lookup n stationTable with
    | some f => optIf (stationOk n (stOf w)) (f (stOf w))
    | none => none

def wSt (op : BitVec 6) (o : StOrd) : W32 :=
  b1 o.eob ++ op ++ o.stn ++ o.ds ++ o.sa ++ o.sb ++ o.lt ++ b1 o.fi ++ b1 o.fo ++ o.rnd ++ b1 o.sat ++ b1 o.msk

/-! ### The encoder -/

/-- The words of an instruction, first word first; an event has none. -/
def encode (i : Instr) : List W32 :=
  match i with
  | .add r => [wR r.s 0x01 r.d r.a r.pa r.b r.pb 0x00]
  | .sub r => [wR r.s 0x01 r.d r.a r.pa r.b r.pb 0x01]
  | .and r => [wR r.s 0x01 r.d r.a r.pa r.b r.pb 0x02]
  | .or r => [wR r.s 0x01 r.d r.a r.pa r.b r.pb 0x03]
  | .xor r => [wR r.s 0x01 r.d r.a r.pa r.b r.pb 0x04]
  | .andn r => [wR r.s 0x01 r.d r.a r.pa r.b r.pb 0x05]
  | .shl r => [wR r.s 0x01 r.d r.a r.pa r.b r.pb 0x06]
  | .shr r => [wR r.s 0x01 r.d r.a r.pa r.b r.pb 0x07]
  | .sra r => [wR r.s 0x01 r.d r.a r.pa r.b r.pb 0x08]
  | .rotr r => [wR r.s 0x01 r.d r.a r.pa r.b r.pb 0x09]
  | .min r => [wR r.s 0x01 r.d r.a r.pa r.b r.pb 0x0A]
  | .max r => [wR r.s 0x01 r.d r.a r.pa r.b r.pb 0x0B]
  | .minu r => [wR r.s 0x01 r.d r.a r.pa r.b r.pb 0x0C]
  | .maxu r => [wR r.s 0x01 r.d r.a r.pa r.b r.pb 0x0D]
  | .cmpeq r => [wR r.s 0x01 r.d r.a r.pa r.b r.pb 0x0E]
  | .cmpne r => [wR r.s 0x01 r.d r.a r.pa r.b r.pb 0x0F]
  | .cmplt r => [wR r.s 0x01 r.d r.a r.pa r.b r.pb 0x10]
  | .cmpltu r => [wR r.s 0x01 r.d r.a r.pa r.b r.pb 0x11]
  | .cmple r => [wR r.s 0x01 r.d r.a r.pa r.b r.pb 0x12]
  | .cmpleu r => [wR r.s 0x01 r.d r.a r.pa r.b r.pb 0x13]
  | .sel r => [wR r.s 0x01 r.d r.a r.pa r.b r.pb 0x14]
  | .clz r => [wR r.s 0x01 r.d r.a r.pa 0 false 0x15]
  | .ctz r => [wR r.s 0x01 r.d r.a r.pa 0 false 0x16]
  | .popc r => [wR r.s 0x01 r.d r.a r.pa 0 false 0x17]
  | .sext r => [wR r.s 0x01 r.d r.a r.pa r.b r.pb 0x18]
  | .zext r => [wR r.s 0x01 r.d r.a r.pa r.b r.pb 0x19]
  | .mul r => [wR r.s 0x02 r.d r.a r.pa r.b r.pb 0x00]
  | .mulh r => [wR r.s 0x02 r.d r.a r.pa r.b r.pb 0x01]
  | .mulhu r => [wR r.s 0x02 r.d r.a r.pa r.b r.pb 0x02]
  | .div r => [wR r.s 0x02 r.d r.a r.pa r.b r.pb 0x03]
  | .divu r => [wR r.s 0x02 r.d r.a r.pa r.b r.pb 0x04]
  | .rem r => [wR r.s 0x02 r.d r.a r.pa r.b r.pb 0x05]
  | .remu r => [wR r.s 0x02 r.d r.a r.pa r.b r.pb 0x06]
  | .addi r => [wI r.s 0x03 r.d r.a r.pa 0 r.imm]
  | .andi r => [wI r.s 0x04 r.d r.a r.pa 0 r.imm]
  | .ori r => [wI r.s 0x05 r.d r.a r.pa 0 r.imm]
  | .xori r => [wI r.s 0x06 r.d r.a r.pa 0 r.imm]
  | .shli r => [wI r.s 0x07 r.d r.a r.pa 0 ((0 : BitVec 6) ++ r.imm)]
  | .shri r => [wI r.s 0x07 r.d r.a r.pa 1 ((0 : BitVec 6) ++ r.imm)]
  | .srai r => [wI r.s 0x07 r.d r.a r.pa 2 ((0 : BitVec 6) ++ r.imm)]
  | .rotri r => [wI r.s 0x07 r.d r.a r.pa 3 ((0 : BitVec 6) ++ r.imm)]
  | .cmpeqi r => [wI r.s 0x08 r.d r.a r.pa 0 r.imm]
  | .cmpnei r => [wI r.s 0x08 r.d r.a r.pa 1 r.imm]
  | .cmplti r => [wI r.s 0x08 r.d r.a r.pa 2 r.imm]
  | .cmpltui r => [wI r.s 0x08 r.d r.a r.pa 3 r.imm]
  | .lih r => [wU r.s 0x09 r.d r.imm]
  | .pcah r => [wU r.s 0x0A r.d r.imm]
  | .qcnt r => [wR r.s 0x0B r.d r.a false 0 false 0x00]
  | .qclr r => [wR r.s 0x0B 0 r.a false 0 false 0x01]
  | .dup r => [wR r.s 0x0B 0 r.a false 0 false 0x02]
  | .drop r => [wR r.s 0x0B 0 r.a false 0 false 0x03]
  | .movq r => [wR r.s 0x0B r.d r.a r.pa 0 false 0x04]
  | .lds r => [wM r.s 0x0C r.d r.a r.pa r.cls r.sz r.imm]
  | .ldz r => [wM r.s 0x0D r.d r.a r.pa r.cls r.sz r.imm]
  | .st r => [wM r.s 0x0E r.d r.a r.pa r.cls r.sz r.imm]
  | .aadd r => [wAtom r.s 0x10 r.d r.a r.pa r.b r.sz 0 r.cls]
  | .aand r => [wAtom r.s 0x10 r.d r.a r.pa r.b r.sz 1 r.cls]
  | .aor r => [wAtom r.s 0x10 r.d r.a r.pa r.b r.sz 2 r.cls]
  | .axor r => [wAtom r.s 0x10 r.d r.a r.pa r.b r.sz 3 r.cls]
  | .amin r => [wAtom r.s 0x10 r.d r.a r.pa r.b r.sz 4 r.cls]
  | .amax r => [wAtom r.s 0x10 r.d r.a r.pa r.b r.sz 5 r.cls]
  | .aminu r => [wAtom r.s 0x10 r.d r.a r.pa r.b r.sz 6 r.cls]
  | .amaxu r => [wAtom r.s 0x10 r.d r.a r.pa r.b r.sz 7 r.cls]
  | .aswap r => [wAtom r.s 0x10 r.d r.a r.pa r.b r.sz 8 r.cls]
  | .acas r => [wAtom r.s 0x10 r.d r.a r.pa r.b r.sz 9 r.cls]
  | .radd r => [wAtom r.s 0x11 0 r.a false r.b r.sz 0 r.cls]
  | .rand r => [wAtom r.s 0x11 0 r.a false r.b r.sz 1 r.cls]
  | .ror r => [wAtom r.s 0x11 0 r.a false r.b r.sz 2 r.cls]
  | .rxor r => [wAtom r.s 0x11 0 r.a false r.b r.sz 3 r.cls]
  | .rmin r => [wAtom r.s 0x11 0 r.a false r.b r.sz 4 r.cls]
  | .rmax r => [wAtom r.s 0x11 0 r.a false r.b r.sz 5 r.cls]
  | .rminu r => [wAtom r.s 0x11 0 r.a false r.b r.sz 6 r.cls]
  | .rmaxu r => [wAtom r.s 0x11 0 r.a false r.b r.sz 7 r.cls]
  | .rfadd r => [wAtom r.s 0x11 0 r.a false r.b false 8 r.cls]
  | .fence s mask => [wX s 0 0 mask]
  | .acq r => [wX r.s 1 r.scope.code r.mask]
  | .rel r => [wX r.s 2 r.scope.code r.mask]
  | .acqrel r => [wX r.s 3 r.scope.code r.mask]
  | .waitge r => [wR r.s 0x13 r.d r.a r.pa r.b r.pb 0x00]
  | .waitne r => [wR r.s 0x13 r.d r.a r.pa r.b r.pb 0x01]
  | .monclr r => [wR r.s 0x13 0 r.a r.pa 0 false 0x02]
  | .beq r => [wB r.s 0x14 r.off r.a r.pa r.b r.pb]
  | .bne r => [wB r.s 0x15 r.off r.a r.pa r.b r.pb]
  | .blt r => [wB r.s 0x16 r.off r.a r.pa r.b r.pb]
  | .bge r => [wB r.s 0x17 r.off r.a r.pa r.b r.pb]
  | .bltu r => [wB r.s 0x18 r.off r.a r.pa r.b r.pb]
  | .bgeu r => [wB r.s 0x19 r.off r.a r.pa r.b r.pb]
  | .j s off => [wJ s 0x1A off]
  | .jal r => [wU r.s 0x1B r.d r.imm]
  | .jalr r => [wI r.s 0x1C r.d r.a r.pa 0 r.imm]
  | .csrr s d num => [wI s 0x1D d 0 false 0 num]
  | .csrw r => [wI r.s 0x1D r.d r.a r.pa 1 r.num]
  | .csrs r => [wI r.s 0x1D r.d r.a r.pa 2 r.num]
  | .csrc r => [wI r.s 0x1D r.d r.a r.pa 3 r.num]
  | .trap s n => [wI s 0x1E 0 0 false 0 ((0x0 : BitVec 4) ++ n)]
  | .sysret s => [wI s 0x1E 0 0 false 0 0x100]
  | .idle s => [wI s 0x1E 0 0 false 0 0x200]
  | .brk s n => [wI s 0x1E 0 0 false 0 ((0x3 : BitVec 4) ++ n)]
  | .stepover s => [wI s 0x1E 0 0 false 0 0x400]
  | .trapWord w => [w]
  | .spawn r => [wR r.s 0x1F 0 r.a r.pa r.b r.pb ((0 : BitVec 4) ++ r.stage)]
  | .epush r => [wE r.s 0x20 r.e r.a r.pa r.b r.pb 0]
  | .echain r => [wE r.s 0x21 r.e r.a r.pa 0 false 0x00]
  | .etail r => [wE r.s 0x21 r.e r.a r.pa 0 false 0x01]
  | .eseq s e d => [wE s 0x21 e d false 0 false 0x02]
  | .xcmd r => [wE r.s 0x22 r.e r.a r.pa r.b r.pb 0]
  | .mcfg r => [wR r.s 0x23 0 r.a r.pa 0 false r.idx]
  | .tnext s d => [wR s 0x24 d 0 false 0 false 0x00]
  | .tdone s => [wR s 0x24 0 0 false 0 false 0x01]
  | .tyield s => [wR s 0x24 0 0 false 0 false 0x02]
  | .iinv r => [wI r.s 0x25 0 r.a r.pa 0 ((0 : BitVec 10) ++ b1 r.bent ++ b1 r.all)]
  | .tinv r => [wI r.s 0x25 0 r.a r.pa 1 ((0 : BitVec 11) ++ b1 r.all)]
  | .l1inv r => [wI r.s 0x25 0 r.a r.pa 2 ((0 : BitVec 11) ++ b1 r.all)]
  | .pref r => [wI r.s 0x25 0 r.a r.pa 3 r.imm]
  | .qregFill _ _ _ => []
  | .waitWake _ _ => []
  | .monitorPoll _ _ => []
  | .combiningFlush _ _ => []
  | .cpy h c => [wH 0x01 h 8 (opsTag c.tag 0), lo32 c.dst, hi32 c.dst, lo32 c.src, hi32 c.src, lo32 c.ctr, hi32 c.ctr, c.inc, c.len]
  | .cpyn h c => [wH 0x02 h 9 (opsTag c.tag 0), lo32 c.dst, hi32 c.dst, lo32 c.src, hi32 c.src, lo32 c.ctr, hi32 c.ctr, c.inc, lo32 c.desc, hi32 c.desc]
  | .gath h c => [wH 0x03 h 9 (opsTag c.tag c.esz), lo32 c.dst, hi32 c.dst, lo32 c.src, hi32 c.src, lo32 c.ctr, hi32 c.ctr, c.inc, b1 c.isz ++ (0 : BitVec 10) ++ c.idx, c.count]
  | .scat h c => [wH 0x04 h 9 (opsTag c.tag c.esz), lo32 c.dst, hi32 c.dst, lo32 c.src, hi32 c.src, lo32 c.ctr, hi32 c.ctr, c.inc, b1 c.isz ++ (0 : BitVec 10) ++ c.idx, c.count]
  | .rcpy h c => [wH 0x05 h 9 (opsTag c.tag 0), lo32 c.dst, hi32 c.dst, lo32 c.src, hi32 c.src, lo32 c.ctr, hi32 c.ctr, c.inc, c.len, (0 : BitVec 25) ++ c.rop ++ c.fmt]
  | .fill h c => [wH 0x06 h 8 (opsTag c.tag 0), lo32 c.dst, hi32 c.dst, lo32 c.pat, hi32 c.pat, lo32 c.ctr, hi32 c.ctr, c.inc, c.len]
  | .prefCmd h c => [wH 0x07 h 8 (opsTag c.tag 0), 0, 0, lo32 c.src, hi32 c.src, lo32 c.ctr, hi32 c.ctr, c.inc, c.len]
  | .cpyp h c => [wH 0x08 h 8 (opsTag c.tag 0), (0 : BitVec 28) ++ c.strm, 0, lo32 c.src, hi32 c.src, lo32 c.ctr, hi32 c.ctr, c.inc, c.len]
  | .psub h c => [wH 0x09 h 2 0, (0 : BitVec 11) ++ c.ring, (0 : BitVec 12) ++ c.strm ++ c.rows]
  | .puns h strm => [wH 0x0A h 1 0, (0 : BitVec 28) ++ strm]
  | .chunkApply _ _ => []
  | .chunkResend _ _ => []
  | .qinit h desc => [wH 0x28 h 4 0, lo32 desc, hi32 desc, 0, 0]
  | .qacq h desc resa => [wH 0x29 h 4 0, lo32 desc, hi32 desc, lo32 resa, hi32 resa]
  | .qrel h desc slot => [wH 0x2A h 4 0, lo32 desc, hi32 desc, lo32 slot, hi32 slot]
  | .qres h desc resa nw => [wH 0x2B h 4 ((0 : BitVec 7) ++ b1 nw), lo32 desc, hi32 desc, lo32 resa, hi32 resa]
  | .qcom h desc slot => [wH 0x2C h 4 0, lo32 desc, hi32 desc, lo32 slot, hi32 slot]
  | .qstat h desc resa => [wH 0x2D h 4 0, lo32 desc, hi32 desc, lo32 resa, hi32 resa]
  | .clampRefill _ _ => []
  | .csig h ctr inc => [wH 0x30 h 3 0, lo32 ctr, hi32 ctr, inc]
  | .cwait h ctr target => [wH 0x31 h 4 0, lo32 ctr, hi32 ctr, lo32 target, hi32 target]
  | .cseq h addr val => [wH 0x32 h 4 0, lo32 addr, hi32 addr, lo32 val, hi32 val]
  | .cnop h => [wH 0x38 h 0 0]
  | .clink h next => [wH 0x39 h 2 0, lo32 next, hi32 next]
  | .cloop h rep => [wH 0x3A h 1 0, rep]
  | .cend h => [wH 0x3B h 0 0]
  | .launch h q reca => [wH 0x3C h 2 ((0 : BitVec 2) ++ q), lo32 reca, hi32 reca]
  | .tokenPush _ _ => []
  | .counterAdd _ _ => []
  | .chainBlockFetch _ _ => []
  | .sequenceAdvance _ _ => []
  | .podRowDelivery _ _ => []
  | .mfmt h f => [wH 0x10 h 1 0, (0 : BitVec 8) ++ f.bstrm ++ f.astrm ++ (0 : BitVec 3) ++ b1 f.bpod ++ b1 f.apod ++ b1 f.sat ++ b1 f.fo ++ b1 f.fi ++ f.bfmt ++ f.afmt]
  | .mnest h kstep nlev => [wH 0x11 h 1 0, (0 : BitVec 21) ++ nlev ++ kstep]
  | .mgo h c => [wH 0x12 h 9 ((0 : BitVec 3) ++ c.qm ++ b1 c.pre), lo32 c.a, hi32 c.a, lo32 c.b, hi32 c.b, lo32 c.sa, hi32 c.sa, lo32 c.sb, hi32 c.sb, (0 : BitVec 28) ++ c.c]
  | .mbld h c => [wH 0x13 h 4 ((0 : BitVec 3) ++ c.qm ++ b1 c.pod), lo32 c.src, hi32 c.src, lo32 c.ssrc, hi32 c.ssrc]
  | .mzero h qm => [wH 0x14 h 0 ((0 : BitVec 4) ++ qm)]
  | .mhad h c => [wH 0x15 h 1 ((0 : BitVec 1) ++ b1 c.fo ++ c.n ++ c.qm), (0 : BitVec 27) ++ c.h]
  | .mdrn h c => [wH 0x16 h 7 ((0 : BitVec 4) ++ c.qm), lo32 c.dst, hi32 c.dst, c.mstr, c.qstr, (0 : BitVec 20) ++ b1 c.zero ++ c.rnd ++ b1 c.sat ++ b1 c.fo ++ b1 c.fi ++ b1 c.plane ++ c.fmt, lo32 c.sdst, hi32 c.sdst]
  | .meStep _ => []
  | .bBlockLoad _ => []
  | .vrun h c => [wH 0x18 h 5 0, lo32 c.img, hi32 c.img, (0 : BitVec 7) ++ c.len ++ (0 : BitVec 3) ++ c.entry, c.lc1 ++ c.lc0, c.lc3 ++ c.lc2]
  | .vstop h imm => [wH 0x19 h 0 ((0 : BitVec 7) ++ b1 imm)]
  | .vbase h n base => [wH 0x1A h 2 ((0 : BitVec 4) ++ n), lo32 base, hi32 base]
  | .vsdesc h n d => [wH 0x1B h 9 ((0 : BitVec 4) ++ n), lo32 d.base, hi32 d.base, d.cnt1 ++ d.cnt0, d.cnt3 ++ d.cnt2, d.str0, d.str1, d.str2, d.str3, d.dctl]
  | .bundleIssue _ => []
  | .cutDrain _ => []
  | .walkRequest _ _ => []
  | .vectorLanding _ _ => []
  | .windowClose _ _ => []
  | .writeWalkWrite _ _ => []
  | .inj o => [b1 o.eob ++ (0x01 : BitVec 6) ++ o.strm ++ o.oq ++ b1 o.keep ++ (0 : BitVec 17)]
  | .drn o => [b1 o.eob ++ (0x02 : BitVec 6) ++ o.strm ++ o.wq ++ (0 : BitVec 19)]
  | .srd o => [b1 o.eob ++ (0x03 : BitVec 6) ++ o.sd ++ o.oq ++ b1 o.rst ++ (0 : BitVec 17)]
  | .swr o => [b1 o.eob ++ (0x04 : BitVec 6) ++ o.sd ++ o.wq ++ b1 o.rst ++ (0 : BitVec 18)]
  | .time o => [b1 o.eob ++ (0x05 : BitVec 6) ++ o.c ++ o.k ++ o.sym ++ b1 o.cut ++ (0 : BitVec 10)]
  | .jmpt eob tgt => [b1 eob ++ (0x06 : BitVec 6) ++ tgt ++ (0 : BitVec 12)]
  | .loopt o => [b1 o.eob ++ (0x07 : BitVec 6) ++ o.tgt ++ o.lc ++ b1 o.vr ++ o.cnt]
  | .halt eob => [b1 eob ++ (0x08 : BitVec 6) ++ (0 : BitVec 25)]
  | .vadd o => [wSt 0x10 o]
  | .vsub o => [wSt 0x11 o]
  | .vmul o => [wSt 0x12 o]
  | .vfma o => [wSt 0x13 o]
  | .vmin o => [wSt 0x14 o]
  | .vmax o => [wSt 0x15 o]
  | .vabs o => [wSt 0x16 o]
  | .vneg o => [wSt 0x17 o]
  | .vand o => [wSt 0x18 o]
  | .vor o => [wSt 0x19 o]
  | .vxor o => [wSt 0x1A o]
  | .vnot o => [wSt 0x1B o]
  | .vshl o => [wSt 0x1C o]
  | .vshr o => [wSt 0x1D o]
  | .vsra o => [wSt 0x1E o]
  | .vcmp o => [wSt 0x1F o]
  | .vsel o => [wSt 0x20 o]
  | .vcvt o => [wSt 0x21 o]
  | .vdot4 o => [wSt 0x22 o]
  | .vredadd o => [wSt 0x23 o]
  | .vredmax o => [wSt 0x24 o]
  | .vredmin o => [wSt 0x25 o]
  | .vexp2 o => [wSt 0x26 o]
  | .vlog2 o => [wSt 0x27 o]
  | .vrcp o => [wSt 0x28 o]
  | .vrsq o => [wSt 0x29 o]
  | .vperm o => [wSt 0x2A o]
  | .vbcast o => [wSt 0x2B o]
  | .vrotm o => [wSt 0x2C o]
  | .vpln o => [wSt 0x2D o]
  | .vunpl o => [wSt 0x2E o]
  | .vscale o => [wSt 0x2F o]
  | .vqmx o => [wSt 0x30 o]
  | .vmovs o => [wSt 0x31 o]
  | .vldi o => [wSt 0x32 o]
  | .vmask o => [wSt 0x33 o]
  | .fcopy h f s1 => wH 0x20 h (furXwc f 8) (furOps f false) :: furWords f [s1]
  | .ffill h f ones => wH 0x21 h (furXwc f 6) (furOps f ones) :: furWords f []
  | .fand h f s1 s2 => wH 0x22 h (furXwc f 10) (furOps f false) :: furWords f [s1, s2]
  | .forRow h f s1 s2 => wH 0x23 h (furXwc f 10) (furOps f false) :: furWords f [s1, s2]
  | .fxor h f s1 s2 => wH 0x24 h (furXwc f 10) (furOps f false) :: furWords f [s1, s2]
  | .fnot h f s1 => wH 0x25 h (furXwc f 8) (furOps f false) :: furWords f [s1]
  | .fmaj h f s1 s2 s3 => wH 0x26 h (furXwc f 12) (furOps f false) :: furWords f [s1, s2, s3]
  | .fqry h c => [wH 0x27 h 14 ((0 : BitVec 1) ++ b1 c.nofb ++ (0 : BitVec 3) ++ c.op), lo32 c.dst, hi32 c.dst, lo32 c.ctr, hi32 c.ctr, c.inc, (0 : BitVec 21) ++ c.n1, lo32 c.s1, hi32 c.s1, lo32 c.s2, hi32 c.s2, lo32 c.s3, hi32 c.s3, lo32 c.res, hi32 c.res]
  | .lqtail _ _ => []
  | .gangPlacement => []
  | .spawnDelivery _ _ => []
  | .balancerInterval _ => []
  | .stageSwitch _ => []
  | .watchdogPreempt _ => []
  | .watchdogKill _ => []
  | .watchdogFence _ => []
  | .correctableError _ _ => []
  | .eccFreezeEnd _ => []
  | .uncorrectableError _ => []
  | .faultRecordRelease _ => []
  | .faultReplay _ => []
  | .faultAbort _ => []
  | .preEmpt => []
  | .saveComplete => []
  | .restore => []
  | .restorePlacement => []
  | .kill => []
  | .trinv _ => []
  | .trinvComplete => []
  | .trroot _ => []
  | .l1Fusion _ => []
  | .formatRegionWrite _ _ _ _ _ => []
  | .vtctlInv _ _ => []
  | .fwcc _ _ _ => []
  | .regionChange _ _ => []
  | .launchQueueReset _ => []
  | .icinv _ => []
  | .icbusyClear => []
  | .traceSessionOpen _ => []
  | .traceSessionClose _ => []
  | .traceFlush _ => []
  | .pmctrWrap _ _ => []
  | .veRelease _ _ => []
  | .clklockLock _ => []
  | .clklockUnlock _ => []
  | .opptRequest _ => []
  | .operatingPointChange => []
  | .operatingPointChangeEnd => []
  | .sensorSample _ => []
  | .capStep => []
  | .capRelax => []
  | .currentLimit _ => []
  | .emergencyEnd => []
  | .coreReset _ _ => []
  | .coreMarchTest _ _ => []
  | .repairEntry _ _ _ => []
  | .hostPoolWrite _ _ => []
  | .registerWrite _ _ _ => []
  | .coldReset => []
  | .powerGood => []
  | .firmwareVerify _ => []
  | .bentPowerUp _ => []
  | .stackTrainingEnd _ => []
  | .marchTestEnd _ _ => []
  | .hostLinkTrained _ _ => []
  | .hostAccess _ => []
  | .getVersion => []
  | .getCapabilities _ => []
  | .negotiateAlgorithms _ => []
  | .getDigests => []
  | .getCertificate _ _ _ => []
  | .challenge _ => []
  | .getMeasurements _ => []
  | .sessionRequest _ => []
  | .scarfFlit _ _ => []
  | .linkRetrain _ => []
  | .linkDown _ => []
  | .peerRequest _ => []
  | .retrainEnd _ _ => []
  | .hostLinkDown _ => []
  | .chunkAcknowledgement _ _ => []
  | .acknowledgementConfirmation _ _ => []
  | .homeAcknowledgement _ _ _ => []
  | .cxlCacheRequest _ _ => []

/-- What kind of word an instruction is, hence where it is held (R126). -/
inductive WordKind where
  | scalar | command | order | event
deriving DecidableEq, Repr, Inhabited

def wordKind (i : Instr) : WordKind :=
  match i with
  | .add _ | .sub _ | .and _ | .or _ | .xor _ | .andn _ | .shl _ | .shr _ | .sra _ | .rotr _ | .min _ | .max _
    | .minu _ | .maxu _ | .cmpeq _ | .cmpne _ | .cmplt _ | .cmpltu _ | .cmple _ | .cmpleu _ | .sel _ | .clz _
    | .ctz _ | .popc _ | .sext _ | .zext _ | .mul _ | .mulh _ | .mulhu _ | .div _ | .divu _ | .rem _ | .remu _
    | .addi _ | .andi _ | .ori _ | .xori _ | .shli _ | .shri _ | .srai _ | .rotri _ | .cmpeqi _ | .cmpnei _
    | .cmplti _ | .cmpltui _ | .lih _ | .pcah _ | .qcnt _ | .qclr _ | .dup _ | .drop _ | .movq _ | .lds _
    | .ldz _ | .st _ | .aadd _ | .aand _ | .aor _ | .axor _ | .amin _ | .amax _ | .aminu _ | .amaxu _
    | .aswap _ | .acas _ | .radd _ | .rand _ | .ror _ | .rxor _ | .rmin _ | .rmax _ | .rminu _ | .rmaxu _
    | .rfadd _ | .fence _ _ | .acq _ | .rel _ | .acqrel _ | .waitge _ | .waitne _ | .monclr _ | .beq _ | .bne _
    | .blt _ | .bge _ | .bltu _ | .bgeu _ | .j _ _ | .jal _ | .jalr _ | .csrr _ _ _ | .csrw _ | .csrs _
    | .csrc _ | .trap _ _ | .sysret _ | .idle _ | .brk _ _ | .stepover _ | .trapWord _ | .spawn _ | .epush _
    | .echain _ | .etail _ | .eseq _ _ _ | .xcmd _ | .mcfg _ | .tnext _ _ | .tdone _ | .tyield _ | .iinv _
    | .tinv _ | .l1inv _ | .pref _ => .scalar
  | .cpy _ _ | .cpyn _ _ | .gath _ _ | .scat _ _ | .rcpy _ _ | .fill _ _ | .prefCmd _ _ | .cpyp _ _ | .psub _ _
    | .puns _ _ | .qinit _ _ | .qacq _ _ _ | .qrel _ _ _ | .qres _ _ _ _ | .qcom _ _ _ | .qstat _ _ _
    | .csig _ _ _ | .cwait _ _ _ | .cseq _ _ _ | .cnop _ | .clink _ _ | .cloop _ _ | .cend _ | .launch _ _ _
    | .mfmt _ _ | .mnest _ _ _ | .mgo _ _ | .mbld _ _ | .mzero _ _ | .mhad _ _ | .mdrn _ _ | .vrun _ _
    | .vstop _ _ | .vbase _ _ _ | .vsdesc _ _ _ | .fcopy _ _ _ | .ffill _ _ _ | .fand _ _ _ _ | .forRow _ _ _ _
    | .fxor _ _ _ _ | .fnot _ _ _ | .fmaj _ _ _ _ _ | .fqry _ _ => .command
  | .inj _ | .drn _ | .srd _ | .swr _ | .time _ | .jmpt _ _ | .loopt _ | .halt _ | .vadd _ | .vsub _ | .vmul _
    | .vfma _ | .vmin _ | .vmax _ | .vabs _ | .vneg _ | .vand _ | .vor _ | .vxor _ | .vnot _ | .vshl _
    | .vshr _ | .vsra _ | .vcmp _ | .vsel _ | .vcvt _ | .vdot4 _ | .vredadd _ | .vredmax _ | .vredmin _
    | .vexp2 _ | .vlog2 _ | .vrcp _ | .vrsq _ | .vperm _ | .vbcast _ | .vrotm _ | .vpln _ | .vunpl _
    | .vscale _ | .vqmx _ | .vmovs _ | .vldi _ | .vmask _ => .order
  | .qregFill _ _ _ | .waitWake _ _ | .monitorPoll _ _ | .combiningFlush _ _ | .chunkApply _ _
    | .chunkResend _ _ | .clampRefill _ _ | .tokenPush _ _ | .counterAdd _ _ | .chainBlockFetch _ _
    | .sequenceAdvance _ _ | .podRowDelivery _ _ | .meStep _ | .bBlockLoad _ | .bundleIssue _ | .cutDrain _
    | .walkRequest _ _ | .vectorLanding _ _ | .windowClose _ _ | .writeWalkWrite _ _ | .lqtail _ _
    | .gangPlacement | .spawnDelivery _ _ | .balancerInterval _ | .stageSwitch _ | .watchdogPreempt _
    | .watchdogKill _ | .watchdogFence _ | .correctableError _ _ | .eccFreezeEnd _ | .uncorrectableError _
    | .faultRecordRelease _ | .faultReplay _ | .faultAbort _ | .preEmpt | .saveComplete | .restore
    | .restorePlacement | .kill | .trinv _ | .trinvComplete | .trroot _ | .l1Fusion _
    | .formatRegionWrite _ _ _ _ _ | .vtctlInv _ _ | .fwcc _ _ _ | .regionChange _ _ | .launchQueueReset _
    | .icinv _ | .icbusyClear | .traceSessionOpen _ | .traceSessionClose _ | .traceFlush _ | .pmctrWrap _ _
    | .veRelease _ _ | .clklockLock _ | .clklockUnlock _ | .opptRequest _ | .operatingPointChange
    | .operatingPointChangeEnd | .sensorSample _ | .capStep | .capRelax | .currentLimit _ | .emergencyEnd
    | .coreReset _ _ | .coreMarchTest _ _ | .repairEntry _ _ _ | .hostPoolWrite _ _ | .registerWrite _ _ _
    | .coldReset | .powerGood | .firmwareVerify _ | .bentPowerUp _ | .stackTrainingEnd _ | .marchTestEnd _ _
    | .hostLinkTrained _ _ | .hostAccess _ | .getVersion | .getCapabilities _ | .negotiateAlgorithms _
    | .getDigests | .getCertificate _ _ _ | .challenge _ | .getMeasurements _ | .sessionRequest _
    | .scarfFlit _ _ | .linkRetrain _ | .linkDown _ | .peerRequest _ | .retrainEnd _ _ | .hostLinkDown _
    | .chunkAcknowledgement _ _ | .acknowledgementConfirmation _ _ | .homeAcknowledgement _ _ _
    | .cxlCacheRequest _ _ => .event

/-- The instruction the decoder reads from an instruction whose bits are `w`, numbered as
spec/opcode_table.json numbers them. The table does not say which of the three kinds of word a row is, and R126
keeps them apart by where they are held: a scalar word is tried first, then a command header whose extra words
are zero, then a micro-order. -/
def decodeTableWord (nbits w : Nat) : Option Instr :=
  if nbits ≤ 32 then
    let x := BitVec.ofNat 32 w
    match decodeScalar x with
    | some i => some i
    | none =>
      match decodeCmd (x :: List.replicate (H.xwc x) 0) with
      | some i => some i
      | none => decodeOrder x
  else none

end Sys2Proof
end

