-- ==== Sys2Proof/Machine/Jobs.lean ====
section
/-! DEFINITION. What engine commands access: copies as elements (R214–R219), Furrow operands (R300), and the bytes of a
started command, from which the order of a queue's commands of one class follows (R115, R211, R222). -/

namespace Sys2Proof.Machine

/-! ### Copies as elements (R214–R219) -/

/-- An element's source: an address, bytes of a pattern, or an index outside the scratchpad. -/
inductive ESrc where
  | va (a : Word)
  | bytes (l : List Byte)
  | bad (a : Word)
deriving DecidableEq, Repr, Inhabited

/-- A copy as elements of `size` bytes; with `old`, sources hold what stood there before the command wrote (R216). -/
structure Job where
  count : Nat
  size : Nat
  src : Nat → ESrc
  dst : Nat → ESrc
  old : Bool

def step64 (base : Word) (k : Int) : Word := base + BitVec.ofInt 64 k

def cpyJob (c : CopyOps) : Job :=
  { count := c.len.toNat, size := 1, src := fun k => .va (c.src + BitVec.ofNat 64 k),
    dst := fun k => .va (c.dst + BitVec.ofNat 64 k), old := true }

/-- Byte of PAT for an address (R219). -/
def fillByte (pat a : Word) : Byte := pat.extractLsb' (8 * (a.toNat % 8)) 8

def fillJob (c : FillOps) : Job :=
  { count := c.len.toNat, size := 1, src := fun k => .bytes [fillByte c.pat (c.dst + BitVec.ofNat 64 k)],
    dst := fun k => .va (c.dst + BitVec.ofNat 64 k), old := true }

/-- Fields of a CPYN descriptor (R216). -/
def descNat (d : List Byte) (o n : Nat) : Nat := leOfBytes ((d.drop o).take n)
def descInt (d : List Byte) (o : Nat) : Int := decodeInt true 64 (descNat d o 8)
def cpynDims (d : List Byte) : Nat := descNat d 0 4 % 8 + 1
def cpynSize (d : List Byte) : Nat := 2 ^ (descNat d 0 4 / 16 % 8)
def cpynCounts (d : List Byte) : List Nat := (List.range (cpynDims d)).map fun j => descNat d (16 + 24 * j) 8

def cpynOk (d : List Byte) : Bool :=
  let t := descNat d 0 4
  t / 8 % 2 == 0 && t / 128 == 0 && descNat d 4 12 == 0 &&
    (cpynCounts d).all (fun n => decide (1 ≤ n ∧ n ≤ 2 ^ 32)) && decide ((cpynCounts d).prod ≤ 2 ^ 40)

/-- Σ ij × stride for the k-th tuple, i0 fastest; `o` is the offset of the strides in an entry. -/
def cpynOffset (d : List Byte) (o : Nat) : List Nat → Nat → Nat → Int
  | [], _, _ => 0
  | c :: cs, j, k => (k % c : Nat) * descInt d (o + 24 * j) + cpynOffset d o cs (j + 1) (k / c)

def cpynJob (c : CopyNOps) (d : List Byte) : Job :=
  { count := (cpynCounts d).prod, size := cpynSize d,
    src := fun k => .va (step64 c.src (cpynOffset d 0x18 (cpynCounts d) 0 k)),
    dst := fun k => .va (step64 c.dst (cpynOffset d 0x20 (cpynCounts d) 0 k)), old := true }

/-- Index `k` of GATH or SCAT, signed; `none` beyond the scratchpad (R217). -/
def State.gatherIndex (s : State) (p : CoreId) (c : GatherOps) (k : Nat) : Option Int :=
  let w := if c.isz then 8 else 4
  let o := c.idx.toNat + k * w
  if spadSize ≤ o then none
  else some (decodeInt true (8 * w) (leNat (s.core p).scratch.get (o / w * w) w))

def idxVa (c : GatherOps) (k : Nat) : Word := BitVec.ofNat 64 (spadBase + c.idx.toNat + k * if c.isz then 8 else 4)

def gatherJob (scatter : Bool) (c : GatherOps) (s : State) (p : CoreId) : Job :=
  let e := 2 ^ c.esz.toNat
  let far := fun (b : Word) (k : Nat) => match s.gatherIndex p c k with
    | some i => ESrc.va (step64 b (i * (e : Nat)))
    | none => .bad (idxVa c k)
  let near := fun (b : Word) (k : Nat) => ESrc.va (b + BitVec.ofNat 64 (k * e))
  { count := c.count.toNat, size := e, src := if scatter then near c.src else far c.src,
    dst := if scatter then far c.dst else near c.dst, old := false }

def rcpyFmt (c : BitVec 4) : Option Fmt :=
  match c.toNat with
  | 3 => some .int32 | 4 => some .fp32 | 5 => some .bf16
  | _ => none

def rcpyCount (c : RcpyOps) : Nat :=
  match rcpyFmt c.fmt with
  | some f => c.len.toNat / (f.width / 8)
  | none => 0

/-- An RCPY as a copy's elements, naturally aligned (R218). -/
def rcpyJob (c : RcpyOps) : Job :=
  let n := match rcpyFmt c.fmt with
    | some f => f.width / 8
    | none => 1
  let m := ~~~(BitVec.ofNat 64 (n - 1))
  { count := rcpyCount c, size := n, src := fun k => .va ((c.src &&& m) + BitVec.ofNat 64 (k * n)),
    dst := fun k => .va ((c.dst &&& m) + BitVec.ofNat 64 (k * n)), old := false }

/-- The rows a CPYP reads. -/
def cpypJob (c : CpypOps) : Job :=
  { count := c.len.toNat / 128, size := 128,
    src := fun k => .va ((c.src &&& ~~~127#64) + BitVec.ofNat 64 (128 * k)), dst := fun _ => .bytes [], old := false }

/-- Whether a CPYP has nothing to read: no subscriber, or no row (R214, R220). -/
def cpypEmpty (subs : List Nat) (c : CpypOps) : Bool := subs.isEmpty || decide (c.len.toNat < 128)

/-- The elements of a started copy. -/
def flightJob (s : State) (p : CoreId) (f : Flight) : Option Job :=
  match decodeCmd f.words with
  | some (.cpy _ c) => some (cpyJob c)
  | some (.fill _ c) => some (fillJob c)
  | some (.cpyn _ c) => some (cpynJob c f.desc)
  | some (.gath _ c) => some (gatherJob false c s p)
  | some (.scat _ c) => some (gatherJob true c s p)
  | some (.rcpy _ c) => some (rcpyJob c)
  | some (.cpyp _ c) => some (cpypJob c)
  | _ => none

/-! ### Furrow commands (R299, R300, R305) -/

/-- The command or candidate: opcode, DST then the sources, rows, NOFB. -/
structure FurCmd where
  opc : Nat
  dst : Word
  srcs : List Word
  n : Nat
  nofb : Bool

def FurCmd.len (f : FurCmd) : Nat := 1024 * f.n

def record? (f : Fur) : Option Word := if f.wrec then some f.reca else none

def furCmd (opc : Nat) (f : Fur) (srcs : List Word) : FurCmd :=
  { opc := opc, dst := f.dst, srcs := srcs, n := f.n1.toNat + 1, nofb := f.nofb }

/-- Sources the candidate uses. -/
def candSrcs (op : BitVec 3) : Nat :=
  match op.toNat with
  | 0 | 5 => 1 | 1 => 0 | 2 | 3 | 4 => 2 | _ => 3

def fqryCmd (c : FQryOps) : FurCmd :=
  { opc := 0x20 + c.op.toNat, dst := c.dst, srcs := [c.s1, c.s2, c.s3].take (candSrcs c.op), n := c.n1.toNat + 1, nofb := c.nofb }

/-! ### The bytes a started command accesses -/

/-- Bytes from a virtual address on. -/
abbrev Span := Word × Nat

def ESrc.spans (n : Nat) (x : ESrc) : List Span :=
  match x with
  | .va a => [(a, n)]
  | _ => []

/-- The sides of a job that are no run of bytes. -/
def Job.srcSpans (j : Job) : List Span := (List.range j.count).flatMap fun k => (j.src k).spans j.size
def Job.dstSpans (j : Job) : List Span := (List.range j.count).flatMap fun k => (j.dst k).spans j.size

/-- A run of bytes, none where it has no length. -/
def byteRun (a : Word) (n : Nat) : List Span := if n = 0 then [] else [(a, n)]

def gatherSpans (s : State) (p : CoreId) (scatter : Bool) (c : GatherOps) : List Span :=
  let j := gatherJob scatter c s p
  let n := c.count.toNat * 2 ^ c.esz.toNat
  byteRun (idxVa c 0) (c.count.toNat * if c.isz then 8 else 4) ++
    if scatter then byteRun c.src n ++ j.dstSpans else byteRun c.dst n ++ j.srcSpans

def operandSpans (c : Fur) (srcs : List Word) : List Span :=
  let n := 1024 * (c.n1.toNat + 1)
  (c.dst :: srcs).map (fun a => (a, n)) ++ (record? c).toList.map fun a => (a &&& ~~~15#64, 16)

/-- The word a queue command's result goes to. -/
def resultSpan (r : Word) : List Span := if r = 0 then [] else [(r &&& ~~~7#64, 8)]

/-- The rings of its own core that a CPYP writes. -/
def State.ringSpans (s : State) (p : CoreId) (f : Flight) (strm : BitVec 4) : List Span :=
  let u := vget (s.core p).pods strm.toNat
  if u.valid && f.subs.any fun i => some i == ((s.core p).place.map (·.lidx.toNat)) then
    byteRun (BitVec.ofNat 64 (spadBase + u.ring)) (128 * u.rows)
  else []

/-- The bytes that a command of a CE queue accesses (R211): none where its LEN or COUNT is 0 (R214) or no core is
subscribed (R220), and none of a command that only brings lines into the LLC. -/
def State.spans (s : State) (p : CoreId) (f : Flight) : List Span :=
  match decodeCmd f.words with
  | some (.cpy _ c) => byteRun c.src c.len.toNat ++ byteRun c.dst c.len.toNat
  | some (.fill _ c) => byteRun c.dst c.len.toNat
  | some (.cpyn _ c) =>
    (c.desc &&& ~~~63#64, 256) :: ((cpynJob c f.desc).srcSpans ++ (cpynJob c f.desc).dstSpans)
  | some (.gath _ c) => gatherSpans s p false c
  | some (.scat _ c) => gatherSpans s p true c
  | some (.rcpy _ c) =>
    let j := rcpyJob c
    let m := ~~~(BitVec.ofNat 64 (j.size - 1))
    byteRun (c.src &&& m) (j.count * j.size) ++ byteRun (c.dst &&& m) (j.count * j.size)
  | some (.cpyp _ c) =>
    if cpypEmpty f.subs c then [] else byteRun (c.src &&& ~~~127#64) c.len.toNat ++ s.ringSpans p f c.strm
  | some (.fcopy _ c a) => operandSpans c [a]
  | some (.ffill _ c _) => operandSpans c []
  | some (.fand _ c a b) | some (.forRow _ c a b) | some (.fxor _ c a b) => operandSpans c [a, b]
  | some (.fnot _ c a) => operandSpans c [a]
  | some (.fmaj _ c a b d) => operandSpans c [a, b, d]
  | some (.fqry _ c) => [(c.res &&& ~~~7#64, 8)]
  | some (.csig _ a _) | some (.cwait _ a _) | some (.cseq _ a _) => [(a &&& ~~~7#64, 8)]
  | some (.qinit _ d) => [(d &&& ~~~63#64, 64)]
  | some (.qstat _ d r) => (d &&& ~~~63#64, 64) :: resultSpan r
  | some (.qacq _ _ r) | some (.qres _ _ r _) => resultSpan r
  | _ => []

/-- The places of `n` bytes from a virtual address on, page by page of 4 KiB (R100), in at most `f` pages; a page that
does not translate has none. -/
def pagePlaces (tr : Word → Option Loc) : Nat → Nat → Nat → List (Loc × Nat)
  | 0, _, _ => []
  | f + 1, va, n =>
    if n = 0 then []
    else
      let k := min n (4096 - va % 4096)
      (tr (BitVec.ofNat 64 va)).toList.map (fun l => (l, k)) ++ pagePlaces tr f (va + k) (n - k)

def State.spanPlaces (s : State) (p : CoreId) (x : Span) : List (Loc × Nat) :=
  pagePlaces (fun va => (s.translate p va .locate true).toOption) (x.2 / 4096 + 2) x.1.toNat x.2

/-- Whether two spans name a byte in common: by their addresses, or by the places these name. -/
def State.spansMeet (s : State) (p : CoreId) (x y : Span) : Bool :=
  decide (x.1.toNat < y.1.toNat + y.2 ∧ y.1.toNat < x.1.toNat + x.2) ||
    (s.spanPlaces p x).any fun a => (s.spanPlaces p y).any fun b => a.1.overlap a.2 b.1 b.2

end Sys2Proof.Machine
end

