-- ==== Sys2Proof/Machine/Cmd.lean ====
section
/-! DEFINITION. The frame of an engine command (R120, R121, R139, R203–R213, R391): the check of its fields, the
translations made at its start, its tokens, its place in flight, its faults and parking. -/

namespace Sys2Proof.Machine

/-! ### Tokens (R136, R208) -/

/-- The endpoints a WAIT mask names at endpoint `e`: the others in the order L, M, V, S (R136). -/
def others (e : Ep) : List Ep := [.l, .m, .v, .s].filter (· != e)

def waitEps (e : Ep) (m : BitVec 3) : List Ep :=
  ((others e).zip [0, 1, 2]).filterMap fun x => if m.getLsbD x.2 then some x.1 else none

def tokIdx (src dst : Ep) : Nat := 4 * src.idx.val + dst.idx.val

/-- Every named queue to `e` holds a token. -/
def Core.hasTokens (c : Core) (e : Ep) (m : BitVec 3) : Bool := (waitEps e m).all fun x => vget c.tok (tokIdx x e) != 0

/-- One token popped from each named queue in the same step. -/
def Core.popTokens (c : Core) (e : Ep) (m : BitVec 3) : Core :=
  { c with tok := (waitEps e m).foldl (fun t x => vmod t (tokIdx x e) (· - 1)) c.tok }

def Core.pushToken (c : Core) (src dst : Ep) : Core := { c with tok := vmod c.tok (tokIdx src dst) (· + 1) }

/-! ### Flights -/

def headerOf (ws : List W32) : W32 := ws.headD 0
def clsOf (ws : List W32) : BitVec 4 := (H.hdr (headerOf ws)).cls
def opcOf (ws : List W32) : Nat := H.opc (headerOf ws)
/-- The copy and Furrow classes, of which 512 may be in flight (R210). -/
def isCopyClass (ws : List W32) : Bool :=
  match cmdClass (opcOf ws) with
  | some .copy | some .furrow => true
  | _ => false

def Core.flight? (c : Core) (n : Nat) : Option Flight := c.flights.find? fun f => f.ord == n
def Core.modFlight (c : Core) (n : Nat) (f : Flight → Flight) : Core :=
  { c with flights := modFirst (fun x => x.ord == n) f c.flights }
def State.modFlight (s : State) (p : CoreId) (n : Nat) (f : Flight → Flight) : State :=
  s.modCore p fun c => c.modFlight n f

/-- Earlier commands of a queue in a class that have not finished. -/
def Core.unfinished (c : Core) (e : Ep) (cls : BitVec 4) : List Flight :=
  c.flights.filter fun f => f.ep == e && clsOf f.words == cls && !f.finished

/-- A flight with nothing left to do is gone. -/
def Core.sweep (c : Core) : Core :=
  { c with flights := c.flights.filter fun f => !(f.finished && f.ctr.isNone && f.sig.isNone) }

/-- The endpoint's code in SRC of a fault record (R314). -/
def epSrc (e : Ep) : Nat := 4 + e.idx.val

/-! ### Faults of engine commands (R312) -/

/-- A fault is posted and ENGFLT updated. -/
def State.engRecord (s : State) (p : CoreId) (e : Ep) (ws : List W32) (pc : Word) (code aux : Byte) (addr : Word)
    (elem : Nat) : State :=
  (s.report (bentOf p)
      { core := some p, src := epSrc e, insn := headerOf ws, pc := pc, addr := addr, elem := elem } code aux).modCore p
    fun c => { c with engflt := engfltNext c.engflt code e }

def State.head? (s : State) (p : CoreId) (e : Ep) : Option QCmd := (s.eng p e).q.head?

/-- MNESTs at the head of the M queue (R200): 1 or 0. -/
def State.nestAt (s : State) (p : CoreId) (e : Ep) : Nat :=
  match e, s.head? p e with
  | .m, some q => if opcOf q.words = 0x11 then 1 else 0
  | _, _ => 0

/-- The command at a queue's head leaves it. -/
def State.dropHead (s : State) (p : CoreId) (e : Ep) : State :=
  (s.modCore p fun c => { c with nestsOut := c.nestsOut + s.nestAt p e }).modEng p e fun g => { g with q := g.q.tail }

/-- The command at a queue's head faults with no effect; where no record can be posted it holds in place (R313). -/
def State.headFault (s : State) (p : CoreId) (e : Ep) (code aux : Byte) (addr : Word) : State :=
  match s.head? p e with
  | none => s
  | some q =>
    if s.faultRoom (bentOf p) then (s.dropHead p e).engRecord p e q.words q.pc code aux addr 0 else s

/-- The command at a queue's head parks unstarted on a translation failure (R391). -/
def State.headPark (s : State) (p : CoreId) (e : Ep) (code cause : Byte) (addr : Word) : State :=
  match s.head? p e with
  | none => s
  | some q =>
    if s.faultRoom (bentOf p) then
      let t := s.freshTicket
      (s.reportPage (bentOf p)
          { core := some p, src := epSrc e, insn := headerOf q.words, pc := q.pc, addr := addr } code cause t).modEng p e
        fun g => { g with q := lmod 0 (fun x => { x with ticket := some t }) g.q }
    else s

/-- A started command ends by a fault at an element: no counter add, no token (R212). -/
def State.endFlight (s : State) (p : CoreId) (ord : Nat) : State :=
  s.modCore p fun c =>
    (c.modFlight ord fun x => { x with finished := true, ctr := none, sig := none, ticket := none }).sweep

/-- A started command that cannot post its record holds in place at an element until there is room (R313). -/
def State.flightHold (s : State) (p : CoreId) (f : Flight) (elem : Nat) (saved : List (List (Option Byte))) : State :=
  s.modFlight p f.ord fun x => { x with waiting := true, held := true, elem := elem, saved := saved }

def State.flightFault (s : State) (p : CoreId) (f : Flight) (code aux : Byte) (addr : Word) (elem : Nat)
    (saved : List (List (Option Byte))) : State :=
  if s.faultRoom (bentOf p) then (s.engRecord p f.ep f.words f.pc code aux addr elem).endFlight p f.ord
  else s.flightHold p f elem saved

/-- A started command parks at an element (R212). -/
def State.flightPark (s : State) (p : CoreId) (f : Flight) (code cause : Byte) (addr : Word) (elem : Nat)
    (saved : List (List (Option Byte))) : State :=
  if s.faultRoom (bentOf p) then
    let t := s.freshTicket
    (s.reportPage (bentOf p)
        { core := some p, src := epSrc f.ep, insn := headerOf f.words, pc := f.pc, addr := addr, elem := elem }
        code cause t).modFlight p f.ord fun x => { x with ticket := some t, elem := elem, saved := saved }
  else s.flightHold p f elem saved

/-- The stamp's S2: the last M or V command started in the tile finishes (R362). -/
def State.stampFinish (s : State) (p : CoreId) (f : Flight) : State :=
  if f.ep = .m ∨ f.ep = .v then
    s.modGate p fun g => { g with stamp := g.stamp.map fun t => if t.s0 ≤ f.start then { t with s2 := s.cycle } else t }
  else s

/-- A command finishes: its counter add and token push may follow (R120). -/
def State.finish (s : State) (p : CoreId) (ord : Nat) : State :=
  match (s.core p).flight? ord with
  | none => s
  | some f =>
    ((s.modCore p fun c => (c.modFlight ord fun x => { x with finished := true, ticket := none }).sweep).stampFinish p
      f).count p 0x0B (if f.ep = .l ∨ f.ep = .s then 1 else 0)

/-! ### The addresses a command translates whole (R391) -/

structure AddrReq where
  va : Word
  acc : Acc
  n : Nat
  ok : State → Loc → Bool

/-- The engine's accesses are user accesses (R103). -/
def State.engAt (s : State) (p : CoreId) (va : Word) (n : Nat) (acc : Acc) : Except XErr Loc :=
  match s.translate p va acc true with
  | .error e => .error e
  | .ok l => if (acc = .write ∨ acc = .rmw) ∧ s.inView l then .error .access else .ok (l.align n)

inductive Addrs where
  | ok (l : List Loc)
  | park (acc : Acc) (cause : Byte) (va : Word)
  | fault (va : Word)
  /-- A region change holds the translation (R297). -/
  | held
deriving Repr, Inhabited

def State.addrs (s : State) (p : CoreId) : List AddrReq → Addrs
  | [] => .ok []
  | r :: t =>
    match s.engAt p r.va r.n r.acc with
    | .error (.page c) => .park r.acc c r.va
    | .error .held => .held
    | .error _ => .fault r.va
    | .ok l =>
      if r.ok s l then
        match State.addrs s p t with
        | .ok ls => .ok (l :: ls)
        | x => x
      else .fault r.va

/-- A completion counter: a 64-bit word in device memory or understore (R121). The table of R103 has no row for its add,
which reads and writes the word: RD and W are asked for, as for a reduction (DESIGN CHOICE, log 44). -/
def ctrReq (va : Word) : AddrReq := { va := va, acc := .rmw, n := 8, ok := fun s l => s.isDevUnder l }

/-! ### Stage-queue slots (R222) -/

/-- Every live stage queue an address can lie in: the core's own and every bent's. -/
def State.stageQs (s : State) (p : CoreId) : List StageQ :=
  (s.core p).sqt ++ (vlist s.bents).flatMap (·.sqt)

/-- The pieces of `n` bytes from offset `o` of some runs of bytes. -/
def cutRuns : List (Loc × Nat) → Nat → Nat → List (Loc × Nat)
  | [], _, _ => []
  | (l, k) :: t, o, n =>
    if n = 0 then []
    else if k ≤ o then cutRuns t (o - k) n
    else (l.add o, min n (k - o)) :: cutRuns t 0 (n - (k - o))

/-- The places of `n` bytes from offset `o` of a queue's slots, page by page (R221). -/
def StageQ.pieces (q : StageQ) (o n : Nat) : List (Loc × Nat) :=
  if q.runs.isEmpty then [(q.base.add o, n)] else cutRuns q.runs o n

/-- The same of its Clamp ring. -/
def StageQ.ringPieces (q : StageQ) (o n : Nat) : List (Loc × Nat) :=
  if q.cruns.isEmpty then [(q.cbase.add o, n)] else cutRuns q.cruns o n

/-- Whether slot `i` and some bytes overlap. -/
def StageQ.meets (q : StageQ) (i : Nat) (l : Loc) (n : Nat) : Bool :=
  (q.pieces (i * q.size) q.size).any fun x => x.1.overlap x.2 l n

/-- The state of the slot that holds the byte at `l`, if one does. -/
def StageQ.slotAt (q : StageQ) (l : Loc) : Option (Nat × Slot) :=
  ((List.range q.slots.length).find? fun i => q.meets i l 1).map fun i => (i, q.slots.getD i .free)

def Slot.readable (x : Slot) : Bool :=
  match x with
  | .full _ | .claimed _ => true
  | _ => false

/-- Whether bytes of a place may be read by a held command. -/
def State.slotReadable (s : State) (p : CoreId) (l : Loc) (n : Nat) : Bool :=
  (s.stageQs p).all fun q => (List.range q.slots.length).all fun i => !q.meets i l n || (q.slots.getD i .free).readable

def State.slotWritable (s : State) (p : CoreId) (l : Loc) (n : Nat) : Bool :=
  (s.stageQs p).all fun q => (List.range q.slots.length).all fun i => !q.meets i l n || !(q.slots.getD i .free).readable

/-- A copy-engine command starts only where the slot bytes at its own addresses are readable or writable, as it reads or
writes them (R210, R222). -/
def State.slotsHold (s : State) (p : CoreId) (e : Ep) (reqs : List AddrReq) (ls : List Loc) : Bool :=
  (e == .l || e == .s) && (reqs.zip ls).any fun x =>
    match x.1.acc with
    | .read | .fetch | .locate => !s.slotReadable p x.2 x.1.n
    | .write | .rmw => !s.slotWritable p x.2 x.1.n

/-! ### Starting (R203, R208, R210) -/

/-- The stamp's S1: the first M or V command of a tile (R362). -/
def State.stampStart (s : State) (p : CoreId) (e : Ep) : State :=
  if e = .m ∨ e = .v then
    s.modGate p fun g => { g with stamp := g.stamp.map fun t => if t.s1 = 0 then { t with s1 := s.cycle } else t }
  else s

/-- Commands an endpoint runs one after another: the VE one command at a time but for a VSTOP beside a VRUN (R242,
R245), the ME one at a time but for an MBLD once an MGO's last block loads (R269, R284). -/
def State.gateOpen (s : State) (p : CoreId) (e : Ep) (opc : Nat) : Bool :=
  let fs := (s.core p).flights.filter fun f => f.ep == e && !f.finished
  match e with
  | .l | .s => true
  | .v => fs.isEmpty || (opc == 0x19 && decide (fs.map (fun f => opcOf f.words) = [0x18]))
  | .m => fs.isEmpty || (opc == 0x13 && match (s.me p).run with
      | some r => r.lastB && fs.all fun f => f.ord == r.ord
      | none => false)

/-- Copy-class and Furrow commands of a core that have started and not finished (R210). -/
def Core.copies (c : Core) : Nat := (c.flights.filter fun f => isCopyClass f.words && !f.finished).length

/-- What a command asks for and does, in the order it is asked: `chk` its own field check, made when it reaches the
head (R139); `can` what its start waits for besides its tokens; `reqs` the addresses it translates whole, before its
counter (R391); `late` the check of what they hold; `ready` what it then waits for; `go` its effect, given its places
and the flight it occupies, which `go` finishes or leaves under way. -/
structure Plan where
  chk : Option Byte := none
  ctr : Word := 0
  inc : W32 := 0
  can : State → Bool := fun _ => true
  reqs : List AddrReq := []
  late : State → List Loc → Option Byte := fun _ _ => none
  /-- ADDR of that check's fault. -/
  addr : Word := 0
  ready : State → List Loc → Bool := fun _ _ => true
  go : List Loc → Flight → State → State

/-- Every address the command translates at its start, its counter last. -/
def Plan.all (x : Plan) : List AddrReq := x.reqs ++ if x.ctr = 0 then [] else [ctrReq x.ctr]

/-- The flight of a command that starts. -/
def State.newFlight (s : State) (p : CoreId) (e : Ep) (q : QCmd) (h : Hdr) (x : Plan) (ls : List Loc) : Flight :=
  { ord := (s.core p).nextOrd, ep := e, words := q.words, pc := q.pc, blk := if q.chain then some q.blk else none,
    elem := 0, ticket := none,
    ctr := if x.ctr = 0 then none else ls.getLast?.map fun l => (l, x.inc.setWidth 64),
    sig := if h.sige then some (Ep.ofCode h.sigt) else none, finished := false, start := s.cycle,
    desc := [], saved := [], subs := [], locs := ls.take x.reqs.length, live := s.live p }

/-- Whether nothing but its addresses holds back the command at a head (R203, R208, R210). -/
def State.mayStart (s : State) (p : CoreId) (e : Ep) (q : QCmd) (h : Hdr) (x : Plan) : Bool :=
  s.gateOpen p e (opcOf q.words) && (s.core p).hasTokens e h.wait
    && (!isCopyClass q.words || decide ((s.core p).copies < 512)) && x.can s

/-- The command at the head of the current endpoint's queue. Its addresses are translated before `ready` is looked at: a
QACQ or QRES whose slot is not there yet parks or faults on its addresses already (DESIGN CHOICE, log 55). -/
def command (h : Hdr) (x : Plan) (s : State) : State :=
  let p := s.sched.core
  let e := s.sched.ep
  match s.head? p e with
  | none => s
  | some q =>
    match x.chk with
    | some code => s.headFault p e code 0 0
    | none =>
      if !s.mayStart p e q h x then s
      else match s.addrs p x.all with
        | .park acc cause va => (s.headPark p e (pageCode acc) cause va).noteFail p va
        | .fault va => (s.headFault p e cAccess 0 va).noteFail p va
        | .held => s
        | .ok ls =>
          match x.late s ls with
          | some code => s.headFault p e code 0 x.addr
          | none =>
            if x.ready s ls && !s.slotsHold p e x.reqs ls then
              let f := s.newFlight p e q h x ls
              let s1 := (s.dropHead p e).modCore p fun c =>
                { c.popTokens e h.wait with flights := c.flights ++ [f], nextOrd := c.nextOrd + 1, lastCe := e }
              (x.go ls f (s1.stampStart p e)).noteAll p (x.all.map (·.va))
            else s

/-- A Furrow command at its controller (R307). -/
def Flight.atController (f : Flight) : Bool :=
  decide (0x20 ≤ opcOf f.words ∧ opcOf f.words ≤ 0x26) && !f.waiting && f.ticket.isNone

/-- A command that all later ones of its queue and class wait behind: parked, or holding in place (R212, R313). -/
def Flight.stuck (f : Flight) : Bool := !f.finished && (f.ticket.isSome || f.held)

/-- Whether command `f` waits for an earlier one `g` of its queue and class: for a stuck one in any case, for another
that has not finished where both access a byte (R115, R211, R212). -/
def State.yields (s : State) (p : CoreId) (f g : Flight) : Bool :=
  g.stuck || (!g.finished && (s.spans p g).any fun x => (s.spans p f).any fun y => s.spansMeet p x y)

/-- A started command that must wait behind an earlier one of its queue and class. -/
def State.behind (s : State) (p : CoreId) (f : Flight) : Bool :=
  (s.core p).flights.any fun g =>
    decide (g.ord < f.ord) && g.ep == f.ep && clsOf g.words == clsOf f.words && s.yields p f g

/-- A command starts in any case, so that commands of other classes proceed, and goes on once it may (R211, R212). -/
def goOrWait (p : CoreId) (f : Flight) (go : State → State) (s : State) : State :=
  if s.behind p f then s.modFlight p f.ord fun x => { x with waiting := true } else go s

/-- Every earlier command of the queue in the class has finished (R210). -/
def classDone (cls : BitVec 4) (s : State) : Bool := ((s.core s.sched.core).unfinished s.sched.ep cls).isEmpty

def orFault (bad : Bool) (code : Byte) : Option Byte := if bad then some code else none

end Sys2Proof.Machine
end

