-- ==== Sys2Proof/Machine/StageQ.lean ====
section
/-! DEFINITION. Stage queues, the Clamp engine and the queue commands (R221–R225). -/

namespace Sys2Proof.Machine

/-! ### Naming a queue -/

/-- The descriptor's address: bits 5:0 are ignored (R221). -/
def descOf (a : Word) : Word := a &&& ~~~63#64

/-- Whether core `p` of gang `g` names a queue by a descriptor's address: one in the scratchpad window names a descriptor of
its own core alone (R34, R221). -/
def StageQ.named (q : StageQ) (p : CoreId) (g : Option Nat) (desc : Word) : Bool :=
  q.desc == desc && (decide (desc.toNat < spadBase) || (q.core == p && q.owner == g))

def State.findQ (s : State) (p : CoreId) (desc : Word) : Option StageQ :=
  (s.stageQs p).find? fun q => q.named p ((s.core p).place.map (·.gang)) desc

/-- The queue's live state changed at its home. -/
def State.modQ (s : State) (p : CoreId) (desc : Word) (f : StageQ → StageQ) : State :=
  let hit := fun q : StageQ => q.named p ((s.core p).place.map (·.gang)) desc
  if (s.core p).sqt.any hit then s.modCore p fun c => { c with sqt := modFirst hit f c.sqt }
  else s.mapBents fun b => { b with sqt := modFirst hit f b.sqt }

def StageQ.isSpad (q : StageQ) : Bool :=
  match q.base with
  | .spad _ => true
  | .phys _ => false

/-! ### Slots (R222, R223) -/

def StageQ.freeSlot (q : StageQ) : Option Nat := q.slots.findIdx? (· == .free)

def StageQ.slotNo (q : StageQ) (x : Slot) : Option Nat := q.slots.findIdx? (· == x)

/-- The address of slot `i` as TSLOT and results give it. -/
def StageQ.addr (q : StageQ) (i : Nat) : Word := q.slotVa + BitVec.ofNat 64 (i * q.size)

/-- The slot whose bytes contain the byte at an address (R224). -/
def StageQ.slotOfVa (q : StageQ) (a : Word) : Option Nat :=
  let o := (a - q.slotVa).toNat
  if o < q.slots.length * q.size then some (o / q.size) else none

def StageQ.setSlot (q : StageQ) (i : Nat) (x : Slot) : StageQ := { q with slots := lmod i (fun _ => x) q.slots }

/-- Slots held in Clamp. -/
def StageQ.held (q : StageQ) : Nat := (q.spill - q.fill).toNat

/-- The slot a spill takes: full, unclaimed, of the highest position, above every ring position (R223). -/
def StageQ.spillSlot (q : StageQ) : Option (Nat × Nat) :=
  let full := q.slots.zipIdx.filterMap fun x =>
    match x.1 with
    | .full n => some (x.2, n)
    | _ => none
  let best := full.foldl (fun b x => match b with
    | none => some x
    | some y => if y.2 < x.2 then some x else some y) (none : Option (Nat × Nat))
  match best with
  | some x => if q.ring.all (· < x.2) then some x else none
  | none => none

/-- The bytes at some pieces, in order. -/
def State.piecesBytes (s : State) (p : CoreId) (ps : List (Loc × Nat)) : List Byte :=
  ps.flatMap fun x => bytesOfNat (s.readLoc p x.1 x.2) x.2

/-- Bytes written over some pieces, in order. -/
def State.putPieces (s : State) (p : CoreId) : List (Loc × Nat) → List Byte → State
  | [], _ => s
  | x :: t, bs => State.putPieces (s.writeLoc p x.1 (bs.take x.2)) p t (bs.drop x.2)

/-- Whether the Clamp engine may read some pieces: no frame whose form is changing holds a line of them (R297). -/
def State.clampReads (s : State) (ps : List (Loc × Nat)) : Bool :=
  ps.all fun x => (List.range ((x.2 + 127) / 128)).all fun k => !s.formHeld (x.1.add (128 * k))

/-- Whether it may write them: nor does a format-region view (R114; log 45). -/
def State.clampMay (s : State) (ps : List (Loc × Nat)) : Bool :=
  s.clampReads ps && ps.all fun x => (List.range ((x.2 + 127) / 128)).all fun k => !s.inView (x.1.add (128 * k))

/-- The bytes of slot `i`, and of the ring's place for its `n`-th slot. -/
def StageQ.slotPieces (q : StageQ) (i : Nat) : List (Loc × Nat) := q.pieces (i * q.size) q.size
def StageQ.placePieces (q : StageQ) (n : Word) : List (Loc × Nat) := q.ringPieces (n.toNat % q.quota * q.size) q.size

/-- One refill, where there is one to make: the bytes of the ring's oldest position copied into a free slot, and the
queue's own change. -/
def State.refill (s : State) (p : CoreId) (q : StageQ) : Option (State × (StageQ → StageQ)) :=
  match q.freeSlot, q.ring with
  | some i, pos :: rest =>
    if s.clampReads (q.placePieces q.fill) then
      some (s.putPieces p (q.slotPieces i) (s.piecesBytes p (q.placePieces q.fill)), fun x =>
        { x.setSlot i (.full pos) with ring := rest, fill := x.fill + 1 })
    else none
  | _, _ => none

/-- The same of a queue that a command of core `p` names. -/
def State.refillQ (s : State) (p : CoreId) (q : StageQ) : State :=
  match s.refill p q with
  | some (t, f) => t.modQ p q.desc f
  | none => s

/-- Refills take precedence over every reservation: all that can be made. -/
def State.refills (s : State) (p : CoreId) (desc : Word) : Nat → State
  | 0 => s
  | n + 1 =>
    match s.findQ p desc with
    | some q => if q.freeSlot.isSome ∧ q.ring ≠ [] then State.refills (s.refillQ p q) p desc n else s
    | none => s

/-- Whether a reservation may spill: the quota has room, a slot qualifies, and its place in the ring can be written. -/
def State.spillMay (s : State) (q : StageQ) : Bool :=
  decide (q.held < q.quota) && q.spillSlot.isSome && s.clampMay (q.placePieces q.spill)

/-- One slot spilled to the ring and freed. -/
def State.spillQ (s : State) (p : CoreId) (q : StageQ) : State :=
  match q.spillSlot with
  | some (i, pos) =>
    (s.putPieces p (q.placePieces q.spill) (s.piecesBytes p (q.slotPieces i))).modQ p q.desc fun x =>
      { x.setSlot i .free with ring := x.ring ++ [pos], spill := x.spill + 1 }
  | none => s

/-- The next producer position reserved: its slot's number, refills and a spill made first. A free slot that the ring's
oldest position is still to come back into is not taken: a refill has precedence (R223). -/
def State.reserveQ (s : State) (p : CoreId) (desc : Word) : State × Option Nat :=
  let take := fun (t : State) (q : StageQ) =>
    match q.freeSlot with
    | some i => (t.modQ p desc fun x => { x.setSlot i (.reserved x.nextRes) with nextRes := x.nextRes + 1 }, some i)
    | none => (t, none)
  let s1 := s.refills p desc 256
  match s1.findQ p desc with
  | none => (s, none)
  | some q =>
    if q.freeSlot.isSome then (if q.ring.isEmpty then take s1 q else (s1, none))
    else if s1.spillMay q then
      let s2 := s1.spillQ p q
      match s2.findQ p desc with
      | some q2 => take s2 q2
      | none => (s, none)
    else (s1, none)

/-- The slot of the lowest unclaimed position, where it is on-chip and full. -/
def StageQ.claimSlot (q : StageQ) : Option Nat := q.slotNo (.full q.nextClaim)

def State.claimQ (s : State) (p : CoreId) (desc : Word) : State × Option Nat :=
  match (s.findQ p desc).bind fun q => q.claimSlot.map fun i => (q, i) with
  | some (q, i) =>
    (s.modQ p desc fun x => { x.setSlot i (.claimed q.nextClaim) with nextClaim := x.nextClaim + 1 }, some i)
  | none => (s, none)

/-- The watchdog timer of the core's queue restarts (R59). -/
def State.wdRestart (s : State) (p : CoreId) : State :=
  match s.lqOf p with
  | some q => s.modLq q fun x => { x with wdStart := s.nanos, wdDone := 0 }
  | none => s

/-- A reserved slot becomes full. -/
def State.commitQ (s : State) (p : CoreId) (desc : Word) (i : Nat) : State :=
  (s.modQ p desc fun q =>
    match q.slots.getD i .free with
    | .reserved n => { q.setSlot i (.full n) with pcom := q.pcom + 1 }
    | _ => q).wdRestart p

/-- A claimed slot becomes free, and the Clamp engine refills first. -/
def State.releaseQ (s : State) (p : CoreId) (desc : Word) (i : Nat) : State :=
  let s1 := s.modQ p desc fun q =>
    match q.slots.getD i .free with
    | .claimed _ => { q.setSlot i .free with crel := q.crel + 1 }
    | _ => q
  (s1.refills p desc 1).wdRestart p

/-! ### Initialisation (R221, R225) -/

/-- A piece put before some runs of bytes, as one run with the first where it continues into it. -/
def addRun (l : Loc) (n : Nat) : List (Loc × Nat) → List (Loc × Nat)
  | (l', k) :: t => if l.add n = l' then (l, n + k) :: t else (l, n) :: (l', k) :: t
  | [] => [(l, n)]

/-- The runs of `n` bytes from a virtual address on, page by page of 4 KiB (R100), in at most `f` pages; `none` where a
page does not translate. -/
def runsFrom (tr : Word → Option Loc) : Nat → Nat → Nat → Option (List (Loc × Nat))
  | 0, _, n => if n = 0 then some [] else none
  | f + 1, va, n =>
    if n = 0 then some []
    else
      let k := min n (4096 - va % 4096)
      match tr (BitVec.ofNat 64 va), runsFrom tr f (va + k) (n - k) with
      | some l, some r => some (addRun l k r)
      | _, _ => none

/-- Whether every run lies in understore, none beyond its end. -/
def State.underRuns (s : State) (rs : List (Loc × Nat)) : Bool :=
  rs.all fun x => match s.locSpace x.1 with
    | some (.under _ o) => decide (o + x.2 ≤ 0x1C000000)
    | _ => false

def State.devRuns (s : State) (rs : List (Loc × Nat)) : Bool :=
  rs.all fun x => s.isDev x.1 && s.isDev (x.1.add (x.2 - 1))

/-- The fields of a descriptor: QSLOT, QSIZE, QCOUNT, QCBASE, QQUOTA, and whether its reserved fields are zero. -/
structure QDesc where
  slotVa : Word
  size : Nat
  count : Nat
  cbaseVa : Word
  quota : Nat
  zero : Bool

def State.qdesc (s : State) (p : CoreId) (l : Loc) : QDesc :=
  let rd := fun o n => s.readLoc p (l.add o) n
  { slotVa := BitVec.ofNat 64 (rd 0 8) &&& ~~~127#64, size := rd 8 4, count := rd 12 2,
    cbaseVa := BitVec.ofNat 64 (rd 16 8) &&& ~~~127#64, quota := rd 24 4, zero := rd 14 2 == 0 && rd 28 4 == 0 }

def QDesc.ranges (d : QDesc) : Bool :=
  d.zero && decide (d.size % 128 = 0 ∧ 128 ≤ d.size ∧ d.size ≤ 1048576 ∧ 1 ≤ d.count ∧ d.count ≤ 256)

/-- The runs of the slots, and of the Clamp ring: where they lie, if their spaces are the ones R225 asks for. A ring in
the scratchpad is contiguous and has no Clamp. A page of them that does not translate makes QINIT fault: R391 lists DESC
alone among the addresses that park (DESIGN CHOICE, log 55). -/
def State.qPlaces (s : State) (p : CoreId) (d : QDesc) (sup : Bool) : Option (List (Loc × Nat) × List (Loc × Nat)) :=
  let tr := fun va : Word => (s.translate p va .read (!sup)).toOption
  let n := d.count * d.size
  if spadBase ≤ d.slotVa.toNat ∧ d.slotVa.toNat < 2 ^ 52 then
    let o := d.slotVa.toNat - spadBase
    if o + n ≤ spadSize ∧ d.quota = 0 then some ([(.spad o, n)], []) else none
  else match runsFrom tr (n / 4096 + 2) d.slotVa.toNat n with
    | none => none
    | some rs =>
      if !s.underRuns rs then none
      else if d.quota = 0 then some (rs, [])
      else match runsFrom tr (d.quota * d.size / 4096 + 2) d.cbaseVa.toNat (d.quota * d.size) with
        | some cs => if s.devRuns cs then some (rs, cs) else none
        | none => none

/-- A queue table with room for a descriptor's queue. -/
def tableRoom (n : Nat) (p : CoreId) (g : Option Nat) (desc : Word) (t : List StageQ) : Bool :=
  decide (t.length < n) || t.any fun x => x.named p g desc

/-- Whether the queue a descriptor names now has a reserved or claimed slot. -/
def State.qLive (s : State) (p : CoreId) (desc : Word) : Bool :=
  match s.findQ p desc with
  | some x => x.slots.any fun y => match y with
    | .reserved _ | .claimed _ => true
    | _ => false
  | none => false

/-- A descriptor read and checked as QINIT does, for core `p`; `none` where QINIT faults (R225). -/
def State.descQ (s : State) (p : CoreId) (desc : Word) (l : Loc) (sup : Bool) : Option StageQ :=
  let d := s.qdesc p l
  if !d.ranges || s.qLive p desc then none
  else match s.qPlaces p d sup with
    | none => none
    | some (rs, cs) =>
      let base := (rs.headD (.spad 0, 0)).1
      let g := (s.core p).place.map (·.gang)
      let table : Bool := match s.locSpace base with
        | none => tableRoom 16 p g desc (s.core p).sqt
        | some (.under b _) => tableRoom 64 p g desc (s.bent (bentOfNat b)).sqt
        | _ => false
      if table then
        some { desc := desc, base := base, slotVa := d.slotVa, size := d.size, ringVa := d.cbaseVa,
               cbase := (cs.headD (.spad 0, 0)).1,
               quota := d.quota, spill := 0, fill := 0, pcom := 0, crel := 0, slots := List.replicate d.count .free,
               ring := [], nextRes := 0, nextClaim := 0, owner := g, runs := rs, cruns := cs,
               core := p }
      else none

/-- The queue set at its home with every slot free and every counter 0. -/
def State.putQ (s : State) (p : CoreId) (q : StageQ) : State :=
  let rest := fun l : List StageQ => l.filter fun x => !x.named p ((s.core p).place.map (·.gang)) q.desc
  let put := fun l : List StageQ => q :: rest l
  let s1 := (s.modCore p fun c => { c with sqt := rest c.sqt }).mapBents fun b => { b with sqt := rest b.sqt }
  match q.base with
  | .spad _ => s1.modCore p fun c => { c with sqt := put c.sqt }
  | .phys a => match s.space a with
    | .under b _ => s1.modBent (bentOfNat b) fun x => { x with sqt := put x.sqt }
    | _ => s1

/-- The four counters written back to the descriptor (R221). -/
def State.writeBack (s : State) (p : CoreId) (q : StageQ) (l : Loc) : State :=
  s.writeHome p (l.add 32) ((bytesOfNat q.spill.toNat 8) ++ bytesOfNat q.fill.toNat 8 ++ bytesOfNat q.pcom.toNat 8
    ++ bytesOfNat q.crel.toNat 8)

/-! ### The queue commands, shared by the CE and XCMD -/

inductive QOp where
  | init | acq | rel (slot : Word) | res (nw : Bool) | com (slot : Word) | stat
deriving DecidableEq, Repr, Inhabited

def isClaimed (x : Slot) : Bool :=
  match x with
  | .claimed _ => true
  | _ => false

def isReserved (x : Slot) : Bool :=
  match x with
  | .reserved _ => true
  | _ => false

/-- Check 6 of a queue command, made at the queue head (R139, R225): the queue is initialised, the slot claimed or
reserved. QINIT's descriptor and QRES.NW's quota are looked at when the command starts (DEDUCED, log 46). -/
def State.qCheck (s : State) (p : CoreId) (op : QOp) (desc : Word) : Option Byte :=
  let inSlot := fun (q : StageQ) (a : Word) (f : Slot → Bool) =>
    match q.slotOfVa a with
    | some i => f (q.slots.getD i .free)
    | none => false
  match op with
  | .init => none
  | _ =>
    match s.findQ p desc with
    | none => some cIllegalCmd
    | some q =>
      match op with
      | .rel a => orFault (!inSlot q a isClaimed) cIllegalCmd
      | .com a => orFault (!inSlot q a isReserved) cIllegalCmd
      | _ => none

/-- QINIT's check of its descriptor, once that is translated (R225). -/
def State.qInitBad (s : State) (p : CoreId) (op : QOp) (desc : Word) (ls : List Loc) : Option Byte :=
  match op, ls with
  | .init, l :: _ => orFault (s.descQ p desc l false).isNone cIllegalCmd
  | _, _ => none

/-- A QRES.NW that finds the quota spent and no free slot (R225). -/
def State.qSpent (s : State) (p : CoreId) (op : QOp) (desc : Word) : Bool :=
  match op, s.findQ p desc with
  | .res true, some q => q.freeSlot.isNone && decide (q.held = q.quota)
  | _, _ => false

/-- Whether it can complete without waiting. -/
def State.qReady (s : State) (p : CoreId) (op : QOp) (desc : Word) : Bool :=
  match op, s.findQ p desc with
  | .acq, some q => q.claimSlot.isSome
  | .res _, some _ => (s.reserveQ p desc).2.isSome
  | _, _ => true

/-- QSTAT's result (R224). -/
def StageQ.stat (q : StageQ) : Word :=
  let full := (q.slots.filter fun x => match x with
    | .full _ => true
    | _ => false).length
  at_ full 0 ||| at_ (q.slots.filter (· == .free)).length 16 ||| at_ q.held 32

/-- The effect, and the result word where the command has one. -/
def State.qDo (s : State) (p : CoreId) (op : QOp) (desc : Word) (l : Loc) : State × Option Word :=
  let addr := fun (i : Option Nat) => (s.findQ p desc).bind fun q => i.map q.addr
  match op with
  | .init => (match s.descQ p desc l false with
    | some q => s.putQ p q
    | none => s, none)
  | .acq => let (t, i) := s.claimQ p desc; (t, addr i)
  | .res _ => let (t, i) := s.reserveQ p desc; (t, addr i)
  | .rel a => (match (s.findQ p desc).bind fun q => q.slotOfVa a with
    | some i => s.releaseQ p desc i
    | none => s, none)
  | .com a => (match (s.findQ p desc).bind fun q => q.slotOfVa a with
    | some i => s.commitQ p desc i
    | none => s, none)
  | .stat =>
    match s.findQ p desc with
    | some q => (s.writeBack p q l, some q.stat)
    | none => (s, none)

/-- The addresses a queue command translates at its start: DESC, and RESA where it is not 0 (R391). -/
def queueReqs (op : QOp) (desc resa : Word) : List AddrReq :=
  { va := desc, acc := if op = .stat then .write else .read, n := 64, ok := fun _ _ => true }
    :: if resa = 0 then [] else [{ va := resa, acc := .write, n := 8, ok := fun _ _ => true }]

/-- QCOM and QREL start once every earlier command of their queue in the class has finished (R210, R225). -/
def QOp.releases (op : QOp) : Bool :=
  match op with
  | .rel _ | .com _ => true
  | _ => false

/-- QACQ and QRES of an understore queue act as an acquire at dev scope (R225, log 17). -/
def State.qAcquires (s : State) (p : CoreId) (op : QOp) (desc : Word) : Bool :=
  match op, s.findQ p desc with
  | .acq, some q | .res _, some q => !q.isSpad
  | _, _ => false

/-- A result stored at RESA. -/
def State.storeResult (s : State) (p : CoreId) (r : Option Word) (ls : List Loc) : State :=
  match r, ls with
  | some v, _ :: l :: _ => (s.writeHome p l (bytesOfNat v.toNat 8)).grant p 1 l 8
  | _, _ => s

/-- A started queue command acts: with every check made again, for it may have waited behind another of its queue and
class (R212); where what it waits for has gone meanwhile, it waits on. -/
def State.queueGo (s : State) (p : CoreId) (op : QOp) (d : Word) (f : Flight) (ls : List Loc) : State :=
  match ((s.qCheck p op d).or (s.qInitBad p op d ls)).or (orFault (s.qSpent p op d) cClampQuota), ls with
  | some code, _ => s.flightFault p f code 0 0 0 []
  | none, l :: _ =>
    if s.qReady p op d then
      let (u, r) := s.qDo p op d l
      let v := (u.storeResult p r ls).finish p f.ord
      if s.qAcquires p op d then v.clearL1 p else v
    else s.modFlight p f.ord fun x => { x with waiting := true }
  | none, [] => s.finish p f.ord

/-- A queue command at a CE queue. -/
def queuePlanCe (s : State) (op : QOp) (h : Hdr) (desc resa : Word) : Plan :=
  let p := s.sched.core
  let d := descOf desc
  { chk := s.qCheck p op d, reqs := queueReqs op desc resa,
    can := fun t => !op.releases || classDone h.cls t,
    late := fun t ls => (t.qInitBad p op d ls).or (orFault (t.qSpent p op d) cClampQuota),
    ready := fun t _ => t.qReady p op d,
    go := fun ls f => goOrWait p f fun t => t.queueGo p op d f ls }

/-- A queue command at the head of a CE queue. -/
def queueCmd (op : QOp) (h : Hdr) (desc resa : Word) (s : State) : State :=
  command h (queuePlanCe s op h desc resa) s

def execQinit (h : Hdr) (desc : Word) (s : State) : Out := .next (queueCmd .init h desc 0 s)
def execQacq (h : Hdr) (desc resa : Word) (s : State) : Out := .next (queueCmd .acq h desc resa s)
def execQrel (h : Hdr) (desc slot : Word) (s : State) : Out := .next (queueCmd (.rel slot) h desc 0 s)
def execQres (h : Hdr) (desc resa : Word) (nw : Bool) (s : State) : Out := .next (queueCmd (.res nw) h desc resa s)
def execQcom (h : Hdr) (desc slot : Word) (s : State) : Out := .next (queueCmd (.com slot) h desc 0 s)
def execQstat (h : Hdr) (desc resa : Word) (s : State) : Out := .next (queueCmd .stat h desc resa s)

/-- CLAMP_REFILL: the Clamp engine of bent `b` refills its table's queue `n` whenever a slot is free and the ring
holds a position (R223). -/
def execClampRefill (b : BentId) (n : Nat) (s : State) : Out :=
  .next (match (s.bent b).sqt[n]? with
    | some q => match s.refill q.core q with
      | some (t, f) => t.modBent b fun x => { x with sqt := lmod n f x.sqt }
      | none => s
    | none => s)

end Sys2Proof.Machine
end

