-- ==== Sys2Proof/Machine/Chain.lean ====
section
/-! DEFINITION. Chains of command blocks, sequence numbers, tokens and counters, synchronization and flow commands
(R121, R205–R209, R226–R228). -/

namespace Sys2Proof.Machine

/-! ### Chain fetch (R205) -/

/-- A pre-emption or a reset has stopped the core. -/
def State.halted (s : State) (p : CoreId) : Bool := (s.core p).saving || (s.core p).testing

/-- Entries of a command queue (R19, R203, R242, R269). -/
def depth (e : Ep) : Nat :=
  match e with
  | .l | .s => 64
  | .m | .v => 16

def State.modChain (s : State) (p : CoreId) (e : Ep) (f : Chain → Chain) : State :=
  s.modEng p e fun g => { g with chain := f g.chain }

/-- `n` words from a virtual address, read at their homes as user data; where it fails, the address and how. -/
def State.fetchWords (s : State) (p : CoreId) (va : Word) : Nat → Except (Word × XErr) (List W32)
  | 0 => .ok []
  | n + 1 =>
    match s.engAt p va 4 .read with
    | .error e => .error (va, e)
    | .ok l =>
      if s.isDevUnder l then
        match State.fetchWords s p (va + 4) n with
        | .ok ws => .ok (BitVec.ofNat 32 (s.readLoc p l 4) :: ws)
        | x => x
      else .error (va, .access)

/-- The lines of `n` words from a virtual address on are read (R114, R319). -/
def State.usedWords (s : State) (p : CoreId) (va : Word) : Nat → State
  | 0 => s
  | n + 1 =>
    State.usedWords (match s.engAt p va 4 .read with
      | .ok l => s.used p l 4
      | .error _ => s) p (va + 4) n

/-- Fetching stops until the next ECHAIN, with a fault record. -/
def State.chainFault (s : State) (p : CoreId) (e : Ep) (code : Byte) (va : Word) : State :=
  (s.engRecord p e [] va code 0 va 0).modChain p e fun c => { c with stopped := true, start := none }

/-- Fetching parks at a word until its ticket is replayed (R205, R315). -/
def State.chainPark (s : State) (p : CoreId) (e : Ep) (cause : Byte) (va : Word) : State :=
  let t := s.freshTicket
  (s.reportPage (bentOf p) { core := some p, src := epSrc e, pc := va, addr := va } cPageLoad cause t).modChain p e
    fun c => { c with ticket := some t }

/-- What the fetch does with a command: 0x39 CLINK, 0x3A CLOOP and 0x3B CEND act on the chain where they pass
their checks (R139). -/
def flowOf (e : Ep) (ws : List W32) : Option Instr :=
  match headerCheck (headerOf ws) { ep := e, x := false } with
  | some _ => none
  | none =>
    match decodeCmd ws with
    | some (.clink h n) => some (.clink h n)
    | some (.cloop h r) => some (.cloop h r)
    | some (.cend h) => some (.cend h)
    | _ => none

/-- The first 64-byte boundary after a word. -/
def nextBlock (va : Word) : Word := (va + 4 + 63) &&& ~~~63#64

/-- The command at the fetch position enters the queue, and the position moves on. -/
def State.takeCmd (s : State) (p : CoreId) (e : Ep) (ws : List W32) : State :=
  let c := (s.eng p e).chain
  let va := c.fetch
  let after := va + BitVec.ofNat 64 (4 * ws.length)
  let enter := fun (dup : Bool) (t : State) => t.modEng p e fun g =>
    { g with q := g.q ++ [{ words := ws, pc := va, chain := true, blk := c.blkNo, dup := dup, ticket := none }] }
  let close := fun (next : Word) (t : State) => t.modChain p e fun c =>
    { c with fetch := next, head := next, start := none, loop := none, looped := false,
             blks := c.blks.map fun b => if b.no = c.blkNo then { b with whole := true } else b }
  match flowOf e ws with
  | some (.cend _) => close (nextBlock va) (enter false s)
  | some (.clink _ n) => close (n &&& ~~~63#64) (enter false s)
  | some (.cloop _ rep) =>
    if c.looped then (enter true s).modChain p e fun c => { c with fetch := after }
    else
      let left := c.loop.getD rep.toNat
      if left = 0 then (enter false s).modChain p e fun c => { c with fetch := after, looped := true, loop := none }
      else s.modChain p e fun c => { c with fetch := c.start.getD c.fetch, loop := some (left - 1) }
  | _ => (enter false s).modChain p e fun c => { c with fetch := after }

/-- The words of the command at `va` of a block that starts at `start`; `none` where it reaches word 1,024: no word of a
block beyond its first 1,024 is fetched (R205; a command that straddles the end is not taken: DEDUCED, log 43). -/
def State.fetchCmd (s : State) (p : CoreId) (start va : Word) : Option (Except (Word × XErr) (List W32)) :=
  let o := (va - start).toNat
  if 4096 ≤ o then none
  else match s.fetchWords p va 1 with
    | .ok (h :: _) => if 4096 < o + 4 * (1 + H.xwc h) then none else some (s.fetchWords p va (1 + H.xwc h))
    | .ok [] => some (.ok [])
    | .error x => some (.error x)

/-- CHAIN_BLOCK_FETCH: an endpoint opens its chain's next block where none is open, and takes one command of it. -/
def execChainBlockFetch (p : CoreId) (e : Ep) (s : State) : Out :=
  .next (
    let g := s.eng p e
    let c := g.chain
    if s.stalled p || s.halted p || s.changing || c.stopped || c.ticket.isSome || decide (depth e ≤ g.q.length)
        || !s.faultRoom (bentOf p) || (c.start.isNone && c.fetch == c.tail) then s
    else
      let s1 := if c.start.isSome then s else s.modChain p e fun c =>
        { c with start := some c.fetch, head := c.fetch, blkNo := c.blkNo + 1, loop := none, looped := false,
                 blks := c.blks ++ [{ no := c.blkNo + 1, whole := false }] }
      let start := c.start.getD c.fetch
      match s1.fetchCmd p start c.fetch with
      | none => s1.chainFault p e cIllegalCmd (start + 4096)
      | some (.ok ws) =>
        (((s1.note p c.fetch).note p (c.fetch + BitVec.ofNat 64 (4 * ws.length - 4))).usedWords p c.fetch
          ws.length).takeCmd p e ws
      | some (.error (va, .page cause)) => (s1.noteFail p va).chainPark p e cause va
      | some (.error (va, _)) => (s1.noteFail p va).chainFault p e cAccess va)

/-- SEQUENCE_ADVANCE: the oldest block whose every command has finished is counted if it was fetched whole, and
only dropped if its fetch stopped before its end (R206). -/
def execSequenceAdvance (p : CoreId) (e : Ep) (s : State) : Out :=
  .next (
    let g := s.eng p e
    match g.chain.blks with
    | [] => s
    | b :: rest =>
      let busy := (g.q.any fun q => q.chain && q.blk == b.no)
        || (s.core p).flights.any fun f => f.ep == e && f.blk == some b.no && !f.finished
      let stillOpen := !b.whole && !g.chain.stopped && g.chain.blkNo == b.no
      if busy || stillOpen || s.stalled p then s
      else s.modChain p e fun c => { c with blks := rest, seq := if b.whole then c.seq + 1 else c.seq })

/-! ### Token pushes and counter adds (R121, R209) -/

def before (fs : List Flight) (n : Nat) : List Flight := fs.take n

/-- TOKEN_PUSH: a finished command pushes its token, in queue order for each target, where the target has room. -/
def execTokenPush (p : CoreId) (n : Nat) (s : State) : Out :=
  .next (
    let c := s.core p
    match c.flights[n]? with
    | none => s
    | some f =>
      match f.sig with
      | none => s
      | some t =>
        let waits := (before c.flights n).any fun g => g.ep == f.ep && g.sig == some t
        if f.finished && !waits && decide (vget c.tok (tokIdx f.ep t) < 16) && !s.stalled p then
          s.setCore p (((c.pushToken f.ep t).modFlight f.ord fun x => { x with sig := none }).sweep)
        else s)

/-- 1 added or INC added at a counter's home as an unsigned 64-bit wrapping add. -/
def State.addAt (s : State) (p : CoreId) (l : Loc) (inc : Word) : State :=
  s.writeHome p l (bytesOfNat (BitVec.ofNat 64 (s.readLoc p l 8) + inc).toNat 8)

/-- COUNTER_ADD: a finished command's increment is added once every earlier command of its queue naming the same
counter has added its own. -/
def execCounterAdd (p : CoreId) (n : Nat) (s : State) : Out :=
  .next (
    let c := s.core p
    match c.flights[n]? with
    | none => s
    | some f =>
      match f.ctr with
      | none => s
      | some (l, inc) =>
        let waits := (before c.flights n).any fun g => g.ep == f.ep && (g.ctr.map (·.1)) == some l
        if f.finished && !waits && !s.stalled p && !s.formHeld l then
          (s.addAt p l inc).modCore p fun c => (c.modFlight f.ord fun x => { x with ctr := none }).sweep
        else s)

/-! ### Synchronization commands (R226) -/

/-- Spaces CSEQ accepts. -/
def State.seqAt (s : State) (l : Loc) : Bool := s.isOnChip l || s.isHost l || s.isPeer l

def seqReq (a : Word) : AddrReq := { va := a, acc := .write, n := 8, ok := fun s l => s.seqAt l }
def waitReq (a : Word) : AddrReq := { va := a, acc := .read, n := 8, ok := fun s l => s.isDevUnder l }

/-- No command of the queue earlier than `f` still has an add to make to the counter. -/
def noAddBefore (s : State) (p : CoreId) (f : Flight) (l : Loc) : Bool :=
  (s.core p).flights.all fun g => !(decide (g.ord < f.ord) && g.ep == f.ep && (g.ctr.map (·.1)) == some l)

/-- A started CSIG makes its add, which the CE holds back until every earlier command of its queue naming the counter has
added its own (R121), and finishes once it is made. -/
def State.csigGo (s : State) (p : CoreId) (inc : W32) (f : Flight) (ls : List Loc) : State :=
  match ls with
  | l :: _ =>
    if noAddBefore s p f l then
      ((s.addAt p l (inc.setWidth 64)).modFlight p f.ord fun x => { x with ctr := none }).finish p f.ord
    else s.modFlight p f.ord fun x => { x with waiting := true, ctr := some (l, inc.setWidth 64) }
  | [] => s.finish p f.ord

def execCsig (h : Hdr) (ctr : Word) (inc : W32) (s : State) : Out :=
  .next (command h
    { reqs := [ctrReq ctr], can := classDone h.cls, go := fun ls f t => t.csigGo t.sched.core inc f ls } s)

def counterMet (s : State) (p : CoreId) (target : Word) (ls : List Loc) : Bool :=
  match ls with
  | l :: _ => decide (target.toNat ≤ s.readLoc p l 8)
  | [] => false

/-- No earlier unfinished command of the queue in the class accesses some bytes (R211). -/
def bytesDone (s : State) (cls : BitVec 4) (x : Span) : Bool :=
  let p := s.sched.core
  ((s.core p).unfinished s.sched.ep cls).all fun g => !(s.spans p g).any fun y => s.spansMeet p x y

/-- CWAIT holds the head until its counter, read after the accesses that earlier commands of its class make to it, has
come to the target; behind a parked command it then waits, started (R211, R212, R226). -/
def execCwait (h : Hdr) (ctr target : Word) (s : State) : Out :=
  .next (command h
    { reqs := [waitReq ctr],
      ready := fun t ls => bytesDone t h.cls (ctr &&& ~~~7#64, 8) && counterMet t t.sched.core target ls,
      go := fun ls f t =>
        let p := t.sched.core
        goOrWait p f (fun u => u.finish p f.ord) (ls.foldl (fun u l => u.used p l 8) t) } s)

def execCseq (h : Hdr) (addr val : Word) (s : State) : Out :=
  .next (command h
    { reqs := [seqReq addr], can := classDone h.cls,
      go := fun ls f t => (match ls with
        | l :: _ => (t.writeHome t.sched.core l (bytesOfNat val.toNat 8)).grant t.sched.core 1 l 8
        | [] => t).finish t.sched.core f.ord } s)

/-! ### Flow commands (R207, R227, R228) -/

/-- A command with no effect of its own: it finishes when it starts, or once the earlier ones of its queue and class let
it (R212). -/
def flowGo (_ : List Loc) (f : Flight) (s : State) : State :=
  goOrWait s.sched.core f (fun t => t.finish s.sched.core f.ord) s

def execCnop (h : Hdr) (s : State) : Out := .next (command h { go := flowGo } s)

/-- A chain command that arrived through EPUSH, or a block's second CLOOP, faults (R207, R227). -/
def chainCheck (s : State) : Option Byte :=
  match s.head? s.sched.core s.sched.ep with
  | some q => orFault (!q.chain || q.dup) cIllegalCmd
  | none => none

/-- Where the block goes next was settled as the command was fetched; here it pops and pushes its tokens. -/
def chainCmd (h : Hdr) (s : State) : State :=
  command h { chk := chainCheck s, go := flowGo } s

def execClink (h : Hdr) (_next : Word) (s : State) : Out := .next (chainCmd h s)
def execCloop (h : Hdr) (_rep : W32) (s : State) : Out := .next (chainCmd h s)
def execCend (h : Hdr) (s : State) : Out := .next (chainCmd h s)

/-- The ring entry LQTAIL mod LQSIZE of a launch queue (R41). -/
def State.ringEntry (s : State) (q : BitVec 6) : Nat :=
  let x := s.lq q
  x.base.toNat / 8 * 8 + 8 * (x.tail.toNat % x.size.toNat)

/-- LAUNCH: REC to the ring entry, then LQTAIL + 1, in one step. -/
def State.postRecord (s : State) (q : BitVec 6) (r : Word) : State :=
  (s.writeSup (s.ringEntry q) (bytesOfNat r.toNat 8)).modLq q fun y => { y with tail := y.tail + 1 }

/-- While the ring is full, LAUNCH waits at the head, with nothing popped; a ring entry that no memory covers, that cannot
be reached or lies in a format-region view faults ACCESS with no effect (R31, R114; which of the two waits and what
faults R228 does not say: DESIGN CHOICE, log 54). -/
def execLaunch (h : Hdr) (q : BitVec 6) (reca : Word) (s : State) : Out :=
  .next (command h
    { chk := orFault (!(s.lq q).on) cIllegalCmd,
      can := fun t => classDone h.cls t && (t.lq q).tail - (t.lq q).head != (t.lq q).size,
      late := fun t _ => orFault (!t.ringAt (t.ringEntry q) || t.inView (.phys (t.ringEntry q))) cAccess,
      addr := BitVec.ofNat 64 (s.ringEntry q),
      go := fun _ f t => (t.postRecord q reca).finish t.sched.core f.ord } s)

end Sys2Proof.Machine
end

