-- ==== Sys2Proof/Machine/Plumb.lean ====
section
/-! DEFINITION. The Plumb unit: symbols, samples, windows and bindings (R61–R64). -/

namespace Sys2Proof.Machine

/-- A symbol as a group start leaves it (R61). -/
def symStart (lo hi : Nat) : Sym :=
  if 1 ≤ lo ∧ lo ≤ hi ∧ hi ≤ 255 then { valid := true, lo := lo, hi := hi, bind := hi } else {}

/-- The binding of a symbol: 0 where it is invalid. -/
def Sym.binding (y : Sym) : Nat := if y.valid then y.bind else 0

/-- A window of a valid symbol closes with largest sample `m` (R63). -/
def Sym.close (y : Sym) : Sym :=
  let m := y.wmax
  let z := { y with wmax := 0, cnt := 0, full := false }
  if y.bind < m then
    let v := min m y.hi
    let pb := if !y.pend ∨ y.pbind < v then v else y.pbind
    { z with pbind := pb, pend := y.pend || decide (y.bind < pb), lowcnt := 0 }
  else if m + 2 ≤ y.bind then
    let low := if y.lowcnt = 0 ∨ y.lowmax < m then m else y.lowmax
    if y.lowcnt + 1 = 3 then
      { z with lowmax := low, lowcnt := 0, pend := true, pbind := if y.pend then y.pbind else max low y.lo }
    else { z with lowmax := low, lowcnt := y.lowcnt + 1 }
  else { z with lowcnt := 0 }

def State.sym (s : State) (p : CoreId) (n : BitVec 4) : Sym := vget (s.core p).plumb.syms n.toNat
def State.modSym (s : State) (p : CoreId) (n : BitVec 4) (f : Sym → Sym) : State :=
  s.modCore p fun c => { c with plumb := { c.plumb with syms := vmod c.plumb.syms n.toNat f } }

/-- The window of a symbol that has reached its 4,096th sample closes. -/
def State.closeWindow (s : State) (p : CoreId) (n : BitVec 4) : State :=
  let y := s.sym p n
  if y.valid ∧ y.full then
    let s1 := if y.hi < y.wmax then s.event (bentOf p) 2 (some p) [at_ n.toNat 0 ||| at_ y.wmax 8] else s
    s1.modSym p n Sym.close
  else s

/-- WINDOW_CLOSE (R63), but not in a freeze of the core (R67). -/
def execWindowClose (p : CoreId) (n : BitVec 4) (s : State) : Out :=
  .next (if s.stalled p then s else s.closeWindow p n)

/-- One sample of a tagged operation's latency, in cycles without the core's freezes (R62). -/
def State.sample (s : State) (p : CoreId) (n : BitVec 4) (lat : Nat) : State :=
  let s1 := s.closeWindow p n
  if (s1.sym p n).valid then
    s1.modSym p n fun y =>
      { y with wmax := max y.wmax (min 255 lat), cnt := y.cnt + 1, full := decide (4096 ≤ y.cnt + 1) }
  else s1

/-- An operating-point change or a restore discards every open window (R62, R322). -/
def Sym.discard (y : Sym) : Sym := { y with wmax := 0, cnt := 0, full := false, lowcnt := 0 }

def Plumb.anyPend (u : Plumb) : Bool := (vlist u.syms).any fun y => y.valid && y.pend

def bytesWord (l : List Nat) : Word := BitVec.ofNat 64 (l.foldr (fun b n => b + 256 * n) 0)

/-- Every pending binding installed, PLRETIME + 1, one RETIME record (R63). -/
def State.installBindings (s : State) (p : CoreId) : State :=
  let u := (s.core p).plumb
  let olds := vlist u.syms
  let news := olds.map fun y => if y.valid ∧ y.pend then { y with bind := y.pbind, pend := false } else y
  let mask := at_ ((olds.zipIdx.filterMap fun x => if x.1.valid ∧ x.1.pend then some (2 ^ x.2) else none).sum) 0
  let b := fun (l : List Sym) i => bytesWord (((l.drop i).take 8).map Sym.binding)
  (s.modCore p fun c =>
    { c with plumb := { u with syms := vgen 16 fun i => news.getD i {}, retime := u.retime + 1 } }).event
      (bentOf p) 1 (some p) [b olds 0, b olds 8, b news 0, b news 8, mask]

end Sys2Proof.Machine
end

