-- ==== Sys2Proof/Machine/Rng.lean ====
section
/-! DEFINITION. Stochastic generators (R80–R82). -/

namespace Sys2Proof.Machine

/-- The 128 generators of a bank seeded from half of RNGSEED for logical index `i`; 0 is replaced by 1 (R82). -/
def seedBank (seed : W32) (k i : Nat) : Vector W32 128 :=
  vgen 128 fun b =>
    let g : W32 := seed ^^^ BitVec.ofNat 32 ((i * 128 + b) * k)
    if g = 0 then 1 else g

def State.lidxOf (s : State) (p : CoreId) : Nat := placeLidx (s.core p).place

def Rng.seedV (r : Rng) (i : Nat) : Rng :=
  { r with vg := seedBank (r.seed.extractLsb' 0 32) 0x9E3779B9 i, vPend := false }
def Rng.seedM (r : Rng) (i : Nat) : Rng :=
  { r with mg := seedBank (r.seed.extractLsb' 32 32) 0x85EBCA6B i, mPend := false }

def State.modRng (s : State) (p : CoreId) (f : Rng → Rng) : State := s.modCore p fun c => { c with rng := f c.rng }

/-- A draw where `need` says the rounding draws: the generator after, and the 16 bits. -/
def drawIf (need : Bool) (g : W32) : W32 × Nat := if need then rngDraw g else (g, 0)

end Sys2Proof.Machine
end

