-- ==== Sys2Proof/Machine/Lanes.lean ====
section
/-! DEFINITION. Station orders of the vector engine: lanes, masks and each member's effect (R239, R240, R252–R264). -/

namespace Sys2Proof

open Machine

/-- The element format of a lane type. -/
def Lane.fmt (l : Lane) : Fmt :=
  match l with
  | .s8 => .int8 | .s16 => .int16 | .s32 => .int32 | .n8 => .uint8 | .n16 => .uint16 | .n32 => .uint32
  | .f32 => .fp32 | .bf16 => .bf16

def StOrd.lane (o : StOrd) : Lane := Lane.ofCode o.lt

/-- The integer a lane of an integer type holds. -/
def Lane.int (l : Lane) (x : Nat) : Int := decodeInt l.fmt.signed l.width x

def StOrd.mode (o : StOrd) : Mode := Mode.ofCode o.rnd
def StOrd.down (o : StOrd) : Bool := o.mode == .down

/-- A floating input with flush-in. -/
def StOrd.inp (o : StOrd) (f : Fmt) (x : Nat) : Val := f.flushIn o.fi x

/-- Round(v, f, RND), then FO and R85, drawing where STOCHASTIC draws. -/
def StOrd.round (o : StOrd) (f : Fmt) (v : Val) (g : W32) : Nat × W32 :=
  let (h, z) := drawIf (draws o.mode v) g
  (f.encode o.mode o.sat o.fo z v, h)

/-- ROT: the seven low bits of the order (R258). -/
def StOrd.rot (o : StOrd) : Nat :=
  64 * o.fi.toNat + 32 * o.fo.toNat + 4 * o.rnd.toNat + 2 * o.sat.toNat + o.msk.toNat

end Sys2Proof

namespace Sys2Proof.Machine

/-! ### Lanes -/

def lanesOf (w : Nat) (v : Vec) : List Nat := (List.range (1024 / w)).map fun l => v.toNat / 2 ^ (w * l) % 2 ^ w
def vecOfLanes (w : Nat) (l : List Nat) : Vec := toVec (l.foldr (fun x t => x + 2 ^ w * t) 0)

/-- The generators of the bank that a vector's bytes use (R81). -/
abbrev Gens := Vector W32 128

/-- What an order reads: its three vectors, the governing mask, and the core's masks and generators. -/
structure StaIn where
  a : Vec
  b : Vec
  c : Vec
  masks : Vector (BitVec 128) 8
  vg : Gens

/-- Whether the mask governs a lane of `w` bits as active (R240). -/
def StaIn.active (x : StaIn) (o : StOrd) (w l : Nat) : Bool :=
  !o.msk || (vget x.masks o.stn.toNat).getLsbD (l * (w / 8))

/-- Generators after lanes of `w` bits have drawn. -/
def putGens (w : Nat) (vg : Gens) (l : List W32) : Gens :=
  vgen 128 fun b => if b % (w / 8) = 0 then l.getD (b / (w / 8)) (vget vg b) else vget vg b

/-- One lane from A, B, C and its generator. -/
abbrev LaneFn := Nat → Nat → Nat → W32 → Nat × W32

/-- A lane-wise member: masked-off lanes take c's and draw nothing. -/
def laneWise (w : Nat) (f : LaneFn) (o : StOrd) (x : StaIn) : Vec × Gens :=
  let la := lanesOf w x.a
  let lb := lanesOf w x.b
  let lc := lanesOf w x.c
  let out := (List.range (1024 / w)).map fun l =>
    let g := vget x.vg (l * (w / 8))
    if x.active o w l then f (la.getD l 0) (lb.getD l 0) (lc.getD l 0) g else (lc.getD l 0, g)
  (vecOfLanes w (out.map (·.1)), putGens w x.vg (out.map (·.2)))

/-- A lane function that draws nothing. -/
def pureLane (f : Nat → Nat → Nat → Nat) : LaneFn := fun a b c g => (f a b c, g)

/-! ### Members (R255–R264) -/

/-- VADD, VSUB, VMUL, VFMA: an exact function of the lanes, rounded once. -/
def arith (fv : Bool → Val → Val → Val → Val) (fi : Int → Int → Int → Int) (o : StOrd) : StaIn → Vec × Gens :=
  let l := o.lane
  if l.isFloat then
    laneWise l.width (fun a b c g => o.round l.fmt (fv o.down (o.inp l.fmt a) (o.inp l.fmt b) (o.inp l.fmt c)) g) o
  else
    laneWise l.width (pureLane fun a b c => encodeInt l.fmt.signed l.width o.sat (fi (l.int a) (l.int b) (l.int c))) o

/-- A value a format represents, as its pattern. -/
def Fmt.exact (f : Fmt) (v : Val) : Nat := f.encode .nearest false false 0 v

def minMax (fv : Val → Val → Val) (pick : Int → Int → Bool) (o : StOrd) : StaIn → Vec × Gens :=
  let l := o.lane
  laneWise l.width (pureLane fun a b _ =>
    if l.isFloat then l.fmt.exact (fv (o.inp l.fmt a) (o.inp l.fmt b))
    else if pick (l.int b) (l.int a) then b else a) o

/-- VABS and VNEG: `fs` acts on a floating pattern's sign bit, `fi` on an integer. -/
def signOp (fs : Nat → Nat → Nat) (fi : Int → Int) (o : StOrd) : StaIn → Vec × Gens :=
  let l := o.lane
  laneWise l.width (pureLane fun a _ _ =>
    if l.isFloat then (if (l.fmt.decode a).isNan then l.fmt.exact .nan else fs (2 ^ (l.width - 1)) a)
    else encodeInt l.fmt.signed l.width o.sat (fi (l.int a))) o

def clearSign (top a : Nat) : Nat := a % top
def flipSign (top a : Nat) : Nat := if a < top then a + top else a - top

def bitwise (f : Nat → Nat → Nat) (o : StOrd) : StaIn → Vec × Gens := laneWise o.lane.width (pureLane fun a b _ => f a b) o

/-- A shift by B's low log2 w bits. -/
def shiftOp (f : Nat → Nat → Nat → Nat) (o : StOrd) : StaIn → Vec × Gens :=
  let w := o.lane.width
  laneWise w (pureLane fun a b _ => f w a (b % w)) o

/-- The predicates of R256 on ordered operands. -/
def predOf (rnd : BitVec 3) (lt gt : Bool) : Bool :=
  match rnd.toNat with
  | 0 => !lt && !gt
  | 1 => lt || gt
  | 2 => lt
  | 3 => !gt
  | 4 => gt
  | 5 => !lt
  | _ => false

def cmpLane (o : StOrd) (a b : Nat) : Bool :=
  let l := o.lane
  if l.isFloat then
    let x := o.inp l.fmt a
    let y := o.inp l.fmt b
    if x.isNan || y.isNan then o.rnd == 1 || o.rnd == 6 else predOf o.rnd (x.lt y) (y.lt x)
  else predOf o.rnd (decide (l.int a < l.int b)) (decide (l.int b < l.int a))

/-- A 128-bit mask from its bits. -/
def maskOf (f : Nat → Bool) : BitVec 128 :=
  BitVec.ofNat 128 ((List.range 128).foldr (fun i t => (f i).toNat + 2 * t) 0)

/-- The destination mask of VCMP. -/
def cmpMask (o : StOrd) (x : StaIn) : BitVec 128 :=
  let w := o.lane.width
  let la := lanesOf w x.a
  let lb := lanesOf w x.b
  let old := vget x.masks (o.ds.toNat % 8)
  maskOf fun i =>
    let l := i / (w / 8)
    if x.active o w l then cmpLane o (la.getD l 0) (lb.getD l 0) else old.getLsbD i

/-- VSEL takes b where the mask bit is 0. -/
def selOp (o : StOrd) (x : StaIn) : Vec × Gens := laneWise o.lane.width (pureLane fun a _ _ => a) o { x with c := x.b }

/-- VMASK's new mask (R257). -/
def maskOp (o : StOrd) (x : StaIn) : BitVec 128 :=
  let a := vget x.masks (o.sa.toNat % 8)
  let b := vget x.masks (o.sb.toNat % 8)
  match o.rnd.toNat with
  | 0 => a &&& b
  | 1 => a ||| b
  | 2 => a ^^^ b
  | 3 => a &&& ~~~b
  | 4 => ~~~a
  | 5 => BitVec.allOnes 128
  | _ => 0

/-- Bytes `n` to 127 of c, then `n` new bytes. -/
def pushBytes (c : Vec) (n : Nat) (out : List Byte) : Vec := vecOfBytes ((vecBytes c).drop n ++ out)

/-- One element of a same-width or narrowing conversion (R86, R259). -/
def cvtElem (o : StOrd) (fin fout : Fmt) (x : Nat) (g : W32) : Nat × W32 :=
  if fin = fout then (x, g)
  else match fin.float?, fout.float? with
    | none, none => (encodeInt fout.signed fout.width o.sat (decodeInt fin.signed fin.width x), g)
    | none, some _ => o.round fout (fin.decode x) g
    | some _, _ => o.round fout (fin.flushIn o.fi x) g

/-- VCVT (R259). -/
def cvtOp (o : StOrd) (x : StaIn) : Vec × Gens :=
  let l := o.lane
  let w := l.width
  let fout := (Fmt.ofCode o.sb).getD .int8
  let src := lanesOf w x.a
  match cvtKind o with
  | some .same => laneWise w (fun a _ _ g => cvtElem o l.fmt fout a g) o x
  | some .narrow =>
    let k := fout.width / 8
    let n := l.count * k
    let out := (List.range l.count).map fun i =>
      let g := vget x.vg (i * (w / 8))
      if x.active o w i then
        let (v, h) := cvtElem o l.fmt fout (src.getD i 0) g
        (bytesOfNat v k, h)
      else ((List.range k).map fun j => vecByte x.c (128 - n + i * k + j), g)
    (pushBytes x.c n (out.flatMap (·.1)), putGens w x.vg (out.map (·.2)))
  | some .widen =>
    let lo := 1024 / fout.width
    (vecOfLanes fout.width ((List.range lo).map fun i =>
      fout.exact (l.fmt.flushIn o.fi (src.getD (o.rnd.toNat * lo + i) 0))), x.vg)
  | some .expand =>
    let part := if o.sb = 0xB ∨ o.sb = 0xC then 0 else 64 * o.rnd.toNat
    (vecOfBytes ((List.range 128).map fun k =>
      BitVec.ofNat 8 (expandE4m3 fout (packedElem fout.width (vecByte x.a) part k))), x.vg)
  | none => (x.c, x.vg)

/-- VDOT4 (R262). -/
def dotOp (o : StOrd) (x : StaIn) : Vec × Gens :=
  let byte := fun (v : Nat) (i : Nat) => decodeInt (o.lane == .s8) 8 (v / 256 ^ i % 256)
  laneWise 32 (pureLane fun a b c =>
    encodeInt true 32 o.sat (decodeInt true 32 c + ((List.range 4).map fun i => byte a i * byte b i).sum)) o x

/-- The lanes of a group that its mask leaves in. -/
def groupLanes (o : StOrd) (x : StaIn) (j : Nat) : List Nat :=
  let w := o.lane.width
  let g := 2 ^ o.sb.toNat
  let la := lanesOf w x.a
  ((List.range g).filter fun i => x.active o w (j * g + i)).map fun i => la.getD (j * g + i) 0

/-- A reduction: `f` on a group's lanes and the generator of the result lane: that of the lane's low byte, which neither R81
nor R263 names for a reduction (DESIGN CHOICE, log 48). -/
def reduceOp (f : List Nat → W32 → Nat × W32) (o : StOrd) (x : StaIn) : Vec × Gens :=
  let l := o.lane
  let n := l.count / 2 ^ o.sb.toNat
  let out := (List.range n).map fun j => f (groupLanes o x j) (vget x.vg (j * (l.width / 8)))
  (vecOfLanes l.width (out.map (·.1)), putGens l.width x.vg (out.map (·.2)))

def redAdd (o : StOrd) : StaIn → Vec × Gens :=
  let l := o.lane
  reduceOp (fun xs g =>
    if xs.isEmpty then (0, g)
    else if l.isFloat then o.round l.fmt (Val.sum o.down (xs.map (o.inp l.fmt))) g
    else (encodeInt l.fmt.signed l.width o.sat ((xs.map l.int).sum), g)) o

def redMinMax (fv : Val → Val → Val) (empty : Val) (pick : Int → Int → Bool) (emptyInt : Bool → Nat → Int) (o : StOrd) :
    StaIn → Vec × Gens :=
  let l := o.lane
  reduceOp (fun xs g =>
    (if l.isFloat then
       match xs.map (o.inp l.fmt) with
       | [] => l.fmt.exact empty
       | v :: vs => l.fmt.exact (vs.foldl fv v)
     else match xs with
       | [] => lowBits l.width (emptyInt l.fmt.signed l.width)
       | v :: vs => vs.foldl (fun t y => if pick (l.int y) (l.int t) then y else t) v, g)) o

/-- VEXP2, VLOG2, VRCP, VRSQ (R91, R264). -/
def transOp (f : Val → Val) (o : StOrd) : StaIn → Vec × Gens :=
  let l := o.lane
  laneWise l.width (fun a _ _ g => o.round l.fmt (f (o.inp l.fmt a)) g) o

def permOp (o : StOrd) (x : StaIn) : Vec × Gens :=
  let w := o.lane.width
  let la := lanesOf w x.a
  laneWise w (pureLane fun _ b _ => la.getD (b % (1024 / w)) 0) o x

def bcastOp (o : StOrd) (x : StaIn) : Vec × Gens :=
  let w := o.lane.width
  let v := (lanesOf w x.a).getD (o.sb.toNat * 8 + o.rnd.toNat) 0
  laneWise w (pureLane fun _ _ _ => v) o x

def rotOp (o : StOrd) (x : StaIn) : Vec × Gens :=
  (vecOfBytes (((vecBytes x.a ++ vecBytes x.b).drop o.rot).take 128), x.vg)

def movOp (o : StOrd) : StaIn → Vec × Gens := laneWise o.lane.width (pureLane fun a _ _ => a) o

def ldiOp (o : StOrd) : StaIn → Vec × Gens :=
  let l := o.lane
  let v : Int := decodeInt true 8 (o.sa.toNat * 16 + o.sb.toNat)
  let p := if l.isFloat then l.fmt.exact (Val.ofInt v) else lowBits l.width v
  laneWise l.width (pureLane fun _ _ _ => p) o

/-! ### Planes (R260) -/

/-- VPLN on BF16: half h of a segment into the planes of row R of c. -/
def vplnBf16 (o : StOrd) (x : StaIn) : Vec :=
  let h := o.rnd.toNat % 2
  let r := o.rnd.toNat / 4
  let el := lanesOf 16 x.a
  vecOfBytes ((List.range 128).map fun i =>
    if 8 * h ≤ i % 16 ∧ i % 16 < 8 * h + 8 then planeByte 16 (fun k => el.getD k 0) (8 * r + i / 16) (i % 16 - 8 * h)
    else vecByte x.c i)

def vplnOp (o : StOrd) (x : StaIn) : Vec × Gens :=
  (match o.sb.toNat with
   | 5 => vplnBf16 o x
   | 8 =>
     let el := packedElem 4 (vecByte x.a) 0
     vecOfBytes (planeBytes 4 el 0 4 ++ planeBytes 4 (fun k => el (128 + k)) 0 4)
   | _ => vecOfBytes (planeBytes 8 (fun k => (vecByte x.a k).toNat) 0 8), x.vg)

/-- The pattern of a VUNPL from BF16: row R's bits from a, the others from `old`. -/
def unplPat (a : Vec) (r k old : Nat) : Nat :=
  let row := planeElem 8 (vecByte a) k
  if r = 0 then row * 256 + old % 256 else old / 256 % 256 * 256 + row

def vunplBf16 (o : StOrd) (x : StaIn) : Vec :=
  let l := o.lane
  let r := o.rnd.toNat / 4
  let first := if l = .bf16 then 64 * (o.rnd.toNat % 2) else 32 * (o.rnd.toNat % 4)
  let lc := lanesOf l.width x.c
  vecOfLanes l.width ((List.range l.count).map fun i =>
    let c := lc.getD i 0
    let pat := unplPat x.a r (first + i) (if l = .bf16 then c else c / 65536)
    let p := if r = 0 then pat else Fmt.bf16.exact (Fmt.bf16.flushIn o.fi pat)
    if l = .bf16 then p else p * 65536)

def vunplOp (o : StOrd) (x : StaIn) : Vec × Gens :=
  let l := o.lane
  let part := fun (f : Fmt) (el : Nat → Nat) =>
    vecOfLanes l.width ((List.range l.count).map fun i => l.fmt.exact (f.flushIn o.fi (el (o.rnd.toNat * l.count + i))))
  (match o.sb.toNat with
   | 5 => vunplBf16 o x
   | 8 =>
     let el := fun k => planeElem 4 (fun i => vecByte x.a (64 * (k / 128) + i)) (k % 128)
     if l = .n8 then vecOfBytes ((List.range 128).map fun j => BitVec.ofNat 8 (el (2 * j) + 16 * el (2 * j + 1)))
     else part .e2m1 el
   | n =>
     let el := planeElem 8 (vecByte x.a)
     if l = .n8 then vecOfBytes ((List.range 128).map fun k => BitVec.ofNat 8 (el k))
     else part (if n = 0 then .int8 else if n = 1 then .uint8 else if n = 6 then .e4m3 else .e5m2) el, x.vg)

/-! ### MX quantisation (R87, R261) -/

/-- The scale of an MX block. -/
def mxScale (xs : List Val) : Nat :=
  if xs.any fun v => v.isNan || v.isInf then 255
  else if xs.all Val.isZero then 127
  else
    let e := xs.foldl (fun t v => match v with
      | .fin _ m k => if m = 0 then t else max t (expOf m k)
      | _ => t) (-1000)
    (min 254 (max 0 (e + 125))).toNat

/-- One element of an MX block of scale `e`. -/
def mxElem (mode : Mode) (e : Nat) (v : Val) (g : W32) : Nat × W32 :=
  if e = 255 then (0, g)
  else
    let w := v.scale (127 - (e : Int))
    let (h, z) := drawIf (draws mode w) g
    (Fmt.e2m1.encode mode true false z w, h)

/-- Four-bit patterns packed two to a byte (R73). -/
def packNibbles (l : List Nat) : List Byte :=
  (List.range (l.length / 2)).map fun j => BitVec.ofNat 8 (l.getD (2 * j) 0 + 16 * l.getD (2 * j + 1) 0)

def mxVals (o : StOrd) (x : StaIn) : List Val := (lanesOf o.lane.width x.a).map (o.inp o.lane.fmt)
def mxBlocks (o : StOrd) (x : StaIn) : List Nat :=
  (List.range (o.lane.count / 32)).map fun k => mxScale (((mxVals o x).drop (32 * k)).take 32)

def scaleOp (o : StOrd) (x : StaIn) : Vec × Gens :=
  let es := mxBlocks o x
  (pushBytes x.c es.length (es.map (BitVec.ofNat 8)), x.vg)

def qmxOp (o : StOrd) (x : StaIn) : Vec × Gens :=
  let w := o.lane.width
  let es := mxBlocks o x
  let out := (mxVals o x).zipIdx.map fun y => mxElem o.mode (es.getD (y.2 / 32) 0) y.1 (vget x.vg (y.2 * (w / 8)))
  (pushBytes x.c (out.length / 2) (packNibbles (out.map (·.1))), putGens w x.vg (out.map (·.2)))

end Sys2Proof.Machine
end

