-- ==== Sys2Proof/Machine/Copy.lean ====
section
/-! DEFINITION. Copy commands (R210–R219) and the exactly-once reducing copies (R316). -/

namespace Sys2Proof.Machine

/-! ### Elements -/

/-- `n` bytes at a virtual address as the engine reads them, byte by byte across pages. -/
def State.readVa (s : State) (p : CoreId) (va : Word) : Nat → Except (Word × XErr) (List Byte)
  | 0 => .ok []
  | n + 1 =>
    match s.engAt p va 1 .read with
    | .error e => .error (va, e)
    | .ok l =>
      match State.readVa s p (va + 1) n with
      | .ok bs => .ok (BitVec.ofNat 8 (s.readLoc p l 1) :: bs)
      | x => x

/-- The places of `n` bytes to write. -/
def State.placeVa (s : State) (p : CoreId) (va : Word) (acc : Acc) : Nat → Except (Word × XErr) (List Loc)
  | 0 => .ok []
  | n + 1 =>
    match s.engAt p va 1 acc with
    | .error e => .error (va, e)
    | .ok l =>
      match State.placeVa s p (va + 1) acc n with
      | .ok ls => .ok (l :: ls)
      | x => x

def State.readSrc (s : State) (p : CoreId) (n : Nat) (x : ESrc) : Except (Word × XErr) (List Byte) :=
  match x with
  | .va a => s.readVa p a n
  | .bytes l => .ok l
  | .bad a => .error (a, .access)

def State.placeDst (s : State) (p : CoreId) (n : Nat) (x : ESrc) : Except (Word × XErr) (List Loc) :=
  match x with
  | .va a => s.placeVa p a .write n
  | .bytes _ => .ok []
  | .bad a => .error (a, .access)

def State.writeBytes (s : State) (p : CoreId) : List Loc → List Byte → State
  | l :: ls, b :: bs => State.writeBytes (s.writeHome p l [b]) p ls bs
  | _, _ => s

/-- How a run of elements ends early: the element, the address, whether it was a write, the failure. -/
structure Stop where
  elem : Nat
  va : Word
  write : Bool
  err : XErr

/-- A read of an element's source: its first and its last byte's lines are used (R114, R371), by the load side (R98). -/
def State.usedSrc (s : State) (p : CoreId) (n : Nat) (x : ESrc) : State :=
  match x with
  | .va a =>
    let at1 := fun (t : State) (v : Word) => match s.engAt p v 1 .read with
      | .ok l => (t.used p l 1).grant p 0 l 1
      | .error _ => t
    at1 (at1 s a) (a + BitVec.ofNat 64 (n - 1))
  | _ => s

/-- The first of each run of addresses in one block of 2^k bytes. -/
def heads (k : Nat) : List Word → List Word
  | a :: b :: t => if a.toNat / 2 ^ k = b.toNat / 2 ^ k then heads k (b :: t) else a :: heads k (b :: t)
  | l => l

/-- The first and last bytes of `n` elements from `k` on. -/
def elemVas (size : Nat) (f : Nat → ESrc) (k n : Nat) : List Word :=
  (List.range n).flatMap fun i => match f (k + i) with
    | .va a => [a, a + BitVec.ofNat 64 (size - 1)]
    | _ => []

/-- `n` elements from `k` on have moved: the pages they lie in are noted (R105), and each line that consecutive ones lie
in counts once (R357, log 47). -/
def State.moved (s : State) (p : CoreId) (j : Job) (k n : Nat) : State :=
  let a := elemVas j.size j.src k n
  let b := elemVas j.size j.dst k n
  ((s.noteAll p (heads 12 a)).noteAll p (heads 12 b)).count p 0x0C ((heads 7 a).length + (heads 7 b).length)

/-- Bytes of one element written by the CE's store side (R98). -/
def State.storeBytes (s : State) (p : CoreId) (ls : List Loc) (bs : List Byte) : State :=
  (ls.head?.toList ++ ls.getLast?.toList).foldl (fun t l => t.grant p 1 l 1) (s.writeBytes p ls bs)

/-- Elements from `k` on, at most `fuel` of them; `get` gives an element's source bytes. -/
def copyLoop (p : CoreId) (j : Job) (get : State → Nat → Except (Word × XErr) (List Byte)) :
    Nat → Nat → State → State × Option Stop
  | 0, _, s => (s, none)
  | fuel + 1, k, s =>
    match get s k with
    | .error (va, e) => (s, some { elem := k, va := va, write := false, err := e })
    | .ok bs =>
      match s.placeDst p j.size (j.dst k) with
      | .error (va, e) => (s, some { elem := k, va := va, write := true, err := e })
      | .ok ls =>
        copyLoop p j get fuel (k + 1) ((if j.old then s else s.usedSrc p j.size (j.src k)).storeBytes p ls bs)

/-- The source bytes of element `k` as a parked copy has kept them, none of a byte it could not read (R216). -/
def Flight.kept (f : Flight) (k : Nat) : List (Option Byte) := (f.saved[k - f.elem]?).getD []

/-- The bytes of an element's source, each alone: one kept already stands. -/
def State.srcBytes (s : State) (p : CoreId) (n : Nat) (x : ESrc) (kept : List (Option Byte)) : List (Option Byte) :=
  (List.range n).map fun i =>
    (kept.getD i none).or (match x with
      | .va a => ((s.readVa p (a + BitVec.ofNat 64 i) 1).toOption.bind (·.head?))
      | .bytes l => l[i]?
      | .bad _ => none)

/-- What a copy that parks at element `e` keeps: each source byte from there on that it can read. -/
def keepFrom (s : State) (p : CoreId) (f : Flight) (j : Job) (e : Nat) : List (List (Option Byte)) :=
  (List.range (j.count - e)).map fun i => s.srcBytes p j.size (j.src (e + i)) (f.kept (e + i))

/-- An element's source as it stood before the command wrote: the bytes kept, the others as they read now. -/
def State.oldSrc (s : State) (p : CoreId) (n : Nat) (x : ESrc) (kept : List (Option Byte)) :
    Except (Word × XErr) (List Byte) :=
  if kept.isEmpty then s.readSrc p n x
  else
    let got := s.srcBytes p n x kept
    match got.findIdx? Option.isNone, x with
    | some i, .va a => s.readVa p (a + BitVec.ofNat 64 i) 1
    | some _, _ => s.readSrc p n x
    | none, _ => .ok (got.map fun b => b.getD 0)

/-- A tagged copy contributes its sample at its finish (R213): the time since its start, with the cycles that the steps
of this model do not show (log 5). -/
def State.copyDone (s : State) (p : CoreId) (f : Flight) (t : Tag) : State :=
  let s1 := if t.tg then s.sample p t.sym (s.live p - f.live + Config.copyCycles s.sched.tick) else s
  s1.finish p f.ord

/-- The lines of all the sources a copy reads before it writes (R216). -/
def State.usedAll (s : State) (p : CoreId) (j : Job) (k : Nat) : State :=
  if j.old then (List.range (j.count - k)).foldl (fun t i => t.usedSrc p j.size (j.src (k + i))) s else s

/-- A copy runs from its recorded element: to its finish, to a park, or to a fault (R212). -/
def runJob (p : CoreId) (f : Flight) (t : Tag) (j : Job) (s : State) : State :=
  let get := fun (cur : State) (k : Nat) =>
    if j.old then s.oldSrc p j.size (j.src k) (f.kept k) else cur.readSrc p j.size (j.src k)
  match copyLoop p j get (j.count - f.elem) f.elem (s.usedAll p j f.elem) with
  | (s1, none) => (s1.moved p j f.elem (j.count - f.elem)).copyDone p f t
  | (s1, some e) =>
    let s2 := s1.moved p j f.elem (e.elem - f.elem)
    let keep := if j.old then keepFrom s p f j e.elem else []
    match e.err with
    | .page cause => (s2.noteFail p e.va).flightPark p f (if e.write then cPageStore else cPageLoad) cause e.va e.elem keep
    | _ => (s2.noteFail p e.va).flightFault p f cAccess 0 e.va e.elem keep

/-! ### The slot holds of a command (R210, R222) -/

/-- Whether the slot whose bytes an address names, translated or not, satisfies `ok` (R221). -/
def State.slotVaOk (s : State) (p : CoreId) (ok : Slot → Bool) (va : Word) : Bool :=
  (s.stageQs p).all fun q => match q.slotOfVa va with
    | some i => ok (q.slots.getD i .free)
    | none => true

/-- Whether every byte of a range is in no slot, or in one that satisfies `ok`. A byte that does not translate lies in
the slot its address names. -/
def bytesFree (ok : Slot → Bool) (s : State) (p : CoreId) (acc : Acc) (va : Word) : Nat → Bool
  | 0 => true
  | n + 1 =>
    (match s.engAt p va 1 acc with
     | .ok l => (s.stageQs p).all fun q => match q.slotAt l with
       | some x => ok x.2
       | none => true
     | .error _ => s.slotVaOk p ok va) && bytesFree ok s p acc (va + 1) n

def srcHeld (s : State) (p : CoreId) (n : Nat) (x : ESrc) : Bool :=
  match x with
  | .va a => !bytesFree Slot.readable s p .read a n
  | _ => false

def dstHeld (s : State) (p : CoreId) (n : Nat) (x : ESrc) : Bool :=
  match x with
  | .va a => !bytesFree (fun x => !x.readable) s p .write a n
  | _ => false

/-- Every slot the elements read is readable, every slot they write writable. -/
def Job.slotsOk (j : Job) (s : State) (p : CoreId) : Bool :=
  (s.stageQs p).isEmpty ||
    (List.range j.count).all fun k => !srcHeld s p j.size (j.src k) && !dstHeld s p j.size (j.dst k)

/-! ### Starting -/

/-- A copy starts once its slots, fixed then, are free (R210). -/
def copyCmd (h : Hdr) (t : Tag) (ctr : Word) (inc : W32) (mk : State → Job) (s : State) : State :=
  let p := s.sched.core
  command h
    { ctr := ctr, inc := inc, can := fun u => (mk u).slotsOk u p,
      go := fun _ f => goOrWait p f fun u => runJob p f t (mk u) u } s

def execCpy (h : Hdr) (c : CopyOps) (s : State) : Out :=
  .next (copyCmd h c.tag c.ctr c.inc (fun _ => cpyJob c) s)

def execFill (h : Hdr) (c : FillOps) (s : State) : Out :=
  .next (copyCmd h c.tag c.ctr c.inc (fun _ => fillJob c) s)

def execGath (h : Hdr) (c : GatherOps) (s : State) : Out :=
  .next (copyCmd h c.tag c.ctr c.inc (fun u => gatherJob false c u s.sched.core) s)

def execScat (h : Hdr) (c : GatherOps) (s : State) : Out :=
  .next (copyCmd h c.tag c.ctr c.inc (fun u => gatherJob true c u s.sched.core) s)

/-- The four 64-byte parts of a CPYN descriptor. -/
def descReqs (a : Word) : List AddrReq :=
  [0, 64, 128, 192].map fun o => { va := a + o, acc := .read, n := 64, ok := fun _ _ => true }

def State.descBytes (s : State) (p : CoreId) (ls : List Loc) : List Byte :=
  (ls.take 4).flatMap fun l => bytesOfNat (s.readLoc p l 64) 64

def execCpyn (h : Hdr) (c : CopyNOps) (s : State) : Out :=
  .next (
    let p := s.sched.core
    command h
      { ctr := c.ctr, inc := c.inc, reqs := descReqs c.desc,
        late := fun u ls => orFault (!cpynOk (u.descBytes p ls)) cIllegalCmd,
        ready := fun u ls => (cpynJob c (u.descBytes p ls)).slotsOk u p,
        go := fun ls f u =>
          let d := u.descBytes p ls
          goOrWait p { f with desc := d } (runJob p { f with desc := d } c.tag (cpynJob c d))
            ((ls.take 4).foldl (fun t l => t.used p l 64) (u.modFlight p f.ord fun x => { x with desc := d })) } s)

/-- A line allocated in its home LLC, or used there (R219), but for one of a row a Furrow command holds (R306). -/
def State.allocLine (s : State) (line : Nat) : State :=
  { s with llc :=
      if s.furHeld line then s.llc
      else match s.llc.find? fun l => l.line == line with
      | some x => s.withLine x
      | none =>
        if (s.viewAt line).isSome then s.viewLlc line else s.withLine { line := line, dirty := false, view := none } }

def prefLoop (p : CoreId) (va : Word) : Nat → State → State
  | 0, s => s
  | n + 1, s =>
    let s1 := match s.engAt p va 128 .read with
      | .ok (.phys a) => (match s.space a with
        | .dev o => if s.stackReady (stackOf o) && !s.moving o then s.allocLine (o / 128 * 128) else s
        | _ => s)
      | _ => s
    prefLoop p (va + 128) n s1

/-- Lines of [a, a + len). -/
def linesOf (a : Word) (len : Nat) : Nat := if len = 0 then 0 else (a.toNat % 128 + len + 127) / 128

def runPref (p : CoreId) (f : Flight) (c : PrefOps) (s : State) : State :=
  let n := linesOf c.src c.len.toNat
  let vas := (List.range n).map fun i => (c.src &&& ~~~127#64) + BitVec.ofNat 64 (128 * i)
  (((prefLoop p (c.src &&& ~~~127#64) n s).noteAll p (heads 12 vas)).count p 0x0C n).copyDone p f c.tag

def execPrefCmd (h : Hdr) (c : PrefOps) (s : State) : Out :=
  .next (command h
    { ctr := c.ctr, inc := c.inc, go := fun _ f => goOrWait s.sched.core f (runPref s.sched.core f c) } s)

/-! ### Reducing copies (R218, R316) -/

def rcpyOk (c : RcpyOps) : Bool :=
  match rcpyFmt c.fmt with
  | none => false
  | some f =>
    (decide (c.rop.toNat ≤ 2) || (decide (c.rop.toNat ≤ 5) && f == .int32)) && c.len.toNat % (f.width / 8) == 0

/-- The result of one element (R218). -/
def rcpyElem (f : Fmt) (rop : BitVec 3) (d x : Nat) : Nat :=
  let w := f.width
  let v := fun (g : Val → Val → Val) => f.encode .nearest false false 0 (g (f.decode d) (f.decode x))
  match rop.toNat with
  | 0 => if f = .int32 then (d + x) % 2 ^ w else v (Val.add false)
  | 1 => if f = .int32 then (if asInt 4 x < asInt 4 d then x else d) else v Val.min
  | 2 => if f = .int32 then (if asInt 4 d < asInt 4 x then x else d) else v Val.max
  | 3 => d &&& x
  | 4 => d ||| x
  | _ => d ^^^ x

/-- Elements of a chunk applied in place. -/
def applyElems (p : CoreId) (f : Fmt) (rop : BitVec 3) : Loc → List Byte → Nat → State → State
  | _, _, 0, s => s
  | l, bs, n + 1, s =>
    let k := f.width / 8
    let v := rcpyElem f rop (s.readLoc p l k) (leOfBytes (bs.take k))
    applyElems p f rop (l.add k) (bs.drop k) n (s.writeHome p l (bytesOfNat v k))

/-- The unit whose window covers a place: an LLC slice, an understore bank, a peer's home agent. -/
def State.homeUnit (s : State) (l : Loc) : Nat :=
  match s.locSpace l with
  | some (.dev o) => llcSlice o
  | some (.under b o) => 256 + b * 16 + o / 0x1C00000
  | some (.peer d _) => 512 + d
  | _ => 2000

/-- RCPY sends its elements from `k` on, one chunk for each 128-byte line of DST. -/
def rcpyLoop (p : CoreId) (ord : Nat) (f : Fmt) (c : RcpyOps) (count k0 : Nat) : Nat → Nat → State → State × Option Stop
  | 0, _, s => (s, none)
  | fuel + 1, k, s =>
    if count ≤ k then (s, none)
    else
      let n := f.width / 8
      let m := BitVec.ofNat 64 (n - 1)
      let dva := c.dst + BitVec.ofNat 64 (k * n)
      let sva := c.src + BitVec.ofNat 64 (k * n)
      match s.engAt p dva n .rmw with
      | .error e => (s, some { elem := k, va := dva, write := true, err := e })
      | .ok l =>
        if !(s.isDevUnder l || s.isPeer l) then (s, some { elem := k, va := dva, write := true, err := .access })
        else match s.readVa p (sva &&& ~~~m) n with
        | .error (_, e) => (s, some { elem := k, va := sva, write := false, err := e })
        | .ok bs =>
          let cs := (s.core p).chunks
          let join := match cs.getLast? with
            | some x => x.ord == ord && (dva &&& ~~~m).toNat % 128 != 0 && x.loc.add x.vals.length == l && !x.acked
                          && k != k0
            | none => false
          let s1 := if join then
              s.modCore p fun y => { y with chunks := y.chunks.dropLast ++
                (y.chunks.getLast?.map fun x => { x with vals := x.vals ++ bs }).toList }
            else s.modCore p fun y =>
              { y with seq := y.seq + 1,
                       chunks := y.chunks ++ [{ pcore := BitVec.ofNat 8 p.val, seq := y.seq, loc := l, fmt := c.fmt,
                                                rop := c.rop, vals := bs, ord := ord, sent := s.nanos,
                                                atHome := true, acked := false, elem := k }] }
          rcpyLoop p ord f c count k0 fuel (k + 1) (s1.usedSrc p n (.va (sva &&& ~~~m)))

/-- Every chunk a command has sent is acknowledged. -/
def State.chunksAcked (s : State) (p : CoreId) (ord : Nat) : Bool := (s.core p).chunks.all fun x => x.ord != ord || x.acked

/-- RCPY runs from its recorded element. A park or a fault at an element waits until the chunks below it are
acknowledged (R212). With every element sent it finishes once every chunk is. -/
def runRcpy (p : CoreId) (f : Flight) (c : RcpyOps) (s : State) : State :=
  match rcpyFmt c.fmt with
  | none => s
  | some fm =>
    let r := rcpyLoop p f.ord fm c (rcpyCount c) f.elem (rcpyCount c - f.elem) f.elem s
    let e := match r.2 with
      | some x => x.elem
      | none => rcpyCount c
    let s1 := (r.1.moved p (rcpyJob c) f.elem (e - f.elem)).modFlight p f.ord fun x =>
      { x with elem := e, ticket := none, waiting := false }
    if !s1.chunksAcked p f.ord then s1
    else match r.2 with
      | none => s1.copyDone p f c.tag
      | some x =>
        match x.err with
        | .page cause => (s1.noteFail p x.va).flightPark p f (if x.write then cPageStore else cPageLoad) cause x.va x.elem []
        | _ => (s1.noteFail p x.va).flightFault p f cAccess 0 x.va x.elem []

/-- Once the chunks a running RCPY has sent are acknowledged, it finishes or goes on from its element. -/
def State.rcpyDone (s : State) (p : CoreId) (ord : Nat) : State :=
  match (s.core p).flight? ord with
  | none => s
  | some f =>
    match decodeCmd f.words with
    | some (.rcpy _ c) => if f.ticket.isNone && !f.waiting && s.chunksAcked p ord then runRcpy p f c s else s
    | _ => s

def execRcpy (h : Hdr) (c : RcpyOps) (s : State) : Out :=
  .next (
    let p := s.sched.core
    command h
      { chk := orFault (!rcpyOk c) cIllegalCmd, ctr := c.ctr, inc := c.inc,
        can := fun u => (rcpyJob c).slotsOk u p, go := fun _ f => goOrWait p f (runRcpy p f c) } s)

def State.chunk? (s : State) (p : CoreId) (seq : W32) : Option Chunk :=
  (s.core p).chunks.find? fun x => x.seq == seq
def State.modChunk (s : State) (p : CoreId) (seq : W32) (f : Chunk → Chunk) : State :=
  s.modCore p fun c => { c with chunks := modFirst (fun x => x.seq == seq) f c.chunks }

/-- A chunk whose every link has gone is lost, and its command ends with ACCESS at its element (R374), once there is room
for the record (R313). -/
def State.loseChunk (s : State) (p : CoreId) (x : Chunk) : State :=
  if s.faultRoom (bentOf p) then
    let s1 := s.modCore p fun c => { c with chunks := eraseFirst (fun y => y.seq == x.seq) c.chunks }
    match (s.core p).flight? x.ord with
    | some f => if f.finished then s1 else s1.flightFault p f cAccess 0 (match x.loc with
        | .phys a => BitVec.ofNat 64 a
        | .spad _ => 0) x.elem []
    | none => s1
  else s

/-- CHUNK_APPLY: the home applies a chunk and records it, only acknowledges one it has recorded, and refuses one
while its window of 4,096 entries is full. -/
def execChunkApply (p : CoreId) (seq : W32) (s : State) : Out :=
  .next (match s.chunk? p seq with
    | none => s
    | some x =>
      if !x.atHome || s.formHeld x.loc then s
      else if s.isPeer x.loc && !s.reachableLoc x.loc && !x.acked then s.loseChunk p x
      else
        let u := s.homeUnit x.loc
        let s1 := s.modChunk p seq fun y => { y with atHome := false }
        if s.dedup.contains (u, x.pcore, x.seq) ∨ 4096 ≤ (s.dedup.filter fun d => d.1 == u).length then s1
        else match rcpyFmt x.fmt with
          | none => s1
          | some f =>
            { applyElems p f x.rop x.loc x.vals (x.vals.length / (f.width / 8)) s1 with
              dedup := (u, x.pcore, x.seq) :: s.dedup })

/-- CHUNK_RESEND: no acknowledgement within 10 µs. -/
def execChunkResend (p : CoreId) (seq : W32) (s : State) : Out :=
  .next (match s.chunk? p seq with
    | some x =>
      if !x.acked ∧ x.sent + 10000 ≤ s.nanos then s.modChunk p seq fun y => { y with atHome := true, sent := s.nanos }
      else s
    | none => s)

/-- CHUNK_ACKNOWLEDGEMENT: the acknowledgement of a recorded chunk reaches its issuer, after a freeze of
its core (R67). -/
def execChunkAcknowledgement (p : CoreId) (seq : W32) (s : State) : Out :=
  .next (match s.chunk? p seq with
    | some x =>
      if x.acked || s.stalled p then s
      else if s.isPeer x.loc && !s.reachableLoc x.loc then s.loseChunk p x
      else if s.dedup.contains (s.homeUnit x.loc, x.pcore, x.seq) then
        (s.modChunk p seq fun y => { y with acked := true }).rcpyDone p x.ord
      else s
    | none => s)

/-- ACKNOWLEDGEMENT_CONFIRMATION: the issuer's confirmation reaches the home, and the entry leaves its window. -/
def execAcknowledgementConfirmation (p : CoreId) (seq : W32) (s : State) : Out :=
  .next (match s.chunk? p seq with
    | some x =>
      if x.acked ∧ !x.atHome then
        { s.modCore p fun c => { c with chunks := eraseFirst (fun y => y.seq == seq) c.chunks } with
          dedup := s.dedup.filter (· != (s.homeUnit x.loc, x.pcore, x.seq)) }
      else s
    | none => s)

end Sys2Proof.Machine
end

