-- ==== Sys2Proof/Machine/Pod.lean ====
section
/-! DEFINITION. Pod streams (R220, R278, R279): subscriptions, the replay buffer, delivery into rings. -/

namespace Sys2Proof.Machine

def State.stream (s : State) (y : Fin 64) (n : BitVec 4) : PodStream := vget (s.bay y).pod n.toNat
def State.modStream (s : State) (y : Fin 64) (n : BitVec 4) (f : PodStream → PodStream) : State :=
  s.modBay y fun b => { b with pod := vmod b.pod n.toNat f }
def State.sub (s : State) (p : CoreId) (n : BitVec 4) : PodSub := vget (s.core p).pods n.toNat
def State.modSub (s : State) (p : CoreId) (n : BitVec 4) (f : PodSub → PodSub) : State :=
  s.modCore p fun c => { c with pods := vmod c.pods n.toNat f }

def bayCores (y : Fin 64) : List CoreId := [0, 1, 2, 3].map (coreOfBay y)

/-- The gang a core belongs to, by number. -/
def State.gangNo (s : State) (p : CoreId) : Option Nat := (s.core p).place.map (·.gang)

/-- The core that holds logical index `i` of gang `g`. -/
def State.member (s : State) (g : Option Nat) (i : Byte) : Option CoreId :=
  ((g.bind s.gang?).map (·.cores)).getD [] |>.find? fun q => match (s.core q).place with
    | some pl => g == some pl.gang && pl.lidx == i
    | none => false

def allBays : List (Fin 64) := (List.range 64).map fun i => ⟨i % 64, by omega⟩

/-- The bays in whose Pods stream `n` serves the gang of a core: its own, and after a restore others (R322). -/
def State.streamBays (s : State) (p : CoreId) (n : BitVec 4) : List (Fin 64) :=
  match s.gangNo p with
  | none => []
  | some g => allBays.filter fun y => (s.stream y n).gang == some g

/-- A stream no core subscribes to, whose buffer is empty and which no pre-empted core holds, is unbound (R220). -/
def State.unbind (s : State) (y : Fin 64) (n : BitVec 4) : State :=
  let x := s.stream y n
  let held := s.launch.pre.any fun e =>
    x.gang == some e.gang.id && e.saved.any fun z => bayOf z.1 == y && (vget z.2.pods n.toNat).valid
  if x.rows.isEmpty && !held && (bayCores y).all fun q => !(s.sub q n).valid then
    s.modStream y n fun z => { z with gang := none }
  else s

/-- Rows accepted for a core and not yet delivered: buffered ones, and those of the CPYPs started for it. -/
def State.podOwes (s : State) (p : CoreId) (n : BitVec 4) : Bool :=
  let i := ((s.core p).place.map (·.lidx)).getD 0
  (s.streamBays p n).any fun y =>
    (s.stream y n).rows.any (fun r => r.dest.contains i) ||
      (s.stream y n).feed.any fun f => match (s.core f.1).flight? f.2 with
        | some g => g.subs.contains i.toNat
        | none => false

/-- A subscription that PUNS is ending ends once nothing is owed to it, and the PUNS finishes. -/
def State.endSub (s : State) (p : CoreId) (n : BitVec 4) : State :=
  let y := s.sub p n
  if y.valid && y.closing && !s.podOwes p n then
    let s1 := (s.modSub p n fun x => { x with valid := false, closing := false }).unbind (bayOf p) n
    let mine := (s.core p).flights.filter fun f =>
      !f.finished && !f.waiting && match decodeCmd f.words with
        | some (.puns _ k) => k == n
        | _ => false
    mine.foldl (fun t f => t.finish p f.ord) s1
  else s

/-! ### Subscribing -/

def psubOk (c : PsubOps) (s : State) (p : CoreId) : Bool :=
  let x := s.stream (bayOf p) c.strm
  decide (1 ≤ c.rows.toNat ∧ c.rows.toNat ≤ 16384 ∧ c.ring.toNat % 128 = 0
    ∧ c.ring.toNat + 128 * c.rows.toNat ≤ spadSize) && !(s.sub p c.strm).valid && (x.gang.isNone || x.gang == s.gangNo p)

/-- A started PSUB subscribes its core; where it waited behind another of its class, its check is made again. -/
def State.psubGo (s : State) (p : CoreId) (c : PsubOps) (f : Flight) : State :=
  if psubOk c s p then
    ((s.modStream (bayOf p) c.strm fun x => { x with gang := s.gangNo p }).modSub p c.strm fun _ =>
      { valid := true, rows := c.rows.toNat, ring := c.ring.toNat }).finish p f.ord
  else s.flightFault p f cIllegalCmd 0 0 0 []

def execPsub (h : Hdr) (c : PsubOps) (s : State) : Out :=
  .next (command h
    { chk := orFault (!psubOk c s s.sched.core) cIllegalCmd,
      go := fun _ f t => goOrWait t.sched.core f (fun u => u.psubGo t.sched.core c f) t } s)

/-- A started PUNS ends its core's subscription once nothing is owed to it, or finishes where there is none. -/
def State.punsGo (s : State) (p : CoreId) (strm : BitVec 4) (f : Flight) : State :=
  if (s.sub p strm).valid then (s.modSub p strm fun x => { x with closing := true }).endSub p strm
  else s.finish p f.ord

def execPuns (h : Hdr) (strm : BitVec 4) (s : State) : Out :=
  .next (command h
    { go := fun _ f t => goOrWait t.sched.core f (fun u => u.punsGo t.sched.core strm f) t } s)

/-! ### Feeding the buffer -/

def State.dropFeed (s : State) (y : Fin 64) (n : BitVec 4) : State :=
  s.modStream y n fun x => { x with feed := x.feed.tail }

/-- A CPYP finishes when every row of it stands in every ring, but not in a freeze of its core (R67). -/
def State.cpypDone (s : State) (p : CoreId) (ord : Nat) : State :=
  match (s.core p).flight? ord with
  | none => s
  | some f =>
    match decodeCmd f.words with
    | some (.cpyp _ c) =>
      let left := (s.streamBays p c.strm).any fun y =>
        (s.stream y c.strm).rows.any fun r => r.pcore == p && r.ord == ord
      if f.finished ∨ f.waiting ∨ left ∨ f.elem < c.len.toNat / 128 ∨ s.stalled p then s else s.copyDone p f c.tag
    | _ => s

/-- The CPYPs of a bay's cores on a stream that have come to their finish. -/
def State.cpypsDone (s : State) (y : Fin 64) (n : BitVec 4) : State :=
  (bayCores y).foldl (fun t p =>
    ((t.core p).flights.filter fun f => !f.finished && match decodeCmd f.words with
      | some (.cpyp _ c) => c.strm == n
      | _ => false).foldl (fun u f => u.cpypDone p f.ord) t) s

/-- The oldest CPYP of a stream reads its rows while the stream holds fewer than 256, then the next CPYP. -/
def State.feedStream (s : State) (y : Fin 64) (n : BitVec 4) : Nat → State
  | 0 => s
  | fuel + 1 =>
    match (s.stream y n).feed with
    | [] => s
    | (p, ord) :: _ =>
      if ((s.stream y n).gang.bind s.gang?).isNone || s.halted p || s.stalled p || s.changing
          || !s.faultRoom (bentOf p) then s
      else match (s.core p).flight? ord with
      | none => State.feedStream (s.dropFeed y n) y n fuel
      | some f =>
        match decodeCmd f.words with
        | some (.cpyp _ c) =>
          if c.len.toNat / 128 ≤ f.elem then State.feedStream ((s.dropFeed y n).cpypDone p ord) y n fuel
          else if f.ticket.isSome ∨ f.waiting ∨ 256 ≤ (s.stream y n).rows.length then s
          else
            let va := c.src + BitVec.ofNat 64 (128 * f.elem)
            match s.readVa p (va &&& ~~~127#64) 128 with
            | .ok bs =>
              let row : PodRow := { data := vecOfBytes bs, dest := f.subs.map (BitVec.ofNat 8), ord := ord, pcore := p }
              State.feedStream (((s.modStream y n fun x =>
                { x with rows := if f.subs.isEmpty then x.rows else x.rows ++ [row] }).modFlight p ord
                (fun g => { g with elem := g.elem + 1 })).usedSrc p 128 (.va (va &&& ~~~127#64))) y n fuel
            | .error (_, .page cause) => (s.noteFail p va).flightPark p f cPageLoad cause va f.elem []
            | .error (_, _) =>
              State.feedStream (((s.dropFeed y n).noteFail p va).flightFault p f cAccess 0 va f.elem []) y n fuel
        | _ => State.feedStream (s.dropFeed y n) y n fuel

/-- The pages of the rows a CPYP of the feed has read since state `s` are noted (R105), and its lines counted (R357). -/
def State.noteFed (s t : State) (x : CoreId × Nat) : State :=
  match (s.core x.1).flight? x.2 with
  | none => t
  | some f =>
    match decodeCmd f.words with
    | some (.cpyp _ c) =>
      let to' := match (t.core x.1).flight? x.2 with
        | some g => g.elem
        | none => c.len.toNat / 128
      let vas := (List.range (to' - f.elem)).map fun i => c.src + BitVec.ofNat 64 (128 * (f.elem + i))
      (t.noteAll x.1 (heads 12 vas)).count x.1 0x0C vas.length
    | _ => t

/-- A stream's CPYPs read on as far as its buffer takes their rows. -/
def State.feed (s : State) (y : Fin 64) (n : BitVec 4) : State :=
  (s.stream y n).feed.foldl (fun t x => s.noteFed t x) (s.feedStream y n 1024)

/-- A CPYP goes on: with nothing to read it finishes, else its stream's rows are read. -/
def runCpyp (p : CoreId) (f : Flight) (c : CpypOps) (s : State) : State :=
  if cpypEmpty f.subs c then s.copyDone p f c.tag else s.feed (bayOf p) c.strm

/-- The logical indices of the cores of its own gang that are subscribed as a CPYP of core `p` starts, one whose PUNS
still waits among them. -/
def State.subscribers (s : State) (p : CoreId) (n : BitVec 4) : List Nat :=
  if (s.stream (bayOf p) n).gang.isNone || (s.stream (bayOf p) n).gang != s.gangNo p then []
  else (bayCores (bayOf p)).filterMap fun q =>
    match (s.core q).place with
    | some pl => if some pl.gang = s.gangNo p ∧ (s.sub q n).valid then some pl.lidx.toNat else none
    | none => none

def execCpyp (h : Hdr) (c : CpypOps) (s : State) : Out :=
  .next (command h
    { chk := orFault (c.len.toNat % 128 != 0) cIllegalCmd, ctr := c.ctr, inc := c.inc,
      can := fun t =>
        cpypEmpty (t.subscribers t.sched.core c.strm) c || (cpypJob c).slotsOk t t.sched.core,
      go := fun _ f t =>
        let p := t.sched.core
        let subs := t.subscribers p c.strm
        let t1 := t.modFlight p f.ord fun x => { x with subs := subs }
        goOrWait p { f with subs := subs } (runCpyp p { f with subs := subs } c) (if cpypEmpty subs c then t1 else
          t1.modStream (bayOf p) c.strm fun x => { x with feed := x.feed ++ [(p, f.ord)] }) } s)

/-! ### Delivery -/

/-- The first row that its first waiting subscriber's window admits: its index and the core. -/
def State.deliverable (s : State) (y : Fin 64) (n : BitVec 4) : List Byte → Nat → List PodRow → Option (Nat × CoreId × Byte)
  | _, _, [] => none
  | seen, k, r :: t =>
    match r.dest.findSome? fun i =>
      if seen.contains i then none
      else match s.member (s.stream y n).gang i with
        | some q =>
          let u := s.sub q n
          if u.valid && decide (u.win < u.rows) && !s.stalled q && !s.halted q then some (q, i) else none
        | none => none with
    | some (q, i) => some (k, q, i)
    | none => State.deliverable s y n (seen ++ r.dest) (k + 1) t

/-- POD_ROW_DELIVERY: one buffered row written into one subscriber's ring, each subscriber's rows in order; a row
leaves the buffer once it stands in every ring, and the stream's CPYPs read on. -/
def execPodRowDelivery (y : Fin 64) (n : BitVec 4) (s : State) : Out :=
  .next (match s.deliverable y n [] 0 (s.stream y n).rows with
    | none => (s.feed y n).cpypsDone y n
    | some (k, q, i) =>
      match (s.stream y n).rows[k]? with
      | none => s
      | some r =>
        let u := s.sub q n
        let l := Loc.spad (u.ring + 128 * ((u.rpos + u.win) % u.rows))
        let s1 := (s.writeLoc q l (vecBytes r.data)).grant q 1 l 128
        let s2 := s1.modSub q n fun x => { x with win := x.win + 1 }
        let s3 := s2.modStream y n fun x =>
          { x with rows := (lmod k (fun z => { z with dest := z.dest.erase i }) x.rows).filter fun z => !z.dest.isEmpty }
        let s4 := (s3.feed y n).cpypDone r.pcore r.ord
        (s4.endSub q n).unbind y n)

/-- Rows of one Pod's stream for a core are dropped. -/
def State.dropRows (p : CoreId) (n : BitVec 4) (s : State) (y : Fin 64) : State :=
  let i := ((s.core p).place.map (·.lidx)).getD 0
  let owed := (s.stream y n).rows.map fun r => (r.pcore, r.ord)
  let s1 := s.modStream y n fun x =>
    { x with rows := (x.rows.map fun z => { z with dest := z.dest.erase i }).filter fun z => !z.dest.isEmpty }
  let s2 := (s1.stream y n).feed.foldl (fun u f => u.modFlight f.1 f.2 fun g =>
    { g with subs := g.subs.filter (· != i.toNat) }) s1
  (owed.foldl (fun u o => u.cpypDone o.1 o.2) (s2.feed y n)).unbind y n

/-- Rows for a core that retires, switches stage or is fenced are dropped, and its subscriptions end (R278). -/
def State.dropSubs (s : State) (p : CoreId) : State :=
  (List.range 16).foldl (fun t k =>
    let n := BitVec.ofNat 4 k
    if (t.sub p n).valid then (t.streamBays p n).foldl (State.dropRows p n) (t.modSub p n fun _ => {}) else t) s

/-- Every stream of a gang that is gone. -/
def State.dropStreams (s : State) (gid : Nat) : State :=
  { s with bays := vmap (fun b => { b with pod := vmap (fun x => if x.gang = some gid then {} else x) b.pod }) s.bays }

end Sys2Proof.Machine
end

