-- ==== Sys2Proof/Machine/Matrix.lean ====
section
/-! DEFINITION. The matrix engine (R269–R291). -/

namespace Sys2Proof.Machine

/-! ### Formats and blocks (R270–R272) -/

/-- Quadrants a mask selects, ascending. -/
def quads (qm : BitVec 4) : List Nat := [0, 1, 2, 3].filter fun q => qm.getLsbD q

def isMx (c : BitVec 4) : Bool := c == 8
def isInt8 (f : MFmt) : Bool := f.afmt == 0

/-- The accepted pairs of R270. -/
def pairOk (a b : BitVec 4) : Bool :=
  match a.toNat, b.toNat with
  | 8, 8 | 6, 6 | 6, 7 | 7, 6 | 7, 7 | 5, 5 | 0, 0 => true
  | _, _ => false

/-- Bytes of 128 elements: SEGB of A, KB of B. -/
def bytes128 (c : BitVec 4) : Nat := if c = 5 then 256 else if c = 8 then 64 else 128

/-- Rows of an A block in a ring, scale row included. -/
def aRowsOf (f : MFmt) : Nat := 8 * bytes128 f.afmt / 128 + if isMx f.afmt then 1 else 0
/-- Element rows of one quadrant of a B block. -/
def bRowsQ (f : MFmt) (kstep : Nat) : Nat := kstep * bytes128 f.bfmt / 128
def sRowsQ (f : MFmt) (kstep : Nat) : Nat := if isMx f.bfmt then kstep / 32 else 0
def bRowsOf (f : MFmt) (kstep : Nat) (qm : BitVec 4) : Nat := (quads qm).length * (bRowsQ f kstep + sRowsQ f kstep)

/-- Byte `i` of an array of rows. -/
def rowByte (rows : Array Vec) (i : Nat) : Byte := vecByte (rows.getD (i / 128) 0) (i % 128)

/-- The scratchpad offset of `n` bytes that lie wholly in the window. -/
def spadAt (va : Word) (n : Nat) : Option Nat :=
  if spadBase ≤ va.toNat ∧ va.toNat + n ≤ spadBase + spadSize then some (va.toNat - spadBase) else none

def State.spadVec (s : State) (p : CoreId) (o : Nat) : Vec := toVec (leNat (s.core p).scratch.get o 128)

/-- Scratchpad offsets of the rows of a list of (address, bytes) ranges, if every byte lies in the window. -/
def spadRows : List (Word × Nat) → Option (List Nat)
  | [] => some []
  | (a, n) :: t =>
    match spadAt a n, spadRows t with
    | some o, some l => some ((List.range ((n + 127) / 128)).map (fun i => o + 128 * i) ++ l)
    | _, _ => none

/-- Address ranges of the element rows and the scale rows of a B block. -/
def bRanges (f : MFmt) (kstep : Nat) (qm : BitVec 4) (b : Word) : List (Word × Nat) :=
  (quads qm).map fun q => (b + BitVec.ofNat 64 (q * 128 * bytes128 f.bfmt), kstep * bytes128 f.bfmt)
def sRanges (f : MFmt) (kstep : Nat) (qm : BitVec 4) (sb : Word) : List (Word × Nat) :=
  if isMx f.bfmt then (quads qm).map fun q => (sb + BitVec.ofNat 64 (512 * q), 128 * (kstep / 32)) else []

/-! ### Elements -/

/-- Element k of row r of an A block, in plane order (R271). -/
def aElem (f : MFmt) (rows : Array Vec) (r k : Nat) : Nat :=
  let w := bytes128 f.afmt / 16
  planeElem w (fun i => rowByte rows (r * bytes128 f.afmt + i)) k

/-- Cell (κ, n) of the quadrant whose rows begin at `base` (R272). -/
def bElem (f : MFmt) (rows : Array Vec) (base κ n : Nat) : Nat :=
  let o := base * 128 + κ * bytes128 f.bfmt
  match f.bfmt.toNat with
  | 8 => packedElem 4 (rowByte rows) o n
  | 5 => leNat (rowByte rows) (o + 2 * n) 2
  | _ => (rowByte rows (o + n)).toNat

/-- The value of an E8M0 scale less its element's, as a factor of a sum (R72, R88). -/
def scaleBy (b : Byte) (v : Val) : Val := if b = 0xFF then .nan else v.scale ((b.toNat : Int) - 127)

/-- One floating group of R88: `a` and `b` its elements, `sc` its scales. -/
def groupFp (fo : Bool) (acc : W32) (prods : List (Val × Val)) (sc : List Byte) : W32 :=
  let sum := prods.foldl (fun t x => Val.add false t (Val.mul x.1 x.2)) (.fin false 0 0)
  let v := sc.foldl (fun t b => scaleBy b t) sum
  BitVec.ofNat 32 (Fmt.fp32.encode .nearest false fo 0 (Val.add false (Fmt.fp32.decode acc.toNat) v))

/-- One group of R89. -/
def groupInt (sat : Bool) (acc : W32) (prods : List (Int × Int)) : W32 :=
  BitVec.ofNat 32 (encodeInt true 32 sat ((prods.map fun x => x.1 * x.2).sum + decodeInt true 32 acc.toNat))

/-- An accumulator row as its elements, and back. -/
def accElem (row : BitVec 4096) (n : Nat) : W32 := row.extractLsb' (32 * n) 32
def accRow (l : List W32) : BitVec 4096 := BitVec.ofNat 4096 (l.foldr (fun x t => x.toNat + 2 ^ 32 * t) 0)

/-- The new value of acc_q[8g + r, n] after the step's groups, in increasing k. -/
def stepElem (f : MFmt) (kstep : Nat) (aRows aSc bRows bSc : Array Vec) (base sbase r n : Nat) (acc : W32) : W32 :=
  (List.range (kstep / 32)).foldl (fun t kg =>
    let ks := (List.range 32).map fun j => 32 * kg + j
    if isInt8 f then
      groupInt f.sat t (ks.map fun k => (decodeInt true 8 (aElem f aRows r k), decodeInt true 8 (bElem f bRows base k n)))
    else
      let fa := (Fmt.ofCode f.afmt).getD .e4m3
      let fb := (Fmt.ofCode f.bfmt).getD .e4m3
      groupFp f.fo t (ks.map fun k => (fa.flushIn f.fi (aElem f aRows r k), fb.flushIn f.fi (bElem f bRows base k n)))
        (if isMx f.afmt then [rowByte aSc (4 * r + kg), rowByte bSc (128 * (sbase + kg) + n)] else [])) acc

/-- One step on row group `g` of every active quadrant (R274). -/
def Me.applyStep (m : Me) (qm : BitVec 4) (g : Nat) (aRows aSc : Array Vec) (bank : Bank) : Me :=
  let k := m.kstep.toNat
  let put := fun (acc : Vector (Vector (BitVec 4096) 128) 4) (x : Nat × Nat) =>
    vmod acc x.1 fun tile => (List.range 8).foldl (fun t r =>
      vmod t (8 * g + r) fun row => accRow ((List.range 128).map fun n =>
        stepElem m.fmt k aRows aSc bank.rows bank.scales (x.2 * bRowsQ m.fmt k) (x.2 * sRowsQ m.fmt k) r n
          (accElem row n))) tile
  { m with acc := ((quads qm).zipIdx).foldl put m.acc }

/-! ### The nest (R273, R274) -/

def nestCnt (t : Vector Word 48) (j : Nat) : Nat := (vget t (8 * j)).toNat % 65536
def nestWord (t : Vector Word 48) (j w : Nat) : Word := vget t (8 * j + w)

/-- Base + Σ ij × stride, modulo 2^64. -/
def nestSum (t : Vector Word 48) (w : Nat) (base : Word) : Nat → List Nat → Word
  | _, [] => base
  | j, i :: is => nestSum t w (base + BitVec.ofNat 64 i * nestWord t j w) (j + 1) is

/-- The next tuple counting at levels from `j` up, or none after the last. -/
def nestNext (t : Vector Word 48) : Nat → List Nat → Option (List Nat)
  | _, [] => none
  | j, i :: is => if i < nestCnt t j then some ((i + 1) :: is) else (nestNext t (j + 1) is).map fun r => 0 :: r

structure StepAddr where
  a : Word
  b : Word
  sa : Word
  sb : Word
  g : Nat

def Me.stepAddr (m : Me) (c : MGoOps) (idx : List Nat) : StepAddr :=
  let mx := isMx m.fmt.afmt
  { a := nestSum m.active 1 c.a 0 idx, b := nestSum m.active 2 c.b 0 idx,
    sa := if mx then nestSum m.active 4 c.sa 0 idx else 0, sb := if mx then nestSum m.active 5 c.sb 0 idx else 0,
    g := (nestSum m.active 3 (c.c.setWidth 64) 0 idx).toNat % 16 }

/-- Inner levels that cannot change the B block: the lowest level with a B or SB stride. -/
def bLevel (m : Me) : Nat → Nat → Nat
  | j, 0 => j
  | j, n + 1 => if nestWord m.active j 2 = 0 ∧ nestWord m.active j 5 = 0 then bLevel m (j + 1) n else j

/-- The next tuple with inner levels below `l` at 0. -/
def nestSkip (t : Vector Word 48) (l : Nat) (idx : List Nat) : Option (List Nat) :=
  (nestNext t l (idx.drop l)).map fun r => List.replicate (min l idx.length) 0 ++ r

/-- The next tuple whose (b, sb) differs from `cur` (R275). -/
def Me.nextDiff (m : Me) (c : MGoOps) (cur : Word × Word) : Nat → List Nat → Option (List Nat)
  | 0, _ => none
  | fuel + 1, idx =>
    match nestSkip m.active (bLevel m 0 idx.length) idx with
    | none => none
    | some i =>
      let x := m.stepAddr c i
      if (x.b, x.sb) = cur then Me.nextDiff m c cur fuel i else some i

def Me.steps! (m : Me) (n : Nat) : Nat := ((List.range n).map fun j => nestCnt m.active j + 1).prod

/-- The block after the one at `idx`, if the nest has one. -/
def Me.blockAfter (m : Me) (c : MGoOps) (idx : List Nat) : Option (List Nat) :=
  let x := m.stepAddr c idx
  m.nextDiff c (x.b, x.sb) (m.steps! idx.length) idx

/-- The identity of a block; off MXFP4 there is no scale address (R274, R275). -/
def Me.idOf (m : Me) (qm : BitVec 4) (b sb : Word) : BlockId :=
  { b := b, sb := if isMx m.fmt.bfmt then sb else 0, qm := qm, kstep := m.kstep, fmt := m.fmt }

def Me.inactive (m : Me) : Fin 2 := m.act + 1
def Me.spare (m : Me) : Bank := vget m.banks m.inactive.val
def Me.cur (m : Me) : Bank := vget m.banks m.act.val

/-! ### Rings (R279) -/

/-- The rows of a ring from RPOS on. -/
def State.ringRows (s : State) (p : CoreId) (n : BitVec 4) (k : Nat) : List Vec :=
  let u := s.sub p n
  (List.range k).map fun i => s.spadVec p (u.ring + 128 * ((u.rpos + i) % u.rows))

def PodSub.consume (u : PodSub) (k : Nat) : PodSub := { u with win := u.win - k, rpos := (u.rpos + k) % u.rows }
def State.consume (s : State) (p : CoreId) (n : BitVec 4) (k : Nat) : State :=
  if k = 0 then s else s.modSub p n fun u => u.consume k

/-- A ring condition of R279 at a start: a subscription with room for one block. -/
def State.ringOk (s : State) (p : CoreId) (n : BitVec 4) (k : Nat) : Bool :=
  (s.sub p n).valid && decide (k ≤ (s.sub p n).rows)

/-! ### Blocks taken -/

/-- A block taken, or why it is not: it waits, or the step faults. -/
inductive Take where
  | got (rows scales : List Vec)
  | wait (ring : Bool)
  | fault (code : Byte) (va : Word)
deriving DecidableEq, Repr, Inhabited

/-- The first row of some ranges that does not lie in the window: the address a fault names (R314). -/
def badRow : List (Word × Nat) → Option Word
  | [] => none
  | (a, n) :: t =>
    (((List.range ((n + 127) / 128)).find? fun i =>
      (spadAt (a + BitVec.ofNat 64 (128 * i)) (min 128 (n - 128 * i))).isNone).map fun i =>
        a + BitVec.ofNat 64 (128 * i)).or (badRow t)

/-- Ranges as their row accesses take them: each ignores the address bits below its size, a row of 128 bytes or a range
of fewer (R98, R108). -/
def rowAligned (l : List (Word × Nat)) : List (Word × Nat) :=
  l.map fun x => (x.1 &&& ~~~(BitVec.ofNat 64 (min 128 x.2 - 1)), x.2)

/-- A block read from the scratchpad: elements `e0`, scales `z0`, addresses in the window, slots readable (R290). -/
def State.takeAt (s : State) (p : CoreId) (e0 z0 : List (Word × Nat)) : Take :=
  let e := rowAligned e0
  let z := rowAligned z0
  match spadRows e, spadRows z with
  | some re, some rz =>
    if (e ++ z).all fun x => s.slotReadable p (.spad (x.1.toNat - spadBase)) x.2 then .got (re.map (s.spadVec p)) (rz.map (s.spadVec p))
    else .wait false
  | _, _ => .fault cAccess ((badRow (e ++ z)).getD 0)

/-- A block of `k` element rows and `z` scale rows from a ring. -/
def State.takeRing (s : State) (p : CoreId) (n : BitVec 4) (k z : Nat) : Take :=
  let u := s.sub p n
  if k + z ≤ u.win then
    let r := s.ringRows p n (k + z)
    if (List.range (k + z)).all fun i => s.slotReadable p (.spad (u.ring + 128 * ((u.rpos + i) % u.rows))) 128 then
      .got (r.take k) (r.drop k)
    else .wait false
  else if u.valid then .wait true
  else .fault cIllegalCmd 0

/-- The scratchpad rows of a block that is taken: `k` rows of a ring, or the rows of some ranges. -/
def State.blockRows (s : State) (p : CoreId) (ring : Option (BitVec 4)) (k : Nat) (e : List (Word × Nat)) : List Nat :=
  match ring with
  | some n => (List.range k).map fun i => (s.sub p n).ring + 128 * (((s.sub p n).rpos + i) % (s.sub p n).rows)
  | none => (spadRows (rowAligned e)).getD []

/-- The banks grant them to the ME, row by row (R98). -/
def State.grantRows (s : State) (p : CoreId) (rows : List Nat) : State :=
  rows.foldl (fun t o => t.grant p 2 (.spad o) 128) s

/-- A range of fewer than 128 bytes is read as one row from its first byte. -/
def State.takeA (s : State) (p : CoreId) (f : MFmt) (a sa : Word) : Take :=
  let k := 8 * bytes128 f.afmt
  if f.apod then s.takeRing p f.astrm (k / 128) (if isMx f.afmt then 1 else 0)
  else s.takeAt p [(a, k)] (if isMx f.afmt then [(sa, 32)] else [])

def State.takeB (s : State) (p : CoreId) (f : MFmt) (kstep : Nat) (qm : BitVec 4) (pod : Bool) (b sb : Word) : Take :=
  if pod then s.takeRing p f.bstrm ((quads qm).length * bRowsQ f kstep) ((quads qm).length * sRowsQ f kstep)
  else s.takeAt p (bRanges f kstep qm b) (sRanges f kstep qm sb)

/-- The A block at an address has been read; the B block. -/
def State.readA (s : State) (p : CoreId) (f : MFmt) (a sa : Word) (k : Nat) : State :=
  s.grantRows p (s.blockRows p (if f.apod then some f.astrm else none) k
    ((a, 8 * bytes128 f.afmt) :: if isMx f.afmt then [(sa, 32)] else []))

def State.readB (s : State) (p : CoreId) (f : MFmt) (kstep : Nat) (qm : BitVec 4) (pod : Bool) (b sb : Word) (k : Nat) : State :=
  s.grantRows p (s.blockRows p (if pod then some f.bstrm else none) k (bRanges f kstep qm b ++ sRanges f kstep qm sb))

/-! ### MGO steps (R274, R275, R289) -/

/-- Whether the current step's B block is not the active one. -/
def MRun.needB (r : MRun) (x : StepAddr) : Bool := r.first || r.prevB != (x.b, x.sb)
def MRun.needA (r : MRun) (x : StepAddr) : Bool := r.first || r.prevA != (x.a, x.sa)

/-- Whether the inactive bank holds a block of the run at an address: one fed from a ring only where the run has loaded
it ahead, for its address only tells blocks apart (R279). -/
def Me.spareHas (m : Me) (r : MRun) (b sb : Word) : Bool :=
  if m.fmt.bpod then r.ahead else m.spare.id == some (m.idOf r.c.qm b sb)

/-- Whether the inactive bank serves the current step: it holds the block, or the first step of `mgo.pre` takes it. -/
def Me.spareServes (m : Me) (r : MRun) (x : StepAddr) : Bool :=
  m.spareHas r x.b x.sb || (r.first && r.c.pre && m.pre)

/-- The MGO ends by a fault at its step. -/
def State.mgoFault (s : State) (p : CoreId) (r : MRun) (code : Byte) (va : Word) : State :=
  let s1 := match (s.core p).flight? r.ord with
    | some f => s.flightFault p f code 0 va (s.me p).steps.toNat []
    | none => s
  (s1.consume p (s.me p).fmt.astrm (if (s.me p).fmt.apod then r.aHeld else 0)).modMe p fun m =>
    { m with run := none, bwait := false, podw := false }

/-- The step's blocks stand: it accumulates, and the nest moves on. -/
def State.mgoApply (s : State) (p : CoreId) (r : MRun) (x : StepAddr) (aRows aSc : Array Vec) (held : Nat) : State :=
  let m := s.me p
  let m1 := if r.needB x then { m with act := m.inactive, pre := false } else m
  let m2 := m1.applyStep r.c.qm x.g aRows aSc m1.cur
  let r1 := { r with first := false, prevB := (x.b, x.sb), prevA := (x.a, x.sa), aRows := aRows, aScales := aSc,
                     aHeld := held, lastB := r.lastB || (m.blockAfter r.c r.idx).isNone,
                     ahead := r.ahead && !r.needB x }
  let st := if m.steps = 0xFFFFFFFF#32 then m.steps else m.steps + 1
  let m3 := { m2 with steps := st, bwait := false, podw := false }
  match nestNext m.active 0 r.idx with
  | some i => (s.modMe p fun _ => { m3 with run := some { r1 with idx := i } }).count p 0x0D 1
  | none =>
    ((s.modMe p fun _ => { m3 with run := none }).consume p m.fmt.astrm (if m.fmt.apod then held else 0)).count p 0x0D 1
      |>.finish p r.ord

/-- The ring rows of the last A block are consumed as the step turns to its next one (R279). -/
def State.dropA (s : State) (p : CoreId) (r : MRun) : State :=
  if (s.me p).fmt.apod && r.aHeld != 0 then
    (s.consume p (s.me p).fmt.astrm r.aHeld).modMe p fun y => { y with run := some { r with aHeld := 0 } }
  else s

/-- One attempt at the MGO's next step: its B block first, then its A block. -/
def State.mgoStep (s : State) (p : CoreId) (r : MRun) : State :=
  let m := s.me p
  let x := m.stepAddr r.c r.idx
  let waits := fun (t : State) (b pod : Bool) => t.modMe p fun y => { y with bwait := b, podw := pod }
  if r.needB x && !m.spareServes r x then
    match s.takeB p m.fmt m.kstep.toNat r.c.qm m.fmt.bpod x.b x.sb with
    | .fault code va => s.mgoFault p r code va
    | .wait ring => waits s true ring
    | .got _ _ => waits s true false
  else if r.needA x then
    let t := s.dropA p r
    let r1 := if m.fmt.apod then { r with aHeld := 0 } else r
    match t.takeA p m.fmt x.a x.sa with
    | .fault code va => t.mgoFault p r1 code va
    | .wait ring => waits t false ring
    | .got rows sc =>
      (t.readA p m.fmt x.a x.sa (rows.length + sc.length)).mgoApply p r1 x rows.toArray sc.toArray (if m.fmt.apod then rows.length + sc.length else 0)
  else s.mgoApply p r x r.aRows r.aScales r.aHeld

/-! ### Loads of B blocks (R275, R277, R284) -/

/-- A block put into the inactive bank. -/
def Me.load (m : Me) (id : BlockId) (rows sc : List Vec) (pre : Bool) : Me :=
  { m with banks := vset m.banks m.inactive.val { id := some id, rows := rows.toArray, scales := sc.toArray }, pre := pre }

/-- The step whose block is to be loaded next: the current one's, or the next that differs. -/
def Me.loadFor (m : Me) (r : MRun) : Option (List Nat) :=
  let x := m.stepAddr r.c r.idx
  let want := if r.needB x then (if m.spareServes r x then none else some r.idx) else m.blockAfter r.c r.idx
  want.bind fun i =>
    let y := m.stepAddr r.c i
    if m.spareHas r y.b y.sb then none else some i

/-- The MGO's address generator loads a block, the current step's (`cur`) or the next one's; a block that waits or faults
is left to its step. -/
def State.loadAhead (s : State) (p : CoreId) (r : MRun) : State :=
  let m := s.me p
  match m.loadFor r with
  | none => s
  | some i =>
    let y := m.stepAddr r.c i
    let cur := r.needB (m.stepAddr r.c r.idx)
    match s.takeB p m.fmt m.kstep.toNat r.c.qm m.fmt.bpod y.b y.sb with
    | .got rows sc =>
      ((s.readB p m.fmt m.kstep.toNat r.c.qm m.fmt.bpod y.b y.sb (rows.length + sc.length)).consume p m.fmt.bstrm
        (if m.fmt.bpod then rows.length + sc.length else 0)).modMe p fun z =>
        { z.load (m.idOf r.c.qm y.b y.sb) rows sc false with
          run := some { r with lastB := (m.blockAfter r.c i).isNone, ahead := true },
          bwait := z.bwait && !cur, podw := z.podw && !cur }
    | _ => s

/-- The MBLD loads once the running MGO's last block has become active. -/
def Me.bldMay (m : Me) : Bool :=
  match m.run with
  | none => true
  | some r => let x := m.stepAddr r.c r.idx; !r.needB x && (m.blockAfter r.c r.idx).isNone

def State.loadMbld (s : State) (p : CoreId) (ord : Nat) (c : MBldOps) : State :=
  let m := s.me p
  match s.takeB p m.fmt m.kstep.toNat c.qm c.pod c.src c.ssrc with
  | .got rows sc =>
    (((s.readB p m.fmt m.kstep.toNat c.qm c.pod c.src c.ssrc (rows.length + sc.length)).consume p m.fmt.bstrm
      (if c.pod then rows.length + sc.length else 0)).modMe p fun z =>
      { z.load (m.idOf c.qm c.src c.ssrc) rows sc true with bld := none, bldw := false }).finish p ord
  | .wait ring => s.modMe p fun z => { z with bldw := ring }
  | .fault code va =>
    match (s.core p).flight? ord with
    | some f => (s.flightFault p f code 0 va 0 []).modMe p fun z => { z with bld := none, bldw := false }
    | none => s

/-- B_BLOCK_LOAD: the next B block into the inactive banks, for the running MGO or for an MBLD. -/
def execBBlockLoad (p : CoreId) (s : State) : Out :=
  .next (if s.stalled p || s.halted p || !s.faultRoom (bentOf p) then s
    else match (s.me p).run, (s.me p).bld with
      | r, some (ord, c) =>
        if (s.me p).bldMay then s.loadMbld p ord c
        else match r with
          | some x => s.loadAhead p x
          | none => s
      | some r, none => s.loadAhead p r
      | none, none => s)

/-! ### Commands -/

/-- MFMT's check of its word (R270, R281). -/
def mfmtOk (f : MFmt) : Bool :=
  pairOk f.afmt f.bfmt && (if isInt8 f then !f.fi && !f.fo else !f.sat) && (f.apod || f.astrm == 0) && (f.bpod || f.bstrm == 0)

def execMfmt (h : Hdr) (f : MFmt) (s : State) : Out :=
  .next (command h
    { chk := orFault (!mfmtOk f) cIllegalCmd,
      go := fun _ g t =>
        (t.modMe t.sched.core fun m =>
          { m with fmt := f, pre := false, banks := vmap (fun b => { b with id := none }) m.banks }).finish t.sched.core g.ord } s)

def mnestOk (t : Vector Word 48) (kstep : BitVec 8) (nlev : BitVec 3) : Bool :=
  (kstep == 32 || kstep == 64 || kstep == 96 || kstep == 128) && decide (nlev.toNat ≤ 5) &&
    (List.range (nlev.toNat + 1)).all fun j =>
      decide ((vget t (8 * j)).toNat < 65536) && vget t (8 * j + 6) == 0 && vget t (8 * j + 7) == 0

def execMnest (h : Hdr) (kstep : BitVec 8) (nlev : BitVec 3) (s : State) : Out :=
  .next (command h
    { chk := orFault (!mnestOk (s.me s.sched.core).shadow kstep nlev) cIllegalCmd,
      go := fun _ g t =>
        (t.modMe t.sched.core fun m =>
          { m with active := m.shadow, kstep := kstep, nlev := nlev, nested := true }).finish t.sched.core g.ord } s)

/-- What of check 6 of MGO no command that still runs can change (R139, R283). -/
def Me.mgoHead (m : Me) (c : MGoOps) : Bool := c.qm != 0 && m.nested

/-- What of it a running MBLD settles, seen once that has finished (log 46). -/
def Me.mgoPre (m : Me) (c : MGoOps) : Bool :=
  !c.pre || (m.pre && match m.spare.id with
    | some b => b.qm == c.qm && b.kstep == m.kstep && b.fmt == m.fmt
    | none => false)

/-- The ring conditions of MGO, which R279 looks at when it starts. -/
def mgoRings (c : MGoOps) (s : State) (p : CoreId) : Bool :=
  let m := s.me p
  (!m.fmt.apod || s.ringOk p m.fmt.astrm (aRowsOf m.fmt))
    && (!m.fmt.bpod || s.ringOk p m.fmt.bstrm (bRowsOf m.fmt m.kstep.toNat c.qm))

def mgoOk (c : MGoOps) (s : State) (p : CoreId) : Bool := (s.me p).mgoHead c && (s.me p).mgoPre c && mgoRings c s p

def execMgo (h : Hdr) (c : MGoOps) (s : State) : Out :=
  .next (command h
    { chk := orFault (!(s.me s.sched.core).mgoHead c
        || (s.gateOpen s.sched.core .m 0x12 && !(s.me s.sched.core).mgoPre c)) cIllegalCmd,
      late := fun t _ => orFault (!mgoRings c t t.sched.core) cIllegalCmd,
      go := fun _ g t =>
        t.modMe t.sched.core fun m =>
          { m with steps := 0, bwait := false, podw := false,
                   run := some { ord := g.ord, c := c, idx := List.replicate (m.nlev.toNat + 1) 0, first := true,
                                 prevB := (0, 0), prevA := (0, 0), aRows := #[], aScales := #[], aHeld := 0,
                                 lastB := false } } } s)

/-- Check 6 of MBLD (R139, R284). -/
def Me.mbldHead (m : Me) (c : MBldOps) : Bool :=
  c.qm != 0 && m.nested && (!c.pod || (m.fmt.bpod && c.src == 0 && c.ssrc == 0))

/-- Its ring condition, looked at when it starts (R279). -/
def mbldRing (c : MBldOps) (s : State) (p : CoreId) : Bool :=
  let m := s.me p
  !c.pod || s.ringOk p m.fmt.bstrm (bRowsOf m.fmt m.kstep.toNat c.qm)

def mbldOk (c : MBldOps) (s : State) (p : CoreId) : Bool := (s.me p).mbldHead c && mbldRing c s p

def execMbld (h : Hdr) (c : MBldOps) (s : State) : Out :=
  .next (command h
    { chk := orFault (!(s.me s.sched.core).mbldHead c) cIllegalCmd,
      late := fun t _ => orFault (!mbldRing c t t.sched.core) cIllegalCmd,
      go := fun _ g t =>
         t.modMe t.sched.core fun m => { m with bld := some (g.ord, c) } } s)

/-- Tiles set to zero. -/
def Me.zero (m : Me) (qm : BitVec 4) : Me :=
  { m with acc := (quads qm).foldl (fun a q => vset a q (vgen 128 fun _ => 0)) m.acc }

def execMzero (h : Hdr) (qm : BitVec 4) (s : State) : Out :=
  .next (command h
    { chk := orFault (qm == 0) cIllegalCmd,
      go := fun _ g t =>
         (t.modMe t.sched.core fun m => m.zero qm).finish t.sched.core g.ord } s)

/-- Parity of popcount(i AND j). -/
def sylvester (i j : Nat) : Bool := ((List.range 7).filter fun b => i / 2 ^ b % 2 = 1 ∧ j / 2 ^ b % 2 = 1).length % 2 = 1

/-- One row of a tile under R286. -/
def hadRow (n h : Nat) (fo : Bool) (row : BitVec 4096) : BitVec 4096 :=
  let vals := ((List.range 128).map fun c => Fmt.fp32.decode (accElem row c).toNat)
  accRow ((List.range 128).map fun c =>
    let i := c % n
    let terms := ((vals.drop (c / n * n)).take n).zipIdx.map fun x => if sylvester i x.2 then x.1.neg else x.1
    BitVec.ofNat 32 (Fmt.fp32.encode .nearest false fo 0 ((Val.sum false terms).scale (-(h : Int)))))

def execMhad (h : Hdr) (c : MHadOps) (s : State) : Out :=
  .next (command h
    { chk := orFault (c.n == 3 || c.qm == 0 || isInt8 (s.me s.sched.core).fmt) cIllegalCmd,
      go := fun _ g t =>
        (t.modMe t.sched.core fun m =>
          { m with acc := (quads c.qm).foldl (fun a q => vmod a q fun tile =>
                     vmap (hadRow (32 * 2 ^ c.n.toNat) c.h.toNat c.fo) tile) m.acc }).finish t.sched.core g.ord } s)

/-! ### MDRN (R287, R288) -/

/-- Output formats an accumulator drains to, and those of them with a plane order. -/
def drainOk (int : Bool) (f : BitVec 4) (plane : Bool) : Bool :=
  let n := f.toNat
  if int then (if plane then n == 0 || n == 5 else n == 0 || n == 3 || n == 4 || n == 5)
  else if plane then n == 0 || n == 5 || n == 6 || n == 7 || n == 8
  else n == 0 || n == 3 || n == 4 || n == 5 || n == 6 || n == 7 || n == 8

def mdrnOk (c : MDrnOps) (m : Me) : Bool :=
  let al := if isMx c.fmt then 64 else 128
  drainOk (isInt8 m.fmt) c.fmt c.plane && decide (c.rnd.toNat ≤ 4) && c.qm != 0 && c.dst.toNat % al == 0 &&
    c.mstr.toNat % al == 0 && c.qstr.toNat % al == 0 && (isMx c.fmt || c.sdst == 0)

/-- The first drained segment at or after 128q + m. -/
def nextSeg (qm : BitVec 4) (i : Nat) : Option Nat :=
  (quads qm).findSome? fun q => if i < 128 * q + 128 then some (max i (128 * q)) else none

def execMdrn (h : Hdr) (c : MDrnOps) (s : State) : Out :=
  .next (command h
    { chk := orFault (!mdrnOk c (s.me s.sched.core)) cIllegalCmd,
      go := fun _ g t =>
        let p := t.sched.core
        let t1 := t.modRng p fun r => if r.mPend then r.seedM (t.lidxOf p) else r
        t1.modMe p fun m => { m with drn := (nextSeg c.qm 0).map fun i => (g.ord, i) } } s)

/-- One value of a drain that is not MXFP4: the pattern, and the generator after. -/
def drainElem (int : Bool) (c : MDrnOps) (f : Fmt) (x g : W32) : Nat × W32 :=
  let mode := Mode.ofCode c.rnd
  if int then
    if f = .int32 then (x.toNat, g)
    else if f = .int8 then (encodeInt true 8 c.sat (decodeInt true 32 x.toNat), g)
    else
      let v := Val.ofInt (decodeInt true 32 x.toNat)
      let (h, z) := drawIf (draws mode v) g
      (f.encode mode c.sat c.fo z v, h)
  else if f = .fp32 then (if c.fi && Fmt.fp32.subnormal x.toNat then x.toNat / 2 ^ 31 * 2 ^ 31 else x.toNat, g)
  else
    let v := Fmt.fp32.flushIn c.fi x.toNat
    let (h, z) := drawIf (draws mode v) g
    (f.encode mode c.sat c.fo z v, h)

/-- A drained row: its segment's bytes, its scale bytes, and the generators after. -/
def drainRow (int : Bool) (c : MDrnOps) (row : BitVec 4096) (gens : List W32) : List Byte × List Byte × List W32 :=
  let xs := (List.range 128).map (accElem row)
  if isMx c.fmt then
    let vals := xs.map fun x => Fmt.fp32.flushIn c.fi x.toNat
    let scales := (List.range 4).map fun kg => mxScale ((vals.drop (32 * kg)).take 32)
    let out := ((vals.zip gens).zipIdx).map fun y => mxElem (Mode.ofCode c.rnd) (scales.getD (y.2 / 32) 0) y.1.1 y.1.2
    let pats := out.map (·.1)
    (if c.plane then planeBytes 4 (fun k => pats.getD k 0) 0 4 else packNibbles pats,
     scales.map fun e => BitVec.ofNat 8 e, out.map (·.2))
  else
    let f := (Fmt.ofCode c.fmt).getD .fp32
    let out := (xs.zip gens).map fun y => drainElem int c f y.1 y.2
    let pats := out.map (·.1)
    (if c.plane then planeBytes f.width (fun k => pats.getD k 0) 0 f.width else pats.flatMap fun x => bytesOfNat x (f.width / 8),
     [], out.map (·.2))

/-- The places of a segment and its scales, or how its first failing byte fails. -/
def State.segPlaces (s : State) (p : CoreId) (c : MDrnOps) (i n k : Nat) : Except (Word × XErr) (List Loc × List Loc) :=
  let m := BitVec.ofNat 64 (i % 128)
  let q := BitVec.ofNat 64 (i / 128)
  match s.placeVa p (c.dst + m * c.mstr.signExtend 64 + q * c.qstr.signExtend 64) .write n with
  | .error e => .error e
  | .ok ls =>
    match s.placeVa p (c.sdst + BitVec.ofNat 64 (4 * i)) .write k with
    | .error e => .error e
    | .ok ks => .ok (ls, ks)

/-- Scratchpad, understore, device memory (R288). -/
def State.drainTo (s : State) (l : Loc) : Bool := s.isOnChip l

/-- One segment of the running MDRN. -/
def State.drainStep (s : State) (p : CoreId) (ord i : Nat) : State :=
  match (s.core p).flight? ord with
  | none => s
  | some f =>
    match decodeCmd f.words with
    | some (.mdrn _ c) =>
      if f.ticket.isSome || f.waiting then s
      else
        let m := s.me p
        let row := vget (vget m.acc (i / 128)) (i % 128)
        let (bs, sc, gens) := drainRow (isInt8 m.fmt) c row (vlist (s.core p).rng.mg)
        let va := c.dst + BitVec.ofNat 64 (i % 128) * c.mstr.signExtend 64 + BitVec.ofNat 64 (i / 128) * c.qstr.signExtend 64
        match s.segPlaces p c i bs.length sc.length with
        | .error (a, .page cause) => (s.noteFail p a).flightPark p f cPageStore cause a i []
        | .error (a, _) => ((s.noteFail p a).flightFault p f cAccess 0 a i []).modMe p fun z => { z with drn := none }
        | .ok (ls, ks) =>
          let vas := (List.range bs.length).map (fun k => va + BitVec.ofNat 64 k) ++
            (List.range sc.length).map fun k => c.sdst + BitVec.ofNat 64 (4 * i + k)
          match (vas.zip (ls ++ ks)).find? fun x => !s.drainTo x.2 with
          | some x => (s.flightFault p f cAccess 0 x.1 i []).modMe p fun z => { z with drn := none }
          | none =>
          if !(ls ++ ks).all fun l => s.slotWritable p l 1 && !s.formHeld l then s
          else
            let s1 := (((ls ++ ks).foldl (fun t l => t.grant p 2 l 1) ((s.writeBytes p ls bs).writeBytes p ks sc)).noteAll p (heads 12 vas)).modRng p fun r =>
              { r with mg := vgen 128 fun k => gens.getD k 0 }
            match nextSeg c.qm (i + 1) with
            | some j => s1.modMe p fun z => { z with drn := some (ord, j) }
            | none =>
              (s1.modMe p fun z => { if c.zero then z.zero c.qm else z with drn := none }).finish p ord
    | _ => s

/-- ME_STEP: the running MGO's next step, or the running MDRN's next segment. -/
def execMeStep (p : CoreId) (s : State) : Out :=
  .next (if s.stalled p || s.halted p || !s.faultRoom (bentOf p) then s
    else match (s.me p).drn, (s.me p).run with
      | some (ord, i), _ => s.drainStep p ord i
      | none, some r => s.mgoStep p r
      | none, none => s)

/-- The ME as every group start leaves it (R291). -/
def Me.groupStart : Me := {}

end Sys2Proof.Machine
end

