-- ==== Sys2Proof/Machine/Furrow.lean ====
section
/-! DEFINITION. Furrow row operations (R298–R308). -/

namespace Sys2Proof.Machine

/-! ### Sensors (R294, R301, R386) -/

/-- A signed sensor reading in eighths of a degree. -/
def reading (w : Word) (i : Nat) : Int := decodeInt true 16 (w.extractLsb' (16 * i) 16).toNat

/-- The hottest of H0–H3 of a stack, as last sampled, in eighths of a degree. -/
def State.hottest (s : State) (stack : Nat) : Int :=
  let w := vget s.clock.tsstk stack
  max (max (reading w 0) (reading w 1)) (max (reading w 2) (reading w 3))

def State.isHot (s : State) (stack : Nat) : Bool := decide (720 ≤ s.hottest stack)

/-- TEMP of a record: whole degrees, 0 to 255. -/
def State.temp (s : State) (stack : Nat) : Nat := (min 255 (max 0 (s.hottest stack / 8))).toNat

/-! ### Operands (R300) -/

/-- How an operand byte translates. -/
inductive OpAt where
  | park (cause : Byte)
  /-- Not in a compute-capable page; its device-memory offset where it has one. -/
  | bad (o : Option Nat)
  /-- A stack that its translation or the byte needs is not ready (R380). -/
  | unready (o : Option Nat)
  | ok (o : Nat)
deriving DecidableEq, Repr, Inhabited

/-- What a leaf makes of an operand byte. -/
def State.furLeaf (s : State) (e nx : Word) (v : Nat) (acc : Acc) : OpAt :=
  let a := leafAddr e v
  if s.ctlDenied a true then .bad none
  else match leafCheck e nx v acc true with
    | some (.page c) => .park c
    | some _ => .bad none
    | none =>
      match s.space a with
      | .dev o =>
        if !pteCc e || !ptePin e || decide (pteSize e < 5) || !s.striped o || decide (peerBase ≤ a) then .bad (some o)
        else if !s.stackReady (stackOf o) then .unready (some o)
        else .ok o
      | _ => .bad none

def State.furAt (s : State) (p : CoreId) (va : Word) (acc : Acc) : OpAt :=
  let v := va.toNat
  if 2 ^ 52 ≤ v ∨ spadBase ≤ v then .bad none
  else match s.leafFor p v with
    | .error (.page c) => .park c
    | .error .unready => .unready none
    | .error _ => .bad none
    | .ok (e, nx) => s.furLeaf e nx v acc

/-- An operand: its address, access, first and last byte. -/
structure FurOp where
  va : Word
  acc : Acc
  lo : OpAt
  hi : OpAt

def State.furOps (s : State) (p : CoreId) (f : FurCmd) : List FurOp :=
  let one := fun (va : Word) (acc : Acc) =>
    ({ va := va, acc := acc, lo := s.furAt p va acc, hi := s.furAt p (va + BitVec.ofNat 64 (f.len - 1)) acc } : FurOp)
  one f.dst .write :: f.srcs.map fun x => one x .read

def OpAt.dev (x : OpAt) : Option Nat :=
  match x with
  | .bad o | .unready o => o
  | .ok o => some o
  | .park _ => none

def FurOp.cause (x : FurOp) (last : Word) : Option (Word × Byte) :=
  match x.lo, x.hi with
  | .park c, _ => some (x.va, c)
  | _, .park c => some (x.va + last, c)
  | _, _ => none

def FurOp.isBad (x : FurOp) : Bool :=
  match x.lo, x.hi with
  | .bad _, _ | _, .bad _ => true
  | _, _ => false

def FurOp.isUnready (x : FurOp) : Bool :=
  match x.lo, x.hi with
  | .unready _, _ | _, .unready _ => true
  | _, _ => false

/-- The stack of the first operand in device memory. -/
def furStack (l : List FurOp) : Option Nat := (l.findSome? fun x => x.lo.dev).map stackOf

def FurOp.at (x : FurOp) : Nat := x.lo.dev.getD 0

/-- An operand in an enabled format-region view: any line from its first byte's to its last byte's. -/
def State.furView (s : State) (len : Nat) (x : FurOp) : Bool :=
  (match x.lo.dev with
   | some o => (List.range ((o % 128 + len + 127) / 128)).any fun i => (s.viewAt (o / 128 * 128 + 128 * i)).isSome
   | none => false) ||
  match x.hi.dev with
  | some o => (s.viewAt o).isSome
  | none => false

/-- The reason of R301 for the fallback path; 0 for the fast path. -/
def State.furReason (s : State) (len : Nat) (l : List FurOp) : Nat :=
  let stripe := fun o => o / 2 ^ 18
  match l with
  | [] => 0
  | d :: _ =>
    if s.isHot (stackOf d.at) then 0x12
    else if l.any fun x => x.at / 2 ^ 21 ≠ d.at / 2 ^ 21 then 0x11
    else if l.any fun x => stripe x.at ≠ stripe d.at ∨ stripe (x.at + len - 1) ≠ stripe d.at then 0x10
    else 0

/-- The first rejection of R300's table from 0x02 up, with the operand it names. -/
def State.furReject (s : State) (f : FurCmd) (l : List FurOp) : Option (Nat × Word) :=
  let d := l.headD { va := 0, acc := .read, lo := .bad none, hi := .bad none }
  let named := fun (c : Nat) (p : FurOp → Bool) => (l.find? p).map fun x => (c, x.va)
  let clash := fun x : FurOp => x.acc != .write && x.at != d.at && decide (x.at < d.at + f.len ∧ d.at < x.at + f.len)
  (named 2 FurOp.isBad).or <|
  (named 3 fun x => x.va.toNat % 1024 != 0).or <|
  (named 4 fun x => decide (2 ^ 21 < x.at % 2 ^ 21 + f.len)).or <|
  (named 5 fun x => stackOf x.at != stackOf d.at).or <|
  (named 6 clash).or <|
  if f.nofb ∧ s.furReason f.len l ≠ 0 then some (7, f.dst) else none

/-! ### The outcome of the checks -/

inductive FurOut where
  | park (code cause : Byte) (va : Word)
  | access (va : Word)
  | reject (code : Nat) (va : Word)
  | run (reason : Nat)
deriving DecidableEq, Repr, Inhabited

/-- Where a record or a result goes: `none` for no record. -/
def State.recAt (s : State) (p : CoreId) (a : Option Word) (n : Nat) : Except (Word × XErr) (Option Loc) :=
  match a with
  | none => .ok none
  | some va =>
    match s.engAt p va n .write with
    | .error e => .error (va, e)
    | .ok l => if s.isOnChip l then .ok (some l) else .error (va, .access)

/-- R300 in its order; `record` is RECA. -/
def State.furCheck (s : State) (p : CoreId) (f : FurCmd) (record : Option Word) : FurOut :=
  let l := s.furOps p f
  match l.findSome? fun x => (x.cause (BitVec.ofNat 64 (f.len - 1))).map fun y => (x.acc, y) with
  | some (acc, va, cause) => .park (pageCode acc) cause va
  | none =>
    match s.recAt p record 16 with
    | .error (va, .page cause) => .park cPageStore cause va
    | r =>
      match l.find? fun x => x.isUnready || s.furView f.len x, r with
      | some x, _ => .access x.va
      | none, .error (va, _) => .access va
      | none, .ok _ =>
        match s.furReject f l with
        | some (c, va) => .reject c va
        | none => .run (s.furReason f.len l)

/-! ### Execution (R302, R304) -/

def State.modCtl (s : State) (stack : Nat) (f : Ctl → Ctl) : State :=
  s.modBent (bentOfNat (stack / 2)) fun b => { b with ctl := vmod b.ctl (stack % 2) f }

/-- LLC lines of some bytes leave their slice (R125, R306). -/
def State.dropLlc (s : State) (a n : Nat) : State := { s with llc := s.llc.filter fun x => x.line + 128 ≤ a ∨ a + n ≤ x.line }

def State.rowBytes (s : State) (a : Nat) : List Byte := (List.range 1024).map fun j => s.rawByte (a + j)

/-- Byte by byte, the row result of R298. -/
def rowResult (g : List Byte → Byte) (rows : List (List Byte)) : List Byte :=
  (List.range 1024).map fun j => g (rows.map fun r => r.getD j 0)

def src1 (l : List Byte) : Byte := l.getD 0 0
def src2 (l : List Byte) : Byte := l.getD 1 0
def src3 (l : List Byte) : Byte := l.getD 2 0

/-- The row result of an opcode on one byte of each source; `ones` is FFILL's bit (R298). -/
def furByte (opc : Nat) (ones : Bool) (l : List Byte) : Byte :=
  match opc with
  | 0x20 => src1 l
  | 0x21 => if ones then 0xFF else 0
  | 0x22 => src1 l &&& src2 l
  | 0x23 => src1 l ||| src2 l
  | 0x24 => src1 l ^^^ src2 l
  | 0x25 => ~~~(src1 l)
  | _ => (src1 l &&& src2 l) ||| (src1 l &&& src3 l) ||| (src2 l &&& src3 l)

/-- Row `i`: the source rows are read before the DST row is written. -/
def State.furRow (s : State) (g : List Byte → Byte) (dst : Nat) (srcs : List Nat) (i : Nat) : State :=
  s.writePhys (dst + 1024 * i) (rowResult g (srcs.map fun a => s.rowBytes (a + 1024 * i)))

/-- Word 0 of a completion record. -/
def recWord (n temp opc reason path : Nat) : Word := at_ (n - 1) 32 ||| at_ temp 24 ||| at_ opc 16 ||| at_ reason 8 ||| at_ path 0

def countPath (path : Nat) (c : Ctl) : Ctl :=
  match path with
  | 0 => { c with nfast := c.nfast + 1 }
  | 1 => { c with nfb := c.nfb + 1 }
  | _ => { c with nrej := c.nrej + 1 }

/-! ### The controller (R303, R306–R308) -/

def FurRun.stack (f : FurRun) : Nat := stackOf f.dst
def FurRun.ops (f : FurRun) : List Nat := f.dst :: f.srcs
def FurRun.path (f : FurRun) : Nat := if f.reason = 0 then 0 else 1

/-- The (pseudo-channel, bank) pairs of a command's rows (R295). -/
def FurRun.banks (f : FurRun) : List (Nat × Nat) :=
  f.ops.flatMap fun a =>
    let first := stripedPlace a
    (List.range ((a + 1024 * f.n - 1) % 2 ^ 21 / 2 ^ 18 + 1 - a % 2 ^ 21 / 2 ^ 18)).map fun i => (first.pc, first.bank + i)

/-- Two commands that share a bank are executed in the order they reached the controller (R307). -/
def FurRun.clash (f g : FurRun) : Bool := f.banks.any fun x => g.banks.contains x

/-- The command enters its controller: the LLC lines of its rows are written back and dropped (R125). -/
def State.furEnter (s : State) (f : FurRun) : State :=
  (f.ops.foldl (fun t a => t.dropLlc a (1024 * f.n)) s).modCtl f.stack fun c => { c with cmds := c.cmds ++ [f] }

/-- Whether the controller takes a command now: fewer than 64 held, no region change (R297, R303). -/
def Ctl.takes (c : Ctl) : Bool := decide (c.cmds.length < 64) && c.chg.isNone

/-- The CE forwards a started command, or holds it until its controller takes it. -/
def State.furForward (s : State) (p : CoreId) (ord : Nat) (f : FurRun) : State :=
  if (s.ctlOf f.stack).takes then
    (s.furEnter f).modFlight p ord fun x => { x with waiting := false, fwd := none }
  else s.modFlight p ord fun x => { x with waiting := true, fwd := some f }

/-- What the checks of a command that runs hand to its controller. -/
def State.furRun (s : State) (p : CoreId) (fl : Flight) (f : FurCmd) (ones : Bool) (record : Option Word)
    (reason : Nat) : FurRun :=
  let l := s.furOps p f
  { core := p, ord := fl.ord, opc := f.opc, ones := ones, dst := (l.map FurOp.at).headD 0, srcs := (l.map FurOp.at).drop 1,
    n := f.n, reason := reason, temp := s.temp ((furStack l).getD 0),
    recAt := match s.recAt p record 16 with
      | .ok a => a
      | .error _ => none,
    ctr := fl.ctr, start := s.cycle }

/-- An operand lies in a stack whose region is changing (R297). -/
def State.furChanging (s : State) (l : List FurOp) : Bool :=
  l.any fun x => match x.lo.dev with
    | some o => (s.ctlOf (stackOf o)).chg.isSome
    | none => false

/-- The command's pages are noted (R105). -/
def State.furNote (s : State) (p : CoreId) (f : FurCmd) (record : Option Word) : State :=
  s.noteAll p ((s.furOps p f).flatMap (fun x => [x.va, x.va + BitVec.ofNat 64 (f.len - 1)]) ++ record.toList)

/-- A started Furrow command, at its start, on the replay of its ticket, or where it waited. One already checked goes to
its controller, if its operands still lie in their regions. -/
def State.furGo (s : State) (p : CoreId) (fl : Flight) (f : FurCmd) (ones : Bool) (record : Option Word) : State :=
  let refuse := fun (code aux : Byte) (va : Word) =>
    if s.faultRoom (bentOf p) then
      let s1 := s.flightFault p fl code aux va 0 []
      match furStack (s.furOps p f) with
      | some k => s1.modCtl k (countPath 2)
      | none => s1
    else s.flightHold p fl 0 []
  match fl.fwd.filter fun r => r.ops.all s.striped with
  | some r => s.furForward p fl.ord r
  | none =>
    if s.furChanging (s.furOps p f) then s.modFlight p fl.ord fun x => { x with waiting := true, fwd := none }
    else (match s.furCheck p f record with
      | .park code cause va => s.flightPark p fl code cause va 0 []
      | .access va => refuse cAccess 0 va
      | .reject c va => refuse cFurrowReject (BitVec.ofNat 8 c) va
      | .run reason => s.furForward p fl.ord (s.furRun p fl f ones record reason)).furNote p f record

/-- The record of a command whose last row is written (R304). -/
def State.furRecord (s : State) (f : FurRun) : State :=
  let w1 := at_ f.stack 32 ||| at_ (Config.furrowElapsed s.sched.tick).toNat 0
  match f.recAt with
  | some a =>
    (s.writeHome f.core a (bytesOfNat (recWord f.n f.temp f.opc f.reason f.path).toNat 8 ++ bytesOfNat w1.toNat 8)).grant
      f.core 1 a 16
  | none => s

/-- The command finishes; one whose core has left makes its counter add at once, for no flight holds it (R308). -/
def State.furFinish (s : State) (f : FurRun) : State :=
  if f.orphan then
    match f.ctr with
    | some (l, inc) => s.addAt f.core l inc
    | none => s
  else s.finish f.core f.ord

/-- A finish waits for the end of a freeze of the command's core. A region change does not hold it, nor its record:
the change waits for it (R297). -/
def State.furWaits (s : State) (f : FurRun) : Bool := !f.orphan && s.stalled f.core

/-! ### FQRY (R305) -/

/-- PATH and REASON of the answer. -/
def State.furAnswer (s : State) (p : CoreId) (f : FurCmd) : Nat × Nat :=
  match s.furCheck p f none with
  | .park _ _ _ => (2, 1)
  | .access _ => (2, (Config.furrowAccessReason s.sched.tick).toNat)
  | .reject c _ => (2, c)
  | .run r => (if r = 0 then 0 else 1, r)

def State.fqryGo (s : State) (p : CoreId) (fl : Flight) (f : FurCmd) (res : Word) : State :=
  if s.furChanging (s.furOps p f) then s.modFlight p fl.ord fun x => { x with waiting := true }
  else match s.recAt p (some res) 8 with
  | .error (va, .page cause) => s.flightPark p fl cPageStore cause va 0 []
  | .error (va, _) => s.flightFault p fl cAccess 0 va 0 []
  | .ok l =>
    let (path, reason) := s.furAnswer p f
    let temp := match furStack (s.furOps p f) with
      | some k => s.temp k
      | none => 0
    ((match l with
      | some a => (s.writeHome p a (bytesOfNat (recWord f.n temp f.opc reason path).toNat 8)).grant p 1 a 8
      | none => s).furNote p f (some res)).finish p fl.ord

/-! ### Starting -/

/-- The slot that a record or a result goes to is writable (R210). -/
def recReady (s : State) (p : CoreId) (rec? : Option Word) (n : Nat) : Bool :=
  match rec? with
  | some a => !dstHeld s p n (.va (a &&& ~~~(BitVec.ofNat 64 (n - 1))))
  | none => true

def furrow (h : Hdr) (opc : Nat) (f : Fur) (srcs : List Word) (ones : Bool) (s : State) : State :=
  command h
    { ctr := f.ctr, inc := f.inc,
      can := fun t => recReady t t.sched.core (record? f) 16,
      go := fun _ fl t =>
        let p := t.sched.core
        goOrWait p fl (fun u => u.furGo p fl (furCmd opc f srcs) ones (record? f)) t } s

def execFcopy (h : Hdr) (f : Fur) (s1 : Word) (s : State) : Out := .next (furrow h 0x20 f [s1] false s)
def execFfill (h : Hdr) (f : Fur) (ones : Bool) (s : State) : Out := .next (furrow h 0x21 f [] ones s)
def execFand (h : Hdr) (f : Fur) (s1 s2 : Word) (s : State) : Out := .next (furrow h 0x22 f [s1, s2] false s)
def execForRow (h : Hdr) (f : Fur) (s1 s2 : Word) (s : State) : Out := .next (furrow h 0x23 f [s1, s2] false s)
def execFxor (h : Hdr) (f : Fur) (s1 s2 : Word) (s : State) : Out := .next (furrow h 0x24 f [s1, s2] false s)
def execFnot (h : Hdr) (f : Fur) (s1 : Word) (s : State) : Out := .next (furrow h 0x25 f [s1] false s)
def execFmaj (h : Hdr) (f : Fur) (s1 s2 s3 : Word) (s : State) : Out := .next (furrow h 0x26 f [s1, s2, s3] false s)

def fqryOk (c : FQryOps) : Bool := c.op != 7 && ([c.s1, c.s2, c.s3].drop (candSrcs c.op)).all (· == 0)

def execFqry (h : Hdr) (c : FQryOps) (s : State) : Out :=
  .next (command h
    { chk := orFault (!fqryOk c) cIllegalCmd, ctr := c.ctr, inc := c.inc,
      can := fun t => recReady t t.sched.core (some c.res) 8,
      go := fun _ fl t =>
        let p := t.sched.core
        goOrWait p fl (fun u => u.fqryGo p fl (fqryCmd c) c.res) t } s)

end Sys2Proof.Machine
end

