-- ==== Sys2Proof/Machine/Stations.lean ====
section
/-! DEFINITION. The station orders as they act on the current core's vector engine (R252). -/

namespace Sys2Proof.Machine

/-- The index of Slot(s, k). -/
def slotNo (s k : Nat) : Nat := 9 * s + k

def Ve.slot (v : Ve) (s k : Nat) : Option Vec := vget v.slots (slotNo s k)

/-- What a station order reads (R229, R252): an empty slot reads zero. -/
def State.staIn (s : State) (o : StOrd) : StaIn :=
  let p := s.sched.core
  let v := s.ve p
  let at' := fun (r : BitVec 4) => (v.slot r.toNat o.stn.toNat).getD 0
  { a := at' o.sa, b := at' o.sb, c := at' o.ds, masks := v.masks, vg := (s.core p).rng.vg }

/-- A member that writes its destination stream: the result waits for the advance (R230), the draws are made. -/
def State.sta (f : StOrd → StaIn → Vec × Gens) (o : StOrd) (s : State) : State :=
  let p := s.sched.core
  let r := f o (s.staIn o)
  (s.modVe p fun v => { v with results := v.results ++ [(slotNo o.ds.toNat (o.stn.toNat + 1), r.1)] }).modRng p fun g =>
    { g with vg := r.2 }

/-- A member that writes a mask, which governs from the next bundle on (R240). -/
def State.staMask (f : StOrd → StaIn → BitVec 128) (o : StOrd) (s : State) : State :=
  s.modVe s.sched.core fun v => { v with maskPend := v.maskPend ++ [(o.ds.extractLsb' 0 3, f o (s.staIn o))] }

def sar (w a n : Nat) : Nat := lowBits w (decodeInt true w a / (2 ^ n : Nat))

def staVadd : StOrd → State → State := State.sta (arith (fun d a b _ => Val.add d a b) fun a b _ => a + b)
def staVsub : StOrd → State → State := State.sta (arith (fun d a b _ => Val.add d a b.neg) fun a b _ => a - b)
def staVmul : StOrd → State → State := State.sta (arith (fun _ a b _ => Val.mul a b) fun a b _ => a * b)
def staVfma : StOrd → State → State := State.sta (arith (fun d a b c => Val.add d (Val.mul a b) c) fun a b c => a * b + c)
def staVmin : StOrd → State → State := State.sta (minMax Val.min fun b a => decide (b < a))
def staVmax : StOrd → State → State := State.sta (minMax Val.max fun b a => decide (a < b))
def staVabs : StOrd → State → State := State.sta (signOp clearSign fun a => (a.natAbs : Int))
def staVneg : StOrd → State → State := State.sta (signOp flipSign fun a => -a)
def staVand : StOrd → State → State := State.sta (bitwise fun a b => a &&& b)
def staVor : StOrd → State → State := State.sta (bitwise fun a b => a ||| b)
def staVxor : StOrd → State → State := State.sta (bitwise fun a b => a ^^^ b)
def staVnot : StOrd → State → State := State.sta fun o => bitwise (fun a _ => 2 ^ o.lane.width - 1 - a) o
def staVshl : StOrd → State → State := State.sta (shiftOp fun w a n => a * 2 ^ n % 2 ^ w)
def staVshr : StOrd → State → State := State.sta (shiftOp fun _ a n => a / 2 ^ n)
def staVsra : StOrd → State → State := State.sta (shiftOp sar)
def staVcmp : StOrd → State → State := State.staMask cmpMask
def staVsel : StOrd → State → State := State.sta selOp
def staVcvt : StOrd → State → State := State.sta cvtOp
def staVdot4 : StOrd → State → State := State.sta dotOp
def staVredadd : StOrd → State → State := State.sta redAdd
def staVredmax : StOrd → State → State :=
  State.sta (redMinMax Val.max (.inf true) (fun y t => decide (t < y)) fun sg w => minInt sg w)
def staVredmin : StOrd → State → State :=
  State.sta (redMinMax Val.min (.inf false) (fun y t => decide (y < t)) fun sg w => maxInt sg w)
def staVexp2 : StOrd → State → State := State.sta (transOp exp2Val)
def staVlog2 : StOrd → State → State := State.sta (transOp log2Val)
def staVrcp : StOrd → State → State := State.sta (transOp rcpVal)
def staVrsq : StOrd → State → State := State.sta (transOp rsqVal)
def staVperm : StOrd → State → State := State.sta permOp
def staVbcast : StOrd → State → State := State.sta bcastOp
def staVrotm : StOrd → State → State := State.sta rotOp
def staVpln : StOrd → State → State := State.sta vplnOp
def staVunpl : StOrd → State → State := State.sta vunplOp
def staVscale : StOrd → State → State := State.sta scaleOp
def staVqmx : StOrd → State → State := State.sta qmxOp
def staVmovs : StOrd → State → State := State.sta movOp
def staVldi : StOrd → State → State := State.sta ldiOp
def staVmask : StOrd → State → State := State.staMask maskOp

def execVadd (o : StOrd) (s : State) : Out := .next (staVadd o s)
def execVsub (o : StOrd) (s : State) : Out := .next (staVsub o s)
def execVmul (o : StOrd) (s : State) : Out := .next (staVmul o s)
def execVfma (o : StOrd) (s : State) : Out := .next (staVfma o s)
def execVmin (o : StOrd) (s : State) : Out := .next (staVmin o s)
def execVmax (o : StOrd) (s : State) : Out := .next (staVmax o s)
def execVabs (o : StOrd) (s : State) : Out := .next (staVabs o s)
def execVneg (o : StOrd) (s : State) : Out := .next (staVneg o s)
def execVand (o : StOrd) (s : State) : Out := .next (staVand o s)
def execVor (o : StOrd) (s : State) : Out := .next (staVor o s)
def execVxor (o : StOrd) (s : State) : Out := .next (staVxor o s)
def execVnot (o : StOrd) (s : State) : Out := .next (staVnot o s)
def execVshl (o : StOrd) (s : State) : Out := .next (staVshl o s)
def execVshr (o : StOrd) (s : State) : Out := .next (staVshr o s)
def execVsra (o : StOrd) (s : State) : Out := .next (staVsra o s)
def execVcmp (o : StOrd) (s : State) : Out := .next (staVcmp o s)
def execVsel (o : StOrd) (s : State) : Out := .next (staVsel o s)
def execVcvt (o : StOrd) (s : State) : Out := .next (staVcvt o s)
def execVdot4 (o : StOrd) (s : State) : Out := .next (staVdot4 o s)
def execVredadd (o : StOrd) (s : State) : Out := .next (staVredadd o s)
def execVredmax (o : StOrd) (s : State) : Out := .next (staVredmax o s)
def execVredmin (o : StOrd) (s : State) : Out := .next (staVredmin o s)
def execVexp2 (o : StOrd) (s : State) : Out := .next (staVexp2 o s)
def execVlog2 (o : StOrd) (s : State) : Out := .next (staVlog2 o s)
def execVrcp (o : StOrd) (s : State) : Out := .next (staVrcp o s)
def execVrsq (o : StOrd) (s : State) : Out := .next (staVrsq o s)
def execVperm (o : StOrd) (s : State) : Out := .next (staVperm o s)
def execVbcast (o : StOrd) (s : State) : Out := .next (staVbcast o s)
def execVrotm (o : StOrd) (s : State) : Out := .next (staVrotm o s)
def execVpln (o : StOrd) (s : State) : Out := .next (staVpln o s)
def execVunpl (o : StOrd) (s : State) : Out := .next (staVunpl o s)
def execVscale (o : StOrd) (s : State) : Out := .next (staVscale o s)
def execVqmx (o : StOrd) (s : State) : Out := .next (staVqmx o s)
def execVmovs (o : StOrd) (s : State) : Out := .next (staVmovs o s)
def execVldi (o : StOrd) (s : State) : Out := .next (staVldi o s)
def execVmask (o : StOrd) (s : State) : Out := .next (staVmask o s)

/-- The effect of a station order, by constructor; `none` for what is no station order. -/
def stationAct (i : Instr) : Option (State → State) :=
  match i with
  | .vadd o => some (staVadd o)
  | .vsub o => some (staVsub o)
  | .vmul o => some (staVmul o)
  | .vfma o => some (staVfma o)
  | .vmin o => some (staVmin o)
  | .vmax o => some (staVmax o)
  | .vabs o => some (staVabs o)
  | .vneg o => some (staVneg o)
  | .vand o => some (staVand o)
  | .vor o => some (staVor o)
  | .vxor o => some (staVxor o)
  | .vnot o => some (staVnot o)
  | .vshl o => some (staVshl o)
  | .vshr o => some (staVshr o)
  | .vsra o => some (staVsra o)
  | .vcmp o => some (staVcmp o)
  | .vsel o => some (staVsel o)
  | .vcvt o => some (staVcvt o)
  | .vdot4 o => some (staVdot4 o)
  | .vredadd o => some (staVredadd o)
  | .vredmax o => some (staVredmax o)
  | .vredmin o => some (staVredmin o)
  | .vexp2 o => some (staVexp2 o)
  | .vlog2 o => some (staVlog2 o)
  | .vrcp o => some (staVrcp o)
  | .vrsq o => some (staVrsq o)
  | .vperm o => some (staVperm o)
  | .vbcast o => some (staVbcast o)
  | .vrotm o => some (staVrotm o)
  | .vpln o => some (staVpln o)
  | .vunpl o => some (staVunpl o)
  | .vscale o => some (staVscale o)
  | .vqmx o => some (staVqmx o)
  | .vmovs o => some (staVmovs o)
  | .vldi o => some (staVldi o)
  | .vmask o => some (staVmask o)
  | _ => none

end Sys2Proof.Machine
end

