-- ==== Sys2Proof/Machine/Vector.lean ====
section
/-! DEFINITION. The vector engine: commands, walks, bundles, cuts and the end of a run (R65–R68, R229–R251). -/

namespace Sys2Proof.Machine

/-! ### Descriptors and walks (R234–R236) -/

def dIdxEn (d : SDesc) : Bool := d.dctl.getLsbD 3
def dIdx (d : SDesc) : BitVec 4 := d.dctl.extractLsb' 4 4
def dIsz (d : SDesc) : Bool := d.dctl.getLsbD 8
def dLev (d : SDesc) : Nat := (d.dctl.extractLsb' 0 2).toNat
def dTag (d : SDesc) : Option (BitVec 4) := if d.dctl.getLsbD 15 then some (d.dctl.extractLsb' 11 4) else none

def dLevels (d : SDesc) : List (Nat × W32) :=
  [(d.cnt0.toNat + 1, d.str0), (d.cnt1.toNat + 1, d.str1), (d.cnt2.toNat + 1, d.str2), (d.cnt3.toNat + 1, d.str3)].take
    (dLev d + 1)

/-- The vectors of a walk. -/
def walkLen (d : SDesc) : Nat := if dIdxEn d then d.cnt0.toNat + 1 else ((dLevels d).map (·.1)).prod

/-- Σ ij × stride for vector `v`, i0 fastest. -/
def walkOff : List (Nat × W32) → Nat → Word
  | [], _ => 0
  | (n, st) :: t, v => BitVec.ofNat 64 (v % n) * st.signExtend 64 + walkOff t (v / n)

/-- The address of vector `v` of a walk without an index. -/
def walkAddr (d : SDesc) (v : Nat) : Word := d.base + walkOff (dLevels d) v

def Ve.sdOf (v : Ve) (n : BitVec 4) : SdState := vget v.sd n.toNat
def Ve.modSd (v : Ve) (n : BitVec 4) (f : SdState → SdState) : Ve := { v with sd := vmod v.sd n.toNat f }

/-- A walk starts from vector 0, and its index descriptor's with it (R235). -/
def Ve.restart (v : Ve) (n : BitVec 4) : Ve :=
  let v1 := v.modSd n fun x => { x with cur := 0, idx := [] }
  if dIdxEn (v.sdOf n).d then v1.modSd (dIdx (v.sdOf n).d) fun x => { x with cur := 0 } else v1

/-! ### Attaching (R236, R237) -/

/-- Descriptors attached now, other than to the queue named. -/
def Ve.attached (v : Ve) (oq wq : Option Nat) : List (BitVec 4) :=
  ((vlist v.oqAtt).zipIdx.filterMap fun x => if oq = some x.2 then none else x.1) ++
    (vlist v.wqAtt).zipIdx.filterMap fun x => if wq = some x.2 then none else x.1

/-- Whether R237 refuses descriptor `n` for a queue. -/
def Ve.refuses (v : Ve) (n : BitVec 4) (oq wq : Option Nat) : Bool :=
  let d := (v.sdOf n).d
  let x := (v.sdOf (dIdx d)).d
  (v.attached oq wq).contains n ||
    ((v.attached none none).any fun m => dIdxEn (v.sdOf m).d && dIdx (v.sdOf m).d == n) ||
    (dIdxEn d && (dLev d != 0 || dIdx d == n || dIdxEn x ||
      decide (walkLen x * (if dIsz d then 16 else 32) < d.cnt0.toNat + 1)))

/-- An attachment starts the walk from vector 0, or goes on from its cursor; one that stands at its first vector starts
afresh too, its index descriptor with it (R235, R236). -/
def Ve.begin (v : Ve) (n : BitVec 4) (rst : Bool) : Ve :=
  if rst ∨ walkLen (v.sdOf n).d ≤ (v.sdOf n).cur ∨ (v.sdOf n).cur = 0 then v.restart n else v

def Ve.srd (v : Ve) (o : SrdOp) : Option Ve :=
  if v.refuses o.sd (some o.oq.toNat) none then none
  else some { v.begin o.sd o.rst with oqAtt := vset v.oqAtt o.oq.toNat (some o.sd) }

def Ve.swr (v : Ve) (o : SwrOp) : Option Ve :=
  if v.refuses o.sd none (some o.wq.toNat) then none
  else some { v.begin o.sd o.rst with wqAtt := vset v.wqAtt o.wq.toNat (some o.sd) }

/-! ### The end of a run (R249) -/

/-- Vectors of write queues that no walk takes are discarded and counted. -/
def Ve.discard (v : Ve) : Ve :=
  let lost := ((vlist v.wq).zip (vlist v.wqAtt)).map fun x => if x.2.isNone then x.1.length else 0
  { v with disc := min 65535 (v.disc + lost.sum),
           wq := vgen 4 fun i => if (vget v.wqAtt i).isNone then [] else vget v.wq i }

def landed (l : List OqEntry) : Bool := l.all fun e => e.val.isSome

/-- The VE with the run over. -/
def Ve.stop (v : Ve) : Ve :=
  { v with oqAtt := vgen 8 fun _ => none, wqAtt := vgen 4 fun _ => none, oq := vgen 8 fun _ => [], run := none,
           stopr := none, frz := false, cutw := false, held := false, installed := false, ending := none,
           sd := vmap (fun x => { x with ticket := none, parked := false }) v.sd,
           tag := if v.invPend then none else v.tag, invPend := false }

/-- Tickets of the walks a run's end detaches. -/
def Ve.tickets (v : Ve) : List (BitVec 16) := (vlist v.sd).filterMap (·.ticket)

/-- The run is over once every requested vector has landed and every attached write walk has written its queue:
VRUN finishes, and a VSTOP with it (R245, R249). -/
def State.tryEnd (s : State) (p : CoreId) : State :=
  let v := (s.ve p).discard
  if v.ending.isNone || !(vlist v.oq).all landed || (vlist v.wq).any fun q => !q.isEmpty then s.modVe p fun _ => v
  else
    let s1 := (v.tickets.foldl State.dropTicket s).modVe p fun _ => v.stop
    let s2 := match v.run with
      | some r => s1.finish p r.ord
      | none => s1
    match v.stopr with
    | some (_, ord) => s2.finish p ord
    | none => s2

/-! ### Timetable freezes (R66) -/

/-- PLFREEZE and its event count the cycles of the freeze in force up to now, those of other freezes left out. -/
def State.tallyFreeze (s : State) (p : CoreId) : State :=
  if (s.ve p).frz then
    ((s.modVe p fun v => { v with frzAt := s.live p }).modCore p fun c =>
      { c with plumb := { c.plumb with freeze := s.plfreeze p } }).count p 0x06 (s.live p - (s.ve p).frzAt)
  else s

/-- A freeze of the timetable begins or goes on. -/
def State.freeze (s : State) (p : CoreId) : State :=
  (s.tallyFreeze p).modVe p fun v => { v with frz := true, frzAt := s.live p }

/-- No freeze of the timetable holds any longer. -/
def State.thaw (s : State) (p : CoreId) : State := (s.tallyFreeze p).modVe p fun v => { v with frz := false }

/-- The run ends: slots are emptied; a run ended by a fault pushes no token. -/
def State.endRun (s0 : State) (p : CoreId) (fault : Bool) : State :=
  let s := s0.thaw p
  let v := s.ve p
  let s1 := s.modVe p fun v =>
    { v with slots := vgen 144 fun _ => none, results := [], cutw := false, held := false,
             ending := some (fault || v.ending.getD false) }
  let s2 := match v.run with
    | some r => if fault then s1.modFlight p r.ord fun f => { f with sig := none } else s1
    | none => s1
  s2.tryEnd p

/-- A record of a VE fault, and the end of the run. -/
def State.veFault (s : State) (p : CoreId) (ws : List W32) (pc : Word) (code : Byte) (va : Word) (elem : Nat) : State :=
  (s.engRecord p .v ws pc code 0 va elem).endRun p true

/-! ### Commands (R242–R246) -/

def vsdescOk (n : BitVec 4) (d : SDesc) : Bool :=
  d.dctl.extractLsb' 16 16 == 0 && d.dctl.extractLsb' 9 2 == 0 && !d.dctl.getLsbD 2 &&
    !(dIdxEn d && (dLev d != 0 || dIdx d == n))

def execVbase (h : Hdr) (n : BitVec 4) (base : Word) (s : State) : Out :=
  .next (command h
    { go := fun _ f t =>
        (t.modVe t.sched.core fun v => v.modSd n fun x =>
          { x with d := { x.d with base := base }, cur := 0, idx := [] }).finish t.sched.core f.ord } s)

def execVsdesc (h : Hdr) (n : BitVec 4) (d : SDesc) (s : State) : Out :=
  .next (command h
    { chk := orFault (!vsdescOk n d) cIllegalCmd,
      go := fun _ f t =>
        (t.modVe t.sched.core fun v => v.modSd n fun x => { x with d := d, cur := 0, idx := [] }).finish t.sched.core
          f.ord } s)

def vrunOk (c : VRunOps) : Bool :=
  decide (c.img.toNat % 128 = 0 ∧ 1 ≤ c.len.toNat ∧ c.len.toNat ≤ 256 ∧ c.entry.toNat < 32 * c.len.toNat)

/-- The table store's words read from IMG, 128 bytes at a time; where it fails, the address and how. -/
def State.tableWords (s : State) (p : CoreId) (va : Word) : Nat → Except (Word × XErr) (List Loc × List W32)
  | 0 => .ok ([], [])
  | n + 1 =>
    match s.engAt p va 128 .read with
    | .error e => .error (va, e)
    | .ok l =>
      if s.isOnChip l || s.isPeer l then
        match State.tableWords s p (va + 128) n with
        | .ok (ls, ws) => .ok (l :: ls, ((List.range 32).map fun i => BitVec.ofNat 32 (s.readLoc p (l.add (4 * i)) 4)) ++ ws)
        | x => x
      else .error (va, .access)

/-- A VRUN loads its table store where the tag differs; a page fault parks it, and a fault without room for its record
holds it in place (R313). -/
def State.loadTable (s : State) (p : CoreId) (f : Flight) (c : VRunOps) : State :=
  if (s.ve p).tag = some (c.img, c.len.toNat) then s.modFlight p f.ord fun x => { x with ticket := none }
  else match s.tableWords p c.img c.len.toNat with
    | .ok (ls, ws) =>
      (((ls.foldl (fun (t : State) l => t.used p l 128) s).modVe p fun v =>
        { v with table := ws, tag := some (c.img, c.len.toNat) }).modFlight p f.ord fun x =>
        { x with ticket := none }).noteAll p (heads 12 ((List.range c.len.toNat).map fun i => c.img + BitVec.ofNat 64 (128 * i)))
    | .error (va, .page cause) => (s.noteFail p va).flightPark p f cPageLoad cause va 0 []
    | .error (va, _) =>
      if s.faultRoom (bentOf p) then (s.noteFail p va).veFault p f.words f.pc cAccess va 0 else s.flightHold p f 0 []

/-- VRUN: the counters, the slots and the loop counters as R244 step 3 sets them, then the table store. -/
def State.startRun (s : State) (p : CoreId) (f : Flight) (h : Hdr) (c : VRunOps) : State :=
  let s1 := s.modRng p fun r => if r.vPend then r.seedV (s.lidxOf p) else r
  let run : VRun := { ord := f.ord, cls := h.cls, img := c.img, len := c.len.toNat, first := true }
  (s1.modVe p fun v =>
    { v with counter := 0, due := 0, clamp := false, step := c.entry.toNat, slots := vgen 144 fun _ => none, results := [],
             armed := vgen 4 fun _ => false, lcv := vgen 4 fun i => [c.lc0, c.lc1, c.lc2, c.lc3].getD i 0,
             run := some run, installed := false }).loadTable p f c

def execVrun (h : Hdr) (c : VRunOps) (s : State) : Out :=
  .next (command h
    { chk := orFault (!vrunOk c) cIllegalCmd, go := fun _ f t => t.startRun t.sched.core f h c } s)

def execVstop (h : Hdr) (imm : Bool) (s : State) : Out :=
  .next (command h
    { go := fun _ f t =>
        let p := t.sched.core
        if (t.ve p).run.isSome then t.modVe p fun v => { v with stopr := some (imm, f.ord) } else t.finish p f.ord } s)

/-! ### Bundles (R144, R145) -/

/-- A word of the table store: words after the loaded ones are 0. -/
def Ve.word (v : Ve) (i : Nat) : W32 := v.table.getD i 0

/-- The words of the bundle at a step, through its EOB word; `none` where fourteen words pass without one or the
bundle would pass the store's end. -/
def Ve.bundle (v : Ve) (step : Nat) : Nat → Option (List W32)
  | 0 => none
  | n + 1 =>
    if 8192 ≤ step then none
    else
      let w := v.word step
      if w.getLsbD 31 then some [w] else (Ve.bundle v (step + 1) n).map fun t => w :: t

def distinct {α : Type} [BEq α] : List α → Bool
  | [] => true
  | a :: t => !t.contains a && distinct t

def stnOf (w : W32) : Nat := (w.toNat / 2 ^ 22) % 8
def injs (l : List Instr) : List InjOp := l.filterMap fun i => match i with | .inj o => some o | _ => none
def drns (l : List Instr) : List DrnOp := l.filterMap fun i => match i with | .drn o => some o | _ => none
def times (l : List Instr) : List TimeOp := l.filterMap fun i => match i with | .time o => some o | _ => none

def isStream (i : Instr) : Bool :=
  match i with
  | .inj _ | .drn _ | .srd _ | .swr _ => true
  | _ => false

def isControl (i : Instr) : Bool :=
  match i with
  | .jmpt .. | .loopt _ | .halt _ => true
  | _ => false

/-- The descriptor an order attaches. -/
def sdNamed (i : Instr) : Option (BitVec 4) :=
  match i with
  | .srd o => some o.sd
  | .swr o => some o.sd
  | _ => none

/-- R237 refuses an order on what is attached when its bundle is due (R145). -/
def Ve.refusesOrder (v : Ve) (i : Instr) : Bool :=
  match i with
  | .srd o => v.refuses o.sd (some o.oq.toNat) none
  | .swr o => v.refuses o.sd none (some o.wq.toNat)
  | _ => false

def Ve.attachOne (v : Ve) (i : Instr) : Ve :=
  match i with
  | .srd o => { v.begin o.sd o.rst with oqAtt := vset v.oqAtt o.oq.toNat (some o.sd) }
  | .swr o => { v.begin o.sd o.rst with wqAtt := vset v.wqAtt o.wq.toNat (some o.sd) }
  | _ => v

/-- The walks a bundle attaches; `none` where R237 refuses one, whatever the order of the words. Two orders of a bundle
that name one descriptor attach it to two queues at once, and are refused; of two that name one queue the later word's
stands (log 56). -/
def Ve.attachAll (v : Ve) (l : List Instr) : Option Ve :=
  if distinct (l.filterMap sdNamed) && !l.any v.refusesOrder then some (l.foldl Ve.attachOne v) else none

/-- Station orders of a bundle with their stations. -/
def stationsOf (ws : List W32) (l : List Instr) : List (Nat × (State → State)) :=
  (ws.zip l).filterMap fun x => (stationAct x.2).map fun f => (stnOf x.1, f)

/-- The orders of a bundle, where nothing of R145, R237 or R250 refuses it. -/
def Ve.orders (v : Ve) (ws : List W32) : Option (List Instr) :=
  let l := ws.filterMap decodeOrder
  if l.length = ws.length ∧ distinct ((stationsOf ws l).map (·.1)) ∧ (l.filter isStream).length ≤ 4
      ∧ (times l).length ≤ 1 ∧ (l.filter isControl).length ≤ 1 ∧ distinct ((injs l).map (·.strm))
      ∧ distinct ((drns l).map (·.strm)) ∧ distinct ((drns l).map (·.wq)) ∧ (v.attachAll l).isSome then some l
  else none

/-- A bundle whose TIME order has the cut bit. -/
def isCut (ws : List W32) : Bool := (times (ws.filterMap decodeOrder)).any (·.cut)

/-- Landed vectors the INJs of a bundle on queue `q` need (R250). -/
def injNeed (q : BitVec 3) : Nat → List InjOp → Nat
  | _, [] => 0
  | pops, o :: t =>
    if o.oq = q then max (pops + 1) (injNeed q (if o.keep then pops else pops + 1) t) else injNeed q pops t

/-- Every INJ and DRN of the bundle can act (R248). -/
def Ve.ready (v : Ve) (l : List Instr) : Bool :=
  ((injs l).all fun o => decide (injNeed o.oq 0 (injs l) ≤ ((vget v.oq o.oq.toNat).takeWhile fun e => e.val.isSome).length))
    && (drns l).all fun o => decide ((vget v.wq o.wq.toNat).length < 16)

/-! ### Stream and table-control orders (R250, R251) -/

/-- INJ: the queue's head into Slot(STRM, 0). -/
def Ve.inj (v : Ve) (o : InjOp) : Ve :=
  let q := vget v.oq o.oq.toNat
  { v with slots := vset v.slots (slotNo o.strm.toNat 0) ((q.head?).bind (·.val)),
           oq := if o.keep then v.oq else vset v.oq o.oq.toNat q.tail }

/-- DRN: the exit vector, or zeros, onto the write queue. -/
def Ve.drain (v : Ve) (o : DrnOp) : Ve :=
  { v with wq := vmod v.wq o.wq.toNat (· ++ [(v.slot o.strm.toNat 8).getD 0]),
           slots := vset v.slots (slotNo o.strm.toNat 8) none }

/-- Whether LOOPT jumps, and its counters after (R251). -/
def Ve.loopt (v : Ve) (o : LoopOp) : Bool × Ve :=
  let n := o.lc.toNat
  let start := if o.vr then (vget v.lcv n).toNat else o.cnt.toNat
  let c := if vget v.armed n then vget v.lc n else start
  if c = 0 then (false, { v with lc := vset v.lc n 0, armed := vset v.armed n false })
  else (true, { v with lc := vset v.lc n (c - 1), armed := vset v.armed n true })

def binding (s : State) (p : CoreId) (n : BitVec 4) : Nat := (s.sym p n).binding

/-- d of R65 for a TIME order. -/
def timeDelay (s : State) (p : CoreId) (o : TimeOp) : Int :=
  decodeInt true 8 o.c.toNat + o.k.toNat * (if o.k = 0 then 0 else binding s p o.sym)

def noPark (s : State) (p : CoreId) : Bool :=
  match (s.ve p).run with
  | some r => match (s.core p).flight? r.ord with
    | some f => f.ticket.isNone && !f.waiting
    | none => true
  | none => false

/-! ### Orders acting alone: their part in the bundle that issues -/

def execInj (o : InjOp) (s : State) : Out :=
  .next (let p := s.sched.core
    if (s.ve p).ready [.inj o] then s.modVe p fun v => v.inj o else s.freeze p)

def execDrn (o : DrnOp) (s : State) : Out :=
  .next (let p := s.sched.core
    if (s.ve p).ready [.drn o] then s.modVe p fun v => v.drain o else s.freeze p)

def execSrd (o : SrdOp) (s : State) : Out :=
  .next (let p := s.sched.core
    match (s.ve p).srd o with
    | some v => s.modVe p fun _ => v
    | none => s.veFault p (encode (.srd o)) (BitVec.ofNat 64 (s.ve p).step) cIllegalOp 0 0)

def execSwr (o : SwrOp) (s : State) : Out :=
  .next (let p := s.sched.core
    match (s.ve p).swr o with
    | some v => s.modVe p fun _ => v
    | none => s.veFault p (encode (.swr o)) (BitVec.ofNat 64 (s.ve p).step) cIllegalOp 0 0)

/-- TIME sets when its bundle falls due: d cycles after the one that issued, at least 1 (R65). -/
def State.timeSet (s : State) (p : CoreId) (o : TimeOp) : State :=
  let d := timeDelay s p o
  s.modVe p fun v => { v with due := v.counter + (max 1 d).toNat, clamp := decide (d < 1) }

/-- TIMING_CLAMP: posted as the bundle issues, for one that faults leaves nothing (R65, R145). -/
def State.clampEvent (s : State) (p : CoreId) : State :=
  if (s.ve p).clamp then
    (s.event (bentOf p) 3 (some p) [at_ ((s.ve p).step % 8192) 0]).modVe p fun v => { v with clamp := false }
  else s

def State.timeAct (s : State) (p : CoreId) (o : TimeOp) : State := (s.timeSet p o).clampEvent p

def execTime (o : TimeOp) (s : State) : Out := .next (s.timeAct s.sched.core o)

def Ve.goStep (v : Ve) (n : Nat) : Ve := { v with step := n }

def execJmpt (_eob : Bool) (tgt : BitVec 13) (s : State) : Out :=
  .next (s.modVe s.sched.core fun v => v.goStep tgt.toNat)

def Ve.looptAct (v : Ve) (o : LoopOp) : Ve :=
  match v.loopt o with
  | (true, u) => u.goStep o.tgt.toNat
  | (false, u) => u

def execLoopt (o : LoopOp) (s : State) : Out := .next (s.modVe s.sched.core fun v => v.looptAct o)

def execHalt (_eob : Bool) (s : State) : Out := .next (s.endRun s.sched.core false)

/-! ### The advance and the issue (R230, R248) -/

/-- Steps 1 and 2: every vector moves one station on, and Slot(s, 0) becomes empty. -/
def Ve.hop (v : Ve) : Ve :=
  { v with slots := vgen 144 fun i => if i % 9 = 0 then none else vget v.slots (i - 1) }

/-- Steps 1 to 3: the advance of the counter. -/
def Ve.advance (v : Ve) : Ve :=
  let u := v.hop
  { u with slots := v.results.foldl (fun t r => vset t r.1 (some r.2)) u.slots, results := [], counter := v.counter + 1 }

/-- The masks written by a bundle's orders take their values; of two orders that write one mask the higher station's
stands (DESIGN CHOICE, log 56). -/
def Ve.commitMasks (v : Ve) : Ve :=
  { v with masks := v.maskPend.foldl (fun t r => vset t r.1.toNat r.2) v.masks, maskPend := [] }

/-- Station orders in ascending station order, the order of their draws (R81). -/
def runStations (l : List (Nat × (State → State))) (s : State) : State :=
  (List.range 8).foldl (fun t k => match l.find? fun x => x.1 == k with
    | some x => x.2 t
    | none => t) s

/-- When the bundle now named by the step counter falls due. -/
def State.setDue (s : State) (p : CoreId) : State :=
  match ((s.ve p).bundle (s.ve p).step 14).map fun ws => times (ws.filterMap decodeOrder) with
  | some (o :: _) => s.timeSet p o
  | _ => s.modVe p fun v => { v with due := v.counter + 1, clamp := false }

/-- A bundle issues: stream orders, station orders, masks, then its table-control order. -/
def State.issueBundle (s : State) (p : CoreId) (ws : List W32) (l : List Instr) : State :=
  let v0 := s.ve p
  let v1 := (injs l).foldl Ve.inj v0
  let v2 := (drns l).foldl Ve.drain v1
  let v3 := ((v2.attachAll l).getD v2)
  let s1 := (runStations (stationsOf ws l) (s.modVe p fun _ => v3)).modVe p fun v =>
    { v.commitMasks with step := v.step + ws.length, installed := false,
                         run := v.run.map fun r => { r with first := false } }
  let s2 := s1.count p 0x0E 1
  match l.find? isControl with
  | some (.halt _) => s2.endRun p false
  | some (.jmpt _ tgt) => (s2.modVe p fun v => v.goStep tgt.toNat).setDue p
  | some (.loopt o) => (s2.modVe p fun v => v.looptAct o).setDue p
  | _ => s2.setDue p

/-- The safe-point table's entry for an address, by halving (R351): its ordinal, object and kind. -/
def State.safePoint (s : State) (a : Word) : Nat → Nat → Nat → Option (Nat × Nat × Nat)
  | 0, _, _ => none
  | fuel + 1, lo, hi =>
    if hi ≤ lo then none
    else
      let m := (lo + hi) / 2
      let e := s.trace.spbase.toNat + 16 * m
      let x := s.readPhys e 8
      if x = a.toNat then some (s.readPhys (e + 8) 4, s.readPhys (e + 12) 2, s.readPhys (e + 14) 1)
      else if x < a.toNat then State.safePoint s a fuel (m + 1) hi
      else State.safePoint s a fuel lo m

def State.findSafe (s : State) (a : Word) : Option (Nat × Nat × Nat) := s.safePoint a 33 0 s.trace.spcnt.toNat

/-- A STOP or SAMPLE record (R361). -/
def State.safeRecord (s : State) (p : CoreId) (type bit sub : Nat) (x : Nat × Nat × Nat) (extra : List Word) : State :=
  if s.traceOn bit (some p) then
    s.emit (bentOf p) type sub (some p) ((at_ x.1 0 ||| at_ x.2.1 32 ||| at_ x.2.2 48) :: extra)
  else s

/-- The safe point of the cut bundle that is due, where VEREQ asks for a hold (R352). -/
def State.veHold (s : State) (p : CoreId) : Option (Nat × Nat × Nat) :=
  match (s.ve p).run with
  | some r =>
    if (s.core p).dbg.dbgctl.getLsbD 8 then s.findSafe (r.img + BitVec.ofNat 64 (4 * (s.ve p).step)) else none
  | none => none

/-- Whether the VE may act: no freeze, no stop, a run whose table is loaded. -/
def State.veMay (s : State) (p : CoreId) : Bool :=
  !s.stalled p && !s.halted p && s.faultRoom (bentOf p) && (s.ve p).run.isSome && noPark s p && (s.ve p).ending.isNone

/-- BUNDLE_ISSUE: the counter advances to the due value; then the bundle issues, freezes, begins a cut's drain, or
faults. -/
def State.bundleIssue (s0 : State) (p : CoreId) : State :=
  let s := s0.modVe p fun v => iterate Ve.advance (v.due - v.counter) v
  let v := s.ve p
  let ws? := v.bundle v.step 14
  let ws := ws?.getD (((List.range 14).map fun i => v.word (v.step + i)))
  let cut := isCut ws
  let stop : Bool := match v.stopr with
    | some (imm, _) => imm || cut
    | none => false
  if stop then (s.thaw p).modVe p fun v => { v with cutw := true }
  else match ws?.bind v.orders with
    | none => s.veFault p ws (BitVec.ofNat 64 v.step) cIllegalOp 0 0
    | some l =>
      if cut && !v.installed && ((s.core p).plumb.anyPend || (s.veHold p).isSome) then
        (s.thaw p).modVe p fun v => { v with cutw := true }
      else if !v.ready l then s.freeze p
      else ((s.thaw p).clampEvent p).issueBundle p ws l

def execBundleIssue (p : CoreId) (s : State) : Out :=
  .next (if s.veMay p && !(s.ve p).cutw && !(s.ve p).held then (s.modSched fun x => { x with core := p }).bundleIssue p
    else s)

/-- A drain is over: no vector in a slot, every fetch landed, no attached write queue holding vectors (R68, R233). -/
def Ve.drained (v : Ve) : Bool :=
  (vlist v.slots).all Option.isNone && (vlist v.oq).all landed &&
    ((vlist v.wq).zip (vlist v.wqAtt)).all fun x => x.1.isEmpty || x.2.isNone

/-- CUT_DRAIN: one cycle of a drain; at its end the bindings are installed, and the run ends at a VSTOP, is held for
the debugger, or goes on with the cut bundle. -/
def execCutDrain (p : CoreId) (s : State) : Out :=
  .next (
    let v := s.ve p
    if !s.veMay p || !(v.cutw || (v.held && v.stopr.isSome)) then s
    else if !v.drained then s.modVe p Ve.hop
    else
      let cut := isCut ((v.bundle v.step 14).getD ((List.range 14).map fun i => v.word (v.step + i)))
      let s1 := if cut && (s.core p).plumb.anyPend then s.installBindings p else s
      if v.stopr.isSome then s1.endRun p false
      else match s.veHold p with
        | some x =>
          (s1.safeRecord p 6 3 3 x []).modVe p fun u => { u with cutw := false, held := true }
        | none => s1.modVe p fun u => { u with cutw := false, installed := true })

/-! ### Walks (R232, R235, R238) -/

/-- The next index element of a walk. -/
def Ve.nextIdx (v : Ve) (n : BitVec 4) : Option (Word × Nat) := (v.sdOf n).idx.head?

/-- The elements of an index vector. -/
def indexElems (isz : Bool) (x : Vec) : List Word :=
  let w := if isz then 64 else 32
  (lanesOf w x).map fun e => BitVec.ofInt 64 (decodeInt true w e)

/-- The place of a walk's vector. -/
def State.walkAt (s : State) (p : CoreId) (va : Word) (acc : Acc) : Except XErr Loc :=
  match s.engAt p va 128 acc with
  | .error e => .error e
  | .ok l => if s.isOnChip l || s.isPeer l then .ok l else .error .access

/-- The words and the address of the VRUN that runs. -/
def State.runCmd (s : State) (p : CoreId) : List W32 × Word :=
  match (s.ve p).run.bind fun r => (s.core p).flight? r.ord with
  | some f => (f.words, f.pc)
  | none => ([], 0)

/-- A walk parks at its cursor (R238). -/
def State.walkPark (s : State) (p : CoreId) (n : BitVec 4) (code cause : Byte) (va : Word) : State :=
  let t := s.freshTicket
  let r := s.runCmd p
  (s.reportPage (bentOf p)
      { core := some p, src := epSrc .v, insn := headerOf r.1, pc := r.2, addr := va, elem := ((s.ve p).sdOf n).cur } code
      cause t).modVe p fun v => v.modSd n fun x => { x with ticket := some t, parked := true }

/-- A walk is attached to no queue. -/
def Ve.detach (v : Ve) (n : BitVec 4) : Ve :=
  { v with oqAtt := vgen 8 fun i => if vget v.oqAtt i = some n then none else vget v.oqAtt i,
           wqAtt := vgen 4 fun i => if vget v.wqAtt i = some n then none else vget v.wqAtt i }

/-- A walk faults at its cursor: it is detached, and the run ends (R238). -/
def State.walkFault (s : State) (p : CoreId) (n : BitVec 4) (va : Word) : State :=
  let r := s.runCmd p
  (s.modVe p fun v => v.detach n).veFault p r.1 r.2 cAccess va ((s.ve p).sdOf n).cur

/-- What a walk does at its cursor. -/
inductive WalkStep where
  /-- An index vector is to be read from the index descriptor's walk. -/
  | index
  | data (va : Word) (idx : Option (Word × Nat))
deriving DecidableEq, Repr, Inhabited

def Ve.walkNext (v : Ve) (n : BitVec 4) : WalkStep :=
  let x := v.sdOf n
  if dIdxEn x.d then
    match x.idx with
    | [] => .index
    | e :: _ => .data (x.d.base + e.1 * x.d.str0.signExtend 64) (some e)
  else .data (walkAddr x.d x.cur) none

/-- The index vector that holds index element v of a walk at its vector v, read ahead: its elements from v on, and the
index descriptor's cursor behind it (R235). -/
def State.readIndex (s : State) (p : CoreId) (n : BitVec 4) : State :=
  let x := (s.ve p).sdOf n
  let i := dIdx x.d
  let per := if dIsz x.d then 16 else 32
  let va := walkAddr ((s.ve p).sdOf i).d (x.cur / per)
  match s.walkAt p va .read with
  | .error (.page cause) => (s.noteFail p va).walkPark p n cPageLoad cause va
  | .error _ => (s.noteFail p va).walkFault p n va
  | .ok l =>
    let es := ((indexElems (dIsz x.d) (toVec (s.readLoc p l 128))).drop (x.cur % per)).map fun e => (e, s.live p)
    ((s.used p l 128).modVe p fun v =>
      (v.modSd n fun z => { z with idx := es }).modSd i fun z => { z with cur := x.cur / per + 1 }).note p va

/-- The cursor moves on; a walk that reaches its end drops what is left of its last index vector. -/
def SdState.step (x : SdState) : SdState :=
  let c := x.cur + 1
  { x with cur := c, parked := false, idx := if walkLen x.d ≤ c then [] else x.idx.tail }

/-- A walk on a queue may go on: its vectors are not all done, it is not parked. -/
def Ve.walkMay (v : Ve) (n : BitVec 4) : Bool :=
  let x := v.sdOf n
  x.ticket.isNone && decide (x.cur < walkLen x.d)

/-- WALK_REQUEST: the run-ahead unit requests the next vector of the walk attached to an operand queue. -/
def execWalkRequest (p : CoreId) (q : Fin 8) (s : State) : Out :=
  .next (
    let v := s.ve p
    match vget v.oqAtt q.val with
    | none => s
    | some n =>
      if !s.veMay p || s.changing || v.cutw || !v.walkMay n || decide (16 ≤ (vget v.oq q.val).length) then s
      else match v.walkNext n with
        | .index => s.readIndex p n
        | .data va e =>
          match s.walkAt p va .read with
          | .error (.page cause) => (s.noteFail p va).walkPark p n cPageLoad cause va
          | .error _ => (s.noteFail p va).walkFault p n va
          | .ok l =>
            let x := v.sdOf n
            let entry : OqEntry :=
              { loc := l, val := none, req := (e.map (·.2)).getD (s.live p), sym := if x.parked then none else dTag x.d,
                va := va, elem := x.cur }
            (s.modVe p fun u =>
              let u1 := { u.modSd n SdState.step with oq := vmod u.oq q.val (· ++ [entry]) }
              if walkLen x.d ≤ x.cur + 1 then { u1 with oqAtt := vset u1.oqAtt q.val none } else u1).note p va)

/-- The oldest requested vector of a queue lands with a value. -/
def Ve.land (v : Ve) (q : Nat) (data : Vec) : Ve :=
  { v with oq := vmod v.oq q (modFirst (fun e => e.val.isNone) fun x => { x with val := some data }) }

/-- VECTOR_LANDING: the oldest requested vector of a queue takes its value and lands. One whose links have gone down faults
ACCESS and lands as a free value (R374; log 25). -/
def execVectorLanding (p : CoreId) (q : Fin 8) (s : State) : Out :=
  .next (
    match (vget (s.ve p).oq q.val).find? fun e => e.val.isNone with
    | none => s
    | some e =>
      if s.stalled p || s.formHeld e.loc || (s.core p).testing || !s.granted p 3 e.loc then s
      else if !s.reachableLoc e.loc then
        if s.faultRoom (bentOf p) then
          let r := s.runCmd p
          (s.modVe p fun v => v.land q.val (toVec (Config.lostValue s.sched.tick).toNat)).veFault p r.1 r.2 cAccess e.va e.elem
        else s
      else
        let s1 := ((s.used p e.loc 128).grant p 3 e.loc 128).modVe p fun v => v.land q.val (toVec (s.readLoc p e.loc 128))
        let s2 := match e.sym with
          | some n => s1.sample p n (s.live p - e.req)
          | none => s1
        if (s2.ve p).ending.isSome then s2.tryEnd p else s2)

/-- WRITE_WALK_WRITE: the write walk attached to a queue writes the queue's head. -/
def execWriteWalkWrite (p : CoreId) (q : Fin 4) (s : State) : Out :=
  .next (
    let v := s.ve p
    match vget v.wqAtt q.val, vget v.wq q.val with
    | some n, head :: rest =>
      if s.stalled p || s.changing || s.halted p || !s.faultRoom (bentOf p) || !v.walkMay n then s
      else match v.walkNext n with
        | .index => s.readIndex p n
        | .data va _ =>
          match s.walkAt p va .write with
          | .error (.page cause) => (s.noteFail p va).walkPark p n cPageStore cause va
          | .error _ => (s.noteFail p va).walkFault p n va
          | .ok l =>
            let x := v.sdOf n
            let s1 := ((s.writeHome p l (vecBytes head)).grant p 4 l 128).modVe p fun u =>
              let u1 := { u.modSd n SdState.step with wq := vset u.wq q.val rest }
              if walkLen x.d ≤ x.cur + 1 then { u1 with wqAtt := vset u1.wqAtt q.val none } else u1
            (if (s1.ve p).ending.isSome then s1.tryEnd p else s1).note p va
    | _, _ => s)

end Sys2Proof.Machine
end

