-- ==== Sys2Proof/Machine/RegRead.lean ====
section
/-! DEFINITION. The control-register space: which register a byte belongs to, and what it reads (R32, R41, R42, R54,
R64, R82, R93, R106, R109, R112, R124, R177–R179, R241, R280, R294, R312, R313, R317, R320, R345, R350, R353, R358,
R376, R379, R384, R386, R388). -/

namespace Sys2Proof.Machine

/-- The registers of the control space. -/
inductive Reg where
  | lqBase (q : Nat) | lqSize (q : Nat) | lqPrio (q : Nat) | lqHead (q : Nat) | lqTail (q : Nat)
  | lqWd (q : Nat) (i : Nat) | lqStat (q : Nat)
  | nbr (i : Nat) | featlvl | fvec (j : Nat)
  | trroot | trinv | tlbstat
  | fltBase | fltSize | fltHead | fltTail | fltStat | fltReplay
  | pmrec | pmsave | pmctl | pmcnt
  | rdy | rdyund | rdycore (j : Nat) | oppt
  | trBase | trSize | trHead | trTail | trCtl | trQmask | trSpBase | trSpCnt | trStat | trLost | lqrst | icinv | clklock
  | bksh (n : Nat) | tscol (i : Nat) | tsstk (k : Nat)
  | balival (b : BentId) | errce (b : BentId) | errue (b : BentId) | sitemap (b : BentId) | corectl (b : BentId)
  | rep (b : BentId) (e : Nat)
  | fwcc (b : BentId) (k : Nat) | fwnfast (b : BentId) (k : Nat) | fwnfb (b : BentId) (k : Nat)
  | fwnrej (b : BentId) (k : Nat) | fwstat (b : BentId) (k : Nat)
  | fr (b : BentId) (k r i : Nat)
  /-- A register of a control page, by number, the copy of context `k` where it is context-banked. -/
  | csr (p : CoreId) (k : Ctx) (n : Nat)
  | hlstat | dmwbase | hpbase | hpsize | devid | scstat (n : Nat) | peermap (d : Nat)
  | none
deriving DecidableEq, Repr, Inhabited

/-! ### Which register a byte belongs to -/

/-- A register at byte `o`, its first byte and its width in bytes. -/
abbrev Place4 := Reg × Nat × Nat

def at64 (r : Reg) (o : Nat) : Place4 := (r, o / 8 * 8, 8)
def at32 (r : Reg) (o : Nat) : Place4 := (r, o / 4 * 4, 4)

def lqReg (o : Nat) : Place4 :=
  let q := (o - 0x10000) / 0x40
  match o % 0x40 / 4 with
  | 0 | 1 => at64 (.lqBase q) o
  | 2 => at32 (.lqSize q) o
  | 3 => at32 (.lqPrio q) o
  | 4 => at32 (.lqHead q) o
  | 5 => at32 (.lqTail q) o
  | 6 => at32 (.lqWd q 0) o
  | 7 => at32 (.lqWd q 1) o
  | 8 => at32 (.lqWd q 2) o
  | 9 => at32 (.lqStat q) o
  | _ => at32 .none o

/-- The device block. -/
def devReg (o : Nat) : Place4 :=
  if 0x10000 ≤ o ∧ o < 0x11000 then lqReg o
  else if 0x8000 ≤ o ∧ o < 0x8800 then at64 (.bksh ((o - 0x8000) / 8)) o
  else if 0xA000 ≤ o ∧ o < 0xA000 + 8 * 272 then at64 (.tscol ((o - 0xA000) / 8)) o
  else if 0xB000 ≤ o ∧ o < 0xB100 then at64 (.tsstk ((o - 0xB000) / 8)) o
  else if 0x3000 ≤ o ∧ o < 0x3100 then (if o % 16 < 8 then at64 (.nbr ((o - 0x3000) / 16)) o else at64 .none o)
  else if 0x3108 ≤ o ∧ o < 0x3128 then at64 (.fvec ((o - 0x3108) / 8)) o
  else if 0x6010 ≤ o ∧ o < 0x6030 then at64 (.rdycore ((o - 0x6010) / 8)) o
  else match o / 4 * 4 with
    | 0x2000 | 0x2004 => at64 .trroot o
    | 0x2008 | 0x200C => at64 .trinv o
    | 0x2010 => at32 .tlbstat o
    | 0x3100 => at32 .featlvl o
    | 0x4000 | 0x4004 => at64 .fltBase o
    | 0x4008 => at32 .fltSize o
    | 0x400C => at32 .fltHead o
    | 0x4010 => at32 .fltTail o
    | 0x4014 => at32 .fltStat o
    | 0x4018 => at32 .fltReplay o
    | 0x5000 | 0x5004 => at64 .pmrec o
    | 0x5008 | 0x500C => at64 .pmsave o
    | 0x5010 => at32 .pmctl o
    | 0x5018 => at32 .pmcnt o
    | 0x6000 | 0x6004 => at64 .rdy o
    | 0x6008 => at32 .rdyund o
    | 0x6030 => at32 .oppt o
    | 0x7000 | 0x7004 => at64 .trBase o
    | 0x7008 => at32 .trSize o
    | 0x700C => at32 .trHead o
    | 0x7010 => at32 .trTail o
    | 0x7014 => at32 .trCtl o
    | 0x7018 | 0x701C => at64 .trQmask o
    | 0x7020 | 0x7024 => at64 .trSpBase o
    | 0x7028 => at32 .trSpCnt o
    | 0x702C => at32 .trStat o
    | 0x7030 | 0x7034 => at64 .trLost o
    | 0x7038 => at32 .lqrst o
    | 0x7040 | 0x7044 => at64 .icinv o
    | 0x7048 => at32 .clklock o
    | _ => at32 .none o

/-- The control page of a core. -/
def pageReg (p : CoreId) (o : Nat) : Place4 :=
  if o < 0x180 then
    let k : Ctx := if o < 0x80 then .ld else if o < 0x100 then .cp else .st
    at64 (if o % 0x80 / 8 < 16 then .csr p k (o % 0x80 / 8) else .none) o
  else at64 (.csr p .ld (o / 8)) o

def bentReg (b : BentId) (o : Nat) : Place4 :=
  if 0x100000 ≤ o ∧ o < 0x180000 then
    let (r, s, w) := pageReg (coreOfBent b ((o - 0x100000) / 0x8000)) (o % 0x8000)
    (r, o - o % 0x8000 + s, w)
  else if 0x10000 ≤ o ∧ o < 0x12000 then
    let k := (o - 0x10000) / 0x1000
    let x := o % 0x1000
    if 0x800 ≤ x ∧ x < 0xA00 then at64 (.fr b k ((x - 0x800) / 0x20) (x % 0x20 / 8)) o
    else match x / 4 with
      | 0 | 1 => at64 (.fwcc b k) o
      | 2 | 3 => at64 (.fwnfast b k) o
      | 4 | 5 => at64 (.fwnfb b k) o
      | 6 | 7 => at64 (.fwnrej b k) o
      | 8 => at32 (.fwstat b k) o
      | _ => at32 .none o
  else if 0x800 ≤ o ∧ o < 0xA00 then at64 (.rep b ((o - 0x800) / 8)) o
  else match o / 4 * 4 with
    | 0 => at32 (.balival b) o
    | 0x100 | 0x104 => at64 (.errce b) o
    | 0x108 | 0x10C => at64 (.errue b) o
    | 0x200 | 0x204 => at64 (.sitemap b) o
    | 0x208 => at32 (.corectl b) o
    | _ => at32 .none o

def linkReg (o : Nat) : Place4 :=
  if 0x1000 ≤ o ∧ o < 0x1090 then at64 (.scstat ((o - 0x1000) / 8)) o
  else if 0x2000 ≤ o ∧ o < 0x3000 then at32 (.peermap ((o - 0x2000) / 4)) o
  else match o / 4 * 4 with
    | 0 => at32 .hlstat o
    | 8 | 0xC => at64 .dmwbase o
    | 0x10 | 0x14 => at64 .hpbase o
    | 0x18 | 0x1C => at64 .hpsize o
    | 0x20 => at32 .devid o
    | _ => at32 .none o

def shiftPlace (base : Nat) (x : Place4) : Place4 := (x.1, base + x.2.1, x.2.2)

/-- The register that holds byte `o` of the control space (R32). -/
def regAt (o : Nat) : Place4 :=
  if o < 0x1000000 then devReg o
  else if o < 0x3000000 then
    let b := (o - 0x1000000) / 0x200000
    shiftPlace (0x1000000 + b * 0x200000) (bentReg (bentOfNat b) ((o - 0x1000000) % 0x200000))
  else if o < 0x4000000 then shiftPlace 0x3000000 (linkReg (o - 0x3000000))
  else at32 .none o

/-! ### What a register reads -/

def LaunchQ.statWord (q : LaunchQ) (running : Nat) : Word :=
  at_ (min 255 running) 8 ||| (q.stat.setWidth 64 &&& 0x3C) ||| at_ q.cfgerr.toNat 1 ||| at_ q.headwait.toNat 0

def State.runningOf (s : State) (q : BitVec 6) : Nat := (s.launch.gangs.filter fun g => g.lq == q).length

/-- A numeric behaviour record (R93). -/
def nbrWord (i : Nat) : Word :=
  match i with
  | 0 => 0x0008202001000102
  | 1 => 0x0006202001000003
  | 2 => 0x0007202001000003
  | 3 => 0x0005202001000003
  | 4 => 0x0000202001010000
  | _ => 0

def Faults.cfgerr (f : Faults) : Bool := f.size != 0 && !pow2In 64 65536 f.size.toNat

def State.fltWait (s : State) : Bool := !s.flt.errors.isEmpty || (vlist s.bents).any fun b => !b.faults.isEmpty

def Pm.busy (x : Pm) : Bool := x.op.isSome || x.req != 0

def Pm.ctl (x : Pm) : Word :=
  at_ x.ecode.toNat 8 ||| at_ x.err.toNat 5 ||| at_ x.done.toNat 4 ||| at_ x.busy.toNat 3

def Clock.oppt (c : Clock) : Word :=
  at_ c.cur.toNat 10 ||| at_ c.req.toNat 8 ||| at_ c.cap.toNat 6 ||| at_ c.busy.isSome.toNat 4

def Clock.lockWord (c : Clock) : Word :=
  at_ c.cur.toNat 8 ||| at_ c.broken.toNat 5 ||| at_ c.lock.toNat 4 ||| at_ c.op.toNat 0

def Trace.cfgerr (t : Trace) : Bool := t.size != 0 && !t.on

/-- TRSTAT. FULL reads 0 while the ring has no size, as its reset value says (R358, log 30). -/
def Trace.stat (t : Trace) : Word :=
  at_ (!t.icinv.isEmpty).toNat 3 ||| at_ t.rst.isSome.toNat 2 ||| at_ t.cfgerr.toNat 1
    ||| at_ (t.size != 0 && t.full).toNat 0

def State.corectl (s : State) (b : BentId) : Word :=
  at_ ((List.range 16).map fun k => if (s.core (coreOfBent b k)).fenced then 2 ^ k else 0).sum 0

def Scarf.stat (x : Scarf) : Word :=
  at_ x.resend.toNat 32 ||| at_ x.retrain.toNat 8 ||| at_ x.training.toNat 1 ||| at_ x.up.toNat 0

def Links.hlstat (l : Links) : Word :=
  at_ l.cxl.toNat 4 ||| at_ (vget l.up 1).toNat 1 ||| at_ (vget l.up 0).toNat 0

/-- VEHELD is the unit's own bit; VEREQ and STOPREQ stand in the register. -/
def Core.dbgctl (c : Core) : Word := (c.dbg.dbgctl &&& 0x107) ||| at_ c.ve.held.toNat 9

/-- A register of a core's page. -/
def State.csrGet (s : State) (p : CoreId) (k : Ctx) (n : Nat) : Word :=
  let c := s.core p
  let x := c.getCtx k
  if n < 0x10 then
    match n with
    | 0 => x.status | 1 => x.tvec | 2 => x.tepc | 3 => x.tcause | 4 => x.tval | 5 => x.tscr | 6 => x.tword | 7 => x.xres
    | 8 => c.ctxid k
    | _ => 0
  else if 0x80 ≤ n ∧ n < 0x90 then (vget c.plumb.syms (n - 0x80)).reg
  else if 0x92 ≤ n ∧ n < 0x9A then vget c.gate.tslot (n - 0x92)
  else if 0xA8 ≤ n ∧ n < 0xB8 then (vget c.pods (n - 0xA8)).reg
  else if 0xC0 ≤ n ∧ n < 0xC8 then vget c.dbg.wpaddr (n - 0xC0)
  else if 0xC8 ≤ n ∧ n < 0xD0 then vget c.dbg.wpctl (n - 0xC8)
  else if 0xD0 ≤ n ∧ n < 0xE0 then vget c.dbg.pmctr (n - 0xD0)
  else match n with
    | 0x30 => BitVec.ofNat 64 s.cycle
    | 0x90 => c.plumb.retime
    | 0x91 => s.plfreeze p
    | 0xA0 => c.rng.seed
    | 0xA1 => at_ (s.bay (bayOf p)).fused.toNat 1 ||| at_ c.fuse.toNat 0
    | 0xA2 => c.monstat
    | 0xA4 => c.ve.vstat
    | 0xA5 => c.me.mstat
    | 0xA6 => c.engflt
    | 0xE0 => c.dbg.pmsel0
    | 0xE1 => c.dbg.pmsel1
    | 0xE2 => c.dbg.pmctl
    | 0xF0 => c.dbgctl
    | _ => 0

def State.ctlUnit (s : State) (b : BentId) (k : Nat) : Ctl := vget (s.bent b).ctl k

def FmtReg.get (f : FmtReg) (i : Nat) : Word :=
  match i with
  | 0 => f.view | 1 => f.src | 2 => f.scl | _ => f.ctl

/-- RDY, with the bit of each stack that has trained by now (R377, R379). -/
def State.rdyWord (s : State) : Word := s.ready.rdy ||| at_ (((List.range 32).filter s.trained).map fun k => 2 ^ k).sum 16

def State.regGet (s : State) (r : Reg) : Word :=
  let lq := fun q => s.lq (BitVec.ofNat 6 q)
  match r with
  | .lqBase q => (lq q).base
  | .lqSize q => (lq q).size.setWidth 64
  | .lqPrio q => (lq q).prio.setWidth 64
  | .lqHead q => (lq q).head.setWidth 64
  | .lqTail q => (lq q).tail.setWidth 64
  | .lqWd q i => (if i = 0 then (lq q).wdl1 else if i = 1 then (lq q).wdl2 else (lq q).wdl3).setWidth 64
  | .lqStat q => (lq q).statWord (s.runningOf (BitVec.ofNat 6 q))
  | .nbr i => nbrWord i
  | .featlvl => 0x00010100
  | .fvec j => if j = 0 then (if s.links.cxl then 0x1FFF else 0xFFF) else 0
  | .trroot => s.trans.root
  | .tlbstat => b2w (!s.trans.inv.isEmpty)
  | .fltBase => s.flt.base
  | .fltSize => s.flt.size.setWidth 64
  | .fltHead => s.flt.head.setWidth 64
  | .fltTail => s.flt.tail.setWidth 64
  | .fltStat => at_ s.flt.badaddr.toNat 3 ||| at_ s.fltWait.toNat 2 ||| at_ s.flt.cfgerr.toNat 1
      ||| at_ (s.flt.size != 0 && s.flt.full).toNat 0
  | .pmrec => s.pm.pmrec
  | .pmsave => s.pm.save
  | .pmctl => s.pm.ctl
  | .pmcnt => at_ s.launch.pre.length 0
  | .rdy => s.rdyWord
  | .rdyund => s.ready.und.setWidth 64
  | .rdycore j => vget s.ready.core j
  | .oppt => s.clock.oppt
  | .trBase => s.trace.base
  | .trSize => s.trace.size.setWidth 64
  | .trHead => s.trace.head.setWidth 64
  | .trTail => s.trace.tail.setWidth 64
  | .trCtl => s.trace.ctl.setWidth 64
  | .trQmask => s.trace.qmask
  | .trSpBase => s.trace.spbase
  | .trSpCnt => s.trace.spcnt.setWidth 64
  | .trStat => s.trace.stat
  | .trLost => s.trace.lost
  | .clklock => s.clock.lockWord
  | .bksh n => vget s.bksh n
  | .tscol i => (vget s.clock.tscol i).setWidth 64
  | .tsstk k => vget s.clock.tsstk k
  | .balival b => (s.bent b).balival.setWidth 64
  | .errce b => (s.bent b).errce
  | .errue b => (s.bent b).errue
  | .sitemap b => (s.bent b).sitemap
  | .corectl b => s.corectl b
  | .rep b e => vget (s.bent b).rep e
  | .fwcc b k => let c := s.ctlUnit b k; c.chg.getD c.fwcc
  | .fwnfast b k => (s.ctlUnit b k).nfast
  | .fwnfb b k => (s.ctlUnit b k).nfb
  | .fwnrej b k => (s.ctlUnit b k).nrej
  | .fwstat b k => at_ (s.ctlUnit b k).cmds.length 8 ||| at_ (s.ctlUnit b k).chg.isSome.toNat 1 ||| at_ (s.isHot (2 * b.val + k)).toNat 0
  | .fr b k r i => (vget (s.ctlUnit b k).fr r).get i
  | .csr p k n => s.csrGet p k n
  | .hlstat => s.links.hlstat
  | .dmwbase => s.links.dmwbase
  | .hpbase => s.links.hpbase
  | .hpsize => s.links.hpsize
  | .devid => s.links.devid.setWidth 64
  | .scstat n => (vget s.links.sc n).stat
  | .peermap d => (vget s.links.peermap d).setWidth 64
  | .trinv | .fltReplay | .lqrst | .icinv | .none => 0

/-- A byte of the control space. -/
def State.ctlByte (s : State) (o : Nat) : Byte :=
  let (r, start, _) := regAt o
  byteOf (s.regGet r).toNat (o - start)

/-- `n` bytes of the control space, little-endian. -/
def State.ctlRead (s : State) (o n : Nat) : Nat := leNat s.ctlByte o n

/-- `n` bytes at any physical address. -/
def State.readAny (s : State) (a n : Nat) : Nat :=
  match s.space a with
  | .ctl o => s.ctlRead o n
  | _ => s.readPhys a n

end Sys2Proof.Machine
end

