-- ==== Sys2Proof/Machine/Settle.lean ====
section
/-! DEFINITION. Performing what a context has issued (R95, R96, R115–R119, R171, R186–R189), one access at a time, and
all of it at once where a core stops (R51, R57, R321). -/

namespace Sys2Proof.Machine

/-- The offset in the control space of a place, if it lies there. -/
def State.ctlOff (s : State) (l : Loc) : Option Nat :=
  match s.locSpace l with
  | some (.ctl o) => some o
  | _ => none

/-- `n` bytes as a 64-bit value (R186, R188). -/
def extend (sext : Bool) (n v : Nat) : Word := if sext then BitVec.ofInt 64 (asInt n v) else BitVec.ofNat 64 (v % 2 ^ (8 * n))

/-- A host or peer place whose link is down, or whose request ends in an error (R369, R374). -/
def State.gone (s : State) (l : Loc) : Bool :=
  match l with
  | .phys a => l.isOutside && !s.reachable a
  | .spad _ => false

/-- An access that its link loses after it issued: the entry of a load or atomic is filled with a free value, and the
context traps ACCESS as its instruction would have, or, where it no longer issues, a record alone says so (log 25).
`none` where the record it may need finds no room (R313). -/
def State.loseAccess (s : State) (p : CoreId) (k : Ctx) (i : Pend) : Option State :=
  let s1 := s.modCore p fun c => c.fill k i.id i.dst (Config.lostValue s.sched.tick)
  if !s.faultRoom (bentOf p) then none
  else if (s1.ctx p k).run = .issuing then some (s1.trap p k cAccess 0 i.orig.va i.orig.pc i.orig.word)
  else
    some (s1.report (bentOf p)
      { core := some p, src := k.idx.val, insn := i.orig.word, pc := i.orig.pc, addr := i.orig.va } cAccess 0)

def State.dropPend (s : State) (p : CoreId) (k : Ctx) (id : Nat) : State :=
  s.modCtx p k fun x => { x with pend := x.pend.filter fun j => j.id != id }

/-- One item performed: a value lands, a load reads, an atomic acts at its home, a store is written. A store to a
control register is not performed here, and a fence takes effect by itself: `none`. -/
def State.performItem (s : State) (p : CoreId) (k : Ctx) (i : Pend) : Option State :=
  let s0 := s.dropPend p k i.id
  let fill := fun (t : State) (v : Word) => t.modCore p fun c => c.fill k i.id i.dst v
  match i.kind with
  | .value v => some (fill s0 v)
  | .load _ l n sx =>
    if s.gone l then s0.loseAccess p k i
    else some (match s.ctlOff l with
      | some o => fill s0 (extend sx n (s.ctlRead o n))
      | none => let (v, t) := s0.loadScalar p l n; fill (t.grant p (requester k) l n) (extend sx n v))
  | .store _ l n v =>
    if s.gone l then s0.loseAccess p k i
    else match s.ctlOff l with
      | some _ => none
      | none => some ((s0.storeScalar p l (bytesOfNat v.toNat n)).grant p (requester k) l n)
  | .atomic l n op b new =>
    if s.gone l then s0.loseAccess p k i
    else
      let m := s.readLoc p l n
      some (fill ((s0.writeHome p l (bytesOfNat (op.apply n m b.toNat new.toNat) n)).grant p (requester k) l n) (extend true n m))
  | _ => none

/-- The same of an item of a context. -/
def State.itemGranted (s : State) (p : CoreId) (k : Ctx) (i : Pend) : Bool :=
  match i.loc? with
  | some (l, _) => s.granted p (requester k) l
  | none => true

/-- A context's items performed in order, at most `n` of them; a control-register store waits. -/
def State.drainCtx (s : State) (p : CoreId) (k : Ctx) : Nat → State
  | 0 => s
  | n + 1 =>
    let pend := (s.ctx p k).pend
    match pend.find? fun i => mayPerform pend i && (s.performItem p k i).isSome with
    | none => s
    | some i =>
      match s.performItem p k i with
      | some t => State.drainCtx (t.settle p) p k n
      | none => s

/-- An entry applied, or kept where its record has no room (R313). -/
def State.flushOne (p : CoreId) (s : State) (e : Comb) : State :=
  if s.combGone e && !s.faultRoom (bentOf p) then s.modCore p fun c => { c with comb := c.comb ++ [e] } else s.applyComb p e

/-- The combining buffer flushed whole. -/
def State.flushComb (s : State) (p : CoreId) : State :=
  ((s.core p).comb.foldl (State.flushOne p) (s.modCore p fun c => { c with comb := [] })).settle p

/-- Everything the core's contexts have issued is performed, and its combining buffer flushed. -/
def State.drain (s : State) (p : CoreId) : State :=
  let s1 := [Ctx.ld, Ctx.cp, Ctx.st].foldl (fun t k => t.drainCtx p k (t.ctx p k).pend.length) s
  let s2 := s1.flushComb p
  [Ctx.ld, Ctx.cp, Ctx.st].foldl (fun t k => t.drainCtx p k (t.ctx p k).pend.length) s2

/-- An item whose access a region change holds (R297). -/
def State.itemHeld (s : State) (i : Pend) : Bool :=
  match i.loc? with
  | some (l, _) => s.formHeld l
  | none => false

/-- Whether the context still waits for an access to perform. -/
def Context.busy (x : Context) : Bool := x.pend.any fun i => i.isAccess

end Sys2Proof.Machine
end

