-- ==== Sys2Proof/Machine/Launch.lean ====
section
/-! DEFINITION. Launch records and queues, placement, group start, the end of a gang, the watchdog
(R13–R16, R37–R48, R51, R53, R59–R61, R64, R82, R204, R221, R268, R291, R380). -/

namespace Sys2Proof.Machine

/-! ### Sites, columns and temperatures (R13–R15, R26) -/

/-- The site of core `j` = bay × 4 + core of a bent with no failed site. -/
def baseSite (j : Nat) : Nat := j / 4 / 2 * 8 + j / 4 % 2 * 2 + j % 4 / 2 * 4 + j % 2

def spareFor (sitemap : Word) : Nat := (sitemap.extractLsb' 17 5).toNat
def bentFenced (sitemap : Word) : Bool := sitemap.getLsbD 22

/-- The site a core stands on: site 16 where it replaces the core's own. -/
def State.siteOf (s : State) (p : CoreId) : Nat :=
  let b := baseSite (p.val % 16)
  if spareFor (s.bent (bentOf p)).sitemap = b then 16 else b

/-- Sites of one bent that share a grid edge. -/
def adjoins (a b : Nat) : Bool :=
  if a = 16 ∨ b = 16 then (a = 16 ∧ (b = 13 ∨ b = 14)) ∨ (b = 16 ∧ (a = 13 ∨ a = 14))
  else (a / 4 = b / 4 ∧ (a + 1 = b ∨ b + 1 = a)) ∨ (a + 4 = b ∨ b + 4 = a)

def State.coresAdjoin (s : State) (p q : CoreId) : Bool := bentOf p == bentOf q && adjoins (s.siteOf p) (s.siteOf q)

/-- T0 of a core's column, in eighths of a degree. -/
def State.t0 (s : State) (p : CoreId) : Int :=
  reading ((vget s.clock.tscol (17 * (bentOf p).val + s.siteOf p)).setWidth 64) 0

/-- Below 95 °C. -/
def State.cool (s : State) (p : CoreId) : Bool := decide (s.t0 p < 760)

/-! ### Which cores may be placed (R45, R46, R380) -/

def State.coreBit (s : State) (p : CoreId) : Bool := (vget s.ready.core (p.val / 64)).getLsbD (p.val % 64)
def State.coreEnabled (s : State) (p : CoreId) : Bool := s.coreBit p && s.ready.rdy.getLsbD (bentOf p).val

/-- Enabled and unfenced, or to be so once its bent's or its own test ends: a record that arrives early waits. -/
def State.mayServe (s : State) (p : CoreId) : Bool :=
  let b := s.bent (bentOf p)
  !(s.core p).fenced && !bentFenced b.sitemap && (s.coreEnabled p || !b.marched || (s.core p).testing)

def State.eligible (s : State) (p : CoreId) : Bool :=
  s.coreEnabled p && !(s.core p).fenced && !(s.core p).testing && (s.core p).place.isNone && s.cool p

/-- The windows the search tries, lowest first. -/
def windows (n : Nat) : List (List CoreId) :=
  let run := fun lo len => (List.range len).map fun i => coreOfNat (lo + i)
  if n ≤ 4 then (List.range 64).map fun y => run (4 * y) 4
  else if n ≤ 16 then (List.range 16).map fun b => run (16 * b) 16
  else
    let k := (n + 15) / 16
    (List.range (17 - k)).map fun b => run (16 * b) (16 * k)

/-- The placement search: the cores in placement order. -/
def search (ok : CoreId → Bool) (n : Nat) : Option (List CoreId) :=
  (windows n).findSome? fun w =>
    let e := w.filter ok
    if n ≤ e.length then some (e.take n) else none

/-- The second pass of R47: each remaining core to the next group that holds fewer than MAXC. -/
def dealOut (maxc : List Nat) : Nat → Nat → List Nat → List Nat → List Nat
  | 0, _, _, acc => acc
  | fuel + 1, need, cnt, acc =>
    let g := fuel % maxc.length
    let k := maxc.length - 1 - g
    if need = 0 then acc
    else if cnt.getD k 0 < maxc.getD k 0 then
      dealOut maxc fuel (need - 1) (lmod k (· + 1) cnt) (acc ++ [k])
    else dealOut maxc fuel need cnt acc

/-- The group of each core in placement order (R47). -/
def assign (minc maxc : List Nat) (n : Nat) : List Nat :=
  let first := (minc.zipIdx.flatMap fun x => List.replicate x.1 x.2).take n
  dealOut maxc (257 * maxc.length) (n - first.length) minc first

/-! ### Records (R38, R39) -/

structure LGroup where
  entld : Word
  entcp : Word
  entst : Word
  symb : Word
  minc : Nat
  maxc : Nat
  nio : Nat
  inq : List Nat
  outq : List Nat
  tasks : Word
  res : Nat
  z : Nat
deriving DecidableEq, Repr, Inhabited

structure LRec where
  gctl : Nat
  n : Nat
  z : Nat
  param : Word
  donectr : Word
  statusa : Word
  deps : List (Word × Nat)
  qdesca : Word
  savea : Word
  groups : List LGroup
deriving DecidableEq, Repr, Inhabited

/-- Bytes as the launch scheduler reads them (R103); `none` where one is untranslatable. -/
def State.supBytes (s : State) (va : Word) : Nat → Option (List Byte)
  | 0 => some []
  | n + 1 =>
    match s.translateSup va .read with
    | .error _ => none
    | .ok a => (State.supBytes s (va + 1) n).map fun t => BitVec.ofNat 8 (s.readAny a 1) :: t

def fieldAt (l : List Byte) (o n : Nat) : Nat := leOfBytes ((l.drop o).take n)
def wordAt (l : List Byte) (o : Nat) : Word := BitVec.ofNat 64 (fieldAt l o 8)

def groupEntry (l : List Byte) (g : Nat) : LGroup :=
  let o := 0x80 + 64 * g
  let nio := fieldAt l (o + 0x24) 1
  let idx := fun x n => (List.range n).map fun i => fieldAt l (x + i) 1
  { entld := wordAt l o, entcp := wordAt l (o + 8), entst := wordAt l (o + 0x10), symb := wordAt l (o + 0x18),
    minc := fieldAt l (o + 0x20) 2, maxc := fieldAt l (o + 0x22) 2, nio := nio,
    inq := idx (o + 0x28) (min 4 (nio % 8)), outq := idx (o + 0x2C) (min 4 (nio / 16 % 8)),
    tasks := wordAt l (o + 0x30), res := fieldAt l (o + 0x38) 8, z := fieldAt l (o + 0x25) 3 }

def recordOf (l : List Byte) : LRec :=
  { gctl := fieldAt l 0 4, n := fieldAt l 4 2, z := fieldAt l 6 2 + fieldAt l 0x70 16, param := wordAt l 8,
    donectr := wordAt l 0x10, statusa := wordAt l 0x18,
    deps := (List.range 4).filterMap fun i =>
      if wordAt l (0x20 + 8 * i) = 0 then none else some (wordAt l (0x20 + 8 * i), fieldAt l (0x40 + 8 * i) 8),
    qdesca := wordAt l 0x60, savea := wordAt l 0x68,
    groups := (List.range (fieldAt l 0 1 % 16 + 1)).map (groupEntry l) }

def LRec.nq (r : LRec) : Nat := r.gctl / 256 % 256
def LRec.prio (r : LRec) : Nat := r.gctl / 16 % 4

/-- A record as the scheduler reads it; `none` where it is dropped (first check of R39). -/
def State.readRecord (s : State) (a : Word) : Option LRec :=
  if a.toNat % 256 ≠ 0 then none
  else match s.supBytes a 1 with
    | some (b :: _) => (s.supBytes a (0x80 + 64 * (b.toNat % 16 + 1))).map recordOf
    | _ => none

/-- A symbol bound table: `none` where a byte is untranslatable. -/
def State.symTable (s : State) (va : Word) : Option (List Byte) := if va = 0 then some [] else s.supBytes va 32

def symBad (l : List Byte) : Bool :=
  (List.range (l.length / 2)).any fun i =>
    let lo := (l.getD (2 * i) 0).toNat
    let hi := (l.getD (2 * i + 1) 0).toNat
    (lo == 0 && hi != 0) || decide (hi < lo)

/-- What R39 refuses of a group entry; MAXC above 256 and an input or output count above 4, for which the record has no
room, are refused with it (DESIGN CHOICE, log 49). -/
def State.groupBad (s : State) (nq : Nat) (g : LGroup) : Bool :=
  g.nio / 8 % 2 != 0 || g.nio / 128 != 0 || decide (4 < g.nio % 8) || decide (4 < g.nio / 16 % 8) || g.z != 0
    || decide (2 ^ 40 ≤ g.res) || g.entcp == 0 || g.minc == 0 || decide (g.maxc < g.minc) || decide (256 < g.maxc)
    || (g.inq ++ g.outq).any (fun i => decide (nq ≤ i)) || match s.symTable g.symb with
      | none => true
      | some l => symBad l

def misaligned (a : Word) (n : Nat) : Bool := a.toNat % n != 0

/-- The second check of R39; NQ above 64 is refused with it (DESIGN CHOICE, log 49). DEPAi is no counter that the record has
the hardware write, and is not checked: its bits 2:0 are ignored where it is read (DESIGN CHOICE, log 53). -/
def State.malformed (s : State) (r : LRec) : Bool :=
  let lo := (r.groups.map (·.minc)).sum
  let hi := (r.groups.map (·.maxc)).sum
  r.gctl / 65536 != 0 || r.gctl / 64 % 4 != 0 || r.z != 0 || decide (64 < r.nq) || r.groups.any (s.groupBad r.nq)
    || decide (r.n < 1 ∨ 256 < r.n ∨ r.n < lo ∨ hi < r.n) || misaligned r.donectr 8 || misaligned r.statusa 8
    || misaligned r.savea 4096

/-- The third check. -/
def State.oversize (s : State) (r : LRec) : Bool :=
  (r.groups.any fun g => decide (2048 < g.res % 65536 ∨ 32 < g.res / 65536 % 256 ∨ 256 < g.res / 2 ^ 24 % 65536))
    || (search s.mayServe r.n).isNone

/-! ### The status word and the counter (R40) -/

/-- A doubleword the scheduler writes. Nothing is written, and nothing reported, where its address does not translate or
lies in a format-region view, which takes no write (DESIGN CHOICE, log 53). -/
def State.supWrite (s : State) (va : Word) (v : Word) : State :=
  match s.translateSup va .write with
  | .ok a => if s.inView (.phys a) then s else s.writeSup (a / 8 * 8) (bytesOfNat v.toNat 8)
  | .error _ => s

/-- 1 added to a doubleword, where `supWrite` would write it. -/
def State.supAdd (s : State) (va : Word) : State :=
  match s.translateSup va .rmw with
  | .ok a =>
    if s.inView (.phys a) then s
    else s.writeSup (a / 8 * 8) (bytesOfNat ((s.readPhys (a / 8 * 8) 8 + 1) % 2 ^ 64) 8)
  | .error _ => s

/-- The status word, then DONECTR + 1; every access of the gang has performed before. -/
def State.outcomeNow (s : State) (statusa donectr : Word) (code : Byte) : State :=
  let s1 := if statusa = 0 then s else s.supWrite statusa (code.setWidth 64)
  if donectr = 0 then s1 else s1.supAdd donectr

/-- The same, held while a region change is under way (R297). -/
def State.outcome (s : State) (statusa donectr : Word) (code : Byte) : State :=
  if s.changing then s.modLaunch fun l => { l with owed := l.owed ++ [.outcome statusa donectr code] }
  else s.outcomeNow statusa donectr code

/-! ### Group start (R48) -/

def Ve.groupStart (v : Ve) : Ve := { ({} : Ve) with table := v.table, step := v.step, counter := v.counter }

/-- A context with nothing in its registers, stopped. -/
def Context.cleared (x : Context) : Context :=
  { x with regs := Vector.replicate 32 [], sup := Vector.replicate 4 [], run := .notStarted, shadow := none,
           stepOver := false, qclr := none, wait := none, blocked := false, ticket := none, mcfg := none }

/-- A context begins at its entry in user mode with PARAM in x1 and its place in x2; a zero entry leaves it idle. -/
def Context.begin (x : Context) (entry param place : Word) : Context :=
  let y := x.cleared
  if entry = 0 then y
  else
    let q := fun id v => [({ id := id, val := v, filled := true } : QEntry)]
    { y with pc := entry, run := .issuing, status := setBit y.status 0 false, nextId := y.nextId + 2,
             regs := vset (vset y.regs 1 (q y.nextId param)) 2 (q (y.nextId + 1) place) }

def plumbStart (bounds : List Byte) : Plumb :=
  { syms := vgen 16 fun i => symStart (bounds.getD (2 * i) 0).toNat (bounds.getD (2 * i + 1) 0).toNat }

/-- The core as a start of group `g` leaves it; packets in its spawn queue stay where `keep` says so (R57). -/
def Core.groupStart (c : Core) (i : Byte) (g : BitVec 4) (grp : Group) (param : Word) (keep : Bool) : Core :=
  let place := at_ g.toNat 8 ||| at_ i.toNat 0
  { c with
    ctx := #v[(c.getCtx .ld).begin grp.entld param place, (c.getCtx .cp).begin grp.entcp param place,
              (c.getCtx .st).begin grp.entst param place],
    chans := Vector.replicate 4 [], tok := Vector.replicate 16 0, eng := Vector.replicate 4 {}, flights := [],
    mon := [], plumb := plumbStart (grp.bounds.getD []), gate := { spawnq := if keep then c.gate.spawnq else [] },
    rng := { vg := seedBank 0 0x9E3779B9 i.toNat, mg := seedBank 0 0x85EBCA6B i.toNat }, fuse := false,
    ve := c.ve.groupStart, me := Me.groupStart, pods := Vector.replicate 16 {}, engflt := 0, move := none,
    place := c.place.map fun p => { p with group := g } }

/-- An L1 access of a bay is outstanding. -/
def State.l1Busy (s : State) (y : Fin 64) : Bool :=
  (bayCores y).any fun q => (vlist (s.core q).ctx).any fun x => x.pend.any fun i => match i.loc? with
    | some (l, _) => s.isDev l
    | none => false

/-- The L1s of a bay are emptied and separate: steps 3 and 4 of R110. -/
def State.separate (s : State) (y : Fin 64) : State :=
  ((bayCores y).foldl (fun t q => t.modCore q fun c => { c with l1 := [] }) s).modBay y fun b =>
    { b with fused := false, unfusing := false }

/-- All four cores of a bay belong to one gang, run, and hold FUSE = 1: the bay is fused or about to be. -/
def State.mayFuse (s : State) (y : Fin 64) : Bool :=
  let g := s.gangNo (coreOfBay y 0)
  g.isSome && (bayCores y).all fun q => s.gangNo q == g && (s.core q).fuse && !(s.core q).saving

/-- A bay that changes its mode holds new accesses, from the event that calls for it until the L1s are empty (R110). -/
def State.fuseHeld (s : State) (y : Fin 64) : Bool := (s.bay y).unfusing || (!(s.bay y).fused && s.mayFuse y)

/-- A fused bay's L1s separate, at once or, with accesses outstanding, once they have performed. -/
def State.unfuse (s : State) (y : Fin 64) : State :=
  if !(s.bay y).fused then s
  else if s.l1Busy y then s.modBay y fun b => { b with unfusing := true }
  else s.separate y

def State.startGroup (s : State) (p : CoreId) (g : BitVec 4) (keep : Bool) : State :=
  match s.gangOf p, (s.core p).place with
  | some gang, some pl =>
    match gang.groups[g.toNat]? with
    | some grp =>
      ((s.dropSubs p).unfuse (bayOf p)).modCore p fun c => c.groupStart pl.lidx g grp gang.param keep
    | none => s
  | _, _ => s

/-! ### Stage queues of a record (R221) -/

/-- The cores of a gang whose group uses descriptor `i`. -/
def State.usersOf (s : State) (g : Gang) (i : Nat) : List CoreId :=
  g.cores.filter fun p => match (s.core p).place with
    | some pl => match g.groups[pl.group.toNat]? with
      | some grp => grp.ins.contains i || grp.outs.contains i
      | none => false
    | none => false

/-- One descriptor initialised as QINIT does; one that QINIT would refuse is left uninitialised (log 23). A ring in a
scratchpad is one ring in each core whose group lists the descriptor as the gang is placed, or in the gang's first core
where none does; a core that switches into such a group later gets none (DESIGN CHOICE, log 55). -/
def State.initDesc (s : State) (g : Gang) (i : Nat) : State :=
  let desc := descOf g.qdesca + BitVec.ofNat 64 (64 * i)
  let p0 := g.cores.headD 0
  match s.translateSup desc .read with
  | .error _ => s
  | .ok a =>
    match s.descQ p0 desc (.phys a) true with
    | none => s
    | some q =>
      if q.isSpad then
        (match s.usersOf g i with
          | [] => [p0]
          | l => l).foldl (fun t p => match t.descQ p desc (.phys a) true with
          | some r => t.putQ p r
          | none => t) s
      else s.putQ p0 q

/-! ### A core leaves its gang -/

def Core.tickets (c : Core) : List (BitVec 16) :=
  (vlist c.ctx).filterMap (·.ticket) ++ (vlist c.eng).flatMap (fun e => e.q.filterMap (·.ticket) ++ e.chain.ticket.toList)
    ++ c.flights.filterMap (·.ticket) ++ c.ve.tickets

/-- The ME with nothing running, and nothing that waits for a Pod ring (R280). -/
def Me.stop (m : Me) : Me := { m with run := none, bld := none, drn := none, bwait := false, podw := false, bldw := false }

/-- A stopped core, with everything of its gang gone; its engines' registers stay until a group start (R268, R291). -/
def Core.left (c : Core) : Core :=
  { c with ctx := vmap Context.cleared c.ctx, chans := Vector.replicate 4 [], tok := Vector.replicate 16 0,
           eng := Vector.replicate 4 {}, flights := [], mon := [], gate := {}, ve := c.ve.stop,
           me := c.me.stop, place := none, move := none, saving := false, sqt := [] }

/-- The CPYPs of a core leave the streams of its bay. -/
def State.dropFeeds (s : State) (p : CoreId) : State :=
  s.modBay (bayOf p) fun b =>
    { b with pod := vmap (fun x => { x with feed := x.feed.filter fun f => f.1 != p }) b.pod }

/-- The counter adds of Furrow commands whose controller has finished them still take effect (R308). -/
def State.furAdds (s : State) (p : CoreId) : State :=
  (s.core p).flights.foldl (fun t f =>
    match f.ctr with
    | some (l, inc) => if f.finished ∧ cmdClass (opcOf f.words) = some .furrow then t.addAt p l inc else t
    | none => t) s

/-- Furrow commands of a core that a controller holds run to their finish on their own (R308). -/
def State.orphanFur (s : State) (p : CoreId) : State :=
  s.mapBents fun b =>
    { b with ctl := vmap (fun c => { c with cmds := c.cmds.map fun f => if f.core = p then { f with orphan := true } else f })
               b.ctl }

/-- A core leaves: a freeze of its timetable is counted up to now (R66), what it has issued performs, its streams and its share of the bay's L1 end, its rings' counters wait
for the gang's end (R51, R60, R110, R221, R278). -/
def State.leave (s : State) (p : CoreId) : State :=
  match (s.core p).place with
  | none => s
  | some pl =>
    let s1 := (((((s.tallyFreeze p).drain p).furAdds p).orphanFur p).dropSubs p).dropFeeds p
    let c := s1.core p
    let s2 := (c.tickets.foldl State.dropTicket s1).unfuse (bayOf p)
    (s2.modGang pl.gang fun g => { g with rings := g.rings ++ c.sqt }).modCore p Core.left

/-! ### The end of a gang (R40) -/

/-- A queue's counters written back to its descriptor: one in a scratchpad, in that of its core, unless another gang holds
that core by now. Nothing is written, and nothing reported, where the address no longer translates or lies in a view
(DESIGN CHOICE, log 55). -/
def State.queueBackNow (s : State) (q : StageQ) : State :=
  if spadBase ≤ q.desc.toNat then
    if (s.core q.core).place.isNone then s.writeBack q.core q (.spad (q.desc.toNat - spadBase)) else s
  else match s.translateSup q.desc .write with
    | .ok a => if s.inView (.phys a) then s else s.writeBack 0 q (.phys a)
    | .error _ => s

/-- The same, held while a region change is under way (R297). -/
def State.queueBack (s : State) (q : StageQ) : State :=
  if s.changing && !decide (spadBase ≤ q.desc.toNat) then s.modLaunch fun l => { l with owed := l.owed ++ [.counters q] }
  else s.queueBackNow q

/-- Writes of the scheduler that no region change holds any longer (R297). -/
def State.payOwed (s : State) : State :=
  if s.changing then s
  else s.launch.owed.foldl (fun t x => match x with
    | .outcome a d c => t.outcomeNow a d c
    | .counters q => t.queueBackNow q) (s.modLaunch fun l => { l with owed := [] })

/-- Counters of a gang's queues written back, and the queues gone (R221; log 24). -/
def State.dropQueues (s : State) (g : Gang) : State :=
  let mine := fun q : StageQ => q.owner == some g.id
  let qs := g.rings ++ (vlist s.bents).flatMap fun b => b.sqt.filter mine
  let s1 := qs.foldl State.queueBack s
  s1.mapBents fun b => { b with sqt := b.sqt.filter fun q => !mine q }

/-- The gang, all of whose cores have left, ends with a status; a save under way ends with it (R320). -/
def State.endGang (s : State) (gid : Nat) (code : Byte) : State :=
  match s.gang? gid with
  | none => s
  | some g =>
    let s1 := ((g.saveTicket.toList.foldl State.dropTicket s).dropQueues g).outcome g.statusa g.donectr code
    let s2 := (s1.modLaunch fun l => { l with gangs := l.gangs.filter fun x => x.id != gid }).mapBents fun b =>
      { b with held := b.held.filter fun h => h.pkt.gang != gid }
    s2.modPm fun x =>
      let y := { x with wd := x.wd.filter (· != gid) }
      if x.op = some (.preempt gid) then { y with op := none, err := true, ecode := 3 } else y

/-- Cores that a gang still holds. -/
def State.holders (s : State) (g : Gang) : List CoreId :=
  g.cores.filter fun p => ((s.core p).place.map (·.gang)) == some g.id

/-- A gang killed: each core stops at once, and the gang ends with the status (R60, R319, R320). -/
def State.killGang (s : State) (gid : Nat) (code : Byte) : State :=
  match s.gang? gid with
  | none => s
  | some g => ((s.holders g).foldl State.leave s).endGang gid code

/-- A pre-empted gang killed (R364); its scratchpads stand in its save area alone. -/
def State.killPre (s : State) (e : PreGang) (code : Byte) : State :=
  let cs := e.saved.map (·.2)
  let s1 := ((e.ticket.toList ++ cs.flatMap Core.tickets).foldl State.dropTicket s).dropStreams e.gang.id
  let g := { e.gang with rings := (e.gang.rings ++ cs.flatMap (·.sqt)).filter fun q => q.desc.toNat < spadBase }
  (((s1.dropQueues g).outcome g.statusa g.donectr code).mapBents fun b =>
    { b with held := b.held.filter fun h => h.pkt.gang != g.id }).modLaunch fun l =>
    { l with pre := l.pre.filter fun x => x.base != e.base }

/-! ### Running cores and packets (R50, R52, R53) -/

/-- The running cores of a gang: those it still holds, not fenced, not stopped for a save. -/
def State.runners (s : State) (g : Gang) : List CoreId :=
  (s.holders g).filter fun p => !(s.core p).fenced && !(s.core p).testing && !(s.core p).saving

def lexLt : List Int → List Int → Bool
  | a :: s, b :: t => decide (a < b) || (a == b && lexLt s t)
  | _, _ => false

/-- The entry with the least key, the first of equals. -/
def argMin {α : Type} (key : α → List Int) : List α → Option α
  | [] => none
  | a :: t => some (t.foldl (fun b x => if lexLt (key x) (key b) then x else b) a)

/-- The core a dispatcher in bent `b` chooses for a gang. -/
def State.chooseCore (s : State) (g : Gang) (b : BentId) : Option CoreId :=
  let run := s.runners g
  let near := argMin (fun x : CoreId =>
    let v := (bentOf x).val
    [((if v < b.val then b.val - v else v - b.val : Nat) : Int), (v : Int)]) run
  match near with
  | none => none
  | some x =>
    argMin (fun p : CoreId =>
      [((s.core p).gate.spawnq.length : Int), if s.cool p then 0 else 1, s.t0 p, (p.val : Int)])
      (run.filter fun p => bentOf p == bentOf x)

/-- A packet put into a core's spawn queue, or held for it by its bent's dispatcher. -/
def State.sendPacket (s : State) (p : CoreId) (k : Packet) : State :=
  let b := bentOf p
  if (s.core p).gate.spawnq.length < 32 ∧ !(s.bent b).held.any fun h => h.core == p then
    s.modGate p fun g => { g with spawnq := g.spawnq ++ [k] }
  else s.modBent b fun x => { x with held := x.held ++ [{ pkt := k, core := p }] }

def State.heldFull (s : State) (b : BentId) : Bool := decide (256 ≤ (s.bent b).held.length)

/-- Whether sending to a core needs its dispatcher to hold the packet. -/
def State.mustHold (s : State) (p : CoreId) : Bool :=
  decide (32 ≤ (s.core p).gate.spawnq.length) || (s.bent (bentOf p)).held.any fun h => h.core == p

/-- Packets of a gang not yet delivered by a TNEXT. -/
def State.outstanding (s : State) (gid : Nat) : Bool :=
  ((vlist s.cores).any fun c => c.gate.spawnq.any fun k => k.gang == gid) ||
    (vlist s.bents).any fun b => b.held.any fun h => h.pkt.gang == gid

/-- The packets of a core that has left are re-chosen among the gang's running cores. -/
def State.rechoose (s : State) (gid : Nat) (from_ : CoreId) (ks : List Packet) : State :=
  ks.foldl (fun t k => match t.gang? gid with
    | some g => match t.chooseCore g (bentOf from_) with
      | some q => t.sendPacket q k
      | none => t
    | none => t) s

/-- The core retires from its gang (R51), and the gang ends with its last core. -/
def State.retire (s : State) (p : CoreId) : State :=
  match (s.core p).place with
  | none => s
  | some pl =>
    let gid := pl.gang
    let mine := (s.core p).gate.spawnq ++ ((s.bent (bentOf p)).held.filter fun h => h.core == p).map (·.pkt)
    let s1 := (s.wdRestart p).modBent (bentOf p) fun b => { b with held := b.held.filter fun h => h.core != p }
    let s2 := ((s1.leave p).modGang gid fun g => { g with retired := g.retired ++ [p] }).rechoose gid p mine
    match s2.gang? gid with
    | some g => if (s2.holders g).isEmpty then s2.endGang gid 0 else s2
    | none => s2

/-- A core fenced leaves its gang without retiring; a gang left with no core ends (R58, R60; log 24). -/
def State.fenceCore (s : State) (p : CoreId) : State :=
  let gid := (s.core p).place.map (·.gang)
  let s1 := (s.leave p).modCore p fun c => { c with fenced := true }
  match gid.bind s1.gang? with
  | some g => if (s1.holders g).isEmpty then s1.endGang g.id cWatchdogKill else s1
  | none => s1

/-! ### The scheduler (R43–R46) -/

/-- The queue takes records now. -/
def State.lqActive (s : State) (q : BitVec 6) : Bool :=
  let x := s.lq q
  x.on && x.head != x.tail && (s.trace.rst.map (·.1)) != some q

/-- The head entry of a queue: the record address, or none where it cannot be read, which drops the entry as a record that
cannot be read is dropped (DESIGN CHOICE, log 50). -/
def State.headEntry (s : State) (q : BitVec 6) : Option Word :=
  let x := s.lq q
  let a := x.base.toNat / 8 * 8 + 8 * (x.head.toNat % x.size.toNat)
  if s.reachable a then some (BitVec.ofNat 64 (s.readAny a 8)) else none

/-- What the checks of R39 make of a head record: dropped, refused with a status, or fit. -/
inductive Verdict where
  | drop
  | refuse (r : LRec) (code : Byte)
  | fit (a : Word) (r : LRec)
deriving DecidableEq, Repr, Inhabited

def State.verdict (s : State) (q : BitVec 6) : Verdict :=
  match s.headEntry q with
  | none => .drop
  | some a =>
    match s.readRecord a with
    | none => .drop
    | some r =>
      if s.malformed r then .refuse r cMalformed
      else if s.oversize r then .refuse r cOversize
      else .fit a r

/-- The head record leaves its queue. -/
def State.popHead (s : State) (q : BitVec 6) : State :=
  s.modLq q fun x => { x with head := x.head + 1, headwait := false, ready := none }

def State.refuse (s : State) (q : BitVec 6) (v : Verdict) : State :=
  match v with
  | .drop => (s.popHead q).modLq q fun x => { x with stat := x.stat ||| 0x20 }
  | .refuse r code => (s.popHead q).outcome r.statusa r.donectr code
  | .fit _ _ => s

/-- Every nonzero DEPAi holds at least DEPTi; one that does not translate holds nothing, and the record stays not ready
(DESIGN CHOICE, log 53). -/
def State.depsMet (s : State) (r : LRec) : Bool :=
  r.deps.all fun d => match s.translateSup d.1 .read with
    | .ok a => decide (d.2 ≤ s.readAny (a / 8 * 8) 8)
    | .error _ => false

/-- Effective priority. -/
def LaunchQ.effective (x : LaunchQ) (r : LRec) (since now : Nat) : Nat :=
  min 3 (min r.prio (x.prio.toNat % 4) + (now - since) / 200000)

/-- A group as its record gives it. Its symbol bounds are read here, as the gang is placed, and serve every later start of
the group (DESIGN CHOICE, log 51). -/
def groupOf (s : State) (g : LGroup) : Group :=
  { entld := g.entld, entcp := g.entcp, entst := g.entst, bounds := if g.symb = 0 then none else s.symTable g.symb,
    minc := g.minc, maxc := g.maxc, ins := g.inq, outs := g.outq, tasks := g.tasks, next := 0, back := [] }

/-- Nanoseconds between the evaluations of the balancer of bent `b` (R54). -/
def State.balPeriod (s : State) (b : BentId) : Nat :=
  1000 * min 1000 (max 5 ((s.bent b).balival.toNat % 1024))

/-- The bent whose balancer evaluates a gang: the lowest-numbered of its placement. -/
def Gang.home (g : Gang) : BentId := bentOf ((argMin (fun p : CoreId => [(p.val : Int)]) g.cores).getD 0)

/-- The cores of a gang take their places. -/
def State.seat (s : State) (gid : Nat) (cores : List CoreId) (groups : List Nat) : State :=
  (cores.zipIdx.zip groups).foldl (fun t x => t.modCore x.1.1 fun c =>
    { c with place := some { gang := gid, lidx := BitVec.ofNat 8 x.1.2, group := BitVec.ofNat 4 x.2 } }) s

/-- A record placed on its cores: its queues are initialised, then all groups start. Only a placement counts as a selection
for the turn of the queues (DESIGN CHOICE, log 37). -/
def State.placeGang (s : State) (q : BitVec 6) (a : Word) (r : LRec) (cores : List CoreId) : State :=
  let gid := s.launch.nextGang
  let g0 : Gang :=
    { id := gid, reca := a, lq := q, n := r.n, param := r.param, donectr := r.donectr, statusa := r.statusa,
      qdesca := r.qdesca, savea := r.savea, groups := r.groups.map (groupOf s), cores := cores, retired := [],
      balNext := 0, balCount := 0, saving := none, saveTicket := none, rings := [] }
  let g := { g0 with balNext := s.nanos + s.balPeriod g0.home }
  let idle := !s.launch.gangs.any fun x => x.lq == q
  let s1 := (s.popHead q).modLaunch fun l => { l with gangs := l.gangs ++ [g], nextGang := gid + 1, lastq := q }
  let s2 := if idle then s1.modLq q fun x => { x with wdStart := s.nanos, wdDone := 0 } else s1
  let s3 := s2.seat gid cores (assign (r.groups.map (·.minc)) (r.groups.map (·.maxc)) r.n)
  let s4 := (List.range r.nq).foldl (fun t i => t.initDesc g i) s3
  cores.foldl (fun t p => t.startGroup p (((t.core p).place.map (·.group)).getD 0) false) s4

def allQueues : List (BitVec 6) := (List.range 64).map (BitVec.ofNat 6)

/-- The queues in the order the scheduler tries them, from the one above the last selected. -/
def State.turnOrder (s : State) : List (BitVec 6) :=
  (List.range 64).map fun i => s.launch.lastq + 1 + BitVec.ofNat 6 i

/-- HEADWAIT and the time each head became ready. -/
def State.watchHeads (s : State) (heads : List (BitVec 6 × Word × LRec)) : State :=
  allQueues.foldl (fun t q =>
    match heads.find? fun h => h.1 == q with
    | some h =>
      let ok := s.depsMet h.2.2
      t.modLq q fun x =>
        { x with headwait := true, ready := if ok then some (x.ready.getD s.nanos) else none }
    | none => t.modLq q fun x => { x with headwait := false, ready := none }) s

/-- A restore under way takes precedence over records below priority 3 (R322). -/
def State.restoring (s : State) : Bool :=
  match s.pm.op with
  | some (.restore _) => true
  | _ => false

/-- GANG_PLACEMENT: each turn reads and checks the head records afresh, so that one that waits is judged by what it holds
when it is placed (DESIGN CHOICE, log 53); the first head record that fails its checks is dropped or refused; where none does, the ready head
of highest effective priority that can be placed is placed. -/
def execGangPlacement (s : State) : Out :=
  .next (
    if s.changing then s else
    let act := allQueues.filter s.lqActive
    let vs := act.map fun q => (q, s.verdict q)
    match vs.find? fun x => match x.2 with
      | .fit _ _ => false
      | _ => true with
    | some (q, v) => s.refuse q v
    | none =>
      let heads := vs.filterMap fun x => match x.2 with
        | .fit a r => some (x.1, a, r)
        | _ => none
      let s1 := s.watchHeads heads
      let ready := heads.filterMap fun h => (s1.lq h.1).ready.map fun t => (h, (s1.lq h.1).effective h.2.2 t s.nanos)
      let top := ready.foldl (fun m x => max m x.2) 0
      if s.restoring ∧ top < 3 then s1
      else
        match s1.turnOrder.findSome? fun q =>
          match ready.find? fun x => x.1.1 == q && x.2 == top with
          | some x => (search s1.eligible x.1.2.2.n).map fun cs => (x.1, cs)
          | none => none with
        | some ((q, a, r), cs) => s1.placeGang q a r cs
        | none => s1)

/-- LQTAIL written: the ring holds more records (R41, R43). -/
def execLqtail (q : BitVec 6) (v : W32) (s : State) : Out := .next (s.modLq q fun x => { x with tail := v })

/-! ### The watchdog (R59, R60) -/

/-- Limit `i` of a queue is reached now for the first time since the timer restarted. -/
def State.limitDue (s : State) (q : BitVec 6) (i : Nat) : Bool :=
  let x := s.lq q
  let lim := (if i = 0 then x.wdl1 else if i = 1 then x.wdl2 else x.wdl3).toNat
  lim != 0 && !x.cfgerr && !x.wdDone.getLsbD i && (s.launch.gangs.any fun g => g.lq == q) &&
    decide (x.wdStart + 1000 * lim ≤ s.nanos)

def State.reach (s : State) (q : BitVec 6) (i : Nat) : State :=
  s.modLq q fun x => { x with wdDone := x.wdDone ||| BitVec.twoPow 3 i, stat := x.stat ||| BitVec.twoPow 32 (2 + i) }

def State.gangsOf (s : State) (q : BitVec 6) : List Gang := s.launch.gangs.filter fun g => g.lq == q

/-- The first limit requests pre-emption of every running gang of the queue, in placement order. -/
def execWatchdogPreempt (q : BitVec 6) (s : State) : Out :=
  .next (if s.limitDue q 0 then (s.reach q 0).modPm fun x => { x with wd := x.wd ++ (s.gangsOf q).map (·.id) } else s)

/-- The second kills every gang still running. -/
def execWatchdogKill (q : BitVec 6) (s : State) : Out :=
  .next (if s.limitDue q 1 then (s.gangsOf q).foldl (fun t g => t.killGang g.id cWatchdogKill) (s.reach q 1) else s)

/-- The third fences every core of those gangs that has not stopped. -/
def execWatchdogFence (q : BitVec 6) (s : State) : Out :=
  .next (if s.limitDue q 2 then
    (s.gangsOf q).foldl (fun t g => (t.holders g).foldl State.fenceCore t) (s.reach q 2)
  else s)

end Sys2Proof.Machine
end

