-- ==== Sys2Proof/Machine/Fence.lean ====
section
/-! DEFINITION. Fences (R116, R117, R190) and waits (R122, R124, R191). -/

namespace Sys2Proof.Machine

/-- A fence takes its place among the context's accesses, and takes effect at once where it holds already. -/
def State.placeFence (s : State) (p : CoreId) (k : Ctx) (kind : PendKind) : State :=
  (s.modCore p fun c => c.issue k none 0 kind).settleCtx p k

/-- REL: the whole combining buffer is flushed, and the entries now in it are part of the release. -/
def State.placeRel (s : State) (p : CoreId) (k : Ctx) (sc : Scope) (m : BitVec 16) : State :=
  (s.modCore p Core.flushAll).placeFence p k (.rel sc m (s.core p).combNext)

def State.placeAcq (s : State) (p : CoreId) (k : Ctx) (sc : Scope) (m : BitVec 16) : State :=
  s.placeFence p k (.acq sc m)

def execFence (_sb : Bool) (mask : BitVec 16) (s : State) : Out :=
  .next (scalar [] none false s fun _ t => (t.placeFence t.p t.k (.fence mask)).advance)

def execAcq (r : Fen) (s : State) : Out :=
  .next (scalar [] none false s fun _ t => (t.placeAcq t.p t.k r.scope r.mask).advance)

def execRel (r : Fen) (s : State) : Out :=
  .next (scalar [] none false s fun _ t => (t.placeRel t.p t.k r.scope r.mask).advance)

/-- REL, then ACQ, as one instruction (R117). -/
def execAcqrel (r : Fen) (s : State) : Out :=
  .next (scalar [] none false s fun _ t =>
    ((t.placeRel t.p t.k r.scope r.mask).placeAcq t.p t.k r.scope r.mask).advance)

/-! ### Waits -/

/-- The place of a wait's word: device memory, understore or scratchpad (R191). -/
def State.waitAt (s : State) (va : Word) (wp : Bool) : Except (Byte × Byte) Loc :=
  match s.scalarAt va 8 .read wp true with
  | .error e => .error e
  | .ok l => if s.isOnChip l then .ok l else .error (cAccess, 0)

/-- The wait's value pushed, 2 cycles later (R174), and the word committed. -/
def State.endWait (s : State) (d : BitVec 5) (v : Word) : State :=
  (s.modCore s.p fun c => c.freeMon s.k).later d v

/-- No write stands noted for a context (R124). -/
def State.unwake (s : State) (p : CoreId) (k : Ctx) : State :=
  { s with marks := { s.marks with woken := s.marks.woken.filter (· != (p, k)) } }

/-- The context falls asleep on the word: with a free monitor entry, or polling and MONFULL (R124). -/
def State.sleepOn (s0 : State) (r : R3) (l : Loc) (v : Word) : State :=
  let s := s0.unwake s0.p s0.k
  let c := s.core s.p
  let w := fun mon => ({ loc := l, seen := v, monitored := mon, nextPoll := s.nanos + 1000, ready := false,
                         ended := false, op := r, word := s.sched.word } : Wait)
  let sleep := fun (t : State) mon => (t.modCtx t.p t.k fun x => { x with wait := some (w mon) }).blockNow
  if c.mon.any fun m => m.ctx == s.k then sleep s true
  else if c.mon.length < 16 then
    sleep (s.modCore s.p fun c => { c with mon := c.mon ++ [{ loc := l, ctx := s.k }] }) true
  else if c.monfull then sleep s false
  else sleep ((s.modCore s.p fun c => { c with monfull := true }).event (bentOf s.p) 5 (some s.p) []) false

/-- WAITGE and WAITNE: `holds m b` is the condition. Nothing is popped before the wait commits (R191). -/
def waitOp (holds : Word → Word → Bool) (r : R3) (s : State) : Out :=
  .next (scalar [src r.a r.pa, src r.b r.pb] (some r.d) false s fun v t =>
    match s.me!.wait with
    | some w =>
      if w.ended then t.endWait r.d w.seen
      else if !w.ready then s.blockNow
      else check v t
    | none => check v t)
where
  check (v : List Word) (t : State) : State :=
    match s.waitAt (arg v 0) true with
    | .error (code, aux) => (s.modCore s.p fun c => c.freeMon s.k).trapAt code aux (arg v 0)
    | .ok l =>
      let m := BitVec.ofNat 64 (s.readLoc s.p l 8)
      if s.formHeld l then s.blockNow
      else if holds m (arg v 1) then ((t.note t.p (arg v 0)).used t.p l 8).endWait r.d m
      else ((s.note s.p (arg v 0)).used s.p l 8).sleepOn r l m

def execWaitge (r : R3) (s : State) : Out := waitOp (fun m b => !ult m b) r s
def execWaitne (r : R3) (s : State) : Out := waitOp (fun m b => m != b) r s

/-- The wait of context `k` of the current core ended with a value: its operands popped, the value pushed and the word
committed; where the register the value goes to is full, that comes once it has room (R191). -/
def State.endWaitOf (s : State) (k : Ctx) (w : Wait) (v : Word) : State :=
  let rds := [src w.op.a w.op.pa, src w.op.b w.op.pb]
  match operands (s.core s.p) k rds (some w.op.d) false with
  | .ok _ =>
    (((s.modSched fun x => { x with ctx := k, word := w.word }).modCore s.p fun c => popAll c k rds).endWait w.op.d
      v).modSched fun x => { x with ctx := s.k, word := s.sched.word }
  | _ => s.modCtx s.p k fun x => { x with wait := some { w with ended := true, seen := v } }

/-- Every wait of another context of the current core on a word is ended with a value. -/
def State.endWaits (s : State) (l : Loc) (v : Word) : State :=
  ([Ctx.ld, .cp, .st].filter (· != s.k)).foldl (fun t k =>
    match (t.ctx t.p k).wait with
    | some w => if w.loc = l then t.endWaitOf k w v else t
    | none => t) s

def execMonclr (r : Src) (s : State) : Out :=
  .next (scalar [src r.a r.pa] none false s fun v t =>
    match s.waitAt (arg v 0) false with
    | .error (code, aux) => s.trapAt code aux (arg v 0)
    | .ok l =>
      let m := BitVec.ofNat 64 (s.readLoc s.p l 8)
      if s.formHeld l then s.blockNow
      else ((((t.note t.p (arg v 0)).used t.p l 8).endWaits l m).modCore t.p fun c =>
        { c with mon := c.mon.filter fun e => e.loc != l }).advance)

/-- WAIT_WAKE: a write performed at a monitored word since its wait went to sleep wakes the wait (R124). -/
def execWaitWake (p : CoreId) (k : Ctx) (s : State) : Out :=
  .next (match (s.ctx p k).wait with
    | some w =>
      if w.monitored ∧ s.marks.woken.contains (p, k) then
        (s.setCtx p k { s.ctx p k with wait := some { w with ready := true } }).unwake p k
      else s
    | none => s)

/-- A wait without a monitor entry reads its word every 1 µs (R124), but not in a freeze (R67). -/
def execMonitorPoll (p : CoreId) (k : Ctx) (s : State) : Out :=
  .next (match (s.ctx p k).wait with
    | some w =>
      if !w.monitored ∧ w.nextPoll ≤ s.nanos ∧ !s.stalled p then
        (s.setCtx p k { s.ctx p k with wait := some { w with ready := true } }).count p 0x11 1
      else s
    | none => s)

end Sys2Proof.Machine
end

