-- ==== Sys2Proof/Machine/System.lean ====
section
/-! DEFINITION. System instructions and the trap word (R131, R132, R195). -/

namespace Sys2Proof.Machine

/-- A supervisor-only word traps PRIVILEGE in user mode before its own conditions (check 5 of R131, R176). -/
def privileged (s : State) (body : State → State) : State := if s.user then s.trapNow cPrivilege 0 0 else body s

/-- The event code that counts a context's committed words (R357). -/
def wordCode (k : Ctx) : Byte :=
  match k with
  | .ld => 0x02 | .cp => 0x03 | .st => 0x04

/-- TRAP n: SYSCALL with TVAL = n and TEPC = pc + 4. -/
def execTrap (_sb : Bool) (n : BitVec 8) (s : State) : Out :=
  .next (s.trap s.p s.k cSyscall 0 (n.setWidth 64) (s.me!.pc + 4) s.sched.word)

def execSysret (_sb : Bool) (s : State) : Out :=
  .next (privileged s fun s => (s.modCtx s.p s.k Context.sysret).count s.p (wordCode s.k) 1)

/-- IDLE: the context issues nothing until it is begun afresh. -/
def execIdle (_sb : Bool) (s : State) : Out :=
  .next (privileged s fun s => s.advance.modCtx s.p s.k fun x => { x with run := .idle })

def execStepover (_sb : Bool) (s : State) : Out :=
  .next (privileged s fun s => (s.modCtx s.p s.k fun x => { x with status := setBit x.status 2 true }).advance)

/-- The shadow word of entry `n`, where the entry is valid (R353). -/
def State.shadowWord (s : State) (n : BitVec 8) : Option W32 :=
  let e := vget s.bksh n.toNat
  if e.getLsbD 32 then some (e.setWidth 32) else none

/-- BRK n: BREAKPOINT under debug or without a valid entry; otherwise the shadow word executes in its place, at the
context's next turn (R195). -/
def execBrk (_sb : Bool) (n : BitVec 8) (s : State) : Out :=
  .next (
    if s.me!.dbgBit then s.trapNow cBreakpoint 0 (n.setWidth 64)
    else match s.shadowWord n with
      | some w => s.modCtx s.p s.k fun x => { x with shadow := some w, blocked := false }
      | none => s.trapNow cBreakpoint 0 (n.setWidth 64))

/-- Major 0x00 and the all-ones word (R132). -/
def execTrapWord (_w : W32) (s : State) : Out := .next (s.trapNow cTrapWord 0 0)

end Sys2Proof.Machine
end

