-- ==== Sys2Proof/Machine/Push.lean ====
section
/-! DEFINITION. EPUSH, chain control, XCMD and MCFG (R197–R200). -/

namespace Sys2Proof.Machine

/-- Entries read from b: ⌈(XWC − 1) / 2⌉ (R197). -/
def entriesOf (xwc : Nat) : Nat := xwc / 2

def wordsOf (l : List Word) : List W32 := l.flatMap fun v => [lo32 v, hi32 v]

/-- EPUSH and XCMD read their entries and check the header: `body` gets the command's words and the state with the
pops made (R175, R197 steps 1 and 2). The count of entries from b is known once a's entry is. -/
def pushCmd (r : Push) (x : Bool) (s : State) (body : List W32 → State → State) : State :=
  scalar [src r.a r.pa] none false s fun v0 _ =>
    let h := lo32 (arg v0 0)
    let xwc := H.xwc h
    let m := if xwc ≤ 9 then entriesOf xwc else 0
    scalar (src r.a r.pa :: List.replicate m (src r.b r.pb)) none (decide (xwc ≤ 9 ∧ r.pb ∧ 1 < m)) s fun v t =>
      match headerCheck h { ep := r.e, x := x } with
      | some code => trapAfter s code 0 (h.setWidth 64)
      | none =>
        if 9 < xwc then trapAfter s cIllegalCmd 0 (h.setWidth 64)
        else body ((wordsOf v ++ List.replicate 16 0).take (1 + xwc)) t

/-- A command appended to a queue in one step. -/
def State.enqueue (s : State) (p : CoreId) (e : Ep) (ws : List W32) : State :=
  s.modEng p e fun g => { g with q := g.q ++ [{ words := ws, pc := 0, chain := false, blk := 0, dup := false, ticket := none }] }

/-- Accesses of a context in a class that have not performed: a store of the class waits for them (R115). -/
def Context.busyClass (x : Context) (cls : BitVec 4) : Bool := x.pend.any fun i => i.isAccess && i.cls == cls

def execEpush (r : Push) (s : State) : Out :=
  .next (pushCmd r false s fun ws t =>
    let cls := clsOf ws
    if s.me!.fenced cls true || s.me!.busyClass cls || decide (depth r.e ≤ (s.eng s.p r.e).q.length) then s.blockNow
    else (t.enqueue t.p r.e ws).advance)

/-- No block of the chain is left to fetch. -/
def Chain.drained (c : Chain) : Bool := c.ticket.isNone && (c.stopped || (c.start.isNone && c.fetch == c.tail))

def execEchain (r : ChainOp) (s : State) : Out :=
  .next (scalar [src r.a r.pa] none false s fun v t =>
    if (s.eng s.p r.e).chain.drained then
      let a := descOf (arg v 0)
      (t.modChain t.p r.e fun c => { c with head := a, tail := a, fetch := a, start := none, stopped := false }).advance
    else s.blockNow)

/-- ETAIL counts as a store in every class (R198). -/
def execEtail (r : ChainOp) (s : State) : Out :=
  .next (scalar [src r.a r.pa] none false s fun v t =>
    if s.me!.fencedAll || s.me!.pend.any Pend.isAccess then s.blockNow
    else (t.modChain t.p r.e fun c => { c with tail := descOf (arg v 0) }).advance)

def execEseq (_sb : Bool) (e : Ep) (d : BitVec 5) (s : State) : Out :=
  .next (scalar [] (some d) false s fun _ t => t.later d (t.eng t.p e).chain.seq)

/-! ### XCMD (R199) -/

/-- What an XCMD does once its tokens are there: its translated addresses, its own check, whether it can complete,
its effect and its result word. -/
structure XPlan where
  reqs : List AddrReq
  chk : List Loc → Option Byte
  spent : Bool
  ready : List Loc → Bool
  go : List Loc → State → State × Option Word
  /-- It acts as a release, or as an acquire of device-wide scope (R225). -/
  rel : Bool := false
  acq : Bool := false

def queuePlan (s : State) (op : QOp) (desc resa : Word) : XPlan :=
  let d := descOf desc
  let p := s.p
  { reqs := queueReqs op desc resa,
    chk := fun ls => match ls with
      | _ :: _ => (s.qCheck p op d).or (s.qInitBad p op d ls)
      | [] => none,
    spent := s.qSpent p op d,
    ready := fun _ => s.qReady p op d,
    go := fun ls t => match ls with
      | l :: _ => let (u, r) := t.qDo p op d l; (u.storeResult p r ls, r)
      | [] => (t, none),
    rel := op.releases,
    acq := s.qAcquires p op d }

def xplan (s : State) (i : Instr) : Option XPlan :=
  match i with
  | .qinit _ d => some (queuePlan s .init d 0)
  | .qacq _ d r => some (queuePlan s .acq d r)
  | .qrel _ d a => some (queuePlan s (.rel a) d 0)
  | .qres _ d r nw => some (queuePlan s (.res nw) d r)
  | .qcom _ d a => some (queuePlan s (.com a) d 0)
  | .qstat _ d r => some (queuePlan s .stat d r)
  | .csig _ c inc =>
    some { reqs := [ctrReq c], chk := fun _ => none, spent := false, ready := fun _ => true,
           go := fun ls t => (match ls with
             | l :: _ => t.addAt t.p l (inc.setWidth 64)
             | [] => t, none) }
  | .cwait _ c target =>
    some { reqs := [waitReq c], chk := fun _ => none, spent := false, ready := fun ls => counterMet s s.p target ls,
           go := fun ls t => (ls.foldl (fun u l => u.used u.p l 8) t, none) }
  | .cseq _ a v =>
    some { reqs := [seqReq a], chk := fun _ => none, spent := false, ready := fun _ => true,
           go := fun ls t => (match ls with
             | l :: _ => t.writeHome t.p l (bytesOfNat v.toNat 8)
             | [] => t, none) }
  | _ => none

/-- The context's accesses and reductions that an XCMD of a class waits for: those of its class, and, where it
releases, the combining buffer (R225); a region change holds it too (R297). -/
def xcmdWaits (s : State) (cls : BitVec 4) (rel : Bool) (ls : List Loc) : Bool :=
  s.me!.fenced cls true || s.me!.busyClass cls || (rel && !(s.core s.p).comb.isEmpty) || ls.any s.formHeld

def execXcmd (r : Push) (s : State) : Out :=
  .next (pushCmd r true s fun ws t =>
    let h := H.hdr (headerOf ws)
    let hw : Word := (headerOf ws).setWidth 64
    match (decodeCmd ws).bind (xplan s) with
    | none => trapAfter s cIllegalCmd 0 hw
    | some pl =>
      match s.addrs s.p pl.reqs with
      | .park acc cause va => s.trapAt (pageCode acc) cause va
      | .fault va => s.trapAt cAccess 0 va
      | .held => s.blockNow
      | .ok ls =>
        match pl.chk ls with
        | some code => trapAfter s code 0 hw
        | none =>
          let c := s.core s.p
          if !c.hasTokens r.e h.wait then s.blockNow
          else if pl.spent then trapAfter s cClampQuota 0 0
          else if xcmdWaits s h.cls pl.rel ls then
            (if pl.rel then s.modCore s.p Core.flushAll else s).blockNow
          else if !pl.ready ls || (h.sige && decide (16 ≤ vget c.tok (tokIdx r.e (Ep.ofCode h.sigt)))) then s.blockNow
          else
            let t1 := t.modCore t.p fun c => c.popTokens r.e h.wait
            let (t2a, res) := pl.go ls t1
            let t2 := t2a.noteAll t.p (pl.reqs.map (·.va))
            let t3 := t2.modCtx t.p t.k fun x => { x with xres := res.getD 0 }
            let t4 := if h.sige then t3.modCore t.p fun c => c.pushToken r.e (Ep.ofCode h.sigt) else t3
            (if pl.acq then t4.clearL1 t.p else t4).advance)

/-! ### MCFG (R200) -/

/-- MNESTs in the M queue: none of them has copied the shadow table yet. -/
def State.nestsQueued (s : State) (p : CoreId) : Nat := ((s.eng p .m).q.filter fun q => opcOf q.words == 0x11).length

/-- How many MNESTs must have left the M queue before the current MCFG writes: those in it at its first attempt. -/
def State.mcfgMark (s : State) : Nat := s.me!.mcfg.getD ((s.core s.p).nestsOut + s.nestsQueued s.p)

def execMcfg (r : MCfg) (s : State) : Out :=
  .next (scalar [src r.a r.pa] none (decide (48 ≤ r.idx.toNat)) s fun v t =>
    if (s.core s.p).nestsOut < s.mcfgMark then (s.modCtx s.p s.k fun x => { x with mcfg := some s.mcfgMark }).blockNow
    else (t.modMe t.p fun m => { m with shadow := vset m.shadow r.idx.toNat (arg v 0) }).advance)

end Sys2Proof.Machine
end

