-- ==== Sys2Proof/Machine/Tasks.lean ====
section
/-! DEFINITION. The task gate and its instructions, spawning, the Stage Balancer and stage switches
(R49–R58, R196, R201, R222, R323, R362). -/

namespace Sys2Proof.Machine

/-! ### Queues of a gang, finished groups (R51, R55) -/

def Gang.descAt (g : Gang) (i : Nat) : Word := descOf g.qdesca + BitVec.ofNat 64 (64 * i)

/-- Every live state of a descriptor of the gang: one understore queue, or a ring in each core. -/
def State.gangQs (s : State) (g : Gang) (i : Nat) : List StageQ :=
  ((s.holders g).flatMap (fun p => (s.core p).sqt) ++ (vlist s.bents).flatMap (·.sqt)).filter fun q =>
    q.desc == g.descAt i && q.owner == some g.id

/-- Empty on-chip and in Clamp. -/
def StageQ.empty (q : StageQ) : Bool := q.slots.all (· == .free) && q.held == 0

def isStage (t : Option Task) : Bool :=
  match t with
  | some (.stage ..) => true
  | _ => false

/-- A task of the group is running on some core. -/
def State.groupBusy (s : State) (g : Gang) (k : Nat) : Bool :=
  (s.holders g).any fun p => ((s.core p).place.map (·.group)) == some (BitVec.ofNat 4 k) && isStage (s.core p).gate.cur

/-- A finished group (R51): no task running, none to hand out; a group that feeds itself is exempt from the producer
condition. -/
def State.groupDone (s : State) (g : Gang) : Nat → Nat → Bool
  | 0, _ => false
  | fuel + 1, k =>
    match g.groups[k]? with
    | none => true
    | some grp =>
      !s.groupBusy g k && grp.back.isEmpty &&
        (if grp.ins.isEmpty then decide (grp.tasks.toNat ≤ grp.next)
         else grp.ins.all fun i =>
           (s.gangQs g i).all (·.empty) &&
             (List.range g.groups.length).all fun j =>
               j == k || !((g.groups.getD j default).outs.contains i) || State.groupDone s g fuel j)

def State.finished (s : State) (g : Gang) (k : Nat) : Bool := s.groupDone g 17 k

/-! ### Handing out tasks (R49) -/

/-- Input slots claimed in queue order; `none` where one is not there. -/
def State.claimAll (s : State) (p : CoreId) (g : Gang) : List Nat → Option (State × List Claim)
  | [] => some (s, [])
  | i :: t =>
    match s.findQ p (g.descAt i) with
    | none => none
    | some q =>
      match s.claimQ p q.desc with
      | (s1, some n) =>
        (State.claimAll s1 p g t).map fun r => (r.1, { desc := q.desc, slot := n, pos := q.nextClaim } :: r.2)
      | (_, none) => none

/-- Output slots reserved in queue order. -/
def State.reserveAll (s : State) (p : CoreId) (g : Gang) : List Nat → Option (State × List Claim)
  | [] => some (s, [])
  | i :: t =>
    match s.findQ p (g.descAt i) with
    | none => none
    | some q =>
      match s.reserveQ p q.desc with
      | (s1, some n) =>
        (State.reserveAll s1 p g t).map fun r => (r.1, { desc := q.desc, slot := n, pos := q.nextRes } :: r.2)
      | (_, none) => none

def State.modGroup (s : State) (gid : Nat) (k : Nat) (f : Group → Group) : State :=
  s.modGang gid fun g => { g with groups := lmod k f g.groups }

/-- The next eligible task of group `k`, with every claim made in one step; a task returned by TYIELD comes first. -/
def State.takeTask (s : State) (p : CoreId) (g : Gang) (k : Nat) : Option (State × Task) :=
  match g.groups[k]? with
  | none => none
  | some grp =>
    match grp.back with
    | t :: rest => some (s.modGroup g.id k fun x => { x with back := rest }, t)
    | [] =>
      if grp.ins.isEmpty ∧ grp.tasks.toNat ≤ grp.next then none
      else match s.claimAll p g grp.ins with
      | none => none
      | some (s1, ins) =>
        match s1.reserveAll p g grp.outs with
        | none => none
        | some (s2, outs) => some (s2.modGroup g.id k fun x => { x with next := x.next + 1 }, .stage grp.next ins outs)

def State.slotAddr (s : State) (p : CoreId) (c : Claim) : Word :=
  match s.findQ p c.desc with
  | some q => q.addr c.slot
  | none => 0

/-- TSLOT0–TSLOT7 for a task (R50). -/
def State.slotsFor (s : State) (p : CoreId) (t : Task) : Vector Word 8 :=
  match t with
  | .stage _ ins outs =>
    vgen 8 fun i => if i < 4 then (ins[i]?.map (s.slotAddr p)).getD 0 else (outs[i - 4]?.map (s.slotAddr p)).getD 0
  | .packet k => vgen 8 fun i => [k.target, k.arg0, k.arg1].getD i 0

def taskWord (t : Task) (group : BitVec 4) : Word :=
  match t with
  | .stage n _ _ => at_ group.toNat 32 ||| at_ (n % 2 ^ 32) 0
  | .packet k => at_ 1 63 ||| at_ k.stage.toNat 32 ||| at_ k.sender.toNat 0

def endMarker : Word := BitVec.allOnes 64

/-! ### Tiles (R362) -/

def State.openStamp (s : State) (p : CoreId) (t : Task) (resumed : Bool) : State :=
  if s.traceOn 1 (some p) then
    let u := { (s.core p).plumb with freeze := s.plfreeze p }
    let task : W32 := match t with
      | .stage n _ _ => BitVec.ofNat 32 n
      | .packet _ => BitVec.allOnes 32
    let x : Stamp := { s0 := s.cycle, s1 := 0, s2 := 0, retime := u.retime, freeze := u.freeze, resumed := resumed, task := task }
    s.modGate p fun g => { g with stamp := some x }
  else s

/-- The tile's record, with S3, and the tile closed (its cycle counts are free, log 5). -/
def State.closeStamp (s : State) (p : CoreId) (cut : Bool) : State :=
  match (s.core p).gate.stamp with
  | none => s
  | some t =>
    let u := { (s.core p).plumb with freeze := s.plfreeze p }
    let s1 := s.modGate p fun g => { g with stamp := none }
    if s.traceOn 1 (some p) then
      let wait := Config.stampCycles (2 * s.sched.tick)
      let eccf := (Config.stampCycles (2 * s.sched.tick + 1)).toNat % 65536
      s1.emit (bentOf p) 1 (cut.toNat + 2 * t.resumed.toNat) (some p)
        [at_ t.s0 0, at_ t.s1 0, at_ t.s2 0, if cut then 0 else at_ s.cycle 0,
         at_ wait.toNat 0 ||| at_ (min 65535 (u.retime - t.retime).toNat) 32 ||| at_ eccf 48,
         at_ ((u.freeze - t.freeze).toNat % 2 ^ 32) 0 ||| at_ t.task.toNat 32]
    else s1

/-! ### TNEXT, TDONE, TYIELD (R50, R51, R201) -/

/-- A task or packet becomes current. -/
def State.deliver (s : State) (p : CoreId) (t : Task) (w : Word) : State :=
  (s.modGate p fun g => { g with cur := some t, curWord := w, tslot := s.slotsFor p t, ended := false }).openStamp p t false

/-- What TNEXT delivers now, with the task word. -/
def State.nextTask (s : State) (p : CoreId) : Option (State × Word) :=
  match s.gangOf p, (s.core p).place with
  | some g, some pl =>
    match (s.core p).gate.spawnq with
    | k :: rest =>
      let w := taskWord (.packet k) pl.group
      some ((s.modGate p fun x => { x with spawnq := rest }).deliver p (.packet k) w, w)
    | [] =>
      match s.takeTask p g pl.group.toNat with
      | some (s1, t) => let w := taskWord t pl.group; some (s1.deliver p t w, w)
      | none =>
        if s.finished g pl.group.toNat ∧ !s.outstanding g.id then
          some (s.modGate p fun x => { x with ended := true, curWord := endMarker }, endMarker)
        else none
  | _, _ => none

def execTnext (_sb : Bool) (d : BitVec 5) (s : State) : Out :=
  .next (scalar [] (some d) (s.k != .cp || (s.core s.p).gate.cur.isSome) s fun _ t =>
    if (s.core s.p).move.isSome then (s.modGate s.p fun g => { g with switching := true }).blockNow
    else match t.nextTask t.p with
      | none => s.blockNow
      | some (u, w) => (u.placeAcq u.p u.k .dev (BitVec.allOnes 16)).later d w)

/-- The release of dev scope over every class that SPAWN, TDONE and TYIELD make first has taken effect. -/
def State.released (s : State) (p : CoreId) (k : Ctx) : Bool :=
  !((s.ctx p k).pend.any fun j => relWaits .dev j) && !(s.core p).comb.any fun e => relCovers .dev e.loc

/-- The instruction waits for its release: the combining buffer is flushed meanwhile. -/
def State.awaitRelease (s : State) : State := (s.modCore s.p Core.flushAll).blockNow

/-- Whether bytes of a span lie in slot `i` of a queue: by its address, or by the places it names. -/
def State.slotHit (s : State) (p : CoreId) (q : StageQ) (i : Nat) (x : Span) : Bool :=
  let lo := q.slotVa.toNat + q.size * i
  decide (x.1.toNat < lo + q.size ∧ lo < x.1.toNat + x.2) || (s.spanPlaces p x).any fun a => q.meets i a.1 a.2

/-- The descriptors of a run's walks: those attached, and those its table names. -/
def Ve.walksNamed (v : Ve) : List (BitVec 4) :=
  v.attached none none ++ (v.table.filterMap decodeOrder).filterMap sdNamed

/-- Whether a walk of a run can reach a range; an indexed walk always may. -/
def Ve.walkHit (v : Ve) (hit : Span → Bool) : Bool :=
  v.walksNamed.any fun n =>
    let d := (v.sdOf n).d
    dIdxEn d || (List.range (walkLen d)).any fun i => hit (walkAddr d i, 128)

/-- Whether a step of a nest from `idx` on satisfies `f`. -/
def Me.nestAny (m : Me) (c : MGoOps) (f : StepAddr → Bool) : Nat → List Nat → Bool
  | 0, _ => false
  | n + 1, idx =>
    f (m.stepAddr c idx) || match nestNext m.active 0 idx with
      | some i => Me.nestAny m c f n i
      | none => false

/-- The bytes of a stream's ring. -/
def PodSub.range (u : PodSub) : Span := (BitVec.ofNat 64 (spadBase + u.ring), 128 * u.rows)

/-- The rows of an A block and of a B block. -/
def State.aBlock (s : State) (p : CoreId) (f : MFmt) (x : StepAddr) : List Span :=
  if f.apod then [(s.sub p f.astrm).range]
  else rowAligned ((x.a, 8 * bytes128 f.afmt) :: if isMx f.afmt then [(x.sa, 32)] else [])

def State.bBlock (s : State) (p : CoreId) (f : MFmt) (kstep : Nat) (qm : BitVec 4) (pod : Bool) (b sb : Word) : List Span :=
  if pod then [(s.sub p f.bstrm).range] else rowAligned (bRanges f kstep qm b ++ sRanges f kstep qm sb)

/-- Whether a block of the running MGO, from its first step on, or of the running MBLD meets a range test. -/
def State.meHit (s : State) (p : CoreId) (ord : Nat) (hit : Span → Bool) : Bool :=
  let m := s.me p
  (match m.run with
   | some r => r.ord == ord && m.nestAny r.c (fun x =>
       (s.aBlock p m.fmt x ++ s.bBlock p m.fmt m.kstep.toNat r.c.qm m.fmt.bpod x.b x.sb).any hit) (m.steps! r.idx.length)
       (r.idx.map fun _ => 0)
   | none => false) ||
  (match m.bld with
   | some (o, c) => o == ord && (s.bBlock p m.fmt m.kstep.toNat c.qm c.pod c.src c.ssrc).any hit
   | none => false)

/-- Bytes of a drained segment. -/
def segLen (c : MDrnOps) : Nat := if isMx c.fmt then 64 else 16 * ((Fmt.ofCode c.fmt).getD .fp32).width

/-- The segments an MDRN drains, and their scales. -/
def drainHit (c : MDrnOps) (hit : Span → Bool) : Bool :=
  (List.range 512).any fun i => c.qm.getLsbD (i / 128) &&
    (hit (c.dst + BitVec.ofNat 64 (i % 128) * c.mstr.signExtend 64 + BitVec.ofNat 64 (i / 128) * c.qstr.signExtend 64, segLen c)
      || (isMx c.fmt && hit (c.sdst + BitVec.ofNat 64 (4 * i), 4)))

/-- Whether a started command accesses bytes of a slot, before or after this moment: a CE command by its spans, a VRUN by
its table and its walks, a matrix command by its blocks and segments (log 26). -/
def State.flightTouches (s : State) (p : CoreId) (f : Flight) (q : StageQ) (i : Nat) : Bool :=
  let hit := s.slotHit p q i
  (s.spans p f).any hit || match decodeCmd f.words with
  | some (.vrun _ c) => hit (c.img &&& ~~~127#64, 128 * c.len.toNat) || (s.ve p).walkHit hit
  | some (.mgo _ _) | some (.mbld _ _) => s.meHit p f.ord hit
  | some (.mdrn _ c) => drainHit c hit
  | _ => false

/-- Every started command of the core that accesses bytes of the slot has finished (R222). -/
def State.slotQuiet (s : State) (p : CoreId) (c : Claim) : Bool :=
  match s.findQ p c.desc with
  | none => true
  | some q => (s.core p).flights.all fun f => f.finished || !s.flightTouches p f q c.slot

/-- An input slot the task still claims is released. -/
def State.giveBack (s : State) (p : CoreId) (c : Claim) : State :=
  match s.findQ p c.desc with
  | some q => if q.slots.getD c.slot .free = .claimed c.pos then s.releaseQ p c.desc c.slot else s
  | none => s

/-- An output slot it still reserves is committed. -/
def State.handOn (s : State) (p : CoreId) (c : Claim) : State :=
  match s.findQ p c.desc with
  | some q => if q.slots.getD c.slot .free = .reserved c.pos then s.commitQ p c.desc c.slot else s
  | none => s

/-- Every engine command of the core has completed (R51, R57). -/
def Core.idle (c : Core) : Bool :=
  c.flights.isEmpty && (vlist c.eng).all fun e => e.q.isEmpty && e.chain.drained

/-- The current task ends (R51). -/
def State.endTask (s : State) (p : CoreId) (t : Task) : State :=
  let s1 := match t with
    | .stage _ ins outs => outs.foldl (fun (u : State) c => u.handOn p c) (ins.foldl (fun (u : State) c => u.giveBack p c) s)
    | .packet _ => s
  ((s1.wdRestart p).closeStamp p false).modGate p fun g => { g with cur := none }

def taskQuiet (s : State) (p : CoreId) (t : Task) : Bool :=
  match t with
  | .stage _ ins outs => (ins ++ outs).all fun c => s.slotQuiet p c
  | .packet _ => true

def execTdone (_sb : Bool) (s : State) : Out :=
  .next (scalar [] none (s.k != .cp) s fun _ t =>
    let g := (s.core s.p).gate
    match g.cur with
    | none =>
      if !g.ended then t.advance
      else if !s.released s.p s.k then s.awaitRelease
      else if !(s.core s.p).idle then s.blockNow
      else (t.count t.p (wordCode .cp) 1).retire t.p
    | some x =>
      if !s.released s.p s.k then s.awaitRelease
      else if !taskQuiet s s.p x then s.blockNow
      else (t.endTask t.p x).advance)

/-- The current task goes to the front of its group's handout, or the packet to the tail of the core's spawn queue. -/
def State.yieldTask (s : State) (p : CoreId) (t : Task) : State :=
  let s1 := (s.closeStamp p false).modGate p fun g => { g with cur := none }
  match t, (s.core p).place with
  | .stage .., some pl => s1.modGroup pl.gang pl.group.toNat fun x => { x with back := t :: x.back }
  | .packet k, _ =>
    if (s1.core p).gate.spawnq.length < 32 then s1.modGate p fun g => { g with spawnq := g.spawnq ++ [k] }
    else s1.modBent (bentOf p) fun b => { b with held := b.held ++ [{ pkt := k, core := p }] }
  | _, none => s1

def execTyield (_sb : Bool) (s : State) : Out :=
  .next (scalar [] none (s.k != .cp) s fun _ t =>
    match (s.core s.p).gate.cur with
    | none => t.advance
    | some x => if !s.released s.p s.k then s.awaitRelease else (t.yieldTask t.p x).advance)

/-! ### SPAWN (R52, R53, R196) -/

/-- The receiving core, and the bent whose dispatcher the packet is addressed to, where one chooses the core. -/
def State.spawnTarget (s : State) (p : CoreId) (g : Gang) (l : Loc) : Option (Option CoreId × Option BentId) :=
  match l with
  | .spad _ => some (some p, none)
  | .phys a =>
    match s.space a with
    | .under b o =>
      let c := coreOfBent (bentOfNat b) (o / 0x1C00000)
      if (s.runners g).contains c then some (some c, none) else some (s.chooseCore g (bentOfNat b), some (bentOfNat b))
    | .dev o => some (s.chooseCore g (bentOfNat (stackOf o / 2)), some (bentOfNat (stackOf o / 2)))
    | _ => none

/-- A dispatcher on a packet's way is full (R53): the one it is addressed to, and, where a dispatcher chose the core or must
hold the packet for it, the one of the core's bent. -/
def State.spawnFull (s : State) (q : CoreId) (via : Option BentId) : Bool :=
  via.toList.any s.heldFull || ((via.isSome || s.mustHold q) && s.heldFull (bentOf q))

def execSpawn (r : Spw) (s : State) : Out :=
  .next (scalar [src r.a r.pa, src r.b r.pb, src r.b r.pb] none false s fun v t =>
    let va := arg v 0
    match s.translate s.p va .locate s.user with
    | .error e => let (code, aux) := xerrCode .locate e; s.trapAt code aux va
    | .ok l =>
      match s.gangOf s.p with
      | none => s.blockNow
      | some g =>
        match s.spawnTarget s.p g l with
        | none => s.trapAt cAccess 0 va
        | some (none, _) => s.blockNow
        | some (some q, via) =>
          if !s.released s.p s.k then s.awaitRelease
          else if s.spawnFull q via then s.blockNow
          else
            ((t.note t.p va).sendPacket q
              { gang := g.id, stage := r.stage, target := va, loc := l, arg0 := arg v 1, arg1 := arg v 2,
                sender := BitVec.ofNat 8 (s.lidxOf s.p) }).advance)

/-- SPAWN_DELIVERY: held packet `n` of a bent goes to its core once an entry frees, or is re-chosen where the core is
no longer a running core of the gang (R53, R323). -/
def execSpawnDelivery (b : BentId) (n : Nat) (s : State) : Out :=
  .next (match (s.bent b).held[n]? with
    | none => s
    | some h =>
      match s.gang? h.pkt.gang with
      | none => s
      | some g =>
        let s1 := s.modBent b fun x => { x with held := x.held.eraseIdx n }
        if (s.runners g).contains h.core then
          let first := !((s.bent b).held.take n).any fun x => x.core == h.core
          if first && decide ((s.core h.core).gate.spawnq.length < 32) then
            s1.modGate h.core fun x => { x with spawnq := x.spawnq ++ [h.pkt] }
          else s
        else match s.chooseCore g (bentOf h.core) with
          | none => s
          | some q => if s1.mustHold q && s1.heldFull (bentOf q) then s else s1.sendPacket q h.pkt)

/-! ### The Stage Balancer (R54–R58) -/

/-- Σ filled and Σ capacity over some queues of a gang. -/
def State.fillOf (s : State) (g : Gang) (l : List Nat) : Nat × Nat :=
  let qs := l.flatMap (s.gangQs g)
  let full := fun q : StageQ => (q.slots.filter fun x => match x with
    | .full _ => true
    | _ => false).length
  ((qs.map fun q => full q + q.held).sum, (qs.map fun q => q.slots.length + q.quota).sum)

/-- A fraction with a positive denominator. -/
structure Frac where
  num : Int
  den : Nat
deriving DecidableEq, Repr, Inhabited

def Frac.lt (a b : Frac) : Bool := decide (a.num * b.den < b.num * a.den)
def Frac.sub (a b : Frac) : Frac := { num := a.num * b.den - b.num * a.den, den := a.den * b.den }
/-- × 256, rounded toward zero. -/
def Frac.times256 (a : Frac) : Int := (256 * a.num).tdiv a.den

def ratio (x : Nat × Nat) : Frac := if x.2 = 0 then { num := 0, den := 1 } else { num := x.1, den := x.2 }

def State.pressure (s : State) (g : Gang) (k : Nat) : Frac :=
  match g.groups[k]? with
  | some grp => (ratio (s.fillOf g grp.ins)).sub (ratio (s.fillOf g grp.outs))
  | none => { num := 0, den := 1 }

/-- The group a core counts in: from the decision, the recipient's. -/
def Core.counted (c : Core) : Option Nat :=
  match c.move, c.place with
  | some m, _ => some m.toNat
  | none, some pl => some pl.group.toNat
  | none, none => none

def State.groupCores (s : State) (g : Gang) (k : Nat) : List CoreId :=
  (s.holders g).filter fun p => (s.core p).counted == some k

/-- The group with the extreme pressure, the lower number on a tie. -/
def pickGroup (better : Frac → Frac → Bool) (l : List (Nat × Frac)) : Option (Nat × Frac) :=
  match l with
  | [] => none
  | a :: t => some (t.foldl (fun b x => if better x.2 b.2 then x else b) a)

/-- The pair for a move: recipient and donor with their pressures (R56). -/
def State.balancePair (s : State) (g : Gang) : Option ((Nat × Frac) × (Nat × Frac)) :=
  let l := ((List.range g.groups.length).filter fun k => !s.finished g k).map fun k => (k, s.pressure g k)
  let size := fun k => (s.groupCores g k).length
  match pickGroup (fun a b => b.lt a) (l.filter fun x => decide (size x.1 < (g.groups.getD x.1 default).maxc)) with
  | none => none
  | some r =>
    match pickGroup Frac.lt (l.filter fun x => x.1 != r.1 && decide ((g.groups.getD x.1 default).minc < size x.1)) with
    | none => none
    | some d => if ({ num := 1, den := 4 } : Frac).lt (r.2.sub d.2) then some (r, d) else none

/-- The core that moves (R57). -/
def State.mover (s : State) (g : Gang) (r d : Nat) : Option CoreId :=
  let rs := s.groupCores g r
  let ds := s.groupCores g d
  let near := ds.filter fun p => rs.any fun q => s.coresAdjoin p q
  argMin (fun p : CoreId => [s.t0 p, (p.val : Int)]) (if near.isEmpty then ds else near)

def State.decideMove (s : State) (g : Gang) (count : Nat) : State :=
  match s.balancePair g with
  | none => s
  | some (r, d) =>
    match s.mover g r.1 d.1 with
    | none => s
    | some p =>
      let half := fun x : Frac => (BitVec.ofInt 16 x.times256).toNat
      let body :=
        [at_ count 0, at_ d.1 0 ||| at_ r.1 8 ||| at_ (s.lidxOf p) 16 ||| at_ (half r.2) 32 ||| at_ (half d.2) 48]
      ((s.event (bentOf p) 4 (some p) body).modGang g.id fun x => { x with events := x.events ++ [body] }).modCore p
        fun c => { c with move := some (BitVec.ofNat 4 r.1) }

/-- BALANCER_INTERVAL: the balancer of the gang's home bent evaluates the `n`-th running gang when its interval ends;
no move is decided while one is pending. -/
def execBalancerInterval (n : Nat) (s : State) : Out :=
  .next (match s.launch.gangs[n]? with
    | none => s
    | some g =>
      if s.nanos < g.balNext ∨ g.saving.isSome then s
      else
        let s1 := s.modGang g.id fun x =>
          { x with balNext := s.nanos + s.balPeriod g.home, balCount := x.balCount + 1 }
        if (s.holders g).any fun p => (s.core p).move.isSome then s1 else s1.decideMove g (g.balCount + 1))

/-- STAGE_SWITCH: a core with a move pending, whose CP has reached TNEXT with no task current, begins afresh in the
recipient's group once its engine commands have completed; what it has issued performs, its packets stay (R57). -/
def execStageSwitch (p : CoreId) (s : State) : Out :=
  .next (
    let c := s.core p
    match c.move with
    | some g =>
      if c.gate.switching && c.gate.cur.isNone && c.idle && !s.stalled p && !s.halted p then
        (s.drain p).startGroup p g true
      else s
    | none => s)

end Sys2Proof.Machine
end

