-- ==== Sys2Proof/Machine/Faults.lean ====
section
/-! DEFINITION. Storage errors, held fault records, replay and abort of parked agents (R67, R311–R319). -/

namespace Sys2Proof.Machine

/-! ### Storage errors (R67, R317–R319) -/

/-- A freeze of 24 cycles from a detection in a core's array. -/
def State.eccFreeze (s : State) (p : CoreId) : State :=
  s.modCore p fun c => { c.freezeAt s.cycle s.clock.busy.isSome with eccUntil := some (s.cycle + 24) }

/-- CORRECTABLE_ERROR: counted in its bent; in a core's array it freezes the core. -/
def execCorrectableError (b : BentId) (core : Option (Fin 16)) (s : State) : Out :=
  .next (
    let s1 := s.modBent b fun x => { x with errce := x.errce + 1 }
    match core with
    | some j => s1.eccFreeze (coreOfBent b j.val)
    | none => s1)

/-- ECC_FREEZE_END: the core resumes once 24 cycles have passed since the last detection. -/
def execEccFreezeEnd (p : CoreId) (s : State) : Out :=
  .next (match (s.core p).eccUntil with
    | some t =>
      if t ≤ s.cycle then s.modCore p fun c => { c.settleFreeze s.cycle s.clock.busy.isSome with eccUntil := none } else s
    | none => s)

/-- The clean copy is dropped, to be fetched again from its source (R318). -/
def State.dropCopy (s : State) (e : UncorrErr) : State :=
  let p := e.consumer.getD (coreOfBent e.b 0)
  let line := e.loc.toNat / 128 * 128
  let tlb := fun l : List TlbEntry => l.filter fun x => !x.hits e.loc.toNat
  match e.aux.toNat with
  | 0 => (s.modCore p fun c => { c with l1 := dropLine line c.l1 }).eccFreeze p
  | 1 => (s.modCore p fun c => { c with icache := dropLine line c.icache }).eccFreeze p
  | 2 => (s.modCore p fun c => { c with tlb := tlb c.tlb }).eccFreeze p
  | 3 => s.modBent e.b fun b => { b with icache := dropLine line b.icache }
  | 4 => s.modBent e.b fun b => { b with tlb := tlb b.tlb }
  | _ => { s with llc := s.llc.filter fun x => x.dirty || x.line != line }

/-- An error at device-memory place `a` meets a Furrow command whose source row there has not been read: it stops at
that row (R302). -/
def FurRun.meetError (a : Nat) (f : FurRun) : FurRun :=
  f.srcs.foldl (fun g x =>
    let i := (a - x) / 1024
    if x + 1024 * f.row ≤ a ∧ a < x + 1024 * f.n then { g with stop := some (min i (g.stop.getD i)) } else g) f

def State.stopRows (s : State) (a : Nat) : State :=
  s.mapBents fun b => { b with ctl := vmap (fun c => { c with cmds := c.cmds.map (FurRun.meetError a) }) b.ctl }

/-- The record of a storage error; its array holds one that has no room (R313). -/
def State.errorRecord (s : State) (e : UncorrErr) : State :=
  let x : FaultSrc := { core := e.consumer, src := 9, addr := e.loc }
  if s.faultRoom e.b then s.report e.b x cUncorrectable e.aux
  else s.modFlt fun f => { f with errors := f.errors ++ [(e.b, { words := s.faultWords x cUncorrectable e.aux none, ticket := none })] }

/-- A dirty LLC line keeps its bad check bits, in the LLC and written back, so that a later read meets them (R319). -/
def State.markLine (s : State) (a : Nat) : State :=
  { s with marks := { s.marks with bad := s.marks.bad ++ (List.range 128).map fun i => s.key (a / 128 * 128 + i) } }

/-- An uncorrectable error of an array that holds the only copy: counted and recorded; a Furrow command stops at the row it
was to read; the gang that consumes the data ends with 0x13. -/
def State.raiseError (s : State) (e : UncorrErr) : State :=
  let s0 := s.modBent e.b fun b => { b with errue := b.errue + 1 }
  let s1 := if e.aux = 8 then s0.stopRows e.loc.toNat else if e.aux = 7 then s0.markLine e.loc.toNat else s0
  let s2 := s1.errorRecord e
  match e.consumer.bind s.gangNo with
  | some g => s2.killGang g cUncorrectable
  | none => s2

/-- UNCORRECTABLE_ERROR: a clean copy is a miss; any other error is raised. -/
def execUncorrectableError (e : UncorrErr) (s : State) : Out :=
  .next (
    if e.clean then (s.dropCopy e).modBent e.b fun b => { b with errce := b.errce + 1 }
    else s.raiseError e)

/-- A line with bad check bits read again: an error of a dirty LLC line, or of the DRAM it was written back to. -/
def State.metError (s : State) (p : Option CoreId) (line : Nat) : UncorrErr :=
  { b := bentOfNat (stackOf line / 2), aux := if s.llc.any fun x => x.line == line && x.dirty then 7 else 8,
    loc := BitVec.ofNat 64 line, clean := false, consumer := p }

/-- A turn from `s` to `t` that read lines with bad check bits: each raises its error. Where a core of a gang consumed one,
the gang stops with nothing further committed, and only the errors remain of the turn (R319). -/
def State.settleMet (s t : State) : State :=
  match t.marks.met with
  | [] => t
  | l =>
    let u := if l.any fun x => (x.1.bind s.gangNo).isSome then s else t
    l.eraseDups.foldl (fun v x => v.raiseError (v.metError x.1 x.2)) { u with marks := { u.marks with met := [] } }

/-! ### Row operations of a controller (R302–R308) -/

/-- Where the `n`-th command stands that no earlier one of its controller shares a bank with (R307). -/
def Ctl.turn (c : Ctl) (n : Nat) : Option Nat :=
  let free := (List.range c.cmds.length).filter fun i => match c.cmds[i]? with
    | some f => !(c.cmds.take i).any f.clash
    | none => false
  free[n % free.length]?

/-- A command stopped by an uncorrectable error ends with no counter add, token or record, and its gang is killed
(R302, R319). -/
def State.furStop (s : State) (f : FurRun) : State :=
  if f.orphan then s
  else
    let s1 := s.endFlight f.core f.ord
    match s1.gangNo f.core with
    | some g => s1.killGang g cUncorrectable
    | none => s1

/-- The first line with bad check bits among the source rows that a command reads next. -/
def State.badSource (s : State) (f : FurRun) : Option Nat :=
  (f.srcs.flatMap fun a => (List.range 8).map fun j => a + 1024 * f.row + 128 * j).find? s.badLine

/-- A controller's turn: the next row of one of its commands, which stops at a source row with an error, or the end of one
whose rows are done. -/
def State.rowTurn (s : State) (k n : Nat) : State :=
  match (s.ctlOf k).turn n with
  | none => s
  | some i =>
    match (s.ctlOf k).cmds[i]? with
    | none => s
    | some f =>
      if f.stop = some f.row then (s.modCtl k fun c => { c with cmds := c.cmds.eraseIdx i }).furStop f
      else if f.row < f.n then
        match s.badSource f with
        | some a => s.raiseError (s.metError none a)
        | none => (s.furRow (furByte f.opc f.ones) f.dst f.srcs f.row).modCtl k fun c =>
          { c with cmds := lmod i (fun x => { x with row := x.row + 1 }) c.cmds }
      else if s.furWaits f then s
      else
        ((s.furRecord f).modCtl k fun c => countPath f.path { c with cmds := c.cmds.eraseIdx i }).furFinish f

/-! ### Parked agents (R311, R314, R315) -/

/-- The bent whose unit holds the records of the device's save sequencer (log 7). -/
def saveBent : BentId := 0

inductive Parked where
  | ctx (p : CoreId) (k : Ctx)
  | head (p : CoreId) (e : Ep)
  | chain (p : CoreId) (e : Ep)
  | flight (p : CoreId) (ord : Nat)
  | walk (p : CoreId) (n : Nat)
  | save (gid : Nat)
  /-- On a core of the pre-empted gang whose area is at `base`. -/
  | saved (base : Word)
  /-- The save sequencer, in the restore of that gang (R315). -/
  | restore (base : Word)
deriving DecidableEq, Repr, Inhabited

def Core.parkedAt (c : Core) (p : CoreId) (t : BitVec 16) : Option Parked :=
  let hit := fun x : Option (BitVec 16) => x == some t
  let cs := [Ctx.ld, Ctx.cp, Ctx.st].filter fun k => hit (c.getCtx k).ticket
  let es := [Ep.l, Ep.m, Ep.v, Ep.s]
  (cs.head?.map fun k => .ctx p k)
    <|> ((es.find? fun e => (c.getEng e).q.any fun q => hit q.ticket).map fun e => .head p e)
    <|> ((es.find? fun e => hit (c.getEng e).chain.ticket).map fun e => .chain p e)
    <|> ((c.flights.find? fun f => hit f.ticket).map fun f => .flight p f.ord)
    <|> (((List.range 16).find? fun n => hit (vget c.ve.sd n).ticket).map fun n => .walk p n)

/-- The agent a ticket names. -/
def State.parkedAt (s : State) (t : BitVec 16) : Option Parked :=
  (allCores.findSome? fun p => (s.core p).parkedAt p t)
    <|> ((s.launch.gangs.find? fun g => g.saveTicket == some t).map fun g => .save g.id)
    <|> ((s.launch.pre.find? fun e => e.ticket == some t).map fun e => .restore e.base)
    <|> ((s.launch.pre.find? fun e => e.saved.any fun x => (x.2.parkedAt x.1 t).isSome).map fun e => .saved e.base)

/-- The context goes on at TEPC in its mode from before the trap. -/
def Context.restart (x : Context) : Context :=
  { x with run := .issuing, pc := x.tepc, status := returnStatus x.status, ticket := none, blocked := false }

/-- A started command retries from its recorded element, or acts where it waited behind another (R212, R315). -/
def State.resumeFlight (s : State) (p : CoreId) (f : Flight) : State :=
  let copy := fun (t : Tag) => match flightJob s p f with
    | some j => runJob p f t j s
    | none => s
  let fur := fun (opc : Nat) (c : Fur) (srcs : List Word) (ones : Bool) =>
    s.furGo p f (furCmd opc c srcs) ones (record? c)
  let queue := fun (op : QOp) (d : Word) => s.queueGo p op (descOf d) f f.locs
  match decodeCmd f.words with
  | some (.cpy _ c) => copy c.tag
  | some (.cpyn _ c) => copy c.tag
  | some (.gath _ c) => copy c.tag
  | some (.scat _ c) => copy c.tag
  | some (.fill _ c) => copy c.tag
  | some (.rcpy _ c) => runRcpy p f c s
  | some (.prefCmd _ c) => runPref p f c s
  | some (.cpyp _ c) => runCpyp p f c (s.modFlight p f.ord fun x => { x with ticket := none })
  | some (.cnop _) | some (.clink _ _) | some (.cloop _ _) | some (.cend _) | some (.cwait ..) => s.finish p f.ord
  | some (.csig _ _ inc) => s.csigGo p inc f f.locs
  | some (.psub _ c) => s.psubGo p c f
  | some (.puns _ n) => s.punsGo p n f
  | some (.qinit _ d) => queue .init d
  | some (.qacq _ d _) => queue .acq d
  | some (.qrel _ d a) => queue (.rel a) d
  | some (.qres _ d _ nw) => queue (.res nw) d
  | some (.qcom _ d a) => queue (.com a) d
  | some (.qstat _ d _) => queue .stat d
  | some (.vrun _ c) => s.loadTable p f c
  | some (.fcopy _ c a) => fur 0x20 c [a] false
  | some (.ffill _ c ones) => fur 0x21 c [] ones
  | some (.fand _ c a b) => fur 0x22 c [a, b] false
  | some (.forRow _ c a b) => fur 0x23 c [a, b] false
  | some (.fxor _ c a b) => fur 0x24 c [a, b] false
  | some (.fnot _ c a) => fur 0x25 c [a] false
  | some (.fmaj _ c a b d) => fur 0x26 c [a, b, d] false
  | some (.fqry _ c) => s.fqryGo p f (fqryCmd c) c.res
  | _ => s.modFlight p f.ord fun x => { x with ticket := none }

/-- A command that waited behind another of its queue and class goes on (R212). -/
def State.resumeWaiting (s : State) (p : CoreId) (f : Flight) : State :=
  (s.modFlight p f.ord fun x => { x with waiting := false, held := false }).resumeFlight p
    { f with waiting := false, held := false }

/-- A replayed command goes on at once, or waits for the end of a freeze, a stop or a region change first (R67, R297). -/
def State.replayFlight (s : State) (p : CoreId) (f : Flight) : State :=
  if s.stalled p || s.halted p || s.changing then
    s.modFlight p f.ord fun x => { x with ticket := none, waiting := true, held := true }
  else (s.modFlight p f.ord fun x => { x with ticket := none }).resumeFlight p { f with ticket := none }

def State.clearHead (s : State) (p : CoreId) (e : Ep) : State :=
  s.modEng p e fun g => { g with q := g.q.map fun q => { q with ticket := none } }

def State.modVeSd (s : State) (p : CoreId) (n : Nat) (f : SdState → SdState) : State :=
  s.modVe p fun v => { v with sd := vmod v.sd n f }

/-- A parked agent retries translation. -/
def State.retry (s : State) (x : Parked) : State :=
  match x with
  | .ctx p k => s.modCtx p k Context.restart
  | .head p e => s.clearHead p e
  | .chain p e => s.modChain p e fun c => { c with ticket := none }
  | .flight p ord =>
    match (s.core p).flight? ord with
    | some f => s.replayFlight p f
    | none => s
  | .walk p n => s.modVeSd p n fun d => { d with ticket := none }
  | .save gid => s.modGang gid fun g => { g with saveTicket := none }
  | .saved _ => s
  | .restore base =>
    s.modLaunch fun l => { l with pre := modFirst (fun e => e.base == base) (fun e => { e with ticket := none }) l.pre }

/-- ENGFLT takes an engine fault (R312). -/
def State.noteEngflt (s : State) (p : CoreId) (code : Byte) (e : Ep) : State :=
  s.modCore p fun c => { c with engflt := engfltNext c.engflt code e }

/-- A started command ends as by a fault: an MDRN's segments and a VRUN's run end with it. -/
def State.abortFlight (s : State) (p : CoreId) (ord : Nat) : State :=
  let s1 := match (s.me p).drn with
    | some (o, _) => if o = ord then s.modMe p fun m => { m with drn := none } else s
    | none => s
  match (s.ve p).run with
  | some r => if r.ord = ord then (s1.modFlight p ord fun f => { f with ticket := none }).endRun p true else s1.endFlight p ord
  | none => s1.endFlight p ord

/-- A parked agent ends (R314); `code` is its record's. -/
def State.abandon (s : State) (x : Parked) (code : Byte) : State :=
  match x with
  | .ctx p k => s.modCtx p k fun c => { c with ticket := none }
  | .head p e => (s.dropHead p e).noteEngflt p code e
  | .chain p e =>
    (s.modChain p e fun c => { c with ticket := none, stopped := true, start := none }).noteEngflt p code e
  | .flight p ord =>
    match (s.core p).flight? ord with
    | some f => (s.abortFlight p ord).noteEngflt p code f.ep
    | none => s
  | .walk p n =>
    (((s.modVeSd p n fun d => { d with ticket := none }).modVe p fun v => v.detach (BitVec.ofNat 4 n)).noteEngflt p code
      .v).endRun p true
  | .save gid => s.killGang gid cKilled
  | .saved _ => s
  | .restore base =>
    (s.modLaunch fun l => { l with pre := modFirst (fun e => e.base == base) (fun e => { e with ticket := none }) l.pre }).modPm
      fun x => { x with op := none, err := true, ecode := 3 }

/-- A record's words as they stand with REPLAY = 0. -/
def unreplayed (ws : List Word) : List Word :=
  match ws with
  | w :: t => (w &&& ~~~0x80000000FFFF0000#64) :: t
  | [] => []

/-- The words of the record a ticket stands in. -/
def State.ticketWords (s : State) (t : BitVec 16) : List Word :=
  ((s.flt.tickets.find? fun x => x.1 == t).map (·.2)).getD []

def Parked.bent (x : Parked) : BentId :=
  match x with
  | .ctx p _ | .head p _ | .chain p _ | .flight p _ | .walk p _ => bentOf p
  | _ => saveBent

/-- A command that a pre-emption has stopped goes on only at its restore (R321). -/
def State.heldBack (s : State) (x : Parked) : Bool :=
  match x with
  | .flight p _ => (s.core p).saving
  | _ => false

/-- An abort writes its own record, and waits where that has no room (R313, R314). -/
def State.abort (s : State) (t : BitVec 16) (x : Parked) : State :=
  if s.faultRoom x.bent then
    let ws := s.ticketWords t
    ((s.dropTicket t).postFault x.bent { words := unreplayed ws, ticket := none }).abandon x ((ws.headD 0).extractLsb' 0 8)
  else s.modFlt fun f => { f with aborts := f.aborts ++ [t] }

def State.reply (s : State) (t : BitVec 16) (abort : Bool) : State :=
  if s.flt.aborts.contains t then s
  else match s.parkedAt t with
  | none => s
  | some (.saved base) =>
    s.modLaunch fun l => { l with pre := modFirst (fun e => e.base == base) (fun e =>
      { e with replies := e.replies ++ [(t, abort)] }) l.pre }
  | some x =>
    if abort then s.abort t x
    else if s.heldBack x then s
    else (s.dropTicket t).retry x

/-! ### Held records (R313) -/

/-- An abort of an agent of bent `b` that waited for room, or whose agent is gone. -/
def State.heldAbort (s : State) (b : BentId) : Option (BitVec 16) :=
  s.flt.aborts.find? fun t => match s.parkedAt t with
    | some x => x.bent == b && s.faultRoom b
    | none => true

/-- A packet held by the dispatcher of a bent fenced whole goes back as a record, or stays where that has no room
(R313, R323). -/
def State.returnOne (b : BentId) (s : State) (h : Held) : State :=
  if s.faultRoom b then
    let reca := (((s.launch.gangs ++ s.launch.pre.map (·.gang)).find? fun g => g.id == h.pkt.gang).map (·.reca)).getD 0
    s.postFault b
      { words := [at_ h.pkt.sender.toNat 40 ||| at_ 8 32 ||| at_ 0x20 8 ||| at_ cAccess.toNat 0, 0, 0, h.pkt.target, 0, reca,
                  h.pkt.arg0, h.pkt.arg1], ticket := none }
  else s.modBent b fun x => { x with held := x.held ++ [h] }

def State.returnHeld (s : State) (b : BentId) : State :=
  (s.bent b).held.foldl (State.returnOne b) (s.modBent b fun x => { x with held := [] })

/-- The oldest record that an array of the bent holds is posted once there is room (R313). -/
def State.postError (s : State) (b : BentId) : State :=
  match s.flt.errors.find? fun x => x.1 == b with
  | some x =>
    if s.faultRoom b then
      (s.modFlt fun f => { f with errors := eraseFirst (fun y => y.1 == b) f.errors }).postFault b x.2
    else s
  | none => s

/-- FAULT_RECORD_RELEASE: the oldest record a bent holds is written once the ring takes it; an abort or a storage error that
waited for room then follows. -/
def execFaultRecordRelease (b : BentId) (s : State) : Out :=
  .next (match s.heldAbort b with
    | some t => (s.modFlt fun f => { f with aborts := f.aborts.filter (· != t) }).reply t true
    | none =>
      if (s.flt.errors.any fun x => x.1 == b) && s.faultRoom b then s.postError b else
      match (s.bent b).faults with
      | [] => if bentFenced (s.bent b).sitemap then s.returnHeld b else s
      | r :: rest =>
        if s.ringOpen then
          match s.storeFault r with
          | (t, true) => t.modBent b fun x => { x with faults := rest }
          | (t, false) => t
        else s)

/-- FAULT_REPLAY: FLTREPLAY written with ABORT = 0. -/
def execFaultReplay (ticket : BitVec 16) (s : State) : Out := .next (s.reply ticket false)

/-- FAULT_ABORT: FLTREPLAY written with ABORT = 1. -/
def execFaultAbort (ticket : BitVec 16) (s : State) : Out := .next (s.reply ticket true)

end Sys2Proof.Machine
end

