-- ==== Sys2Proof/Machine/Snapshot.lean ====
section
/-! DEFINITION. The snapshot of a core, version 1.0 (R324–R326). Parts of areas whose inner layout R324 does not give
are laid out as log 20 says. -/

namespace Sys2Proof.Machine

def areaSize : Nat := 0x2A8000
def snapSize : Nat := 0xA8000

def padTo (n : Nat) (l : List Byte) : List Byte := (l ++ List.replicate n 0).take n
def wb (w : Word) : List Byte := bytesOfNat w.toNat 8
def nb (n k : Nat) : List Byte := bytesOfNat n k

/-- Four entries, head first. -/
def queueBytes (q : Queue) : List Byte := padTo 32 (q.flatMap fun e => wb e.val)

/-! ### Writing -/

def headerBytes (s : State) (g : Gang) (p : CoreId) : List Byte :=
  let pl := (s.core p).place
  padTo 0x40 (nb 0x0100 2 ++ nb 0x40 2 ++ nb snapSize 4 ++ wb g.reca ++ nb (placeLidx pl) 1 ++ nb (placeGroup pl) 1
    ++ nb g.lq.toNat 1 ++ nb 0 1 ++ nb g.n 2 ++ nb p.val 1 ++ nb 0 9 ++ nb s.cycle 8)

def Context.stateCode (x : Context) : Nat :=
  match x.run with
  | .issuing => if x.blocked then 1 else 0
  | .stopped => 2
  | .idle => 3
  | .notStarted => 4

/-- The two private registers among x28–x31 of a context. -/
def highRegs (k : Ctx) : List Nat :=
  match k with
  | .ld => [30, 31]
  | .cp => []
  | .st => [28, 29]

def contextBytes (c : Core) (k : Ctx) : List Byte :=
  let x := c.getCtx k
  let low := (List.range 27).map fun i => vget x.regs (i + 1)
  let sup := vlist x.sup
  let high := (highRegs k).map fun n => vget x.regs n
  let task := k == .cp && c.gate.cur.isSome
  padTo 0x80 ([x.pc, x.status, x.tvec, x.tepc, x.tcause, x.tval, x.tscr, x.tword, x.xres,
      at_ task.toNat 8 ||| at_ x.stateCode 0].flatMap wb)
    ++ low.flatMap queueBytes ++ sup.flatMap queueBytes
    ++ padTo 28 (low.map fun q => BitVec.ofNat 8 q.length) ++ sup.map (fun q => BitVec.ofNat 8 q.length)
    ++ padTo 64 (high.flatMap queueBytes) ++ padTo 64 (high.map fun q => BitVec.ofNat 8 q.length)

/-- The token counts in the order of R324. -/
def tokenOrder : List (Ep × Ep) :=
  [Ep.l, .m, .v, .s].flatMap fun a => ((others a).map fun b => (a, b))

def chainBytes (c : Chain) : List Byte := [c.head, c.tail, c.fetch, c.seq].flatMap wb

def cmdBytes (n : Nat) (q : List QCmd) : List Byte :=
  padTo (64 * n) (q.flatMap fun c => padTo 64 (c.words.flatMap fun w => nb w.toNat 4))

/-- A ticket in eight bytes, with bit 16 set; 0 for none. -/
def ticketCode (t : Option (BitVec 16)) : Nat :=
  match t with
  | some x => 0x10000 + x.toNat
  | none => 0

def ticketOf (n : Nat) : Option (BitVec 16) := if n / 0x10000 % 2 = 1 then some (BitVec.ofNat 16 n) else none

/-- The 96 bytes of an in-flight entry that R324 lays out. -/
def flightBytes (f : Flight) : List Byte :=
  padTo 64 (f.words.flatMap fun w => nb w.toNat 4) ++ nb f.elem 8 ++ nb (ticketCode f.ticket) 8
    ++ nb (f.ctr.isSome.toNat + 2 * f.sig.isSome.toNat + 4 * f.waiting.toNat + 8 * f.finished.toNat + 16 * f.held.toNat) 8
    ++ nb (f.ep.idx.val + 256 * f.ord) 8

def Flight.isCe (f : Flight) : Bool := f.ep == .l || f.ep == .s

/-- The commands of the in-flight table: those of the CE, at most 512. -/
def Core.ceFlights (c : Core) : List Flight := (c.flights.filter Flight.isCe).take 512

/-- The control word of the in-flight table: the counts of the L, S, M and V queues and of the table itself. It stands
behind the 96 bytes of entry 0 (log 20). -/
def Core.control (c : Core) : Nat :=
  (c.getEng .l).q.length + 2 ^ 8 * (c.getEng .s).q.length + 2 ^ 16 * (c.getEng .m).q.length
    + 2 ^ 24 * (c.getEng .v).q.length + 2 ^ 32 * c.ceFlights.length

def inflightBytes (c : Core) : List Byte :=
  let es := c.ceFlights.map flightBytes
  padTo 0x10000 (padTo 96 (es.headD []) ++ padTo 32 (nb c.control 8) ++ es.tail.flatMap (padTo 128))

def packetBytes (k : Packet) : List Byte := wb k.target ++ wb k.arg0 ++ wb k.arg1 ++ nb (k.sender.toNat + 256 * k.stage.toNat) 8

/-- A queue of the scratchpad table in the layout of its descriptor (R221). -/
def sqBytes (q : StageQ) : List Byte :=
  wb q.slotVa ++ nb q.size 4 ++ nb q.slots.length 2 ++ nb 0 2 ++ wb q.ringVa ++ nb q.quota 4 ++ nb 0 4 ++ wb q.spill
    ++ wb q.fill ++ wb q.pcom ++ wb q.crel

def monBytes (m : Mon) : List Byte :=
  padTo 32 (nb (match m.loc with
    | .spad o => spadBase + o
    | .phys a => a) 8 ++ nb m.ctx.idx.val 8)

def sdBytes (x : SdState) : List Byte :=
  padTo 64 (wb x.d.base ++ [x.d.cnt0, x.d.cnt1, x.d.cnt2, x.d.cnt3].flatMap (fun n => nb n.toNat 2)
    ++ [x.d.str0, x.d.str1, x.d.str2, x.d.str3, x.d.dctl].flatMap (fun w => nb w.toNat 4) ++ nb x.parked.toNat 4 ++ nb x.cur 8)

def gensBytes (v : Gens) : List Byte := (vlist v).flatMap fun w => nb w.toNat 4

/-- Bits, the first at the lowest place. -/
def bitsNat (l : List Bool) : Nat := l.foldr (fun b n => b.toNat + 2 * n) 0

def attCode (x : Option (BitVec 4)) : List Byte :=
  match x with
  | some n => [BitVec.ofNat 8 (n.toNat + 1)]
  | none => [0]

/-- VE control: the contents R324 names, in its order, then the rest of what the VE goes on from (log 20). -/
def veBytes (c : Core) : List Byte :=
  let v := c.ve
  padTo 0x700 ((vlist v.sd).flatMap sdBytes ++ (vlist v.masks).flatMap (fun m => nb m.toNat 16) ++
    (vlist v.lc).flatMap (fun n => nb n 4) ++ nb v.counter 8 ++ nb v.step 8 ++
    nb (bitsNat [v.frz, v.cutw, v.stopr.isSome, v.tag.isSome, v.held, v.installed, v.clamp]) 8 ++
    padTo 24 (nb (bitsNat ((vlist v.slots).map Option.isSome)) 18) ++
    wb ((v.tag.map (·.1)).getD 0) ++ nb ((v.tag.map (·.2)).getD 0) 8 ++ gensBytes c.rng.vg ++
    (vlist v.oq).flatMap (fun q => nb q.length 1) ++ (vlist v.wq).flatMap (fun q => nb q.length 1) ++
    (vlist v.lcv).flatMap (fun x => nb x.toNat 2) ++ nb (bitsNat (vlist v.armed)) 1 ++ nb v.due 8 ++ nb v.disc 2 ++
    (vlist v.oqAtt).flatMap attCode ++ (vlist v.wqAtt).flatMap attCode)

def vecOpt (x : Option Vec) : List Byte := vecBytes (x.getD 0)

/-- The format state: codes, then FI, FO, SAT, APOD, BPOD, then streams. -/
def fmtBytes (f : MFmt) : List Byte :=
  nb (f.afmt.toNat + 16 * f.bfmt.toNat) 1 ++ nb (bitsNat [f.fi, f.fo, f.sat, f.apod, f.bpod]) 1
    ++ nb (f.astrm.toNat + 16 * f.bstrm.toNat) 1

def Core.flightWords (c : Core) (ord : Nat) : List W32 := ((c.flights.find? fun f => f.ord == ord).map (·.words)).getD []

/-- The MBLD record: whether one runs and waits for ring rows, its command, its order number. -/
def bldBytes (c : Core) : List Byte :=
  match c.me.bld with
  | some (ord, _) =>
    nb (1 + 2 * c.me.bldw.toNat) 8 ++ padTo 64 ((c.flightWords ord).flatMap fun w => nb w.toNat 4) ++ nb ord 8
  | none => List.replicate 80 0

/-- ME control: the contents R324 names, MSTAT first of what follows the streams, then the nest position, the format
state, the MBLD record, and the streams again with the windows that ended subscriptions leave (R279; log 20). -/
def meBytes (c : Core) : List Byte :=
  let m := c.me
  let r := m.run
  let on := fun (g : MRun → Bool) => (r.map g).getD false
  padTo 0x800 ((vlist m.shadow).flatMap wb ++ (vlist m.active).flatMap wb ++ gensBytes c.rng.mg ++
    (vlist c.pods).flatMap (fun x => wb x.reg) ++ wb m.mstat ++
    nb ((r.map fun x => x.idx.length).getD 0) 8 ++ padTo 48 (((r.map (·.idx)).getD []).flatMap fun i => nb i 8) ++
    nb (bitsNat [r.isSome, on (·.first), on (·.lastB), on (·.ahead), m.nested, m.pre, m.act != 0, m.podw, m.bwait]) 8 ++
    nb m.kstep.toNat 1 ++ nb m.nlev.toNat 1 ++ padTo 6 (fmtBytes m.fmt) ++ bldBytes c ++
    (vlist c.pods).flatMap (fun x => wb x.fields))

/-- Bank `j` of quadrant `q`: the patterns of its cells, κ-major. -/
def bankBytes (m : Me) (q j : Nat) : List Byte :=
  let b := vget m.banks j
  match b.id with
  | none => List.replicate 0x8000 0
  | some id =>
    match (quads id.qm).findIdx? (· == q) with
    | none => List.replicate 0x8000 0
    | some i =>
      (List.range 128).flatMap fun κ => (List.range 128).flatMap fun n =>
        if κ < id.kstep.toNat then nb (bElem id.fmt b.rows (i * bRowsQ id.fmt id.kstep.toNat) κ n) 2 else nb 0 2

def accBytes (m : Me) (q : Nat) : List Byte :=
  (vlist (vget m.acc q)).flatMap fun row => (List.range 128).flatMap fun n => nb (accElem row n).toNat 4

/-- The snapshot of a core of gang `g`. -/
def snapshot (s : State) (g : Gang) (p : CoreId) : List Byte :=
  let c := s.core p
  let v := c.ve
  padTo snapSize (
    headerBytes s g p
    ++ [Ctx.ld, Ctx.cp, Ctx.st].flatMap (contextBytes c)
    ++ (vlist c.chans).flatMap (fun q => padTo 64 (queueBytes q ++ nb q.length 1))
    ++ padTo 0x40 (tokenOrder.map fun x => BitVec.ofNat 8 (vget c.tok (tokIdx x.1 x.2)))
    ++ (vlist c.eng).flatMap (fun e => chainBytes e.chain)
    ++ cmdBytes 64 (c.getEng .l).q ++ cmdBytes 64 (c.getEng .s).q ++ cmdBytes 16 (c.getEng .m).q ++ cmdBytes 16 (c.getEng .v).q
    ++ inflightBytes c
    ++ padTo 0x500 (wb c.gate.curWord ++ (vlist c.gate.tslot).flatMap wb ++ padTo 1024 (c.gate.spawnq.flatMap packetBytes)
        ++ nb c.gate.spawnq.length 1)
    ++ padTo 0x400 (c.sqt.flatMap sqBytes)
    ++ padTo 0x100 ((vlist c.plumb.syms).flatMap (fun y => wb y.reg) ++ (vlist c.plumb.syms).flatMap (fun y => nb y.cnt 2)
        ++ wb c.plumb.retime ++ wb (s.plfreeze p))
    ++ padTo 0x200 (c.mon.flatMap monBytes)
    ++ padTo 0x100 ([c.rng.seed, b2w c.fuse, c.monstat, c.engflt, v.vstat, c.me.mstat].flatMap wb)
    ++ veBytes c
    ++ (vlist v.slots).flatMap vecOpt
    ++ (vlist v.oq).flatMap (fun q => padTo 0x800 (q.flatMap fun e => vecOpt e.val))
    ++ (vlist v.wq).flatMap (fun q => padTo 0x800 (q.flatMap vecBytes))
    ++ padTo 0x8000 (v.table.flatMap fun w => nb w.toNat 4)
    ++ meBytes c
    ++ [0, 1, 2, 3].flatMap (fun q => [0, 1].flatMap fun j => bankBytes c.me q j)
    ++ [0, 1, 2, 3].flatMap (accBytes c.me))

def spadBytes (c : Core) : List Byte := (List.range spadSize).map c.scratch.get

/-! ### Reading back -/

/-- A register of `n` saved entries, all filled. -/
def savedQueue (l : List Byte) (o n : Nat) : Queue :=
  (List.range (min 4 n)).map fun i => { id := 0, val := wordAt l (o + 8 * i), filled := true }

def countAt (l : List Byte) (o : Nat) : Nat := fieldAt l o 1

def runOf (n : Nat) (old : Run) : Run :=
  match n with
  | 0 | 1 => .issuing
  | 2 => .stopped
  | 3 => .idle
  | 4 => .notStarted
  | _ => old

/-- A context as its record at offset `o` gives it; it re-evaluates its condition (R36). -/
def Context.reinstate (x : Context) (k : Ctx) (l : List Byte) (o : Nat) : Context :=
  let w := fun i => wordAt l (o + 8 * i)
  let reg := fun n : Nat =>
    if 1 ≤ n ∧ n ≤ 27 then savedQueue l (o + 0x80 + 32 * (n - 1)) (countAt l (o + 0x460 + (n - 1)))
    else match (highRegs k).findIdx? (· == n) with
      | some j => savedQueue l (o + 0x480 + 32 * j) (countAt l (o + 0x4C0 + j))
      | none => vget x.regs n
  { x with pc := w 0, status := w 1, tvec := w 2, tepc := w 3, tcause := w 4, tval := w 5, tscr := w 6, tword := w 7,
           xres := w 8, run := runOf (fieldAt l (o + 0x48) 1 % 8) x.run, regs := vgen 32 reg,
           sup := vgen 4 fun i => savedQueue l (o + 0x3E0 + 32 * i) (countAt l (o + 0x47C + i)),
           pend := [], wait := none, blocked := false }

def vecAt (l : List Byte) (o : Nat) : Vec := vecOfBytes ((l.drop o).take 128)

def Chain.reinstate (c : Chain) (l : List Byte) (o : Nat) : Chain :=
  { c with head := wordAt l o, tail := wordAt l (o + 8), fetch := wordAt l (o + 16), seq := wordAt l (o + 24) }

/-- A symbol as saved; its window restarts empty. -/
def Sym.reinstate (l : List Byte) (o : Nat) : Sym :=
  let w := wordAt l o
  let b := fun i => (w.extractLsb' (8 * i) 8).toNat
  { valid := w.getLsbD 0, pend := w.getLsbD 1, lo := b 1, hi := b 2, bind := b 3, pbind := b 4, lowmax := b 6, lowcnt := b 7 }

/-- Byte `i` of the saved area, and the bits of `n` bytes. -/
def bitAt (l : List Byte) (o i : Nat) : Bool := fieldAt l (o + i / 8) 1 / 2 ^ (i % 8) % 2 == 1

/-- A saved command's words: the header and as many as its XWC says. -/
def cmdAt (l : List Byte) (o : Nat) : List W32 :=
  let w := fun i => BitVec.ofNat 32 (fieldAt l (o + 4 * i) 4)
  (List.range (1 + H.xwc (w 0))).map w

/-- A command queue of `n` saved commands; `q` is what the table of R324 does not lay out of each. -/
def queueAt (q : List QCmd) (l : List Byte) (o n : Nat) : List QCmd :=
  (List.range n).map fun i =>
    let old := q.getD i { words := [], pc := 0, chain := false, blk := 0, dup := false, ticket := none }
    { old with words := cmdAt l (o + 64 * i) }

/-- An in-flight command as saved. -/
def Flight.reinstate (f : Flight) (l : List Byte) (o : Nat) : Flight :=
  let st := fieldAt l (o + 80) 8
  let q := fieldAt l (o + 88) 8
  { f with words := cmdAt l o, elem := fieldAt l (o + 64) 8, ticket := ticketOf (fieldAt l (o + 72) 8),
           ctr := if st % 2 = 1 then f.ctr else none, sig := if st / 2 % 2 = 1 then f.sig else none,
           waiting := st / 4 % 2 == 1, finished := st / 8 % 2 == 1, held := st / 16 % 2 == 1, ep := Ep.ofCode (BitVec.ofNat 2 q) }

/-- The commands in flight, in their order: the CE's, of which `k` have gone before, as saved where they are among the first
`n` of the table, and the others. -/
def flightsAt (l : List Byte) (n : Nat) : Nat → List Flight → List Flight
  | _, [] => []
  | k, f :: t =>
    if !f.isCe then f :: flightsAt l n k t
    else if 512 ≤ k then f :: flightsAt l n (k + 1) t
    else if k < n then f.reinstate l (0x3900 + 128 * k) :: flightsAt l n (k + 1) t
    else flightsAt l n (k + 1) t

def SdState.reinstate (x : SdState) (l : List Byte) (o : Nat) : SdState :=
  let c := fun i => BitVec.ofNat 16 (fieldAt l (o + 8 + 2 * i) 2)
  let w := fun i => BitVec.ofNat 32 (fieldAt l (o + 16 + 4 * i) 4)
  { x with d := { base := wordAt l o, cnt0 := c 0, cnt1 := c 1, cnt2 := c 2, cnt3 := c 3, str0 := w 0, str1 := w 1,
                  str2 := w 2, str3 := w 3, dctl := w 4 },
           parked := bitAt l (o + 36) 0, cur := fieldAt l (o + 40) 8 }

def attAt (l : List Byte) (o : Nat) : Option (BitVec 4) :=
  let n := fieldAt l o 1
  if n = 0 then none else some (BitVec.ofNat 4 (n - 1))

/-- The VE from its control area at 0x1_4600, its slots, its queues and its table store. -/
def Ve.reinstate (v : Ve) (l : List Byte) : Ve :=
  let o := 0x14600
  let flag := fun i => bitAt l (o + 1184) i
  let n := fun a k => fieldAt l (o + a) k
  { v with
    sd := vgen 16 fun i => (vget v.sd i).reinstate l (o + 64 * i),
    masks := vgen 8 fun i => BitVec.ofNat 128 (n (1024 + 16 * i) 16),
    lc := vgen 4 fun i => n (1152 + 4 * i) 4,
    counter := n 1168 8, step := n 1176 8, due := n 1765 8, disc := n 1773 2,
    frz := flag 0, cutw := flag 1, held := flag 4, installed := flag 5, clamp := flag 6,
    stopr := if flag 2 then v.stopr else none,
    tag := if flag 3 then some (wordAt l (o + 1216), n 1224 8) else none,
    lcv := vgen 4 fun i => BitVec.ofNat 16 (n (1756 + 2 * i) 2),
    armed := vgen 4 fun i => bitAt l (o + 1764) i,
    oqAtt := vgen 8 fun i => attAt l (o + 1775 + i),
    wqAtt := vgen 4 fun i => attAt l (o + 1783 + i),
    slots := vgen 144 fun i => if bitAt l (o + 1192) i then some (vecAt l (0x14D00 + 128 * i)) else none,
    oq := vgen 8 fun q => (List.range (n (1744 + q) 1)).map fun i =>
      let old := (vget v.oq q).getD i { loc := .phys 0, val := none, req := 0, sym := none }
      { old with val := some (vecAt l (0x19500 + 0x800 * q + 128 * i)) },
    wq := vgen 4 fun q => (List.range (n (1752 + q) 1)).map fun i => vecAt l (0x1D500 + 0x800 * q + 128 * i),
    table := v.table.zipIdx.map fun x => BitVec.ofNat 32 (fieldAt l (0x1F500 + 4 * x.2) 4) }

def gensAt (l : List Byte) (o : Nat) : Gens := vgen 128 fun i => BitVec.ofNat 32 (fieldAt l (o + 4 * i) 4)

def fmtAt (l : List Byte) (o : Nat) : MFmt :=
  let b := bitAt l (o + 1)
  { afmt := BitVec.ofNat 4 (fieldAt l o 1), bfmt := BitVec.ofNat 4 (fieldAt l o 1 / 16), fi := b 0, fo := b 1, sat := b 2,
    apod := b 3, bpod := b 4, astrm := BitVec.ofNat 4 (fieldAt l (o + 2) 1), bstrm := BitVec.ofNat 4 (fieldAt l (o + 2) 1 / 16) }

/-- The cell (κ, n) that byte `b` of a quadrant's element rows belongs to, and what of the cell it holds (R272). -/
def cellByte (fmt : MFmt) (cell : Nat → Nat → Nat) (b : Nat) : Byte :=
  let w := bytes128 fmt.bfmt
  let κ := b / w
  let j := b % w
  BitVec.ofNat 8 (match fmt.bfmt.toNat with
    | 8 => cell κ (2 * j) % 16 + 16 * (cell κ (2 * j + 1) % 16)
    | 5 => cell κ (j / 2) / 256 ^ (j % 2)
    | _ => cell κ j)

/-- The element rows of bank `j` from its cells as saved. -/
def bankAt (l : List Byte) (j : Nat) (b : Bank) : Bank :=
  match b.id with
  | none => b
  | some id =>
    let per := bRowsQ id.fmt id.kstep.toNat
    { b with rows := ((quads id.qm).flatMap fun q => (List.range per).map fun r =>
        vecOfBytes ((List.range 128).map fun i =>
          cellByte id.fmt (fun κ n => fieldAt l (0x27D00 + 0x8000 * (2 * q + j) + 256 * κ + 2 * n) 2) (128 * r + i))).toArray }

def PodSub.reinstate (u : PodSub) (w : Word) : PodSub :=
  { u with valid := w.getLsbD 33, win := (w.extractLsb' 34 15).toNat, rows := (w.extractLsb' 18 15).toNat,
           rpos := (w.extractLsb' 0 18).toNat }

/-- The running MGO at its saved nest position. -/
def MRun.reinstate (r : MRun) (l : List Byte) (o : Nat) : MRun :=
  let flag := bitAt l (o + 1472)
  { r with idx := (List.range (min 6 (fieldAt l (o + 1416) 8))).map fun i => fieldAt l (o + 1424 + 8 * i) 8,
           first := flag 1, lastB := flag 2, ahead := flag 3 }

/-- The ME from its control area at 0x2_7500, its B banks and its accumulators. -/
def Me.reinstate (m : Me) (l : List Byte) : Me :=
  let o := 0x27500
  let flag := bitAt l (o + 1472)
  { m with
    shadow := vgen 48 fun i => wordAt l (o + 8 * i), active := vgen 48 fun i => wordAt l (o + 384 + 8 * i),
    steps := BitVec.ofNat 32 (fieldAt l (o + 1412) 4),
    run := if flag 0 then m.run.map fun r => r.reinstate l o else none,
    nested := flag 4, pre := flag 5, act := if flag 6 then 1 else 0, podw := flag 7, bwait := flag 8,
    kstep := BitVec.ofNat 8 (fieldAt l (o + 1480) 1), nlev := BitVec.ofNat 3 (fieldAt l (o + 1481) 1), fmt := fmtAt l (o + 1482),
    bld := if bitAt l (o + 1488) 0 then (match decodeCmd (cmdAt l (o + 1496)) with
      | some (.mbld _ c) => some (fieldAt l (o + 1560) 8, c)
      | _ => m.bld) else none,
    bldw := bitAt l (o + 1488) 1,
    banks := vgen 2 fun j => bankAt l j (vget m.banks j),
    acc := vgen 4 fun q => vgen 128 fun r => BitVec.ofNat 4096 (fieldAt l (0x67D00 + 0x10000 * q + 512 * r) 512) }

/-- A packet of the spawn queue as saved. -/
def Packet.reinstate (k : Packet) (l : List Byte) (o : Nat) : Packet :=
  let x := fieldAt l (o + 24) 8
  { k with target := wordAt l o, arg0 := wordAt l (o + 8), arg1 := wordAt l (o + 16), sender := BitVec.ofNat 8 x,
           stage := BitVec.ofNat 4 (x / 256) }

def Gate.reinstate (g : Gate) (l : List Byte) : Gate :=
  let o := 0x13900
  { g with curWord := wordAt l o, tslot := vgen 8 fun i => wordAt l (o + 8 + 8 * i),
           spawnq := (g.spawnq.take (fieldAt l (o + 1096) 1)).zipIdx.map fun x => x.1.reinstate l (o + 72 + 32 * x.2) }

/-- A scratchpad queue's entry as saved, on the core that takes it up. -/
def StageQ.reinstate (q : StageQ) (p : CoreId) (l : List Byte) (o : Nat) : StageQ :=
  { q with slotVa := wordAt l o, size := fieldAt l (o + 8) 4, ringVa := wordAt l (o + 16), quota := fieldAt l (o + 24) 4,
           spill := wordAt l (o + 32), fill := wordAt l (o + 40), pcom := wordAt l (o + 48), crel := wordAt l (o + 56),
           core := p }

/-- Bytes into a memory from an offset. -/
def spadOf (l : List Byte) : Memory := Memory.write [] 0 (l.take spadSize)

/-- The core as saved, on core `p`, with every field that R324–R326 lay out taken from the area's bytes (R322). -/
def Core.reinstate (c : Core) (p : CoreId) (l : List Byte) : Core :=
  let ctx := fun (k : Ctx) => (c.getCtx k).reinstate k l (0x40 + 0x500 * k.idx.val)
  let tok := tokenOrder.zipIdx.foldl (fun t x => vset t (tokIdx x.1.1 x.1.2) (countAt l (0x1040 + x.2))) c.tok
  let count := fun i => fieldAt l (0x3960 + i) 1
  let eng := fun (e : Ep) (o n : Nat) =>
    { chain := (c.getEng e).chain.reinstate l (0x1080 + 32 * e.idx.val), q := queueAt (c.getEng e).q l o n : Engine }
  { c with
    ctx := #v[ctx .ld, ctx .cp, ctx .st],
    chans := vgen 4 fun i => savedQueue l (0xF40 + 64 * i) (countAt l (0xF40 + 64 * i + 32)),
    tok := tok,
    eng := #v[eng .l 0x1100 (min 64 (count 0)), eng .m 0x3100 (min 16 (count 2)), eng .v 0x3500 (min 16 (count 3)),
              eng .s 0x2100 (min 64 (count 1))],
    flights := (flightsAt l (fieldAt l 0x3964 2) 0 c.flights).map fun f => { f with fwd := f.fwd.map fun r => { r with core := p } },
    gate := c.gate.reinstate l,
    sqt := c.sqt.zipIdx.map fun x => x.1.reinstate p l (0x13E00 + 64 * x.2),
    plumb := { syms := vgen 16 fun i => Sym.reinstate l (0x14200 + 8 * i), retime := wordAt l 0x142A0, freeze := wordAt l 0x142A8 },
    rng := { c.rng with seed := wordAt l 0x14500, vg := gensAt l (0x14600 + 1232), mg := gensAt l (0x27500 + 768) },
    monfull := (wordAt l 0x14510).getLsbD 8,
    engflt := wordAt l 0x14518,
    ve := c.ve.reinstate l,
    me := c.me.reinstate l,
    pods := vgen 16 fun i => (vget c.pods i).reinstate (wordAt l (0x27500 + 1568 + 8 * i)),
    scratch := spadOf (l.drop snapSize) }

end Sys2Proof.Machine
end

