-- ==== Sys2Proof/Machine/Preempt.lean ====
section
/-! DEFINITION. Pre-emption, restore and kill (R320–R323, R391). -/

namespace Sys2Proof.Machine

def pageOf (a : Word) : Word := a &&& ~~~4095#64

/-- An operation that fails with a cause. -/
def Pm.fail (x : Pm) (cause : Byte) : Pm := { x with op := none, err := true, ecode := cause }
def Pm.finish (x : Pm) : Pm := { x with op := none, done := true }

/-- The gang PMREC names: of those that share the record, the one placed first. -/
def State.namedGang (s : State) : Option Gang := s.launch.gangs.find? fun g => g.reca == s.pm.pmrec

/-! ### Pre-emption (R320, R321) -/

/-- SAVEA of its record, or PMSAVE. -/
def State.areaOf (s : State) (g : Gang) : Word := if g.savea = 0 then pageOf s.pm.save else g.savea

/-- The save area is 0, is in the table, or the table is full. -/
def State.areaBad (s : State) (g : Gang) : Bool :=
  let b := s.areaOf g
  b == 0 || s.launch.pre.any (fun e => e.base == b) || decide (64 ≤ s.launch.pre.length)

/-- Steps 1 to 5 of R321 for one core; what it has requested lands before SAVE_COMPLETE. -/
def State.stopCore (s : State) (p : CoreId) : State :=
  (((s.drain p).closeStamp p true).unfuse (bayOf p)).modCore p fun c =>
    { c with saving := true, mon := [], move := none, gate := { c.gate with switching := false },
             ctx := vmap (fun x => { x with wait := none }) c.ctx }

def State.beginSave (s : State) (g : Gang) : State :=
  (((s.holders g).foldl State.stopCore s).modGang g.id fun x => { x with saving := some (s.areaOf g) }).modPm fun x =>
    { x with op := some (.preempt g.id) }

/-- PRE_EMPT: the pre-emption last written begins, or the next one the watchdog asked for. -/
def execPreEmpt (s : State) : Out :=
  .next (
    if s.pm.op.isSome then s
    else if s.pm.req = 1 then
      let s0 := s.modPm fun x => { x with req := 0 }
      match s.namedGang with
      | none => s0.modPm fun x => x.fail 1
      | some g => if s.areaBad g then s0.modPm fun x => x.fail 2 else s0.beginSave g
    else if s.pm.req = 0 then
      match s.pm.wd with
      | [] => s
      | gid :: rest =>
        let s0 := s.modPm fun x => { x with wd := rest }
        match s.gang? gid with
        | some g => if s.areaBad g then s0 else s0.beginSave g
        | none => s0
    else s)

/-- Nothing the core has under way is still to perform before its snapshot is taken. -/
def Core.settled (c : Core) : Bool :=
  (vlist c.ctx).all (fun x => !x.busy) && c.comb.isEmpty && c.chunks.all (·.acked) && (vlist c.ve.oq).all landed &&
    c.flights.all fun f => !(f.finished && f.ctr.isSome) && (f.finished || !f.atController)

/-- The save may write: every core has settled and is not frozen, its bay is unfused, no region change holds the
sequencer's accesses (R321, R297). -/
def State.saveMay (s : State) (cores : List CoreId) : Bool :=
  !s.changing && s.faultRoom saveBent &&
    cores.all fun p => (s.core p).settled && !s.stalled p && !(s.bay (bayOf p)).fused

/-- The physical pages of a stretch of a save area; where one fails, its address and how. -/
def State.areaPages (s : State) (acc : Acc) (va : Word) : Nat → Except (Word × XErr) (List Nat)
  | 0 => .ok []
  | n + 1 =>
    match s.translateSup va acc with
    | .error e => .error (va, e)
    | .ok a =>
      let bad := (acc == .write && s.inView (.phys a)) || match s.space a with
        | .ctl _ => true
        | _ => false
      if bad then .error (va, .access)
      else match State.areaPages s acc (va + 4096) n with
        | .ok l => .ok (a :: l)
        | x => x

def State.writePages (s : State) : List Nat → List Byte → State
  | [], _ => s
  | a :: t, bs => State.writePages (s.writeSup a (bs.take 4096)) t (bs.drop 4096)

def State.readPages (s : State) (l : List Nat) : List Byte :=
  l.flatMap fun a => (List.range 4096).map fun i => BitVec.ofNat 8 (s.readAny (a + i) 1)

/-- The area of logical index `i`. -/
def areaVa (base : Word) (i : Nat) : Word := base + BitVec.ofNat 64 (i * areaSize)

/-- The pages of every core of a list; where one fails, the core, the address and how. -/
def State.allPages (s : State) (acc : Acc) (base : Word) : List (CoreId × Core) → Except (CoreId × Word × XErr) (List (CoreId × List Nat))
  | [] => .ok []
  | (p, c) :: t =>
    match s.areaPages acc (areaVa base (placeLidx c.place)) (areaSize / 4096) with
    | .error (va, e) => .error (p, va, e)
    | .ok l =>
      match State.allPages s acc base t with
      | .ok ls => .ok ((p, l) :: ls)
      | x => x

/-- A saved core leaves its gang; its tickets, its Pod rows and its rings stay with the gang. -/
def Core.vacate (c : Core) : Core := { c.left with pods := Vector.replicate 16 {} }

/-- The gang enters the table, and its cores are free. -/
def State.shelve (s : State) (g : Gang) (base : Word) (cores : List CoreId) : State :=
  let e : PreGang :=
    { base := base, gang := { g with saving := none, saveTicket := none },
      saved := cores.map fun p => (p, (s.core p).settleFreeze s.cycle s.clock.busy.isSome), replies := [] }
  let s1 := cores.foldl (fun t p => t.modCore p Core.vacate) s
  (s1.modLaunch fun l => { l with gangs := l.gangs.filter (fun x => x.id != g.id), pre := l.pre ++ [e] }).modPm Pm.finish

/-- SAVE_COMPLETE: once every core of the gang has settled, the sequencer writes the snapshots and the scratchpads. A
page fault parks it; another failure ends the gang. -/
def execSaveComplete (s : State) : Out :=
  .next (match s.pm.op with
    | some (.preempt gid) =>
      match s.gang? gid with
      | none => s.modPm fun x => x.fail 3
      | some g =>
        let cores := s.holders g
        let base := g.saving.getD 0
        if g.saveTicket.isSome || !s.saveMay cores then s
        else match s.allPages .write base (cores.map fun p => (p, s.core p)) with
          | .error (p, va, .page cause) =>
            let t := s.freshTicket
            (s.reportPage saveBent { core := some p, src := 10, addr := va } cPageStore cause t).modGang gid fun x =>
              { x with saveTicket := some t }
          | .error _ => s.killGang gid cKilled
          | .ok l =>
            (l.foldl (fun t x => t.writePages x.2 (snapshot s g x.1 ++ spadBytes (s.core x.1))) s).shelve g base cores
    | _ => s)

/-! ### Restore (R322) -/

def State.preAt (s : State) (base : Word) : Option PreGang := s.launch.pre.find? fun e => e.base == base

/-- The logical index from whose header NCORES comes: the lowest one saved (log 20). -/
def PreGang.low (e : PreGang) : Nat :=
  ((argMin (fun x : CoreId × Core => [(placeLidx x.2.place : Int)]) e.saved).map fun x => placeLidx x.2.place).getD 0

/-- Bytes as the save sequencer reads them; where that fails, the address and how. -/
def State.sequencerBytes (s : State) (va : Word) : Nat → Except (Word × XErr) (List Byte)
  | 0 => .ok []
  | n + 1 =>
    match s.translateSup va .read with
    | .error e => .error (va, e)
    | .ok a =>
      match State.sequencerBytes s (va + 1) n with
      | .ok l => .ok (BitVec.ofNat 8 (s.readAny a 1) :: l)
      | x => x

/-- The header of each saved core, with its logical index; where one fails, the core, the address and how. -/
def State.headers (s : State) (base : Word) : List (CoreId × Core) → Except (CoreId × Word × XErr) (List (Nat × List Byte))
  | [] => .ok []
  | (p, c) :: t =>
    match s.sequencerBytes (areaVa base (placeLidx c.place)) 64 with
    | .error (va, e) => .error (p, va, e)
    | .ok h =>
      match State.headers s base t with
      | .ok l => .ok ((placeLidx c.place, h) :: l)
      | x => x

/-- RESTORE: PMSAVE names an entry of the table. -/
def execRestore (s : State) : Out :=
  .next (
    if s.pm.op.isSome ∨ s.pm.req ≠ 2 then s
    else
      let s0 := s.modPm fun x => { x with req := 0 }
      match s.preAt (pageOf s.pm.save) with
      | none => s0.modPm fun x => x.fail 1
      | some e => s0.modPm fun x => { x with op := some (.restore e.base) })

/-- A core that takes up a saved one at cycle `now`: what belongs to the physical core stays, the saved one's time without
freezes goes on, and so does a freeze of its timetable (R62, R66). -/
def Core.takeUp (phys c : Core) (now : Nat) : Core :=
  { c with frzAt := phys.frzAt.map fun _ => now, ve := { c.ve with frzAt := now - c.frzPast }, nestsOut := c.nestsOut,
           icache := phys.icache, dbg := phys.dbg, fenced := phys.fenced, seq := phys.seq, chunks := phys.chunks,
           eccUntil := phys.eccUntil, testing := phys.testing, l1 := [], tlb := [], comb := [], combNext := 0, mon := [],
           fuse := false, saving := false, move := none }

/-- Every stream of a gang with its bay, and the bays without them. -/
def State.gangStreams (s : State) (gid : Nat) : List (Fin 64 × BitVec 4 × PodStream) :=
  allBays.flatMap fun y => ((List.range 16).map (BitVec.ofNat 4)).filterMap fun n =>
    if (s.stream y n).gang = some gid then some (y, n, s.stream y n) else none

/-- Whether the Pod of a bay takes a stream's rows: no other gang holds the stream there, and its 256 rows suffice (R278). -/
def State.seats (s : State) (gid : Nat) (n : BitVec 4) (z : PodStream) (y : Fin 64) : Bool :=
  let x := s.stream y n
  (x.gang.isNone || x.gang == some gid) && decide (x.rows.length + z.rows.length ≤ 256)

/-- A stream's rows and reads go to the Pod of its cores' bay; where that does not take them they stay in their own, or go to
the first that does. -/
def State.seatStream (gid : Nat) (s : State) (x : Fin 64 × Fin 64 × BitVec 4 × PodStream) : State :=
  let (new, old, n, z) := x
  let y := ((new :: old :: allBays).find? (s.seats gid n z)).getD old
  s.modStream y n fun w => { gang := some gid, feed := w.feed ++ z.feed, rows := w.rows ++ z.rows }

/-- The rows the Pods hold for the gang follow its cores, and its subscriptions bind their streams (R220, R278). -/
def State.moveStreams (s : State) (gid : Nat) (e : PreGang) (newOf : CoreId → CoreId) : State :=
  let bayNew := fun y : Fin 64 => ((e.saved.find? fun x => bayOf x.1 == y).map fun x => bayOf (newOf x.1)).getD y
  let l := (s.gangStreams gid).map fun x =>
    let z := x.2.2
    (bayNew x.1, x.1, x.2.1, { z with feed := z.feed.map fun f => (newOf f.1, f.2),
                                      rows := z.rows.map fun r => { r with pcore := newOf r.pcore } })
  let s1 := l.foldl (State.seatStream gid) (s.dropStreams gid)
  e.saved.foldl (fun t x => (List.range 16).foldl (fun u k =>
    let q := newOf x.1
    let n := BitVec.ofNat 4 k
    if (u.sub q n).valid ∧ (u.stream (bayOf q) n).gang.isNone then
      u.modStream (bayOf q) n fun w => { w with gang := some gid }
    else u) t) s1

/-- The packets held for the gang are delivered under R52. -/
def State.deliverHeld (s : State) (g : Gang) : State :=
  let mine := fun h : Held => h.pkt.gang == g.id
  let hs := (vlist s.bents).flatMap fun b => b.held.filter mine
  let s1 := s.mapBents fun b => { b with held := b.held.filter fun h => !mine h }
  hs.foldl (fun t h =>
    match t.spawnTarget (g.cores.getD h.pkt.sender.toNat h.core) g h.pkt.loc with
    | some (some q, _) => t.sendPacket q h.pkt
    | _ => t.modBent (bentOf h.core) fun b => { b with held := b.held ++ [h] }) s1

/-- The engine agents of a core that are parked: they retry translation at a restore. -/
def State.retryAll (s : State) (p : CoreId) : State :=
  let c := s.core p
  let stays := (vlist c.ctx).filterMap (·.ticket)
  (c.tickets.filter fun t => !stays.contains t).foldl (fun t k => t.reply k false) s

/-- The entry's gang placed afresh on `cores`. -/
def State.reinstate (s : State) (e : PreGang) (pages : List (CoreId × List Nat)) (cores : List CoreId) : State :=
  let newOf := fun p : CoreId => ((e.saved.find? fun x => x.1 == p).map fun x => cores.getD (placeLidx x.2.place) p).getD p
  let live := e.saved.map fun x => newOf x.1
  let g0 : Gang := { e.gang with cores := cores, retired := cores.filter fun p => !live.contains p }
  let g : Gang := { g0 with balNext := s.nanos + s.balPeriod g0.home }
  let s1 := (s.modLaunch fun l => { l with gangs := l.gangs ++ [g], pre := l.pre.filter fun x => x.base != e.base }).mapBents
    fun b => { b with sqt := b.sqt.map fun q => if q.owner == some g.id then { q with core := newOf q.core } else q }
  let s2 := e.saved.foldl (fun t x =>
    let q := newOf x.1
    let bs := s.readPages (((pages.find? fun z => z.1 == x.1).map (·.2)).getD [])
    (t.unfuse (bayOf q)).modCore q fun phys =>
      (phys.settleFreeze s.cycle s.clock.busy.isSome).takeUp (x.2.reinstate q bs) s.cycle) s1
  let s3 := (s2.moveStreams g.id e newOf).modLq g.lq fun x => { x with wdStart := s.nanos, wdDone := 0 }
  let s4 := live.foldl (fun t p => match (t.core p).gate.cur with
    | some k => t.openStamp p k true
    | none => t) s3
  let s5 := e.replies.foldl (fun t x => t.reply x.1 x.2) s4
  ((live.foldl State.retryAll s5).deliverHeld g).modPm Pm.finish

/-- The sequencer's restore meets a failing translation: a page fault parks it, another failure ends the operation
(R315, R320). -/
def State.restoreFault (s : State) (e : PreGang) (p : CoreId) (va : Word) (x : XErr) : State :=
  match x with
  | .page cause =>
    let t := s.freshTicket
    let place := (e.saved.find? fun z => z.1 == p).bind fun z => z.2.place
    (s.reportPage saveBent { core := some p, src := 10, addr := va, place := place, reca := some e.gang.reca } cPageLoad cause
      t).modLaunch fun l =>
      { l with pre := modFirst (fun y => y.base == e.base) (fun y => { y with ticket := some t }) l.pre }
  | _ => s.modPm fun y => y.fail 3

/-- RESTORE_PLACEMENT: the gang is placed on NCORES eligible cores once there are so many, each snapshot being of version
1.0 (R322, R325). -/
def execRestorePlacement (s : State) : Out :=
  .next (match s.pm.op with
    | some (.restore base) =>
      match s.preAt base with
      | none => s.modPm fun x => x.fail 3
      | some e =>
        if e.ticket.isSome || s.changing || !s.faultRoom saveBent then s
        else match s.headers base e.saved with
        | .error (p, va, x) => s.restoreFault e p va x
        | .ok hs =>
          let n := ((hs.find? fun h => h.1 == e.low).map fun h => fieldAt h.2 0x14 2).getD 0
          if hs.any (fun h => fieldAt h.2 0 2 != 0x0100 || decide (n ≤ h.1)) then s.modPm fun x => x.fail 3
          else match search s.eligible n with
          | none => s
          | some cores =>
            match s.allPages .read base e.saved with
            | .error (p, va, x) => s.restoreFault e p va x
            | .ok pages => s.reinstate e pages cores
    | _ => s)

/-- KILL: the gang PMREC names ends with KILLED. -/
def execKill (s : State) : Out :=
  .next (
    if s.pm.op.isSome ∨ s.pm.req ≠ 3 then s
    else
      let s0 := s.modPm fun x => { x with req := 0 }
      match s.namedGang with
      | none => s0.modPm fun x => x.fail 1
      | some g => (s0.killGang g.id cKilled).modPm Pm.finish)

end Sys2Proof.Machine
end

