-- ==== Sys2Proof/Machine/Translate.lean ====
section
/-! DEFINITION. Translation registers, L1 fusion, format regions, table-store tags and compute regions
(R106, R107, R109, R110, R112, R114, R241, R294, R297). -/

namespace Sys2Proof.Machine

/-- The bits `bits` of a register replaced by those of `v` where the write covers them. -/
def put (old v mask bits : Word) : Word := (old &&& ~~~(mask &&& bits)) ||| (v &&& mask &&& bits)

/-! ### TRROOT, TRINV, TLBSTAT (R106, R107) -/

def trAll (v : Word) : Bool := v.getLsbD 4

/-- The first byte and the length of the page a TRINV value names; SIZE 10–15 names no page of R102, and is taken as 9
(DESIGN CHOICE, log 52). -/
def trPage (v : Word) : Nat × Nat :=
  let k := pageLog (v.extractLsb' 0 4).toNat
  let va := v.toNat % 2 ^ 52 / 4096 * 4096
  (va / 2 ^ k * 2 ^ k, 2 ^ k)

/-- Whether bytes at a virtual address lie in the page, or an entry overlaps it. -/
def trHits (v : Word) (va n : Nat) : Bool :=
  trAll v || decide (va < (trPage v).1 + (trPage v).2 ∧ (trPage v).1 < va + n)

def trCut (v : Word) (l : List TlbEntry) : List TlbEntry :=
  l.filter fun t =>
    let k := pageLog t.size
    !trHits v (t.va.toNat / 2 ^ k * 2 ^ k) (2 ^ k)

/-- Every TLB entry of the module that overlaps the page goes. -/
def State.trCut (s : State) (v : Word) : State :=
  (s.mapCores fun c => { c with tlb := Sys2Proof.Machine.trCut v c.tlb }).mapBents fun b =>
    { b with tlb := Sys2Proof.Machine.trCut v b.tlb }

def State.trinvWrite (s : State) (v : Word) : State :=
  let s1 := if s.trans.inv.isEmpty then s.trCut v else s
  { s1 with trans := { s1.trans with inv := s1.trans.inv ++ [v] } }

def execTrinv (v : Word) (s : State) : Out := .next (s.trinvWrite v)

/-- The virtual address of an access, where it has one of its own. -/
def Pend.uses (v : Word) (i : Pend) : Bool :=
  match i.kind with
  | .load va _ n _ | .store va _ n _ => trHits v va.toNat n
  | .atomic .. => true
  | _ => false

/-- The addresses a command keeps translated until it finishes, as its words give them (R391). -/
def heldVas (f : Flight) : List Word :=
  let pair := fun i => (f.words.getD (i + 1) 0) ++ (f.words.getD i 0)
  match decodeCmd f.words with
  | some (.cpyn _ c) => [c.ctr, c.desc]
  | some (.cpy _ _) | some (.gath _ _) | some (.scat _ _) | some (.rcpy _ _) | some (.fill _ _) | some (.prefCmd _ _)
  | some (.cpyp _ _) => [pair 5]
  | some (.qacq _ d r) | some (.qres _ d r _) | some (.qstat _ d r) => [d, r]
  | some (.qinit _ d) | some (.qrel _ d _) | some (.qcom _ d _) => [d]
  | some (.csig _ a _) | some (.cwait _ a _) | some (.cseq _ a _) => [a]
  | some (.fcopy _ c _) | some (.ffill _ c _) | some (.fand _ c _ _) | some (.forRow _ c _ _) | some (.fxor _ c _ _)
  | some (.fnot _ c _) | some (.fmaj _ c _ _ _) => [c.ctr]
  | some (.fqry _ c) => [c.ctr]
  | _ => []

/-- The byte ranges a Furrow command reads and writes. -/
def furSpans (f : Flight) : List (Word × Nat) :=
  let span := fun (c : Fur) (srcs : List Word) =>
    (c.dst :: srcs).map (fun a => (a, 1024 * (c.n1.toNat + 1))) ++ (record? c).toList.map fun a => (a, 16)
  match decodeCmd f.words with
  | some (.fcopy _ c a) | some (.fnot _ c a) => span c [a]
  | some (.ffill _ c _) => span c []
  | some (.fand _ c a b) | some (.forRow _ c a b) | some (.fxor _ c a b) => span c [a, b]
  | some (.fmaj _ c a b d) => span c [a, b, d]
  | _ => []

/-- Whether an access of the core that may have used a removed entry is still to perform: of a context, of the combining
buffer, of a command's held addresses, of an operand queue, of a reducing chunk, of a Furrow command whose path is
decided. -/
def Core.usesPage (c : Core) (v : Word) : Bool :=
  (vlist c.ctx).any (fun x => x.pend.any (Pend.uses v)) || !c.comb.isEmpty || c.chunks.any (fun x => !x.acked) ||
    (vlist c.ve.oq).any (fun q => q.any fun e => e.val.isNone && trHits v e.va.toNat 128) ||
    c.flights.any fun f =>
      ((f.ctr.isSome || !f.finished) && (heldVas f).any fun a => a != 0 && trHits v a.toNat 8) ||
      (!f.finished && (f.atController || f.fwd.isSome) && (furSpans f).any fun x => trHits v x.1.toNat x.2)

/-- A controller runs a command whose core has left it (R308). -/
def State.anyOrphan (s : State) : Bool :=
  (vlist s.bents).any fun b => (vlist b.ctl).any fun c => c.cmds.any (·.orphan)

/-- A core that a pre-empted gang has left holds translations in its saved commands, which act at its restore (R391). -/
def State.savedUses (s : State) (v : Word) : Bool := s.launch.pre.any fun e => e.saved.any fun x => x.2.usesPage v

/-- TRINV_COMPLETE: the invalidation in progress ends, and the next one queued begins. -/
def execTrinvComplete (s : State) : Out :=
  .next (match s.trans.inv with
    | [] => s
    | v :: rest =>
      if s.anyOrphan || s.savedUses v || (vlist s.cores).any fun c => c.usesPage v then s
      else
        let s1 := { s with trans := { s.trans with inv := rest } }
        match rest with
        | w :: _ => s1.trCut w
        | [] => s1)

/-- TRROOT written: it acts as a TRINV with ALL = 1. -/
def State.trrootWrite (s : State) (v mask : Word) : State :=
  ({ s with trans := { s.trans with root := put s.trans.root v mask 0x00FFFFFFFFFF0001#64 } }).trinvWrite 0x10

def execTrroot (v : Word) (s : State) : Out := .next (s.trrootWrite v (BitVec.allOnes 64))

/-! ### L1 fusion (R109, R110) -/

/-- L1_FUSION: the bay fuses, or ends its unfusing, once no L1 access is outstanding, with all four L1s emptied. -/
def execL1Fusion (bay : Fin 64) (s : State) : Out :=
  .next (
    if (s.bay bay).unfusing then (if s.l1Busy bay then s else s.separate bay)
    else if !(s.bay bay).fused && s.mayFuse bay && !s.l1Busy bay then
      ((bayCores bay).foldl (fun t q => t.modCore q fun c => { c with l1 := [] }) s).modBay bay fun b => { b with fused := true }
    else s)

/-- FUSE written; writing 0 separates the bay's L1s. -/
def State.fuseWrite (s : State) (p : CoreId) (v : Bool) : State :=
  let s1 := s.modCore p fun c => { c with fuse := v }
  if v then s1 else s1.unfuse (bayOf p)

/-! ### Format regions (R112, R114) -/

def frMask (reg : Nat) : Word :=
  match reg with
  | 0 => 0x00FFFFFFFFFFFF80
  | 1 => 0x00FFFFFFFFFFFFE0
  | 2 => 0xFFFFFFFFFFFFFFFF
  | _ => 0xFFFC03F9

def FmtReg.set (r : FmtReg) (reg : Nat) (v : Word) : FmtReg :=
  match reg with
  | 0 => { r with view := v }
  | 1 => { r with src := v }
  | 2 => { r with scl := v }
  | _ => { r with ctl := v }

/-- The source formats a region accepts. -/
def frFmtOk (f : BitVec 4) : Bool :=
  let n := f.toNat
  n == 0 || n == 1 || n == 5 || n == 6 || n == 7 || n == 8 || n == 10 || n == 11 || n == 12 || n == 13

def FmtReg.meets (a b : FmtReg) : Bool :=
  decide (a.vbase < b.vbase + 128 * b.allRows ∧ b.vbase < a.vbase + 128 * a.allRows)

/-- The check FRCTL's write makes of region `n` of the controller of stack `k`. -/
def frBad (c : Ctl) (k n : Nat) (r : FmtReg) : Bool :=
  let last := r.vbase + 128 * r.allRows - 1
  !frFmtOk r.fmt || r.ctl.extractLsb' 8 2 != 0 || (!r.plane && (r.fmt == 5 || r.fmt == 8)) ||
    decide (r.vbase / 2 ^ 21 ≠ last / 2 ^ 21) || decide (stackOf r.vbase ≠ k) || decide (devSize ≤ last) ||
    (List.range 16).any fun j => j != n && (vget c.fr j).en && r.meets (vget c.fr j)

/-- LLC lines of a region's view dropped. -/
def State.dropView (s : State) (r : FmtReg) : State := s.dropLlc r.vbase (128 * r.allRows)

def State.frWrite (s : State) (b : BentId) (k n reg : Nat) (v mask : Word) : State :=
  let c := s.ctlUnit b k
  let old := vget c.fr n
  let r1 := old.set reg (put (old.get reg) v mask (frMask reg))
  let r := if reg = 3 then
      (if frBad c (2 * b.val + k) n { r1 with ctl := r1.ctl &&& ~~~2#64 } then { r1 with ctl := (r1.ctl &&& ~~~1#64) ||| 2#64 }
       else { r1 with ctl := r1.ctl &&& ~~~2#64 })
    else r1
  ((s.dropView old).dropView r).modBent b fun x => { x with ctl := vmod x.ctl k fun z => { z with fr := vset z.fr n r } }

/-- FORMAT_REGION_WRITE: a register of region `r` of controller `k` of a bent. -/
def execFormatRegionWrite (b : BentId) (k : Fin 2) (r : Fin 16) (reg : Fin 4) (v : Word) (s : State) : Out :=
  .next (s.frWrite b k.val r.val reg.val v (BitVec.allOnes 64))

/-! ### VTCTL (R241) -/

/-- The table-store tag cleared, at once or when the running VRUN finishes. -/
def Ve.clearTag (v : Ve) : Ve := if v.run.isSome then { v with invPend := true } else { v with tag := none }

def State.vtctlWrite (s : State) (p : CoreId) (v : Word) : State := if v.getLsbD 0 then s.modVe p Ve.clearTag else s

def execVtctlInv (p : CoreId) (v : Word) (s : State) : Out := .next (s.vtctlWrite p v)

/-! ### Compute regions (R294, R297) -/

/-- FWCC as written, with ERR. -/
def fwccValue (v : Word) : Word :=
  let w := v &&& 0xFFFF
  if 192 < w.toNat % 256 + w.toNat / 256 then w ||| 0x10000 else w

/-- The value FWCC reads: the one last written, whether or not its region applies yet. -/
def Ctl.fwccNow (c : Ctl) : Word := c.chg.getD c.fwcc

/-- FWCC written: CHG sets, and the region of the value written waits to apply (R297). -/
def State.fwccWrite (s : State) (b : BentId) (k : Nat) (v mask : Word) : State :=
  let new := fwccValue (put (s.ctlUnit b k).fwccNow v mask 0xFFFF)
  s.modBent b fun x => { x with ctl := vmod x.ctl k fun z => { z with chg := some new } }

def execFwcc (b : BentId) (k : Fin 2) (v : Word) (s : State) : Out := .next (s.fwccWrite b k.val v (BitVec.allOnes 64))

/-- The LLC without the lines of a stack's frames whose form two values of FWCC give differently. -/
def dropForms (stack : Nat) (old new : Word) (l : List LlcLine) : List LlcLine :=
  l.filter fun x => !(stackOf x.line == stack && formChanges old new (framePos x.line))

/-- REGION_CHANGE: once the controller holds no Furrow command, the LLC lines of the frames whose form changes are
written back and dropped, the new region applies, and CHG clears (R297). -/
def execRegionChange (b : BentId) (k : Fin 2) (s : State) : Out :=
  .next (
    let c := s.ctlUnit b k.val
    match c.chg with
    | none => s
    | some new =>
      if c.cmds.isEmpty then
        ({ s with llc := dropForms (2 * b.val + k.val) c.fwcc new s.llc }.modBent b fun x =>
          { x with ctl := vmod x.ctl k.val fun z => { z with fwcc := new, chg := none } }).payOwed
      else s)

end Sys2Proof.Machine
end

