-- ==== Sys2Proof/Machine/Debug.lean ====
section
/-! DEFINITION. Instruction invalidation, trace sessions, launch-queue reset, counter wraps, release of a held VE
(R350, R352, R354, R357–R359, R361, R364). -/

namespace Sys2Proof.Machine

/-! ### ICINV (R354) -/

def State.icinvWrite (s : State) (v : Word) : State := s.modTrace fun t => { t with icinv := t.icinv ++ [v] }

def execIcinv (v : Word) (s : State) : Out := .next (s.icinvWrite v)

/-- Whether a loaded table's image lies on the named line. -/
def State.tagHits (s : State) (p : CoreId) (v : Word) : Bool :=
  match (s.ve p).tag with
  | none => false
  | some (img, len) =>
    v.getLsbD 0 || (List.range len).any fun i =>
      match s.engAt p (img + BitVec.ofNat 64 (128 * i)) 128 .read with
      | .ok (.phys a) => a / 128 == v.toNat % 2 ^ 56 / 128
      | _ => false

/-- Steps 1 to 3 of an invalidation. -/
def State.icCut (s : State) (v : Word) : State :=
  let f := fun l : List L1Line => if v.getLsbD 0 then [] else dropLine (v.toNat % 2 ^ 56 / 128 * 128) l
  let s1 := (s.mapBents fun b => { b with icache := f b.icache }).mapCores fun c => { c with icache := f c.icache }
  if v.getLsbD 1 then
    (allCores.filter fun p => s.tagHits p v).foldl (fun t p => t.modVe p Ve.clearTag) s1
  else s1

/-- ICBUSY_CLEAR: the invalidation in progress takes effect and ends. -/
def execIcbusyClear (s : State) : Out :=
  .next (match s.trace.icinv with
    | [] => s
    | v :: rest => (s.icCut v).modTrace fun t => { t with icinv := rest })

/-! ### Sessions (R358, R359, R361) -/

def State.flushAllTrace (s : State) : State := allBents.foldl State.flushTrace s

/-- A record produced in a cycle and written to the ring now, device-wide; `lq` is the launch queue it names (R360). -/
def State.recordOf (s : State) (cycle type sub lq : Nat) (body : List Word) : State :=
  if s.trace.on then
    s.writeTrace
      { words := ([s.traceHead type sub none lq, BitVec.ofNat 64 cycle] ++ body ++ List.replicate 6 0).take 8, born := s.nanos }
  else s

/-- One produced now. -/
def State.deviceRecord (s : State) (type sub lq : Nat) (body : List Word) : State := s.recordOf s.cycle type sub lq body

/-- TRCTL written: EN from 0 to 1 opens a session, from 1 to 0 closes it. -/
def State.trctlWrite (s : State) (v : W32) : State :=
  let was := s.trace.ctl.getLsbD 0
  let bits := v &&& 0xF
  if v.getLsbD 0 && !was then
    (s.modTrace fun t => { t with ctl := (((t.ctl >>> 16) + 1) <<< 16) ||| bits, lost := 0 }).deviceRecord 5 0 0 [0]
  else
    let set := fun (t : State) => t.modTrace fun x => { x with ctl := (x.ctl &&& 0xFFFF0000) ||| bits }
    if was && !v.getLsbD 0 then
      let s1 := s.flushAllTrace
      set (s1.deviceRecord 5 1 0 [s1.trace.lost])
    else set s

/-- TRACE_SESSION_OPEN: TRCTL written with EN = 1, once no region change holds the ring (R297). -/
def execTraceSessionOpen (v : W32) (s : State) : Out := .next (if s.changing then s else s.trctlWrite (v ||| 1))

/-- TRACE_SESSION_CLOSE: TRCTL written with EN = 0. -/
def execTraceSessionClose (v : W32) (s : State) : Out := .next (if s.changing then s else s.trctlWrite (v &&& ~~~1#32))

/-- Ten microseconds since the oldest buffered record of a bent. -/
def State.flushDue (s : State) (b : BentId) : Bool :=
  match (s.bent b).trace with
  | r :: _ => decide (r.born + 10000 ≤ s.nanos)
  | [] => false

/-! ### Launch-queue reset (R364) -/

/-- The records between head and tail refused with KILLED. -/
def State.refuseRecords (s : State) (q : BitVec 6) : Nat → State
  | 0 => s
  | n + 1 =>
    if (s.lq q).head = (s.lq q).tail then s
    else
      let s1 := match (s.headEntry q).bind s.readRecord with
        | some r => s.outcome r.statusa r.donectr cKilled
        | none => s
      State.refuseRecords (s1.popHead q) q n

/-- Open stamps of the tiles of a queue's gangs. -/
def State.openStamps (s : State) (q : BitVec 6) : Nat :=
  ((s.gangsOf q).flatMap fun g => (s.holders g).filter fun p => (s.core p).gate.stamp.isSome).length

/-- Step 5, and step 4 before it where a session is to be closed: its TRUNC is of the reset point's cycle. Of the queue's
registers R364 names LQHEAD and LQSTAT alone, and the others keep their values (DEDUCED, log 58). -/
def State.endReset (s : State) (q : BitVec 6) (stamps : Option (Nat × Nat)) : State :=
  let s1 := match stamps with
    | none => s
    | some (n, cycle) =>
      (s.recordOf cycle 4 1 q.toNat [at_ q.toNat 0, s.trace.lost + BitVec.ofNat 64 n]).modTrace fun t => { t with ctl := t.ctl &&& ~~~1#32 }
  (s1.modLq q fun x => { x with stat := x.stat &&& ~~~0x3C#32 }).modTrace fun t => { t with rst := none }

/-- The ring takes no TRUNC now: it is full, or a region change holds it (R297). -/
def State.truncWaits (s : State) : Bool := s.changing || (s.trace.on && s.trace.full)

/-- A TRUNC that waited is written once the ring takes it, behind what is still buffered. -/
def State.finishReset (s : State) : State :=
  match s.trace.rst with
  | some (q, x) =>
    let s1 := s.flushAllTrace
    if s1.truncWaits then s1 else s1.endReset q (some x)
  | none => s

/-- LQRST written with GO = 1. -/
def State.lqReset (s : State) (q : BitVec 6) : State :=
  let s1 := (s.refuseRecords q (s.lq q).size.toNat).modLq q fun x => { x with head := x.tail, headwait := false, ready := none }
  let n := s1.openStamps q
  let s2 := (s1.gangsOf q).foldl (fun t g => t.killGang g.id cKilled) s1
  let s3 := (s2.launch.pre.filter fun e => e.gang.lq == q).foldl (fun t e => t.killPre e cKilled) s2
  if s3.trace.ctl.getLsbD 0 && s3.trace.qmask.getLsbD q.toNat then
    let s4 := s3.flushAllTrace
    if s4.truncWaits then s4.modTrace fun t => { t with rst := some (q, n, s.cycle) } else s4.endReset q (some (n, s.cycle))
  else s3.endReset q none

/-- A write to LQRST while a reset is in progress is ignored. -/
def State.lqrstWrite (s : State) (v : W32) : State :=
  if s.trace.rst.isSome || !v.getLsbD 31 then s else s.lqReset (v.setWidth 6)

/-- LAUNCH_QUEUE_RESET: LQRST written; while a TRUNC waits for space, a step only sees whether there is some. -/
def execLaunchQueueReset (v : W32) (s : State) : Out :=
  .next (if s.trace.rst.isSome then s.finishReset else s.lqrstWrite v)

/-- TRACE_FLUSH: a bent's buffer is written out 10 µs after its oldest record was produced. -/
def execTraceFlush (b : BentId) (s : State) : Out :=
  .next (if s.flushDue b then (s.flushTrace b).finishReset else s.finishReset)

/-! ### Counters (R357) -/

/-- Event codes whose counts are cycles or bank grants, which this model leaves free (log 5). -/
def timedCode (c : Byte) : Bool := c == 0x01 || c == 0x05 || c == 0x07 || c == 0x0A || c == 0x0F

/-- PMCTR_WRAP: a counter of a timed event moves on by a free amount; where it wraps, OVF sets and an enabled sample
is requested. During an ECC or clock-change freeze only event 0x01 counts. -/
def execPmctrWrap (p : CoreId) (n : BitVec 4) (s : State) : Out :=
  .next (
    let c := (s.core p).dbg.code n.toNat
    if timedCode c && (c == 0x01 || !s.stalled p) then s.modDbg p fun d => d.bump n.toNat (Config.pmEvents c s.sched.tick) else s)

/-! ### The VE under the debugger (R352) -/

/-- DBGCTL written: the requests, then VEGO, which releases a held VE. -/
def State.dbgctlWrite (s : State) (p : CoreId) (v mask : Word) : State :=
  let s1 := s.modDbg p fun d => { d with dbgctl := put d.dbgctl v mask 0x107 }
  if (v &&& mask).getLsbD 10 && (s.ve p).held then
    (s1.modDbg p fun d => { d with dbgctl := d.dbgctl &&& ~~~0x100#64 }).modVe p fun u => { u with held := false, installed := true }
  else s1

/-- VE_RELEASE: DBGCTL written with VEGO = 1. -/
def execVeRelease (p : CoreId) (v : Word) (s : State) : Out := .next (s.dbgctlWrite p (v ||| 0x400) (BitVec.allOnes 64))

end Sys2Proof.Machine
end

