-- ==== Sys2Proof/Machine/Power.lean ====
section
/-! DEFINITION. Operating points, the clock lock, sensors, caps, emergencies and trips (R363, R384–R387). -/

namespace Sys2Proof.Machine

def ms : Nat := 1000000

/-! ### Operating points (R384, R385) -/

def slower (a b : BitVec 2) : BitVec 2 := if a.toNat < b.toNat then b else a
def oneSlower (a : BitVec 2) : BitVec 2 := if a = 3 then 3 else a + 1

def Clock.target (c : Clock) : BitVec 2 := if c.emergency then 3 else if c.lock then c.op else slower c.req c.cap

/-- A change may start: 1 ms since the last one ended, except in an emergency. -/
def Clock.mayChange (c : Clock) (now : Nat) : Bool :=
  c.busy.isNone && c.target != c.cur && (c.emergency || match c.lastEnd with
    | some t => decide (t + ms ≤ now)
    | none => true)

/-- OPERATING_POINT_CHANGE: a change begins; it freezes every core for 16 µs, and open windows are discarded. -/
def execOperatingPointChange (s : State) : Out :=
  .next (
    if s.clock.mayChange s.nanos then
      (s.modClock fun c => { c with busy := some (c.target, s.nanos + 16000) }).mapCores fun c =>
        { c.freezeAt s.cycle false with plumb := { c.plumb with syms := vmap Sym.discard c.plumb.syms } }
    else s)

/-- OPERATING_POINT_CHANGE_END: after exactly 16 µs the cores go on at the new point. -/
def execOperatingPointChangeEnd (s : State) : Out :=
  .next (match s.clock.busy with
    | some (t, e) =>
      if e ≤ s.nanos then
        (s.modClock fun c => { c with cur := t, busy := none, lastEnd := some s.nanos }).mapCores fun c => c.thawAt s.cycle
      else s
    | none => s)

def State.opptWrite (s : State) (v mask : Word) : State :=
  s.modClock fun c => { c with req := (put (at_ c.req.toNat 8) v mask 0x300).extractLsb' 8 2 }

/-- OPPT_REQUEST: OPPT written. -/
def execOpptRequest (v : W32) (s : State) : Out := .next (s.opptWrite (v.setWidth 64) (BitVec.allOnes 64))

/-! ### The clock lock (R363) -/

/-- CLOCK_LOCK and CLOCK_BREAK records. -/
def State.clockEvent (s : State) (code : Nat) (old new : BitVec 2) (why : Nat) : State :=
  s.event 0 code none [at_ old.toNat 0 ||| at_ new.toNat 8 ||| at_ why 16]

/-- An emergency breaks a lock: the record comes before the new point. -/
def State.breakLock (s : State) : State :=
  if s.clock.emergency && s.clock.lock then
    (s.modClock fun c => { c with lock := false, broken := true }).clockEvent 7 s.clock.cur 3 1
  else s

def State.clklockWrite (s : State) (v mask : Word) : State :=
  let c := s.clock
  let w := put (at_ c.lock.toNat 4 ||| at_ c.op.toNat 0) v mask 0x13
  let c1 : Clock :=
    { c with lock := w.getLsbD 4, op := w.extractLsb' 0 2, broken := c.broken && !(v &&& mask).getLsbD 5 }
  let s1 := s.modClock fun _ => c1
  let locked := c1.lock && (mask.getLsbD 4 && v.getLsbD 4 || c.op != c1.op)
  (if locked then s1.clockEvent 6 c.cur c1.op 0
   else if c.lock && !c1.lock then s1.clockEvent 6 c.cur c1.target 2 else s1).breakLock

/-- CLKLOCK_LOCK: CLKLOCK written with LOCK = 1. -/
def execClklockLock (v : W32) (s : State) : Out := .next (s.clklockWrite ((v ||| 0x10).setWidth 64) (BitVec.allOnes 64))

/-- CLKLOCK_UNLOCK: CLKLOCK written with LOCK = 0. -/
def execClklockUnlock (v : W32) (s : State) : Out := .next (s.clklockWrite ((v &&& ~~~0x10#32).setWidth 64) (BitVec.allOnes 64))

/-! ### Sensors (R386, R387) -/

/-- Every column reading, then every stack reading, against a threshold for each, in degrees. -/
def Clock.anyHot (c : Clock) (col stk : Int) : Bool :=
  ((vlist c.tscol).any fun w => decide (8 * col ≤ reading (w.setWidth 64) 0) || decide (8 * col ≤ reading (w.setWidth 64) 1)) ||
    (vlist c.tsstk).any fun w => [0, 1, 2, 3].any fun i => decide (8 * stk ≤ reading w i)

/-- Every sensor at or below a temperature. -/
def Clock.allCool (c : Clock) (col stk : Int) : Bool :=
  ((vlist c.tscol).all fun w => decide (reading (w.setWidth 64) 0 ≤ 8 * col) && decide (reading (w.setWidth 64) 1 ≤ 8 * col)) &&
    (vlist c.tsstk).all fun w => [0, 1, 2, 3].all fun i => decide (reading w i ≤ 8 * stk)

/-- A bent's rail current has exceeded 1,000 A for 100 µs. -/
def State.overCurrent (s : State) (b : BentId) : Bool :=
  match (s.bent b).overAmps with
  | some t => decide (t + 100000 ≤ s.nanos)
  | none => false

def State.inWarning (s : State) : Bool := s.clock.anyHot 100 95 || allBents.any s.overCurrent

/-- A warning begins: CAP is one step slower than CUR. -/
def State.warn (s : State) : State :=
  if s.clock.warn.isSome then s
  else s.modClock fun c => { c with cap := oneSlower c.cur, warn := some s.nanos }

/-- What the levels of R387 make of the readings just taken. -/
def State.levels (s : State) : State :=
  if s.clock.anyHot 120 105 then s.modClock fun c => { c with tripped := true }
  else
    let s1 := if s.clock.anyHot 110 100 then (s.modClock fun c => { c with emergency := true }).breakLock else s
    let s2 := if s1.inWarning then s1.warn else s1.modClock fun c => { c with warn := none }
    s2.modClock fun c =>
      { c with coolSince := if c.allCool 95 90 then some (c.coolSince.getD s.nanos) else none,
               coldSince := if c.allCool 100 90 then some (c.coldSince.getD s.nanos) else none }

/-- SENSOR_SAMPLE: every 20 µs. -/
def execSensorSample (r : Readings) (s : State) : Out :=
  .next (
    let due : Bool := match s.clock.lastSample with
      | some t => decide (t + 20000 ≤ s.nanos)
      | none => true
    if !due then s
    else
      let s1 := s.modClock fun c =>
        { c with tscol := vgen 272 fun i => r.cols.getD i 0, tsstk := vgen 32 fun i => r.stks.getD i 0, lastSample := some s.nanos }
      (allBents.foldl (fun t b => t.modBent b fun x =>
        { x with overAmps := if 1000 < r.amps.getD b.val 0 then some (x.overAmps.getD s.nanos) else none }) s1).levels)

/-- CAP_STEP: one step more after each further millisecond in warning. -/
def execCapStep (s : State) : Out :=
  .next (match s.clock.warn with
    | some t =>
      if s.inWarning && decide (t + ms ≤ s.nanos) then
        s.modClock fun c => { c with cap := oneSlower c.cap, warn := some s.nanos }
      else s
    | none => s)

/-- CAP_RELAX: one step back once every sensor has stayed 5 °C below its warning threshold for 10 ms. -/
def execCapRelax (s : State) : Out :=
  .next (match s.clock.coolSince with
    | some t =>
      if t + 10 * ms ≤ s.nanos then
        s.modClock fun c => { c with cap := if c.cap = 0 then 0 else c.cap - 1, coolSince := some s.nanos }
      else s
    | none => s)

/-- CURRENT_LIMIT: a bent above its current limit for 100 µs acts as a warning. -/
def execCurrentLimit (b : BentId) (s : State) : Out := .next (if s.overCurrent b then s.warn else s)

/-- EMERGENCY_END: every sensor has stayed 10 °C below its emergency threshold for 10 ms. -/
def execEmergencyEnd (s : State) : Out :=
  .next (match s.clock.coldSince with
    | some t => if s.clock.emergency && decide (t + 10 * ms ≤ s.nanos) then s.modClock fun c => { c with emergency := false } else s
    | none => s)

end Sys2Proof.Machine
end

