-- ==== Sys2Proof/Machine/Sha.lean ====
section
/-! DEFINITION. SHA-384, which the measurements and SPDM digests name (R382, R383). The spec names the function and does
not define it: PRESUMED from FIPS 180-4 (log 21). -/

namespace Sys2Proof.Machine

/-- The primes below `n`. -/
def primesBelow (n : Nat) : List Nat :=
  (List.range n).filter fun p => decide (2 ≤ p) && (List.range p).all fun d => decide (d < 2) || p % d != 0

/-- The integer root of degree `e` of a number, found bit by bit below bit `k` from a root `r` of its upper bits. -/
def rootBits (e n : Nat) : Nat → Nat → Nat
  | 0, r => r
  | k + 1, r => rootBits e n k (if (r + 2 ^ k) ^ e ≤ n then r + 2 ^ k else r)

/-- The first 64 bits of the fractional part of the root of degree `e` of a number below 512. -/
def rootWord (e p : Nat) : Word := BitVec.ofNat 64 (rootBits e (p * 2 ^ (64 * e)) 69 0)

/-- The round constants: from the cube roots of the 80 primes up to 409. -/
def shaK : List Word := (primesBelow 410).map (rootWord 3)

/-- The initial hash value of SHA-384: from the square roots of the ninth to the sixteenth prime. -/
def shaInit : List Word := ((primesBelow 54).drop 8).map (rootWord 2)

/-- Bytes of a word, most significant first. -/
def beBytes (w n : Nat) : List Byte := ((List.range n).map fun i => byteOf w i).reverse

def beWord (l : List Byte) : Word := BitVec.ofNat 64 (l.foldl (fun n b => 256 * n + b.toNat) 0)

/-- The message padded to whole blocks of 128 bytes. -/
def shaPad (m : List Byte) : List Byte :=
  m ++ [0x80] ++ List.replicate ((239 - m.length % 128) % 128) 0 ++ beBytes (8 * m.length) 16

/-- The words of a block, most significant byte first. -/
def shaWords (b : List Byte) : List Word := (List.range 16).map fun i => beWord ((b.drop (8 * i)).take 8)

def shaS0 (x : Word) : Word := x.rotateRight 1 ^^^ x.rotateRight 8 ^^^ x >>> 7
def shaS1 (x : Word) : Word := x.rotateRight 19 ^^^ x.rotateRight 61 ^^^ x >>> 6
def shaB0 (x : Word) : Word := x.rotateRight 28 ^^^ x.rotateRight 34 ^^^ x.rotateRight 39
def shaB1 (x : Word) : Word := x.rotateRight 14 ^^^ x.rotateRight 18 ^^^ x.rotateRight 41

/-- The message schedule: sixteen words, then `n` more, each from the sixteen before it, newest first. -/
def shaSchedule : Nat → List Word → List Word
  | 0, w => w.reverse
  | n + 1, w =>
    shaSchedule n ((shaS1 (w.getD 1 0) + w.getD 6 0 + shaS0 (w.getD 14 0) + w.getD 15 0) :: w)

/-- One round on the eight working words. -/
def shaRound (v : List Word) (x : Word × Word) : List Word :=
  let g := fun i => v.getD i 0
  let t1 := g 7 + shaB1 (g 4) + ((g 4 &&& g 5) ^^^ (~~~(g 4) &&& g 6)) + x.1 + x.2
  let t2 := shaB0 (g 0) + ((g 0 &&& g 1) ^^^ (g 0 &&& g 2) ^^^ (g 1 &&& g 2))
  [t1 + t2, g 0, g 1, g 2, g 3 + t1, g 4, g 5, g 6]

def shaBlock (h : List Word) (b : List Byte) : List Word :=
  let v := (shaK.zip (shaSchedule 64 (shaWords b).reverse)).foldl shaRound h
  (h.zip v).map fun x => x.1 + x.2

/-- `n` blocks of a padded message absorbed. -/
def shaBlocks : Nat → List Word → List Byte → List Word
  | 0, h, _ => h
  | n + 1, h, m => shaBlocks n (shaBlock h (m.take 128)) (m.drop 128)

/-- The 48 bytes of SHA-384. -/
def sha384 (m : List Byte) : List Byte :=
  let p := shaPad m
  ((shaBlocks (p.length / 128) shaInit p).take 6).flatMap fun w => beBytes w.toNat 8

end Sys2Proof.Machine
end

