-- ==== Sys2Proof/Machine/Boot.lean ====
section
/-! DEFINITION. Bring-up, firmware verification, march tests, repair, site map, core reset
(R6, R15, R323, R377–R382, R388, R389). -/

namespace Sys2Proof.Machine

/-! ### Readiness bits (R379) -/

def State.setRdy (s : State) (i : Nat) : State := s.modReady fun r => { r with rdy := setBit r.rdy i true }
def State.setCoreBit (s : State) (p : CoreId) (b : Bool) : State :=
  s.modReady fun r => { r with core := vmod r.core (p.val / 64) fun w => setBit w (p.val % 64) b }

/-! ### Cold reset, power, firmware (R6, R377, R381, R382) -/

/-- COLD_RESET: every field at its reset value; the model's own input list and counter go on. -/
def execColdReset (s : State) : Out :=
  .next { State.reset with sched := { State.reset.sched with inputs := s.sched.inputs, tick := s.sched.tick } }

/-- The fused key hashes and security versions, as measured (R382; their order is the model's, log 21). -/
def fusedBytes : List Byte :=
  Config.fusedHashes ++ bytesOfNat (Config.fusedSvn false) 4 ++ bytesOfNat (Config.fusedSvn true) 4

/-- POWER_GOOD: the Sill ROM starts, and measures itself and the fuses. -/
def execPowerGood (s : State) : Out :=
  .next (
    if s.ready.powerGood then s
    else s.modReady fun r =>
      { r with powerGood := true, meas := [(1, sha384 Config.romImage), (2, sha384 fusedBytes)] })

/-- The lowest-numbered check an image fails, 0 where it passes all; `link` says which image it is. -/
def imageError (link : Bool) (img : List Byte) : Nat :=
  if !Config.fwFormat img then 1
  else if !Config.fwEcdsa img then 2
  else if !Config.fwLms img then 3
  else if Config.fwSvn img < Config.fusedSvn link then 4
  else 0

/-- The check BOOTERR reports of a slot: its bent firmware's, or else its link firmware's. -/
def slotError (bent link : List Byte) : Nat := if imageError false bent = 0 then imageError true link else imageError false bent

/-- A slot's images accepted and run. -/
def State.acceptSlot (s : State) (b : Bool) (bent link : List Byte) : State :=
  s.modReady fun r =>
    { r with rdy := setBit (setBit r.rdy 51 b) 50 true, tf := some s.nanos,
             meas := r.meas ++ [(3, sha384 bent), (4, sha384 link)] }

/-- FIRMWARE_VERIFY: slot A, then slot B; where both are refused, boot halts with BOOTERR. -/
def execFirmwareVerify (f : Flash) (s : State) : Out :=
  .next (
    if !s.ready.powerGood || s.ready.tf.isSome || s.ready.rdy.extractLsb' 52 4 != 0 then s
    else if slotError f.bentA f.linkA = 0 then s.acceptSlot false f.bentA f.linkA
    else
      let e := slotError f.bentB f.linkB
      if e = 0 then s.acceptSlot true f.bentB f.linkB
      else s.modReady fun r => { r with rdy := r.rdy ||| at_ e 52 })

/-- Whether `d` nanoseconds have passed since bent `b`'s turn at T_F + 2 ms × b. -/
def State.bentDue (s : State) (b : BentId) (d : Nat) : Bool :=
  match s.ready.tf with
  | some t => decide (t + 2 * ms * b.val + d ≤ s.nanos)
  | none => false

/-- Bents power up in ascending order, no two less than 2 ms apart (R377). -/
def State.bentTurn (s : State) (b : BentId) : Bool :=
  s.bentDue b 0 && !(s.bent b).powered &&
    (b == 0 || ((s.bent (b - 1)).powered && decide ((s.bent (b - 1)).poweredAt + 2 * ms ≤ s.nanos)))

def execBentPowerUp (b : BentId) (s : State) : Out :=
  .next (if s.bentTurn b then s.modBent b fun x => { x with powered := true, poweredAt := s.nanos } else s)

/-- STACK_TRAINING_END: the two stacks of a bent are ready. -/
def execStackTrainingEnd (b : BentId) (s : State) : Out :=
  .next (if (s.bent b).powered && s.bentDue b (4 * ms) then (s.setRdy (16 + 2 * b.val)).setRdy (17 + 2 * b.val) else s)

/-! ### March tests and mapping (R15, R378) -/

def spareRows : Nat := 32

/-- Spares of an array of a site already drawn. -/
def Bent.drawnOf (b : Bent) (site : BitVec 5) (arr : BitVec 3) : Nat := (b.drawn.filter fun x => x == (site, arr)).length

def repWord (arr : BitVec 3) (site : BitVec 5) (row : BitVec 18) : Word :=
  at_ 1 63 ||| at_ arr.toNat 60 ||| at_ site.toNat 55 ||| at_ row.toNat 0

/-- One failing row repaired, or its site failed where no spare or no free entry is left. -/
def Bent.repairRow (x : Bent × List Nat) (r : BitVec 3 × BitVec 5 × BitVec 18) : Bent × List Nat :=
  let (b, bad) := x
  let (arr, site, row) := r
  match (vlist b.rep).findIdx? fun w => !w.getLsbD 63 with
  | some e =>
    if b.drawnOf site arr < spareRows then
      ({ b with rep := vset b.rep e (repWord arr site row), drawn := (site, arr) :: b.drawn }, bad)
    else (b, site.toNat :: bad)
  | none => (b, site.toNat :: bad)

/-- SITEMAP for a set of failed sites. -/
def siteMap (bad : List Nat) : Word :=
  let l := (List.range 17).filter bad.contains
  let failed := at_ (l.map fun n => 2 ^ n).sum 0
  match l with
  | [] => failed ||| at_ 0x1F 17
  | [n] => failed ||| at_ (if n = 16 then 0x1F else n) 17
  | _ => failed ||| at_ 0x1F 17 ||| at_ 1 22

/-- Failing rows in the order their sites are tested: site 16, then 0 to 15 (R377). -/
def testOrder (l : List (BitVec 3 × BitVec 5 × BitVec 18)) : List (BitVec 3 × BitVec 5 × BitVec 18) :=
  (16 :: List.range 16).flatMap fun n => l.filter fun r => r.2.1.toNat == n

/-- MARCH_TEST_END: rows repaired, sites mapped, readiness set. -/
def execMarchTestEnd (b : BentId) (r : MarchResult) (s : State) : Out :=
  .next (
    if !(s.bent b).powered || (s.bent b).marched || !s.bentDue b (12 * ms)
        || !(s.stackReady (2 * b.val) && s.stackReady (2 * b.val + 1)) then s
    else
      let (x, bad) := (testOrder r.rows).foldl Bent.repairRow (s.bent b, (List.range 17).filter fun n => r.logic.getLsbD n)
      let map := siteMap bad
      let s1 := (s.setBent b { x with sitemap := map ||| (x.sitemap &&& 0x800000), marched := true }).modReady fun y =>
        { y with und := y.und ||| BitVec.twoPow 32 b.val }
      if bentFenced map then
        ((List.range 16).foldl (fun t k => t.setCoreBit (coreOfBent b k) false) s1).returnHeld b
      else ((List.range 16).foldl (fun t k => t.setCoreBit (coreOfBent b k) true) s1).setRdy b.val)

/-! ### Repair entries (R388) -/

/-- Rows of an array: scratchpad, L1, understore slice, LLC slice. -/
def arrayRows (arr : Nat) : Nat :=
  match arr with
  | 0 => 16384 | 1 => 8192 | 2 => 229376 | 3 => 32768
  | _ => 0

/-- The core that stands on a site of a bent. -/
def State.coreAt (s : State) (b : BentId) (site : Nat) : Option CoreId :=
  ((List.range 16).map (coreOfBent b)).find? fun p => s.siteOf p == site

/-- A replaced row's contents are free values; which line stands in a row of an L1 or of an LLC slice is free
(DESIGN CHOICE, log 11). -/
def State.loseRow (s : State) (p : CoreId) (arr row : Nat) : State :=
  let bytes := (List.range 128).map fun i => Config.repairedByte s.sched.tick i
  match arr with
  | 0 => s.modCore p fun c => { c with scratch := c.scratch.write (128 * row) bytes }
  | 1 => s.modCore p fun c => { c with l1 := lmod (Config.repairedL1 s.sched.tick) (fun x => { x with data := vecOfBytes bytes }) c.l1 }
  | 2 => s.writePhys (underBase + (bentOf p).val * 0x20000000 + p.val % 16 * 0x1C00000 + 128 * row) bytes
  | _ =>
    let here := fun a => stackOf a / 2 == (bentOf p).val && a / 128 % 16 == p.val % 16
    let line := Config.repairedLine s.sched.tick / 128 * 128
    let t := if line < devSize && here line then s.writePhys line bytes else s
    { t with llc := t.llc.filter fun x => !here x.line }

/-- REPe written: a write of VALID = 1 draws a spare, or is refused with REPERR. -/
def State.repWrite (s : State) (b : BentId) (e : Nat) (v mask : Word) : State :=
  let w := put (vget (s.bent b).rep e) v mask 0xFF8000000003FFFF
  let arr : BitVec 3 := w.extractLsb' 60 3
  let site : BitVec 5 := w.extractLsb' 55 5
  let row := (w.extractLsb' 0 18).toNat
  let store := fun (t : State) => t.modBent b fun x => { x with rep := vset x.rep e w }
  if !w.getLsbD 63 || !(v &&& mask).getLsbD 63 then store s
  else
    let p := s.coreAt b site.toNat
    let held := (p.bind s.gangNo).isSome
    if held || decide (spareRows ≤ (s.bent b).drawnOf site arr) || decide (4 ≤ arr.toNat) || decide (16 < site.toNat)
        || decide (arrayRows arr.toNat ≤ row) then
      s.modBent b fun x => { x with sitemap := setBit x.sitemap 23 true }
    else
      let s1 := (store s).modBent b fun x => { x with drawn := (site, arr) :: x.drawn }
      match p with
      | some q => s1.loseRow q arr.toNat row
      | none => s1

def execRepairEntry (b : BentId) (e : BitVec 6) (v : Word) (s : State) : Out :=
  .next (s.repWrite b e.toNat v (BitVec.allOnes 64))

/-! ### Core reset (R389) -/

/-- One core's reset begins: its gang ends, its bit clears, its arrays go to test. -/
def State.resetCore (s : State) (p : CoreId) : State :=
  let s1 := match s.gangNo p with
    | some g => s.killGang g cKilled
    | none => s
  (s1.setCoreBit p false).modCore p fun c => { c with testing := true }

def State.corectlWrite (s : State) (b : BentId) (v : W32) : State :=
  ((List.range 16).filter fun k => v.getLsbD (16 + k)).foldl (fun t k => t.resetCore (coreOfBent b k)) s

def execCoreReset (b : BentId) (v : W32) (s : State) : Out := .next (s.corectlWrite b v)

/-- CORE_MARCH_TEST: the core's arrays are cleared and tested: each row that now fails draws a spare and a repair entry.
The core serves again, or, where a logic test fails or a row finds no spare, it is left fenced with its bit 0. -/
def execCoreMarchTest (p : CoreId) (r : CoreTest) (s : State) : Out :=
  .next (
    let c := s.core p
    if !c.testing then s
    else
      let site := BitVec.ofNat 5 (s.siteOf p)
      let (x, bad) := (r.rows.map fun y => (y.1, site, y.2)).foldl Bent.repairRow (s.bent (bentOf p), [])
      let ok := r.good && bad.isEmpty
      let s1 := (s.setBent (bentOf p) x).setCore p
        { ({} : Core) with seq := c.seq, chunks := c.chunks, fenced := !ok, frzAt := if s.clock.busy.isSome then c.frzAt else none }
      if ok && !bentFenced (s.bent (bentOf p)).sitemap then s1.setCoreBit p true else s1)

end Sys2Proof.Machine
end

