-- ==== Sys2Proof/Machine/Branch.lean ====
section
/-! DEFINITION. Branches and jumps (R192, R193). -/

namespace Sys2Proof.Machine

/-- pc + 4 × an offset in words. -/
def State.target (s : State) (off : Word) : Word := s.me!.pc + 4 * off

/-- The current word commits and the context goes on at `next`. -/
def State.jumpTo (s : State) (next : Word) : State := s.commit s.user next

/-- A conditional branch: both sources are read whether or not it is taken (R192). -/
def branch (c : Word → Word → Bool) (r : Br) (s : State) : Out :=
  .next (scalar [src r.a r.pa, src r.b r.pb] none false s fun v t =>
    if c (arg v 0) (arg v 1) then t.jumpTo (t.target (r.off.signExtend 64)) else t.advance)

def execBeq (r : Br) (s : State) : Out := branch (fun a b => a == b) r s
def execBne (r : Br) (s : State) : Out := branch (fun a b => a != b) r s
def execBlt (r : Br) (s : State) : Out := branch slt r s
def execBge (r : Br) (s : State) : Out := branch (fun a b => !slt a b) r s
def execBltu (r : Br) (s : State) : Out := branch ult r s
def execBgeu (r : Br) (s : State) : Out := branch (fun a b => !ult a b) r s

def execJ (_sb : Bool) (off : BitVec 25) (s : State) : Out :=
  .next (scalar [] none false s fun _ t => t.jumpTo (t.target (off.signExtend 64)))

/-- The link pc + 4 pushed to d, then the jump. -/
def State.link (s : State) (d : BitVec 5) (next : Word) : State :=
  (s.modCore s.p fun c => c.push s.k d (s.me!.pc + 4)).jumpTo next

def execJal (r : U20) (s : State) : Out :=
  .next (scalar [] (some r.d) false s fun _ t => t.link r.d (t.target (r.imm.signExtend 64)))

/-- (A + 4 × imm)[63:0] with bits 1:0 ignored. -/
def execJalr (r : I12) (s : State) : Out :=
  .next (scalar [src r.a r.pa] (some r.d) false s fun v t =>
    t.link r.d ((arg v 0 + 4 * sext12 r.imm) &&& ~~~3#64))

end Sys2Proof.Machine
end

