-- ==== Sys2Proof/Machine/CacheOps.lean ====
section
/-! DEFINITION. Cache and TLB maintenance of the scalar instructions (R202). -/

namespace Sys2Proof.Machine

/-- The place A names, where it translates; an access that asks for nothing of the leaf but USR in user mode. -/
def State.lineOf (s : State) (va : Word) : Option Nat :=
  match s.translate s.p va .locate s.user with
  | .ok (.phys a) => some (a / 128 * 128)
  | _ => none

/-- A table of the walk of A lies in a frame whose form is changing: the word waits (R297). -/
def State.lineHeld (s : State) (va : Word) : Bool :=
  match s.translate s.p va .locate s.user with
  | .error .held => true
  | _ => false

/-- IINV: the issuing core's instruction cache, or its bent's with BENT = 1. -/
def State.dropFetch (s : State) (p : CoreId) (bent : Bool) (line : Option Nat) : State :=
  let f := fun l : List L1Line => match line with
    | none => []
    | some a => dropLine a l
  if bent then s.modBent (bentOf p) fun b => { b with icache := f b.icache }
  else s.modCore p fun c => { c with icache := f c.icache }

/-- IINV waits until each earlier store of the context is performed, then invalidates. -/
def execIinv (r : IInv) (s : State) : Out :=
  .next (scalar [src r.a r.pa] none (r.all && r.a != 0) s fun v t =>
    if s.me!.pend.any Pend.isWrite then s.blockNow
    else if r.all then (t.dropFetch t.p r.bent none).advance
    else if s.lineHeld (arg v 0) then s.blockNow
    else match s.lineOf (arg v 0) with
      | some a => (t.dropFetch t.p r.bent (some a)).advance
      | none => t.advance)

/-- TINV: the issuing core's L1 TLB entries that cover A, or all of them; bits 63:52 of A must be zero (R34). -/
def execTinv (r : Inv) (s : State) : Out :=
  .next (privileged s fun s => scalar [src r.a r.pa] none (r.all && r.a != 0) s fun v t =>
    if !r.all && decide (2 ^ 52 ≤ (arg v 0).toNat) then trapAfter s cAccess 0 (arg v 0)
    else (t.modCore t.p fun c =>
      { c with tlb := if r.all then [] else c.tlb.filter fun x => !x.hits (arg v 0).toNat }).advance)

/-- L1INV: the line holding A, or every line of the core's L1, or of the fused L1. -/
def execL1inv (r : Inv) (s : State) : Out :=
  .next (scalar [src r.a r.pa] none (r.all && r.a != 0) s fun v t =>
    if r.all then (t.clearL1 t.p).advance
    else if s.lineHeld (arg v 0) then s.blockNow
    else match s.lineOf (arg v 0) with
      | some a => (if s.isDev (.phys a) then t.dropL1 t.p a else t).advance
      | none => t.advance)

/-- PREF: the line at A + disp is brought into the L1 where it is device memory, once no region change holds
it (R297); nothing else happens otherwise. -/
def execPref (r : Pref) (s : State) : Out :=
  .next (scalar [src r.a r.pa] none false s fun v t =>
    let ea := arg v 0 + r.imm.signExtend 64
    match s.translate s.p ea .read s.user with
    | .ok (.phys a) =>
      if s.formHeld (.phys a) then s.blockNow
      else (if s.isDev (.phys a) then ((t.note t.p ea).loadScalar t.p (.phys (a / 128 * 128)) 1).2
        else t.note t.p ea).advance
    | .error .held => s.blockNow
    | .error _ => (t.noteFail t.p ea).advance
    | .ok (.spad _) => t.advance)

end Sys2Proof.Machine
end

