-- ==== Sys2Proof/Machine/RegWrite.lean ====
section
/-! DEFINITION. Writing the control-register space (R4, R5, R32, R41, R42, R54, R82, R106, R109, R112, R124, R177–R179,
R241, R294, R313, R320, R350, R353, R358, R376, R384, R388). A write acts on the bytes it covers (log 12). -/

namespace Sys2Proof.Machine

/-- A 32-bit register replaced in the bits a write covers. -/
def put32 (old : W32) (v mask : Word) (bits : Word) : W32 := (put (old.setWidth 64) v mask bits).setWidth 32

def all64 : Word := BitVec.allOnes 64

/-! ### Pre-emption control (R320) -/

/-- PMCTL written: DONE and ERR clear where written 1, then OP. -/
def State.pmctlWrite (s : State) (v : Word) : State :=
  s.modPm fun x =>
    let y := { x with err := x.err && !v.getLsbD 5, done := x.done && !v.getLsbD 4 }
    let op : BitVec 2 := v.extractLsb' 0 2
    if op = 0 then y else if x.busy then { y with err := true, ecode := 2 } else { y with req := op }

/-! ### The host pool (R371, R376) -/

/-- HPBASE or HPSIZE written: every pool line the LLC holds is written back and dropped first. -/
def State.poolWrite (s : State) (size : Bool) (v mask : Word) : State :=
  s.modLinks fun l =>
    let y := { l with pool := [] }
    if size then { y with hpsize := put l.hpsize v mask 0x1FFFFE00000 } else { y with hpbase := put l.hpbase v mask 0xFFFFFFFE00000 }

/-- HOST_POOL_WRITE: HPSIZE where `reg`, else HPBASE. -/
def execHostPoolWrite (reg : Bool) (v : Word) (s : State) : Out := .next (s.poolWrite reg v all64)

/-! ### A core's page -/

/-- A context's register of the banked numbers. -/
def Context.csrPut (x : Context) (n : Nat) (v mask : Word) : Context :=
  match n with
  | 0 => { x with status := put x.status v mask 0x1E }
  | 1 => { x with tvec := put x.tvec v mask all64 }
  | 2 => { x with tepc := put x.tepc v mask all64 }
  | 3 => { x with tcause := put x.tcause v mask 0xFF00FF }
  | 4 => { x with tval := put x.tval v mask all64 }
  | 5 => { x with tscr := put x.tscr v mask all64 }
  | 6 => { x with tword := put x.tword v mask all64 }
  | _ => x

/-- PMCTL of a core: SAMPEN, and OVF cleared where written 1. -/
def pmctlPut (old v mask : Word) : Word := put old v mask 0xFFFF00000000 &&& ~~~(v &&& mask &&& 0xFFFF)

def State.csrPut (s : State) (p : CoreId) (k : Ctx) (n : Nat) (v mask : Word) : State :=
  if n < 0x10 then s.modCtx p k fun x => x.csrPut n v mask
  else if 0xC0 ≤ n ∧ n < 0xC8 then s.modDbg p fun d => { d with wpaddr := vmod d.wpaddr (n - 0xC0) fun w => put w v mask all64 }
  else if 0xC8 ≤ n ∧ n < 0xD0 then s.modDbg p fun d => { d with wpctl := vmod d.wpctl (n - 0xC8) fun w => put w v mask 0x1FF7 }
  else if 0xD0 ≤ n ∧ n < 0xE0 then s.modDbg p fun d => { d with pmctr := vmod d.pmctr (n - 0xD0) fun w => put w v mask all64 }
  else match n with
    | 0xA0 => s.modRng p fun r => { r with seed := put r.seed v mask all64, vPend := true, mPend := true }
    | 0xA1 => if mask.getLsbD 0 then s.fuseWrite p (v.getLsbD 0) else s
    | 0xA2 => if (v &&& mask).getLsbD 8 then s.modCore p fun c => { c with monfull := false } else s
    | 0xA3 => s.vtctlWrite p (v &&& mask)
    | 0xE0 => s.modDbg p fun d => { d with pmsel0 := put d.pmsel0 v mask all64 }
    | 0xE1 => s.modDbg p fun d => { d with pmsel1 := put d.pmsel1 v mask all64 }
    | 0xE2 => s.modDbg p fun d => { d with pmctl := pmctlPut d.pmctl v mask }
    | 0xF0 => s.dbgctlWrite p v mask
    | _ => s

/-! ### Every register -/

def State.lqPut (s : State) (q : Nat) (f : LaunchQ → LaunchQ) : State := s.modLq (BitVec.ofNat 6 q) f

def State.regPut (s : State) (r : Reg) (v mask : Word) : State :=
  let w := v &&& mask
  let r64 := fun (old : Word) => put old v mask all64
  let r32 := fun (old : W32) => put32 old v mask all64
  match r with
  | .lqBase q => s.lqPut q fun x => { x with base := r64 x.base }
  | .lqSize q => s.lqPut q fun x => { x with size := r32 x.size }
  | .lqPrio q => s.lqPut q fun x => { x with prio := r32 x.prio }
  | .lqTail q => s.lqPut q fun x => { x with tail := r32 x.tail }
  | .lqWd q i => s.lqPut q fun x =>
    match i with
    | 0 => { x with wdl1 := r32 x.wdl1 }
    | 1 => { x with wdl2 := r32 x.wdl2 }
    | _ => { x with wdl3 := r32 x.wdl3 }
  | .lqStat q => s.lqPut q fun x => { x with stat := x.stat &&& ~~~((w &&& 0x3C).setWidth 32) }
  | .trroot => s.trrootWrite v mask
  | .trinv => s.trinvWrite w
  | .fltBase => s.modFlt fun f => { f with base := r64 f.base, badaddr := false }
  | .fltSize => s.modFlt fun f => { f with size := r32 f.size, badaddr := false }
  | .fltHead => s.modFlt fun f => { f with head := r32 f.head }
  | .fltReplay => s.reply (w.setWidth 16) (w.getLsbD 16)
  | .pmrec => s.modPm fun x => { x with pmrec := r64 x.pmrec }
  | .pmsave => s.modPm fun x => { x with save := r64 x.save }
  | .pmctl => s.pmctlWrite w
  | .oppt => s.opptWrite v mask
  | .trBase => s.modTrace fun t => { t with base := r64 t.base }
  | .trSize => s.modTrace fun t => { t with size := r32 t.size }
  | .trHead => (s.modTrace fun t => { t with head := r32 t.head }).finishReset
  | .trCtl => if mask.getLsbD 0 then s.trctlWrite (v.setWidth 32) else s
  | .trQmask => s.modTrace fun t => { t with qmask := r64 t.qmask }
  | .trSpBase => s.modTrace fun t => { t with spbase := r64 t.spbase }
  | .trSpCnt => s.modTrace fun t => { t with spcnt := r32 t.spcnt }
  | .lqrst => s.lqrstWrite (w.setWidth 32)
  | .icinv => s.icinvWrite w
  | .clklock => s.clklockWrite v mask
  | .bksh n => { s with bksh := vmod s.bksh n fun x => put x v mask 0x1FFFFFFFF }
  | .balival b => s.modBent b fun x => { x with balival := put32 x.balival v mask 0x3FF }
  | .sitemap b => if w.getLsbD 23 then s.modBent b fun x => { x with sitemap := setBit x.sitemap 23 false } else s
  | .corectl b => s.corectlWrite b (w.setWidth 32)
  | .rep b e => s.repWrite b e v mask
  | .fwcc b k => s.fwccWrite b k v mask
  | .fr b k n i => s.frWrite b k n i v mask
  | .csr p k n => s.csrPut p k n v mask
  | .dmwbase => s.modLinks fun l => { l with dmwbase := put l.dmwbase v mask 0x1FFF0000000 }
  | .hpbase => s.poolWrite false v mask
  | .hpsize => s.poolWrite true v mask
  | .devid => s.modLinks fun l => { l with devid := put32 l.devid v mask 0x3FF }
  | .peermap d => s.modLinks fun l => { l with peermap := vmod l.peermap d fun x => put32 x v mask 0x3FFFF }
  | .lqHead _ | .nbr _ | .featlvl | .fvec _ | .tlbstat | .fltTail | .fltStat | .pmcnt | .rdy | .rdyund | .rdycore _
  | .trTail | .trStat | .trLost | .tscol _ | .tsstk _ | .errce _ | .errue _ | .fwnfast _ _ | .fwnfb _ _ | .fwnrej _ _
  | .fwstat _ _ | .hlstat | .scstat _ | .none => s

/-- The part of a write that falls on the register at byte `o`: `n` bytes of `v` from `o` on. -/
def State.partWrite (s : State) (o n v : Nat) : State :=
  let (r, start, _) := regAt o
  let sh := 8 * (o - start)
  s.regPut r (BitVec.ofNat 64 (v * 2 ^ sh)) (BitVec.ofNat 64 ((2 ^ (8 * n) - 1) * 2 ^ sh))

/-- `n` bytes written at byte `o` of the control space; address bits below the size are ignored (R108). -/
def State.ctlWrite (s : State) (o n v : Nat) : State :=
  let a := o / n * n
  let (_, start, w) := regAt a
  let first := min n (start + w - a)
  let s1 := s.partWrite a first (v % 2 ^ (8 * first))
  if first < n then s1.partWrite (a + first) (n - first) (v / 2 ^ (8 * first) % 2 ^ (8 * (n - first))) else s1

/-- A write that closes or opens a trace session waits while a region change holds the ring (R297). -/
def State.ctlHeld (s : State) (o n : Nat) : Bool :=
  s.changing && [o / n * n, o / n * n + n - 1].any fun a => match (regAt a).1 with
    | .trCtl => true
    | _ => false

/-- REGISTER_WRITE: a write to the control-register space performs. -/
def execRegisterWrite (off : BitVec 26) (n : Fin 4) (v : Word) (s : State) : Out :=
  .next (if s.ctlHeld off.toNat (2 ^ n.val) then s else s.ctlWrite off.toNat (2 ^ n.val) v.toNat)

end Sys2Proof.Machine
end

