-- ==== Sys2Proof/Machine/Links.lean ====
section
/-! DEFINITION. Host links and BARs, the host pool, Scarf links, peers, SPDM (R366–R376, R380, R383). -/

namespace Sys2Proof.Machine

/-! ### Host links (R366, R371) -/

def State.linkUp (s : State) : Bool := vget s.links.up 0 || vget s.links.up 1

/-- HOST_LINK_TRAINED: the link is up, in the mode of a link already up. -/
def execHostLinkTrained (j : Fin 2) (cxl : Bool) (s : State) : Out :=
  .next (
    if s.ready.powerGood then
      (s.modLinks fun l => { l with cxl := if s.linkUp then l.cxl else cxl, up := vset l.up j.val true }).setRdy (48 + j.val)
    else s)

def execHostLinkDown (j : Fin 2) (s : State) : Out := .next (s.modLinks fun l => { l with up := vset l.up j.val false })

/-! ### Host accesses (R367, R368, R380) -/

def State.complete (s : State) (c : Completion) : State := s.modLinks fun l => { l with hostOut := l.hostOut ++ [c] }

/-- The completion of a read of `n` bytes that is an Unsupported Request: all ones. -/
def onesOf (n : Nat) : Word := BitVec.ofNat 64 (2 ^ (8 * n) - 1)

/-- The BAR2/3 size the host has set: a power of two from 256 MiB to 2 TiB. -/
def State.barSize (s : State) : Nat := 2 ^ (28 + min 13 s.links.barLog)

/-- The host sets the size (R367). -/
def State.setBar (s : State) (log : Nat) : State := s.modLinks fun l => { l with barLog := min 13 log }

/-- The device-memory offset a BAR2/3 offset names. -/
def State.barAddr (s : State) (off : Nat) : Nat :=
  let size := s.barSize
  s.links.dmwbase.toNat / size * size + off % size

/-- Where a BAR2/3 request goes. -/
def State.hostAt (s : State) (r : HostReq) : Nat := s.barAddr r.off.toNat / 2 ^ r.n.val * 2 ^ r.n.val

/-- Device memory that an agent outside the module may not reach: beyond its end, of a stack not trained, or written in a
format-region view. -/
def State.unserved (s : State) (a : Nat) (wr : Bool) : Bool :=
  decide (devSize ≤ a) || !s.stackReady (stackOf a) || (wr && s.inView (.phys a))

def State.hostMem (s : State) (r : HostReq) : State :=
  let n := 2 ^ r.n.val
  let a := s.hostAt r
  if s.unserved a r.wr then s.complete (if r.wr then .unsupported 0 else .unsupported (onesOf n))
  else if r.wr then (s.writePhys a (bytesOfNat r.v.toNat n)).complete .written
  else ((s.touchView a).meet none (.phys a) n).complete (.value (BitVec.ofNat 64 (s.readPhys a n)))

/-- The offset of LQTAIL of queue `q` in the control space. -/
def tailOff (q : Nat) : Nat := 0x10014 + 0x40 * q

/-- BAR4/5: only the 32-bit word at 4,096 × q answers. -/
def State.hostTail (s : State) (r : HostReq) : State :=
  let n := 2 ^ r.n.val
  let o := r.off.toNat % 0x40000 / n * n
  let q := o / 4096
  let i := o % 4096
  let k := min n (4 - i)
  if r.wr then (if i < 4 then s.ctlWrite (tailOff q + i) k (r.v.toNat % 2 ^ (8 * k)) else s).complete .written
  else s.complete (.value (if i < 4 then BitVec.ofNat 64 (s.ctlRead (tailOff q + i) k) else 0))

def State.hostRegs (s : State) (r : HostReq) : State :=
  let n := 2 ^ r.n.val
  let o := r.off.toNat % 0x4000000 / n * n
  if r.wr then (s.ctlWrite o n (r.v.toNat % 2 ^ (8 * n))).complete .written
  else s.complete (.value (BitVec.ofNat 64 (s.ctlRead o n)))

/-- A request performs. -/
def State.hostDo (s : State) (r : HostReq) : State :=
  match r.bar with
  | 0 => s.hostRegs r
  | 1 => s.hostMem r
  | 2 => s.hostTail r

/-- A request that a region change holds (R297). -/
def State.hostWaits (s : State) (r : HostReq) : Bool :=
  match r.bar with
  | 0 => r.wr && s.ctlHeld (r.off.toNat % 0x4000000 / 2 ^ r.n.val * 2 ^ r.n.val) (2 ^ r.n.val)
  | 1 => !s.unserved (s.hostAt r) r.wr && s.formHeld (.phys (s.hostAt r))
  | 2 => false

/-- HOST_ACCESS: one request through a BAR, on a link that is up. One that a region change holds waits, and with it the
later ones of its link (R297, R368). -/
def execHostAccess (r : HostReq) (s : State) : Out :=
  .next (
    if !vget s.links.up r.link.val then s
    else if s.hostWaits r || s.links.hostHeld.any fun x => x.link == r.link then
      s.modLinks fun l => { l with hostHeld := l.hostHeld ++ [r] }
    else s.hostDo r)

/-- The first entry of a list that nothing holds and no earlier one of its own agent precedes, taken out. -/
def takeHeld {α β : Type} [DecidableEq β] (key : α → β) (waits : α → Bool) : List α → List β → Option (α × List α)
  | [], _ => none
  | x :: t, seen =>
    if seen.contains (key x) || waits x then (takeHeld key waits t (key x :: seen)).map fun y => (y.1, x :: y.2)
    else some (x, t)

/-- A held request of the host performs once nothing holds it. -/
def State.serveHost (s : State) : State :=
  match takeHeld (fun x => x.link) s.hostWaits s.links.hostHeld [] with
  | some (r, rest) => (s.modLinks fun l => { l with hostHeld := rest }).hostDo r
  | none => s

/-- CXL_CACHE_REQUEST: the host takes back a line of its memory (R371). To read it, its pool line stays without being
held exclusively; to write it, the pool line is dropped and the line holds the host's bytes. -/
def execCxlCacheRequest (addr : Word) (wr : Option (List Byte)) (s : State) : Out :=
  .next (
    let line := addr.toNat / 128 * 128
    match wr with
    | none =>
      s.modLinks fun l => { l with pool := l.pool.map fun x => if x.line = line then { x with excl := false } else x }
    | some bs =>
      (if line < 0x10000000000000 then s.writePhys (hostBase + line) (bs.take 128) else s).modLinks fun l =>
        { l with pool := l.pool.filter fun x => x.line != line })

/-! ### SPDM (R383; the message layout is log 27's) -/

def State.answer (s : State) (m : List Byte) : State :=
  if s.ready.powerGood && s.linkUp then s.modLinks fun l => { l with spdm := l.spdm ++ [m] } else s

def execGetVersion (s : State) : Out := .next (s.answer [0x10, 0x04, 0, 0, 0, 1, 0x00, 0x13])

/-- CERT, CHAL and measurements with signature; the timing and the sizes are free (log 27). -/
def execGetCapabilities (_req : List Byte) (s : State) : Out :=
  .next (s.answer ([0x13, 0x61, 0, 0, 0, Config.spdmTime, 0, 0] ++ bytesOfNat 0x16 4
    ++ bytesOfNat Config.spdmSizes.1.toNat 4 ++ bytesOfNat Config.spdmSizes.2.toNat 4))

/-- DMTF measurements hashed with SHA-384, signed with ECDSA P-384 over SHA-384. -/
def execNegotiateAlgorithms (_req : List Byte) (s : State) : Out :=
  .next (s.answer ([0x13, 0x63, 0, 0] ++ bytesOfNat 0x24 2 ++ [0x01, 0] ++ bytesOfNat 0x04 4 ++ bytesOfNat 0x80 4
    ++ bytesOfNat 0x02 4 ++ List.replicate 16 0))

/-- The digest of the certificate chain of slot 0. -/
def execGetDigests (s : State) : Out := .next (s.answer ([0x13, 0x01, 0, 1] ++ sha384 Config.certChain))

/-- A portion of slot 0's certificate chain; no other slot holds one. -/
def execGetCertificate (slot : BitVec 8) (off len : Nat) (s : State) : Out :=
  .next (s.answer (
    if slot ≠ 0 ∨ Config.certChain.length ≤ off then [0x13, 0x7F, 0x01, 0]
    else
      let part := (Config.certChain.drop off).take len
      [0x13, 0x02, slot, 0] ++ bytesOfNat part.length 2 ++ bytesOfNat (Config.certChain.length - off - part.length) 2 ++ part))

/-- A reply signed over the request and the reply. -/
def signed (req m : List Byte) : List Byte := m ++ Config.spdmSign (req ++ m)

def execChallenge (req : List Byte) (s : State) : Out :=
  .next (s.answer (signed req ([0x13, 0x03, 0, 1] ++ sha384 Config.certChain)))

/-- The DMTF type of a measurement: the ROM is immutable, the fuses are hardware configuration, the rest is mutable
firmware. -/
def measType (i : Nat) : Nat := if i = 1 then 0 else if i = 2 then 2 else 1

/-- The DMTF block of a measurement. -/
def measBlock (m : Nat × List Byte) : List Byte :=
  bytesOfNat m.1 1 ++ [0x01] ++ bytesOfNat (m.2.length + 3) 2 ++ bytesOfNat (measType m.1) 1
    ++ bytesOfNat m.2.length 2 ++ m.2

/-- Every index recorded so far, signed. -/
def execGetMeasurements (req : List Byte) (s : State) : Out :=
  .next (s.answer (
    let blocks := s.ready.meas.flatMap measBlock
    signed req ([0x13, 0x60, 0, 0] ++ bytesOfNat s.ready.meas.length 1 ++ bytesOfNat blocks.length 3 ++ blocks)))

/-- UnsupportedRequest. -/
def execSessionRequest (_req : List Byte) (s : State) : Out := .next (s.answer [0x13, 0x7F, 0x07, 0])

/-! ### Scarf links (R372, R373, R376) -/

def State.scarf (s : State) (n : Fin 18) : Scarf := vget s.links.sc n.val
def State.modScarf (s : State) (n : Fin 18) (f : Scarf → Scarf) : State :=
  s.modLinks fun l => { l with sc := vset l.sc n.val (f (s.scarf n)) }

/-- A flit of 256 bytes whose CRC holds. -/
def flitOk (flit : List Byte) : Bool := decide (flit.length = 256) && wordAt flit 248 == Config.crc64 (flit.take 248)

/-- RESEND counts more flits resent, saturating. -/
def Scarf.countResent (x : Scarf) (n : Nat) : Scarf := { x with resend := BitVec.ofNat 32 (min (2 ^ 32 - 1) (x.resend.toNat + n)) }

/-- A flit taken in sequence. -/
def Scarf.take (x : Scarf) (flit : List Byte) : Scarf :=
  { x with expect := x.expect + 1, resends := 0, type := BitVec.ofNat 4 (fieldAt flit 0 4 / 4096),
           credits := BitVec.ofNat 16 (fieldAt flit 0 4 / 65536) }

/-- A flit discarded: where it is the flit now expected, sent again, that resend has failed. -/
def Scarf.discard (x : Scarf) (flit : Flit) : Scarf :=
  if flit.resent = some x.expect then { x with resends := x.resends + 1 } else x

/-- SCARF_FLIT: a flit is delivered in sequence; any other is discarded, and a resend asked for from the first missing
number. -/
def execScarfFlit (n : Fin 18) (flit : Flit) (s : State) : Out :=
  .next (
    let x := (s.scarf n).countResent flit.resent.isSome.toNat
    if !x.up then s
    else if flitOk flit.bytes ∧ fieldAt flit.bytes 0 4 % 4096 = x.expect.toNat then
      (s.modScarf n fun _ => x.take flit.bytes).modLinks fun l => { l with rx := l.rx ++ [(flit.bytes.drop 4).take 244] }
    else (s.modScarf n fun _ => x.discard flit).modLinks fun l => { l with asks := l.asks ++ [(n, x.expect)] })

/-- The peer of a link asks for a resend from its first missing number on, of as many flits as this module has sent since
and still keeps (R373): asked again for the same number, the resend before has failed. -/
def State.resendAsked (s : State) (n : Fin 18) (first : BitVec 12) (run : Nat) : State :=
  if (s.scarf n).up then
    s.modScarf n fun x =>
      { x.countResent (min run 512) with
        askedFrom := some first, sendFails := if x.askedFrom = some first then x.sendFails + 1 else 0 }
  else s

/-- LINK_RETRAIN: after eight failed resends of one flit, in either direction, the link retrains, at most three times in a
row. -/
def execLinkRetrain (n : Fin 18) (s : State) : Out :=
  .next (
    let x := s.scarf n
    if x.up && !x.training && decide (8 ≤ x.resends ∨ 8 ≤ x.sendFails) && decide (x.failed < 3) then
      s.modScarf n fun y => { y with training := true, resends := 0, sendFails := 0, askedFrom := none,
                                     retrain := if y.retrain = 0xFF then y.retrain else y.retrain + 1 }
    else s)

/-- RETRAIN_END: the link goes on, or has failed once more; a link that has never been up trains so too. -/
def execRetrainEnd (n : Fin 18) (good : Bool) (s : State) : Out :=
  .next (
    let x := s.scarf n
    if !(x.training || (!x.up && x.failed == 0)) then s
    else if good then s.modScarf n fun y => { y with up := true, training := false, failed := 0 }
    else if x.training then s.modScarf n fun y => { y with training := false, resends := 8, failed := y.failed + 1 }
    else s)

/-- LINK_DOWN: after three failed retrains. -/
def execLinkDown (n : Fin 18) (s : State) : Out :=
  .next (if 3 ≤ (s.scarf n).failed then s.modScarf n fun y => { y with up := false, training := false } else s)

/-! ### Peers' requests (R316, R375) -/

def peerAtomic (op : BitVec 4) : AtomOp :=
  match op.toNat with
  | 0 => .add | 1 => .and | 2 => .or | 3 => .xor | 4 => .min | 5 => .max | 6 => .minu | 7 => .maxu | 8 => .swap | 9 => .cas
  | _ => .fadd

def State.peerAnswer (s : State) (r : PeerReply) : State := s.modLinks fun l => { l with peerOut := l.peerOut ++ [r] }

/-- The window of this device's home agent for the chunks of a peer (R316). -/
def peerUnit (dev : BitVec 10) : Nat := 10000 + dev.toNat

/-- A chunk: applied and recorded, acknowledged alone where it is recorded, refused while the window is full. -/
def State.peerChunk (s : State) (dev : BitVec 10) (a : Nat) (key : Byte × W32) (f : Fmt) (rop : BitVec 3) (vals : List Byte) :
    State :=
  let u := peerUnit dev
  if s.dedup.contains (u, key) then s.peerAnswer .ack
  else if 4096 ≤ (s.dedup.filter fun d => d.1 == u).length then s
  else
    { applyElems 0 f rop (.phys a) vals (vals.length / (f.width / 8)) s with
      dedup := (u, key) :: s.dedup, cores := s.cores }.peerAnswer .ack

/-- The place a peer's request names, and whether it writes there. -/
def peerAt (r : PeerReq) : Nat := r.off.toNat / 2 ^ r.n.val * 2 ^ r.n.val
def peerWr (r : PeerReq) : Bool :=
  match r.op with
  | .load | .confirm .. => false
  | _ => true
def peerConfirms (r : PeerReq) : Bool :=
  match r.op with
  | .confirm .. => true
  | _ => false

/-- The reply to a request that is not served, as a host gets it (R367, R375, R380): all ones where a value is due. -/
def peerRefusal (r : PeerReq) : PeerReply :=
  match r.op with
  | .load | .atomic .. => .unsupported (onesOf (2 ^ r.n.val))
  | _ => .unsupported 0

/-- A request performs at the home. -/
def State.peerDo (s : State) (r : PeerReq) : State :=
  let n := 2 ^ r.n.val
  let a := peerAt r
  let old := s.readPhys a n
  let seen := s.meet none (.phys a) n
  let put := fun (v : Nat) (x : PeerReply) => (seen.writePhys a (bytesOfNat v n)).peerAnswer x
  match r.op with
  | .confirm pcore seq => { s with dedup := s.dedup.filter (· != (peerUnit r.dev, pcore, seq)) }
  | op =>
    if s.unserved a (peerWr r) then s.peerAnswer (peerRefusal r)
    else match op with
      | .load => (seen.touchView a).peerAnswer (.value (BitVec.ofNat 64 old))
      | .store v => (s.writePhys a (bytesOfNat v.toNat n)).peerAnswer .ack
      | .atomic op b new => put ((peerAtomic op).apply n old b.toNat new.toNat) (.value (BitVec.ofNat 64 old))
      | .reduce op v => put ((peerAtomic op).apply n old v.toNat 0) .ack
      | .chunk pcore seq fmt rop len vals =>
        (match rcpyFmt fmt with
         | none => s.peerAnswer (peerRefusal r)
         | some f => s.peerChunk r.dev r.off.toNat (pcore, seq) f rop (vals.take len))
      | .confirm .. => s

/-- A request that a region change holds (R297). -/
def State.peerWaits (s : State) (r : PeerReq) : Bool :=
  !peerConfirms r && !s.unserved (peerAt r) (peerWr r) && s.formHeld (.phys (peerAt r))

/-- PEER_REQUEST: served at the home, as a host access is. One that a region change holds waits, and with it the later ones
of its device, which is one agent (R297, R375). -/
def execPeerRequest (r : PeerReq) (s : State) : Out :=
  .next (
    if s.peerWaits r || s.links.peerHeld.any fun x => x.dev == r.dev then
      s.modLinks fun l => { l with peerHeld := l.peerHeld ++ [r] }
    else s.peerDo r)

/-- A held request of a peer performs once nothing holds it. -/
def State.servePeers (s : State) : State :=
  match takeHeld (fun x => x.dev) s.peerWaits s.links.peerHeld [] with
  | some (r, rest) => (s.modLinks fun l => { l with peerHeld := rest }).peerDo r
  | none => s

/-- Requests from outside the module that a region change has held. -/
def State.serveHeld (s : State) : State := s.serveHost.servePeers

end Sys2Proof.Machine
end

