-- ==== Sys2Proof/Machine/Csr.lean ====
section
/-! DEFINITION. The CSR instructions (R176–R178, R194, R350). -/

namespace Sys2Proof.Machine

/-- The numbers a user-mode access may name: those marked U in R178, and for CSRR alone the PMCTR registers. -/
def csrUser (n : Nat) (write : Bool) : Bool :=
  n == 7 || n == 8 || n == 0x30 || decide (0x80 ≤ n ∧ n < 0x9A) || decide (0xA0 ≤ n ∧ n < 0xA3)
    || n == 0xA5 || n == 0xA6 || decide (0xA8 ≤ n ∧ n < 0xB8) || (!write && decide (0xD0 ≤ n ∧ n < 0xE0))

/-- PRIVILEGE for a number user mode may not name (R176), before the conditions of the operands. -/
def csrGuard (num : BitVec 12) (write : Bool) (s : State) (body : State → State) : State :=
  if s.user && !csrUser num.toNat write then s.trapNow cPrivilege 0 0 else body s

/-- The register read, and its old value pushed two cycles later (R174, R194). -/
def csrRead (d : BitVec 5) (num : BitVec 12) (t : State) : State := t.later d (t.csrGet t.p t.k num.toNat)

/-- A register changed to `f old A`, its old value pushed; the write takes effect as the word commits. -/
def csrChange (f : Word → Word → Word) (r : Csr) (s : State) : Out :=
  .next (csrGuard r.num true s fun s => scalar [src r.a r.pa] (some r.d) false s fun v t =>
    let old := t.csrGet t.p t.k r.num.toNat
    (t.csrPut t.p t.k r.num.toNat (f old (arg v 0)) all64).later r.d old)

def execCsrr (_sb : Bool) (d : BitVec 5) (num : BitVec 12) (s : State) : Out :=
  .next (csrGuard num false s fun s => scalar [] (some d) false s fun _ t => csrRead d num t)

def execCsrw (r : Csr) (s : State) : Out := csrChange (fun _ a => a) r s
def execCsrs (r : Csr) (s : State) : Out := csrChange (fun old a => old ||| a) r s
def execCsrc (r : Csr) (s : State) : Out := csrChange (fun old a => old &&& ~~~a) r s

end Sys2Proof.Machine
end

