-- ==== Sys2Proof/Machine/Perform.lean ====
section
/-! DEFINITION. A value reaches its queue-register entry, and a home acknowledges a store (R67, R98, R115–R117, R171, R371). -/

namespace Sys2Proof.Machine

/-- QREG_FILL: item `n` of what a context has issued fills its entry: a value of latency above one cycle, a load, or
an atomic's old value. During a freeze values are held (R67); an access to a frame whose form is changing waits (R297). -/
def execQregFill (p : CoreId) (k : Ctx) (n : Nat) (s : State) : Out :=
  .next (
    let pend := (s.ctx p k).pend
    match pend[n]? with
    | none => s
    | some i =>
      if s.stalled p || i.dst.isNone || s.itemHeld i || !mayPerform pend i || !s.itemGranted p k i then s
      else match s.performItem p k i with
        | some t => t.settle p
        | none => s)

/-- HOME_ACKNOWLEDGEMENT: the store that is item `n` performs at its home, a control register included, and the
releases and fences that waited for it alone are satisfied. -/
def execHomeAcknowledgement (p : CoreId) (k : Ctx) (n : Nat) (s : State) : Out :=
  .next (
    let pend := (s.ctx p k).pend
    match pend[n]? with
    | none => s
    | some i =>
      match i.kind with
      | .store _ l w v =>
        if s.itemHeld i || !mayPerform pend i || !s.itemGranted p k i then s
        else match s.performItem p k i with
          | some t => t.settle p
          | none =>
            match s.ctlOff l with
            | some o => if s.ctlHeld o w then s else ((s.dropPend p k i.id).ctlWrite o w v.toNat).settle p
            | none => s
      | _ => s)

end Sys2Proof.Machine
end

