-- ==== Sys2Proof/Machine/Dispatch.lean ====
section
/-! DEFINITION. The dispatch: one arm per instruction, each a direct call of its meaning. -/

namespace Sys2Proof.Machine

def exec (i : Instr) (s : State) : Host.Outcome State Fault Refusal :=
  match i with
  | .add r => Sys2Proof.Machine.execAdd r s
  | .sub r => Sys2Proof.Machine.execSub r s
  | .and r => Sys2Proof.Machine.execAnd r s
  | .or r => Sys2Proof.Machine.execOr r s
  | .xor r => Sys2Proof.Machine.execXor r s
  | .andn r => Sys2Proof.Machine.execAndn r s
  | .shl r => Sys2Proof.Machine.execShl r s
  | .shr r => Sys2Proof.Machine.execShr r s
  | .sra r => Sys2Proof.Machine.execSra r s
  | .rotr r => Sys2Proof.Machine.execRotr r s
  | .min r => Sys2Proof.Machine.execMin r s
  | .max r => Sys2Proof.Machine.execMax r s
  | .minu r => Sys2Proof.Machine.execMinu r s
  | .maxu r => Sys2Proof.Machine.execMaxu r s
  | .cmpeq r => Sys2Proof.Machine.execCmpeq r s
  | .cmpne r => Sys2Proof.Machine.execCmpne r s
  | .cmplt r => Sys2Proof.Machine.execCmplt r s
  | .cmpltu r => Sys2Proof.Machine.execCmpltu r s
  | .cmple r => Sys2Proof.Machine.execCmple r s
  | .cmpleu r => Sys2Proof.Machine.execCmpleu r s
  | .sel r => Sys2Proof.Machine.execSel r s
  | .clz r => Sys2Proof.Machine.execClz r s
  | .ctz r => Sys2Proof.Machine.execCtz r s
  | .popc r => Sys2Proof.Machine.execPopc r s
  | .sext r => Sys2Proof.Machine.execSext r s
  | .zext r => Sys2Proof.Machine.execZext r s
  | .mul r => Sys2Proof.Machine.execMul r s
  | .mulh r => Sys2Proof.Machine.execMulh r s
  | .mulhu r => Sys2Proof.Machine.execMulhu r s
  | .div r => Sys2Proof.Machine.execDiv r s
  | .divu r => Sys2Proof.Machine.execDivu r s
  | .rem r => Sys2Proof.Machine.execRem r s
  | .remu r => Sys2Proof.Machine.execRemu r s
  | .addi r => Sys2Proof.Machine.execAddi r s
  | .andi r => Sys2Proof.Machine.execAndi r s
  | .ori r => Sys2Proof.Machine.execOri r s
  | .xori r => Sys2Proof.Machine.execXori r s
  | .shli r => Sys2Proof.Machine.execShli r s
  | .shri r => Sys2Proof.Machine.execShri r s
  | .srai r => Sys2Proof.Machine.execSrai r s
  | .rotri r => Sys2Proof.Machine.execRotri r s
  | .cmpeqi r => Sys2Proof.Machine.execCmpeqi r s
  | .cmpnei r => Sys2Proof.Machine.execCmpnei r s
  | .cmplti r => Sys2Proof.Machine.execCmplti r s
  | .cmpltui r => Sys2Proof.Machine.execCmpltui r s
  | .lih r => Sys2Proof.Machine.execLih r s
  | .pcah r => Sys2Proof.Machine.execPcah r s
  | .qcnt r => Sys2Proof.Machine.execQcnt r s
  | .qclr r => Sys2Proof.Machine.execQclr r s
  | .dup r => Sys2Proof.Machine.execDup r s
  | .drop r => Sys2Proof.Machine.execDrop r s
  | .movq r => Sys2Proof.Machine.execMovq r s
  | .lds r => Sys2Proof.Machine.execLds r s
  | .ldz r => Sys2Proof.Machine.execLdz r s
  | .st r => Sys2Proof.Machine.execSt r s
  | .aadd r => Sys2Proof.Machine.execAadd r s
  | .aand r => Sys2Proof.Machine.execAand r s
  | .aor r => Sys2Proof.Machine.execAor r s
  | .axor r => Sys2Proof.Machine.execAxor r s
  | .amin r => Sys2Proof.Machine.execAmin r s
  | .amax r => Sys2Proof.Machine.execAmax r s
  | .aminu r => Sys2Proof.Machine.execAminu r s
  | .amaxu r => Sys2Proof.Machine.execAmaxu r s
  | .aswap r => Sys2Proof.Machine.execAswap r s
  | .acas r => Sys2Proof.Machine.execAcas r s
  | .radd r => Sys2Proof.Machine.execRadd r s
  | .rand r => Sys2Proof.Machine.execRand r s
  | .ror r => Sys2Proof.Machine.execRor r s
  | .rxor r => Sys2Proof.Machine.execRxor r s
  | .rmin r => Sys2Proof.Machine.execRmin r s
  | .rmax r => Sys2Proof.Machine.execRmax r s
  | .rminu r => Sys2Proof.Machine.execRminu r s
  | .rmaxu r => Sys2Proof.Machine.execRmaxu r s
  | .rfadd r => Sys2Proof.Machine.execRfadd r s
  | .fence sb mask => Sys2Proof.Machine.execFence sb mask s
  | .acq r => Sys2Proof.Machine.execAcq r s
  | .rel r => Sys2Proof.Machine.execRel r s
  | .acqrel r => Sys2Proof.Machine.execAcqrel r s
  | .waitge r => Sys2Proof.Machine.execWaitge r s
  | .waitne r => Sys2Proof.Machine.execWaitne r s
  | .monclr r => Sys2Proof.Machine.execMonclr r s
  | .beq r => Sys2Proof.Machine.execBeq r s
  | .bne r => Sys2Proof.Machine.execBne r s
  | .blt r => Sys2Proof.Machine.execBlt r s
  | .bge r => Sys2Proof.Machine.execBge r s
  | .bltu r => Sys2Proof.Machine.execBltu r s
  | .bgeu r => Sys2Proof.Machine.execBgeu r s
  | .j sb off => Sys2Proof.Machine.execJ sb off s
  | .jal r => Sys2Proof.Machine.execJal r s
  | .jalr r => Sys2Proof.Machine.execJalr r s
  | .csrr sb d num => Sys2Proof.Machine.execCsrr sb d num s
  | .csrw r => Sys2Proof.Machine.execCsrw r s
  | .csrs r => Sys2Proof.Machine.execCsrs r s
  | .csrc r => Sys2Proof.Machine.execCsrc r s
  | .trap sb n => Sys2Proof.Machine.execTrap sb n s
  | .sysret sb => Sys2Proof.Machine.execSysret sb s
  | .idle sb => Sys2Proof.Machine.execIdle sb s
  | .brk sb n => Sys2Proof.Machine.execBrk sb n s
  | .stepover sb => Sys2Proof.Machine.execStepover sb s
  | .trapWord w => Sys2Proof.Machine.execTrapWord w s
  | .spawn r => Sys2Proof.Machine.execSpawn r s
  | .epush r => Sys2Proof.Machine.execEpush r s
  | .echain r => Sys2Proof.Machine.execEchain r s
  | .etail r => Sys2Proof.Machine.execEtail r s
  | .eseq sb e d => Sys2Proof.Machine.execEseq sb e d s
  | .xcmd r => Sys2Proof.Machine.execXcmd r s
  | .mcfg r => Sys2Proof.Machine.execMcfg r s
  | .tnext sb d => Sys2Proof.Machine.execTnext sb d s
  | .tdone sb => Sys2Proof.Machine.execTdone sb s
  | .tyield sb => Sys2Proof.Machine.execTyield sb s
  | .iinv r => Sys2Proof.Machine.execIinv r s
  | .tinv r => Sys2Proof.Machine.execTinv r s
  | .l1inv r => Sys2Proof.Machine.execL1inv r s
  | .pref r => Sys2Proof.Machine.execPref r s
  | .qregFill p k n => Sys2Proof.Machine.execQregFill p k n s
  | .waitWake p k => Sys2Proof.Machine.execWaitWake p k s
  | .monitorPoll p k => Sys2Proof.Machine.execMonitorPoll p k s
  | .combiningFlush p n => Sys2Proof.Machine.execCombiningFlush p n s
  | .cpy h c => Sys2Proof.Machine.execCpy h c s
  | .cpyn h c => Sys2Proof.Machine.execCpyn h c s
  | .gath h c => Sys2Proof.Machine.execGath h c s
  | .scat h c => Sys2Proof.Machine.execScat h c s
  | .rcpy h c => Sys2Proof.Machine.execRcpy h c s
  | .fill h c => Sys2Proof.Machine.execFill h c s
  | .prefCmd h c => Sys2Proof.Machine.execPrefCmd h c s
  | .cpyp h c => Sys2Proof.Machine.execCpyp h c s
  | .psub h c => Sys2Proof.Machine.execPsub h c s
  | .puns h strm => Sys2Proof.Machine.execPuns h strm s
  | .chunkApply p seq => Sys2Proof.Machine.execChunkApply p seq s
  | .chunkResend p seq => Sys2Proof.Machine.execChunkResend p seq s
  | .qinit h desc => Sys2Proof.Machine.execQinit h desc s
  | .qacq h desc resa => Sys2Proof.Machine.execQacq h desc resa s
  | .qrel h desc slot => Sys2Proof.Machine.execQrel h desc slot s
  | .qres h desc resa nw => Sys2Proof.Machine.execQres h desc resa nw s
  | .qcom h desc slot => Sys2Proof.Machine.execQcom h desc slot s
  | .qstat h desc resa => Sys2Proof.Machine.execQstat h desc resa s
  | .clampRefill b n => Sys2Proof.Machine.execClampRefill b n s
  | .csig h ctr inc => Sys2Proof.Machine.execCsig h ctr inc s
  | .cwait h ctr target => Sys2Proof.Machine.execCwait h ctr target s
  | .cseq h addr val => Sys2Proof.Machine.execCseq h addr val s
  | .cnop h => Sys2Proof.Machine.execCnop h s
  | .clink h next => Sys2Proof.Machine.execClink h next s
  | .cloop h rep => Sys2Proof.Machine.execCloop h rep s
  | .cend h => Sys2Proof.Machine.execCend h s
  | .launch h q reca => Sys2Proof.Machine.execLaunch h q reca s
  | .tokenPush p n => Sys2Proof.Machine.execTokenPush p n s
  | .counterAdd p n => Sys2Proof.Machine.execCounterAdd p n s
  | .chainBlockFetch p e => Sys2Proof.Machine.execChainBlockFetch p e s
  | .sequenceAdvance p e => Sys2Proof.Machine.execSequenceAdvance p e s
  | .podRowDelivery bay strm => Sys2Proof.Machine.execPodRowDelivery bay strm s
  | .mfmt h f => Sys2Proof.Machine.execMfmt h f s
  | .mnest h kstep nlev => Sys2Proof.Machine.execMnest h kstep nlev s
  | .mgo h c => Sys2Proof.Machine.execMgo h c s
  | .mbld h c => Sys2Proof.Machine.execMbld h c s
  | .mzero h qm => Sys2Proof.Machine.execMzero h qm s
  | .mhad h c => Sys2Proof.Machine.execMhad h c s
  | .mdrn h c => Sys2Proof.Machine.execMdrn h c s
  | .meStep p => Sys2Proof.Machine.execMeStep p s
  | .bBlockLoad p => Sys2Proof.Machine.execBBlockLoad p s
  | .vrun h c => Sys2Proof.Machine.execVrun h c s
  | .vstop h imm => Sys2Proof.Machine.execVstop h imm s
  | .vbase h n base => Sys2Proof.Machine.execVbase h n base s
  | .vsdesc h n d => Sys2Proof.Machine.execVsdesc h n d s
  | .bundleIssue p => Sys2Proof.Machine.execBundleIssue p s
  | .cutDrain p => Sys2Proof.Machine.execCutDrain p s
  | .walkRequest p q => Sys2Proof.Machine.execWalkRequest p q s
  | .vectorLanding p q => Sys2Proof.Machine.execVectorLanding p q s
  | .windowClose p n => Sys2Proof.Machine.execWindowClose p n s
  | .writeWalkWrite p q => Sys2Proof.Machine.execWriteWalkWrite p q s
  | .inj o => Sys2Proof.Machine.execInj o s
  | .drn o => Sys2Proof.Machine.execDrn o s
  | .srd o => Sys2Proof.Machine.execSrd o s
  | .swr o => Sys2Proof.Machine.execSwr o s
  | .time o => Sys2Proof.Machine.execTime o s
  | .jmpt eob tgt => Sys2Proof.Machine.execJmpt eob tgt s
  | .loopt o => Sys2Proof.Machine.execLoopt o s
  | .halt eob => Sys2Proof.Machine.execHalt eob s
  | .vadd o => Sys2Proof.Machine.execVadd o s
  | .vsub o => Sys2Proof.Machine.execVsub o s
  | .vmul o => Sys2Proof.Machine.execVmul o s
  | .vfma o => Sys2Proof.Machine.execVfma o s
  | .vmin o => Sys2Proof.Machine.execVmin o s
  | .vmax o => Sys2Proof.Machine.execVmax o s
  | .vabs o => Sys2Proof.Machine.execVabs o s
  | .vneg o => Sys2Proof.Machine.execVneg o s
  | .vand o => Sys2Proof.Machine.execVand o s
  | .vor o => Sys2Proof.Machine.execVor o s
  | .vxor o => Sys2Proof.Machine.execVxor o s
  | .vnot o => Sys2Proof.Machine.execVnot o s
  | .vshl o => Sys2Proof.Machine.execVshl o s
  | .vshr o => Sys2Proof.Machine.execVshr o s
  | .vsra o => Sys2Proof.Machine.execVsra o s
  | .vcmp o => Sys2Proof.Machine.execVcmp o s
  | .vsel o => Sys2Proof.Machine.execVsel o s
  | .vcvt o => Sys2Proof.Machine.execVcvt o s
  | .vdot4 o => Sys2Proof.Machine.execVdot4 o s
  | .vredadd o => Sys2Proof.Machine.execVredadd o s
  | .vredmax o => Sys2Proof.Machine.execVredmax o s
  | .vredmin o => Sys2Proof.Machine.execVredmin o s
  | .vexp2 o => Sys2Proof.Machine.execVexp2 o s
  | .vlog2 o => Sys2Proof.Machine.execVlog2 o s
  | .vrcp o => Sys2Proof.Machine.execVrcp o s
  | .vrsq o => Sys2Proof.Machine.execVrsq o s
  | .vperm o => Sys2Proof.Machine.execVperm o s
  | .vbcast o => Sys2Proof.Machine.execVbcast o s
  | .vrotm o => Sys2Proof.Machine.execVrotm o s
  | .vpln o => Sys2Proof.Machine.execVpln o s
  | .vunpl o => Sys2Proof.Machine.execVunpl o s
  | .vscale o => Sys2Proof.Machine.execVscale o s
  | .vqmx o => Sys2Proof.Machine.execVqmx o s
  | .vmovs o => Sys2Proof.Machine.execVmovs o s
  | .vldi o => Sys2Proof.Machine.execVldi o s
  | .vmask o => Sys2Proof.Machine.execVmask o s
  | .fcopy h f s1 => Sys2Proof.Machine.execFcopy h f s1 s
  | .ffill h f ones => Sys2Proof.Machine.execFfill h f ones s
  | .fand h f s1 s2 => Sys2Proof.Machine.execFand h f s1 s2 s
  | .forRow h f s1 s2 => Sys2Proof.Machine.execForRow h f s1 s2 s
  | .fxor h f s1 s2 => Sys2Proof.Machine.execFxor h f s1 s2 s
  | .fnot h f s1 => Sys2Proof.Machine.execFnot h f s1 s
  | .fmaj h f s1 s2 s3 => Sys2Proof.Machine.execFmaj h f s1 s2 s3 s
  | .fqry h c => Sys2Proof.Machine.execFqry h c s
  | .lqtail q v => Sys2Proof.Machine.execLqtail q v s
  | .gangPlacement => Sys2Proof.Machine.execGangPlacement s
  | .spawnDelivery b n => Sys2Proof.Machine.execSpawnDelivery b n s
  | .balancerInterval n => Sys2Proof.Machine.execBalancerInterval n s
  | .stageSwitch p => Sys2Proof.Machine.execStageSwitch p s
  | .watchdogPreempt q => Sys2Proof.Machine.execWatchdogPreempt q s
  | .watchdogKill q => Sys2Proof.Machine.execWatchdogKill q s
  | .watchdogFence q => Sys2Proof.Machine.execWatchdogFence q s
  | .correctableError b core => Sys2Proof.Machine.execCorrectableError b core s
  | .eccFreezeEnd p => Sys2Proof.Machine.execEccFreezeEnd p s
  | .uncorrectableError e => Sys2Proof.Machine.execUncorrectableError e s
  | .faultRecordRelease b => Sys2Proof.Machine.execFaultRecordRelease b s
  | .faultReplay ticket => Sys2Proof.Machine.execFaultReplay ticket s
  | .faultAbort ticket => Sys2Proof.Machine.execFaultAbort ticket s
  | .preEmpt => Sys2Proof.Machine.execPreEmpt s
  | .saveComplete => Sys2Proof.Machine.execSaveComplete s
  | .restore => Sys2Proof.Machine.execRestore s
  | .restorePlacement => Sys2Proof.Machine.execRestorePlacement s
  | .kill => Sys2Proof.Machine.execKill s
  | .trinv v => Sys2Proof.Machine.execTrinv v s
  | .trinvComplete => Sys2Proof.Machine.execTrinvComplete s
  | .trroot v => Sys2Proof.Machine.execTrroot v s
  | .l1Fusion bay => Sys2Proof.Machine.execL1Fusion bay s
  | .formatRegionWrite b k r reg v => Sys2Proof.Machine.execFormatRegionWrite b k r reg v s
  | .vtctlInv p v => Sys2Proof.Machine.execVtctlInv p v s
  | .fwcc b k v => Sys2Proof.Machine.execFwcc b k v s
  | .regionChange b k => Sys2Proof.Machine.execRegionChange b k s
  | .launchQueueReset v => Sys2Proof.Machine.execLaunchQueueReset v s
  | .icinv v => Sys2Proof.Machine.execIcinv v s
  | .icbusyClear => Sys2Proof.Machine.execIcbusyClear s
  | .traceSessionOpen v => Sys2Proof.Machine.execTraceSessionOpen v s
  | .traceSessionClose v => Sys2Proof.Machine.execTraceSessionClose v s
  | .traceFlush b => Sys2Proof.Machine.execTraceFlush b s
  | .pmctrWrap p n => Sys2Proof.Machine.execPmctrWrap p n s
  | .veRelease p v => Sys2Proof.Machine.execVeRelease p v s
  | .clklockLock v => Sys2Proof.Machine.execClklockLock v s
  | .clklockUnlock v => Sys2Proof.Machine.execClklockUnlock v s
  | .opptRequest v => Sys2Proof.Machine.execOpptRequest v s
  | .operatingPointChange => Sys2Proof.Machine.execOperatingPointChange s
  | .operatingPointChangeEnd => Sys2Proof.Machine.execOperatingPointChangeEnd s
  | .sensorSample r => Sys2Proof.Machine.execSensorSample r s
  | .capStep => Sys2Proof.Machine.execCapStep s
  | .capRelax => Sys2Proof.Machine.execCapRelax s
  | .currentLimit b => Sys2Proof.Machine.execCurrentLimit b s
  | .emergencyEnd => Sys2Proof.Machine.execEmergencyEnd s
  | .coreReset b v => Sys2Proof.Machine.execCoreReset b v s
  | .coreMarchTest p r => Sys2Proof.Machine.execCoreMarchTest p r s
  | .repairEntry b e v => Sys2Proof.Machine.execRepairEntry b e v s
  | .hostPoolWrite reg v => Sys2Proof.Machine.execHostPoolWrite reg v s
  | .registerWrite off n v => Sys2Proof.Machine.execRegisterWrite off n v s
  | .coldReset => Sys2Proof.Machine.execColdReset s
  | .powerGood => Sys2Proof.Machine.execPowerGood s
  | .firmwareVerify f => Sys2Proof.Machine.execFirmwareVerify f s
  | .bentPowerUp b => Sys2Proof.Machine.execBentPowerUp b s
  | .stackTrainingEnd b => Sys2Proof.Machine.execStackTrainingEnd b s
  | .marchTestEnd b r => Sys2Proof.Machine.execMarchTestEnd b r s
  | .hostLinkTrained j cxl => Sys2Proof.Machine.execHostLinkTrained j cxl s
  | .hostAccess r => Sys2Proof.Machine.execHostAccess r s
  | .getVersion => Sys2Proof.Machine.execGetVersion s
  | .getCapabilities req => Sys2Proof.Machine.execGetCapabilities req s
  | .negotiateAlgorithms req => Sys2Proof.Machine.execNegotiateAlgorithms req s
  | .getDigests => Sys2Proof.Machine.execGetDigests s
  | .getCertificate slot off len => Sys2Proof.Machine.execGetCertificate slot off len s
  | .challenge req => Sys2Proof.Machine.execChallenge req s
  | .getMeasurements req => Sys2Proof.Machine.execGetMeasurements req s
  | .sessionRequest req => Sys2Proof.Machine.execSessionRequest req s
  | .scarfFlit n flit => Sys2Proof.Machine.execScarfFlit n flit s
  | .linkRetrain n => Sys2Proof.Machine.execLinkRetrain n s
  | .linkDown n => Sys2Proof.Machine.execLinkDown n s
  | .peerRequest r => Sys2Proof.Machine.execPeerRequest r s
  | .retrainEnd n good => Sys2Proof.Machine.execRetrainEnd n good s
  | .hostLinkDown j => Sys2Proof.Machine.execHostLinkDown j s
  | .chunkAcknowledgement p seq => Sys2Proof.Machine.execChunkAcknowledgement p seq s
  | .acknowledgementConfirmation p seq => Sys2Proof.Machine.execAcknowledgementConfirmation p seq s
  | .homeAcknowledgement p k n => Sys2Proof.Machine.execHomeAcknowledgement p k n s
  | .cxlCacheRequest addr wr => Sys2Proof.Machine.execCxlCacheRequest addr wr s

end Sys2Proof.Machine
end

