-- ==== Sys2Proof/Machine/Fetch.lean ====
section
/-! DEFINITION. What an agent's turn does around an instruction: fetching a scalar word through the instruction
caches (R102–R104, R131, R192, R202, R354), safe points (R133, R351, R352, R357), shadow words (R195, R353), the head
of a command queue (R137–R139, R203, R210, R242, R269), and which agent acts next (log 1). -/

namespace Sys2Proof.Machine

/-! ### Instruction fetch -/

/-- The place of the word at a context's pc, whose bits 1:0 are ignored, or the code it faults with. -/
def State.fetchAt (s : State) (p : CoreId) (k : Ctx) : Except (Byte × Byte) Loc :=
  let x := s.ctx p k
  match s.translate p (x.pc &&& ~~~3#64) .fetch (!x.supMode) with
  | .error e => .error (xerrCode .fetch e)
  | .ok l => .ok (l.align 4)

/-- The word at byte `o` of a line. -/
def lineWord (v : Vec) (o : Nat) : W32 := v.extractLsb' (8 * o) 32

/-- At most `n` lines, the newest first. -/
def keepLine (n : Nat) (x : L1Line) (l : List L1Line) : List L1Line := (x :: dropLine x.line l).take n

/-- A line as an instruction cache holds it, if it has not been lost (log 6). -/
def State.icFind (s : State) (salt : Nat) (l : List L1Line) (line : Nat) : Option Vec :=
  match findLine l line with
  | some v => if Config.icLost s.sched.tick (2 * line + salt) then none else some v
  | none => none

/-- The word at a place, from the core's instruction cache, then the bent's, then its home; a control register is
read where it is. -/
def State.fetchWord (s : State) (p : CoreId) (l : Loc) : W32 × State :=
  match l with
  | .spad o => (BitVec.ofNat 32 (s.readLoc p (.spad o) 4), s)
  | .phys a =>
    if (s.ctlOff l).isSome then (BitVec.ofNat 32 (s.readAny a 4), s)
    else
      let line := a / 128 * 128
      match s.icFind 0 (s.core p).icache line with
      | some v => (lineWord v (a % 128), s)
      | none =>
        let keep := fun (t : State) (v : Vec) =>
          let x : L1Line := { line := line, data := v }
          (t.modCore p fun c => { c with icache := keepLine 256 x c.icache }).modBent (bentOf p) fun b =>
            { b with icache := keepLine 8192 x b.icache }
        match s.icFind 1 (s.bent (bentOf p)).icache line with
        | some v => (lineWord v (a % 128), keep s v)
        | none =>
          let v := toVec (s.readPhys line 128)
          (lineWord v (a % 128), (keep s v).used p (.phys line) 128)

/-! ### A context's turn -/

/-- Whether a context issues: it is running, and neither a freeze nor a stop holds its core, nor a change of mode its bay:
the hold of R110 takes in every word, not L1 accesses alone (log 19). -/
def State.mayIssue (s : State) (p : CoreId) (k : Ctx) : Bool :=
  (s.ctx p k).run == .issuing && !s.stalled p && !s.halted p && !(s.core p).fenced && !s.fuseHeld (bayOf p)

/-- The current agent. -/
def State.as (s : State) (p : CoreId) (k : Ctx) (w : W32) : State :=
  s.modSched fun x => { x with core := p, ctx := k, word := w }

/-- A scalar word runs: no encoding is ILLEGAL_OP (check 4 of R131), else its meaning. -/
def State.runWord (s : State) (w : W32) : Out :=
  match decodeScalar w with
  | none => .next (s.trapNow cIllegalOp 0 0)
  | some i => exec i s

def isBrk (w : W32) : Option (BitVec 8) :=
  match decodeScalar w with
  | some (.brk _ n) => some n
  | _ => none

/-- A shadow word in a BRK's place; one that is itself a BRK is illegal (R195). -/
def State.runShadow (s : State) (w : W32) : Out :=
  let t := s.modSched fun x => { x with word := w }
  if (isBrk w).isSome then .next (t.trapNow cIllegalOp 0 0) else t.runWord w

/-- The sample that wraps have asked for, at CP's safe point (R357). -/
def State.takeSample (s : State) (x : Nat × Nat × Nat) : State :=
  let d := (s.core s.p).dbg
  if s.k = .cp ∧ d.sample ≠ 0 then
    (s.safeRecord s.p 2 3 1 x [at_ d.sample.toNat 0]).modDbg s.p fun d => { d with sample := 0 }
  else s

/-- The STOPREQ bit of the current context. -/
def State.stopReq (s : State) : Bool := (s.core s.p).dbg.dbgctl.getLsbD s.k.idx.val

/-- A stop at a safe point: BREAKPOINT with TVAL = 0x100, the request cleared, one STOP record (R352). -/
def State.takeStop (s : State) (x : Nat × Nat × Nat) : State :=
  ((s.safeRecord s.p 6 3 s.k.idx.val x []).modDbg s.p fun d =>
    { d with dbgctl := setBit d.dbgctl s.k.idx.val false }).trapNow cBreakpoint 0 0x100

/-- The safe point at the current word, looked up only where the word has S = 1 and something asks (R351, R352). -/
def State.safeHere (s : State) : Option (Nat × Nat × Nat) :=
  if s.sched.word.getLsbD 31 && (s.stopReq || (s.k == .cp && (s.core s.p).dbg.sample != 0)) then s.findSafe s.me!.pc
  else none

/-- A word past its safe point: where a step-over is armed, a BRK gives way to its shadow word (R195). -/
def State.stepWord (s : State) (w : W32) : Out :=
  match s.me!.stepOver, isBrk w with
  | true, some n =>
    match s.shadowWord n with
    | some v => s.runShadow v
    | none => s.runWord w
  | _, _ => s.runWord w

/-- A fetched word: its safe point, then the word. -/
def State.issueWord (s : State) : Out :=
  let w := s.sched.word
  match s.safeHere with
  | some x =>
    let t := s.takeSample x
    if t.stopReq then .next (t.takeStop x) else t.stepWord w
  | none => s.stepWord w

/-- A word of the current context: a shadow word in hand, or the word fetched. A failing fetch traps (R131); one that a
region change holds waits (R297). -/
def State.contextWord (s : State) (p : CoreId) (k : Ctx) : Out :=
  match (s.ctx p k).shadow with
  | some w => (s.as p k w).runShadow w
  | none =>
    match s.fetchAt p k with
    | .error (code, aux) =>
      .next (if code = cHeld then s else ((s.noteFail p (s.ctx p k).pc).as p k 0).trapNow code aux (s.ctx p k).pc)
    | .ok l =>
      if s.formHeld l then .next s
      else
        let (w, t) := (s.note p (s.ctx p k).pc).fetchWord p l
        (t.as p k w).issueWord

/-- A context that would stop with a record no unit can take holds in place (R313). -/
def holdIfFull (s : State) (p : CoreId) (k : Ctx) (o : Out) : Out :=
  match o with
  | .next t =>
    if (t.ctx p k).run == .stopped && !s.faultRoom (bentOf p) then .next (s.modCtx p k fun x => { x with blocked := true })
    else .next t
  | x => x

/-- One word of a context, where it issues. -/
def State.contextTurn (s : State) (p : CoreId) (k : Ctx) : Out :=
  if s.mayIssue p k then holdIfFull s p k (s.contextWord p k) else .next s

/-! ### An endpoint's turn -/

/-- The command at an endpoint's queue head: its header is checked (R139), then it decodes and acts. -/
def State.headCommand (s : State) (p : CoreId) (e : Ep) (q : QCmd) : Out :=
  match headerCheck (headerOf q.words) { ep := e, x := false } with
  | some code => .next (s.headFault p e code 0 0)
  | none =>
    match decodeCmd q.words with
    | none => .next (s.headFault p e cIllegalCmd 0 0)
    | some i => exec i (s.modSched fun x => { x with core := p, ep := e })

/-- One attempt at an endpoint's queue head; a parked head waits for its ticket (R391). -/
def State.tryHead (s : State) (p : CoreId) (e : Ep) : Out :=
  match s.head? p e with
  | none => .next s
  | some q => if q.ticket.isSome then .next s else s.headCommand p e q

/-- The started commands of an endpoint that wait, each as far as it may now go on (R212, R303, R313). -/
def State.goOn (s : State) (p : CoreId) (e : Ep) : State :=
  ((s.core p).flights.filter fun f => f.ep == e && f.waiting).foldl (fun t f =>
    match (t.core p).flight? f.ord with
    | some g => if g.waiting && !t.behind p g then t.resumeWaiting p g else t
    | none => t) s

/-- The queue the CE offers a turn to first: the one it did not start from last (R210). -/
def Core.offered (c : Core) : Ep := if c.lastCe = .s then .l else .s
def otherCe (e : Ep) : Ep := if e = .s then .l else .s

/-- The CE's turn: the offered queue, then, where it starts nothing, the other one (R210). -/
def State.ceTurn (s : State) (p : CoreId) : Out :=
  let e := (s.core p).offered
  match s.tryHead p e with
  | .next t => if (t.core p).nextOrd = (s.core p).nextOrd then t.tryHead p (otherCe e) else .next t
  | x => x

/-- An endpoint's turn: what waits goes on, then one attempt at its queue's head. L and S take theirs together, as the CE.
A region change holds the engines' accesses (R297). -/
def State.engineTurn (s : State) (p : CoreId) (e : Ep) : Out :=
  if s.stalled p || s.halted p || (s.core p).fenced || s.changing then .next s
  else match e with
    | .l | .s => ((s.goOn p .l).goOn p .s).ceTurn p
    | .m => (s.goOn p .m).tryHead p .m
    | .v => (s.goOn p .v).tryHead p .v

/-! ### Which agent acts (log 1) -/

def ctxOfNat (n : Nat) : Ctx := if n % 3 = 0 then .ld else if n % 3 = 1 then .cp else .st
def epOfNat (n : Nat) : Ep := Ep.ofCode (BitVec.ofNat 2 n)

/-- An event of the module's own units, by number; what it names is in `n`. Each acts only where it may. -/
def State.unitTurn (s : State) (c n : Nat) : Out :=
  let p := coreOfNat n
  let m := n / 256
  let b := bentOfNat n
  match c with
  | 0 => execQregFill p (ctxOfNat m) (m / 3) s
  | 1 => execHomeAcknowledgement p (ctxOfNat m) (m / 3) s
  | 2 => execWaitWake p (ctxOfNat m) s
  | 3 => execMonitorPoll p (ctxOfNat m) s
  | 4 => execCombiningFlush p m s
  | 5 => execChunkApply p (BitVec.ofNat 32 m) s
  | 6 => execChunkResend p (BitVec.ofNat 32 m) s
  | 7 => execChunkAcknowledgement p (BitVec.ofNat 32 m) s
  | 8 => execAcknowledgementConfirmation p (BitVec.ofNat 32 m) s
  | 9 => execClampRefill b (n / 16) s
  | 10 => execTokenPush p m s
  | 11 => execCounterAdd p m s
  | 12 => execChainBlockFetch p (epOfNat m) s
  | 13 => execSequenceAdvance p (epOfNat m) s
  | 14 => execPodRowDelivery (bayOf p) (BitVec.ofNat 4 m) s
  | 15 => execMeStep p s
  | 16 => execBBlockLoad p s
  | 17 => execBundleIssue p s
  | 18 => execCutDrain p s
  | 19 => execWalkRequest p ⟨m % 8, by omega⟩ s
  | 20 => execVectorLanding p ⟨m % 8, by omega⟩ s
  | 21 => execWriteWalkWrite p ⟨m % 4, by omega⟩ s
  | 22 => execWindowClose p (BitVec.ofNat 4 m) s
  | 23 => execGangPlacement s
  | 24 => execSpawnDelivery b (n / 16) s
  | 25 => execBalancerInterval n s
  | 26 => execStageSwitch p s
  | 27 => execWatchdogPreempt (BitVec.ofNat 6 n) s
  | 28 => execWatchdogKill (BitVec.ofNat 6 n) s
  | 29 => execWatchdogFence (BitVec.ofNat 6 n) s
  | 30 => execEccFreezeEnd p s
  | 31 => execFaultRecordRelease b s
  | 32 => execPreEmpt s
  | 33 => execSaveComplete s
  | 34 => execRestore s
  | 35 => execRestorePlacement s
  | 36 => execKill s
  | 37 => execTrinvComplete s
  | 38 => execL1Fusion (bayOf p) s
  | 39 => execRegionChange b ⟨n / 16 % 2, by omega⟩ s
  | 40 => execIcbusyClear s
  | 41 => execTraceFlush b s
  | 42 => execPmctrWrap p (BitVec.ofNat 4 m) s
  | 43 => execOperatingPointChange s
  | 44 => execOperatingPointChangeEnd s
  | 45 => execCapStep s
  | 46 => execCapRelax s
  | 47 => execCurrentLimit b s
  | 48 => execEmergencyEnd s
  | 49 => execBentPowerUp b s
  | 50 => .next (s.rowTurn (n % 32) (n / 32))
  | 51 => .next s.serveHeld
  | _ => execStackTrainingEnd b s

/-- The agent a number names acts: a context, an endpoint or a unit. -/
def State.autoTurn (s : State) (n : Nat) : Out :=
  let m := n / 3
  if n % 3 = 0 then s.contextTurn (coreOfNat m) (ctxOfNat (m / 256))
  else if n % 3 = 1 then s.engineTurn (coreOfNat m) (epOfNat (m / 256))
  else s.unitTurn (m % 53) (m / 53)

def Turn.isColdReset (t : Turn) : Bool :=
  match t with
  | .event .coldReset => true
  | _ => false

/-- The turn of the agent an input names. -/
def State.act (s : State) (t : Turn) : Out :=
  match t with
  | .context p k => s.contextTurn p k
  | .engine p e => s.engineTurn p e
  | .event i => exec i s
  | .barSize log => .next (s.setBar log)
  | .resendAsked n first run => .next (s.resendAsked n first run)

/-- Once a trip has switched the rails off, only a cold reset acts (R387). -/
def State.powered (s : State) (body : Out) : Out := if s.clock.tripped then .fault .poweredOff else body

def mapNext (f : State → State) (o : Out) : Out :=
  match o with
  | .next t => .next (f t)
  | .fault r => .fault r
  | .refused r => .refused r

/-- The next agent's turn: the head of the inputs, taken, or with none the agent `Config.schedule` names; lines with bad
check bits that it read raise their errors (R319). -/
def State.turn (s : State) : Out :=
  match s.sched.inputs with
  | t :: rest =>
    let u := s.modSched fun x => { x with inputs := rest }
    mapNext u.settleMet (if t.isColdReset then u.act t else u.powered (u.act t))
  | [] => mapNext s.settleMet (s.powered (s.autoTurn (Config.schedule s.sched.tick)))

/-- Time that passes with a step (log 5). -/
def State.tickClock (s : State) : State :=
  s.modSched fun x =>
    { x with cycle := x.cycle + Config.dCycle x.tick, nanos := x.nanos + Config.dNanos x.tick, tick := x.tick + 1 }

/-! ### Placing one instruction for the next step (log 1) -/

/-- Core 0, running and held by nothing, its command processor's unit `f` set up, and `u` the next agent. -/
def State.ready0 (s : State) (u : Turn) (f : Core → Core) : State :=
  ((((s.modCore 0 fun c => f { c with saving := false, testing := false, fenced := false, eccUntil := none, fuse := false }).modClock
    fun c => { c with busy := none, tripped := false }).modBay 0 fun y => { y with unfusing := false }).mapBents fun b =>
    { b with ctl := vmap (fun c => { c with chg := none }) b.ctl }).modSched fun x => { x with inputs := u :: x.inputs }

/-- A scalar word at the start of core 0's scratchpad, where its CP fetches next. -/
def State.placeScalar (s : State) (w : W32) : State :=
  s.ready0 (.context 0 .cp) fun c =>
    ({ c with scratch := c.scratch.write 0 (bytesOfNat w.toNat 4),
              dbg := { c.dbg with dbgctl := setBit c.dbg.dbgctl 1 false, sample := 0 } }).setCtx .cp
      { c.getCtx .cp with pc := BitVec.ofNat 64 spadBase, run := .issuing, shadow := none, stepOver := false, wait := none }

/-- The endpoint a command is placed at: one that accepts its class (R137). -/
def placeEp (opc : Nat) : Ep :=
  match cmdClass opc with
  | some .matrix => .m
  | some .vector => .v
  | _ => .l

/-- A command at the head of its endpoint's queue, with nothing before it in flight; a chain command as one that a
chain brought (R207). -/
def State.placeCommand (s : State) (ws : List W32) : State :=
  let e := placeEp (opcOf ws)
  let chain := decide (0x39 ≤ opcOf ws ∧ opcOf ws ≤ 0x3B)
  s.ready0 (.engine 0 e) fun c =>
    ({ c with lastCe := .s, flights := c.flights.filter fun f => f.ep != e && !f.waiting }).modEng e fun g =>
      { g with q := { words := ws, pc := 0, chain := chain, blk := 0, dup := false, ticket := none } :: g.q }

/-- A micro-order as the bundle that is due, closed by a jump to the next step, or after a control order by a TIME
order, where its own EOB bit is clear. -/
def State.placeOrder (s : State) (w : W32) (i : Instr) : State :=
  let close : Instr := if isControl i then .time { eob := true, c := 1, k := 0, sym := 0, cut := false } else .jmpt true 2
  let ws := if w.getLsbD 31 then [w] else w :: encode close
  s.ready0 (.event (.bundleIssue 0)) fun c =>
    { c with ve := { c.ve with table := ws, step := 0, due := c.ve.counter, cutw := false, held := false, stopr := none,
                               ending := none,
                               run := some { ord := c.nextOrd, cls := 0, img := 0, len := 1, first := true } } }

/-- The instruction whose bits are `w` placed where the next step runs it. -/
def State.placeWord (s : State) (nbits w : Nat) : State :=
  let x := BitVec.ofNat 32 w
  match decodeTableWord nbits w with
  | none => s.placeScalar x
  | some i =>
    match wordKind i with
    | .scalar | .event => s.placeScalar x
    | .command => s.placeCommand (x :: List.replicate (H.xwc x) 0)
    | .order => s.placeOrder x i

end Sys2Proof.Machine
end

