-- ==== Sys2Proof/Machine/Step.lean ====
section
/-! DEFINITION. One step of the module: the next agent's turn, then the time it took. -/

namespace Sys2Proof.Machine

/-- One step: the next agent acts (R35, log 1), and time passes (log 5). -/
def step (s : State) : Host.Outcome State Fault Refusal := mapNext State.tickClock s.turn

/-- `s` with the instruction whose bits are `w` placed so that the very next step runs it. -/
def State.withFetchWord (s : State) (nbits w : Nat) : State := s.placeWord nbits w

end Sys2Proof.Machine
end

