-- ==== Sys2Proof/Safety.lean ====
section
/-! DEFINITION. What the statements call well formed, in the terms of the state. -/

namespace Sys2Proof.Machine

/-- Every memory is in its one canonical form, so that equal memories are equal data (log 3). -/
def State.Canonical (s : State) : Prop := s.mem.wf = true ∧ ∀ p : CoreId, (s.core p).scratch.wf = true

/-- The capacities of R169: a queue register and a channel hold at most four entries, and x0 holds none. -/
def Core.Fits (c : Core) : Prop :=
  (∀ k : Ctx, vget (c.getCtx k).regs 0 = [] ∧ (∀ i : Nat, (vget (c.getCtx k).regs i).length ≤ 4)
      ∧ ∀ i : Nat, (vget (c.getCtx k).sup i).length ≤ 4)
    ∧ ∀ i : Nat, (vget c.chans i).length ≤ 4

end Sys2Proof.Machine
end

