-- ==== Sys2Proof/WellFormed.lean ====
section
/-! DEFINITION. Which instructions are well formed: those whose fields some encoding holds (R129–R145). What a
command's or a word's own conditions refuse when it runs (R175, check 6 of R139) is not a matter of form. -/

namespace Sys2Proof

/-- A record address is present only with REC (R298). -/
def furWf (f : Fur) : Bool := f.wrec || f.reca == 0

/-- The fields of an instruction are ones its encoding admits. An event has no encoding. -/
def Instr.wf (i : Instr) : Bool :=
  match i with
  | .trapWord w => isTrapWord w
  | .iinv r => allOk r.all r.a r.pa
  | .tinv r => allOk r.all r.a r.pa
  | .l1inv r => allOk r.all r.a r.pa
  | .fcopy _ f _ => furWf f
  | .fnot _ f _ => furWf f
  | .ffill _ f _ => furWf f
  | .fand _ f _ _ => furWf f
  | .forRow _ f _ _ => furWf f
  | .fxor _ f _ _ => furWf f
  | .fmaj _ f _ _ _ => furWf f
  | .loopt o => !o.vr || o.cnt == 0
  | .vadd o => stationOk 0x10 o
  | .vsub o => stationOk 0x11 o
  | .vmul o => stationOk 0x12 o
  | .vfma o => stationOk 0x13 o
  | .vmin o => stationOk 0x14 o
  | .vmax o => stationOk 0x15 o
  | .vabs o => stationOk 0x16 o
  | .vneg o => stationOk 0x17 o
  | .vand o => stationOk 0x18 o
  | .vor o => stationOk 0x19 o
  | .vxor o => stationOk 0x1A o
  | .vnot o => stationOk 0x1B o
  | .vshl o => stationOk 0x1C o
  | .vshr o => stationOk 0x1D o
  | .vsra o => stationOk 0x1E o
  | .vcmp o => stationOk 0x1F o
  | .vsel o => stationOk 0x20 o
  | .vcvt o => stationOk 0x21 o
  | .vdot4 o => stationOk 0x22 o
  | .vredadd o => stationOk 0x23 o
  | .vredmax o => stationOk 0x24 o
  | .vredmin o => stationOk 0x25 o
  | .vexp2 o => stationOk 0x26 o
  | .vlog2 o => stationOk 0x27 o
  | .vrcp o => stationOk 0x28 o
  | .vrsq o => stationOk 0x29 o
  | .vperm o => stationOk 0x2A o
  | .vbcast o => stationOk 0x2B o
  | .vrotm o => stationOk 0x2C o
  | .vpln o => stationOk 0x2D o
  | .vunpl o => stationOk 0x2E o
  | .vscale o => stationOk 0x2F o
  | .vqmx o => stationOk 0x30 o
  | .vmovs o => stationOk 0x31 o
  | .vldi o => stationOk 0x32 o
  | .vmask o => stationOk 0x33 o
  | .add _ | .sub _ | .and _ | .or _ | .xor _ | .andn _ | .shl _ | .shr _ | .sra _ | .rotr _ | .min _ | .max _
    | .minu _ | .maxu _ | .cmpeq _ | .cmpne _ | .cmplt _ | .cmpltu _ | .cmple _ | .cmpleu _ | .sel _ | .clz _
    | .ctz _ | .popc _ | .sext _ | .zext _ | .mul _ | .mulh _ | .mulhu _ | .div _ | .divu _ | .rem _ | .remu _
    | .addi _ | .andi _ | .ori _ | .xori _ | .shli _ | .shri _ | .srai _ | .rotri _ | .cmpeqi _ | .cmpnei _
    | .cmplti _ | .cmpltui _ | .lih _ | .pcah _ | .qcnt _ | .qclr _ | .dup _ | .drop _ | .movq _ | .lds _
    | .ldz _ | .st _ | .aadd _ | .aand _ | .aor _ | .axor _ | .amin _ | .amax _ | .aminu _ | .amaxu _
    | .aswap _ | .acas _ | .radd _ | .rand _ | .ror _ | .rxor _ | .rmin _ | .rmax _ | .rminu _ | .rmaxu _
    | .rfadd _ | .fence _ _ | .acq _ | .rel _ | .acqrel _ | .waitge _ | .waitne _ | .monclr _ | .beq _ | .bne _
    | .blt _ | .bge _ | .bltu _ | .bgeu _ | .j _ _ | .jal _ | .jalr _ | .csrr _ _ _ | .csrw _ | .csrs _
    | .csrc _ | .trap _ _ | .sysret _ | .idle _ | .brk _ _ | .stepover _ | .spawn _ | .epush _ | .echain _
    | .etail _ | .eseq _ _ _ | .xcmd _ | .mcfg _ | .tnext _ _ | .tdone _ | .tyield _ | .pref _
    | .qregFill _ _ _ | .waitWake _ _ | .monitorPoll _ _ | .combiningFlush _ _ | .cpy _ _ | .cpyn _ _
    | .gath _ _ | .scat _ _ | .rcpy _ _ | .fill _ _ | .prefCmd _ _ | .cpyp _ _ | .psub _ _ | .puns _ _
    | .chunkApply _ _ | .chunkResend _ _ | .qinit _ _ | .qacq _ _ _ | .qrel _ _ _ | .qres _ _ _ _ | .qcom _ _ _
    | .qstat _ _ _ | .clampRefill _ _ | .csig _ _ _ | .cwait _ _ _ | .cseq _ _ _ | .cnop _ | .clink _ _
    | .cloop _ _ | .cend _ | .launch _ _ _ | .tokenPush _ _ | .counterAdd _ _ | .chainBlockFetch _ _
    | .sequenceAdvance _ _ | .podRowDelivery _ _ | .mfmt _ _ | .mnest _ _ _ | .mgo _ _ | .mbld _ _ | .mzero _ _
    | .mhad _ _ | .mdrn _ _ | .meStep _ | .bBlockLoad _ | .vrun _ _ | .vstop _ _ | .vbase _ _ _ | .vsdesc _ _ _
    | .bundleIssue _ | .cutDrain _ | .walkRequest _ _ | .vectorLanding _ _ | .windowClose _ _
    | .writeWalkWrite _ _ | .inj _ | .drn _ | .srd _ | .swr _ | .time _ | .jmpt _ _ | .halt _ | .fqry _ _
    | .lqtail _ _ | .gangPlacement | .spawnDelivery _ _ | .balancerInterval _ | .stageSwitch _
    | .watchdogPreempt _ | .watchdogKill _ | .watchdogFence _ | .correctableError _ _ | .eccFreezeEnd _
    | .uncorrectableError _ | .faultRecordRelease _ | .faultReplay _ | .faultAbort _ | .preEmpt | .saveComplete
    | .restore | .restorePlacement | .kill | .trinv _ | .trinvComplete | .trroot _ | .l1Fusion _
    | .formatRegionWrite _ _ _ _ _ | .vtctlInv _ _ | .fwcc _ _ _ | .regionChange _ _ | .launchQueueReset _
    | .icinv _ | .icbusyClear | .traceSessionOpen _ | .traceSessionClose _ | .traceFlush _ | .pmctrWrap _ _
    | .veRelease _ _ | .clklockLock _ | .clklockUnlock _ | .opptRequest _ | .operatingPointChange
    | .operatingPointChangeEnd | .sensorSample _ | .capStep | .capRelax | .currentLimit _ | .emergencyEnd
    | .coreReset _ _ | .coreMarchTest _ _ | .repairEntry _ _ _ | .hostPoolWrite _ _ | .registerWrite _ _ _
    | .coldReset | .powerGood | .firmwareVerify _ | .bentPowerUp _ | .stackTrainingEnd _ | .marchTestEnd _ _
    | .hostLinkTrained _ _ | .hostAccess _ | .getVersion | .getCapabilities _ | .negotiateAlgorithms _
    | .getDigests | .getCertificate _ _ _ | .challenge _ | .getMeasurements _ | .sessionRequest _
    | .scarfFlit _ _ | .linkRetrain _ | .linkDown _ | .peerRequest _ | .retrainEnd _ _ | .hostLinkDown _
    | .chunkAcknowledgement _ _ | .acknowledgementConfirmation _ _ | .homeAcknowledgement _ _ _
    | .cxlCacheRequest _ _ => true

end Sys2Proof
end

