-- ==== Sys2Proof/Certificates/Slice0/Obligations.lean ====
section
/-! DEFINITION. The statements for the provers, and the terms they are stated in (namespace Sys2Proof.Claims). -/

namespace Sys2Proof.Claims

open Sys2Proof.Machine

/-! ### The operands of a scalar word -/

/-- The reads `rds` of the word about to issue give `vals`, and its push has room: R172 holds it back nowhere and
R175 finds no trap. -/
def Reads (s : State) (rds : List Rd) (push : Option (BitVec 5)) (vals : List Word) : Prop :=
  operands (s.core s.p) s.k rds push false = .ok vals

/-- The state with the pops of the reads made. -/
def popped (s : State) (rds : List Rd) : State := s.modCore s.p fun c => popAll c s.k rds

/-- No STEP trap follows a word that commits now (R179). -/
def NoStep (s : State) : Prop := (s.user && s.me!.stepBit) = false

def reg (s : State) (r : BitVec 5) : Queue := (s.core s.p).queue s.k r

/-- A register that neither the reads nor the push changes. -/
def Untouched (rds : List Rd) (push : Option (BitVec 5)) (r : BitVec 5) : Prop :=
  (∀ x ∈ rds, x.peek = false → x.r ≠ r) ∧ push ≠ some r

/-- All that a word which reads and pushes registers leaves alone, `t` being the state after it: every other core, every
other part of its own core, its core's other contexts, its context's special registers and mode, every register it
neither pops nor pushes, and every byte of memory. Its core's performance counters may count the word (R357). -/
structure OnlyRegisters (s t : State) (rds : List Rd) (push : Option (BitVec 5)) : Prop where
  module : t = s.setCore s.p (t.core s.p)
  core : t.core s.p = { s.core s.p with ctx := (t.core s.p).ctx, chans := (t.core s.p).chans, dbg := (t.core s.p).dbg }
  contexts : ∀ k, k ≠ s.k → t.ctx s.p k = s.ctx s.p k
  special : (t.ctx s.p s.k).status = s.me!.status ∧ (t.ctx s.p s.k).tvec = s.me!.tvec ∧
    (t.ctx s.p s.k).tepc = s.me!.tepc ∧ (t.ctx s.p s.k).tcause = s.me!.tcause ∧ (t.ctx s.p s.k).tval = s.me!.tval ∧
    (t.ctx s.p s.k).tscr = s.me!.tscr ∧ (t.ctx s.p s.k).tword = s.me!.tword ∧ (t.ctx s.p s.k).xres = s.me!.xres ∧
    (t.ctx s.p s.k).run = s.me!.run
  registers : ∀ r, Untouched rds push r → (t.core s.p).queue s.k r = reg s r
  memory : ∀ a, t.homeByte a = s.homeByte a
  scratch : ∀ q o, (t.core q).scratch.get o = (s.core q).scratch.get o

/-! ### The results of R181–R185, from their tables -/

def two (r : R3) (f : Word → Word → Word) : Option (List Rd × BitVec 5 × (List Word → Word)) :=
  some ([src r.a r.pa, src r.b r.pb], r.d, fun v => f (arg v 0) (arg v 1))

def one (r : R2) (f : Word → Word) : Option (List Rd × BitVec 5 × (List Word → Word)) :=
  some ([src r.a r.pa], r.d, fun v => f (arg v 0))

def imm (d a : BitVec 5) (pa : Bool) (f : Word → Word) : Option (List Rd × BitVec 5 × (List Word → Word)) :=
  some ([src a pa], d, fun v => f (arg v 0))

/-- 1 where a condition holds, else 0. -/
def flag (p : Prop) [Decidable p] : Word := if p then 1 else 0

/-- B[5:0]. -/
def low6 (b : Word) : Nat := b.toNat % 64

/-- The width of SEXT and ZEXT: 0 is read as 64. -/
def extend (b : Word) : Nat := if low6 b = 0 then 64 else low6 b

/-- The low `w` bits as a signed number. -/
def signedLow (w : Nat) (a : Word) : Int :=
  if a.toNat % 2 ^ w < 2 ^ (w - 1) then (a.toNat % 2 ^ w : Nat) else (a.toNat % 2 ^ w : Nat) - (2 ^ w : Nat)

/-- The instructions whose result is present one cycle later (R174), with the reads, the destination and the result of
R181, R183, R184 and R185; `pc` is the word's, `q` names the queue of a register. -/
def shortResult (i : Instr) (pc : Word) (q : BitVec 5 → Queue) : Option (List Rd × BitVec 5 × (List Word → Word)) :=
  match i with
  | .add r => two r fun a b => a + b
  | .sub r => two r fun a b => a - b
  | .and r => two r fun a b => a &&& b
  | .or r => two r fun a b => a ||| b
  | .xor r => two r fun a b => a ^^^ b
  | .andn r => two r fun a b => a &&& ~~~b
  | .shl r => two r fun a b => BitVec.ofNat 64 (a.toNat * 2 ^ low6 b)
  | .shr r => two r fun a b => BitVec.ofNat 64 (a.toNat / 2 ^ low6 b)
  | .sra r => two r fun a b => BitVec.ofInt 64 (a.toInt / 2 ^ low6 b)
  | .rotr r => two r fun a b => (a >>> low6 b) ||| (a <<< (64 - low6 b))
  | .min r => two r fun a b => if a.toInt ≤ b.toInt then a else b
  | .max r => two r fun a b => if a.toInt ≤ b.toInt then b else a
  | .minu r => two r fun a b => if a.toNat ≤ b.toNat then a else b
  | .maxu r => two r fun a b => if a.toNat ≤ b.toNat then b else a
  | .cmpeq r => two r fun a b => flag (a = b)
  | .cmpne r => two r fun a b => flag (a ≠ b)
  | .cmplt r => two r fun a b => flag (a.toInt < b.toInt)
  | .cmpltu r => two r fun a b => flag (a.toNat < b.toNat)
  | .cmple r => two r fun a b => flag (a.toInt ≤ b.toInt)
  | .cmpleu r => two r fun a b => flag (a.toNat ≤ b.toNat)
  | .sel r => some ([pop r.d, src r.a r.pa, src r.b r.pb], r.d, fun v => if arg v 0 ≠ 0 then arg v 1 else arg v 2)
  | .clz r => one r fun a => BitVec.ofNat 64 ((List.range 64).findIdx fun n => a.getMsbD n)
  | .ctz r => one r fun a => BitVec.ofNat 64 ((List.range 64).findIdx fun n => a.getLsbD n)
  | .popc r => one r fun a => BitVec.ofNat 64 ((List.range 64).countP fun n => a.getLsbD n)
  | .sext r => two r fun a b => BitVec.ofInt 64 (signedLow (extend b) a)
  | .zext r => two r fun a b => BitVec.ofNat 64 (a.toNat % 2 ^ extend b)
  | .addi r => imm r.d r.a r.pa fun a => a + r.imm.signExtend 64
  | .andi r => imm r.d r.a r.pa fun a => a &&& r.imm.setWidth 64
  | .ori r => imm r.d r.a r.pa fun a => a ||| r.imm.setWidth 64
  | .xori r => imm r.d r.a r.pa fun a => a ^^^ r.imm.setWidth 64
  | .shli r => imm r.d r.a r.pa fun a => BitVec.ofNat 64 (a.toNat * 2 ^ r.imm.toNat)
  | .shri r => imm r.d r.a r.pa fun a => BitVec.ofNat 64 (a.toNat / 2 ^ r.imm.toNat)
  | .srai r => imm r.d r.a r.pa fun a => BitVec.ofInt 64 (a.toInt / 2 ^ r.imm.toNat)
  | .rotri r => imm r.d r.a r.pa fun a => (a >>> r.imm.toNat) ||| (a <<< (64 - r.imm.toNat))
  | .cmpeqi r => imm r.d r.a r.pa fun a => flag (a.toInt = r.imm.toInt)
  | .cmpnei r => imm r.d r.a r.pa fun a => flag (a.toInt ≠ r.imm.toInt)
  | .cmplti r => imm r.d r.a r.pa fun a => flag (a.toInt < r.imm.toInt)
  | .cmpltui r => imm r.d r.a r.pa fun a => flag (a.toNat < (r.imm.signExtend 64).toNat)
  | .lih r => some ([], r.d, fun _ => BitVec.ofInt 64 (r.imm.toInt * 2 ^ 12))
  | .pcah r => some ([], r.d, fun _ => pc + BitVec.ofInt 64 (r.imm.toInt * 2 ^ 12))
  | .qcnt r => some ([], r.d, fun _ =>
      BitVec.ofNat 64 ((q r.a).countP fun e => e.filled) ||| BitVec.ofNat 64 ((q r.a).countP fun e => !e.filled) <<< 3)
  | .movq r => one r fun a => a
  | _ => none

/-- The instructions whose result comes later, with the result of R182. -/
def longResult (i : Instr) : Option (List Rd × BitVec 5 × (List Word → Word)) :=
  match i with
  | .mul r => two r fun a b => BitVec.ofInt 64 (a.toInt * b.toInt)
  | .mulh r => two r fun a b => BitVec.ofInt 64 (a.toInt * b.toInt / 2 ^ 64)
  | .mulhu r => two r fun a b => BitVec.ofNat 64 (a.toNat * b.toNat / 2 ^ 64)
  | .div r => two r fun a b => if b = 0 then BitVec.allOnes 64 else BitVec.ofInt 64 (a.toInt.tdiv b.toInt)
  | .divu r => two r fun a b => if b = 0 then BitVec.allOnes 64 else BitVec.ofNat 64 (a.toNat / b.toNat)
  | .rem r => two r fun a b => if b = 0 then a else BitVec.ofInt 64 (a.toInt.tmod b.toInt)
  | .remu r => two r fun a b => BitVec.ofNat 64 (if b = 0 then a.toNat else a.toNat % b.toNat)
  | _ => none

/-- A trap whose handler is at TVEC, as R180 gives it, and all that it leaves alone. -/
structure Trapped (s t : State) (code aux : Byte) (tval epc : Word) : Prop where
  module : t = s.setCtx s.p s.k (t.ctx s.p s.k)
  tepc : (t.ctx s.p s.k).tepc = epc
  tcause : (t.ctx s.p s.k).tcause = code.setWidth 64 ||| aux.setWidth 64 <<< 16
  tword : (t.ctx s.p s.k).tword = s.sched.word.setWidth 64
  tval : (t.ctx s.p s.k).tval = tval
  sup : (t.ctx s.p s.k).status.getLsbD 0 = true
  psup : (t.ctx s.p s.k).status.getLsbD 1 = s.me!.status.getLsbD 0
  status : ∀ i, 2 ≤ i → (t.ctx s.p s.k).status.getLsbD i = s.me!.status.getLsbD i
  pc : (t.ctx s.p s.k).pc = s.me!.tvec &&& ~~~3
  kept : (t.ctx s.p s.k).regs = s.me!.regs ∧ (t.ctx s.p s.k).sup = s.me!.sup ∧ (t.ctx s.p s.k).pend = s.me!.pend ∧
    (t.ctx s.p s.k).tvec = s.me!.tvec ∧ (t.ctx s.p s.k).tscr = s.me!.tscr ∧ (t.ctx s.p s.k).xres = s.me!.xres ∧
    (t.ctx s.p s.k).run = s.me!.run

/-! ### The words of R182–R184 (R127–R129) -/

/-- The fields of a word in format R, I and U, and of an immediate shift. -/
def fieldsR (w : W32) : R3 :=
  { s := w.getLsbD 31, d := w.extractLsb' 20 5, a := w.extractLsb' 15 5, pa := w.getLsbD 14, b := w.extractLsb' 9 5,
    pb := w.getLsbD 8 }
def fieldsI (w : W32) : I12 :=
  { s := w.getLsbD 31, d := w.extractLsb' 20 5, a := w.extractLsb' 15 5, pa := w.getLsbD 14, imm := w.extractLsb' 0 12 }
def fieldsShift (w : W32) : Sh :=
  { s := w.getLsbD 31, d := w.extractLsb' 20 5, a := w.extractLsb' 15 5, pa := w.getLsbD 14, imm := w.extractLsb' 0 6 }
def fieldsU (w : W32) : U20 := { s := w.getLsbD 31, d := w.extractLsb' 20 5, imm := w.extractLsb' 0 20 }

def majorOf (w : W32) : Nat := (w.extractLsb' 25 6).toNat

/-- The words of R183 and R184 by their major opcode and fn; every other word of these majors is illegal. -/
def immediateWord (w : W32) : Option Instr :=
  match majorOf w, (w.extractLsb' 12 2).toNat with
  | 3, 0 => some (.addi (fieldsI w))
  | 4, 0 => some (.andi (fieldsI w))
  | 5, 0 => some (.ori (fieldsI w))
  | 6, 0 => some (.xori (fieldsI w))
  | 7, 0 => if w.extractLsb' 6 6 = 0 then some (.shli (fieldsShift w)) else none
  | 7, 1 => if w.extractLsb' 6 6 = 0 then some (.shri (fieldsShift w)) else none
  | 7, 2 => if w.extractLsb' 6 6 = 0 then some (.srai (fieldsShift w)) else none
  | 7, 3 => if w.extractLsb' 6 6 = 0 then some (.rotri (fieldsShift w)) else none
  | 8, 0 => some (.cmpeqi (fieldsI w))
  | 8, 1 => some (.cmpnei (fieldsI w))
  | 8, 2 => some (.cmplti (fieldsI w))
  | 8, 3 => some (.cmpltui (fieldsI w))
  | 9, _ => some (.lih (fieldsU w))
  | 10, _ => some (.pcah (fieldsU w))
  | _, _ => none

/-- The words of R182 by their fn. -/
def multiplyWord (w : W32) : Option Instr :=
  match (w.extractLsb' 0 8).toNat with
  | 0 => some (.mul (fieldsR w))
  | 1 => some (.mulh (fieldsR w))
  | 2 => some (.mulhu (fieldsR w))
  | 3 => some (.div (fieldsR w))
  | 4 => some (.divu (fieldsR w))
  | 5 => some (.rem (fieldsR w))
  | 6 => some (.remu (fieldsR w))
  | _ => none

end Sys2Proof.Claims

open Sys2Proof Sys2Proof.Machine Sys2Proof.Claims

/-- R181, R183–R185, R170, R171, R174: each of these instructions pops what it reads, pushes its result as a present entry
at the tail of its destination (x0 takes nothing), and its context goes on at the next word; nothing else changes. The
immediate forms (R183, R184) are read from their words as their formats say. -/
def Obligations.ShortResults : Prop :=
  (∀ (i : Instr) (s : State) (rds : List Rd) (d : BitVec 5) (f : List Word → Word) (vals : List Word),
    shortResult i s.me!.pc (reg s) = some (rds, d, f) → Reads s rds (some d) vals → NoStep s →
    ∃ t, exec i s = .next t ∧ OnlyRegisters s t rds (some d) ∧ (t.ctx s.p s.k).pc = s.me!.pc + 4 ∧
      (d ≠ 0 → (t.core s.p).queue s.k d =
        reg (popped s rds) d ++ [{ id := s.me!.nextId, val := f vals, filled := true }]) ∧
      (∀ r, r ≠ d → (t.core s.p).queue s.k r = reg (popped s rds) r)) ∧
  (∀ w, 3 ≤ majorOf w → majorOf w ≤ 10 → decodeScalar w = immediateWord w)

/-- R182, R170, R171, R174: each multiply and divide pops its operands, reserves an entry at the tail of its destination and
holds its result ready to fill it; its context goes on at the next word; nothing else changes. A word of the major 0x02
is one of them by its fn, and with another fn it traps ILLEGAL_OP. -/
def Obligations.LongResults : Prop :=
  (∀ (i : Instr) (s : State) (rds : List Rd) (d : BitVec 5) (f : List Word → Word) (vals : List Word),
    longResult i = some (rds, d, f) → Reads s rds (some d) vals → NoStep s →
    ∃ t, exec i s = .next t ∧ OnlyRegisters s t rds (some d) ∧ (t.ctx s.p s.k).pc = s.me!.pc + 4 ∧
      (d ≠ 0 → (t.core s.p).queue s.k d =
        reg (popped s rds) d ++ [{ id := s.me!.nextId, val := 0, filled := false }]) ∧
      (t.ctx s.p s.k).pend = s.me!.pend ++
        [{ id := s.me!.nextId, cls := 0, kind := .value (f vals), dst := some (d, s.me!.supMode) }]) ∧
  (∀ w, majorOf w = 2 → decodeScalar w = multiplyWord w) ∧
  (∀ s : State, s.me!.tvec ≠ 0 → majorOf s.sched.word = 2 → multiplyWord s.sched.word = none →
    ∃ t, s.runWord s.sched.word = .next t ∧ Trapped s t 0x01 0 0 s.me!.pc)

namespace Sys2Proof.Claims

open Sys2Proof.Machine

/-! ### What words leave alone -/

/-- All that a word which reads, pushes and accesses leaves alone: the other cores, the core's other contexts, the
context's special registers and mode, every register it neither pops nor pushes, and every byte of memory. -/
structure Committed (s t : State) (rds : List Rd) (push : Option (BitVec 5)) : Prop where
  cores : ∀ q, q ≠ s.p → t.core q = s.core q
  contexts : ∀ k, k ≠ s.k → t.ctx s.p k = s.ctx s.p k
  special : (t.ctx s.p s.k).status = s.me!.status ∧ (t.ctx s.p s.k).tvec = s.me!.tvec ∧
    (t.ctx s.p s.k).tepc = s.me!.tepc ∧ (t.ctx s.p s.k).tcause = s.me!.tcause ∧ (t.ctx s.p s.k).tval = s.me!.tval ∧
    (t.ctx s.p s.k).tscr = s.me!.tscr ∧ (t.ctx s.p s.k).tword = s.me!.tword ∧ (t.ctx s.p s.k).xres = s.me!.xres ∧
    (t.ctx s.p s.k).run = s.me!.run
  registers : ∀ r, Untouched rds push r → (t.core s.p).queue s.k r = reg s r
  memory : t.mem = s.mem
  scratch : (t.core s.p).scratch = (s.core s.p).scratch

/-- A word that issues an access: besides, only the context's queues and issued accesses, its core's TLB and performance
counters and its bent's shared TLB change (R105, R357). -/
structure Issues (s t : State) (rds : List Rd) (push : Option (BitVec 5)) : Prop where
  word : Committed s t rds push
  module : t = { s with cores := t.cores, bents := t.bents }
  bents : ∀ b, t.bent b = { s.bent b with tlb := (t.bent b).tlb }
  core : t.core s.p = { s.core s.p with ctx := (t.core s.p).ctx, chans := (t.core s.p).chans, tlb := (t.core s.p).tlb,
                                        dbg := (t.core s.p).dbg }
  pc : (t.ctx s.p s.k).pc = s.me!.pc + 4

/-- Where an access to a virtual address comes from: the word about to issue. -/
def issued (s : State) (va : Word) : Origin := { va := va, pc := s.me!.pc, word := s.sched.word }

/-- The access that an issued word has put among its context's, with the entry it reserved. -/
structure Access (s t : State) (rds : List Rd) (push : Option (BitVec 5)) (cls : BitVec 4) (orig : Origin)
    (kind : PendKind) : Prop where
  pend : (t.ctx s.p s.k).pend = s.me!.pend ++
    [{ id := s.me!.nextId, cls := cls, kind := kind, dst := push.map fun r => (r, s.me!.supMode),
       orig := orig }]
  entry : ∀ d, push = some d → d ≠ 0 →
    (t.core s.p).queue s.k d = reg (popped s rds) d ++ [{ id := s.me!.nextId, val := 0, filled := false }]
  popped : ∀ r, push ≠ some r → (t.core s.p).queue s.k r = reg (popped s rds) r

/-- A channel register of a context (R169). -/
def channel (k : Ctx) (r : BitVec 5) : Bool :=
  match k with
  | .ld => r == 28 || r == 29
  | .cp => r == 28 || r == 29 || r == 30 || r == 31
  | .st => r == 30 || r == 31

/-- What a word of R181–R185 reads and pushes. -/
def registerUse (i : Instr) (pc : Word) (q : BitVec 5 → Queue) : Option (List Rd × Option (BitVec 5)) :=
  match i with
  | .dup r => some ([src r.a true], none)
  | .drop r => some ([pop r.a], none)
  | _ => ((shortResult i pc q).or (longResult i)).map fun x => (x.1, some x.2.1)

/-- A channel a context produces into (R169). -/
def produces (k : Ctx) (r : BitVec 5) : Bool :=
  match k with
  | .ld => r == 28
  | .cp => r == 29 || r == 30
  | .st => r == 31

/-- No channel is read on its producing side or pushed on its consuming side (R169). -/
def RightSides (s : State) (rds : List Rd) (push : Option (BitVec 5)) : Prop :=
  (∀ y ∈ rds, produces s.k y.r = false) ∧ ∀ d, push = some d → channel s.k d = true → produces s.k d = true

/-- Every private register among some reads holds the entries that all the reads need. -/
def Supplied (s : State) (rds some : List Rd) : Prop :=
  ∀ y ∈ some, y.r ≠ 0 → channel s.k y.r = false → need y.r rds ≤ (reg s y.r).length

/-- Every register read, but one on its producing side, holds the entries needed, filled. -/
def Filled (s : State) (rds : List Rd) : Prop :=
  ∀ y ∈ rds, y.r ≠ 0 → produces s.k y.r = false →
    need y.r rds ≤ (reg s y.r).length ∧ ∀ e ∈ (reg s y.r).take (need y.r rds), e.filled = true

/-- The state in which a word waits with the combining-buffer entries over its bytes flushed (R119). -/
def flushing (s : State) (hit : Comb → Bool) : State :=
  (s.setCore s.p { s.core s.p with comb := (s.core s.p).comb.map fun e => if hit e then { e with flush := true } else e }).setCtx
    s.p s.k { s.me! with blocked := true }

/-- No unsatisfied fence of the context covers a class (R117); a release holds back only what writes. -/
def Unfenced (s : State) (cls : BitVec 4) (write : Bool) : Prop :=
  ∀ i ∈ s.me!.pend, match i.kind with
    | .fence m | .acq _ m => m.getLsbD cls.toNat = false
    | .rel _ m _ => write = true → m.getLsbD cls.toNat = false
    | _ => True

/-- No entry of the core's combining buffer overlaps the bytes of an access (R119). -/
def Uncombined (s : State) (l : Loc) (n : Nat) : Prop := ∀ e ∈ (s.core s.p).comb, e.loc.overlap e.n l n = false

/-- The entry of the combining buffer with which a reduction combines; an RFADD combines with none (R119). -/
def Combines (l : Loc) (n : Nat) (op : AtomOp) (e : Comb) : Prop :=
  e.loc = l ∧ e.n = n ∧ e.op = op ∧ e.flush = false ∧ op ≠ .fadd

/-- An entry over the bytes of a reduction with another width or operation. -/
def clashes (l : Loc) (n : Nat) (op : AtomOp) (e : Comb) : Bool := e.loc.overlap e.n l n && (e.n != n || e.op != op)

/-- ea := A + SignExtend(imm8, 8) × 2^sz (R186). -/
def ea (a : Word) (r : Mem) : Word := a + BitVec.ofInt 64 (r.imm.toInt * 2 ^ r.sz.toNat)

/-- A context that goes on at `pc`. -/
def goesOn (x : Context) (pc : Word) : Context :=
  { x with pc := pc, shadow := none, stepOver := false, qclr := none, wait := none, blocked := false, mcfg := none }

/-- The same state with STEP = 0. -/
def stepOff (s : State) : State := s.setCtx s.p s.k { s.me! with status := setBit s.me!.status 3 false }

/-- Only one context changes, and its core's performance counters may. -/
def InContext (s t : State) : Prop :=
  t = s.setCore s.p (t.core s.p) ∧
  t.core s.p = { s.core s.p with ctx := (t.core s.p).ctx, dbg := (t.core s.p).dbg } ∧
  ∀ k, k ≠ s.k → t.ctx s.p k = s.ctx s.p k

/-- The word of an instruction waits, and only that is noted (R36). -/
def Waits (s t : State) : Prop := t = s.setCtx s.p s.k { s.me! with blocked := true }

/-- What makes a conditional branch of R192 taken. -/
def branchTaken (i : Instr) : Option (Br × (Word → Word → Prop)) :=
  match i with
  | .beq r => some (r, fun a b => a = b)
  | .bne r => some (r, fun a b => a ≠ b)
  | .blt r => some (r, fun a b => a.toInt < b.toInt)
  | .bge r => some (r, fun a b => b.toInt ≤ a.toInt)
  | .bltu r => some (r, fun a b => a.toNat < b.toNat)
  | .bgeu r => some (r, fun a b => b.toNat ≤ a.toNat)
  | _ => none

/-- The jumps of R193: what they read, their link register and their target. -/
def jump (i : Instr) (pc : Word) : Option (List Rd × Option (BitVec 5) × (List Word → Word)) :=
  match i with
  | .j _ off => some ([], none, fun _ => pc + BitVec.ofInt 64 (4 * off.toInt))
  | .jal r => some ([], some r.d, fun _ => pc + BitVec.ofInt 64 (4 * r.imm.toInt))
  | .jalr r => some ([src r.a r.pa], some r.d, fun v => (arg v 0 + BitVec.ofInt 64 (4 * r.imm.toInt)) &&& ~~~3)
  | _ => none

/-- The words that only a supervisor may execute, but for the CSR instructions (R176). -/
def supervisorOnly (i : Instr) : Bool :=
  match i with
  | .sysret _ | .idle _ | .stepover _ | .tinv _ => true
  | _ => false

/-- The returning atomics with their operation and the entries they read (R188). -/
def atomicOp (i : Instr) : Option (Atom × AtomOp) :=
  match i with
  | .aadd r => some (r, .add)
  | .aand r => some (r, .and)
  | .aor r => some (r, .or)
  | .axor r => some (r, .xor)
  | .amin r => some (r, .min)
  | .amax r => some (r, .max)
  | .aminu r => some (r, .minu)
  | .amaxu r => some (r, .maxu)
  | .aswap r => some (r, .swap)
  | .acas r => some (r, .cas)
  | _ => none

def atomicReads (r : Atom) (op : AtomOp) : List Rd :=
  if op = .cas then [src r.a r.pa, pop r.b, pop r.b] else [src r.a r.pa, pop r.b]

/-- The reductions: the registers of the address and the value, the width in bytes, the operation (R189). -/
def reductionOp (i : Instr) : Option (BitVec 5 × BitVec 5 × Nat × AtomOp) :=
  match i with
  | .radd r => some (r.a, r.b, if r.sz then 8 else 4, .add)
  | .rand r => some (r.a, r.b, if r.sz then 8 else 4, .and)
  | .ror r => some (r.a, r.b, if r.sz then 8 else 4, .or)
  | .rxor r => some (r.a, r.b, if r.sz then 8 else 4, .xor)
  | .rmin r => some (r.a, r.b, if r.sz then 8 else 4, .min)
  | .rmax r => some (r.a, r.b, if r.sz then 8 else 4, .max)
  | .rminu r => some (r.a, r.b, if r.sz then 8 else 4, .minu)
  | .rmaxu r => some (r.a, r.b, if r.sz then 8 else 4, .maxu)
  | .rfadd r => some (r.a, r.b, 4, .fadd)
  | _ => none

/-- The value an operation of R188 or R189 leaves in a word of `w` bits that held M. -/
def homeValue (op : AtomOp) (w : Nat) (m b new : BitVec w) : BitVec w :=
  match op with
  | .add => m + b
  | .and => m &&& b
  | .or => m ||| b
  | .xor => m ^^^ b
  | .min => if b.toInt < m.toInt then b else m
  | .max => if m.toInt < b.toInt then b else m
  | .minu => if b.toNat < m.toNat then b else m
  | .maxu => if m.toNat < b.toNat then b else m
  | .swap => b
  | .cas => if m = b then new else m
  | .fadd => BitVec.ofNat w (roundFp32 (Val.add false (Fmt.fp32.decode m.toNat) (Fmt.fp32.decode b.toNat)))

end Sys2Proof.Claims

open Sys2Proof Sys2Proof.Machine Sys2Proof.Claims

/-- R169–R172, R175: an instruction of R181–R185 that uses no channel from its wrong side and whose private source holds
fewer entries than it needs traps QREG_UNDERFLOW with the register's number and commits nothing; where none does but a
channel holds too few, or a source has an entry it needs not yet filled, it waits. QCLR needs no entry (QueueWords). -/
def Sys2Proof.Claims.SourcesMissing : Prop :=
  ∀ (i : Instr) (s : State) (rds : List Rd) (push : Option (BitVec 5)) (x : Rd) (pre post : List Rd),
    registerUse i s.me!.pc (reg s) = some (rds, push) → rds = pre ++ x :: post → s.me!.tvec ≠ 0 →
    RightSides s rds push → x.r ≠ 0 →
    (channel s.k x.r = false → (reg s x.r).length < need x.r rds → Supplied s rds pre →
      ∃ t, exec i s = .next t ∧ Trapped s t 0x03 0 (x.r.setWidth 64) s.me!.pc) ∧
    (Supplied s rds rds →
      ((channel s.k x.r = true ∧ (reg s x.r).length < need x.r rds) ∨
        ∃ e ∈ (reg s x.r).take (need x.r rds), e.filled = false) →
      ∃ t, exec i s = .next t ∧ Waits s t)

/-- R169, R170, R172, R175: an instruction of R181–R185 that finds its sources there but its private destination full, its
own pops of it counted first, traps QREG_OVERFLOW with the register's number and commits nothing; one whose destination is
a full channel waits; one that uses a channel from its wrong side traps ILLEGAL_OP. -/
def Sys2Proof.Claims.DestinationFull : Prop :=
  ∀ (i : Instr) (s : State) (rds : List Rd) (push : Option (BitVec 5)),
    registerUse i s.me!.pc (reg s) = some (rds, push) → s.me!.tvec ≠ 0 →
    (∀ d, push = some d → RightSides s rds push → d ≠ 0 →
      (channel s.k d = false → Filled s rds → 4 ≤ (reg s d).length - popsOf d rds →
        ∃ t, exec i s = .next t ∧ Trapped s t 0x04 0 (d.setWidth 64) s.me!.pc) ∧
      (channel s.k d = true → Supplied s rds rds → 4 ≤ (reg s d).length → ∃ t, exec i s = .next t ∧ Waits s t)) ∧
    (¬ RightSides s rds push → Filled s rds →
      (∀ d, push = some d → produces s.k d = true → (reg s d).length < 4) →
      ∃ t, exec i s = .next t ∧ Trapped s t 0x01 0 0 s.me!.pc)

/-- An instruction of R181–R185 whose source or destination is not there stops: both parts of R172. -/
def Obligations.OperandsStop : Prop := Sys2Proof.Claims.SourcesMissing ∧ Sys2Proof.Claims.DestinationFull

/-- R180, R195, R132, R176: TRAP, a BRK with DBG = 1 or without a valid shadow word, the trap word, and in user mode the
words for a supervisor alone, each take their trap: TEPC, TCAUSE, TWORD, TVAL, STATUS and the pc become what R180 says,
and nothing else changes. -/
def Sys2Proof.Claims.Traps : Prop :=
  ∀ (s : State), s.me!.tvec ≠ 0 →
    (∀ b n, ∃ t, exec (.trap b n) s = .next t ∧ Trapped s t 0x17 0 (n.setWidth 64) (s.me!.pc + 4)) ∧
    (∀ b n, s.me!.status.getLsbD 4 = true ∨ (vget s.bksh n.toNat).getLsbD 32 = false →
      ∃ t, exec (.brk b n) s = .next t ∧ Trapped s t 0x0B 0 (n.setWidth 64) s.me!.pc) ∧
    (∀ w, ∃ t, exec (.trapWord w) s = .next t ∧ Trapped s t 0x02 0 0 s.me!.pc) ∧
    (∀ i, supervisorOnly i = true → s.me!.status.getLsbD 0 = false →
      ∃ t, exec i s = .next t ∧ Trapped s t 0x06 0 0 s.me!.pc)

/-- R180, R311: a TRAP with TVEC = 0 writes the same registers and stops its context, and its record is reported to the
host: with the fault ring off it is held in the bent, last. -/
def Sys2Proof.Claims.TrapStops : Prop :=
  ∀ (s : State) (b : Bool) (n : BitVec 8), s.me!.tvec = 0 → s.flt.on = false →
    ∃ t r, exec (.trap b n) s = .next t ∧ (t.ctx s.p s.k).run = .stopped ∧ (t.ctx s.p s.k).pc = s.me!.pc ∧
      (t.ctx s.p s.k).tepc = s.me!.pc + 4 ∧ (t.ctx s.p s.k).tval = n.setWidth 64 ∧
      (t.ctx s.p s.k).tcause = 0x17 ∧ (t.ctx s.p s.k).status.getLsbD 0 = true ∧
      (t.ctx s.p s.k).status.getLsbD 1 = s.me!.status.getLsbD 0 ∧
      (t.bent (bentOf s.p)).faults = (s.bent (bentOf s.p)).faults ++ [r] ∧ r.ticket = none ∧ r.words.length = 8 ∧
      (r.words.getD 0 0).extractLsb' 0 8 = 0x17 ∧ (r.words.getD 0 0).getLsbD 63 = false ∧
      r.words.getD 1 0 = s.sched.word.setWidth 64 ∧ r.words.getD 2 0 = s.me!.pc

/-- R179, R180: in user mode with STEP = 1 a word of R181, R183–R185 does what it does without STEP, and then a STEP trap
follows with TEPC the pc of the next word. -/
def Sys2Proof.Claims.StepTraps : Prop :=
  ∀ (i : Instr) (s : State) (rds : List Rd) (d : BitVec 5) (f : List Word → Word) (vals : List Word),
    shortResult i s.me!.pc (reg s) = some (rds, d, f) → Reads s rds (some d) vals →
    s.me!.status.getLsbD 0 = false → s.me!.status.getLsbD 3 = true → s.me!.tvec ≠ 0 →
    ∃ u t st, exec i (stepOff s) = .next u ∧ exec i s = .next t ∧
      t = u.setCtx s.p s.k { u.ctx s.p s.k with tepc := s.me!.pc + 4, tcause := 0x0C, tval := 0,
                                                tword := s.sched.word.setWidth 64, status := st, pc := s.me!.tvec &&& ~~~3 } ∧
      st.getLsbD 0 = true ∧ st.getLsbD 1 = false ∧ ∀ n, 2 ≤ n → st.getLsbD n = s.me!.status.getLsbD n

/-- Taking a trap (R180): with a handler, without one, and after a word in step mode. -/
def Obligations.TrapsTaken : Prop := Sys2Proof.Claims.Traps ∧ Sys2Proof.Claims.TrapStops ∧ Sys2Proof.Claims.StepTraps

/-- R195: in supervisor mode SYSRET goes to TEPC with SUP := PSUP and PSUP := 0 and clears SOVR, IDLE stops its context,
STEPOVER sets SOVR, and a BRK with DBG = 0 and a valid shadow word executes that word in its place; nothing else
changes. -/
def Obligations.System : Prop :=
  ∀ (s : State),
    (s.me!.status.getLsbD 0 = true →
      (∀ b, ∃ t st, exec (.sysret b) s = .next t ∧ InContext s t ∧ st.getLsbD 0 = s.me!.status.getLsbD 1 ∧
        st.getLsbD 1 = false ∧ st.getLsbD 2 = false ∧ (∀ i, 3 ≤ i → st.getLsbD i = s.me!.status.getLsbD i) ∧
        t.ctx s.p s.k = { s.me! with pc := s.me!.tepc, status := st, stepOver := s.me!.status.getLsbD 2, shadow := none,
                                     blocked := false }) ∧
      (∀ b, ∃ t, exec (.idle b) s = .next t ∧ InContext s t ∧
        t.ctx s.p s.k = { goesOn s.me! (s.me!.pc + 4) with run := .idle }) ∧
      (∀ b, ∃ t st, exec (.stepover b) s = .next t ∧ InContext s t ∧ st.getLsbD 2 = true ∧
        (∀ i, i ≠ 2 → st.getLsbD i = s.me!.status.getLsbD i) ∧
        t.ctx s.p s.k = { goesOn s.me! (s.me!.pc + 4) with status := st })) ∧
    (∀ b n, s.me!.status.getLsbD 4 = false → (vget s.bksh n.toNat).getLsbD 32 = true →
      exec (.brk b n) s =
        .next (s.setCtx s.p s.k { s.me! with shadow := some ((vget s.bksh n.toNat).setWidth 32), blocked := false }))

/-- R185: QCLR discards the entries of its register reserved before it first issued, once they are filled, and until then
waits; DUP puts a copy of the head in front of it; DROP discards the head. -/
def Obligations.QueueWords : Prop :=
  ∀ (s : State) (r : QReg), NoStep s →
    (∀ m, m = s.me!.qclr.getD (s.ctx s.p (producerOf s.k s.me!.supMode r.a)).nextId →
      wrongRead s.k s.me!.supMode (pop r.a) = false →
      if ∀ e ∈ reg s r.a, e.id < m → e.filled = true then
        ∃ t, exec (.qclr r) s = .next t ∧ OnlyRegisters s t [pop r.a] none ∧ (t.ctx s.p s.k).pc = s.me!.pc + 4 ∧
          (t.core s.p).queue s.k r.a = (reg s r.a).filter fun e => decide (m ≤ e.id)
      else exec (.qclr r) s = .next (s.setCtx s.p s.k { s.me! with qclr := some m, blocked := true })) ∧
    (∀ vals, Reads s [src r.a true] none vals → (reg s r.a).length < 4 →
      ∃ t, exec (.dup r) s = .next t ∧ OnlyRegisters s t [] (some r.a) ∧ (t.ctx s.p s.k).pc = s.me!.pc + 4 ∧
        (t.core s.p).queue s.k r.a = (reg s r.a).head?.toList ++ reg s r.a) ∧
    (∀ vals, Reads s [src r.a true] none vals → 4 ≤ (reg s r.a).length → s.me!.tvec ≠ 0 →
      ∃ t, exec (.dup r) s = .next t ∧ Trapped s t 0x04 0 (r.a.setWidth 64) s.me!.pc) ∧
    (∀ vals, Reads s [pop r.a] none vals →
      ∃ t, exec (.drop r) s = .next t ∧ OnlyRegisters s t [pop r.a] none ∧ (t.ctx s.p s.k).pc = s.me!.pc + 4 ∧
        (t.core s.p).queue s.k r.a = (reg s r.a).tail)

/-- R192: a conditional branch reads both sources and goes on at pc + 4 × offset where its comparison holds, else at
pc + 4; nothing else changes. -/
def Sys2Proof.Claims.Branches : Prop :=
  ∀ (i : Instr) (s : State) (r : Br) (c : Word → Word → Prop) (vals : List Word),
    branchTaken i = some (r, c) → Reads s [src r.a r.pa, src r.b r.pb] none vals → NoStep s →
    ∃ t, exec i s = .next t ∧ OnlyRegisters s t [src r.a r.pa, src r.b r.pb] none ∧
      (c (arg vals 0) (arg vals 1) → (t.ctx s.p s.k).pc = s.me!.pc + BitVec.ofInt 64 (4 * r.off.toInt)) ∧
      (¬ c (arg vals 0) (arg vals 1) → (t.ctx s.p s.k).pc = s.me!.pc + 4) ∧
      ∀ q, (t.core s.p).queue s.k q = reg (popped s [src r.a r.pa, src r.b r.pb]) q

/-- R193: a jump goes to its target and pushes pc + 4 to its link register, where it has one; nothing else changes. -/
def Sys2Proof.Claims.Jumps : Prop :=
  ∀ (i : Instr) (s : State) (rds : List Rd) (push : Option (BitVec 5)) (f : List Word → Word) (vals : List Word),
    jump i s.me!.pc = some (rds, push, f) → Reads s rds push vals → NoStep s →
    ∃ t, exec i s = .next t ∧ OnlyRegisters s t rds push ∧ (t.ctx s.p s.k).pc = f vals ∧
      (∀ d, push = some d → d ≠ 0 → (t.core s.p).queue s.k d =
        reg (popped s rds) d ++ [{ id := s.me!.nextId, val := s.me!.pc + 4, filled := true }]) ∧
      ∀ q, push ≠ some q → (t.core s.p).queue s.k q = reg (popped s rds) q

/-- Branches and jumps (R192, R193). -/
def Obligations.ControlFlow : Prop := Sys2Proof.Claims.Branches ∧ Sys2Proof.Claims.Jumps

/-- R186, R174, R115: a load whose address translates and that neither an earlier access nor a region change (R297) holds
back issues: its entry is reserved, its access is among the context's, and the context goes on at pc + 4; nothing is
read yet. One over an entry of the combining buffer flushes that entry and waits (R119). -/
def Sys2Proof.Claims.LoadsIssue : Prop :=
  ∀ (x : Bool) (r : Mem) (s : State) (vals : List Word) (l : Loc),
    Reads s [src r.a r.pa] (some r.d) vals → NoStep s → Unfenced s r.cls false →
    s.scalarAt (ea (arg vals 0) r) (2 ^ r.sz.toNat) .read true true = .ok l → s.formHeld l = false →
    (Uncombined s l (2 ^ r.sz.toNat) →
      ∃ t, exec (if x then .lds r else .ldz r) s = .next t ∧ Issues s t [src r.a r.pa] (some r.d) ∧
        Access s t [src r.a r.pa] (some r.d) r.cls (issued s (ea (arg vals 0) r))
          (.load (ea (arg vals 0) r) l (2 ^ r.sz.toNat) x)) ∧
    (¬ Uncombined s l (2 ^ r.sz.toNat) →
      exec (if x then .lds r else .ldz r) s = .next (flushing s fun e => e.loc.overlap e.n l (2 ^ r.sz.toNat)))

/-- R186, R115, R119: a store issues, or flushes and waits, in the same way, with the value popped from its second register; nothing is written yet. -/
def Sys2Proof.Claims.StoresIssue : Prop :=
  ∀ (r : Mem) (s : State) (vals : List Word) (l : Loc),
    Reads s [src r.a r.pa, pop r.d] none vals → NoStep s → Unfenced s r.cls true →
    s.scalarAt (ea (arg vals 0) r) (2 ^ r.sz.toNat) .write true false = .ok l → s.formHeld l = false →
    (Uncombined s l (2 ^ r.sz.toNat) →
      ∃ t, exec (.st r) s = .next t ∧ Issues s t [src r.a r.pa, pop r.d] none ∧
        Access s t [src r.a r.pa, pop r.d] none r.cls (issued s (ea (arg vals 0) r))
          (.store (ea (arg vals 0) r) l (2 ^ r.sz.toNat) (arg vals 1))) ∧
    (¬ Uncombined s l (2 ^ r.sz.toNat) →
      exec (.st r) s = .next (flushing s fun e => e.loc.overlap e.n l (2 ^ r.sz.toNat)))

/-- R188, R119: a returning atomic issues, or flushes and waits, in the same way, with its operands; ACAS pops the expected value, then the new one. -/
def Sys2Proof.Claims.AtomicsIssue : Prop :=
  ∀ (i : Instr) (r : Atom) (op : AtomOp) (s : State) (vals : List Word) (l : Loc),
    atomicOp i = some (r, op) → Reads s (atomicReads r op) (some r.d) vals → NoStep s → Unfenced s r.cls true →
    s.scalarAt (arg vals 0) (if r.sz then 8 else 4) .rmw true true = .ok l → s.isOnChip l = true ∨ s.isPeer l = true →
    s.formHeld l = false →
    (Uncombined s l (if r.sz then 8 else 4) →
      ∃ t, exec i s = .next t ∧ Issues s t (atomicReads r op) (some r.d) ∧
        Access s t (atomicReads r op) (some r.d) r.cls (issued s (arg vals 0))
          (.atomic l (if r.sz then 8 else 4) op (arg vals 1) (if op = .cas then arg vals 2 else 0))) ∧
    (¬ Uncombined s l (if r.sz then 8 else 4) →
      exec i s = .next (flushing s fun e => e.loc.overlap e.n l (if r.sz then 8 else 4)))

/-- R189, R119: a reduction that finds an entry of the combining buffer of its place, width and operation, not yet flushed,
combines with it, but for RFADD; one that finds an entry over its bytes of another width or operation flushes it and
waits; one that finds the buffer full flushes the oldest entry and waits; every other becomes an entry of its own. It
pushes nothing, and no byte of memory changes. -/
def Sys2Proof.Claims.Reductions : Prop :=
  ∀ (i : Instr) (a b : BitVec 5) (n : Nat) (op : AtomOp) (s : State) (vals : List Word) (l : Loc),
    reductionOp i = some (a, b, n, op) → Reads s [pop a, pop b] none vals → NoStep s →
    s.scalarAt (arg vals 0) n .rmw true false = .ok l → s.isOnChip l = true ∨ s.isPeer l = true → s.formHeld l = false →
    (∀ pre e post, (s.core s.p).comb = pre ++ e :: post → Combines l n op e → (∀ x ∈ pre, ¬ Combines l n op x) →
      ∃ t v, exec i s = .next t ∧ Committed s t [pop a, pop b] none ∧ (t.ctx s.p s.k).pc = s.me!.pc + 4 ∧
        (∀ q, (t.core s.p).queue s.k q = reg (popped s [pop a, pop b]) q) ∧
        (t.core s.p).comb = pre ++ { e with v := v } :: post ∧
        v.setWidth (8 * n) = homeValue op (8 * n) (e.v.setWidth (8 * n)) ((arg vals 1).setWidth (8 * n)) 0) ∧
    ((∀ e ∈ (s.core s.p).comb, ¬ Combines l n op e) →
      ((∃ e ∈ (s.core s.p).comb, clashes l n op e = true) → exec i s = .next (flushing s (clashes l n op))) ∧
      ((∀ e ∈ (s.core s.p).comb, clashes l n op e = false) → ∀ e rest, (s.core s.p).comb = e :: rest →
        64 ≤ (s.core s.p).comb.length →
        exec i s = .next ((s.setCore s.p { s.core s.p with comb := { e with flush := true } :: rest }).setCtx s.p s.k
          { s.me! with blocked := true })) ∧
      ((∀ e ∈ (s.core s.p).comb, clashes l n op e = false) → (s.core s.p).comb.length < 64 →
        ∃ t, exec i s = .next t ∧ Committed s t [pop a, pop b] none ∧ (t.ctx s.p s.k).pc = s.me!.pc + 4 ∧
          (∀ q, (t.core s.p).queue s.k q = reg (popped s [pop a, pop b]) q) ∧
          (t.core s.p).comb = (s.core s.p).comb ++
            [{ id := (s.core s.p).combNext, loc := l, n := n, op := op, v := arg vals 1, taken := s.cycle, flush := false }]))

/-- Scalar accesses issue (R186–R189). -/
def Obligations.AccessesIssue : Prop := Sys2Proof.Claims.LoadsIssue ∧ Sys2Proof.Claims.StoresIssue ∧ Sys2Proof.Claims.AtomicsIssue ∧ Sys2Proof.Claims.Reductions

namespace Sys2Proof.Claims

open Sys2Proof.Machine

/-- What a fence leaves alone: everything but the context's accesses, the flushed entries of its core's combining buffer,
the L1s, and its core's performance counters. -/
structure FenceFrame (s t : State) : Prop where
  module : t = { s with cores := t.cores }
  others : ∀ q, q ≠ s.p → t.core q = { s.core q with l1 := (t.core q).l1 }
  core : t.core s.p = { s.core s.p with ctx := (t.core s.p).ctx, comb := (t.core s.p).comb, l1 := (t.core s.p).l1,
                                        dbg := (t.core s.p).dbg }
  contexts : ∀ k, k ≠ s.k → t.ctx s.p k = s.ctx s.p k
  context : t.ctx s.p s.k = { goesOn s.me! (s.me!.pc + 4) with pend := (t.ctx s.p s.k).pend, nextId := (t.ctx s.p s.k).nextId }

/-- The fences of R117 but ACQREL, with what each puts among the context's accesses. -/
def fenceKind (i : Instr) (s : State) : Option PendKind :=
  match i with
  | .fence _ m => some (.fence m)
  | .acq r => some (.acq r.scope r.mask)
  | .rel r => some (.rel r.scope r.mask (s.core s.p).combNext)
  | _ => none

/-- An access among what a context has issued, its place, and whether it loads or stores. -/
def accessAt (i : Pend) : Option (Loc × Bool × Bool) :=
  match i.kind with
  | .load _ l _ _ => some (l, true, false)
  | .store _ l _ _ => some (l, false, true)
  | .atomic l _ _ _ _ => some (l, true, true)
  | _ => none

/-- The place is one whose acknowledgement a release at a scope waits for (R116). -/
def awaited (sc : Scope) (l : Loc) : Prop :=
  match sc with
  | .under => l.isUnder = true
  | .sys => True
  | _ => l.isOutside = false

/-- Some earlier access holds a fence back (R116, R117). -/
def Outstanding (s : State) (f : PendKind) : Prop :=
  match f with
  | .fence m => ∃ i ∈ s.me!.pend, (accessAt i).isSome ∧ m.getLsbD i.cls.toNat = true
  | .acq _ m => ∃ i ∈ s.me!.pend, (∃ l w, accessAt i = some (l, true, w)) ∧ m.getLsbD i.cls.toNat = true
  | .rel sc m _ =>
    (∃ i ∈ s.me!.pend, ∃ l ld st, accessAt i = some (l, ld, st) ∧ (ld = true ∨ awaited sc l) ∧
      m.getLsbD i.cls.toNat = true) ∨
    ∃ e ∈ (s.core s.p).comb, awaited sc e.loc
  | _ => False

/-- No satisfied fence stands among what the acting context has issued, and the combining buffer's entries are numbered
below the next: each fence takes effect in the step that satisfies it. -/
def Settled (s : State) : Prop :=
  settleList (s.core s.p) [] s.me!.pend = s.me!.pend ∧ ∀ e ∈ (s.core s.p).comb, e.id < (s.core s.p).combNext

/-- Where a fence stands after what the context has issued: last, while an access holds it back, else nowhere. -/
def Stands (s : State) (f : PendKind) (id : Nat) (l : List Pend) : Prop :=
  (Outstanding s f → ∃ j, l = [j] ∧ j.id = id ∧ j.kind = f) ∧ (¬ Outstanding s f → l = [])

/-- The L1s that an acquire which takes effect empties (R116): its core's, or its bay's when fused. -/
def emptied (s : State) (f : PendKind) (q : CoreId) : Prop :=
  (∃ sc m, f = .acq sc m ∧ (sc = .bay ∨ sc = .bent ∨ sc = .dev ∨ sc = .sys)) ∧ ¬ Outstanding s f ∧
    if (s.bay (bayOf s.p)).fused then bayOf q = bayOf s.p else q = s.p

/-- Each L1 emptied or as it stood. -/
def L1After (s t : State) (f : PendKind) : Prop :=
  ∀ q, (emptied s f q → (t.core q).l1 = []) ∧ (¬ emptied s f q → (t.core q).l1 = (s.core q).l1)

/-- The combining buffer with every entry flushed. -/
def flushed (s : State) : List Comb := (s.core s.p).comb.map fun e => { e with flush := true }

/-- What a wait of R191 waits for. -/
def waitCond (i : Instr) : Option (R3 × (Word → Word → Prop)) :=
  match i with
  | .waitge r => some (r, fun m b => b.toNat ≤ m.toNat)
  | .waitne r => some (r, fun m b => m ≠ b)
  | _ => none

/-- The word at a place as its home gives it. -/
def wordAt (s : State) (l : Loc) : Word := BitVec.ofNat 64 (s.readLoc s.p l 8)

/-- The state with another of the core's contexts the acting one. -/
def onCtx (s : State) (k : Ctx) : State := { s with sched := { s.sched with ctx := k } }

/-- The entries a sleeping wait reads. -/
def waitReads (w : Wait) : List Rd := [src w.op.a w.op.pa, src w.op.b w.op.pb]

/-- A wait of another context on the word at a place. -/
def WaitsOn (s : State) (l : Loc) (k : Ctx) (w : Wait) : Prop := k ≠ s.k ∧ (s.ctx s.p k).wait = some w ∧ w.loc = l

/-- A wait that reads and pushes no channel. -/
def Private (k : Ctx) (w : Wait) : Prop :=
  channel k w.op.a = false ∧ channel k w.op.b = false ∧ channel k w.op.d = false

/-- A field of a register. -/
def field (x n : Nat) : Word := BitVec.ofNat 64 x <<< n

/-- What a CSR number reads (R64, R82, R109, R124, R178, R179, R280, R312); PODWs of a subscription alone, PLFREEZE outside
a timetable freeze. -/
def csrValue (s : State) (n : Nat) : Option Word :=
  let x := s.me!
  let c := s.core s.p
  if 0x80 ≤ n ∧ n < 0x90 then
    let y := vget c.plumb.syms (n - 0x80)
    some (field y.lowcnt 56 ||| field y.lowmax 48 ||| field y.wmax 40 ||| field y.pbind 32 ||| field y.bind 24 |||
      field y.hi 16 ||| field y.lo 8 ||| field y.pend.toNat 1 ||| field y.valid.toNat 0)
  else if 0x92 ≤ n ∧ n < 0x9A then some (vget c.gate.tslot (n - 0x92))
  else if 0xA8 ≤ n ∧ n < 0xB8 then
    let y := vget c.pods (n - 0xA8)
    if y.valid then some (field y.win 34 ||| field 1 33 ||| field y.rows 18 ||| field y.rpos 0) else none
  else match n with
    | 0 => some x.status
    | 1 => some x.tvec
    | 2 => some x.tepc
    | 3 => some x.tcause
    | 4 => some x.tval
    | 5 => some x.tscr
    | 6 => some x.tword
    | 7 => some x.xres
    | 8 => c.place.map fun pl => field pl.group.toNat 16 ||| field pl.lidx.toNat 8 |||
        field (match s.k with | .ld => 0 | .cp => 1 | .st => 2) 0
    | 0x30 => some (BitVec.ofNat 64 s.cycle)
    | 0x90 => some c.plumb.retime
    | 0x91 => if (s.ve s.p).frz then none else some c.plumb.freeze
    | 0xA0 => some c.rng.seed
    | 0xA1 => some (field (s.bay (bayOf s.p)).fused.toNat 1 ||| field c.fuse.toNat 0)
    | 0xA2 => some (field c.monfull.toNat 8 ||| field c.mon.length 0)
    | 0xA6 => some c.engflt
    | _ => none

/-- The numbers marked U in R178. -/
def userCsr (n : Nat) : Prop :=
  n = 7 ∨ n = 8 ∨ n = 0x30 ∨ (0x80 ≤ n ∧ n < 0x9A) ∨ (0xA0 ≤ n ∧ n < 0xA3) ∨ n = 0xA5 ∨ n = 0xA6 ∨ (0xA8 ≤ n ∧ n < 0xB8)

/-- A context with the register that a banked CSR number names written: in STATUS bits 4:1, in TCAUSE AUX and CODE, in the
others every bit (R4, R179). -/
def setTrapReg (n : Nat) (v : Word) (x : Context) : Context :=
  match n with
  | 0 => { x with status := x.status &&& ~~~0x1E ||| v &&& 0x1E }
  | 1 => { x with tvec := v }
  | 2 => { x with tepc := v }
  | 3 => { x with tcause := x.tcause &&& ~~~0xFF00FF ||| v &&& 0xFF00FF }
  | 4 => { x with tval := v }
  | 5 => { x with tscr := v }
  | 6 => { x with tword := v }
  | _ => x

/-- A core with the user register that a CSR number names written: RNGSEED with its two seedings to come (R82), FUSE of
L1CFG, MONFULL cleared by a 1; every other user register is read-only. -/
def setUserReg (n : Nat) (v : Word) (c : Core) : Core :=
  match n with
  | 0xA0 => { c with rng := { c.rng with seed := v, vPend := true, mPend := true } }
  | 0xA1 => { c with fuse := v.getLsbD 0 }
  | 0xA2 => { c with monfull := c.monfull && !v.getLsbD 8 }
  | _ => c

/-- The CSR instructions that write, with the value they write (R194). -/
def csrWrites (i : Instr) : Option (Csr × (Word → Word → Word)) :=
  match i with
  | .csrw r => some (r, fun _ a => a)
  | .csrs r => some (r, fun old a => old ||| a)
  | .csrc r => some (r, fun old a => old &&& ~~~a)
  | _ => none

/-- A word that only goes on at the next, its context's queues changed by its reads and pushes alone: every part of the
module but its own core stands, and of the core what `c` says. -/
structure OwnCore (s t : State) (rds : List Rd) (push : Option (BitVec 5)) (c : Core) : Prop where
  word : Committed s t rds push
  module : t = s.setCore s.p (t.core s.p)
  core : t.core s.p = { c with ctx := (t.core s.p).ctx, chans := (t.core s.p).chans, dbg := (t.core s.p).dbg }
  pc : (t.ctx s.p s.k).pc = s.me!.pc + 4
  popped : ∀ r, push ≠ some r → (t.core s.p).queue s.k r = reg (popped s rds) r

/-- The command words that EPUSH and XCMD make of the entries they read: a's, then b's (R197). -/
def pushedWords (vals : List Word) (xwc : Nat) : List W32 :=
  ((vals.flatMap fun v : Word => [v.setWidth 32, (v >>> 32).setWidth 32]) ++ List.replicate 16 0).take (1 + xwc)

/-- The entries EPUSH and XCMD read for a header: a's, and ⌈(XWC − 1) / 2⌉ of b's (R197). -/
def pushReads (r : Push) (xwc : Nat) : List Rd := src r.a r.pa :: List.replicate (xwc / 2) (src r.b r.pb)

end Sys2Proof.Claims

open Sys2Proof Sys2Proof.Machine Sys2Proof.Claims

/-- R117, R190: a load, store or atomic in a class that an unsatisfied fence of its context covers waits. That it waits before
its address is translated, whatever the address, is log 15's reading. -/
def Sys2Proof.Claims.FencedWait : Prop :=
  ∀ (s : State) (vals : List Word),
    (∀ (x : Bool) (r : Mem), Reads s [src r.a r.pa] (some r.d) vals → ¬ Unfenced s r.cls false →
      ∃ t, exec (if x then .lds r else .ldz r) s = .next t ∧ Waits s t) ∧
    (∀ (r : Mem), Reads s [src r.a r.pa, pop r.d] none vals → ¬ Unfenced s r.cls true →
      ∃ t, exec (.st r) s = .next t ∧ Waits s t) ∧
    (∀ (i : Instr) (r : Atom) (op : AtomOp), atomicOp i = some (r, op) → Reads s (atomicReads r op) (some r.d) vals →
      ¬ Unfenced s r.cls true → ∃ t, exec i s = .next t ∧ Waits s t)

/-- R116, R117, R190: FENCE, ACQ and REL commit at once; each stands among the context's accesses as long as an access or a
reduction it waits for is outstanding, and takes effect at once where none is: an ACQ of bay, bent, dev or sys scope then
empties the L1, or the fused L1. A REL flushes the whole combining buffer. Nothing else changes. -/
def Sys2Proof.Claims.Fences : Prop :=
  ∀ (i : Instr) (s : State) (f : PendKind), fenceKind i s = some f → NoStep s → Settled s →
    ∃ t l, exec i s = .next t ∧ FenceFrame s t ∧ (t.ctx s.p s.k).pend = s.me!.pend ++ l ∧ Stands s f s.me!.nextId l ∧
      L1After s t f ∧ Settled t ∧
      (t.core s.p).comb =
        match f with
        | .rel _ _ _ => flushed s
        | _ => (s.core s.p).comb

/-- R116, R117: ACQREL acts as the REL, then the ACQ, of its scope and mask. -/
def Sys2Proof.Claims.ReleaseAcquire : Prop :=
  ∀ (r : Fen) (s : State), NoStep s → Settled s →
    let rel : PendKind := .rel r.scope r.mask (s.core s.p).combNext
    let acq : PendKind := .acq r.scope r.mask
    ∃ t l l', exec (.acqrel r) s = .next t ∧ FenceFrame s t ∧ (t.ctx s.p s.k).pend = s.me!.pend ++ l ++ l' ∧
      Stands s rel s.me!.nextId l ∧ Stands s acq (s.me!.nextId + 1) l' ∧ L1After s t acq ∧ Settled t ∧
      (t.core s.p).comb = flushed s

/-- Fences stand among the accesses they order, and hold back those behind them (R116, R117, R190). -/
def Obligations.FencesOrder : Prop := Sys2Proof.Claims.FencedWait ∧ Sys2Proof.Claims.Fences ∧ Sys2Proof.Claims.ReleaseAcquire

/-- R191, R122, R124, R170: a WAITGE or WAITNE whose word satisfies it pops its operands, reserves an entry for the word's
value and commits, its monitor entry freed; one whose word does not pops nothing and sleeps on the word, with a monitor
entry where one is free, and with no write noted. -/
def Sys2Proof.Claims.WaitWords : Prop :=
  ∀ (i : Instr) (r : R3) (c : Word → Word → Prop) (s : State) (vals : List Word) (l : Loc),
    waitCond i = some (r, c) → Reads s [src r.a r.pa, src r.b r.pb] (some r.d) vals → NoStep s →
    s.scalarAt (arg vals 0) 8 .read true true = .ok l → s.isOnChip l = true → s.formHeld l = false →
    (∀ w, s.me!.wait = some w → w.ready = true ∧ w.ended = false) →
    (c (wordAt s l) (arg vals 1) →
      ∃ t, exec i s = .next t ∧ Committed s t [src r.a r.pa, src r.b r.pb] (some r.d) ∧
        (t.ctx s.p s.k).pc = s.me!.pc + 4 ∧
        Access s t [src r.a r.pa, src r.b r.pb] (some r.d) 0 {} (.value (wordAt s l)) ∧
        (t.core s.p).mon = (s.core s.p).mon.filter fun e => decide (e.ctx ≠ s.k)) ∧
    (¬ c (wordAt s l) (arg vals 1) →
      ∃ t w, exec i s = .next t ∧ (t.ctx s.p s.k).pc = s.me!.pc ∧ (t.ctx s.p s.k).wait = some w ∧ w.loc = l ∧
        w.seen = wordAt s l ∧ w.ready = false ∧ w.ended = false ∧ w.op = r ∧ w.word = s.sched.word ∧
        (∀ q, (t.core s.p).queue s.k q = reg s q) ∧ (s.p, s.k) ∉ t.marks.woken ∧
        ((s.core s.p).mon.length < 16 → Committed s t [] none) ∧
        ((∀ e ∈ (s.core s.p).mon, e.ctx ≠ s.k) → (s.core s.p).mon.length < 16 →
          w.monitored = true ∧ (t.core s.p).mon = (s.core s.p).mon ++ [{ loc := l, ctx := s.k }]) ∧
        ((∀ e ∈ (s.core s.p).mon, e.ctx ≠ s.k) → 16 ≤ (s.core s.p).mon.length →
          w.monitored = false ∧ (t.core s.p).monfull = true))

/-- R191: MONCLR ends at once every wait of its core on the word: the wait pops its operands, pushes the word's value at
that moment and commits, whatever its condition. Where the register the value goes to has no room the wait is marked ended,
and commits with that value once it has (DEDUCED, log 42). Their monitor entries are freed; with no such wait only the
MONCLR itself goes on. -/
def Sys2Proof.Claims.WaitsEnded : Prop :=
  (∀ (r : Src) (s : State) (vals : List Word) (l : Loc),
    Reads s [src r.a r.pa] none vals → NoStep s → s.scalarAt (arg vals 0) 8 .read false true = .ok l →
    s.isOnChip l = true → s.formHeld l = false →
    ∃ t, exec (.monclr r) s = .next t ∧ (t.ctx s.p s.k).pc = s.me!.pc + 4 ∧
      (∀ k, k ≠ s.k → (∀ w, ¬ WaitsOn s l k w) → t.ctx s.p k = s.ctx s.p k) ∧
      (∀ q, channel s.k q = false → (t.core s.p).queue s.k q = reg (popped s [src r.a r.pa]) q) ∧
      (∀ e ∈ (t.core s.p).mon, e ∈ (s.core s.p).mon ∧ e.loc ≠ l) ∧
      (∀ e ∈ (s.core s.p).mon, e.loc ≠ l → (∀ w, ¬ WaitsOn s l e.ctx w) → e ∈ (t.core s.p).mon) ∧
      ((∀ k w, WaitsOn s l k w → NoStep (onCtx s k)) →
        t.mem = s.mem ∧ (∀ q, (t.core q).scratch = (s.core q).scratch) ∧ ∀ q, q ≠ s.p → t.core q = s.core q) ∧
      ((∀ k w, ¬ WaitsOn s l k w) → Committed s t [src r.a r.pa] none ∧
        ∀ q, (t.core s.p).queue s.k q = reg (popped s [src r.a r.pa]) q) ∧
      ∀ k w, WaitsOn s l k w → (∀ k' w', k' ≠ k → WaitsOn s l k' w' → Private k' w') →
        let u := onCtx (popped s [src r.a r.pa]) k
        (∀ vs, Reads u (waitReads w) (some w.op.d) vs → NoStep u →
          t.ctx s.p k = { goesOn (s.ctx s.p k) ((s.ctx s.p k).pc + 4) with
            regs := (t.ctx s.p k).regs, sup := (t.ctx s.p k).sup, pend := (t.ctx s.p k).pend,
            nextId := (t.ctx s.p k).nextId } ∧
          Access u t (waitReads w) (some w.op.d) 0 {} (.value (wordAt s l))) ∧
        ((∀ vs, ¬ Reads u (waitReads w) (some w.op.d) vs) →
          t.ctx s.p k = { s.ctx s.p k with wait := some { w with ended := true, seen := wordAt s l } })) ∧
  ∀ (i : Instr) (r : R3) (c : Word → Word → Prop) (s : State) (vals : List Word) (w : Wait),
    waitCond i = some (r, c) → Reads s [src r.a r.pa, src r.b r.pb] (some r.d) vals → NoStep s →
    s.me!.wait = some w → w.ended = true →
    ∃ t, exec i s = .next t ∧ Committed s t [src r.a r.pa, src r.b r.pb] (some r.d) ∧
      (t.ctx s.p s.k).pc = s.me!.pc + 4 ∧ Access s t [src r.a r.pa, src r.b r.pb] (some r.d) 0 {} (.value w.seen)

/-- R124, R67: any write performed at a monitored word is noted for its wait, the same value written again among them, and
wakes it; with no write noted the wait sleeps on. A wait without a monitor entry wakes once its poll is due and its core
does not stand in a freeze, and the poll is counted; otherwise the state stands. -/
def Sys2Proof.Claims.WaitsWoken : Prop :=
  (∀ (s : State) (p q : CoreId) (l : Loc) (bs : List Byte) (e : Mon),
    e ∈ (s.core p).mon → e.loc.overlap 8 l bs.length = true → (∀ o, l = .spad o → q = p) →
    (p, e.ctx) ∈ (s.writeLoc q l bs).marks.woken) ∧
  ∀ (p : CoreId) (k : Ctx) (s : State) (w : Wait), (s.ctx p k).wait = some w →
    (w.monitored = true → (p, k) ∈ s.marks.woken →
      let t := s.setCtx p k { s.ctx p k with wait := some { w with ready := true } }
      exec (.waitWake p k) s =
        .next { t with marks := { s.marks with woken := s.marks.woken.filter fun x => decide (x ≠ (p, k)) } }) ∧
    (w.monitored = true → (p, k) ∉ s.marks.woken → exec (.waitWake p k) s = .next s) ∧
    (w.monitored = false → w.nextPoll ≤ s.nanos → s.stalled p = false →
      exec (.monitorPoll p k) s =
        .next ((s.setCtx p k { s.ctx p k with wait := some { w with ready := true } }).count p 0x11 1)) ∧
    (s.nanos < w.nextPoll ∨ s.stalled p = true → exec (.monitorPoll p k) s = .next s)

/-- Waits on a word: they commit or sleep, are ended, and wake (R124, R191). -/
def Obligations.WaitsRun : Prop := Sys2Proof.Claims.WaitWords ∧ Sys2Proof.Claims.WaitsEnded ∧ Sys2Proof.Claims.WaitsWoken

/-- R4, R176–R179, R194: CSRR reserves an entry for what its number reads; CSRW, CSRS and CSRC make a register A, old OR A
and old AND NOT A, each in the fields that software writes, and reserve an entry for its old value; no other register
changes. In user mode a number that is not one of the user's traps PRIVILEGE. -/
def Obligations.ControlRegisters : Prop :=
  ∀ (s : State), NoStep s →
    (∀ (sb : Bool) (d : BitVec 5) (n : BitVec 12) (v : Word) (vals : List Word),
      s.me!.status.getLsbD 0 = true ∨ userCsr n.toNat → csrValue s n.toNat = some v → Reads s [] (some d) vals →
      ∃ t, exec (.csrr sb d n) s = .next t ∧ OwnCore s t [] (some d) (s.core s.p) ∧ Access s t [] (some d) 0 {} (.value v)) ∧
    (∀ (i : Instr) (r : Csr) (f : Word → Word → Word) (v : Word) (vals : List Word),
      csrWrites i = some (r, f) → s.me!.status.getLsbD 0 = true → r.num.toNat ≤ 6 → csrValue s r.num.toNat = some v →
      Reads s [src r.a r.pa] (some r.d) vals →
      ∃ t, exec i s = .next t ∧ (∀ q, q ≠ s.p → t.core q = s.core q) ∧ t.mem = s.mem ∧
        (∀ k, k ≠ s.k → t.ctx s.p k = s.ctx s.p k) ∧
        t.ctx s.p s.k = setTrapReg r.num.toNat (f v (arg vals 0))
          { goesOn s.me! (s.me!.pc + 4) with regs := (t.ctx s.p s.k).regs, sup := (t.ctx s.p s.k).sup,
                                             nextId := (t.ctx s.p s.k).nextId, pend := (t.ctx s.p s.k).pend } ∧
        Access s t [src r.a r.pa] (some r.d) 0 {} (.value v)) ∧
    (∀ (i : Instr) (r : Csr) (f : Word → Word → Word) (v : Word) (vals : List Word),
      csrWrites i = some (r, f) → userCsr r.num.toNat → csrValue s r.num.toNat = some v →
      (r.num.toNat = 0xA1 → (f v (arg vals 0)).getLsbD 0 = false → (s.bay (bayOf s.p)).fused = false) →
      Reads s [src r.a r.pa] (some r.d) vals →
      ∃ t, exec i s = .next t ∧
        OwnCore s t [src r.a r.pa] (some r.d) (setUserReg r.num.toNat (f v (arg vals 0)) (s.core s.p)) ∧
        Access s t [src r.a r.pa] (some r.d) 0 {} (.value v)) ∧
    (s.me!.status.getLsbD 0 = false → s.me!.tvec ≠ 0 →
      (∀ (sb : Bool) (d : BitVec 5) (n : BitVec 12), ¬ userCsr n.toNat → ¬ (0xC0 ≤ n.toNat ∧ n.toNat ≤ 0xFF) →
        ∃ t, exec (.csrr sb d n) s = .next t ∧ Trapped s t 0x06 0 0 s.me!.pc) ∧
      (∀ (i : Instr) (r : Csr) (f : Word → Word → Word), csrWrites i = some (r, f) → ¬ userCsr r.num.toNat →
        ¬ (0xC0 ≤ r.num.toNat ∧ r.num.toNat ≤ 0xFF) →
        ∃ t, exec i s = .next t ∧ Trapped s t 0x06 0 0 s.me!.pc))

/-- R197, R175: an EPUSH whose header passes checks 1–5 of R139, with room in the queue and nothing that orders it after an
earlier access, appends the command made of the entries it reads, whole; a header that fails one traps with that check's
code and commits nothing. -/
def Sys2Proof.Claims.EnginePush : Prop :=
  ∀ (r : Push) (s : State) (vals : List Word), NoStep s →
    let h : W32 := (arg vals 0).setWidth 32
    Reads s [src r.a r.pa] none [arg vals 0] → Reads s (pushReads r (H.xwc h)) none vals →
    H.xwc h ≤ 9 → (r.pb = true → H.xwc h / 2 ≤ 1) →
    (headerCheck h { ep := r.e, x := false } = none → Unfenced s (H.hdr h).cls true →
      (∀ i ∈ s.me!.pend, (accessAt i).isSome → i.cls ≠ (H.hdr h).cls) →
      (s.eng s.p r.e).q.length < (match r.e with | .l | .s => 64 | .m | .v => 16) →
      ∃ t, exec (.epush r) s = .next t ∧
        OwnCore s t (pushReads r (H.xwc h)) none ((s.core s.p).modEng r.e fun g =>
          { g with q := g.q ++ [{ words := pushedWords vals (H.xwc h), pc := 0, chain := false, blk := 0, dup := false,
                                  ticket := none }] })) ∧
    (∀ code, headerCheck h { ep := r.e, x := false } = some code → s.me!.tvec ≠ 0 →
      ∃ t, exec (.epush r) s = .next t ∧ Trapped s t code 0 (h.setWidth 64) s.me!.pc)

/-- R198, R200: ECHAIN starts a chain with nothing left to fetch at A, ETAIL moves its tail to A once the context's earlier
accesses have performed, ESEQ reserves an entry for the engine's sequence number, MCFG writes a
word of the shadow nest table once every MNEST that stood in the M queue when it was first tried has left it, and waits
until then; nothing else changes. That bits 5:0 of A are cleared is
log 17's reading of R227. -/
def Sys2Proof.Claims.ChainWords : Prop :=
  ∀ (s : State) (vals : List Word), NoStep s →
    (∀ (r : ChainOp), Reads s [src r.a r.pa] none vals → (s.eng s.p r.e).chain.ticket = none →
      ((s.eng s.p r.e).chain.stopped = true ∨
        ((s.eng s.p r.e).chain.start = none ∧ (s.eng s.p r.e).chain.fetch = (s.eng s.p r.e).chain.tail)) →
      ∃ t, exec (.echain r) s = .next t ∧
        OwnCore s t [src r.a r.pa] none ((s.core s.p).modEng r.e fun g =>
          { g with chain := { g.chain with head := arg vals 0 &&& ~~~63, tail := arg vals 0 &&& ~~~63,
                                           fetch := arg vals 0 &&& ~~~63, start := none, stopped := false } })) ∧
    (∀ (r : ChainOp), Reads s [src r.a r.pa] none vals → (∀ i ∈ s.me!.pend, ∃ v, i.kind = .value v) →
      ∃ t, exec (.etail r) s = .next t ∧
        OwnCore s t [src r.a r.pa] none ((s.core s.p).modEng r.e fun g =>
          { g with chain := { g.chain with tail := arg vals 0 &&& ~~~63 } })) ∧
    (∀ (sb : Bool) (e : Ep) (d : BitVec 5), Reads s [] (some d) vals →
      ∃ t, exec (.eseq sb e d) s = .next t ∧ OwnCore s t [] (some d) (s.core s.p) ∧
        Access s t [] (some d) 0 {} (.value (s.eng s.p e).chain.seq)) ∧
    (∀ (r : MCfg), Reads s [src r.a r.pa] none vals → r.idx.toNat < 48 →
      (s.me!.mcfg = none ∧ (∀ q ∈ (s.eng s.p .m).q, opcOf q.words ≠ 0x11)) ∨
        (∃ m, s.me!.mcfg = some m ∧ m ≤ (s.core s.p).nestsOut) →
      ∃ t, exec (.mcfg r) s = .next t ∧
        OwnCore s t [src r.a r.pa] none { s.core s.p with me := { (s.core s.p).me with
          shadow := (s.core s.p).me.shadow.setIfInBounds r.idx.toNat (arg vals 0) } }) ∧
    (∀ (r : MCfg), Reads s [src r.a r.pa] none vals → r.idx.toNat < 48 → s.me!.mcfg = none →
      (∃ q ∈ (s.eng s.p .m).q, opcOf q.words = 0x11) →
      exec (.mcfg r) s = .next (s.setCtx s.p s.k { s.me! with
        mcfg := some ((s.core s.p).nestsOut + (s.eng s.p .m).q.countP fun q => opcOf q.words == 0x11),
        blocked := true }))

/-- Words that feed the engines (R197, R198, R200). -/
def Obligations.EnginesPushed : Prop := Sys2Proof.Claims.EnginePush ∧ Sys2Proof.Claims.ChainWords

namespace Sys2Proof.Claims

open Sys2Proof.Machine

/-! ### Words with an effect of their own -/

/-- A word that reads registers, has the effect that makes `u` of the state before it, and goes on at the next word:
apart from that effect only its pops and its core's performance counters change anything. -/
structure After (s t u : State) (rds : List Rd) : Prop where
  module : t = u.setCore s.p (t.core s.p)
  core : t.core s.p = { u.core s.p with ctx := (t.core s.p).ctx, chans := (t.core s.p).chans, dbg := (t.core s.p).dbg }
  contexts : ∀ k, k ≠ s.k → t.ctx s.p k = u.ctx s.p k
  context : t.ctx s.p s.k =
    { goesOn (u.ctx s.p s.k) (s.me!.pc + 4) with regs := (t.ctx s.p s.k).regs, sup := (t.ctx s.p s.k).sup }
  popped : ∀ r, (t.core s.p).queue s.k r = reg (popped s rds) r

/-- A context's stores and atomics have performed. -/
def StoresDone (s : State) : Prop := ∀ i ∈ s.me!.pend, ∀ l ld, accessAt i ≠ some (l, ld, true)

/-- The lines an instruction cache holds, without one. -/
def without (l : List L1Line) (a : Nat) : List L1Line := l.filter fun x => decide (x.line ≠ a / 128 * 128)

/-- One of the two instruction caches of R130 changed. -/
def onCache (s : State) (bent : Bool) (f : List L1Line → List L1Line) : State :=
  if bent then s.modBent (bentOf s.p) fun b => { b with icache := f b.icache }
  else s.modCore s.p fun c => { c with icache := f c.icache }

/-! ### Performing -/

/-- The bytes written at a place, and every other byte of memory and of the scratchpads as it was. -/
def Stored (s t : State) (p : CoreId) (l : Loc) (bs : List Byte) : Prop :=
  match l with
  | .spad o =>
    t.mem = s.mem ∧ (∀ q, q ≠ p → (t.core q).scratch = (s.core q).scratch) ∧
      (∀ j, j < bs.length → (t.core p).scratch.get (o + j) = bs.getD j 0) ∧
      ∀ a, a < o ∨ o + bs.length ≤ a → (t.core p).scratch.get a = (s.core p).scratch.get a
  | .phys a =>
    (∀ q, (t.core q).scratch = (s.core q).scratch) ∧ (∀ b, t.key b = s.key b) ∧
      (∀ j, j < bs.length → t.rawByte (a + j) = bs.getD j 0) ∧
      ∀ b, (∀ j, j < bs.length → s.key b ≠ s.key (a + j)) → t.rawByte b = s.rawByte b

/-- No byte of memory and of the scratchpads changes. -/
def SameBytes (s t : State) : Prop := t.mem = s.mem ∧ ∀ q, (t.core q).scratch = (s.core q).scratch

/-- A place that a scalar access of 1, 2, 4 or 8 bytes names: aligned, and outside every format-region view. -/
def PlainAt (s : State) (l : Loc) (n : Nat) : Prop :=
  (n = 1 ∨ n = 2 ∨ n = 4 ∨ n = 8) ∧ l.align n = l ∧ ∀ j, j < n → s.inView (l.add j) = false

/-- The memories are in their canonical form. -/
def Canonical (s : State) : Prop := s.mem.wf = true ∧ ∀ p, (s.core p).scratch.wf = true

/-- Value `v` reaches the entry numbered `id` of a queue, where it still waits for it. -/
def FillsTo (q q' : Queue) (id : Nat) (v : Word) : Prop :=
  ((∀ e ∈ q, e.id ≠ id ∨ e.filled = true) ∧ q' = q) ∨
  ∃ pre e post, q = pre ++ e :: post ∧ (∀ x ∈ pre, x.id ≠ id ∨ x.filled = true) ∧ e.id = id ∧ e.filled = false ∧
    q' = pre ++ { e with val := v, filled := true } :: post

/-- The queue that an issued item fills: a register's, in the bank it named, or a channel's. -/
def dstQueue (c : Core) (k : Ctx) (d : BitVec 5 × Bool) : Queue :=
  match regKind k d.2 d.1 with
  | .priv => vget (c.getCtx k).regs d.1.toNat
  | .sup => vget (c.getCtx k).sup (d.1.toNat - 24)
  | .prod ch => vget c.chans ch
  | _ => []

def setDst (c : Core) (k : Ctx) (d : BitVec 5 × Bool) (q : Queue) : Core :=
  match regKind k d.2 d.1 with
  | .priv => c.setCtx k { c.getCtx k with regs := vset (c.getCtx k).regs d.1.toNat q }
  | .sup => c.setCtx k { c.getCtx k with sup := vset (c.getCtx k).sup (d.1.toNat - 24) q }
  | .prod ch => { c with chans := vset c.chans ch q }
  | _ => c

/-- A context's place in the rotation of R98. -/
def seat (k : Ctx) : Fin 8 :=
  match k with
  | .ld => 5
  | .cp => 6
  | .st => 7

/-- The bank of a scratchpad place grants the requester `r` next: of those that ask, it comes first from the pointer (R98);
which requesters take part in the rotation is log 5's reading. -/
def Granted (s : State) (p : CoreId) (r : Fin 8) (l : Loc) : Prop :=
  match l with
  | .phys _ => True
  | .spad o =>
    let first := vget (s.core p).banks (o / 128 % 16)
    ∀ x ∈ ([3, 5, 6, 7] : List (Fin 8)), s.asks p (o / 128 % 16) x = true → r - first ≤ x - first

/-- The pointers after a grant: the one of a scratchpad place's bank goes behind the requester (R98). -/
def pointers (s : State) (p : CoreId) (r : Fin 8) (l : Loc) : Vector (Fin 8) 16 :=
  match l with
  | .phys _ => (s.core p).banks
  | .spad o => vset (s.core p).banks (o / 128 % 16) (r + 1)

/-- The state with a place granted to a requester. -/
def rotated (u : State) (p : CoreId) (r : Fin 8) (l : Loc) : State :=
  u.modCore p fun c => { c with banks := pointers u p r l }

/-- All that performing an item leaves alone: `c` is the core with the entry filled, `banks` its scratchpad's pointers. The
item has left its context's accesses; fences that waited for it may have taken effect, and emptied an L1. -/
structure Performed (s t : State) (p : CoreId) (k : Ctx) (i : Pend) (c : Core) (banks : Vector (Fin 8) 16) : Prop where
  module : t = { s with cores := t.cores, mem := t.mem, llc := t.llc, marks := t.marks,
                        links := { s.links with pool := t.links.pool } }
  others : ∀ q, q ≠ p → t.core q = { s.core q with l1 := (t.core q).l1 }
  core : t.core p = { c with ctx := (t.core p).ctx, scratch := (t.core p).scratch, l1 := (t.core p).l1,
                             dbg := (t.core p).dbg, banks := banks }
  contexts : ∀ j, t.ctx p j = { c.getCtx j with pend := (t.ctx p j).pend }
  left : ∀ j ∈ (t.ctx p k).pend, j ∈ (s.ctx p k).pend ∧ j.id ≠ i.id
  kept : ∀ j ∈ (s.ctx p k).pend, j.id ≠ i.id → (accessAt j).isSome = true → j ∈ (t.ctx p k).pend

/-- A place whose access performs now at a home that holds bytes: neither its link lost nor a control register. -/
def AtHome (s : State) (l : Loc) : Prop := s.gone l = false ∧ s.ctlOff l = none

/-- The bytes a scalar load finds: the L1's copy of a device-memory line where one is held and not lost (R96; what the
L1 loses is free, log 6), else the home's. -/
def loadBytes (s : State) (p : CoreId) (l : Loc) (n v : Nat) : Prop :=
  match l with
  | .spad _ => v = s.readLoc p l n
  | .phys a =>
    if s.isDev l = true then
      (∃ x ∈ (s.core (s.l1Core p (a / 128 * 128))).l1, x.line = a / 128 * 128 ∧ v = leNat (vecByte x.data) (a % 128) n) ∨
        v = s.readLoc p l n
    else v = s.readLoc p l n

/-- A value of `n` bytes sign- or zero-extended to 64 bits (R186, R188). -/
def extended (sext : Bool) (n v : Nat) : Word :=
  if sext then BitVec.ofInt 64 (signedLow (8 * n) (BitVec.ofNat 64 v)) else BitVec.ofNat 64 (v % 2 ^ (8 * n))

/-- The result of R188 or R189 on `n` bytes. -/
def homeResult (op : AtomOp) (n m : Nat) (b new : Word) : Nat :=
  (homeValue op (8 * n) (BitVec.ofNat (8 * n) m) (BitVec.ofNat (8 * n) b.toNat) (BitVec.ofNat (8 * n) new.toNat)).toNat

end Sys2Proof.Claims

open Sys2Proof Sys2Proof.Machine Sys2Proof.Claims

/-- R202, R130, R105, R116: IINV drops the line of A, or every line, from the core's or its bent's instruction cache, and
waits for the context's earlier stores; TINV drops the core's TLB entries that cover A, or all, and traps
ACCESS where bits 63:52 of A are not zero (R34); L1INV drops the line of A
or empties the L1; PREF leaves the line of A + disp, where it is device memory, in the L1, or waits for the end of a
region change (R297). An address that does not translate makes IINV and L1INV do nothing, and of PREF only its shared-TLB
miss is counted (R357). Nothing else changes. -/
def Obligations.CacheWords : Prop :=
  ∀ (s : State) (v : Word), NoStep s →
    (∀ r : IInv, Reads s [src r.a r.pa] none [v] → (r.all = true → r.a = 0) →
      (StoresDone s → ∃ t, exec (.iinv r) s = .next t ∧
        if r.all = true then After s t (onCache s r.bent fun _ => []) [src r.a r.pa]
        else
          (∀ a, s.translate s.p v .locate s.user = .ok (.phys a) →
            After s t (onCache s r.bent fun l => without l a) [src r.a r.pa]) ∧
          ((∀ a, s.translate s.p v .locate s.user ≠ .ok (.phys a)) →
            s.translate s.p v .locate s.user ≠ .error .held → After s t s [src r.a r.pa])) ∧
      (¬ StoresDone s → ∃ t, exec (.iinv r) s = .next t ∧ Waits s t)) ∧
    (∀ r : Inv, Reads s [src r.a r.pa] none [v] → (r.all = true → r.a = 0) → s.me!.status.getLsbD 0 = true →
      (r.all = true ∨ v.toNat < 2 ^ 52 → ∃ t, exec (.tinv r) s = .next t ∧
        After s t (s.modCore s.p fun c =>
          { c with tlb := if r.all = true then [] else c.tlb.filter fun x => !x.hits v.toNat }) [src r.a r.pa]) ∧
      (r.all = false → 2 ^ 52 ≤ v.toNat → s.me!.tvec ≠ 0 →
        ∃ t, exec (.tinv r) s = .next t ∧ Trapped s t 0x0A 0 v s.me!.pc)) ∧
    (∀ r : Inv, Reads s [src r.a r.pa] none [v] → (r.all = true → r.a = 0) →
      ∃ t, exec (.l1inv r) s = .next t ∧
        (r.all = true → After s t (s.clearL1 s.p) [src r.a r.pa]) ∧
        (r.all = false → ∀ a, s.translate s.p v .locate s.user = .ok (.phys a) → s.isDev (.phys a) = true →
          After s t (s.modCore (s.l1Core s.p (a / 128 * 128)) fun c => { c with l1 := without c.l1 a }) [src r.a r.pa]) ∧
        (r.all = false → (∀ a, s.translate s.p v .locate s.user = .ok (.phys a) → s.isDev (.phys a) = false) →
          s.translate s.p v .locate s.user ≠ .error .held → After s t s [src r.a r.pa])) ∧
    (∀ r : Pref, Reads s [src r.a r.pa] none [v] →
      let ea := v + r.imm.signExtend 64
      ∃ t, exec (.pref r) s = .next t ∧
        (∀ a, s.translate s.p ea .read s.user = .ok (.phys a) → s.formHeld (.phys a) = false →
          (s.isDev (.phys a) = true →
            After s t ((s.note s.p ea).loadScalar s.p (.phys (a / 128 * 128)) 1).2 [src r.a r.pa] ∧
              ∃ x ∈ (t.core (s.l1Core s.p (a / 128 * 128))).l1, x.line = a / 128 * 128) ∧
          (s.isDev (.phys a) = false → After s t (s.note s.p ea) [src r.a r.pa])) ∧
        (∀ o, s.translate s.p ea .read s.user = .ok (.spad o) → After s t s [src r.a r.pa]) ∧
        (∀ e, s.translate s.p ea .read s.user = .error e → e ≠ .held → After s t (s.noteFail s.p ea) [src r.a r.pa]) ∧
        (s.translate s.p ea .read s.user = .error .held ∨
          (∃ a, s.translate s.p ea .read s.user = .ok (.phys a) ∧ s.formHeld (.phys a) = true) → Waits s t))

/-- R98, R171, R174, R96, R186, R188: an item that nothing holds back fills the entry it reserved, unless its core is frozen
(R67), a region change holds its access (R297) or its scratchpad bank grants another requester first (among contexts and VE
reads: log 1): a value with itself, a load with the bytes at its place extended, an atomic with the old value of its word, sign-extended,
as the result of R188 is left there. No other byte and no other register changes. -/
def Sys2Proof.Claims.EntriesFilled : Prop :=
  ∀ (p : CoreId) (k : Ctx) (n : Nat) (s : State) (i : Pend) (d : BitVec 5 × Bool),
    (s.ctx p k).pend[n]? = some i → i.dst = some d →
    (s.stalled p = true ∨ s.itemHeld i = true → exec (.qregFill p k n) s = .next s) ∧
    (mayPerform (s.ctx p k).pend i = false → exec (.qregFill p k n) s = .next s) ∧
    (∀ l x, accessAt i = some (l, x) → ¬ Granted s p (seat k) l → exec (.qregFill p k n) s = .next s) ∧
    (s.stalled p = false → s.itemHeld i = false → mayPerform (s.ctx p k).pend i = true →
      (∀ v, i.kind = .value v →
        ∃ t q, exec (.qregFill p k n) s = .next t ∧ FillsTo (dstQueue (s.core p) k d) q i.id v ∧
          Performed s t p k i (setDst (s.core p) k d q) (s.core p).banks ∧ SameBytes s t) ∧
      (∀ va l w sx, i.kind = .load va l w sx → AtHome s l → PlainAt s l w → Granted s p (seat k) l →
        ∃ t q v, exec (.qregFill p k n) s = .next t ∧ loadBytes s p l w v ∧
          FillsTo (dstQueue (s.core p) k d) q i.id (extended sx w v) ∧
          Performed s t p k i (setDst (s.core p) k d q) (pointers s p (seat k) l) ∧ SameBytes s t) ∧
      (∀ l w op b new, i.kind = .atomic l w op b new → AtHome s l → PlainAt s l w → Granted s p (seat k) l → 4 ≤ w → Canonical s →
        ∃ t q, exec (.qregFill p k n) s = .next t ∧
          FillsTo (dstQueue (s.core p) k d) q i.id (extended true w (s.readLoc p l w)) ∧
          Performed s t p k i (setDst (s.core p) k d q) (pointers s p (seat k) l) ∧
          Stored s t p l (bytesOfNat (homeResult op w (s.readLoc p l w) b new) w)))

/-- R98, R115–R117, R186: a store that nothing holds back writes its bytes at its place, and no other byte and no register
changes; one held back by an earlier access or fence, by a region change (R297) or by its scratchpad bank waits. -/
def Sys2Proof.Claims.StoresPerform : Prop :=
  ∀ (p : CoreId) (k : Ctx) (n : Nat) (s : State) (i : Pend) (va : Word) (l : Loc) (w : Nat) (v : Word),
    (s.ctx p k).pend[n]? = some i → i.kind = .store va l w v →
    (mayPerform (s.ctx p k).pend i = false ∨ s.itemHeld i = true ∨ ¬ Granted s p (seat k) l →
      exec (.homeAcknowledgement p k n) s = .next s) ∧
    (mayPerform (s.ctx p k).pend i = true → s.itemHeld i = false → Granted s p (seat k) l → AtHome s l → PlainAt s l w →
      Canonical s →
      ∃ t, exec (.homeAcknowledgement p k n) s = .next t ∧ Performed s t p k i (s.core p) (pointers s p (seat k) l) ∧
        Stored s t p l (bytesOfNat v.toNat w))

/-- R119, R189: an entry of the combining buffer that is flushed, or was taken 1,024 cycles ago, leaves the buffer and its
operation is applied at its home as one atomic; any other, and one that a region change holds (R297), stays. -/
def Sys2Proof.Claims.CombiningFlushes : Prop :=
  ∀ (p : CoreId) (n : Nat) (s : State) (e : Comb), (s.core p).comb[n]? = some e →
    ((e.flush = false ∧ s.cycle < e.taken + 1024) ∨ s.formHeld e.loc = true → exec (.combiningFlush p n) s = .next s) ∧
    (e.flush = true ∨ e.taken + 1024 ≤ s.cycle → s.gone e.loc = false → s.formHeld e.loc = false →
      PlainAt s e.loc e.n → 4 ≤ e.n → Canonical s →
      ∃ t, exec (.combiningFlush p n) s = .next t ∧ (t.core p).comb = (s.core p).comb.eraseIdx n ∧
        Stored s t p e.loc (bytesOfNat (homeResult e.op e.n (s.readLoc p e.loc e.n) e.v 0) e.n) ∧
        t = { s with cores := t.cores, mem := t.mem, llc := t.llc, marks := t.marks,
                     links := { s.links with pool := t.links.pool } } ∧
        (∀ q, q ≠ p → t.core q = { s.core q with l1 := (t.core q).l1 }) ∧
        t.core p = { s.core p with ctx := (t.core p).ctx, comb := (t.core p).comb, scratch := (t.core p).scratch,
                                   l1 := (t.core p).l1 } ∧
        ∀ j, t.ctx p j = { s.ctx p j with pend := (t.ctx p j).pend })

/-- What has issued performs (R115–R119, R171). -/
def Obligations.AccessesPerform : Prop := Sys2Proof.Claims.EntriesFilled ∧ Sys2Proof.Claims.StoresPerform ∧ Sys2Proof.Claims.CombiningFlushes

namespace Sys2Proof.Claims

open Sys2Proof.Machine

/-! ### Tasks -/

/-- The task word of R50. -/
def taskWordOf (packet : Bool) (group : BitVec 4) (low : Nat) : Word :=
  BitVec.ofNat 64 (packet.toNat * 2 ^ 63 + group.toNat * 2 ^ 32 + low % 2 ^ 32)

/-- All that a TNEXT that delivers `w` does besides the delivery itself, which makes `u` of the state before it: it acts
as an acquire of dev scope over every class, reserves an entry for the task word, and goes on at the next word. -/
structure Delivers (s t u : State) (d : BitVec 5) (w : Word) : Prop where
  module : t = { u with cores := t.cores }
  others : ∀ q, q ≠ s.p → t.core q = { u.core q with l1 := (t.core q).l1 }
  core : t.core s.p = { u.core s.p with
    ctx := (t.core s.p).ctx, chans := (t.core s.p).chans, l1 := (t.core s.p).l1, dbg := (t.core s.p).dbg }
  contexts : ∀ k, k ≠ s.k → t.ctx s.p k = u.ctx s.p k
  context : t.ctx s.p s.k = { goesOn (u.ctx s.p s.k) (s.me!.pc + 4) with
    regs := (t.ctx s.p s.k).regs, sup := (t.ctx s.p s.k).sup, nextId := s.me!.nextId + 2, pend := (t.ctx s.p s.k).pend }
  value : { id := s.me!.nextId + 1, cls := 0, kind := .value w, dst := some (d, s.me!.supMode) } ∈ (t.ctx s.p s.k).pend
  acquire : (∃ i ∈ s.me!.pend, ∃ l x, accessAt i = some (l, true, x)) →
    { id := s.me!.nextId, cls := 0, kind := .acq .dev (BitVec.allOnes 16), dst := none } ∈ (t.ctx s.p s.k).pend
  emptied : (∀ i ∈ s.me!.pend, ∀ l x, accessAt i ≠ some (l, true, x)) → (s.bay (bayOf s.p)).fused = false →
    (t.core s.p).l1 = []
  entry : ∀ r, (t.core s.p).queue s.k r =
    if r = d ∧ d ≠ 0 then reg s d ++ [{ id := s.me!.nextId + 1, val := 0, filled := false }] else reg s r

/-- A tile of the core opened now (R362). -/
def tileOpened (s : State) (task : W32) (u : State) : State :=
  let z : Stamp := { s0 := s.cycle, s1 := 0, s2 := 0, retime := (s.core s.p).plumb.retime, freeze := s.plfreeze s.p,
                     task := task, resumed := false }
  u.modCore s.p fun c => { c with gate := { c.gate with stamp := some z } }

/-- The task gate of a core with a task current. -/
def current (s : State) (x : Task) (w : Word) (slots : Vector Word 8) (rest : List Packet) : State :=
  s.modCore s.p fun c =>
    { c with gate := { c.gate with cur := some x, curWord := w, tslot := slots, ended := false, spawnq := rest } }

/-- A running core of a gang: one in it, neither fenced nor tested nor being saved. -/
structure Running (s : State) (g : Gang) (q : CoreId) : Prop where
  member : q ∈ g.cores ∧ ∃ pl, (s.core q).place = some pl ∧ pl.gang = g.id
  open_ : (s.core q).fenced = false ∧ (s.core q).testing = false ∧ (s.core q).saving = false

/-- The |difference| of two bent numbers. -/
def apart (a b : BentId) : Nat := (a.val - b.val) + (b.val - a.val)

/-- R52's order of the cores a dispatcher chooses among: fewest spawn-queue entries, T0 below 95 °C first, lowest T0,
lowest coordinate. -/
def Before (s : State) (q x : CoreId) : Prop :=
  let n := fun y => (s.core y).gate.spawnq.length
  let hot := fun y => if s.t0 y < 95 * 8 then 0 else 1
  n q < n x ∨ n q = n x ∧ (hot q < hot x ∨ hot q = hot x ∧ (s.t0 q < s.t0 x ∨ s.t0 q = s.t0 x ∧ q.val ≤ x.val))

/-- The core that the dispatcher of bent `b` chooses: in the nearest bent with a running core, the first in R52's order. -/
structure Dispatched (s : State) (g : Gang) (b : BentId) (q : CoreId) : Prop where
  runs : Running s g q
  nearest : ∀ x, Running s g x → apart (bentOf q) b < apart (bentOf x) b ∨
    apart (bentOf q) b = apart (bentOf x) b ∧ (bentOf q).val ≤ (bentOf x).val
  first : ∀ x, Running s g x → bentOf x = bentOf q → Before s q x

/-- The core in whose column an understore line lies (R25): 16 slices of 28 MiB, one for each core of the bent. -/
def column (b o : Nat) : CoreId := coreOfBent (bentOfNat b) (o / 0x1C00000)

/-- The receiving core of a spawn packet by R52's table. -/
def Receives (s : State) (g : Gang) (l : Loc) (q : CoreId) : Prop :=
  match l with
  | .spad _ => q = s.p
  | .phys a =>
    match s.space a with
    | .under b o => (Running s g (column b o) ∧ q = column b o) ∨ (¬ Running s g (column b o) ∧ Dispatched s g (bentOfNat b) q)
    | .dev o => Dispatched s g (bentOfNat (o / 2 ^ 21 % 32 / 2)) q
    | _ => False

/-- The bent whose dispatcher a packet is addressed to, where one chooses the receiver. -/
def Way (s : State) (g : Gang) (l : Loc) (b : BentId) : Prop :=
  match l with
  | .spad _ => False
  | .phys a =>
    match s.space a with
    | .under n o => ¬ Running s g (column n o) ∧ b = bentOfNat n
    | .dev o => b = bentOfNat (o / 2 ^ 21 % 32 / 2)
    | _ => False

/-- A dispatcher chooses the receiver. -/
def Routed (s : State) (g : Gang) (l : Loc) : Prop :=
  match l with
  | .spad _ => False
  | .phys a =>
    match s.space a with
    | .under b o => ¬ Running s g (column b o)
    | .dev _ => True
    | _ => False

/-- A place in no space that R52 names. -/
def NoReceiver (s : State) (l : Loc) : Prop :=
  match l with
  | .spad _ => False
  | .phys a =>
    match s.space a with
    | .under _ _ | .dev _ => False
    | _ => True

/-- A core's spawn queue takes a packet now: it has an entry, and no earlier packet is held for the core (R53). -/
def SpawnRoom (s : State) (q : CoreId) : Prop :=
  (s.core q).gate.spawnq.length < 32 ∧ ∀ h ∈ (s.bent (bentOf q)).held, h.core ≠ q

/-- A dispatcher on a packet's way to a core is full (R53): the one it is addressed to, or the one of the core's bent where
that takes the packet on or must hold it. -/
def WayFull (s : State) (g : Gang) (l : Loc) (q : CoreId) : Prop :=
  (∃ b, Way s g l b ∧ 256 ≤ (s.bent b).held.length) ∨
    ((Routed s g l ∨ ¬ SpawnRoom s q) ∧ 256 ≤ (s.bent (bentOf q)).held.length)

/-- A claim of a task finds its slot: the next unclaimed position of its queue, full and on-chip (R49, R222). -/
def CanClaim (s : State) (c : Claim) : Prop :=
  ∃ q, s.findQ s.p c.desc = some q ∧ q.nextClaim = c.pos ∧ q.slots[c.slot]? = some (.full c.pos) ∧
    ∀ j, j < c.slot → q.slots[j]? ≠ some (.full c.pos)

/-- A reservation of a task finds its slot: the lowest-numbered free one, nothing waiting in the Clamp ring (R222). -/
def CanReserve (s : State) (c : Claim) : Prop :=
  ∃ q, s.findQ s.p c.desc = some q ∧ q.ring = [] ∧ q.nextRes = c.pos ∧ q.slots[c.slot]? = some .free ∧
    ∀ j, j < c.slot → q.slots[j]? ≠ some .free

/-- A queue with a task's claim and its reservation on it made (R49, R222). -/
def taken (ins outs : List Claim) (q : StageQ) : StageQ :=
  let q1 := match ins.find? fun c => c.desc == q.desc with
    | some c => { q with slots := q.slots.set c.slot (.claimed c.pos), nextClaim := c.pos + 1 }
    | none => q
  match outs.find? fun c => c.desc == q.desc with
  | some c => { q1 with slots := q1.slots.set c.slot (.reserved c.pos), nextRes := c.pos + 1 }
  | none => q1

/-- A queue after the task ends (R51): a slot it still claims is free, one it still reserves is full. -/
def givenBack (ins outs : List Claim) (q : StageQ) : StageQ :=
  let q1 := match ins.find? fun c => c.desc == q.desc with
    | some c => if q.slots[c.slot]? = some (.claimed c.pos) then { q with slots := q.slots.set c.slot .free, crel := q.crel + 1 }
                else q
    | none => q
  match outs.find? fun c => c.desc == q.desc with
  | some c => if q1.slots[c.slot]? = some (.reserved c.pos) then
      { q1 with slots := q1.slots.set c.slot (.full c.pos), pcom := q1.pcom + 1 }
    else q1
  | none => q1

/-- The address of a task's slot: QSLOT + slot × QSIZE (R221). -/
def slotAt (s : State) (c : Claim) : Word :=
  match s.findQ s.p c.desc with
  | some q => q.slotVa + BitVec.ofNat 64 (c.slot * q.size)
  | none => 0

/-- The release that SPAWN, TDONE and TYIELD wait for has taken effect (R51, R196, R201). -/
def ReleasesDone (s : State) : Prop := s.released s.p s.k = true

/-- A gang's core, its group and the group's number. -/
structure Member (s : State) (g : Gang) (grp : Group) (n : BitVec 4) : Prop where
  gang : s.gangOf s.p = some g
  place : ∃ pl, (s.core s.p).place = some pl ∧ pl.group = n
  group : g.groups[n.toNat]? = some grp

/-! ### Commands of XCMD -/

/-- An XCMD whose words decode to `i` and whose header `h` passes its checks (R199). -/
structure Crosses (s : State) (r : Push) (vals : List Word) (i : Instr) (h : Hdr) : Prop where
  head : Reads s [src r.a r.pa] none [arg vals 0]
  reads : Reads s (pushReads r (H.xwc ((arg vals 0).setWidth 32))) none vals
  short : H.xwc ((arg vals 0).setWidth 32) ≤ 9
  peeks : r.pb = true → H.xwc ((arg vals 0).setWidth 32) / 2 ≤ 1
  header : headerCheck ((arg vals 0).setWidth 32) { ep := r.e, x := true } = none
  fields : h = H.hdr ((arg vals 0).setWidth 32)
  words : decodeCmd (pushedWords vals (H.xwc ((arg vals 0).setWidth 32))) = some i

/-- Its earlier accesses in the class have performed, and its own token has room. -/
def Clear (s : State) (r : Push) (h : Hdr) : Prop :=
  Unfenced s h.cls true ∧ (∀ i ∈ s.me!.pend, (accessAt i).isSome = true → i.cls ≠ h.cls) ∧
    (h.sige = true → vget (s.core s.p).tok (tokIdx r.e (Ep.ofCode h.sigt)) < 16)

/-- The reads of an XCMD. -/
def crossReads (r : Push) (vals : List Word) : List Rd := pushReads r (H.xwc ((arg vals 0).setWidth 32))

/-- Every token that a WAIT names is there. -/
def TokensThere (s : State) (p : CoreId) (e : Ep) (m : BitVec 3) : Prop := ∀ x ∈ waitEps e m, vget (s.core p).tok (tokIdx x e) ≠ 0

/-- An XCMD has completed: with its entries and its tokens popped, the effect that makes `u` of the state before it, its
result in XRES and its own token pushed, its context goes on at the next word. Besides, TLB entries and counts may be left
behind (R102, R357). -/
structure Crossed (s t u : State) (rds : List Rd) (r : Push) (h : Hdr) (res : Word) : Prop where
  module : t = { u with cores := t.cores, bents := t.bents }
  bents : ∀ b, t.bent b = { u.bent b with tlb := (t.bent b).tlb }
  others : ∀ q, q ≠ s.p → t.core q = u.core q
  core : t.core s.p = { u.core s.p with
    ctx := (t.core s.p).ctx, chans := (t.core s.p).chans, tok := (t.core s.p).tok, tlb := (t.core s.p).tlb,
    dbg := (t.core s.p).dbg }
  tokens : ∀ n, n < 16 → vget (t.core s.p).tok n = vget (s.core s.p).tok n -
    ((waitEps r.e h.wait).filter fun x => tokIdx x r.e == n).length +
    if h.sige = true ∧ tokIdx r.e (Ep.ofCode h.sigt) = n then 1 else 0
  contexts : ∀ k, k ≠ s.k → t.ctx s.p k = s.ctx s.p k
  context : t.ctx s.p s.k = { goesOn { s.me! with xres := res } (s.me!.pc + 4) with
    regs := (t.ctx s.p s.k).regs, sup := (t.ctx s.p s.k).sup }
  popped : ∀ q, (t.core s.p).queue s.k q = reg (popped s rds) q

/-- The state with the entries and the tokens of an XCMD popped. -/
def crossing (s : State) (r : Push) (vals : List Word) (h : Hdr) : State :=
  (popped s (crossReads r vals)).modCore s.p fun c => c.popTokens r.e h.wait

end Sys2Proof.Claims

open Sys2Proof Sys2Proof.Machine Sys2Proof.Claims

/-- R49, R50, R57, R201: a TNEXT of CP with no task current delivers the oldest packet of its core's spawn queue, else its
group's next task, else, once the group is finished and no packet outstanding, the end marker, and otherwise waits; with a
move pending it delivers nothing. TSLOT0–TSLOT2 hold a packet's address and words; a task of a group claims the next
position of each input queue and reserves the lowest free slot of each output queue in one step, TSLOT0–TSLOT3 and
TSLOT4–TSLOT7 holding their addresses; a task of a group without input queues takes the next index, in order, below
TASKS. -/
def Sys2Proof.Claims.TasksDelivered : Prop :=
  ∀ (s : State) (sb : Bool) (d : BitVec 5) (g : Gang) (grp : Group) (n : BitVec 4) (vals : List Word),
    NoStep s → s.k = .cp → (s.core s.p).gate.cur = none → Reads s [] (some d) vals → Member s g grp n →
    (s.traceOn 1 (some s.p)) = false →
    ((s.core s.p).move ≠ none → ∃ t, exec (.tnext sb d) s = .next t ∧ Waits
      (s.modCore s.p fun c => { c with gate := { c.gate with switching := true } }) t) ∧
    ((s.core s.p).move = none →
      (∀ k rest, (s.core s.p).gate.spawnq = k :: rest →
        ∃ t, exec (.tnext sb d) s = .next t ∧
          Delivers s t (current s (.packet k) (taskWordOf true k.stage k.sender.toNat)
            #v[k.target, k.arg0, k.arg1, 0, 0, 0, 0, 0] rest) d (taskWordOf true k.stage k.sender.toNat)) ∧
      (∀ u x, (s.core s.p).gate.spawnq = [] → s.takeTask s.p g n.toNat = some (u, x) →
        ∃ t v w, exec (.tnext sb d) s = .next t ∧ Delivers s t v d w ∧ (v.core s.p).gate.cur = some x ∧
          (v.core s.p).gate.curWord = w ∧ v.launch = u.launch ∧ v.bents = u.bents ∧ v.mem = u.mem) ∧
      (∀ ins outs : List Claim, (s.core s.p).gate.spawnq = [] → grp.back = [] → (grp.ins = [] → grp.next < grp.tasks.toNat) →
        ins.map (·.desc) = grp.ins.map g.descAt → outs.map (·.desc) = grp.outs.map g.descAt →
        (ins.map (·.desc)).Nodup → (outs.map (·.desc)).Nodup → ins.length ≤ 4 → outs.length ≤ 4 →
        (∀ c ∈ ins, CanClaim s c) → (∀ c ∈ outs, CanReserve s c) →
        ∃ t v, exec (.tnext sb d) s = .next t ∧ Delivers s t v d (taskWordOf false n grp.next) ∧ v.mem = s.mem ∧
          (v.core s.p).gate.cur = some (.stage grp.next ins outs) ∧ (v.core s.p).gate.ended = false ∧
          (∀ i, i < 4 → vget (v.core s.p).gate.tslot i = (ins[i]?.map (slotAt s)).getD 0 ∧
            vget (v.core s.p).gate.tslot (4 + i) = (outs[i]?.map (slotAt s)).getD 0) ∧
          (∀ dsc q, s.findQ s.p dsc = some q → t.findQ s.p dsc = some (taken ins outs q)) ∧
          v.launch = (s.modGroup g.id n.toNat fun y => { y with next := y.next + 1 }).launch) ∧
      ((s.core s.p).gate.spawnq = [] → grp.ins = [] → grp.outs = [] → grp.back = [] → grp.next < grp.tasks.toNat →
        ∃ t, exec (.tnext sb d) s = .next t ∧
          Delivers s t (current (s.modGroup g.id n.toNat fun y => { y with next := y.next + 1 }) (.stage grp.next [] [])
            (taskWordOf false n grp.next) (Vector.replicate 8 0) []) d (taskWordOf false n grp.next)) ∧
      ((s.core s.p).gate.spawnq = [] → s.takeTask s.p g n.toNat = none →
        (s.finished g n.toNat = true → s.outstanding g.id = false →
          ∃ t, exec (.tnext sb d) s = .next t ∧
            Delivers s t (s.modCore s.p fun c =>
                { c with gate := { c.gate with ended := true, curWord := BitVec.allOnes 64 } })
              d (BitVec.allOnes 64)) ∧
        (s.finished g n.toNat = false ∨ s.outstanding g.id = true →
          ∃ t, exec (.tnext sb d) s = .next t ∧ Waits s t)))

/-- R50, R359, R360, R362: with STAMP = 1 a TNEXT that delivers a packet or a task opens its tile, S0 the cycle of the
delivery, and the TDONE or TYIELD that ends it puts the tile's record into the bent's buffer, S3 the cycle now. The cycles
of WAIT and ECCF are free values (log 5). -/
def Sys2Proof.Claims.TilesTraced : Prop :=
  ∀ (s : State) (sb : Bool), NoStep s → s.k = .cp → s.traceOn 1 (some s.p) = true →
    (∀ (d : BitVec 5) (g : Gang) (grp : Group) (n : BitVec 4) (vals : List Word),
      (s.core s.p).gate.cur = none → (s.core s.p).move = none → Reads s [] (some d) vals → Member s g grp n →
      (∀ k rest, (s.core s.p).gate.spawnq = k :: rest →
        ∃ t, exec (.tnext sb d) s = .next t ∧
          Delivers s t (tileOpened s (BitVec.allOnes 32) (current s (.packet k) (taskWordOf true k.stage k.sender.toNat)
            #v[k.target, k.arg0, k.arg1, 0, 0, 0, 0, 0] rest)) d (taskWordOf true k.stage k.sender.toNat)) ∧
      ((s.core s.p).gate.spawnq = [] → grp.ins = [] → grp.outs = [] → grp.back = [] → grp.next < grp.tasks.toNat →
        ∃ t, exec (.tnext sb d) s = .next t ∧
          Delivers s t (tileOpened s (BitVec.ofNat 32 grp.next)
            (current (s.modGroup g.id n.toNat fun y => { y with next := y.next + 1 }) (.stage grp.next [] [])
              (taskWordOf false n grp.next) (Vector.replicate 8 0) [])) d (taskWordOf false n grp.next))) ∧
    (∀ (i : Instr) (x : Task) (z : Stamp) (pl : Place), i = .tdone sb ∨ i = .tyield sb → ReleasesDone s →
      (s.core s.p).place = some pl → (s.core s.p).gate.cur = some x →
      ((∃ k, x = .packet k) ∨ ∃ n, x = .stage n [] []) → (s.core s.p).gate.stamp = some z →
      (s.bent (bentOf s.p)).trace.length < 31 →
      ∃ t w, exec i s = .next t ∧ (t.core s.p).gate.cur = none ∧ (t.core s.p).gate.stamp = none ∧ t.mem = s.mem ∧
        (t.bent (bentOf s.p)).trace = (s.bent (bentOf s.p)).trace ++ [{ words := w, born := s.nanos }] ∧ w.length = 8 ∧
        (w.getD 0 0).extractLsb' 0 8 = 1 ∧ (w.getD 0 0).extractLsb' 8 8 = (if z.resumed then 2 else 0) ∧
        (w.getD 0 0).extractLsb' 16 16 = s.trace.ctl.extractLsb' 16 16 ∧
        ((w.getD 0 0).extractLsb' 32 8).toNat = s.p.val ∧ (w.getD 0 0).extractLsb' 40 8 = pl.lidx ∧
        (w.getD 0 0).extractLsb' 48 4 = pl.group ∧ w.getD 1 0 = BitVec.ofNat 64 s.cycle ∧
        w.getD 2 0 = BitVec.ofNat 64 z.s0 ∧ w.getD 3 0 = BitVec.ofNat 64 z.s1 ∧ w.getD 4 0 = BitVec.ofNat 64 z.s2 ∧
        w.getD 5 0 = BitVec.ofNat 64 s.cycle ∧
        ((w.getD 6 0).extractLsb' 32 16).toNat = min 65535 ((s.core s.p).plumb.retime - z.retime).toNat ∧
        (w.getD 7 0).extractLsb' 0 32 = (s.plfreeze s.p - z.freeze).extractLsb' 0 32 ∧
        (w.getD 7 0).extractLsb' 32 32 = z.task)

/-- R51, R57, R59, R201, R222: TDONE ends the current task, once every started command that accesses bytes of its slots has
finished; which commands those are is the model's reading (log 26, DEDUCED: the whole spans of a command count, a VRUN's
walks by its table and a walk by an index at every slot). Each input
slot it still claims becomes free, each output slot it still reserves full. TYIELD gives the task back: a stage task to the front of its group's
handout, a packet to the tail of its core's spawn queue; each waits for its release first, and with no task does nothing
else. A TDONE after the end marker retires the core: its contexts stop, it leaves its gang, and the gang ends with its
last core. Elsewhere than in CP each, and TNEXT, traps ILLEGAL_OP, and TNEXT also while a task is current. -/
def Sys2Proof.Claims.TasksEnd : Prop :=
  ∀ (s : State) (sb : Bool), NoStep s →
    (∀ d, s.k ≠ .cp ∨ (s.core s.p).gate.cur ≠ none → (produces s.k d = true → (reg s d).length < 4) → s.me!.tvec ≠ 0 →
      ∃ t, exec (.tnext sb d) s = .next t ∧ Trapped s t 0x01 0 0 s.me!.pc) ∧
    (s.k ≠ .cp → s.me!.tvec ≠ 0 →
      (∃ t, exec (.tdone sb) s = .next t ∧ Trapped s t 0x01 0 0 s.me!.pc) ∧
      (∃ t, exec (.tyield sb) s = .next t ∧ Trapped s t 0x01 0 0 s.me!.pc)) ∧
    (s.k = .cp →
      ((s.core s.p).gate.cur = none → (s.core s.p).gate.ended = false →
        (∃ t, exec (.tdone sb) s = .next t ∧ After s t s []) ∧ ∃ t, exec (.tyield sb) s = .next t ∧ After s t s []) ∧
      (∀ x, (s.core s.p).gate.cur = some x → ¬ ReleasesDone s →
        ∀ i, i = .tdone sb ∨ i = .tyield sb → ∃ t, exec i s = .next t ∧ Waits
          (s.modCore s.p fun c => { c with comb := c.comb.map fun e => { e with flush := true } }) t) ∧
      (∀ x, (s.core s.p).gate.cur = some x → ReleasesDone s →
        (taskQuiet s s.p x = true → ∃ t, exec (.tdone sb) s = .next t ∧ After s t (s.endTask s.p x) []) ∧
        (∀ n ins outs, x = .stage n ins outs → (s.core s.p).gate.stamp = none → taskQuiet s s.p x = true →
          (ins.map (·.desc)).Nodup → (outs.map (·.desc)).Nodup →
          (∀ c, c ∈ ins ∨ c ∈ outs → ∃ q, s.findQ s.p c.desc = some q ∧ q.ring = [] ∧ c.slot < q.slots.length) →
          ∃ t, exec (.tdone sb) s = .next t ∧ (t.core s.p).gate.cur = none ∧ (t.ctx s.p s.k).pc = s.me!.pc + 4 ∧
            t.mem = s.mem ∧ ∀ dsc q, s.findQ s.p dsc = some q → t.findQ s.p dsc = some (givenBack ins outs q)) ∧
        (taskQuiet s s.p x = false → ∃ t, exec (.tdone sb) s = .next t ∧ Waits s t) ∧
        ((s.core s.p).gate.stamp = none →
          (∀ k, x = .packet k → (s.core s.p).gate.spawnq.length < 32 →
            (∃ t, exec (.tdone sb) s = .next t ∧
              After s t ((s.wdRestart s.p).modCore s.p fun c => { c with gate := { c.gate with cur := none } }) []) ∧
            ∃ t, exec (.tyield sb) s = .next t ∧
              After s t (s.modCore s.p fun c =>
                { c with gate := { c.gate with cur := none, spawnq := c.gate.spawnq ++ [k] } }) []) ∧
          (∀ n ins outs pl, x = .stage n ins outs → (s.core s.p).place = some pl →
            ∃ t, exec (.tyield sb) s = .next t ∧
              After s t ((s.modCore s.p fun c => { c with gate := { c.gate with cur := none } }).modGroup pl.gang
                pl.group.toNat fun y => { y with back := x :: y.back }) []))) ∧
      (∀ g, (s.core s.p).gate.cur = none → (s.core s.p).gate.ended = true → ReleasesDone s →
        (s.core s.p).idle = true → s.gangOf s.p = some g →
        ∃ t, exec (.tdone sb) s = .next t ∧ (t.core s.p).place = none ∧ (∀ k, (t.ctx s.p k).run = .notStarted) ∧
          (t.core s.p).flights = [] ∧
          ((∀ q ∈ g.cores, q ≠ s.p → ((s.core q).place.map (·.gang)) ≠ some g.id) →
            ∀ x ∈ t.launch.gangs, x.id ≠ g.id)))

/-- Tasks are delivered, traced as tiles, and end (R49–R51, R57, R59, R222, R359). -/
def Obligations.TasksRun : Prop := Sys2Proof.Claims.TasksDelivered ∧ Sys2Proof.Claims.TilesTraced ∧ Sys2Proof.Claims.TasksEnd

/-- R52, R53, R103, R196: SPAWN sends its packet, with the gang, the stage, the address and two words it reads, to the core
that R52's table names: the issuing core for a scratchpad address, for understore the running core in whose column the line
lies, and otherwise, and for device memory, the one the dispatcher of the line's bent or the stack's bent chooses. The
packet joins the core's spawn queue where that takes it, else it is held by the core's dispatcher. SPAWN waits for its
release, and while a dispatcher on the packet's way is full; an address in no space of the table traps ACCESS and a failed
translation PAGE_LOAD, either whether or not the release has taken effect (log 18: it translates before it waits). -/
def Obligations.Spawns : Prop :=
  ∀ (r : Spw) (s : State) (va w0 w1 : Word), NoStep s →
    Reads s [src r.a r.pa, src r.b r.pb, src r.b r.pb] none [va, w0, w1] →
    (s.me!.tvec ≠ 0 →
      (∀ c, s.translate s.p va .locate s.user = .error (.page c) →
        ∃ t, exec (.spawn r) s = .next t ∧ Trapped (s.noteFail s.p va) t 0x07 c va s.me!.pc) ∧
      (s.translate s.p va .locate s.user = .error .access ∨ s.translate s.p va .locate s.user = .error .unready →
        ∃ t, exec (.spawn r) s = .next t ∧ Trapped (s.noteFail s.p va) t 0x0A 0 va s.me!.pc)) ∧
    (s.translate s.p va .locate s.user = .error .held → ∃ t, exec (.spawn r) s = .next t ∧ Waits s t) ∧
    (∀ (l : Loc) (g : Gang), s.translate s.p va .locate s.user = .ok l → s.gangOf s.p = some g →
    (NoReceiver s l → s.me!.tvec ≠ 0 →
      ∃ t, exec (.spawn r) s = .next t ∧ Trapped (s.noteFail s.p va) t 0x0A 0 va s.me!.pc) ∧
    (∀ q, Receives s g l q →
      (¬ ReleasesDone s → ∃ t, exec (.spawn r) s = .next t ∧ Waits
        (s.modCore s.p fun c => { c with comb := c.comb.map fun e => { e with flush := true } }) t) ∧
      (ReleasesDone s → WayFull s g l q → ∃ t, exec (.spawn r) s = .next t ∧ Waits s t) ∧
      (ReleasesDone s → ¬ WayFull s g l q →
        ∃ t pkt, exec (.spawn r) s = .next t ∧ pkt.gang = g.id ∧ pkt.stage = r.stage ∧ pkt.target = va ∧ pkt.loc = l ∧
          pkt.arg0 = w0 ∧ pkt.arg1 = w1 ∧ pkt.sender.toNat = placeLidx (s.core s.p).place ∧
          (SpawnRoom s q →
            After s t ((s.note s.p va).modCore q fun c => { c with gate := { c.gate with spawnq := c.gate.spawnq ++ [pkt] } })
              [src r.a r.pa, src r.b r.pb, src r.b r.pb]) ∧
          (¬ SpawnRoom s q →
            After s t ((s.note s.p va).modBent (bentOf q) fun b => { b with held := b.held ++ [{ pkt := pkt, core := q }] })
              [src r.a r.pa, src r.b r.pb, src r.b r.pb]))))

namespace Sys2Proof.Claims

open Sys2Proof.Machine

/-! ### Commands at the head of an endpoint's queue -/

/-- A write at a home: apart from its bytes only L1 copies, the lines the LLC holds and the marks of a write change. -/
structure Wrote (s u : State) (p : CoreId) (l : Loc) (bs : List Byte) : Prop where
  bytes : Stored s u p l bs
  module : u = { s with cores := u.cores, mem := u.mem, llc := u.llc, marks := u.marks,
                        links := { s.links with pool := u.links.pool } }
  cores : ∀ q, u.core q = { s.core q with l1 := (u.core q).l1, scratch := (u.core q).scratch }

/-- The ordinals of a core's started commands rise, below the next to be given. -/
def Ordered (s : State) : Prop :=
  ∀ p, ((s.core p).flights.map (·.ord) ++ [(s.core p).nextOrd]).Pairwise (· < ·)

/-- The command `q` stands at the head of the acting queue and nothing keeps it from starting: the tokens its WAIT names
are there, its unit takes it (R242, R245, R269, R284), a copy has a place in flight, and every address it translates whole names a place `ls` it may have, whose
stage-queue slots are free to it (R203, R208, R210, R222, R391). `add` is the counter it adds to, where it names one. -/
structure Starts (s : State) (h : Hdr) (q : QCmd) (ctr : Word) (inc : W32) (reqs : List AddrReq) (ls : List Loc)
    (add : Option (Loc × Word)) : Prop where
  head : (s.eng s.p s.sched.ep).q.head? = some q
  tokens : TokensThere s s.p s.sched.ep h.wait
  gate : s.gateOpen s.p s.sched.ep (opcOf q.words) = true
  room : isCopyClass q.words = true →
    ((s.core s.p).flights.filter fun f => isCopyClass f.words && !f.finished).length < 512
  ordered : Ordered s
  places : s.addrs s.p (reqs ++ if ctr = 0 then [] else [ctrReq ctr]) = .ok ls
  slots : s.slotsHold s.p s.sched.ep reqs ls = false
  add : add = if ctr = 0 then none else ls.getLast?.map fun l => (l, inc.setWidth 64)

/-- The command has left its queue with its tokens, has had the effect that makes `u` of the state before it, and has
finished: what is left of it is its counter add and its own token, where it has them (R120, R121, R208, R209). Besides,
it may leave TLB entries and counts behind (R102, R357). -/
structure Done (s t u : State) (h : Hdr) (q : QCmd) (add : Option (Loc × Word)) : Prop where
  module : t = { u with cores := t.cores, bents := t.bents }
  bents : ∀ b, t.bent b = { u.bent b with tlb := (t.bent b).tlb }
  others : ∀ q, q ≠ s.p → t.core q = u.core q
  core : t.core s.p = { u.core s.p with
    tlb := (t.core s.p).tlb, tok := (t.core s.p).tok, eng := (t.core s.p).eng, flights := (t.core s.p).flights,
    nextOrd := (s.core s.p).nextOrd + 1, lastCe := s.sched.ep, nestsOut := (t.core s.p).nestsOut, dbg := (t.core s.p).dbg,
    gate := { (u.core s.p).gate with stamp := (t.core s.p).gate.stamp } }
  queues : ∀ e, t.eng s.p e =
    if e = s.sched.ep then { s.eng s.p e with q := (s.eng s.p e).q.tail } else s.eng s.p e
  tokens : ∀ n, vget (t.core s.p).tok n = vget (s.core s.p).tok n -
    ((waitEps s.sched.ep h.wait).filter fun x => tokIdx x s.sched.ep == n).length
  flight : ∃ f, f.ord = (s.core s.p).nextOrd ∧ f.ep = s.sched.ep ∧ f.words = q.words ∧ f.finished = true ∧ f.ctr = add ∧
    f.sig = (if h.sige then some (Ep.ofCode h.sigt) else none) ∧
    (t.core s.p).flights = ((s.core s.p).flights ++ [f]).filter fun g => !(g.finished && g.ctr.isNone && g.sig.isNone)

/-- Every earlier command of the queue in the class has finished. -/
def Earlier (s : State) (cls : BitVec 4) : Prop :=
  ∀ f ∈ (s.core s.p).flights, f.ep = s.sched.ep → clsOf f.words = cls → f.finished = true

/-- The flight of a command that starts, as far as the bytes it accesses go. -/
def newcomer (s : State) (q : QCmd) (desc : List Byte) (subs : List Nat) : Flight :=
  { (default : Flight) with ep := s.sched.ep, words := q.words, desc := desc, subs := subs }

/-- No earlier command of the queue in the class is parked or holds in place, and none that has not finished accesses a
byte that the command accesses (R211, R212). -/
def Unheld (s : State) (q : QCmd) (desc : List Byte) (subs : List Nat) : Prop :=
  ∀ g ∈ (s.core s.p).flights, g.ep = s.sched.ep → clsOf g.words = clsOf q.words →
    g.finished = true ∨ (g.ticket = none ∧ g.held = false ∧
      ∀ x ∈ s.spans s.p g, ∀ y ∈ s.spans s.p (newcomer s q desc subs), s.spansMeet s.p x y = false)

/-- The command has left its queue and is under way, and waits behind an earlier one (R212; that it starts: log 31). -/
def StartsWaiting (s t : State) (q : QCmd) : Prop :=
  ∃ f, (t.core s.p).flights = (s.core s.p).flights ++ [f] ∧ f.words = q.words ∧ f.finished = false ∧ f.waiting = true ∧
    f.elem = 0 ∧ f.ord = (s.core s.p).nextOrd ∧ (t.eng s.p s.sched.ep).q = (s.eng s.p s.sched.ep).q.tail

/-- No earlier command of the queue in the class that has not finished accesses the word at an address (R211). -/
def WordDone (s : State) (cls : BitVec 4) (a : Word) : Prop :=
  ∀ g ∈ (s.core s.p).flights, g.ep = s.sched.ep → clsOf g.words = cls → g.finished = true ∨
    ∀ x ∈ s.spans s.p g, s.spansMeet s.p x (a &&& ~~~7, 8) = false

/-- Commands that wait on their tokens, with their header. -/
def tokenWaits (i : Instr) : Option Hdr :=
  match i with
  | .cpy h _ | .cpyn h _ | .gath h _ | .scat h _ | .fill h _ | .prefCmd h _ | .csig h _ _ | .cwait h _ _ | .cseq h _ _
  | .cnop h | .puns h _ => some h
  | _ => none

/-- The queue commands, with their descriptor and result addresses (R224, R225). -/
def queueOp (i : Instr) : Option (QOp × Word × Word) :=
  match i with
  | .qinit _ d => some (.init, d, 0)
  | .qacq _ d r => some (.acq, d, r)
  | .qrel _ d a => some (.rel a, d, 0)
  | .qres _ d r nw => some (.res nw, d, r)
  | .qcom _ d a => some (.com a, d, 0)
  | .qstat _ d r => some (.stat, d, r)
  | _ => none

/-- The addresses that an XCMD translates. -/
def crossReqs (i : Instr) : List AddrReq :=
  match i with
  | .csig _ c _ => [ctrReq c]
  | .cwait _ c _ => [waitReq c]
  | .cseq _ a _ => [seqReq a]
  | _ => match queueOp i with
    | some (op, desc, resa) => queueReqs op desc resa
    | none => []

/-- What a queue command of an XCMD checks before it may complete (R225). -/
def crossCheck (s : State) (i : Instr) (ls : List Loc) : Option Byte :=
  match queueOp i with
  | some (op, desc, _) => (s.qCheck s.p op (desc &&& ~~~63)).or (s.qInitBad s.p op (desc &&& ~~~63) ls)
  | none => none

/-! ### Faults of commands -/

/-- The command at the head leaves its queue with no effect, and its record, which cannot be replayed, is the last its
bent holds (R311–R314). -/
structure HeadFaults (s t : State) (q : QCmd) (code : Byte) (addr : Word) : Prop where
  queue : (t.eng s.p s.sched.ep).q = (s.eng s.p s.sched.ep).q.tail
  flights : (t.core s.p).flights = (s.core s.p).flights
  tokens : (t.core s.p).tok = (s.core s.p).tok
  engflt : (t.core s.p).engflt = BitVec.ofNat 64
    (min 0xFFFF (((s.core s.p).engflt.extractLsb' 16 16).toNat + 1) * 2 ^ 16 + code.toNat * 2 ^ 8 +
      (4 + s.sched.ep.idx.val) * 2 ^ 4)
  bytes : SameBytes s t
  record : ∃ x, (t.bent (bentOf s.p)).faults = (s.bent (bentOf s.p)).faults ++ [x] ∧ x.ticket = none ∧
    (x.words.getD 0 0).extractLsb' 0 8 = code ∧ (x.words.getD 0 0).getLsbD 63 = false ∧
    (x.words.getD 0 0).extractLsb' 32 4 = BitVec.ofNat 4 (4 + s.sched.ep.idx.val) ∧
    x.words.getD 1 0 = (headerOf q.words).setWidth 64 ∧ x.words.getD 2 0 = q.pc ∧ x.words.getD 3 0 = addr

/-! ### Copies -/

/-- A byte of the machine, by its place. -/
def byteAt (s : State) (p : CoreId) (l : Loc) : Byte :=
  match l with
  | .spad o => (s.core p).scratch.get o
  | .phys a => s.rawByte a

/-- The cell that a place names. -/
def cell (s : State) (l : Loc) : Nat ⊕ Nat :=
  match l with
  | .spad o => .inl o
  | .phys a => .inr (s.key a)

/-- Elements of a copy moved in order: of each its places and its bytes; a copy that reads as it goes uses the lines of each
source then, another those of all its sources first (R114, R216, R371). -/
def moved (s : State) (p : CoreId) (j : Job) (ws : List (List Loc × List Byte)) : State :=
  ws.zipIdx.foldl (fun t x => (if j.old then t else t.usedSrc p j.size (j.src x.2)).storeBytes p x.1.1 x.1.2)
    (s.usedAll p j 0)

/-- The elements of a copy move in ascending order: each is read at its source, as it stood before the command or as it is
now, and its destination is translated as it is reached (R212, R216). -/
structure Moves (s : State) (p : CoreId) (j : Job) (ws : List (List Loc × List Byte)) : Prop where
  count : ws.length = j.count
  reads : ∀ k x, ws[k]? = some x → (if j.old then s else moved s p j (ws.take k)).readSrc p j.size (j.src k) = .ok x.2
  places : ∀ k x, ws[k]? = some x → (moved s p j (ws.take k)).placeDst p j.size (j.dst k) = .ok x.1

/-- Of all bytes only the written ones change, each to what is written there last. -/
def Lands (s t : State) (p : CoreId) (l : List (Loc × Byte)) : Prop :=
  (∀ a, t.key a = s.key a) ∧
  (∀ x, (∀ y ∈ l, cell s y.1 ≠ cell s x) → byteAt t p x = byteAt s p x) ∧
  (∀ pre x post, l = pre ++ x :: post → (∀ y ∈ post, cell s y.1 ≠ cell s x.1) → byteAt t p x.1 = x.2) ∧
  ∀ q, q ≠ p → (t.core q).scratch = (s.core q).scratch

/-- A tagged command contributes its latency to its symbol (R213); it starts and finishes in one step of the model, and
how many cycles that is is free (log 5). -/
def tagged (s : State) (p : CoreId) (t : Tag) : State :=
  if t.tg then s.sample p t.sym (Config.copyCycles s.sched.tick) else s

/-- Element `k` of a scratchpad index: a signed number of `w` bytes (R217). -/
def scratchIndex (s : State) (p : CoreId) (o w : Nat) : Int :=
  signedLow (8 * w) (BitVec.ofNat 64 (leNat (s.core p).scratch.get (o / w * w) w))

/-- The side of GATH and SCAT that an index names; beyond the scratchpad there is none. -/
def indexed (s : State) (p : CoreId) (c : GatherOps) (base : Word) (k : Nat) : ESrc :=
  let w := if c.isz then 8 else 4
  let o := c.idx.toNat + k * w
  if o < 0x200000 then .va (base + BitVec.ofInt 64 (scratchIndex s p o w * 2 ^ c.esz.toNat))
  else .bad (BitVec.ofNat 64 (0xFFFFFFFE00000 + o))

/-- The elements of the copies of R215, R217 and R219, with the header, the counter and the tag. -/
def copyElements (i : Instr) (s : State) : Option (Hdr × Word × W32 × Tag × Job) :=
  match i with
  | .cpy h c => some (h, c.ctr, c.inc, c.tag,
      { count := c.len.toNat, size := 1, src := fun k => .va (c.src + BitVec.ofNat 64 k),
        dst := fun k => .va (c.dst + BitVec.ofNat 64 k), old := true })
  | .fill h c => some (h, c.ctr, c.inc, c.tag,
      { count := c.len.toNat, size := 1,
        src := fun k => .bytes [(c.pat >>> (8 * ((c.dst.toNat + k) % 8))).setWidth 8],
        dst := fun k => .va (c.dst + BitVec.ofNat 64 k), old := true })
  | .gath h c => some (h, c.ctr, c.inc, c.tag,
      { count := c.count.toNat, size := 2 ^ c.esz.toNat, src := indexed s s.p c c.src,
        dst := fun k => .va (c.dst + BitVec.ofNat 64 (k * 2 ^ c.esz.toNat)), old := false })
  | .scat h c => some (h, c.ctr, c.inc, c.tag,
      { count := c.count.toNat, size := 2 ^ c.esz.toNat,
        src := fun k => .va (c.src + BitVec.ofNat 64 (k * 2 ^ c.esz.toNat)), dst := indexed s s.p c c.dst, old := false })
  | _ => none

end Sys2Proof.Claims

open Sys2Proof Sys2Proof.Machine Sys2Proof.Claims

/-- R199, R209, R226, R225: an XCMD pops its entries and its tokens and completes at once: CSIG has added to its counter,
CWAIT has found it at its target, CSEQ has stored its word, a queue command has had its effect, XRES holds the queue
command's result and 0 for another, and the token is pushed. Without its tokens, with an access of its class outstanding,
with a region change at its place or with its target not reached it waits with nothing popped. -/
def Sys2Proof.Claims.CommandsCrossing : Prop :=
  ∀ (r : Push) (s : State) (vals : List Word) (i : Instr) (h : Hdr), NoStep s → Crosses s r vals i h →
    (s.addrs s.p (crossReqs i) = .held → crossReqs i ≠ [] → ∃ t, exec (.xcmd r) s = .next t ∧ Waits s t) ∧
    (∀ ls, s.addrs s.p (crossReqs i) = .ok ls → crossCheck s i ls = none →
      crossReqs i ≠ [] → ¬ TokensThere s s.p r.e h.wait → ∃ t, exec (.xcmd r) s = .next t ∧ Waits s t) ∧
    (TokensThere s s.p r.e h.wait →
      (∀ hd c inc l, i = .csig hd c inc → Clear s r h → s.engAt s.p c 8 .rmw = .ok l → s.isDevUnder l = true →
        s.formHeld l = false → PlainAt s l 8 → Canonical s →
        ∃ t u, exec (.xcmd r) s = .next t ∧ Crossed s t u (crossReads r vals) r h 0 ∧
          Wrote s u s.p l (bytesOfNat (BitVec.ofNat 64 (s.readLoc s.p l 8) + inc.setWidth 64).toNat 8)) ∧
      (∀ hd c target l, i = .cwait hd c target → Clear s r h → s.engAt s.p c 8 .read = .ok l → s.isDevUnder l = true →
        s.formHeld l = false →
        (target.toNat ≤ s.readLoc s.p l 8 →
          ∃ t, exec (.xcmd r) s = .next t ∧ Crossed s t (s.used s.p l 8) (crossReads r vals) r h 0) ∧
        (s.readLoc s.p l 8 < target.toNat → ∃ t, exec (.xcmd r) s = .next t ∧ Waits s t)) ∧
      (∀ hd a v l, i = .cseq hd a v → Clear s r h → s.engAt s.p a 8 .write = .ok l → s.seqAt l = true →
        s.formHeld l = false → PlainAt s l 8 → Canonical s →
        ∃ t u, exec (.xcmd r) s = .next t ∧ Crossed s t u (crossReads r vals) r h 0 ∧ Wrote s u s.p l (bytesOfNat v.toNat 8)) ∧
      (∀ op desc resa l ls v, queueOp i = some (op, desc, resa) → Clear s r h →
        s.addrs s.p (queueReqs op desc resa) = .ok (l :: ls) → crossCheck s i (l :: ls) = none →
        (∀ x ∈ l :: ls, s.formHeld x = false) → s.qSpent s.p op (desc &&& ~~~63) = false →
        s.qReady s.p op (desc &&& ~~~63) = true → (op.releases = true → (s.core s.p).comb = []) →
        v = (crossing s r vals h).qDo s.p op (desc &&& ~~~63) l →
        ∃ t u, exec (.xcmd r) s = .next t ∧ u = v.1.storeResult s.p v.2 (l :: ls) ∧
          Crossed s t (if s.qAcquires s.p op (desc &&& ~~~63) = true then u.clearL1 s.p else u) (crossReads r vals) r h
            (v.2.getD 0)) ∧
      (∀ hd c inc l, i = .csig hd c inc → s.engAt s.p c 8 .rmw = .ok l → s.isDevUnder l = true →
        ¬ Clear s r h ∨ s.formHeld l = true → ∃ t, exec (.xcmd r) s = .next t ∧ Waits s t))

/-- R203, R208: a command whose tokens are not there waits: nothing changes, and no token is popped. -/
def Sys2Proof.Claims.TokensAwaited : Prop :=
  ∀ (i : Instr) (s : State) (h : Hdr), tokenWaits i = some h → ¬ TokensThere s s.p s.sched.ep h.wait → exec i s = .next s

/-- Commands that cross, and commands whose tokens are not there (R199, R203). -/
def Obligations.TokensCross : Prop := Sys2Proof.Claims.CommandsCrossing ∧ Sys2Proof.Claims.TokensAwaited

/-- R31, R43, R121, R204, R209–R212, R226–R228: CSIG adds to its counter once the earlier commands of its class have
finished and those of its queue that name the counter have added to it, CSEQ stores its word, CNOP does nothing, LAUNCH
appends its record to its launch queue; each then leaves its queue finished, and nothing else changes. CWAIT holds the head
until its counter has reached its target, read after the accesses of earlier commands of its class to it, and finishes.
Held back behind a parked or holding command of its class CWAIT and CNOP, and a CSIG before its add, have started and wait:
that is the model's choice (logs 17, 31). That a LAUNCH which finds its ring full waits at the head, and that one whose
ring entry no memory takes faults ACCESS, is log 54's. -/
def Sys2Proof.Claims.SyncCommands : Prop :=
  ∀ (h : Hdr) (s : State) (q : QCmd),
    (∀ ctr inc l, Starts s h q 0 0 [ctrReq ctr] [l] none → Earlier s h.cls →
      ((∀ f ∈ (s.core s.p).flights, f.ep = s.sched.ep → ∀ w, f.ctr ≠ some (l, w)) → PlainAt s l 8 → Canonical s →
        ∃ t u, exec (.csig h ctr inc) s = .next t ∧ Done s t u h q none ∧
          Wrote s u s.p l (bytesOfNat (BitVec.ofNat 64 (s.readLoc s.p l 8) + inc.setWidth 64).toNat 8)) ∧
      ((∃ f ∈ (s.core s.p).flights, f.ep = s.sched.ep ∧ ∃ w, f.ctr = some (l, w)) →
        ∃ t, exec (.csig h ctr inc) s = .next t ∧ StartsWaiting s t q ∧ SameBytes s t ∧
          ∃ f ∈ (t.core s.p).flights, f.ord = (s.core s.p).nextOrd ∧ f.ctr = some (l, inc.setWidth 64))) ∧
    (∀ ctr target l, Starts s h q 0 0 [waitReq ctr] [l] none →
      (¬ WordDone s h.cls ctr ∨ s.readLoc s.p l 8 < target.toNat → exec (.cwait h ctr target) s = .next s) ∧
      (WordDone s h.cls ctr → target.toNat ≤ s.readLoc s.p l 8 →
        (Unheld (s.used s.p l 8) q [] [] →
          ∃ t, exec (.cwait h ctr target) s = .next t ∧ Done s t (s.used s.p l 8) h q none) ∧
        (¬ Unheld (s.used s.p l 8) q [] [] →
          ∃ t, exec (.cwait h ctr target) s = .next t ∧ StartsWaiting s t q ∧ SameBytes s t))) ∧
    (∀ addr val l, Starts s h q 0 0 [seqReq addr] [l] none → Earlier s h.cls → PlainAt s l 8 → Canonical s →
      ∃ t u, exec (.cseq h addr val) s = .next t ∧ Done s t (rotated u s.p 1 l) h q none ∧
        Wrote s u s.p l (bytesOfNat val.toNat 8)) ∧
    (Starts s h q 0 0 [] [] none →
      (Unheld s q [] [] → ∃ t, exec (.cnop h) s = .next t ∧ Done s t s h q none) ∧
      (¬ Unheld s q [] [] → ∃ t, exec (.cnop h) s = .next t ∧ StartsWaiting s t q ∧ SameBytes s t)) ∧
    (∀ n rec a, Starts s h q 0 0 [] [] none → Earlier s h.cls → (s.lq n).on = true →
      a = (s.lq n).base.toNat / 8 * 8 + 8 * ((s.lq n).tail.toNat % (s.lq n).size.toNat) →
      ((s.lq n).tail - (s.lq n).head = (s.lq n).size → exec (.launch h n rec) s = .next s) ∧
      ((s.lq n).tail - (s.lq n).head ≠ (s.lq n).size →
        (s.ringAt a = true → PlainAt s (.phys a) 8 → Canonical s →
          ∃ t u, exec (.launch h n rec) s = .next t ∧ Wrote s u s.p (.phys a) (bytesOfNat rec.toNat 8) ∧
            Done s t (u.modLq n fun x => { x with tail := x.tail + 1 }) h q none) ∧
        (s.ringAt a = false ∨ s.inView (.phys a) = true → s.flt.on = false → (s.bent (bentOf s.p)).faults.length < 64 →
          ∃ t, exec (.launch h n rec) s = .next t ∧ t.launch = s.launch ∧
            HeadFaults s t q 0x0A (BitVec.ofNat 64 a))))

/-- R211, R212, R215, R217, R219: a CPY, FILL, GATH or SCAT whose every element can be read and written moves them all, in
ascending order, and finishes: no byte but its destinations changes, each to what it wrote there last. CPY and FILL move
their sources as they stood when they started. -/
def Sys2Proof.Claims.Copies : Prop :=
  ∀ (i : Instr) (s : State) (h : Hdr) (ctr : Word) (inc : W32) (tag : Tag) (j : Job) (q : QCmd) (ls : List Loc)
      (add : Option (Loc × Word)) (ws : List (List Loc × List Byte)),
    copyElements i s = some (h, ctr, inc, tag, j) → Starts s h q ctr inc [] ls add → j.slotsOk s s.p = true →
    Unheld s q [] [] → Moves s s.p j ws → Canonical s →
    ∃ t, exec i s = .next t ∧ Done s t (tagged (moved s s.p j ws) s.p tag) h q add ∧
      (tag.tg = false → Lands s t s.p (ws.flatMap fun x => x.1.zip x.2))

/-- R211, R212, R216: a copy that may not go on, an earlier one of its queue and class being parked or still to access a byte
it accesses, starts all the same and waits (that it starts is log 31's reading); a page fault at an element parks it there, with the earlier elements moved, under the ticket of its record. -/
def Sys2Proof.Claims.CopiesHeld : Prop :=
  ∀ (i : Instr) (s : State) (h : Hdr) (ctr : Word) (inc : W32) (tag : Tag) (j : Job) (q : QCmd) (ls : List Loc)
      (add : Option (Loc × Word)),
    copyElements i s = some (h, ctr, inc, tag, j) → Starts s h q ctr inc [] ls add → j.slotsOk s s.p = true →
    (¬ Unheld s q [] [] → ∃ t, exec i s = .next t ∧ StartsWaiting s t q ∧ SameBytes s t) ∧
    (∀ va cause, Unheld s q [] [] → 0 < j.count → j.src 0 = .va va → 0 < j.size → s.flt.on = false →
      (s.bent (bentOf s.p)).faults.length < 64 →
      s.engAt s.p va 1 .read = .error (.page cause) →
      ∃ t f x, exec i s = .next t ∧ (t.core s.p).flights = (s.core s.p).flights ++ [f] ∧ f.words = q.words ∧
        f.finished = false ∧ f.elem = 0 ∧ f.ticket = x.ticket ∧ x.ticket ≠ none ∧ SameBytes s t ∧
        (t.bent (bentOf s.p)).faults = (s.bent (bentOf s.p)).faults ++ [x] ∧
        (x.words.getD 0 0).getLsbD 63 = true ∧ (x.words.getD 0 0).extractLsb' 0 8 = 0x07 ∧
        (x.words.getD 0 0).extractLsb' 8 8 = cause ∧ x.words.getD 3 0 = va ∧ x.words.getD 4 0 = 0)

/-- Copies move their elements, or are held at one (R211–R217). -/
def Obligations.CopiesMove : Prop := Sys2Proof.Claims.Copies ∧ Sys2Proof.Claims.CopiesHeld

namespace Sys2Proof.Claims

open Sys2Proof.Machine

/-! ### CPYN, PREF, reducing copies -/

/-- The position of a tuple of indices, the first fastest (R216). -/
def tupleNo : List Nat → List Nat → Nat
  | i :: is, c :: cs => i + c * tupleNo is cs
  | _, _ => 0

/-- Σ ij × stride of a CPYN descriptor; dimension j's strides stand 24 × j bytes after the first's (R216). -/
def strideSum (d : List Byte) (o : Nat) (is : List Nat) : Int :=
  ((is.zipIdx).map fun x => (x.1 : Int) * descInt d (o + 24 * x.2)).sum

/-- A result of R218 on an element that held `d`. -/
def reduceValue (f : Fmt) (rop : BitVec 3) (d x : Nat) : Nat :=
  let i := fun n => signedLow 32 (BitVec.ofNat 64 n)
  let float := fun g : Val → Val → Val => f.encode .nearest false false 0 (g (f.decode d) (f.decode x))
  match rop.toNat with
  | 0 => if f = .int32 then (d + x) % 2 ^ 32 else float (Val.add false)
  | 1 => if f = .int32 then (if i x < i d then x else d) else float Val.min
  | 2 => if f = .int32 then (if i d < i x then x else d) else float Val.max
  | 3 => d &&& x
  | 4 => d ||| x
  | _ => d ^^^ x

/-- The bytes that a chunk leaves at its home: every element's result. -/
def chunkBytes (s : State) (p : CoreId) (f : Fmt) (x : Chunk) : List Byte :=
  let k := f.width / 8
  (List.range (x.vals.length / k)).flatMap fun i =>
    bytesOfNat (reduceValue f x.rop (s.readLoc p (x.loc.add (i * k)) k) (leOfBytes ((x.vals.drop (i * k)).take k))) k

/-- A chunk as its elements: place and value bytes, of `n` bytes each. -/
def chunkElements (n : Nat) (x : Chunk) : List (Loc × List Byte) :=
  (List.range (x.vals.length / n)).map fun i => (x.loc.add (i * n), (x.vals.drop (i * n)).take n)

/-- A chunk's place: elements of its format in one 128-byte line, outside every view. -/
def ChunkPlain (s : State) (f : Fmt) (x : Chunk) : Prop :=
  ∃ a, x.loc = .phys a ∧ a % (f.width / 8) = 0 ∧ x.vals.length % (f.width / 8) = 0 ∧ a % 128 + x.vals.length ≤ 128 ∧
    ∀ j, j < x.vals.length → s.inView (.phys (a + j)) = false

/-- A core's chunks with one changed. -/
def withChunk (s : State) (p : CoreId) (seq : W32) (f : Chunk → Chunk) : State :=
  s.modCore p fun c => { c with chunks := modFirst (fun x => x.seq == seq) f c.chunks }

/-- The state as the reads of the first `k` of some elements of `n` bytes have left it (R96, R98, R114, R371). -/
def afterReads (s : State) (p : CoreId) (n : Nat) (at_ : Nat → Word) (k : Nat) : State :=
  (List.range k).foldl (fun t i => t.usedSrc p n (.va (at_ i))) s

/-- The state as the read of a CPYN descriptor has left it. -/
def descRead (s : State) (ls : List Loc) : State := (ls.take 4).foldl (fun t l => t.used s.p l 64) s

/-- The commands of R207 that move a chain's fetch. -/
def flow (i : Instr) : Option Hdr :=
  match i with
  | .clink h _ | .cloop h _ | .cend h => some h
  | _ => none

end Sys2Proof.Claims

open Sys2Proof Sys2Proof.Machine Sys2Proof.Claims

/-- R216, R219: a CPYN whose descriptor passes its check moves its elements in the order of its tuples, the first index
fastest, each from SRC plus the sum of its indices times the source strides to DST plus that of the destination strides; one whose descriptor fails it faults ILLEGAL_CMD. PREF touches the LLC alone: where the slices have room (R21) it leaves
each reachable line of its range that is device memory, in no row a Furrow command holds, in its home's LLC, with every
byte reading as before. -/
def Sys2Proof.Claims.StridedCopies : Prop :=
  (∀ (h : Hdr) (c : CopyNOps) (s : State) (q : QCmd) (ls : List Loc) (add : Option (Loc × Word)) (d : List Byte)
      (ws : List (List Loc × List Byte)),
    Starts s h q c.ctr c.inc (descReqs c.desc) ls add → d = s.descBytes s.p ls → cpynOk d = true →
    (cpynJob c d).slotsOk s s.p = true → Unheld (descRead s ls) q d [] → Moves (descRead s ls) s.p (cpynJob c d) ws →
    Canonical s →
    ∃ t, exec (.cpyn h c) s = .next t ∧
      Done s t (tagged (moved (descRead s ls) s.p (cpynJob c d) ws) s.p c.tag) h q add ∧
      (c.tag.tg = false → Lands s t s.p (ws.flatMap fun x => x.1.zip x.2))) ∧
  (∀ (h : Hdr) (c : CopyNOps) (s : State) (q : QCmd) (ls : List Loc) (add : Option (Loc × Word)),
    Starts s h q c.ctr c.inc (descReqs c.desc) ls add → cpynOk (s.descBytes s.p ls) = false → s.flt.on = false →
    (s.bent (bentOf s.p)).faults.length < 64 → ∃ t, exec (.cpyn h c) s = .next t ∧ HeadFaults s t q 0x0D 0) ∧
  (∀ (c : CopyNOps) (d : List Byte) (is : List Nat), is.length = cpynDims d →
    (∀ x ∈ is.zip (cpynCounts d), x.1 < x.2) →
    (cpynJob c d).src (tupleNo is (cpynCounts d)) = .va (c.src + BitVec.ofInt 64 (strideSum d 0x18 is)) ∧
    (cpynJob c d).dst (tupleNo is (cpynCounts d)) = .va (c.dst + BitVec.ofInt 64 (strideSum d 0x20 is))) ∧
  (∀ (h : Hdr) (c : PrefOps) (s : State) (q : QCmd) (ls : List Loc) (add : Option (Loc × Word)),
    Starts s h q c.ctr c.inc [] ls add → Unheld s q [] [] →
    ∃ t u, exec (.prefCmd h c) s = .next t ∧ Done s t (tagged u s.p c.tag) h q add ∧ u = { s with llc := u.llc } ∧
      ((s.llc.map (·.line)).Nodup →
        (∀ b, (s.llc.filter fun y => llcSlice y.line == b).length + (s.links.pool.filter fun y => poolSlice y.line == b).length +
          (c.src.toNat % 128 + c.len.toNat + 127) / 128 ≤ 32768) →
        (∀ a, u.homeByte a = s.homeByte a) ∧ (∀ x ∈ s.llc, x ∈ u.llc) ∧
        ∀ k a o, 128 * k < c.src.toNat % 128 + c.len.toNat → c.len.toNat ≠ 0 →
          s.engAt s.p ((c.src &&& ~~~127) + BitVec.ofNat 64 (128 * k)) 128 .read = .ok (.phys a) →
          s.space a = .dev o → s.stackReady (stackOf o) = true → s.moving o = false → s.furHeld (o / 128 * 128) = false →
          ∃ x ∈ u.llc, x.line = o / 128 * 128))

/-- R218, R316: a reducing copy sends every element, with its value and its home, in ascending order, as chunks numbered
on from SEQ, and stays in flight until they are acknowledged; no byte changes yet. A wrong format, operation or length
faults ILLEGAL_CMD. -/
def Sys2Proof.Claims.ReducingCopies : Prop :=
  ∀ (h : Hdr) (c : RcpyOps) (s : State) (q : QCmd) (ls : List Loc) (add : Option (Loc × Word)),
    (∀ (f : Fmt) (place : Nat → Loc) (bytes : Nat → List Byte),
      let n := f.width / 8
      let dst := fun k => c.dst + BitVec.ofNat 64 (k * n)
      let src := fun k => (c.src + BitVec.ofNat 64 (k * n)) &&& ~~~(BitVec.ofNat 64 (n - 1))
      Starts s h q c.ctr c.inc [] ls add → rcpyOk c = true → rcpyFmt c.fmt = some f → (rcpyJob c).slotsOk s s.p = true →
      Unheld s q [] [] → 0 < c.len.toNat / n →
      (∀ k, k < c.len.toNat / n →
        (afterReads s s.p n src k).engAt s.p (dst k) n .rmw = .ok (place k) ∧
        (s.isDevUnder (place k) = true ∨ s.isPeer (place k) = true) ∧
        (afterReads s s.p n src k).readVa s.p (src k) n = .ok (bytes k)) →
      ∃ t g new, exec (.rcpy h c) s = .next t ∧ (t.core s.p).chunks = (s.core s.p).chunks ++ new ∧
        new.flatMap (chunkElements n) = (List.range (c.len.toNat / n)).map (fun k => (place k, bytes k)) ∧
        (∀ n x, new[n]? = some x → x.seq = (s.core s.p).seq + BitVec.ofNat 32 n ∧ x.fmt = c.fmt ∧ x.rop = c.rop ∧
          x.ord = g.ord ∧ x.acked = false ∧ x.atHome = true) ∧
        (t.core s.p).seq = (s.core s.p).seq + BitVec.ofNat 32 new.length ∧
        (t.core s.p).flights = (s.core s.p).flights ++ [g] ∧ g.finished = false ∧ g.waiting = false ∧ g.words = q.words ∧
        g.ord = (s.core s.p).nextOrd ∧ SameBytes s t) ∧
    ((s.eng s.p s.sched.ep).q.head? = some q → rcpyOk c = false → s.flt.on = false →
      (s.bent (bentOf s.p)).faults.length < 64 → ∃ t, exec (.rcpy h c) s = .next t ∧ HeadFaults s t q 0x0D 0)

/-- Strided copies and reducing copies (R216–R219). -/
def Obligations.CopiesFold : Prop := Sys2Proof.Claims.StridedCopies ∧ Sys2Proof.Claims.ReducingCopies

/-- R316: a home applies a chunk that its window does not hold, once, and records it; one that it holds, or that finds the
window's 4,096 entries taken, it does not apply. An issuer sends a chunk again 10 µs after it was sent unacknowledged; an
acknowledgement, which waits while the core stands in a freeze (R67), marks it, and with its command's last one the command
may send on (R212); a confirmation removes it and its entry. A chunk for a peer to which no link is up is lost before its
acknowledgement, and its command ends with ACCESS at its element (R374). -/
def Obligations.ChunksOnce : Prop :=
  ∀ (p : CoreId) (seq : W32) (s : State) (x : Chunk), (s.core p).chunks.find? (fun y => y.seq == seq) = some x →
    (s.formHeld x.loc = true → exec (.chunkApply p seq) s = .next s) ∧
    (x.atHome = true → s.formHeld x.loc = false → s.isPeer x.loc = false ∨ s.reachableLoc x.loc = true →
      (∀ f, (s.homeUnit x.loc, x.pcore, x.seq) ∉ s.dedup →
        (s.dedup.filter fun d => d.1 == s.homeUnit x.loc).length < 4096 → rcpyFmt x.fmt = some f → ChunkPlain s f x →
        Canonical s →
        ∃ t, exec (.chunkApply p seq) s = .next t ∧ Stored s t p x.loc (chunkBytes s p f x) ∧
          t.dedup = (s.homeUnit x.loc, x.pcore, x.seq) :: s.dedup ∧
          (t.core p).chunks = modFirst (fun y => y.seq == seq) (fun y => { y with atHome := false }) (s.core p).chunks) ∧
      ((s.homeUnit x.loc, x.pcore, x.seq) ∈ s.dedup ∨
          4096 ≤ (s.dedup.filter fun d => d.1 == s.homeUnit x.loc).length →
        exec (.chunkApply p seq) s = .next (withChunk s p seq fun y => { y with atHome := false }))) ∧
    (x.acked = false → x.sent + 10000 ≤ s.nanos →
      exec (.chunkResend p seq) s = .next (withChunk s p seq fun y => { y with atHome := true, sent := s.nanos })) ∧
    (x.acked = true ∨ s.nanos < x.sent + 10000 → exec (.chunkResend p seq) s = .next s) ∧
    (s.isPeer x.loc = true → s.reachableLoc x.loc = false → x.acked = false → s.flt.on = false →
      (s.bent (bentOf p)).faults.length < 64 →
      ∀ i, (i = .chunkApply p seq ∧ x.atHome = true ∧ s.formHeld x.loc = false) ∨
          (i = .chunkAcknowledgement p seq ∧ s.stalled p = false) →
        ∃ t, exec i s = .next t ∧ SameBytes s t ∧
          (t.core p).chunks = eraseFirst (fun y => y.seq == seq) (s.core p).chunks ∧
          ∀ f, (s.core p).flight? x.ord = some f → f.finished = false →
            (∀ g ∈ (t.core p).flights, g.ord = x.ord → g.finished = true) ∧
            ∃ y, (t.bent (bentOf p)).faults = (s.bent (bentOf p)).faults ++ [y] ∧ y.ticket = none ∧
              (y.words.getD 0 0).extractLsb' 0 8 = 0x0A ∧ y.words.getD 4 0 = BitVec.ofNat 64 x.elem) ∧
    (x.acked = false → s.stalled p = false → s.isPeer x.loc = false ∨ s.reachableLoc x.loc = true →
      (s.homeUnit x.loc, x.pcore, x.seq) ∈ s.dedup →
      ∃ t new, exec (.chunkAcknowledgement p seq) s = .next t ∧
        (t.core p).chunks =
          modFirst (fun y => y.seq == seq) (fun y => { y with acked := true }) (s.core p).chunks ++ new ∧
        (∀ y ∈ new, y.ord = x.ord) ∧ t.dedup = s.dedup) ∧
    (s.stalled p = true → exec (.chunkAcknowledgement p seq) s = .next s) ∧
    (x.acked = false → s.isPeer x.loc = false ∨ s.reachableLoc x.loc = true →
      (s.homeUnit x.loc, x.pcore, x.seq) ∉ s.dedup → exec (.chunkAcknowledgement p seq) s = .next s) ∧
    (x.acked = true → x.atHome = false →
      ∃ t, exec (.acknowledgementConfirmation p seq) s = .next t ∧
        (t.core p).chunks = eraseFirst (fun y => y.seq == seq) (s.core p).chunks ∧
        t.dedup = s.dedup.filter (fun d => d != (s.homeUnit x.loc, x.pcore, x.seq)) ∧ SameBytes s t)

/-- R220, R279, R280: PSUB binds its stream to the core's gang where it has none and makes an empty ring of ROWS rows at
RING; one that its check refuses faults ILLEGAL_CMD. PUNS ends the subscription once nothing is owed to it, and else stays
in flight with the subscription closing. A CPYP with no subscriber or of no row finishes at once; with subscribers its rows
enter the Pod's buffer in order, each for those subscribed as it started. One that waits for another command of its class
has started all the same (log 31). -/
def Sys2Proof.Claims.PodStreams : Prop :=
  ∀ (h : Hdr) (s : State) (q : QCmd),
    (∀ i, (∃ c, i = .psub h c ∧ psubOk c s s.p = true) ∨ (∃ n, i = .puns h n) → Starts s h q 0 0 [] [] none →
      ¬ Unheld s q [] [] → ∃ t, exec i s = .next t ∧ StartsWaiting s t q ∧ SameBytes s t) ∧
    (∀ c, Starts s h q 0 0 [] [] none → psubOk c s s.p = true → Unheld s q [] [] →
      ∃ t, exec (.psub h c) s = .next t ∧
        Done s t ((s.modStream (bayOf s.p) c.strm fun x => { x with gang := s.gangNo s.p }).modSub s.p c.strm fun _ =>
          { valid := true, win := 0, rows := c.rows.toNat, rpos := 0, ring := c.ring.toNat, closing := false }) h q none) ∧
    (∀ c, (s.eng s.p s.sched.ep).q.head? = some q → psubOk c s s.p = false → s.flt.on = false →
      (s.bent (bentOf s.p)).faults.length < 64 → ∃ t, exec (.psub h c) s = .next t ∧ HeadFaults s t q 0x0D 0) ∧
    (∀ n, Starts s h q 0 0 [] [] none → Unheld s q [] [] → decodeCmd q.words = some (.puns h n) →
      ((s.sub s.p n).valid = false → ∃ t, exec (.puns h n) s = .next t ∧ Done s t s h q none) ∧
      ((s.sub s.p n).valid = true → s.podOwes s.p n = false → ∃ t, exec (.puns h n) s = .next t ∧
        (t.sub s.p n).valid = false ∧ SameBytes s t ∧ ∀ f ∈ (t.core s.p).flights, f.ord = (s.core s.p).nextOrd →
          f.finished = true) ∧
      ((s.sub s.p n).valid = true → s.podOwes s.p n = true → ∃ t f, exec (.puns h n) s = .next t ∧
        (t.sub s.p n).valid = true ∧ (t.sub s.p n).closing = true ∧ SameBytes s t ∧
        (t.core s.p).flights = (s.core s.p).flights ++ [f] ∧ f.finished = false ∧ f.words = q.words)) ∧
    (∀ c ls add, Starts s h q c.ctr c.inc [] ls add → c.len.toNat % 128 = 0 →
      Unheld s q [] (s.subscribers s.p c.strm) →
      (s.subscribers s.p c.strm = [] ∨ c.len.toNat = 0 → ∃ t, exec (.cpyp h c) s = .next t ∧ Done s t (tagged s s.p c.tag) h q add) ∧
      (∀ rows : List Vec, decodeCmd q.words = some (.cpyp h c) → s.subscribers s.p c.strm ≠ [] →
        (cpypJob c).slotsOk s s.p = true → rows.length = c.len.toNat / 128 → rows.length ≤ 256 → 0 < rows.length → s.halted s.p = false →
        s.stalled s.p = false → s.changing = false → s.faultRoom (bentOf s.p) = true → (∃ g, (s.gangNo s.p).bind s.gang? = some g) →
        (s.stream (bayOf s.p) c.strm).feed = [] → (s.stream (bayOf s.p) c.strm).rows = [] →
        (∀ k x, rows[k]? = some x → ∃ bs, x = vecOfBytes bs ∧
          (afterReads s s.p 128 (fun j => (c.src + BitVec.ofNat 64 (128 * j)) &&& ~~~127) k).readVa s.p
            ((c.src + BitVec.ofNat 64 (128 * k)) &&& ~~~127) 128 = .ok bs) →
        ∃ t f, exec (.cpyp h c) s = .next t ∧ SameBytes s t ∧
          (t.core s.p).flights = (s.core s.p).flights ++ [f] ∧ f.finished = false ∧ f.words = q.words ∧
          (t.stream (bayOf s.p) c.strm).rows = rows.map fun x =>
            { data := x, dest := (s.subscribers s.p c.strm).map (BitVec.ofNat 8), ord := (s.core s.p).nextOrd,
              pcore := s.p }))

/-- R278, R279: the Pod writes its oldest row into the ring of the first core it is still due to, at RING + 128 × ((RPOS +
WIN) mod ROWS), and adds one to that ring's WIN; the row leaves the buffer with its last delivery. No other byte changes. -/
def Sys2Proof.Claims.PodDelivery : Prop :=
  ∀ (bay : Fin 64) (n : BitVec 4) (s : State) (r : PodRow) (rest : List PodRow) (i : Byte) (more : List Byte) (q : CoreId),
    (s.stream bay n).rows = r :: rest → r.dest = i :: more → (∀ x ∈ rest, x.dest ≠ []) → (s.stream bay n).feed = [] →
    s.member (s.stream bay n).gang i = some q → (s.sub q n).valid = true → (s.sub q n).closing = false →
    (s.sub q n).win < (s.sub q n).rows → s.stalled q = false → s.halted q = false → s.trace.ctl.getLsbD 0 = false →
    Canonical s →
    ∃ t, exec (.podRowDelivery bay n) s = .next t ∧
      Stored s t q (.spad ((s.sub q n).ring + 128 * (((s.sub q n).rpos + (s.sub q n).win) % (s.sub q n).rows)))
        (vecBytes r.data) ∧
      t.sub q n = { s.sub q n with win := (s.sub q n).win + 1 } ∧
      (t.stream bay n).rows = if more = [] then rest else { r with dest := more } :: rest

/-- Pod streams and what the Pod delivers (R278–R280). -/
def Obligations.PodsDeliver : Prop := Sys2Proof.Claims.PodStreams ∧ Sys2Proof.Claims.PodDelivery

namespace Sys2Proof.Claims

open Sys2Proof.Machine

/-- The live state of a queue, found by its descriptor. -/
def Live (s : State) (p : CoreId) (q : StageQ) : Prop := s.findQ p q.desc = some q

/-- The places of `n` bytes from offset `o` on of a queue's slots or of its Clamp ring: in its runs of bytes, or from its
base on where those are contiguous (R221). -/
def runPlaces (base : Loc) (runs : List (Loc × Nat)) (o n : Nat) : List Loc :=
  if runs.isEmpty then (List.range n).map fun j => base.add (o + j)
  else ((runs.flatMap fun x => (List.range x.2).map x.1.add).drop o).take n

def isFull (x : Slot) : Bool :=
  match x with
  | .full _ => true
  | _ => false

/-- The bytes at some places, as they read, each bound for another place. -/
def carried (s : State) (p : CoreId) (dst src : List Loc) : List (Loc × Byte) :=
  dst.zip (src.map fun x => BitVec.ofNat 8 (s.readLoc p x 1))

/-- Slot `i`'s places, and those of the Clamp ring's entry number `n` (R221, R223): memory the Clamp engine may copy
between; no frame whose form is changing holds a byte it reads, nor a view one it writes (log 45). -/
structure Clamped (s : State) (q : StageQ) (i : Nat) (n : Word) (spill : Bool) (slot place : List Loc) : Prop where
  at_ : slot = runPlaces q.base q.runs (i * q.size) q.size
  from_ : place = runPlaces q.cbase q.cruns (n.toNat % q.quota * q.size) q.size
  whole : slot.length = q.size ∧ place.length = q.size
  memory : ∀ x ∈ slot ++ place, ∃ a, x = .phys a
  free : ∀ x ∈ place, s.formHeld x = false ∧ (spill = true → s.inView x = false)

/-- The position of a chain's fetch once `n` words are taken. -/
def past (c : Chain) (n : Nat) : Word := c.fetch + BitVec.ofNat 64 (4 * n)

/-- The chain as the fetch of a command finds it: its block open, at the position of its fetch. -/
def opened (c : Chain) : Chain :=
  if c.start.isSome then c
  else { c with start := some c.fetch, head := c.fetch, blkNo := c.blkNo + 1, loop := none, looped := false,
                blks := c.blks ++ [{ no := c.blkNo + 1, whole := false }] }

/-- The endpoint may fetch, and the words at its fetch position are `ws` (R205). -/
structure Fetches (s : State) (p : CoreId) (e : Ep) (ws : List W32) : Prop where
  running : s.stalled p = false ∧ s.halted p = false ∧ s.changing = false ∧ (s.eng p e).chain.stopped = false ∧
    (s.eng p e).chain.ticket = none
  room : (s.eng p e).q.length < depth e ∧ s.faultRoom (bentOf p) = true
  more : (s.eng p e).chain.start = none → (s.eng p e).chain.fetch ≠ (s.eng p e).chain.tail
  inside : ((s.eng p e).chain.fetch - (s.eng p e).chain.start.getD (s.eng p e).chain.fetch).toNat + 4 * ws.length ≤ 4096
  words : s.fetchWords p (s.eng p e).chain.fetch ws.length = .ok ws
  whole : ws.length = 1 + H.xwc (ws.headD 0)

/-- What an endpoint's queue gets of a chain command. -/
def fetched (c : Chain) (ws : List W32) (dup : Bool) : QCmd :=
  { words := ws, pc := c.fetch, chain := true, blk := c.blkNo, dup := dup, ticket := none }

/-- The chain once a block ends, its next at `a`. -/
def ended (c : Chain) (a : Word) : Chain :=
  { c with fetch := a, head := a, start := none, loop := none, looped := false,
           blks := c.blks.map fun b => if b.no = c.blkNo then { b with whole := true } else b }

/-- Only an endpoint's queue and chain change, and the TLBs and performance counters that its translation touches. -/
structure ChainStep (s t : State) (p : CoreId) (e : Ep) (q : List QCmd) (c : Chain) : Prop where
  module : t = { s with cores := t.cores, bents := t.bents }
  bents : ∀ b, t.bent b = { s.bent b with tlb := (t.bent b).tlb }
  others : ∀ r, r ≠ p → t.core r = s.core r
  core : t.core p = { s.core p with eng := (t.core p).eng, tlb := (t.core p).tlb, dbg := (t.core p).dbg }
  engines : ∀ f, f ≠ e → t.eng p f = s.eng p f
  engine : t.eng p e = { q := q, chain := c }

end Sys2Proof.Claims

open Sys2Proof Sys2Proof.Machine Sys2Proof.Claims

/-- R221–R225: QINIT makes its descriptor's queue with every slot free and every counter 0; QACQ claims the full slot of the
lowest unclaimed position; QREL frees a claimed slot, into which the ring's oldest position comes back at once, and QCOM
makes a reserved one full; QRES reserves a free slot for the next position, and where none is free one that the Clamp engine
spills; with NW = 1, no free slot and the quota spent it faults CLAMP_QUOTA; QSTAT writes the four counters to its
descriptor. The result, for QACQ and QRES the slot's address, for QSTAT the full slots in bits 15:0, the free ones in
31:16 and QSPILL − QFILL in 63:32, is stored as 8 bytes at RESA where that is not 0. QACQ or QRES with no slot yet waits at
the head. QACQ and QRES of an understore queue empty the L1 (the acquire of R225 as log 17 reads it); a queue command held
back by another of its class has started and waits (log 31). -/
def Sys2Proof.Claims.StageQueues : Prop :=
  ∀ (h : Hdr) (s : State) (qc : QCmd) (desc resa : Word) (ls : List Loc) (l : Loc) (op : QOp) (i : Instr),
    queueOp i = some (op, desc, resa) →
    (i = .qinit h desc ∨ i = .qacq h desc resa ∨ (∃ a, i = .qrel h desc a) ∨ (∃ nw, i = .qres h desc resa nw) ∨
      (∃ a, i = .qcom h desc a) ∨ i = .qstat h desc resa) →
    Starts s h qc 0 0 (queueReqs op desc resa) (l :: ls) none → s.qCheck s.p op (desc &&& ~~~63) = none →
    s.qInitBad s.p op (desc &&& ~~~63) (l :: ls) = none → (op.releases = true → Earlier s h.cls) → Canonical s →
    (∀ x ∈ ls, PlainAt s x 8) →
    (∀ q, op = .res true → Live s s.p q → q.desc = desc &&& ~~~63 → (∀ x ∈ q.slots, x ≠ .free) →
      (q.spill - q.fill).toNat = q.quota → s.flt.on = false → (s.bent (bentOf s.p)).faults.length < 64 →
      ∃ t, exec i s = .next t ∧ HeadFaults s t qc 0x10 0) ∧
    (s.qSpent s.p op (desc &&& ~~~63) = false → s.qReady s.p op (desc &&& ~~~63) = false → exec i s = .next s) ∧
    (s.qSpent s.p op (desc &&& ~~~63) = false → s.qReady s.p op (desc &&& ~~~63) = true → ¬ Unheld s qc [] [] →
      ∃ t, exec i s = .next t ∧ StartsWaiting s t qc ∧ SameBytes s t) ∧
    (s.qSpent s.p op (desc &&& ~~~63) = false → s.qReady s.p op (desc &&& ~~~63) = true → Unheld s qc [] [] →
      ∃ t v r u, exec i s = .next t ∧ (v, r) = s.qDo s.p op (desc &&& ~~~63) l ∧
        (r = none ∨ ls = [] → u = v) ∧
        (∀ w x, r = some w → ls = [x] → ∃ y, Wrote v y s.p x (bytesOfNat w.toNat 8) ∧ u = rotated y s.p 1 x) ∧
        Done s t (if s.qAcquires s.p op (desc &&& ~~~63) = true then u.clearL1 s.p else u) h qc none ∧
        (∀ q, op = .init → s.descQ s.p (desc &&& ~~~63) l false = some q →
          v = s.putQ s.p q ∧ r = none ∧ q.desc = desc &&& ~~~63 ∧
            q.slotVa = BitVec.ofNat 64 (s.readLoc s.p l 8) &&& ~~~127 ∧ q.size = s.readLoc s.p (l.add 8) 4 ∧
            q.slots = List.replicate (s.readLoc s.p (l.add 12) 2) .free ∧ q.quota = s.readLoc s.p (l.add 24) 4 ∧
            q.spill = 0 ∧ q.fill = 0 ∧ q.pcom = 0 ∧ q.crel = 0 ∧ q.ring = [] ∧ q.nextRes = 0 ∧ q.nextClaim = 0) ∧
        (∀ q n, Live s s.p q → q.desc = desc &&& ~~~63 →
          (op = .acq → q.slots.findIdx? (fun x => x == .full q.nextClaim) = some n →
            v = s.modQ s.p q.desc (fun x =>
                { x with slots := lmod n (fun _ => .claimed q.nextClaim) x.slots, nextClaim := x.nextClaim + 1 }) ∧
              r = some (q.slotVa + BitVec.ofNat 64 (n * q.size))) ∧
          ((∃ nw, op = .res nw) → q.slots.findIdx? (fun x => x == .free) = some n → q.ring = [] →
            v = s.modQ s.p q.desc (fun x =>
                { x with slots := lmod n (fun _ => .reserved x.nextRes) x.slots, nextRes := x.nextRes + 1 }) ∧
              r = some (q.slotVa + BitVec.ofNat 64 (n * q.size))) ∧
          (∀ pos slot place, (∃ nw, op = .res nw) → (∀ x ∈ q.slots, x ≠ .free) → q.slots[n]? = some (.full pos) →
            (∀ m k, q.slots[m]? = some (.full k) → m = n ∨ k < pos) → (∀ k ∈ q.ring, k < pos) →
            (q.spill - q.fill).toNat < q.quota → Clamped s q n q.spill true slot place →
            Lands s v s.p (carried s s.p place slot) ∧ r = some (q.slotVa + BitVec.ofNat 64 (n * q.size)) ∧
              v.findQ s.p q.desc = some { q with slots := lmod n (fun _ => .reserved q.nextRes) q.slots,
                                                 nextRes := q.nextRes + 1, ring := q.ring ++ [pos], spill := q.spill + 1 }) ∧
          (∀ a m, op = .com a → q.slotOfVa a = some n → q.slots[n]? = some (.reserved m) → r = none ∧
            v.findQ s.p q.desc = some { q with slots := lmod n (fun _ => .full m) q.slots, pcom := q.pcom + 1 }) ∧
          (∀ a m, op = .rel a → q.slotOfVa a = some n → q.slots[n]? = some (.claimed m) → r = none ∧
            (q.ring = [] →
              v.findQ s.p q.desc = some { q with slots := lmod n (fun _ => .free) q.slots, crel := q.crel + 1 }) ∧
            (∀ pos rest slot place, q.ring = pos :: rest → (∀ x ∈ q.slots, x ≠ .free) →
              Clamped s q n q.fill false slot place → Lands s v s.p (carried s s.p slot place) ∧
              v.findQ s.p q.desc = some { q with slots := lmod n (fun _ => .full pos) q.slots, crel := q.crel + 1,
                                                 ring := rest, fill := q.fill + 1 }))) ∧
        (∀ q, Live s s.p q → q.desc = desc &&& ~~~63 → op = .stat → q.slots.length ≤ 256 →
          Wrote s v s.p (l.add 32) (bytesOfNat q.spill.toNat 8 ++ bytesOfNat q.fill.toNat 8 ++
            bytesOfNat q.pcom.toNat 8 ++ bytesOfNat q.crel.toNat 8) ∧
          ∃ w, r = some w ∧ w.extractLsb' 0 16 = BitVec.ofNat 16 (q.slots.countP isFull) ∧
            w.extractLsb' 16 16 = BitVec.ofNat 16 (q.slots.countP fun x => x == .free) ∧
            w.extractLsb' 32 32 = (q.spill - q.fill).setWidth 32))

/-- R223: the Clamp engine returns the ring's oldest position to the first free slot: the slot's bytes become those of the
ring's entry at QCBASE + (QFILL mod QQUOTA) × QSIZE, the slot is full of that position, QFILL moves on; with no free slot
or an empty ring nothing changes. It waits while a region change holds a line of the entry (R297, log 45). -/
def Sys2Proof.Claims.ClampRefills : Prop :=
  ∀ (b : BentId) (n : Nat) (s : State) (q : StageQ), (s.bent b).sqt[n]? = some q →
    (q.ring = [] ∨ (∀ x ∈ q.slots, x ≠ .free) → exec (.clampRefill b n) s = .next s) ∧
    (∀ i pos rest slot place, q.slots.findIdx? (fun x => x == .free) = some i → q.ring = pos :: rest →
      Clamped s q i q.fill false slot place → Canonical s →
      ∃ t, exec (.clampRefill b n) s = .next t ∧ Lands s t q.core (carried s q.core slot place) ∧
        t = { s with mem := t.mem, marks := t.marks }.modBent b fun x => { x with
          sqt := lmod n (fun y => { y with slots := lmod i (fun _ => .full pos) y.slots, ring := rest,
                                           fill := y.fill + 1 }) x.sqt }) ∧
    (∀ i pos rest slot, q.slots.findIdx? (fun x => x == .free) = some i → q.ring = pos :: rest →
      slot = runPlaces q.cbase q.cruns (q.fill.toNat % q.quota * q.size) q.size → slot.length = q.size →
      q.size % 128 = 0 → (∃ k x, slot[128 * k]? = some x ∧ s.formHeld x = true) →
      (∀ y ∈ q.cruns, y.2 % 128 = 0) → exec (.clampRefill b n) s = .next s)

/-- Stage queues and the Clamp engine (R221–R225). -/
def Obligations.SlotsStage : Prop := Sys2Proof.Claims.StageQueues ∧ Sys2Proof.Claims.ClampRefills

/-- R207, R212, R227, R228: CLINK, CLOOP and CEND pop and push their tokens and finish, having moved the fetch as they were
fetched; one that came through EPUSH, or is its block's second CLOOP, faults ILLEGAL_CMD. While an earlier command of the
queue and class is parked or holds in place they start and wait: no rule says it of these commands, it is the model's
choice (logs 17, 31). -/
def Sys2Proof.Claims.FlowCommands : Prop :=
  ∀ (i : Instr) (h : Hdr) (s : State) (q : QCmd), flow i = some h →
    (Starts s h q 0 0 [] [] none → q.chain = true → q.dup = false →
      (Unheld s q [] [] → ∃ t, exec i s = .next t ∧ Done s t s h q none) ∧
      (¬ Unheld s q [] [] → ∃ t, exec i s = .next t ∧ StartsWaiting s t q ∧ SameBytes s t)) ∧
    ((s.eng s.p s.sched.ep).q.head? = some q → q.chain = false ∨ q.dup = true → s.flt.on = false →
      (s.bent (bentOf s.p)).faults.length < 64 → ∃ t, exec i s = .next t ∧ HeadFaults s t q 0x0D 0)

/-- Commands that synchronize and commands that steer a chain (R207, R209, R226–R228). -/
def Obligations.EnginesSync : Prop := Sys2Proof.Claims.SyncCommands ∧ Sys2Proof.Claims.FlowCommands

/-- R205–R207, R227: an endpoint takes its chain's commands one by one into its queue while it has room. A command that is
no flow command moves the fetch past its words; CEND ends the block, the next starting at the following 64-byte boundary;
CLINK ends it, the next starting at its address; CLOOP goes back to the block's start until its repetitions are spent. A
command that would reach beyond the block's 1,024 words is not taken: fetching stops with ILLEGAL_CMD at word 1,024 (of one
that straddles it this is log 43's reading). With the queue full, with nothing to fetch, once stopped or parked and while a region
changes (R297), nothing changes. The lines it reads are used as every read uses them (R114, R371). -/
def Sys2Proof.Claims.ChainsFetched : Prop :=
  ∀ (p : CoreId) (e : Ep) (s : State),
    (depth e ≤ (s.eng p e).q.length ∨ s.stalled p = true ∨ s.halted p = true ∨ s.changing = true ∨
        (s.eng p e).chain.stopped = true ∨ (s.eng p e).chain.ticket ≠ none ∨
        ((s.eng p e).chain.start = none ∧ (s.eng p e).chain.fetch = (s.eng p e).chain.tail) →
      exec (.chainBlockFetch p e) s = .next s) ∧
    (∀ (ws : List W32) (i : Option Instr) (c : Chain), Fetches s p e ws → c = opened (s.eng p e).chain →
      i = (if (headerCheck (ws.headD 0) { ep := e, x := false }).isSome then none else decodeCmd ws) →
      ∃ t q d, exec (.chainBlockFetch p e) s = .next t ∧
        ChainStep (s.usedWords p (s.eng p e).chain.fetch ws.length) t p e q d ∧
        (match i with
         | some (.cend _) => q = (s.eng p e).q ++ [fetched c ws false] ∧ d = ended c ((c.fetch + 67) &&& ~~~63)
         | some (.clink _ n) => q = (s.eng p e).q ++ [fetched c ws false] ∧ d = ended c (n &&& ~~~63)
         | some (.cloop _ n) =>
           (c.looped = true → q = (s.eng p e).q ++ [fetched c ws true] ∧ d = { c with fetch := past c ws.length }) ∧
           (c.looped = false → c.loop.getD n.toNat = 0 → q = (s.eng p e).q ++ [fetched c ws false] ∧
             d = { c with fetch := past c ws.length, looped := true, loop := none }) ∧
           (∀ k, c.looped = false → c.loop.getD n.toNat = k + 1 → q = (s.eng p e).q ∧
             d = { c with fetch := c.start.getD c.fetch, loop := some k })
         | _ => q = (s.eng p e).q ++ [fetched c ws false] ∧ d = { c with fetch := past c ws.length })) ∧
    (∀ start w, start = (s.eng p e).chain.start.getD (s.eng p e).chain.fetch →
      s.stalled p = false → s.halted p = false → s.changing = false → (s.eng p e).chain.stopped = false → (s.eng p e).chain.ticket = none →
      (s.eng p e).q.length < depth e → (s.bent (bentOf p)).faults.length < 64 → s.flt.on = false →
      ((s.eng p e).chain.start = none → (s.eng p e).chain.fetch ≠ (s.eng p e).chain.tail) →
      s.fetchWords p (s.eng p e).chain.fetch 1 = .ok [w] →
      4096 < ((s.eng p e).chain.fetch - start).toNat + 4 * (1 + H.xwc w) →
      ∃ t x, exec (.chainBlockFetch p e) s = .next t ∧ (t.eng p e).q = (s.eng p e).q ∧
        (t.eng p e).chain.stopped = true ∧ SameBytes s t ∧
        (t.bent (bentOf p)).faults = (s.bent (bentOf p)).faults ++ [x] ∧ x.ticket = none ∧
        (x.words.getD 0 0).extractLsb' 0 8 = 0x0D ∧ x.words.getD 3 0 = start + 4096)

/-- R206, R209, R121: the oldest block leaves its chain once each of its commands has finished, and counts in the sequence
number where it was fetched whole; a finished command pushes its token once those before it with the same target have, and
that target has room, and adds to its counter once those before it have; a core that is frozen does none of these, and an add
waits while a region change holds its counter (R297). -/
def Sys2Proof.Claims.CommandsRetired : Prop :=
  ∀ (p : CoreId) (s : State),
    (∀ (e : Ep) (b : Blk) (rest : List Blk), (s.eng p e).chain.blks = b :: rest → s.stalled p = false →
      (∀ x ∈ (s.eng p e).q, x.chain = true → x.blk ≠ b.no) →
      (∀ f ∈ (s.core p).flights, f.ep = e → f.blk = some b.no → f.finished = true) →
      (b.whole = true ∨ (s.eng p e).chain.stopped = true ∨ (s.eng p e).chain.blkNo ≠ b.no) →
      exec (.sequenceAdvance p e) s = .next (s.modEng p e fun g =>
        { g with chain := { g.chain with blks := rest, seq := if b.whole then g.chain.seq + 1 else g.chain.seq } })) ∧
    (∀ (e : Ep) (b : Blk) (rest : List Blk), (s.eng p e).chain.blks = b :: rest →
      (∃ f ∈ (s.core p).flights, f.ep = e ∧ f.blk = some b.no ∧ f.finished = false) →
      exec (.sequenceAdvance p e) s = .next s) ∧
    (∀ (n : Nat) (f : Flight) (d : Ep), (s.core p).flights[n]? = some f → f.sig = some d → f.finished = true →
      Ordered s →
      if s.stalled p = false ∧ (∀ g ∈ (s.core p).flights.take n, g.ep = f.ep → g.sig ≠ some d) ∧
          vget (s.core p).tok (tokIdx f.ep d) < 16 then
        ∃ t, exec (.tokenPush p n) s = .next t ∧
          t = s.setCore p { s.core p with tok := vmod (s.core p).tok (tokIdx f.ep d) (· + 1), flights := (t.core p).flights } ∧
          ∀ g, g ∈ (t.core p).flights → g.ord = f.ord → g.sig = none
      else exec (.tokenPush p n) s = .next s) ∧
    (∀ (n : Nat) (f : Flight) (l : Loc) (inc : Word), (s.core p).flights[n]? = some f → f.ctr = some (l, inc) →
      f.finished = true → Ordered s → PlainAt s l 8 → Canonical s →
      (s.stalled p = false → s.formHeld l = false → (∀ g ∈ (s.core p).flights.take n, g.ep = f.ep → ∀ w, g.ctr ≠ some (l, w)) →
        ∃ t u, exec (.counterAdd p n) s = .next t ∧
          Wrote s u p l (bytesOfNat (BitVec.ofNat 64 (s.readLoc p l 8) + inc).toNat 8) ∧
          t = u.setCore p { u.core p with flights := (t.core p).flights } ∧
          ∀ g, g ∈ (t.core p).flights → g.ord = f.ord → g.ctr = none) ∧
      (s.stalled p = true ∨ s.formHeld l = true ∨
          (∃ g ∈ (s.core p).flights.take n, g.ep = f.ep ∧ ∃ w, g.ctr = some (l, w)) →
        exec (.counterAdd p n) s = .next s))

/-- Chains are fetched, and their commands retire (R205–R209, R227). -/
def Obligations.ChainsRun : Prop := Sys2Proof.Claims.ChainsFetched ∧ Sys2Proof.Claims.CommandsRetired

namespace Sys2Proof.Claims

open Sys2Proof.Machine

/-- A command that has left its queue with its tokens and goes on: it is the last in flight, `u` is the state that its
start makes of the one before it, and no counter has been added to and no token pushed (R120, R208, R210). Besides, it may
leave TLB entries and counts behind (R102, R357). -/
structure Begun (s t u : State) (h : Hdr) (q : QCmd) (add : Option (Loc × Word)) : Prop where
  module : t = { u with cores := t.cores, bents := t.bents }
  bents : ∀ b, t.bent b = { u.bent b with tlb := (t.bent b).tlb }
  others : ∀ q, q ≠ s.p → t.core q = u.core q
  core : t.core s.p = { u.core s.p with
    tlb := (t.core s.p).tlb, dbg := (t.core s.p).dbg,
    tok := (t.core s.p).tok, eng := (t.core s.p).eng, flights := (t.core s.p).flights,
    nextOrd := (s.core s.p).nextOrd + 1, lastCe := s.sched.ep, nestsOut := (t.core s.p).nestsOut,
    gate := { (u.core s.p).gate with stamp := (t.core s.p).gate.stamp } }
  queues : ∀ e, t.eng s.p e =
    if e = s.sched.ep then { s.eng s.p e with q := (s.eng s.p e).q.tail } else s.eng s.p e
  tokens : ∀ n, vget (t.core s.p).tok n = vget (s.core s.p).tok n -
    ((waitEps s.sched.ep h.wait).filter fun x => tokIdx x s.sched.ep == n).length
  flight : ∃ f, f.ord = (s.core s.p).nextOrd ∧ f.ep = s.sched.ep ∧ f.words = q.words ∧ f.finished = false ∧ f.ctr = add ∧
    f.ticket = none ∧ f.sig = (if h.sige then some (Ep.ofCode h.sigt) else none) ∧
    (t.core s.p).flights = (s.core s.p).flights ++ [f]

/-! ### The matrix engine -/

/-- A core's ME changed. -/
def onMe (s : State) (f : Me → Me) : State := s.modCore s.p fun c => { c with me := f c.me }

/-- Element (q, m, n) of the accumulators. -/
def accAt (m : Me) (q r n : Nat) : W32 := (vget (vget m.acc q) r).extractLsb' (32 * n) 32

/-- The number of bits that two indices share. -/
def sharedBits (i j : Nat) : Nat := (List.range 7).countP fun b => i.testBit b && j.testBit b

/-- Element c of a row under R286: 2^−h times the signed sum of its group of `n`, rounded once. -/
def hadamard (n h : Nat) (fo : Bool) (row : Nat → W32) (c : Nat) : W32 :=
  let term := fun j =>
    let v := Fmt.fp32.decode (row (c / n * n + j)).toNat
    if sharedBits (c % n) j % 2 = 1 then v.neg else v
  BitVec.ofNat 32 (Fmt.fp32.encode .nearest false fo 0 ((Val.sum false ((List.range n).map term)).scale (-(h : Int))))

/-- The ME of the acting core may work (R67, R321). -/
def Works (s : State) (p : CoreId) : Prop := s.stalled p = false ∧ s.halted p = false ∧ s.faultRoom (bentOf p) = true

/-- The state as a step looks for its next A block: the ring rows of the last one are given back (R279). -/
def turned (s : State) (p : CoreId) (r : MRun) : State :=
  if (s.me p).fmt.apod = true ∧ r.aHeld ≠ 0 then
    s.modSub p (s.me p).fmt.astrm fun u => { u with win := u.win - r.aHeld, rpos := (u.rpos + r.aHeld) % u.rows }
  else s

/-- A step of the running MGO whose blocks stand: its B block, where it is not the active one, in the inactive bank, and
its A block `rows`, `sc` in the scratchpad or the ring, where it is not the last step's (R274, R275, R279). -/
structure StepReady (s : State) (p : CoreId) (r : MRun) (x : StepAddr) (rows sc : Array Vec) : Prop where
  at_ : x = (s.me p).stepAddr r.c r.idx
  bank : r.needB x = true → (s.me p).spareServes r x = true
  block : if r.needA x = true then ∃ l z, (turned s p r).takeA p (s.me p).fmt x.a x.sa = .got l z ∧ rows = l.toArray ∧ sc = z.toArray
          else rows = r.aRows ∧ sc = r.aScales

end Sys2Proof.Claims

open Sys2Proof Sys2Proof.Machine Sys2Proof.Claims

/-- R281, R282, R285, R286: MFMT sets the formats and empties the banks, MNEST makes the shadow table the active one, MZERO
clears the tiles of its quadrants, and MHAD puts the signed, scaled sum of its group in the place of every element of
them; each finishes, and no other element and nothing else changes. A word that fails its check faults ILLEGAL_CMD as it
reaches the head, an MGO with no nest and an MBLD from a ring with SRC or SSRC too, whatever runs then (R139, R283, R284). -/
def Sys2Proof.Claims.MatrixCommands : Prop :=
  ∀ (h : Hdr) (s : State) (q : QCmd),
    (∀ f, Starts s h q 0 0 [] [] none → mfmtOk f = true →
      ∃ t, exec (.mfmt h f) s = .next t ∧
        Done s t (onMe s fun m => { m with fmt := f, pre := false, banks := vmap (fun b => { b with id := none }) m.banks })
          h q none) ∧
    (∀ k n, Starts s h q 0 0 [] [] none → mnestOk (s.me s.p).shadow k n = true →
      ∃ t, exec (.mnest h k n) s = .next t ∧
        Done s t (onMe s fun m => { m with active := m.shadow, kstep := k, nlev := n, nested := true }) h q none) ∧
    (∀ qm, Starts s h q 0 0 [] [] none → qm ≠ 0 →
      ∃ t m, exec (.mzero h qm) s = .next t ∧ Done s t (onMe s fun x => { x with acc := m }) h q none ∧
        ∀ i r n, i < 4 → r < 128 → n < 128 →
          accAt (t.me s.p) i r n = if qm.getLsbD i then 0 else accAt (s.me s.p) i r n) ∧
    (∀ c, Starts s h q 0 0 [] [] none → c.n ≠ 3 → c.qm ≠ 0 → (s.me s.p).fmt.afmt ≠ 0 →
      ∃ t m, exec (.mhad h c) s = .next t ∧ Done s t (onMe s fun x => { x with acc := m }) h q none ∧
        ∀ i r n, i < 4 → r < 128 → n < 128 →
          accAt (t.me s.p) i r n =
            if c.qm.getLsbD i then hadamard (32 * 2 ^ c.n.toNat) c.h.toNat c.fo (accAt (s.me s.p) i r) n
            else accAt (s.me s.p) i r n) ∧
    (∀ i, (∃ f, i = .mfmt h f ∧ mfmtOk f = false) ∨ i = .mzero h 0 ∨ (∃ c, i = .mhad h c ∧ c.n = 3) ∨
        (∃ c, i = .mgo h c ∧ (c.qm = 0 ∨ (s.me s.p).nested = false)) ∨
        (∃ c, i = .mbld h c ∧ (c.qm = 0 ∨ (s.me s.p).nested = false ∨
          (c.pod = true ∧ ((s.me s.p).fmt.bpod = false ∨ c.src ≠ 0 ∨ c.ssrc ≠ 0)))) →
      (s.eng s.p s.sched.ep).q.head? = some q → s.flt.on = false → (s.bent (bentOf s.p)).faults.length < 64 →
      ∃ t, exec i s = .next t ∧ HeadFaults s t q 0x0D 0)

/-- R283, R284, R287: MGO begins its nest at the first tuple, MBLD its load and MDRN its drain at the first segment of its
lowest quadrant; each leaves its queue and stays in flight. -/
def Sys2Proof.Claims.MatrixStarts : Prop :=
  ∀ (h : Hdr) (s : State) (q : QCmd), Starts s h q 0 0 [] [] none →
    (∀ c, mgoOk c s s.p = true →
      ∃ t r, exec (.mgo h c) s = .next t ∧
        Begun s t (onMe s fun m => { m with steps := 0, bwait := false, podw := false, run := some r }) h q none ∧
        r.c = c ∧ r.ord = (s.core s.p).nextOrd ∧ r.idx = List.replicate ((s.me s.p).nlev.toNat + 1) 0 ∧ r.first = true) ∧
    (∀ c, mbldOk c s s.p = true →
      ∃ t, exec (.mbld h c) s = .next t ∧
        Begun s t (onMe s fun m => { m with bld := some ((s.core s.p).nextOrd, c) }) h q none) ∧
    (∀ c i, mdrnOk c (s.me s.p) = true → i < 4 → c.qm.getLsbD i = true → (∀ j, j < i → c.qm.getLsbD j = false) →
      (s.core s.p).rng.mPend = false →
      ∃ t, exec (.mdrn h c) s = .next t ∧
        Begun s t (onMe s fun m => { m with drn := some ((s.core s.p).nextOrd, 128 * i) }) h q none)

/-- Matrix commands act or start (R281–R287). -/
def Obligations.MatrixBegins : Prop := Sys2Proof.Claims.MatrixCommands ∧ Sys2Proof.Claims.MatrixStarts

/-- R274–R276, R282: a step of the running MGO adds its groups to rows 8g to 8g + 7 of its quadrants' tiles and to no other
element, counts itself, makes its B block the active one where it was not, and moves to the next tuple, finishing the
command after the last; for INT8 without SAT and KSTEP = 32 each sum is the integers'. A step whose B block is not there
waits. -/
def Obligations.MatrixSteps : Prop :=
  ∀ (p : CoreId) (s : State) (r : MRun) (x : StepAddr) (rows sc : Array Vec),
    Works s p → (s.me p).drn = none → (s.me p).run = some r →
    (StepReady s p r x rows sc →
      ∃ t, exec (.meStep p) s = .next t ∧ SameBytes s t ∧
        (t.me p).steps = (if (s.me p).steps = 0xFFFFFFFF then 0xFFFFFFFF else (s.me p).steps + 1) ∧
        (t.me p).act = (if r.needB x = true then (s.me p).act + 1 else (s.me p).act) ∧
        (t.me p).banks = (s.me p).banks ∧
        (match nestNext (s.me p).active 0 r.idx with
         | some i => ∃ y, (t.me p).run = some y ∧ y.idx = i ∧ y.ord = r.ord ∧ y.first = false
         | none => (t.me p).run = none) ∧
        ∀ i m n, i < 4 → m < 128 → n < 128 →
          accAt (t.me p) i m n =
            if r.c.qm.getLsbD i ∧ m / 8 = x.g then
              stepElem (s.me p).fmt (s.me p).kstep.toNat rows sc (t.me p).cur.rows (t.me p).cur.scales
                ((quads r.c.qm).idxOf i * bRowsQ (s.me p).fmt (s.me p).kstep.toNat)
                ((quads r.c.qm).idxOf i * sRowsQ (s.me p).fmt (s.me p).kstep.toNat) (m % 8) n (accAt (s.me p) i m n)
            else accAt (s.me p) i m n) ∧
    (∀ (f : MFmt) (a b z w : Array Vec) (base sbase m n : Nat) (acc : W32), f.afmt = 0 → f.bfmt = 0 → f.sat = false →
      stepElem f 32 a z b w base sbase m n acc =
        acc + BitVec.ofInt 32 (((List.range 32).map fun k =>
          signedLow 8 (BitVec.ofNat 64 (aElem f a m k)) * signedLow 8 (BitVec.ofNat 64 (bElem f b base k n))).sum)) ∧
    (x = (s.me p).stepAddr r.c r.idx → r.needB x = true → (s.me p).spareServes r x = false →
      (∀ code va, s.takeB p (s.me p).fmt (s.me p).kstep.toNat r.c.qm
        (s.me p).fmt.bpod x.b x.sb ≠ .fault code va) →
      ∃ w, exec (.meStep p) s = .next (s.modMe p fun y => { y with bwait := true, podw := w }))

/-- R275, R277, R284: a B block that is next, for the running MGO or for an MBLD, is put into the inactive bank with its
identity (a scale address only for MXFP4), its rows read; the active bank stands. An MBLD then finishes, its block kept for an MGO with PRE. -/
def Sys2Proof.Claims.BlocksLoaded : Prop :=
  ∀ (p : CoreId) (s : State) (rows sc : List Vec), Works s p →
    (∀ r i y, (s.me p).run = some r → (s.me p).bld = none → (s.me p).loadFor r = some i →
      y = (s.me p).stepAddr r.c i →
      s.takeB p (s.me p).fmt (s.me p).kstep.toNat r.c.qm (s.me p).fmt.bpod y.b y.sb = .got rows sc →
      ∃ t, exec (.bBlockLoad p) s = .next t ∧ SameBytes s t ∧ (t.me p).act = (s.me p).act ∧
        (t.me p).cur = (s.me p).cur ∧ (t.me p).acc = (s.me p).acc ∧
        (t.me p).spare = { id := some { b := y.b, sb := if (s.me p).fmt.bfmt = 8 then y.sb else 0, qm := r.c.qm,
                                        kstep := (s.me p).kstep, fmt := (s.me p).fmt },
                           rows := rows.toArray, scales := sc.toArray }) ∧
    (∀ ord c, (s.me p).run = none → (s.me p).bld = some (ord, c) →
      s.takeB p (s.me p).fmt (s.me p).kstep.toNat c.qm c.pod c.src c.ssrc = .got rows sc →
      ∃ t, exec (.bBlockLoad p) s = .next t ∧ SameBytes s t ∧ (t.me p).bld = none ∧ (t.me p).pre = true ∧
        (t.me p).act = (s.me p).act ∧ (t.me p).cur = (s.me p).cur ∧ (t.me p).acc = (s.me p).acc ∧
        (t.me p).spare = { id := some { b := c.src, sb := if (s.me p).fmt.bfmt = 8 then c.ssrc else 0, qm := c.qm,
                                        kstep := (s.me p).kstep, fmt := (s.me p).fmt },
                           rows := rows.toArray, scales := sc.toArray })

/-- R287, R288: the running MDRN writes one segment, row m of quadrant q, at DST + m × MSTR + q × QSTR, with its scales at
SDST + 4 × (128q + m), and moves to the next; after the last it finishes, with the tiles cleared under ZERO. A drain to
FP32 without FI writes the row's 128 patterns as they are. No other byte changes. -/
def Sys2Proof.Claims.DrainsWritten : Prop :=
  ∀ (p : CoreId) (s : State) (f : Flight) (h : Hdr) (c : MDrnOps) (i : Nat) (bs sc : List Byte) (gens : List W32)
      (ls ks : List Loc),
    Works s p → (s.me p).drn = some (f.ord, i) → (s.core p).flight? f.ord = some f → decodeCmd f.words = some (.mdrn h c) →
    f.ticket = none → f.waiting = false →
    drainRow (isInt8 (s.me p).fmt) c (vget (vget (s.me p).acc (i / 128)) (i % 128)) (vlist (s.core p).rng.mg) =
      (bs, sc, gens) →
    s.placeVa p (c.dst + BitVec.ofNat 64 (i % 128) * c.mstr.signExtend 64 + BitVec.ofNat 64 (i / 128) * c.qstr.signExtend 64)
      .write bs.length = .ok ls →
    s.placeVa p (c.sdst + BitVec.ofNat 64 (4 * i)) .write sc.length = .ok ks →
    (∀ l ∈ ls ++ ks, s.isOnChip l = true ∧ s.slotWritable p l 1 = true ∧ s.formHeld l = false) → Canonical s →
    (∃ t, exec (.meStep p) s = .next t ∧ Lands s t p (ls.zip bs ++ ks.zip sc) ∧
      (match nextSeg c.qm (i + 1) with
       | some j => (t.me p).drn = some (f.ord, j) ∧ (t.me p).acc = (s.me p).acc
       | none => (t.me p).drn = none ∧ ∀ q r n, q < 4 → r < 128 → n < 128 →
           accAt (t.me p) q r n = if c.zero = true ∧ c.qm.getLsbD q then 0 else accAt (s.me p) q r n)) ∧
    (c.fmt = 4 → c.plane = false → c.fi = false → (s.me p).fmt.afmt ≠ 0 →
      bs = (List.range 512).map (fun j => (vget (vget (s.me p).acc (i / 128)) (i % 128)).extractLsb' (8 * j) 8) ∧ sc = [])

/-- B blocks are loaded and tiles drained (R275, R277, R284, R287). -/
def Obligations.BlocksMove : Prop := Sys2Proof.Claims.BlocksLoaded ∧ Sys2Proof.Claims.DrainsWritten

namespace Sys2Proof.Claims

open Sys2Proof.Machine

/-! ### The vector engine -/

/-- The acting core's VE changed. -/
def onVe (s : State) (p : CoreId) (f : Ve → Ve) : State := s.modCore p fun c => { c with ve := f c.ve }

/-- Slot(s, k): stream `x` before station `k` (R229). -/
def slotOf (v : Ve) (x k : Nat) : Option Vec := vget v.slots (9 * x + k)

/-- The cycles that a freeze of the timetable in force has lasted since PLFREEZE last counted it, those of the core's other
freezes left out (R66). -/
def frozenFor (s : State) (p : CoreId) : Word := if (s.ve p).frz then BitVec.ofNat 64 (s.live p - (s.ve p).frzAt) else 0

/-- A freeze of the timetable is in force from now on: PLFREEZE has counted the cycles of the one that already was (R66). -/
structure Frozen (s t : State) (p : CoreId) : Prop where
  module : t = s.setCore p (t.core p)
  core : t.core p = { s.core p with
    ve := { (s.core p).ve with frz := true, frzAt := s.live p },
    plumb := { (s.core p).plumb with freeze := (s.core p).plumb.freeze + frozenFor s p }, dbg := (t.core p).dbg }

/-- The VE is stopped: no run, no walk, every operand queue and slot empty (R249). -/
structure Stopped (v w : Ve) : Prop where
  run : w.run = none ∧ w.stopr = none ∧ w.frz = false ∧ w.cutw = false ∧ w.held = false
  slots : ∀ i, i < 144 → vget w.slots i = none
  queues : (∀ i, i < 8 → vget w.oqAtt i = none ∧ vget w.oq i = []) ∧ ∀ i, i < 4 → vget w.wqAtt i = none
  kept : w.masks = v.masks ∧ w.lc = v.lc ∧ w.table = v.table

/-- A descriptor that R237 lets a queue attach. -/
def MayAttach (v : Ve) (n : BitVec 4) (oq wq : Option Nat) : Prop := v.refuses n oq wq = false

/-- The descriptors once a walk is attached (R235, R236): under RST, at its end or at its first vector it starts afresh, and
the walk of its index descriptor with it. -/
def startedWalk (v : Ve) (n : BitVec 4) (rst : Bool) : Vector SdState 16 :=
  if rst = true ∨ walkLen (v.sdOf n).d ≤ (v.sdOf n).cur ∨ (v.sdOf n).cur = 0 then
    let sd := vmod v.sd n.toNat fun x => { x with cur := 0, idx := [] }
    if dIdxEn (v.sdOf n).d = true then vmod sd (dIdx (v.sdOf n).d).toNat fun x => { x with cur := 0 } else sd
  else v.sd

/-- The counter and the step of a VE set. -/
def timed (v : Ve) (due : Nat) : Ve := { v with due := due, clamp := false }

/-- The VE of a core may issue its next bundle, which falls due in the next cycle (R248). -/
structure Working (s : State) (p : CoreId) : Prop where
  works : Works s p
  run : ∃ r, (s.ve p).run = some r ∧ ∀ f, (s.core p).flight? r.ord = some f → f.ticket = none ∧ f.waiting = false
  going : (s.ve p).cutw = false ∧ (s.ve p).held = false ∧ (s.ve p).stopr = none ∧ (s.ve p).ending = none
  due : (s.ve p).due = (s.ve p).counter + 1

/-- That bundle is `ws`, made of the orders `l`. -/
structure Issuing (s : State) (p : CoreId) (ws : List W32) (l : List Instr) : Prop where
  working : Working s p
  bundle : (s.ve p).bundle (s.ve p).step 14 = some ws
  orders : ws.map decodeOrder = l.map some

/-- One window's end as R63 gives it. -/
structure WindowClosed (y z : Sym) : Prop where
  fixed : z.valid = y.valid ∧ z.lo = y.lo ∧ z.hi = y.hi ∧ z.bind = y.bind ∧ z.wmax = 0 ∧ z.cnt = 0 ∧ z.full = false
  stretch : y.bind < y.wmax → z.lowcnt = 0 ∧
    (y.pend = false → z.pbind = min y.wmax y.hi ∧ (z.pend = true ↔ y.bind < min y.wmax y.hi)) ∧
    (y.pend = true → z.pbind = max y.pbind (min y.wmax y.hi) ∧ z.pend = true)
  low : y.wmax + 2 ≤ y.bind → z.lowmax = (if y.lowcnt = 0 then y.wmax else max y.lowmax y.wmax) ∧
    (y.lowcnt ≠ 2 → z.lowcnt = y.lowcnt + 1 ∧ z.pend = y.pend ∧ z.pbind = y.pbind) ∧
    (y.lowcnt = 2 → z.lowcnt = 0 ∧ z.pend = true ∧ (y.pend = true → z.pbind = y.pbind) ∧
      (y.pend = false → z.pbind = max z.lowmax y.lo))
  near : ¬ y.bind < y.wmax → ¬ y.wmax + 2 ≤ y.bind → z.lowcnt = 0 ∧ z.pend = y.pend ∧ z.pbind = y.pbind

end Sys2Proof.Claims

open Sys2Proof Sys2Proof.Machine Sys2Proof.Claims

/-- R244–R247: VBASE and VSDESC write their descriptor, its cursor at 0; VRUN loads its table where the tag differs,
empties every slot, sets the counter to 0, the step to ENTRY and the loop values, and stays in flight; VSTOP finishes at
once with no run and else waits in flight for the run. -/
def Obligations.VectorCommands : Prop :=
  ∀ (h : Hdr) (s : State) (q : QCmd), Starts s h q 0 0 [] [] none →
    (∀ n b, ∃ t, exec (.vbase h n b) s = .next t ∧
      Done s t (onVe s s.p fun v => { v with sd := vmod v.sd n.toNat fun x =>
        { x with d := { x.d with base := b }, cur := 0, idx := [] } }) h q none) ∧
    (∀ n d, vsdescOk n d = true → ∃ t, exec (.vsdesc h n d) s = .next t ∧
      Done s t (onVe s s.p fun v => { v with sd := vmod v.sd n.toNat fun x => { x with d := d, cur := 0, idx := [] } })
        h q none) ∧
    (∀ n d, vsdescOk n d = false → s.flt.on = false → (s.bent (bentOf s.p)).faults.length < 64 →
      ∃ t, exec (.vsdesc h n d) s = .next t ∧ HeadFaults s t q 0x0D 0) ∧
    (∀ c ws u, vrunOk c = true → (s.core s.p).rng.vPend = false →
      (if (s.ve s.p).tag = some (c.img, c.len.toNat) then ws = (s.ve s.p).table ∧ u = s
       else ∃ ls, s.tableWords s.p c.img c.len.toNat = .ok (ls, ws) ∧ u = ls.foldl (fun w l => w.used s.p l 128) s) →
      ∃ t v, exec (.vrun h c) s = .next t ∧ Begun s t (onVe u s.p fun _ => v) h q none ∧
        v.table = ws ∧ v.tag = some (c.img, c.len.toNat) ∧ v.counter = 0 ∧ v.due = 0 ∧ v.step = c.entry.toNat ∧
        (∀ i, i < 144 → vget v.slots i = none) ∧ (∀ i, i < 4 → vget v.armed i = false) ∧
        v.lcv = #v[c.lc0, c.lc1, c.lc2, c.lc3] ∧
        v.run = some { ord := (s.core s.p).nextOrd, cls := h.cls, img := c.img, len := c.len.toNat, first := true } ∧
        v.masks = (s.ve s.p).masks ∧ v.lc = (s.ve s.p).lc ∧ v.oq = (s.ve s.p).oq ∧ v.wq = (s.ve s.p).wq ∧
        v.sd = (s.ve s.p).sd) ∧
    (∀ imm, ((s.ve s.p).run = none → ∃ t, exec (.vstop h imm) s = .next t ∧ Done s t s h q none) ∧
      ((s.ve s.p).run ≠ none → ∃ t, exec (.vstop h imm) s = .next t ∧
        Begun s t (onVe s s.p fun v => { v with stopr := some (imm, (s.core s.p).nextOrd) }) h q none))

/-- R250, R66, R235–R237: INJ puts the head of its operand queue into Slot(STRM, 0), popping it without KEEP, and DRN the
exit of its stream, or zeros, onto its write queue; where the queue is empty, or full, the timetable freezes. SRD and SWR
attach their descriptor, its walk begun afresh under RST, at its end or at its first vector, with its index's, and where R237 refuses it the run ends with an
ILLEGAL_OP record. -/
def Sys2Proof.Claims.StreamOrders : Prop :=
  ∀ (s : State),
    (∀ o x rest v, vget (s.ve s.p).oq o.oq.toNat = x :: rest → x.val = some v →
      exec (.inj o) s = .next (onVe s s.p fun u =>
        { u with slots := vset u.slots (9 * o.strm.toNat) (some v),
                 oq := if o.keep then u.oq else vset u.oq o.oq.toNat rest })) ∧
    (∀ o, (∀ x rest, vget (s.ve s.p).oq o.oq.toNat = x :: rest → x.val = none) →
      ∃ t, exec (.inj o) s = .next t ∧ Frozen s t s.p) ∧
    (∀ o, (vget (s.ve s.p).wq o.wq.toNat).length < 16 →
      exec (.drn o) s = .next (onVe s s.p fun u =>
        { u with wq := vmod u.wq o.wq.toNat (· ++ [(slotOf u o.strm.toNat 8).getD 0]),
                 slots := vset u.slots (9 * o.strm.toNat + 8) none })) ∧
    (∀ o, 16 ≤ (vget (s.ve s.p).wq o.wq.toNat).length → ∃ t, exec (.drn o) s = .next t ∧ Frozen s t s.p) ∧
    (∀ o, MayAttach (s.ve s.p) o.sd (some o.oq.toNat) none →
      exec (.srd o) s = .next (onVe s s.p fun u =>
        { u with oqAtt := vset u.oqAtt o.oq.toNat (some o.sd), sd := startedWalk u o.sd o.rst })) ∧
    (∀ o, MayAttach (s.ve s.p) o.sd none (some o.wq.toNat) →
      exec (.swr o) s = .next (onVe s s.p fun u =>
        { u with wqAtt := vset u.wqAtt o.wq.toNat (some o.sd), sd := startedWalk u o.sd o.rst })) ∧
    (∀ i, (∃ o, i = .srd o ∧ (s.ve s.p).refuses o.sd (some o.oq.toNat) none = true) ∨
        (∃ o, i = .swr o ∧ (s.ve s.p).refuses o.sd none (some o.wq.toNat) = true) →
      s.flt.on = false → ∃ t x, exec i s = .next t ∧ (t.ve s.p).ending ≠ some false ∧
        (t.bent (bentOf s.p)).faults = (s.bent (bentOf s.p)).faults ++ [x] ∧ (x.words.getD 0 0).extractLsb' 0 8 = 0x01 ∧
        ((t.ve s.p).ending = none → (t.ve s.p).run = none))

/-- R65, R251, R249: TIME sets its bundle due d cycles on, d at least 1; JMPT goes to its target; LOOPT starts its counter
where it is not armed, and goes to its target until it has counted down to 0; HALT ends the run, its VRUN finishing once
every requested vector has landed and every attached write walk has written its queue. -/
def Sys2Proof.Claims.ControlOrders : Prop :=
  ∀ (s : State),
    (∀ o b, b = (if (s.sym s.p o.sym).valid = true then (s.sym s.p o.sym).bind else 0) →
      1 ≤ signedLow 8 (o.c.setWidth 64) + o.k.toNat * b →
      exec (.time o) s = .next (onVe s s.p fun v =>
        timed v (v.counter + (signedLow 8 (o.c.setWidth 64) + o.k.toNat * b).toNat))) ∧
    (∀ o b, b = (if (s.sym s.p o.sym).valid = true then (s.sym s.p o.sym).bind else 0) →
      signedLow 8 (o.c.setWidth 64) + o.k.toNat * b < 1 → s.traceOn 2 (some s.p) = false →
      exec (.time o) s = .next (onVe s s.p fun v => timed v (v.counter + 1))) ∧
    (∀ e n, exec (.jmpt e n) s = .next (onVe s s.p fun v => { v with step := n.toNat })) ∧
    (∀ o c, c = (if vget (s.ve s.p).armed o.lc.toNat = true then vget (s.ve s.p).lc o.lc.toNat
                 else if o.vr = true then (vget (s.ve s.p).lcv o.lc.toNat).toNat else o.cnt.toNat) →
      (c = 0 → exec (.loopt o) s = .next (onVe s s.p fun v =>
        { v with lc := vset v.lc o.lc.toNat 0, armed := vset v.armed o.lc.toNat false })) ∧
      (∀ n, c = n + 1 → exec (.loopt o) s = .next (onVe s s.p fun v =>
        { v with lc := vset v.lc o.lc.toNat n, armed := vset v.armed o.lc.toNat true, step := o.tgt.toNat }))) ∧
    (∀ e r f, (s.ve s.p).run = some r → (s.ve s.p).stopr = none → (s.core s.p).flight? r.ord = some f →
      f.finished = false →
      (∀ i x, i < 8 → x ∈ vget (s.ve s.p).oq i → x.val ≠ none) →
      (∀ i, i < 4 → vget (s.ve s.p).wqAtt i ≠ none → vget (s.ve s.p).wq i = []) →
      ∃ t, exec (.halt e) s = .next t ∧ Stopped (s.ve s.p) (t.ve s.p) ∧ SameBytes s t ∧
        ∀ g ∈ (t.core s.p).flights, g.ord = r.ord → g ∈ (s.core s.p).flights.erase f ∨ g.finished = true) ∧
    (∀ e, (∃ i x, i < 8 ∧ x ∈ vget (s.ve s.p).oq i ∧ x.val = none) →
      ∃ t, exec (.halt e) s = .next t ∧ (t.ve s.p).run = (s.ve s.p).run ∧ (t.ve s.p).ending ≠ none ∧
        ∀ i, i < 144 → vget (t.ve s.p).slots i = none)

/-- Stream and control orders (R235–R237, R249–R251). -/
def Obligations.TimetableOrders : Prop := Sys2Proof.Claims.StreamOrders ∧ Sys2Proof.Claims.ControlOrders

/-- R230, R248: the counter advances, every vector moves one station on, Slot(s, 0) empties and the results of the bundle
before stand; then the bundle issues: one of a single station order leaves that order's result, or its mask, for the next
advance and moves past it; JMPT goes to its target. A bundle without an end faults ILLEGAL_OP; one whose INJ finds its
queue empty freezes the timetable, whose cycles PLFREEZE counts. -/
def Sys2Proof.Claims.BundlesIssue : Prop :=
  ∀ (p : CoreId) (s : State), s.trace.ctl.getLsbD 0 = false →
    (∀ (w : W32) (i : Instr), Issuing s p [w] [i] → (stationAct i).isSome = true →
      ∃ t u, exec (.bundleIssue p) s = .next t ∧ SameBytes s t ∧
        exec i ((onVe s p Ve.advance).modSched fun x => { x with core := p }) = .next u ∧
        (t.ve p).results = (u.ve p).results ∧
        (t.ve p).masks = (u.ve p).maskPend.foldl (fun m r => vset m r.1.toNat r.2) (s.ve p).masks ∧
        (t.core p).rng = (u.core p).rng ∧
        (t.ve p).counter = (s.ve p).counter + 1 ∧ (t.ve p).step = (s.ve p).step + 1 ∧
        ((∀ r ∈ (s.ve p).results, r.1 < 144 ∧ r.1 % 9 ≠ 0) → ∀ x, x < 16 → slotOf (t.ve p) x 0 = none ∧ ∀ k, k < 8 →
          slotOf (t.ve p) x (k + 1) =
            match (((s.ve p).results.filter fun r => r.1 == 9 * x + (k + 1)).getLast?) with
            | some r => some r.2
            | none => slotOf (s.ve p) x k)) ∧
    (∀ (w : W32) (e : Bool) (n : BitVec 13), Issuing s p [w] [.jmpt e n] →
      ∃ t, exec (.bundleIssue p) s = .next t ∧ SameBytes s t ∧ (t.ve p).step = n.toNat ∧
        (t.ve p).counter = (s.ve p).counter + 1) ∧
    (∀ (w : W32) (o : InjOp), Issuing s p [w] [.inj o] → vget (s.ve p).oq o.oq.toNat = [] →
      ∃ t, exec (.bundleIssue p) s = .next t ∧ (t.ve p).frz = true ∧ (t.ve p).frzAt = s.live p ∧
        (t.ve p).step = (s.ve p).step ∧ (t.core p).plumb.freeze = (s.core p).plumb.freeze + frozenFor s p) ∧
    (Working s p → (s.ve p).bundle (s.ve p).step 14 = none → s.flt.on = false →
      ∃ t x, exec (.bundleIssue p) s = .next t ∧
        (t.bent (bentOf p)).faults = (s.bent (bentOf p)).faults ++ [x] ∧ (x.words.getD 0 0).extractLsb' 0 8 = 0x01 ∧
        (x.words.getD 0 0).extractLsb' 32 4 = 6 ∧ x.words.getD 2 0 = BitVec.ofNat 64 (s.ve p).step)

/-- R63: a window that has its 4,096th sample closes as R63 sets out, with no other symbol changed; one that has not, or
of an invalid symbol, stays, and so does one of a core that stands in a freeze (R67). -/
def Sys2Proof.Claims.WindowsClose : Prop :=
  ∀ (p : CoreId) (n : BitVec 4) (s : State),
    ((s.sym p n).valid = true → (s.sym p n).full = true → s.stalled p = false → s.traceOn 2 (some p) = false →
      ∃ z, exec (.windowClose p n) s = .next (s.modSym p n fun _ => z) ∧ WindowClosed (s.sym p n) z) ∧
    ((s.sym p n).valid = false ∨ (s.sym p n).full = false ∨ s.stalled p = true → exec (.windowClose p n) s = .next s)

/-- Bundles issue, and latency windows close (R63, R230, R248). -/
def Obligations.BundlesRun : Prop := Sys2Proof.Claims.BundlesIssue ∧ Sys2Proof.Claims.WindowsClose

/-- R68, R233: in a cut's drain every vector moves one station on in each cycle, with nothing injected; once nothing is
left the pending bindings stand, PLRETIME counts their installation, and the cut's bundle issues next. -/
def Sys2Proof.Claims.CutsDrain : Prop :=
  ∀ (p : CoreId) (s : State), Works s p → (s.ve p).ending = none → (s.ve p).cutw = true → (s.ve p).stopr = none →
    (∃ r, (s.ve p).run = some r ∧ ∀ f, (s.core p).flight? r.ord = some f → f.ticket = none ∧ f.waiting = false) →
    ((∃ i x, i < 144 ∧ vget (s.ve p).slots i = some x) → ∃ t, exec (.cutDrain p) s = .next t ∧
      t = onVe s p (fun v => { v with slots := (t.ve p).slots }) ∧
      ∀ x, x < 16 → slotOf (t.ve p) x 0 = none ∧ ∀ k, k < 8 → slotOf (t.ve p) x (k + 1) = slotOf (s.ve p) x k) ∧
    ((∀ i, i < 144 → vget (s.ve p).slots i = none) → (∀ i x, i < 8 → x ∈ vget (s.ve p).oq i → x.val ≠ none) →
      (∀ i, i < 4 → vget (s.ve p).wqAtt i ≠ none → vget (s.ve p).wq i = []) →
      (s.core p).dbg.dbgctl.getLsbD 8 = false → s.trace.ctl.getLsbD 0 = false →
      ∃ t, exec (.cutDrain p) s = .next t ∧ (t.ve p).cutw = false ∧ (t.ve p).installed = true ∧
        (∀ ws, (s.ve p).bundle (s.ve p).step 14 = some ws → isCut ws = true →
          (∃ n, (s.sym p n).valid = true ∧ (s.sym p n).pend = true) →
          (t.core p).plumb.retime = (s.core p).plumb.retime + 1 ∧
          ∀ n, t.sym p n = if (s.sym p n).valid = true ∧ (s.sym p n).pend = true then
            { s.sym p n with bind := (s.sym p n).pbind, pend := false } else s.sym p n))

/-- R98, R232, R235: the run-ahead unit requests a read walk's next vector while its queue holds fewer than 16, and moves its
cursor, detaching the walk after its last; the oldest requested vector of a queue takes the 128 bytes at its place, once its bank grants it; a write
walk writes its queue's head at its cursor. A walk's addresses are BASE plus its indices times its strides. -/
def Sys2Proof.Claims.WalksRun : Prop :=
  ∀ (p : CoreId) (s : State),
    (∀ (q : Fin 8) (n : BitVec 4) (l : Loc), Works s p → s.changing = false → (s.ve p).ending = none → (s.ve p).cutw = false →
      (∃ r, (s.ve p).run = some r ∧ ∀ f, (s.core p).flight? r.ord = some f → f.ticket = none ∧ f.waiting = false) →
      vget (s.ve p).oqAtt q.val = some n → dIdxEn ((s.ve p).sdOf n).d = false → ((s.ve p).sdOf n).ticket = none →
      ((s.ve p).sdOf n).cur < walkLen ((s.ve p).sdOf n).d → (vget (s.ve p).oq q.val).length < 16 →
      s.engAt p (walkAddr ((s.ve p).sdOf n).d ((s.ve p).sdOf n).cur) 128 .read = .ok l →
      (s.isOnChip l = true ∨ s.isPeer l = true) →
      ∃ t e, exec (.walkRequest p q) s = .next t ∧
        t = (onVe s p fun _ => t.ve p).note p (walkAddr ((s.ve p).sdOf n).d ((s.ve p).sdOf n).cur) ∧
        vget (t.ve p).oq q.val = vget (s.ve p).oq q.val ++ [e] ∧ e.loc = l ∧ e.val = none ∧
        ((t.ve p).sdOf n).cur = ((s.ve p).sdOf n).cur + 1 ∧
        vget (t.ve p).oqAtt q.val =
          (if walkLen ((s.ve p).sdOf n).d ≤ ((s.ve p).sdOf n).cur + 1 then none else some n)) ∧
    (∀ (q : Fin 8) (pre post : List OqEntry) (e : OqEntry), s.stalled p = false → (s.core p).testing = false →
      vget (s.ve p).oq q.val = pre ++ e :: post → (∀ x ∈ pre, x.val ≠ none) → e.val = none → e.sym = none →
      (s.ve p).ending = none →
      s.formHeld e.loc = false → s.reachableLoc e.loc = true → e.loc.align 128 = e.loc →
      (¬ Granted s p 3 e.loc → exec (.vectorLanding p q) s = .next s) ∧
      (Granted s p 3 e.loc →
        exec (.vectorLanding p q) s = .next (onVe (rotated (s.used p e.loc 128) p 3 e.loc) p fun v =>
          { v with oq := vset v.oq q.val (pre ++ { e with val := some (toVec (s.readLoc p e.loc 128)) } :: post) }))) ∧
    (∀ (q : Fin 4) (n : BitVec 4) (l : Loc) (head : Vec) (rest : List Vec), Works s p → s.changing = false → (s.ve p).ending = none →
      vget (s.ve p).wqAtt q.val = some n → vget (s.ve p).wq q.val = head :: rest →
      dIdxEn ((s.ve p).sdOf n).d = false → ((s.ve p).sdOf n).ticket = none →
      ((s.ve p).sdOf n).cur < walkLen ((s.ve p).sdOf n).d →
      s.engAt p (walkAddr ((s.ve p).sdOf n).d ((s.ve p).sdOf n).cur) 128 .write = .ok l →
      (s.isOnChip l = true ∨ s.isPeer l = true) → Canonical s →
      ∃ t u, exec (.writeWalkWrite p q) s = .next t ∧ Wrote s u p l (vecBytes head) ∧
        t = (onVe (rotated u p 4 l) p fun _ => t.ve p).note p (walkAddr ((s.ve p).sdOf n).d ((s.ve p).sdOf n).cur) ∧
        vget (t.ve p).wq q.val = rest ∧ ((t.ve p).sdOf n).cur = ((s.ve p).sdOf n).cur + 1) ∧
    (∀ (d : SDesc) (i0 i1 i2 i3 : Nat), d.dctl.extractLsb' 0 2 = 3 → i0 ≤ d.cnt0.toNat → i1 ≤ d.cnt1.toNat →
      i2 ≤ d.cnt2.toNat → i3 ≤ d.cnt3.toNat →
      walkAddr d (i0 + (d.cnt0.toNat + 1) * (i1 + (d.cnt1.toNat + 1) * (i2 + (d.cnt2.toNat + 1) * i3))) =
        d.base + BitVec.ofNat 64 i0 * d.str0.signExtend 64 + BitVec.ofNat 64 i1 * d.str1.signExtend 64 +
          BitVec.ofNat 64 i2 * d.str2.signExtend 64 + BitVec.ofNat 64 i3 * d.str3.signExtend 64)

/-- Cuts drain, and walks run (R68, R232, R233, R235). -/
def Obligations.WalksServe : Prop := Sys2Proof.Claims.CutsDrain ∧ Sys2Proof.Claims.WalksRun

namespace Sys2Proof.Claims

open Sys2Proof.Machine

/-! ### Station orders -/

/-- Lane `l` of `w` bits of a vector (R239). -/
def lane (w l : Nat) (v : Vec) : Nat := v.toNat / 2 ^ (w * l) % 2 ^ w

/-- Byte `j` of a vector. -/
def byteOf (v : Vec) (j : Nat) : Nat := lane 8 j v

/-- The vectors a, b and c of an order's frame; an empty slot reads zero (R252). -/
def opA (s : State) (o : StOrd) : Vec := (slotOf (s.ve s.p) o.sa.toNat o.stn.toNat).getD 0
def opB (s : State) (o : StOrd) : Vec := (slotOf (s.ve s.p) o.sb.toNat o.stn.toNat).getD 0
def opC (s : State) (o : StOrd) : Vec := (slotOf (s.ve s.p) o.ds.toNat o.stn.toNat).getD 0

/-- Lane `l` of `w` bits is not masked off (R240): the mask bit of its low byte. -/
def laneOn (s : State) (o : StOrd) (w l : Nat) : Prop :=
  o.msk = false ∨ (vget (s.ve s.p).masks o.stn.toNat).getLsbD (w / 8 * l) = true

/-- The stochastic generator of a byte position. -/
def genAt (s : State) (b : Nat) : W32 := vget (s.core s.p).rng.vg b

/-- The result `v` waits to be written to Slot(DS, k + 1) at the advance (R230, R252). -/
def resulted (s : State) (o : StOrd) (v : Vec) (vg : Vector W32 128) : State :=
  s.modCore s.p fun c => { c with
    ve := { c.ve with results := c.ve.results ++ [(9 * o.ds.toNat + (o.stn.toNat + 1), v)] }, rng := { c.rng with vg := vg } }

/-- The order gives a result whose lanes of `w` bits hold `f` of A, B, C and their generator, or C where masked off. -/
def LanesGive (i : Instr) (o : StOrd) (s : State) (w : Nat) (f : Nat → Nat → Nat → W32 → Nat × W32) : Prop :=
  ∃ v vg, exec i s = .next (resulted s o v vg) ∧
    (∀ l, l < 1024 / w → laneOn s o w l →
      (lane w l v, vget vg (w / 8 * l)) =
        f (lane w l (opA s o)) (lane w l (opB s o)) (lane w l (opC s o)) (genAt s (w / 8 * l))) ∧
    (∀ l, l < 1024 / w → ¬ laneOn s o w l →
      lane w l v = lane w l (opC s o) ∧ vget vg (w / 8 * l) = genAt s (w / 8 * l)) ∧
    ∀ b, b < 128 → b % (w / 8) ≠ 0 → vget vg b = genAt s b

/-- The order gives the result `v`, drawing nothing. -/
def Gives (i : Instr) (o : StOrd) (s : State) (v : Vec) : Prop :=
  exec i s = .next (resulted s o v (s.core s.p).rng.vg)

/-- A lane's integer (R70). -/
def laneInt (o : StOrd) (x : Nat) : Int :=
  if o.lane.fmt.signed = true ∧ 2 ^ (o.lane.width - 1) ≤ x then (x : Int) - 2 ^ o.lane.width else x

/-- An exact integer in `w` bits: its low bits, or Sat of it with SAT (R70). -/
def fitIn (sg : Bool) (w : Nat) (sat : Bool) (i : Int) : Nat :=
  let lo : Int := if sg then -(2 : Int) ^ (w - 1) else 0
  let hi : Int := if sg then (2 : Int) ^ (w - 1) - 1 else (2 : Int) ^ w - 1
  ((if sat then (if i < lo then lo else if hi < i then hi else i) else i) % 2 ^ w).toNat

def fit (o : StOrd) (i : Int) : Nat := fitIn o.lane.fmt.signed o.lane.width o.sat i

/-- A floating input under FI. -/
def fin' (o : StOrd) (x : Nat) : Val := o.lane.fmt.flushIn o.fi x

/-- Round(v, LT, RND), FO and R85; only STOCHASTIC on a finite value other than zero draws (R80). -/
def rounded (o : StOrd) (f : Fmt) (v : Val) (g : W32) : Nat × W32 :=
  if Mode.ofCode o.rnd = .stoch ∧ v.isNan = false ∧ v.isInf = false ∧ v.isZero = false then
    (f.encode .stoch o.sat o.fo (rngDraw g).2 v, (rngDraw g).1)
  else (f.encode (Mode.ofCode o.rnd) o.sat o.fo 0 v, g)

/-- A member that computes on numbers: `x` on values, rounded once, or `y` on integers. -/
def onNumbers (o : StOrd) (x : Bool → Val → Val → Val → Val) (y : Int → Int → Int → Int) (a b c : Nat) (g : W32) : Nat × W32 :=
  if o.lane.isFloat then rounded o o.lane.fmt (x (Mode.ofCode o.rnd == .down) (fin' o a) (fin' o b) (fin' o c)) g
  else (fit o (y (laneInt o a) (laneInt o b) (laneInt o c)), g)

/-- A member that draws nothing. -/
def plain (x : Nat → Nat → Nat) (a b _c : Nat) (g : W32) : Nat × W32 := (x a b, g)

/-- A member of one floating operand. -/
def onValue (o : StOrd) (x : Val → Val) (a _b _c : Nat) (g : W32) : Nat × W32 := rounded o o.lane.fmt (x (fin' o a)) g

/-- What a lane-wise member makes of its lanes and generator (R255, R258, R264), with its order. -/
def laneRule (i : Instr) (s : State) : Option (StOrd × (Nat → Nat → Nat → W32 → Nat × W32)) :=
  match i with
  | .vadd o => some (o, onNumbers o (fun d a b _ => Val.add d a b) fun a b _ => a + b)
  | .vsub o => some (o, onNumbers o (fun d a b _ => Val.add d a b.neg) fun a b _ => a - b)
  | .vmul o => some (o, onNumbers o (fun _ a b _ => Val.mul a b) fun a b _ => a * b)
  | .vfma o => some (o, onNumbers o (fun d a b c => Val.add d (Val.mul a b) c) fun a b c => a * b + c)
  | .vmin o => some (o, plain fun a b => if o.lane.isFloat then o.lane.fmt.exact (Val.min (fin' o a) (fin' o b))
      else if laneInt o a ≤ laneInt o b then a else b)
  | .vmax o => some (o, plain fun a b => if o.lane.isFloat then o.lane.fmt.exact (Val.max (fin' o a) (fin' o b))
      else if laneInt o a ≤ laneInt o b then b else a)
  | .vabs o => some (o, plain fun a _ => if o.lane.isFloat then
      (if (o.lane.fmt.decode a).isNan then o.lane.fmt.exact .nan else a % 2 ^ (o.lane.width - 1))
      else fit o (laneInt o a).natAbs)
  | .vneg o => some (o, plain fun a _ => if o.lane.isFloat then
      (if (o.lane.fmt.decode a).isNan then o.lane.fmt.exact .nan else a ^^^ 2 ^ (o.lane.width - 1))
      else fit o (-laneInt o a))
  | .vand o => some (o, plain fun a b => a &&& b)
  | .vor o => some (o, plain fun a b => a ||| b)
  | .vxor o => some (o, plain fun a b => a ^^^ b)
  | .vnot o => some (o, plain fun a _ => a ^^^ (2 ^ o.lane.width - 1))
  | .vshl o => some (o, plain fun a b => a <<< (b % o.lane.width) % 2 ^ o.lane.width)
  | .vshr o => some (o, plain fun a b => a >>> (b % o.lane.width))
  | .vsra o => some (o, plain fun a b => fitIn true o.lane.width false
      ((if 2 ^ (o.lane.width - 1) ≤ a then (a : Int) - 2 ^ o.lane.width else a) / 2 ^ (b % o.lane.width)))
  | .vexp2 o => some (o, onValue o exp2Val)
  | .vlog2 o => some (o, onValue o log2Val)
  | .vrcp o => some (o, onValue o rcpVal)
  | .vrsq o => some (o, onValue o rsqVal)
  | .vperm o => some (o, plain fun _ b => lane o.lane.width (b % o.lane.count) (opA s o))
  | .vbcast o => some (o, plain fun _ _ => lane o.lane.width (o.sb ++ o.rnd).toNat (opA s o))
  | .vmovs o => some (o, plain fun a _ => a)
  | .vldi o => some (o, plain fun _ _ => if o.lane.isFloat then o.lane.fmt.exact (Val.ofInt (o.sa ++ o.sb).toInt)
      else ((o.sa ++ o.sb).toInt % 2 ^ o.lane.width).toNat)
  | _ => none

/-- The lanes of group `j` that VRED's mask leaves in (R263). -/
def groupOf (s : State) (o : StOrd) (j : Nat) : List Nat :=
  ((List.range (2 ^ o.sb.toNat)).filter fun k =>
      !o.msk || (vget (s.ve s.p).masks o.stn.toNat).getLsbD (o.lane.width / 8 * (2 ^ o.sb.toNat * j + k))).map fun k =>
    lane o.lane.width (2 ^ o.sb.toNat * j + k) (opA s o)

/-- A reduction: result lane `j` holds `f` of group `j` and its generator, the lanes above hold zero. -/
def Reduces (i : Instr) (o : StOrd) (s : State) (f : List Nat → W32 → Nat × W32) : Prop :=
  ∃ v vg, exec i s = .next (resulted s o v vg) ∧
    (∀ j, j < o.lane.count / 2 ^ o.sb.toNat →
      (lane o.lane.width j v, vget vg (o.lane.width / 8 * j)) = f (groupOf s o j) (genAt s (o.lane.width / 8 * j))) ∧
    (∀ j, o.lane.count / 2 ^ o.sb.toNat ≤ j → j < o.lane.count →
      lane o.lane.width j v = 0 ∧ vget vg (o.lane.width / 8 * j) = genAt s (o.lane.width / 8 * j)) ∧
    ∀ b, b < 128 → b % (o.lane.width / 8) ≠ 0 → vget vg b = genAt s b

/-- `m` is a member of `xs` that no member is beyond. -/
def IsLeast {α : Type} (le : α → α → Prop) (xs : List α) (m : α) : Prop := m ∈ xs ∧ ∀ x ∈ xs, le m x

/-- VCMP's predicate (R256), on `lt` and `gt` of ordered operands. -/
def predicate (rnd : BitVec 3) (unordered lt gt : Bool) : Bool :=
  if rnd = 0 then !unordered && !lt && !gt
  else if rnd = 1 then unordered || lt || gt
  else if rnd = 2 then !unordered && lt
  else if rnd = 3 then !unordered && !gt
  else if rnd = 4 then !unordered && gt
  else if rnd = 5 then !unordered && !lt
  else unordered

/-- The order leaves mask `m` for the next bundle (R240). -/
def Masks (i : Instr) (o : StOrd) (s : State) (m : BitVec 128) : Prop :=
  exec i s = .next (onVe s s.p fun v => { v with maskPend := v.maskPend ++ [(o.ds.setWidth 3, m)] })

/-- Mask `n` of the acting core. -/
def mk (s : State) (n : BitVec 4) : BitVec 128 := vget (s.ve s.p).masks n.toNat

/-- Byte `j` of a result whose last `n` bytes are new and whose others are c's, moved down (R259, R261). -/
def Pushed (s : State) (o : StOrd) (n : Nat) (new : Nat → Nat) (v : Vec) : Prop :=
  (∀ j, j < 128 - n → byteOf v j = byteOf (opC s o) (j + n)) ∧ ∀ j, j < n → byteOf v (128 - n + j) = new j

/-- Bit `p` (from the top) of a `w`-bit element (R76). -/
def planeBitOf (w p x : Nat) : Nat := x / 2 ^ (w - 1 - p) % 2

/-- Element `k` of `w` bits of the plane-ordered segment that starts at byte `base` of a vector. -/
def fromPlanes (w base : Nat) (v : Vec) (k : Nat) : Nat :=
  ((List.range w).map fun p => 2 ^ (w - 1 - p) * (byteOf v (base + 16 * p + k / 8) / 2 ^ (k % 8) % 2)).sum

end Sys2Proof.Claims

open Sys2Proof Sys2Proof.Machine Sys2Proof.Claims

/-- R252, R255, R257, R258, R262, R264: a lane-wise member gives each of its lanes the value of its row, a masked-off lane
C's, and changes nothing else; a floating lane is the exact result rounded once. VSEL takes B where the mask bit is 0;
VDOT4 adds four byte products to its lane; VCVT between formats of one width converts lane by lane; VROTM shifts bytes. -/
def Obligations.LaneOrders : Prop :=
  ∀ (o : StOrd) (s : State),
    (∀ i f, laneRule i s = some (o, f) → i.wf = true → LanesGive i o s o.lane.width f) ∧
    (stationOk 0x20 o = true → ∃ v, Gives (.vsel o) o s v ∧ ∀ l, l < o.lane.count →
      lane o.lane.width l v = if (mk s (o.stn.setWidth 4)).getLsbD (o.lane.width / 8 * l) = true then
        lane o.lane.width l (opA s o) else lane o.lane.width l (opB s o)) ∧
    (stationOk 0x22 o = true → LanesGive (.vdot4 o) o s 32 fun a b c g =>
      (fitIn true 32 o.sat ((if 2 ^ 31 ≤ c then (c : Int) - 2 ^ 32 else (c : Int)) +
        ((List.range 4).map fun k => laneInt o (a / 256 ^ k % 256) * laneInt o (b / 256 ^ k % 256)).sum), g)) ∧
    (∀ fo, cvtKind o = some .same → Fmt.ofCode o.sb = some fo → LanesGive (.vcvt o) o s o.lane.width fun a _ _ g =>
      if o.lane.fmt = fo then (a, g)
      else if o.lane.isFloat = true then rounded o fo (fin' o a) g
      else if fo.float? = none then (fitIn fo.signed fo.width o.sat (laneInt o a), g)
      else rounded o fo (Val.ofInt (laneInt o a)) g) ∧
    (stationOk 0x2C o = true → ∃ v, Gives (.vrotm o) o s v ∧ ∀ j, j < 128 →
      ∀ r, r = (b1 o.fi ++ b1 o.fo ++ o.rnd ++ b1 o.sat ++ b1 o.msk : BitVec 7).toNat →
        byteOf v j = if j + r < 128 then byteOf (opA s o) (j + r) else byteOf (opB s o) (j + r - 128))

/-- R256, R257, R240: VCMP writes the predicate of each lane to all its mask bits, keeping masked-off lanes' bits; VMASK
writes the combination of two masks. Neither writes a stream, and the mask governs from the next bundle on. -/
def Obligations.MaskOrders : Prop :=
  ∀ (o : StOrd) (s : State),
    (stationOk 0x1F o = true → ∃ m, Masks (.vcmp o) o s m ∧ ∀ b, b < 128 →
      ∀ l, l = b / (o.lane.width / 8) →
        (¬ laneOn s o o.lane.width l → m.getLsbD b = (mk s o.ds).getLsbD b) ∧
        (laneOn s o o.lane.width l → o.lane.isFloat = false → m.getLsbD b =
          predicate o.rnd false (decide (laneInt o (lane o.lane.width l (opA s o)) < laneInt o (lane o.lane.width l (opB s o))))
            (decide (laneInt o (lane o.lane.width l (opB s o)) < laneInt o (lane o.lane.width l (opA s o))))) ∧
        (laneOn s o o.lane.width l → o.lane.isFloat = true → ∀ x y, x = fin' o (lane o.lane.width l (opA s o)) →
          y = fin' o (lane o.lane.width l (opB s o)) →
          m.getLsbD b = predicate o.rnd (x.isNan || y.isNan) (x.lt y) (y.lt x))) ∧
    (stationOk 0x33 o = true → ∃ m, Masks (.vmask o) o s m ∧ ∀ b, b < 128 →
      m.getLsbD b =
        if o.rnd = 0 then (mk s o.sa).getLsbD b && (mk s o.sb).getLsbD b
        else if o.rnd = 1 then (mk s o.sa).getLsbD b || (mk s o.sb).getLsbD b
        else if o.rnd = 2 then (mk s o.sa).getLsbD b != (mk s o.sb).getLsbD b
        else if o.rnd = 3 then (mk s o.sa).getLsbD b && !(mk s o.sb).getLsbD b
        else if o.rnd = 4 then !(mk s o.sa).getLsbD b
        else decide (o.rnd = 5))

/-- R263: VREDADD, VREDMAX and VREDMIN reduce groups of 2^g lanes, lanes whose mask bit is 0 left out; a floating sum is the
exact sum rounded once; an empty group gives 0, or the least or greatest value of the type. Under STOCHASTIC a result lane
draws from the generator of its own low byte, the model's choice (log 48). -/
def Obligations.ReductionOrders : Prop :=
  ∀ (o : StOrd) (s : State),
    (stationOk 0x23 o = true → o.lane.isFloat = false → Reduces (.vredadd o) o s fun xs g =>
      (fit o (xs.map (laneInt o)).sum, g)) ∧
    (stationOk 0x23 o = true → o.lane.isFloat = true → Reduces (.vredadd o) o s fun xs g =>
      if xs = [] then (0, g)
      else rounded o o.lane.fmt (Val.sum (Mode.ofCode o.rnd == .down) (xs.map (fin' o))) g) ∧
    (stationOk 0x24 o = true → ∃ f : List Nat → Nat, (Reduces (.vredmax o) o s fun xs g => (f xs, g)) ∧
      (o.lane.isFloat = false → (f [] = fitIn false o.lane.width false
          (if o.lane.fmt.signed = true then -2 ^ (o.lane.width - 1) else 0)) ∧
        ∀ xs, xs ≠ [] → f xs ∈ xs ∧ ∀ x ∈ xs, laneInt o x ≤ laneInt o (f xs)) ∧
      (o.lane.isFloat = true → f [] = o.lane.fmt.exact (.inf true) ∧
        ∀ x xs, f (x :: xs) = o.lane.fmt.exact ((xs.map (fin' o)).foldl Val.max (fin' o x)))) ∧
    (stationOk 0x25 o = true → ∃ f : List Nat → Nat, (Reduces (.vredmin o) o s fun xs g => (f xs, g)) ∧
      (o.lane.isFloat = false → (f [] = if o.lane.fmt.signed = true then 2 ^ (o.lane.width - 1) - 1 else 2 ^ o.lane.width - 1) ∧
        ∀ xs, xs ≠ [] → f xs ∈ xs ∧ ∀ x ∈ xs, laneInt o (f xs) ≤ laneInt o x) ∧
      (o.lane.isFloat = true → f [] = o.lane.fmt.exact (.inf false) ∧
        ∀ x xs, f (x :: xs) = o.lane.fmt.exact ((xs.map (fin' o)).foldl Val.min (fin' o x))))

/-- R259–R261, R73, R74, R76, R87: VCVT narrows into the top bytes of its stream, widens one part exactly and expands packed
elements to E4M3; VPLN and VUNPL take segments into and out of plane order; VSCALE and VQMX push the scales and the packed
elements of their MX blocks. -/
def Obligations.LayoutOrders : Prop :=
  ∀ (o : StOrd) (s : State),
    (∀ fo, cvtKind o = some .narrow → Fmt.ofCode o.sb = some fo → ∃ v vg k, k = fo.width / 8 ∧
      exec (.vcvt o) s = .next (resulted s o v vg) ∧
      (∀ j, j < 128 - o.lane.count * k → byteOf v j = byteOf (opC s o) (j + o.lane.count * k)) ∧
      (∀ l, l < o.lane.count → laneOn s o o.lane.width l → ∀ x, x = lane o.lane.width l (opA s o) →
        (lane (8 * k) l ((v >>> (8 * (128 - o.lane.count * k)))), vget vg (o.lane.width / 8 * l)) =
          if o.lane.isFloat = true then rounded o fo (fin' o x) (genAt s (o.lane.width / 8 * l))
          else if fo.float? = none then (fitIn fo.signed fo.width o.sat (laneInt o x), genAt s (o.lane.width / 8 * l))
          else rounded o fo (Val.ofInt (laneInt o x)) (genAt s (o.lane.width / 8 * l))) ∧
      (∀ l, l < o.lane.count → ¬ laneOn s o o.lane.width l → vget vg (o.lane.width / 8 * l) = genAt s (o.lane.width / 8 * l) ∧
        ∀ j, j < k → byteOf v (128 - o.lane.count * k + k * l + j) = byteOf (opC s o) (128 - o.lane.count * k + k * l + j)) ∧
      ∀ b, b < 128 → b % (o.lane.width / 8) ≠ 0 → vget vg b = genAt s b) ∧
    (∀ fo, cvtKind o = some .widen → Fmt.ofCode o.sb = some fo → ∃ v, Gives (.vcvt o) o s v ∧
      ∀ l, l < 1024 / fo.width → ∀ x, x = lane o.lane.width (o.rnd.toNat * (1024 / fo.width) + l) (opA s o) →
        lane fo.width l v = if o.lane.isFloat = true then fo.exact (fin' o x)
          else if fo.float? = none then (laneInt o x % 2 ^ fo.width).toNat else fo.exact (Val.ofInt (laneInt o x))) ∧
    (cvtKind o = some .expand → ∃ v, Gives (.vcvt o) o s v ∧ ∀ k, k < 128 →
      byteOf v k =
        if o.sb = 0xA then expandE4m3 .int4 (lane 4 (128 * o.rnd.toNat + k) (opA s o))
        else if o.sb = 0xB then expandE4m3 .e2m3 (lane 6 k (opA s o))
        else if o.sb = 0xC then expandE4m3 .e3m2 (lane 6 k (opA s o))
        else expandE4m3 .e2m1 (lane 4 (128 * o.rnd.toNat + k) (opA s o))) ∧
    (stationOk 0x2D o = true → ∃ v, Gives (.vpln o) o s v ∧
      (o.sb ≠ 5 → o.sb ≠ 8 → ∀ p j b, p < 8 → j < 16 → b < 8 →
        lane 1 (8 * (16 * p + j) + b) v = planeBitOf 8 p (lane 8 (8 * j + b) (opA s o))) ∧
      (o.sb = 8 → ∀ h p j b, h < 2 → p < 4 → j < 16 → b < 8 →
        lane 1 (8 * (64 * h + 16 * p + j) + b) v = planeBitOf 4 p (lane 4 (128 * h + 8 * j + b) (opA s o))) ∧
      (o.sb = 5 → ∀ p j, p < 8 → j < 8 →
        byteOf v (16 * p + 8 * (1 - (o.rnd.toNat % 2)) + j) = byteOf (opC s o) (16 * p + 8 * (1 - (o.rnd.toNat % 2)) + j) ∧
        ∀ b, b < 8 → lane 1 (8 * (16 * p + 8 * (o.rnd.toNat % 2) + j) + b) v =
          planeBitOf 16 (8 * (o.rnd.toNat / 4) + p) (lane 16 (8 * j + b) (opA s o)))) ∧
    (stationOk 0x2E o = true → ∃ v, Gives (.vunpl o) o s v ∧
      (o.lane = .n8 → o.sb ≠ 8 → ∀ k, k < 128 → byteOf v k = fromPlanes 8 0 (opA s o) k) ∧
      (o.lane = .n8 → o.sb = 8 → ∀ k, k < 256 → lane 4 k v = fromPlanes 4 (64 * (k / 128)) (opA s o) (k % 128)) ∧
      (o.lane ≠ .n8 → o.sb ≠ 5 → o.sb ≠ 8 → ∀ f, Fmt.ofCode o.sb = some f → ∀ l, l < o.lane.count →
        lane o.lane.width l v = o.lane.fmt.exact (f.flushIn o.fi (fromPlanes 8 0 (opA s o) (o.rnd.toNat * o.lane.count + l)))) ∧
      (o.lane ≠ .n8 → o.sb = 8 → ∀ l k, l < o.lane.count → k = o.rnd.toNat * o.lane.count + l →
        lane o.lane.width l v =
          o.lane.fmt.exact (Fmt.e2m1.decode (fromPlanes 4 (64 * (k / 128)) (opA s o) (k % 128)))) ∧
      (o.sb = 5 → ∀ l r c x, l < o.lane.count → c = lane 16 ((o.lane.width / 16) * (l + 1) - 1) (opC s o) →
        r = fromPlanes 8 0 (opA s o) (o.lane.count * (o.rnd.toNat % (128 / o.lane.count)) + l) →
        x = (if o.rnd.toNat < 4 then 256 * r + c % 256
             else Fmt.bf16.exact (Fmt.bf16.flushIn o.fi (256 * (c / 256) + r))) →
        lane o.lane.width l v = if o.lane = .bf16 then x else 2 ^ 16 * x)) ∧
    (stationOk 0x2F o = true → ∃ v, Gives (.vscale o) o s v ∧ Pushed s o (o.lane.count / 32)
      (fun n => mxScale ((List.range 32).map fun k => fin' o (lane o.lane.width (32 * n + k) (opA s o)))) v) ∧
    (stationOk 0x30 o = true → ∃ v vg, exec (.vqmx o) s = .next (resulted s o v vg) ∧
      (∀ j, j < 128 - o.lane.count / 2 → byteOf v j = byteOf (opC s o) (j + o.lane.count / 2)) ∧
      (∀ l x e, l < o.lane.count → x = fin' o (lane o.lane.width l (opA s o)) →
        e = mxScale ((List.range 32).map fun k => fin' o (lane o.lane.width (32 * (l / 32) + k) (opA s o))) →
        (e = 255 → lane 4 (256 - o.lane.count + l) v = 0 ∧ vget vg (o.lane.width / 8 * l) = genAt s (o.lane.width / 8 * l)) ∧
        (e ≠ 255 → (lane 4 (256 - o.lane.count + l) v, vget vg (o.lane.width / 8 * l)) =
          rounded { o with sat := true, fo := false } .e2m1 (x.scale (127 - (e : Int))) (genAt s (o.lane.width / 8 * l)))) ∧
      ∀ b, b < 128 → b % (o.lane.width / 8) ≠ 0 → vget vg b = genAt s b) ∧
    (∀ xs : List Val, xs.length = 32 →
      ((∃ x ∈ xs, x.isNan = true ∨ x.isInf = true) → mxScale xs = 255) ∧
      ((∀ x ∈ xs, x.isZero = true) → mxScale xs = 127) ∧
      ∀ n m k, m ≠ 0 → Val.fin n m k ∈ xs → (∀ x ∈ xs, x.isNan = false ∧ x.isInf = false) →
        (∀ n' m' k', Val.fin n' m' k' ∈ xs → m' ≠ 0 → expOf m' k' ≤ expOf m k) →
        (mxScale xs : Int) = min 254 (max 0 (expOf m k + 125)))

namespace Sys2Proof.Claims

open Sys2Proof.Machine

/-! ### Furrow -/

/-- The row commands of R298: header, fields, sources, opcode and FFILL's bit. -/
def rowCommand (i : Instr) : Option (Hdr × Fur × List Word × Nat × Bool) :=
  match i with
  | .fcopy h f a => some (h, f, [a], 0x20, false)
  | .ffill h f ones => some (h, f, [], 0x21, ones)
  | .fand h f a b => some (h, f, [a, b], 0x22, false)
  | .forRow h f a b => some (h, f, [a, b], 0x23, false)
  | .fxor h f a b => some (h, f, [a, b], 0x24, false)
  | .fnot h f a => some (h, f, [a], 0x25, false)
  | .fmaj h f a b c => some (h, f, [a, b, c], 0x26, false)
  | _ => none

/-- The byte that R298's table makes of one byte of each source. -/
def rowByte (f : FurRun) (x : List Byte) : Byte :=
  if f.opc = 0x20 then x.getD 0 0
  else if f.opc = 0x21 then (if f.ones = true then 0xFF else 0x00)
  else if f.opc = 0x22 then x.getD 0 0 &&& x.getD 1 0
  else if f.opc = 0x23 then x.getD 0 0 ||| x.getD 1 0
  else if f.opc = 0x24 then x.getD 0 0 ^^^ x.getD 1 0
  else if f.opc = 0x25 then ~~~x.getD 0 0
  else (x.getD 0 0 &&& x.getD 1 0) ||| (x.getD 0 0 &&& x.getD 2 0) ||| (x.getD 1 0 &&& x.getD 2 0)

/-- An operand range of `n` rows: both ends lie in compute-capable pages of ready stacks, its first byte at device-memory
offset `a`, no region change in progress there and no view over it (R297, R300). -/
structure InRows (s : State) (p : CoreId) (va : Word) (acc : Acc) (n a : Nat) : Prop where
  first : s.furAt p va acc = .ok a
  last : ∃ e, s.furAt p (va + BitVec.ofNat 64 (1024 * n - 1)) acc = .ok e ∧ s.viewAt e = none
  settled : (s.ctlOf (stackOf a)).chg = none
  plain : ∀ x, a / 128 * 128 ≤ x → x < a + 1024 * n → s.viewAt x = none

/-- DST at offset `d` and the sources at offsets `as`. -/
structure RowsAt (s : State) (p : CoreId) (dst : Word) (srcs : List Word) (n d : Nat) (as : List Nat) : Prop where
  dst : InRows s p dst .write n d
  srcs : List.Forall₂ (fun va a => InRows s p va .read n a) srcs as

/-- The reason for the fallback path (R301), 0 for the fast path. -/
def pathReason (s : State) (n d : Nat) (as : List Nat) : Nat :=
  if 8 * 90 ≤ s.hottest (stackOf d) then 0x12
  else if (as.any fun a => a / 2 ^ 21 != d / 2 ^ 21) then 0x11
  else if ((d :: as).any fun a => a / 2 ^ 18 != d / 2 ^ 18 || (a + 1024 * n - 1) / 2 ^ 18 != d / 2 ^ 18) then 0x10
  else 0

/-- The first rejection from 0x03 up of operands in compute-capable pages (R300). -/
def rejection (s : State) (dst : Word) (srcs : List Word) (nofb : Bool) (n d : Nat) (as : List Nat) : Option Nat :=
  if ((dst :: srcs).any fun va => va.toNat % 1024 != 0) then some 3
  else if ((d :: as).any fun a => decide (2 ^ 21 < a % 2 ^ 21 + 1024 * n)) then some 4
  else if (as.any fun a => stackOf a != stackOf d) then some 5
  else if (as.any fun a => a != d && decide (a < d + 1024 * n) && decide (d < a + 1024 * n)) then some 6
  else if (nofb && pathReason s n d as != 0) = true then some 7
  else none

/-- Word 0 of a completion record (R304). -/
def recordWord (n temp opc reason path : Nat) : Word :=
  BitVec.ofNat 64 ((n - 1) * 2 ^ 32 + temp * 2 ^ 24 + opc * 2 ^ 16 + reason * 2 ^ 8 + path)

/-- TEMP: whole degrees, 0 to 255. -/
def degrees (s : State) (d : Nat) : Nat := (min 255 (max 0 (s.hottest (stackOf d) / 8))).toNat

/-- The accepted command as its controller holds it: no row moved, its path decided (R301). -/
def heldRows (s : State) (opc : Nat) (ones : Bool) (n d : Nat) (as : List Nat) (l : Option Loc)
    (add : Option (Loc × Word)) : FurRun :=
  { core := s.p, ord := (s.core s.p).nextOrd, opc := opc, ones := ones, dst := d, srcs := as, n := n,
    reason := pathReason s n d as, temp := degrees s d, recAt := l, ctr := add, start := s.cycle }

/-- The places of a RECA or RES of `n` bytes: device memory, understore or the scratchpad window, its stage-queue slot
writable. -/
structure RecordAt (s : State) (p : CoreId) (va : Word) (n : Nat) (l : Loc) : Prop where
  place : s.engAt p va n .write = .ok l
  chip : s.isOnChip l = true
  slot : dstHeld s p n (.va (va &&& ~~~BitVec.ofNat 64 (n - 1))) = false

/-- A started command that faults: it leaves its queue and no flight, its tokens gone, with no effect but its record. -/
structure RowsRefused (s t : State) (q : QCmd) (code aux : Byte) : Prop where
  queue : (t.eng s.p s.sched.ep).q = (s.eng s.p s.sched.ep).q.tail
  flights : (t.core s.p).flights =
    (s.core s.p).flights.filter fun g => !(g.finished && g.ctr.isNone && g.sig.isNone)
  bytes : SameBytes s t
  record : ∃ x, (t.bent (bentOf s.p)).faults = (s.bent (bentOf s.p)).faults ++ [x] ∧ x.ticket = none ∧
    (x.words.getD 0 0).extractLsb' 0 8 = code ∧ (x.words.getD 0 0).extractLsb' 8 8 = aux ∧
    (x.words.getD 0 0).getLsbD 63 = false ∧ x.words.getD 1 0 = (headerOf q.words).setWidth 64

/-- The command at place `i` of a controller, none before it sharing a bank with it (R307). -/
def RowNext (s : State) (k i : Nat) (f : FurRun) : Prop :=
  (s.ctlOf k).cmds[i]? = some f ∧ ∀ g ∈ (s.ctlOf k).cmds.take i, ∀ x ∈ g.banks, x ∉ f.banks

/-- The controller `k` without its command at place `i`, its path counted (R294). -/
def rowsOver (c : Ctl) (i : Nat) (f : FurRun) : Ctl :=
  let u := { c with cmds := c.cmds.eraseIdx i }
  if f.reason = 0 then { u with nfast := c.nfast + 1 } else { u with nfb := c.nfb + 1 }

/-- The finish of a command `f` of its core, whose record made `v` of the state (R120, R304). -/
structure RowsEnd (s v t : State) (k i : Nat) (f : FurRun) : Prop where
  module : t = { v with cores := t.cores, bents := t.bents }
  bents : ∀ b, t.bent b = { v.bent b with ctl := (t.bent b).ctl }
  ctls : ∀ m, m < 32 → t.ctlOf m = if m = k then rowsOver (s.ctlOf k) i f else s.ctlOf m
  others : ∀ q, q ≠ f.core → t.core q = v.core q
  core : t.core f.core = { v.core f.core with
    flights := (t.core f.core).flights, dbg := (t.core f.core).dbg,
    gate := { (v.core f.core).gate with stamp := (t.core f.core).gate.stamp } }
  flights : (t.core f.core).flights =
    ((s.core f.core).flights.map fun x => if x.ord = f.ord then { x with finished := true, ticket := none } else x).filter
      fun x => !(x.finished && x.ctr.isNone && x.sig.isNone)

/-- One move of the command `f` at place `i` of controller `k`. -/
structure RowMoves (s t : State) (k i : Nat) (f : FurRun) : Prop where
  next : RowNext s k i f
  row : f.stop ≠ some f.row → f.row < f.n →
    (∀ a ∈ f.srcs, ∀ j, j < 8 → s.badLine (a + 1024 * f.row + 128 * j) = false) →
    Lands s t f.core ((List.range 1024).map fun j => (.phys (f.dst + 1024 * f.row + j),
      rowByte f (f.srcs.map fun a => s.rawByte (a + 1024 * f.row + j)))) ∧
    t = ({ s with mem := t.mem, marks := t.marks } : State).modCtl k fun c => { c with cmds := c.cmds.set i { f with row := f.row + 1 } }
  bad : f.stop ≠ some f.row → f.row < f.n →
    (∃ a ∈ f.srcs, ∃ j, j < 8 ∧ s.badLine (a + 1024 * f.row + 128 * j) = true) →
    ∃ a ∈ f.srcs, ∃ j, j < 8 ∧ s.badLine (a + 1024 * f.row + 128 * j) = true ∧
      t = s.raiseError (s.metError none (a + 1024 * f.row + 128 * j))
  stop : f.stop = some f.row → ∀ u v, u = s.modCtl k (fun c => { c with cmds := c.cmds.eraseIdx i }) →
    v = u.modCore f.core (fun c => { c with
      flights := c.flights.filter fun x => x.ord != f.ord && !(x.finished && x.ctr.isNone && x.sig.isNone) }) →
    (f.orphan = true → t = u) ∧ (f.orphan = false → s.gangNo f.core = none → t = v) ∧
    ∀ g, f.orphan = false → s.gangNo f.core = some g → t = v.killGang g 0x13
  waits : f.stop ≠ some f.row → f.n ≤ f.row → s.furWaits f = true → t = s
  ends : f.stop ≠ some f.row → f.n ≤ f.row → s.furWaits f = false → f.orphan = false → f.temp < 256 → f.reason < 256 →
    f.opc < 256 → (∃ x ∈ (s.core f.core).flights, x.ord = f.ord) → stackOf f.dst = k →
    ∃ v elapsed, elapsed < 2 ^ 32 ∧ RowsEnd s v t k i f ∧
      (f.recAt = none → v = s) ∧
      ∀ l, f.recAt = some l → s.isOnChip l = true → l.align 16 = l →
        ∃ y, v = rotated y f.core 1 l ∧ Wrote s y f.core l
          (bytesOfNat (recordWord f.n f.temp f.opc f.reason (if f.reason = 0 then 0 else 1)).toNat 8 ++
            bytesOfNat (k * 2 ^ 32 + elapsed) 8)
  leaves : f.stop ≠ some f.row → f.n ≤ f.row → s.furWaits f = false → f.orphan = true → f.recAt = none →
    (f.ctr = none → t = s.modCtl k fun c => rowsOver c i f) ∧
    ∀ l inc, f.ctr = some (l, inc) → s.isOnChip l = true → l.align 8 = l → ∃ u,
      Wrote s u f.core l (bytesOfNat (BitVec.ofNat 64 (s.readLoc f.core l 8) + inc).toNat 8) ∧
      t = u.modCtl k fun c => rowsOver c i f

end Sys2Proof.Claims

open Sys2Proof Sys2Proof.Machine Sys2Proof.Claims

/-- R300, R301, R303, R306: a Furrow command whose operands R300 accepts is handed to the controller of its stack with its
path decided, and no line of its rows is left in the LLC; where the controller holds 64 it waits, started, at its CE, and
so does one held back by an earlier command of its queue and class (R211, R212; log 31). One that R300 rejects faults
FURROW_REJECT with its code, touches no row and counts in FWNREJ. -/
def Sys2Proof.Claims.FurrowCommands : Prop :=
  ∀ (i : Instr) (s : State) (h : Hdr) (f : Fur) (srcs : List Word) (opc : Nat) (ones : Bool) (q : QCmd)
      (ls : List Loc) (add : Option (Loc × Word)) (n d : Nat) (as : List Nat) (l : Option Loc) (r : FurRun),
    rowCommand i = some (h, f, srcs, opc, ones) → n = f.n1.toNat + 1 → Starts s h q f.ctr f.inc [] ls add →
    RowsAt s s.p f.dst srcs n d as →
    (f.wrec = false ∧ l = none ∨ f.wrec = true ∧ ∃ x, l = some x ∧ RecordAt s s.p f.reca 16 x) →
    r = heldRows s opc ones n d as l add →
    (¬ Unheld s q [] [] → ∃ t, exec i s = .next t ∧ StartsWaiting s t q ∧ SameBytes s t) ∧
    (Unheld s q [] [] → rejection s f.dst srcs f.nofb n d as = none →
      ((s.ctlOf (stackOf d)).cmds.length < 64 → ∃ t, exec i s = .next t ∧
        Begun s t (({ s with llc := t.llc } : State).modCtl (stackOf d) fun c => { c with cmds := c.cmds ++ [r] }) h q add ∧
        (∀ x, x ∈ t.llc ↔ x ∈ s.llc ∧ ∀ a ∈ d :: as, x.line + 128 ≤ a ∨ a + 1024 * n ≤ x.line) ∧
        ∀ x ∈ (t.core s.p).flights, x.ord = r.ord → x.waiting = false) ∧
      (64 ≤ (s.ctlOf (stackOf d)).cmds.length → ∃ t, exec i s = .next t ∧ Begun s t s h q add ∧
        ∀ x ∈ (t.core s.p).flights, x.ord = r.ord → x.waiting = true ∧ x.fwd = some r)) ∧
    (∀ c, Unheld s q [] [] → rejection s f.dst srcs f.nofb n d as = some c → s.flt.on = false → s.faultRoom (bentOf s.p) = true →
      ∃ t, exec i s = .next t ∧ RowsRefused s t q 0x11 (BitVec.ofNat 8 c) ∧
        (t.ctlOf (stackOf d)).nrej = (s.ctlOf (stackOf d)).nrej + 1)

/-- R298, R302, R304, R306, R307: a controller's turn is one move of a command that shares no bank with an earlier one it
holds, and each such command has a turn that moves it. The move is its next row, every source row read before the DST row
is written and nothing else changed; once the rows are done it is the record, the count of its path in FWNFAST or FWNFB,
and the finish, or the counter add alone of a command whose core has left (R308). At the row of an uncorrectable error it
ends instead, with no record; a source line that has kept its bad check bits raises that error as it is read (R319). The ELAPSED field is the model's free value (log 5), and which command a turn takes is its
schedule's (log 8). -/
def Sys2Proof.Claims.RowTurns : Prop :=
  ∀ (s : State) (k : Nat), k < 32 → Canonical s → Ordered s →
    (∀ n, s.rowTurn k n = s ∨ ∃ i f, RowMoves s (s.rowTurn k n) k i f) ∧
    ∀ i f, RowNext s k i f → ∃ n, RowMoves s (s.rowTurn k n) k i f

/-- R300, R34: a Furrow command whose DST lies outside device memory is rejected with code 0x02; it touches no row and
counts in FWNREJ of the stack of its first source, or in none. -/
def Sys2Proof.Claims.FurrowOutside : Prop :=
  ∀ (i : Instr) (s : State) (h : Hdr) (f : Fur) (srcs : List Word) (opc : Nat) (ones : Bool) (q : QCmd)
      (ls : List Loc) (add : Option (Loc × Word)) (n : Nat) (as : List Nat),
    rowCommand i = some (h, f, srcs, opc, ones) → n = f.n1.toNat + 1 → Starts s h q f.ctr f.inc [] ls add → Unheld s q [] [] →
    s.furAt s.p f.dst .write = .bad none → s.furAt s.p (f.dst + BitVec.ofNat 64 (1024 * n - 1)) .write = .bad none →
    List.Forall₂ (fun va a => InRows s s.p va .read n a) srcs as → f.wrec = false → s.flt.on = false →
    s.faultRoom (bentOf s.p) = true → ∃ t, exec i s = .next t ∧ RowsRefused s t q 0x11 2 ∧
      ∀ k, k < 32 → (t.ctlOf k).nrej = (s.ctlOf k).nrej + if (as.head?).map stackOf = some k then 1 else 0

/-- Furrow commands, those with a destination outside device memory, and what their controllers do (R298–R308). -/
def Obligations.FurrowRuns : Prop := Sys2Proof.Claims.FurrowCommands ∧ Sys2Proof.Claims.FurrowOutside ∧ Sys2Proof.Claims.RowTurns

/-- R305: FQRY answers for its candidate without touching a row: the path and its reason, or 0x02 with the code of the
rejection, or with 0x01 where the first operand has no translation. -/
def Obligations.FurrowQueries : Prop :=
  ∀ (h : Hdr) (c : FQryOps) (s : State) (q : QCmd) (ls : List Loc) (add : Option (Loc × Word)) (l : Loc) (n : Nat)
      (srcs : List Word),
    Starts s h q c.ctr c.inc [] ls add → Unheld s q [] [] → RecordAt s s.p c.res 8 l → Canonical s → n = c.n1.toNat + 1 →
    c.op ≠ 7 →
    srcs = (if c.op = 1 then [] else if c.op = 0 ∨ c.op = 5 then [c.s1] else if c.op = 6 then [c.s1, c.s2, c.s3]
      else [c.s1, c.s2]) →
    (∀ x ∈ [c.s1, c.s2, c.s3].drop srcs.length, x = 0) →
    (∀ d as path reason, RowsAt s s.p c.dst srcs n d as →
      (path, reason) = (match rejection s c.dst srcs c.nofb n d as with
        | some r => (2, r)
        | none => (if pathReason s n d as = 0 then 0 else 1, pathReason s n d as)) →
      ∃ t u, exec (.fqry h c) s = .next t ∧ Done s t (rotated u s.p 1 l) h q add ∧
        Wrote s u s.p l (bytesOfNat (recordWord n (degrees s d) (0x20 + c.op.toNat) reason path).toNat 8)) ∧
    (∀ cause, s.furAt s.p c.dst .write = .park cause →
      (∀ x ∈ s.furOps s.p (fqryCmd c), ∀ o, x.lo.dev = some o → (s.ctlOf (stackOf o)).chg = none) →
      ∃ t u temp, temp < 256 ∧ exec (.fqry h c) s = .next t ∧ Done s t (rotated u s.p 1 l) h q add ∧
        Wrote s u s.p l (bytesOfNat (recordWord n temp (0x20 + c.op.toNat) 1 2).toNat 8))

namespace Sys2Proof.Claims

open Sys2Proof.Machine

/-! ### The launch scheduler -/

/-- A core as a start of group `g` leaves it (R48, R61): the contexts with an entry begin there in user mode with PARAM in
x1 and their place in x2, the others and every other register are empty; no token, command or sample is left. -/
structure Begins (t : State) (p : CoreId) (grp : Group) (g i : Nat) (param : Word) : Prop where
  contexts : ∀ k e, e = (match k with | .ld => grp.entld | .cp => grp.entcp | .st => grp.entst) →
    (e = 0 → (t.ctx p k).run = .notStarted ∧ ∀ r, r < 32 → vget (t.ctx p k).regs r = []) ∧
    (e ≠ 0 → (t.ctx p k).run = .issuing ∧ (t.ctx p k).pc = e ∧ (t.ctx p k).supMode = false ∧
      ∀ r, r < 32 → (vget (t.ctx p k).regs r).map (fun x => (x.val, x.filled)) =
        if r = 1 then [(param, true)] else if r = 2 then [(BitVec.ofNat 64 (256 * g + i), true)] else [])
  tokens : ∀ n, n < 16 → vget (t.core p).tok n = 0
  engines : (t.core p).flights = [] ∧ ∀ e, (t.eng p e).q = []
  bounds : ∀ n : BitVec 4, ∀ lo hi, lo = ((grp.bounds.getD []).getD (2 * n.toNat) 0).toNat →
    hi = ((grp.bounds.getD []).getD (2 * n.toNat + 1) 0).toNat →
    (1 ≤ lo → lo ≤ hi → (t.sym p n).valid = true ∧ (t.sym p n).bind = hi ∧ (t.sym p n).lo = lo ∧ (t.sym p n).hi = hi ∧
      (t.sym p n).pend = false ∧ (t.sym p n).cnt = 0) ∧
    (lo = 0 → (t.sym p n).valid = false)

/-- A core that has left its gang: no context runs, its registers are empty. -/
structure Gone (t : State) (p : CoreId) : Prop where
  place : (t.core p).place = none
  contexts : ∀ k, (t.ctx p k).run = .notStarted ∧ ∀ r, r < 32 → vget (t.ctx p k).regs r = []
  engines : (t.core p).flights = [] ∧ (∀ e, (t.eng p e).q = []) ∧ (t.ve p).run = none

/-- Nothing a gang has issued is outstanding, and it has no stage queue whose counters are written back. -/
structure Quiet (s : State) (g : Gang) : Prop where
  cores : ∀ p ∈ s.holders g, (∀ k, (s.ctx p k).pend = []) ∧ (s.core p).comb = [] ∧ (s.core p).sqt = [] ∧
    ∀ f ∈ (s.core p).flights, f.ctr = none
  rings : g.rings = [] ∧ ∀ b, ∀ x ∈ (s.bent b).sqt, x.owner ≠ some g.id
  named : s.gang? g.id = some g ∧ ∀ x ∈ s.launch.gangs, x.id = g.id → x = g

/-- A state with what writes at homes have left in another: its memory, the pool lines and device lines its LLCs hold, and
the contexts that the writes wake. -/
def withStores (s t : State) : State :=
  { s with mem := t.mem, llc := t.llc, marks := t.marks, links := { s.links with pool := t.links.pool } }

/-- The status word with its code, then DONECTR + 1 (R40): where each address translates to a plain doubleword it is
written, and nothing else; an address of 0 is none. That one which does not translate, or lies in a view, is left unwritten
is the model's choice (log 53). -/
def Posted (s t : State) (statusa donectr : Word) (code : Byte) : Prop :=
  ∃ u : State, u = withStores s u ∧
    (statusa = 0 → u.mem = s.mem) ∧
    (∀ b, statusa ≠ 0 → s.translateSup statusa .write = .ok b → PlainAt s (.phys b) 8 →
      Stored s u 0 (.phys b) (bytesOfNat code.toNat 8)) ∧
    (∀ e, statusa ≠ 0 → s.translateSup statusa .write = .error e → u.mem = s.mem) ∧
    (∀ b, statusa ≠ 0 → s.translateSup statusa .write = .ok b → s.inView (.phys b) = true → u.mem = s.mem) ∧
    (donectr = 0 → t.mem = u.mem) ∧
    (∀ b, donectr ≠ 0 → u.translateSup donectr .rmw = .ok b → PlainAt u (.phys b) 8 →
      Stored u { u with mem := t.mem } 0 (.phys b) (bytesOfNat ((u.readPhys b 8 + 1) % 2 ^ 64) 8)) ∧
    (∀ e, donectr ≠ 0 → u.translateSup donectr .rmw = .error e → t.mem = u.mem) ∧
    (∀ b, donectr ≠ 0 → u.translateSup donectr .rmw = .ok b → u.inView (.phys b) = true → t.mem = u.mem)

/-- Only queue `q` has a record the scheduler may take. -/
def OnlyHead (s : State) (q : BitVec 6) : Prop := ∀ x, s.lqActive x = decide (x = q)

/-- The head record of `q` has left it. -/
def passed (x : LaunchQ) : LaunchQ := { x with head := x.head + 1, headwait := false, ready := none }

/-- A record that R39 finds malformed. That NQ above 64, MAXC above 256 and input or output counts of 5 to 7 are among
the malformed is the model's choice (log 49). -/
def BadRecord (s : State) (r : LRec) : Prop :=
  r.gctl / 2 ^ 16 ≠ 0 ∨ r.gctl / 64 % 4 ≠ 0 ∨ r.z ≠ 0 ∨ 64 < r.nq ∨ r.n < 1 ∨ 256 < r.n ∨
  r.n < (r.groups.map (·.minc)).sum ∨ (r.groups.map (·.maxc)).sum < r.n ∨
  r.donectr.toNat % 8 ≠ 0 ∨ r.statusa.toNat % 8 ≠ 0 ∨ r.savea.toNat % 4096 ≠ 0 ∨
  ∃ g ∈ r.groups, g.entcp = 0 ∨ g.minc = 0 ∨ g.maxc < g.minc ∨ 256 < g.maxc ∨ g.z ≠ 0 ∨ g.nio % 16 > 4 ∨ g.nio / 16 > 4 ∨
    2 ^ 40 ≤ g.res ∨ (∃ i ∈ g.inq ++ g.outq, r.nq ≤ i) ∨
    (g.symb ≠ 0 ∧ (s.supBytes g.symb 32 = none ∨ ∃ l n, s.supBytes g.symb 32 = some l ∧ n < 16 ∧
      (l.getD (2 * n) 0 = 0 ∧ l.getD (2 * n + 1) 0 ≠ 0 ∨ l.getD (2 * n + 1) 0 < l.getD (2 * n) 0)))

/-- A demand that R39 finds oversize. -/
def BigRecord (r : LRec) : Prop :=
  ∃ g ∈ r.groups, 2048 < g.res % 2 ^ 16 ∨ 32 < g.res / 2 ^ 16 % 2 ^ 8 ∨ 256 < g.res / 2 ^ 24 % 2 ^ 16

/-- The windows of the placement search for `n` cores, lowest first, by the numbers of their cores (R46). -/
def windowOf (n w : Nat) : Option (Nat × Nat) :=
  if n ≤ 4 then (if w < 64 then some (4 * w, 4 * w + 4) else none)
  else if n ≤ 16 then (if w < 16 then some (16 * w, 16 * w + 16) else none)
  else if w + (n + 15) / 16 ≤ 16 then some (16 * w, 16 * (w + (n + 15) / 16)) else none

/-- The cores of a window that are eligible, in ascending order. -/
def inWindow (ok : CoreId → Bool) (x : Nat × Nat) : List CoreId :=
  (List.finRange 256).filter fun p => decide (x.1 ≤ p.val) && decide (p.val < x.2) && ok p

/-! ### The balancer -/

/-- A pressure as a rational number. -/
def Pressure (s : State) (g : Gang) (k : Nat) : ℚ := (s.pressure g k).num / (s.pressure g k).den

/-- The cores that count in a group, a pending move counted for its recipient. -/
def sizeOf' (s : State) (g : Gang) (k : Nat) : Nat :=
  ((s.holders g).filter fun p => ((s.core p).move.map (·.toNat)).or ((s.core p).place.map (·.group.toNat)) == some k).length

/-- The groups R56 chooses among: those not finished. -/
def Chosen (s : State) (g : Gang) (k : Nat) : Prop := k < g.groups.length ∧ s.finished g k = false

/-- A pressure × 256, rounded toward zero, in 16 bits. -/
def pressure16 (x : ℚ) : Nat := (BitVec.ofInt 16 (if 0 ≤ x then ⌊256 * x⌋ else ⌈256 * x⌉)).toNat

/-- The BALANCE event of a move of core `p` from group `d` to `r`: the interval count, the groups, the core's logical index
and both pressures (R57, R361). -/
def balanceEvent (s : State) (g : Gang) (p : CoreId) (r d : Nat) : List Word :=
  [BitVec.ofNat 64 (g.balCount + 1),
   BitVec.ofNat 64 (d + 2 ^ 8 * r + 2 ^ 16 * s.lidxOf p + 2 ^ 32 * pressure16 (Pressure s g r) +
     2 ^ 48 * pressure16 (Pressure s g d))]

/-- The core that R57 takes of the donor's: the coolest of those that adjoin a core of the recipient's, or of all where
none does, the lowest coordinate on a tie. -/
def MovesFirst (s : State) (g : Gang) (r d : Nat) (p : CoreId) : Prop :=
  let has := fun k x => x ∈ s.holders g ∧ (s.core x).place.map (·.group.toNat) = some k
  let near := fun x => ∃ y, has r y ∧ s.coresAdjoin x y = true
  has d p ∧ (near p ∨ ∀ x, has d x → ¬ near x) ∧
    ∀ x, has d x → (near x ∨ ¬ near p) → s.t0 p ≤ s.t0 x ∧ (s.t0 p = s.t0 x → p ≤ x)

/-- The gang with its next interval begun. -/
def nextInterval (s : State) (g : Gang) : State :=
  s.modGang g.id fun x =>
    { x with balNext := s.nanos + 1000 * min 1000 (max 5 ((s.bent g.home).balival.toNat % 1024)), balCount := x.balCount + 1 }

/-- Where the ring of a launch queue holds its `i`-th record from LQHEAD on, as readable (R38, R43). -/
def recordIn (s : State) (q : BitVec 6) (i : Nat) : Option LRec :=
  let x := s.lq q
  let a := x.base.toNat / 8 * 8 + 8 * ((x.head + BitVec.ofNat 32 i).toNat % x.size.toNat)
  if s.reachable a = true then s.readRecord (BitVec.ofNat 64 (s.readAny a 8)) else none

/-- The first `k` records of a queue have been refused with KILLED, in order (R40, R364): nothing but their status words
and counters has changed. -/
def RecordsKilled (s u : State) (q : BitVec 6) (k : Nat) : Prop :=
  ∃ us : Nat → State, us 0 = s ∧ us k = u ∧ ∀ i, i < k →
    (recordIn (us i) q i = none → us (i + 1) = us i) ∧
    ∀ r, recordIn (us i) q i = some r →
      us (i + 1) = withStores (us i) (us (i + 1)) ∧ Posted (us i) (us (i + 1)) r.statusa r.donectr 0x15

/-- Nothing of a pre-empted gang is left to write back. -/
structure QuietPre (s : State) (e : PreGang) : Prop where
  rings : e.gang.rings = [] ∧ (∀ c ∈ e.saved, c.2.sqt = []) ∧ ∀ b, ∀ x ∈ (s.bent b).sqt, x.owner ≠ some e.gang.id

/-- A launch queue after its reset (R364). -/
def cleared (x : LaunchQ) : LaunchQ :=
  { x with head := x.tail, stat := x.stat &&& ~~~0x3C, headwait := false, ready := none }

/-- No session is open that traces queue `q`. -/
def Untraced (s : State) (q : BitVec 6) : Prop := s.trace.ctl.getLsbD 0 = false ∨ s.trace.qmask.getLsbD q.toNat = false

/-- Where the trace ring takes its next record. -/
def traceSlot (s : State) : Nat := s.trace.base.toNat / 64 * 64 + 64 * (s.trace.tail.toNat % s.trace.size.toNat)

/-- The TRUNC record of queue `q`, produced in a cycle, with its LOST (R360, R364). -/
def truncRecord (s : State) (cycle : Nat) (q : BitVec 6) (lost : Nat) : List Byte :=
  bytesOfNat (4 + 2 ^ 8 + (s.trace.ctl.toNat / 2 ^ 16) * 2 ^ 16 + 0xFF * 2 ^ 32 + q.toNat * 2 ^ 52) 8 ++
    bytesOfNat (cycle % 2 ^ 64) 8 ++ bytesOfNat q.toNat 8 ++ bytesOfNat lost 8 ++ List.replicate 32 0

end Sys2Proof.Claims

open Sys2Proof Sys2Proof.Machine Sys2Proof.Claims

/-- R38–R48, R61: LQTAIL takes the value written. Of a single queue with a record, GANG_PLACEMENT drops one at a bad
address, refuses a malformed or oversize one with its status, and leaves one waiting that is not ready or finds no cores;
else it places the gang whole and every core begins its group. Dropping an entry whose own address cannot be read (log 50),
what counts as malformed outside R39's list (log 49), placing a gang with a descriptor that QINIT refuses (log 23),
counting a placement alone as a selection (log 37) and reading SYMB at placement (log 51) are the model's choices. -/
def Obligations.GangsPlaced : Prop :=
  ∀ (s : State),
    (∀ q v, exec (.lqtail q v) s = .next (s.modLq q fun x => { x with tail := v })) ∧
    (s.changing = true → exec .gangPlacement s = .next s) ∧
    (s.changing = false → (∀ q, s.lqActive q = false) → ∃ t, exec .gangPlacement s = .next t ∧
      t = { s with launch := { s.launch with lq := t.launch.lq } } ∧
      ∀ q, t.lq q = { s.lq q with headwait := false, ready := none }) ∧
    (∀ q, s.changing = false → OnlyHead s q →
      (s.headEntry q = none ∨ ∃ a, s.headEntry q = some a ∧ (a.toNat % 256 ≠ 0 ∨ s.readRecord a = none)) →
      ∃ t, exec .gangPlacement s = .next t ∧ t = s.modLq q fun x => { passed x with stat := x.stat ||| 0x20 }) ∧
    (∀ q a r, s.changing = false → OnlyHead s q → s.headEntry q = some a → s.readRecord a = some r → BadRecord s r → Canonical s →
      ∃ t, exec .gangPlacement s = .next t ∧ t = withStores (s.modLq q passed) t ∧
        Posted s t r.statusa r.donectr 0x19) ∧
    (∀ q a r, s.changing = false → OnlyHead s q → s.headEntry q = some a → s.readRecord a = some r → s.malformed r = false → BigRecord r →
      Canonical s →
      ∃ t, exec .gangPlacement s = .next t ∧ t = withStores (s.modLq q passed) t ∧
        Posted s t r.statusa r.donectr 0x18) ∧
    (∀ q a r, s.changing = false → OnlyHead s q → s.headEntry q = some a → s.readRecord a = some r → s.malformed r = false →
      s.oversize r = false →
      ((∃ d ∈ r.deps, ∀ b, s.translateSup d.1 .read = .ok b → s.readAny (b / 8 * 8) 8 < d.2) ∨
        search s.eligible r.n = none) →
      ∃ t, exec .gangPlacement s = .next t ∧ t = { s with launch := { s.launch with lq := t.launch.lq } } ∧
        (t.lq q).headwait = true ∧ (t.lq q).head = (s.lq q).head) ∧
    (∀ q a r cs, s.changing = false → OnlyHead s q → s.headEntry q = some a → s.readRecord a = some r → s.malformed r = false →
      s.oversize r = false → s.restoring = false →
      (∀ d ∈ r.deps, ∃ b, s.translateSup d.1 .read = .ok b ∧ d.2 ≤ s.readAny (b / 8 * 8) 8) →
      search s.eligible r.n = some cs →
      ∃ t g, exec .gangPlacement s = .next t ∧ t.launch.gangs = s.launch.gangs ++ [g] ∧ g.id = s.launch.nextGang ∧
        t.launch.nextGang = s.launch.nextGang + 1 ∧ g.reca = a ∧ g.lq = q ∧ g.cores = cs ∧ g.param = r.param ∧
        g.statusa = r.statusa ∧ g.donectr = r.donectr ∧ g.groups.length = r.groups.length ∧ t.mem = s.mem ∧
        (t.lq q).head = (s.lq q).head + 1 ∧ t.launch.lastq = q ∧
        ∀ i p, cs[i]? = some p → ∃ k grp, (assign (r.groups.map (·.minc)) (r.groups.map (·.maxc)) r.n)[i]? = some k ∧
          g.groups[k]? = some grp ∧ (t.core p).place = some { gang := g.id, lidx := BitVec.ofNat 8 i, group := BitVec.ofNat 4 k } ∧
          Begins t p grp k i r.param) ∧
    (∀ ok n, 1 ≤ n → n ≤ 256 →
      (search ok n = none ↔ ∀ w x, windowOf n w = some x → (inWindow ok x).length < n) ∧
      ∀ w x, windowOf n w = some x → n ≤ (inWindow ok x).length →
        (∀ v y, v < w → windowOf n v = some y → (inWindow ok y).length < n) → search ok n = some ((inWindow ok x).take n)) ∧
    (∀ (minc maxc : List Nat) n, minc.length = maxc.length → minc.length ≤ 16 →
      (∀ k : Nat, minc.getD k 0 ≤ maxc.getD k 0 ∧ maxc.getD k 0 ≤ 256) → minc.sum ≤ n → n ≤ maxc.sum → n ≤ 256 →
      (assign minc maxc n).length = n ∧
      (∀ k, k < minc.length → minc.getD k 0 ≤ (assign minc maxc n).count k ∧ (assign minc maxc n).count k ≤ maxc.getD k 0) ∧
      (assign minc maxc n).take minc.sum = (minc.zipIdx.flatMap fun x => List.replicate x.1 x.2) ∧
      ∀ i, minc.sum ≤ i → i + 1 < n → ∀ a b, (assign minc maxc n)[i]? = some a → (assign minc maxc n)[i + 1]? = some b →
        a < b ∨ ∀ k, a < k → k < minc.length → ((assign minc maxc n).take (i + 1)).count k = maxc.getD k 0)

/-- R52, R53: a held packet of a running core goes to the end of that core's spawn queue once an entry is free and no older
one is held for it; one whose core has left goes to the core a dispatcher chooses; else it stays. -/
def Sys2Proof.Claims.PacketsDelivered : Prop :=
  ∀ (b : BentId) (n : Nat) (s : State),
    ((s.bent b).held[n]? = none → exec (.spawnDelivery b n) s = .next s) ∧
    (∀ x g, (s.bent b).held[n]? = some x → s.gang? x.pkt.gang = some g → x.core ∈ s.runners g →
      ((∀ y ∈ (s.bent b).held.take n, y.core ≠ x.core) → (s.core x.core).gate.spawnq.length < 32 →
        exec (.spawnDelivery b n) s = .next ((s.modBent b fun z => { z with held := z.held.eraseIdx n }).modCore x.core fun c =>
          { c with gate := { c.gate with spawnq := c.gate.spawnq ++ [x.pkt] } })) ∧
      (32 ≤ (s.core x.core).gate.spawnq.length → exec (.spawnDelivery b n) s = .next s)) ∧
    (∀ x g q, (s.bent b).held[n]? = some x → s.gang? x.pkt.gang = some g → x.core ∉ s.runners g →
      s.chooseCore g (bentOf x.core) = some q → (s.core q).gate.spawnq.length < 32 → (∀ y ∈ (s.bent (bentOf q)).held, y.core ≠ q) →
      exec (.spawnDelivery b n) s = .next ((s.modBent b fun z => { z with held := z.held.eraseIdx n }).modCore q fun c =>
          { c with gate := { c.gate with spawnq := c.gate.spawnq ++ [x.pkt] } })) ∧
    (∀ g q p, s.chooseCore g b = some q → p ∈ s.runners g → q ∈ s.runners g ∧
      (bentOf p = b → bentOf q = b ∧ (s.core q).gate.spawnq.length ≤ (s.core p).gate.spawnq.length))

/-- R54–R58: an evaluation whose interval has not ended changes nothing; else the next interval begins, and where R56 finds
a recipient and a donor more than 0.25 apart, one core of the donor is to move; none is decided while one is pending. A
core to move begins in its new group once its CP has reached TNEXT with no task current and its commands have completed. -/
def Sys2Proof.Claims.StagesBalanced : Prop :=
  ∀ (s : State),
    (∀ n, s.launch.gangs[n]? = none → exec (.balancerInterval n) s = .next s) ∧
    (∀ n g, s.launch.gangs[n]? = some g → s.gang? g.id = some g →
      (s.nanos < g.balNext → exec (.balancerInterval n) s = .next s) ∧
      (g.balNext ≤ s.nanos → g.saving = none →
        ((∃ p ∈ s.holders g, (s.core p).move ≠ none) → exec (.balancerInterval n) s = .next (nextInterval s g)) ∧
        ((∀ p ∈ s.holders g, (s.core p).move = none) → s.trace.ctl.getLsbD 0 = false →
          (exec (.balancerInterval n) s = .next (nextInterval s g) ∧
            ∀ r d, Chosen s g r → Chosen s g d → r ≠ d → sizeOf' s g r < (g.groups.getD r default).maxc →
              (g.groups.getD d default).minc < sizeOf' s g d →
              (∀ k, Chosen s g k → sizeOf' s g k < (g.groups.getD k default).maxc → Pressure s g k ≤ Pressure s g r) →
              Pressure s g r - Pressure s g d ≤ 1 / 4) ∨
          ∃ p r d, exec (.balancerInterval n) s = .next (((nextInterval s g).modGang g.id fun x =>
              { x with events := x.events ++ [balanceEvent s g p r d] }).modCore p fun c =>
                { c with move := some (BitVec.ofNat 4 r) }) ∧
            MovesFirst s g r d p ∧ r ≠ d ∧ Chosen s g r ∧ Chosen s g d ∧
            sizeOf' s g r < (g.groups.getD r default).maxc ∧ (g.groups.getD d default).minc < sizeOf' s g d ∧
            Pressure s g r - Pressure s g d > 1 / 4 ∧
            (∀ k, Chosen s g k → sizeOf' s g k < (g.groups.getD k default).maxc →
              Pressure s g k ≤ Pressure s g r ∧ (Pressure s g k = Pressure s g r → r ≤ k)) ∧
            (∀ k, Chosen s g k → k ≠ r → (g.groups.getD k default).minc < sizeOf' s g k →
              Pressure s g d ≤ Pressure s g k ∧ (Pressure s g k = Pressure s g d → d ≤ k))))) ∧
    (∀ p, (s.core p).move = none ∨ (s.core p).gate.cur ≠ none ∨ (s.core p).gate.switching = false →
      exec (.stageSwitch p) s = .next s) ∧
    (∀ p g gang grp pl, (s.core p).move = some g → (s.core p).gate.cur = none → (s.core p).gate.switching = true →
      (s.core p).idle = true → s.stalled p = false → s.halted p = false → (s.core p).place = some pl →
      s.gangOf p = some gang → gang.groups[g.toNat]? = some grp → (∀ k, (s.ctx p k).pend = []) → (s.core p).comb = [] →
      ∃ t, exec (.stageSwitch p) s = .next t ∧ Begins t p grp g.toNat pl.lidx.toNat gang.param ∧
        (t.core p).place = some { pl with group := g } ∧ (t.core p).gate.spawnq = (s.core p).gate.spawnq ∧ SameBytes s t)

/-- Packets reach their cores, and the balancer moves cores (R52–R58). -/
def Obligations.StagesFed : Prop := Sys2Proof.Claims.PacketsDelivered ∧ Sys2Proof.Claims.StagesBalanced

/-- R59, R60, R364: a limit that the timer has not reached, or that is off, does nothing; the first asks for pre-emption of
the queue's gangs, the second ends them with WATCHDOG_KILL, the third fences their cores. LQRST refuses each record of the
queue with KILLED, ends its gangs, running and pre-empted, with KILLED and clears its status; in a session that traces the
queue it then writes a TRUNC that counts the stamps discarded and closes the session, once the ring has room, its CYCLE
that of the reset point, and a write meanwhile is ignored. While a region changes, the words of a gang that ends are owed
(R297). That a gang with no core left ends with WATCHDOG_KILL is the model's choice (log 24). -/
def Obligations.WatchdogLimits : Prop :=
  ∀ (q : BitVec 6) (s : State),
    (∀ x, x = s.lq q →
      ((x.cfgerr = true ∨ (∀ g ∈ s.launch.gangs, g.lq ≠ q) ∨ x.wdl1 = 0 ∨ s.nanos < x.wdStart + 1000 * x.wdl1.toNat) →
        exec (.watchdogPreempt q) s = .next s) ∧
      ((x.cfgerr = true ∨ (∀ g ∈ s.launch.gangs, g.lq ≠ q) ∨ x.wdl2 = 0 ∨ s.nanos < x.wdStart + 1000 * x.wdl2.toNat) →
        exec (.watchdogKill q) s = .next s) ∧
      ((x.cfgerr = true ∨ (∀ g ∈ s.launch.gangs, g.lq ≠ q) ∨ x.wdl3 = 0 ∨ s.nanos < x.wdStart + 1000 * x.wdl3.toNat) →
        exec (.watchdogFence q) s = .next s) ∧
      (x.cfgerr = false → (∃ g ∈ s.launch.gangs, g.lq = q) → x.wdl1 ≠ 0 → x.wdDone.getLsbD 0 = false →
        x.wdStart + 1000 * x.wdl1.toNat ≤ s.nanos →
        ∃ t, exec (.watchdogPreempt q) s = .next t ∧
          t = (s.modLq q fun y => { y with stat := y.stat ||| 4, wdDone := y.wdDone ||| 1 }).modPm fun y =>
            { y with wd := y.wd ++ (s.launch.gangs.filter fun g => g.lq == q).map (·.id) }) ∧
      (∀ g, x.cfgerr = false → s.launch.gangs.filter (fun g => g.lq == q) = [g] → Quiet s g → x.wdl2 ≠ 0 →
        x.wdDone.getLsbD 1 = false → x.wdStart + 1000 * x.wdl2.toNat ≤ s.nanos → Canonical s →
        ∃ t, exec (.watchdogKill q) s = .next t ∧ (t.lq q).stat = x.stat ||| 8 ∧
          t.launch.gangs = s.launch.gangs.filter (fun y => y.id != g.id) ∧ (∀ p ∈ s.holders g, Gone t p) ∧
          (s.changing = false → Posted s t g.statusa g.donectr 0x14) ∧
          (s.changing = true → t.mem = s.mem ∧
            t.launch.owed = s.launch.owed ++ [.outcome g.statusa g.donectr 0x14])) ∧
      (∀ g, x.cfgerr = false → s.launch.gangs.filter (fun g => g.lq == q) = [g] → Quiet s g → s.holders g ≠ [] →
        x.wdl3 ≠ 0 → s.changing = false → x.wdDone.getLsbD 2 = false → x.wdStart + 1000 * x.wdl3.toNat ≤ s.nanos → Canonical s →
        ∃ t, exec (.watchdogFence q) s = .next t ∧ (t.lq q).stat = x.stat ||| 16 ∧
          (∀ p ∈ s.holders g, Gone t p ∧ (t.core p).fenced = true) ∧
          t.launch.gangs = s.launch.gangs.filter (fun y => y.id != g.id) ∧ Posted s t g.statusa g.donectr 0x14)) ∧
    (∀ v : W32, s.trace.rst = none → v.getLsbD 31 = false → exec (.launchQueueReset v) s = .next s) ∧
    (∀ v w : W32, s.trace.rst ≠ none → exec (.launchQueueReset v) s = exec (.launchQueueReset w) s ∧
      ((∀ b, (s.bent b).trace = []) → s.trace.on = true → s.trace.full = true → exec (.launchQueueReset v) s = .next s)) ∧
    (∀ (v : W32) (k : Nat) (gs : List Gang) (es : List PreGang), v.setWidth 6 = q → v.getLsbD 31 = true →
      s.trace.rst = none → s.changing = false → Canonical s → k = ((s.lq q).tail - (s.lq q).head).toNat → k ≤ (s.lq q).size.toNat →
      gs = s.launch.gangs.filter (fun g => g.lq == q) → es = s.launch.pre.filter (fun e => e.gang.lq == q) →
      gs.length ≤ 1 → es.length ≤ 1 → (∀ g ∈ gs, Quiet s g) → (∀ e ∈ es, QuietPre s e) →
      (Untraced s q → ∃ t u w, exec (.launchQueueReset v) s = .next t ∧ RecordsKilled s u q k ∧
        t.lq q = cleared (s.lq q) ∧ t.launch.gangs = s.launch.gangs.filter (fun y => gs.all fun g => y.id != g.id) ∧
        t.launch.pre = s.launch.pre.filter (fun y => es.all fun e => y.base != e.base) ∧
        (∀ g ∈ gs, ∀ p ∈ s.holders g, Gone t p) ∧ w = withStores u w ∧
        (gs = [] → w = u) ∧ (∀ g ∈ gs, Posted u w g.statusa g.donectr 0x15) ∧
        (es = [] → t.mem = w.mem) ∧ (∀ e ∈ es, Posted w { w with mem := t.mem } e.gang.statusa e.gang.donectr 0x15) ∧
        (gs = [] → es = [] → t = u.modLq q cleared)) ∧
      (¬ Untraced s q → k = 0 → es = [] → (∀ g ∈ gs, g.statusa = 0 ∧ g.donectr = 0) → (∀ b, (s.bent b).trace = []) →
        s.trace.on = true →
        ∃ t n, exec (.launchQueueReset v) s = .next t ∧
          n = ((gs.flatMap s.holders).filter fun p => (s.core p).gate.stamp.isSome).length ∧
          (∀ g ∈ gs, ∀ p ∈ s.holders g, Gone t p) ∧ t.launch.gangs = s.launch.gangs.filter (fun y => gs.all fun g => y.id != g.id) ∧
          (s.trace.full = true → t.trace = { s.trace with rst := some (q, n, s.cycle) } ∧ (t.lq q).stat = (s.lq q).stat ∧
            (t.lq q).head = (s.lq q).tail ∧ SameBytes s t) ∧
          (s.trace.full = false → s.ringAt (traceSlot s) = true → s.inView (.phys (traceSlot s)) = false →
            t.trace = { s.trace with ctl := s.trace.ctl &&& ~~~1, tail := s.trace.tail + 1 } ∧
            t.lq q = cleared (s.lq q) ∧
            Stored s t 0 (.phys (traceSlot s)) (truncRecord s s.cycle q (s.trace.lost + BitVec.ofNat 64 n).toNat)))) ∧
    (∀ (v : W32) (n cycle : Nat), s.trace.rst = some (q, n, cycle) → Canonical s → (∀ b, (s.bent b).trace = []) →
      s.changing = false → s.trace.on = true → s.trace.full = false → s.ringAt (traceSlot s) = true →
      s.inView (.phys (traceSlot s)) = false →
      ∃ t, exec (.launchQueueReset v) s = .next t ∧
        t.trace = { s.trace with rst := none, ctl := s.trace.ctl &&& ~~~1, tail := s.trace.tail + 1 } ∧
        t.lq q = { s.lq q with stat := (s.lq q).stat &&& ~~~0x3C } ∧
        Stored s t 0 (.phys (traceSlot s)) (truncRecord s cycle q (s.trace.lost + BitVec.ofNat 64 n).toNat))

namespace Sys2Proof.Claims

open Sys2Proof.Machine

/-! ### Storage errors and fault records -/

/-- A detection counted in its bent. -/
def detected (s : State) (b : BentId) : State := s.modBent b fun x => { x with errce := x.errce + 1 }

/-- The core stands still for 24 cycles from now (R67); its time without freezes is what it was (R62, R66). -/
def Freezes (s t : State) (p : CoreId) : Prop :=
  (∃ a n, t = s.modCore p fun c => { c with eccUntil := some (s.cycle + 24), frzAt := some a, frzPast := n }) ∧
    t.live p = s.live p

/-- A furrow command after an error at device-memory place `a`: it stops at the first of its rows still to come that has a
source row there (R302). -/
def MetError (a : Nat) (f g : FurRun) : Prop :=
  g = { f with stop := g.stop } ∧
  (∀ x ∈ f.srcs, x + 1024 * f.row ≤ a → a < x + 1024 * f.n → ∃ m, g.stop = some m ∧ m ≤ (a - x) / 1024) ∧
  (g.stop = f.stop ∨ ∃ x ∈ f.srcs, x + 1024 * f.row ≤ a ∧ a < x + 1024 * f.n ∧ g.stop = some ((a - x) / 1024))

/-- The record of an uncorrectable error (R314, R319). -/
def ErrorRecord (e : UncorrErr) (x : FaultRec) : Prop :=
  x.ticket = none ∧ (x.words.getD 0 0).extractLsb' 0 8 = 0x13 ∧ (x.words.getD 0 0).extractLsb' 8 8 = e.aux ∧
    (x.words.getD 0 0).extractLsb' 32 4 = 9 ∧ x.words.getD 3 0 = e.loc

/-- The bytes of a line have bad check bits from now on. -/
def withBad (s : State) (a : Nat) : State :=
  { s with marks := { s.marks with bad := s.marks.bad ++ (List.range 128).map fun i => s.key (a + i) } }

/-- No array of a bent holds the record of an error. -/
def NoErrors (s : State) (b : BentId) : Prop := ∀ x ∈ s.flt.errors, x.1 ≠ b

/-- A bent's unit may hold one more record, and no abort waits (R313). -/
def Room (s : State) (b : BentId) : Prop := s.flt.on = false ∧ (s.bent b).faults.length < 64 ∧ s.flt.aborts = []

/-- No other agent is parked under the ticket of context `k` of core `p`. -/
structure ParkedHere (s : State) (t : BitVec 16) (p : CoreId) (k : Ctx) : Prop where
  here : (s.ctx p k).ticket = some t
  cores : ∀ q, q ≠ p → (s.core q).parkedAt q t = none
  contexts : ∀ j, j ≠ k → (s.ctx p j).ticket ≠ some t

/-- The same of the command at the head of endpoint `e`'s queue. -/
structure ParkedHead (s : State) (t : BitVec 16) (p : CoreId) (e : Ep) (q : QCmd) (rest : List QCmd) : Prop where
  head : (s.eng p e).q = q :: rest ∧ q.ticket = some t ∧ ∀ x ∈ rest, x.ticket = none
  cores : ∀ r, r ≠ p → (s.core r).parkedAt r t = none
  contexts : ∀ k, (s.ctx p k).ticket ≠ some t
  others : ∀ j, j ≠ e → ∀ x ∈ (s.eng p j).q, x.ticket ≠ some t

/-- The same of a started command. -/
structure ParkedFlight (s : State) (t : BitVec 16) (p : CoreId) (f : Flight) : Prop where
  here : f ∈ (s.core p).flights ∧ f.ticket = some t ∧ ∀ g ∈ (s.core p).flights, g.ord = f.ord ∨ g.ticket = some t → g = f
  cores : ∀ r, r ≠ p → (s.core r).parkedAt r t = none
  contexts : ∀ k, (s.ctx p k).ticket ≠ some t
  queues : ∀ e, (∀ x ∈ (s.eng p e).q, x.ticket ≠ some t) ∧ (s.eng p e).chain.ticket ≠ some t
  engines : (∀ o x, (s.me p).drn = some (o, x) → o ≠ f.ord) ∧ ∀ r, (s.ve p).run = some r → r.ord ≠ f.ord

/-- The words of the record a ticket stands in. -/
def recordOf' (s : State) (t : BitVec 16) (ws : List Word) : Prop := s.flt.tickets.find? (fun x => x.1 == t) = some (t, ws)

/-- The record of an abort: the same code, source and addresses, REPLAY and TICKET zero (R314). -/
def Closed (ws : List Word) (x : FaultRec) : Prop :=
  x.ticket = none ∧ x.words.tail = ws.tail ∧ x.words.getD 0 0 = ws.getD 0 0 &&& 0x7FFFFFFF0000FFFF

/-- The ticket names no agent any longer. -/
def ticketGone (s : State) (t : BitVec 16) : Faults := { s.flt with tickets := s.flt.tickets.filter fun x => x.1 != t }

end Sys2Proof.Claims

open Sys2Proof Sys2Proof.Machine Sys2Proof.Claims

/-- R67, R317–R319: a correctable error is counted and freezes the core it is found in for 24 cycles; an uncorrectable one
in a clean copy drops the copy, in any other array it is counted in ERRUE and recorded, and the gang that consumes the data
ends with status 0x13; in DRAM it also stops the Furrow commands that have still to read the row; a dirty LLC line keeps its bad check bits, in
the LLC and written back. A record without room is held, the error's other effects done (R313; that they are is log 19's
reading, as is the number of each kind of clean copy). -/
def Sys2Proof.Claims.StorageErrors : Prop :=
  ∀ (s : State),
    (∀ b, exec (.correctableError b none) s = .next (detected s b)) ∧
    (∀ b j p, p.val = 16 * b.val + j.val →
      ∃ t, exec (.correctableError b (some j)) s = .next t ∧ Freezes (detected s b) t p) ∧
    (∀ p n, (s.core p).eccUntil = some n →
      (s.cycle < n → exec (.eccFreezeEnd p) s = .next s) ∧
      (n ≤ s.cycle → ∃ t a m, exec (.eccFreezeEnd p) s = .next t ∧
        t = s.modCore p (fun c => { c with eccUntil := none, frzAt := a, frzPast := m }) ∧ t.live p = s.live p)) ∧
    (∀ p e line, e.clean = true → e.consumer = some p → e.b = bentOf p → line = e.loc.toNat / 128 * 128 →
      (e.aux = 0 → ∃ t v, exec (.uncorrectableError e) s = .next t ∧ t = detected v e.b ∧
        Freezes (s.modCore p fun c => { c with l1 := (t.core p).l1 }) v p ∧
        ∀ x, x ∈ (t.core p).l1 ↔ x ∈ (s.core p).l1 ∧ x.line ≠ line) ∧
      (e.aux = 1 → ∃ t v, exec (.uncorrectableError e) s = .next t ∧ t = detected v e.b ∧
        Freezes (s.modCore p fun c => { c with icache := (t.core p).icache }) v p ∧
        ∀ x, x ∈ (t.core p).icache ↔ x ∈ (s.core p).icache ∧ x.line ≠ line) ∧
      (e.aux = 2 → ∃ t v, exec (.uncorrectableError e) s = .next t ∧ t = detected v e.b ∧
        Freezes (s.modCore p fun c => { c with tlb := (t.core p).tlb }) v p ∧
        ∀ x, x ∈ (t.core p).tlb ↔ x ∈ (s.core p).tlb ∧ x.hits e.loc.toNat = false)) ∧
    (∀ e, e.clean = false → e.consumer = none → e.aux ≠ 7 → e.aux ≠ 8 → s.flt.on = false →
      64 ≤ (s.bent e.b).faults.length →
      ∃ x, ErrorRecord e x ∧ exec (.uncorrectableError e) s = .next
        (({ s with flt := { s.flt with errors := s.flt.errors ++ [(e.b, x)] } } : State).modBent e.b fun y =>
          { y with errue := y.errue + 1 })) ∧
    (∀ e, e.clean = false → e.consumer = none → Room s e.b →
      ∃ t x, exec (.uncorrectableError e) s = .next t ∧ ErrorRecord e x ∧
        (e.aux ≠ 7 → e.aux ≠ 8 →
          t = s.modBent e.b (fun y => { y with errue := y.errue + 1, faults := y.faults ++ [x] })) ∧
        (e.aux = 7 → t = (withBad s (e.loc.toNat / 128 * 128)).modBent e.b
          (fun y => { y with errue := y.errue + 1, faults := y.faults ++ [x] })) ∧
        (e.aux = 8 → t = { s with bents := t.bents } ∧ (t.bent e.b).errue = (s.bent e.b).errue + 1 ∧
          (t.bent e.b).faults = (s.bent e.b).faults ++ [x] ∧
          ∀ k, k < 32 → List.Forall₂ (MetError e.loc.toNat) (s.ctlOf k).cmds (t.ctlOf k).cmds)) ∧
    (∀ e p g, e.clean = false → e.consumer = some p → s.gangOf p = some g → Quiet s g → Room s e.b → Canonical s →
      s.changing = false →
      ∃ t x, exec (.uncorrectableError e) s = .next t ∧ (t.bent e.b).errue = (s.bent e.b).errue + 1 ∧
        (t.bent e.b).faults = (s.bent e.b).faults ++ [x] ∧ (x.words.getD 0 0).extractLsb' 0 8 = 0x13 ∧
        x.words.getD 5 0 = g.reca ∧ (∀ q ∈ s.holders g, Gone t q) ∧
        t.launch.gangs = s.launch.gangs.filter (fun y => y.id != g.id) ∧ Posted s t g.statusa g.donectr 0x13)

/-- R311–R315, R212, R391: the oldest held record is written once the ring has room, FLTTAIL covering it, or sets BADADDR
where its slot is no memory or lies in a view; one that an array holds for want of room comes next. FLTREPLAY lets the agent its ticket names go on, or ends it with a record that has REPLAY = 0:
a context restarts at TEPC in its mode from before, or stays stopped; a command at a queue's head tries again, or leaves
with no effect; a started command ends without counter add or token. A ticket of no agent is ignored, and an abort whose
record has no room waits. A fenced bent gives back the packets it holds. That the abort of a parked context too is given a
record with REPLAY = 0 is read from R314's words on commands (log 33), and the slot of a record in a region change waits
(R297). -/
def Sys2Proof.Claims.FaultRecords : Prop :=
  ∀ (s : State),
    (∀ b, s.flt.aborts = [] → NoErrors s b →
      ((s.bent b).faults = [] ∧ bentFenced (s.bent b).sitemap = false) ∨
        ((s.bent b).faults ≠ [] ∧ (s.flt.on = false ∨ s.flt.tail - s.flt.head = s.flt.size ∨ s.changing = true)) →
      exec (.faultRecordRelease b) s = .next s) ∧
    (∀ b x rest, s.flt.errors = (b, x) :: rest → Room s b →
      exec (.faultRecordRelease b) s = .next (({ s with flt := { s.flt with errors := rest } } : State).modBent b fun y =>
        { y with faults := y.faults ++ [x] })) ∧
    (∀ b r rest a m, (s.bent b).faults = r :: rest → s.flt.aborts = [] → NoErrors s b → s.flt.on = true →
      s.flt.tail - s.flt.head ≠ s.flt.size → s.changing = false → r.words.length = 8 →
      a = s.flt.base.toNat / 64 * 64 + 64 * (s.flt.tail.toNat % s.flt.size.toNat) →
      m = (((∃ o, s.space a = .dev o) ∨ (∃ c o, s.space a = .under c o) ∨ (∃ o, s.space a = .host o)) ∧
        s.reachable a = true ∧ s.inView (.phys a) = false) →
      (m → Canonical s → ∃ t, exec (.faultRecordRelease b) s = .next t ∧
          t = ({ withStores s t with flt := { s.flt with tail := s.flt.tail + 1 } } : State).modBent b
            (fun x => { x with faults := rest }) ∧
          Stored s { s with mem := t.mem } 0 (.phys a) (r.words.flatMap fun w => bytesOfNat w.toNat 8)) ∧
      (¬ m → exec (.faultRecordRelease b) s = .next { s with flt := { s.flt with badaddr := true } })) ∧
    (∀ b h, (s.bent b).faults = [] → Room s b → NoErrors s b → bentFenced (s.bent b).sitemap = true → (s.bent b).held = [h] →
      ∃ x, exec (.faultRecordRelease b) s = .next (s.modBent b fun y => { y with held := [], faults := [x] }) ∧
        x.ticket = none ∧ (x.words.getD 0 0).extractLsb' 32 4 = 8 ∧ (x.words.getD 0 0).extractLsb' 8 8 = 0x20 ∧
        (x.words.getD 0 0).extractLsb' 0 8 = cAccess ∧ x.words.getD 3 0 = h.pkt.target ∧
        x.words.getD 6 0 = h.pkt.arg0 ∧ x.words.getD 7 0 = h.pkt.arg1) ∧
    (∀ t, s.parkedAt t = none → exec (.faultReplay t) s = .next s ∧ exec (.faultAbort t) s = .next s) ∧
    (∀ t p k, ParkedHere s t p k → s.flt.on = false → 64 ≤ (s.bent (bentOf p)).faults.length → t ∉ s.flt.aborts →
      exec (.faultAbort t) s = .next { s with flt := { s.flt with aborts := s.flt.aborts ++ [t] } }) ∧
    (∀ t p k, ParkedHere s t p k → t ∉ s.flt.aborts →
      exec (.faultReplay t) s = .next (({ s with flt := ticketGone s t } : State).modCtx p k fun x =>
        { x with run := .issuing, pc := x.tepc, ticket := none, blocked := false,
                 status := setBit (setBit x.status 0 (x.status.getLsbD 1)) 1 false }) ∧
      ∀ ws, recordOf' s t ws → Room s (bentOf p) → ∃ x, Closed ws x ∧
        exec (.faultAbort t) s = .next ((({ s with flt := ticketGone s t } : State).modBent (bentOf p) fun b =>
          { b with faults := b.faults ++ [x] }).modCtx p k fun y => { y with ticket := none })) ∧
    (∀ t p e q rest, ParkedHead s t p e q rest → t ∉ s.flt.aborts →
      (∃ u, exec (.faultReplay t) s = .next u ∧ (u.eng p e).q = { q with ticket := none } :: rest ∧ SameBytes s u ∧
        (u.core p).flights = (s.core p).flights ∧ u.flt = ticketGone s t) ∧
      ∀ ws, recordOf' s t ws → Room s (bentOf p) → ∃ u x, exec (.faultAbort t) s = .next u ∧ Closed ws x ∧
        (u.bent (bentOf p)).faults = (s.bent (bentOf p)).faults ++ [x] ∧ (u.eng p e).q = rest ∧ SameBytes s u ∧
        (u.core p).flights = (s.core p).flights ∧ (u.core p).tok = (s.core p).tok ∧ u.flt = ticketGone s t) ∧
    (∀ t p f, ParkedFlight s t p f → Ordered s → t ∉ s.flt.aborts →
      ((s.core p).saving = true → exec (.faultReplay t) s = .next s) ∧
      ((s.core p).saving = false → s.stalled p = true ∨ s.changing = true →
        exec (.faultReplay t) s = .next (({ s with flt := ticketGone s t } : State).modCore p fun c =>
          { c with flights := c.flights.map fun g => if g.ord = f.ord then { f with ticket := none, waiting := true, held := true } else g }))) ∧
    (∀ t p f ws, ParkedFlight s t p f → recordOf' s t ws → Room s (bentOf p) → ∃ u x, exec (.faultAbort t) s = .next u ∧
      Closed ws x ∧ (u.bent (bentOf p)).faults = (s.bent (bentOf p)).faults ++ [x] ∧ SameBytes s u ∧
      (∀ g ∈ (u.core p).flights, g.ord ≠ f.ord) ∧ (u.core p).tok = (s.core p).tok ∧
      (u.core p).engflt.extractLsb' 8 8 = (ws.getD 0 0).extractLsb' 0 8)

/-- Storage errors, and the records that wait and are answered (R311–R319, R391). -/
def Obligations.ErrorsRecorded : Prop := Sys2Proof.Claims.StorageErrors ∧ Sys2Proof.Claims.FaultRecords

namespace Sys2Proof.Claims

open Sys2Proof.Machine

/-! ### Pre-emption -/

/-- The gang PMREC names: of those placed from that record, the first. -/
def Named (s : State) (g : Gang) : Prop := s.launch.gangs.find? (fun x => x.reca == s.pm.pmrec) = some g
def NoneNamed (s : State) : Prop := ∀ g ∈ s.launch.gangs, g.reca ≠ s.pm.pmrec

/-- The save area of a gang: its SAVEA, else PMSAVE. -/
def saveArea (s : State) (g : Gang) : Word := if g.savea = 0 then s.pm.save &&& ~~~0xFFF else g.savea

/-- An area that may not be saved to (R320). -/
def AreaTaken (s : State) (a : Word) : Prop := a = 0 ∨ (∃ e ∈ s.launch.pre, e.base = a) ∨ 64 ≤ s.launch.pre.length

/-- The operation written has been taken up, and has failed with a cause. -/
def failedOp (s : State) (cause : Byte) : State := s.modPm fun x => { x with req := 0, op := none, err := true, ecode := cause }

/-- A gang whose save has begun: its cores have stopped, with no monitor, no move and no wait left (R321). -/
structure Saving (s t : State) (g : Gang) : Prop where
  op : t.pm.op = some (.preempt g.id)
  gang : ∃ h, t.gang? g.id = some h ∧ h = { g with saving := some (saveArea s g) }
  cores : ∀ p ∈ s.holders g, (t.core p).saving = true ∧ (t.core p).mon = [] ∧ (t.core p).move = none ∧
    ∀ k, t.ctx p k = { s.ctx p k with wait := none }
  others : ∀ p, p ∉ s.holders g → t.core p = { s.core p with l1 := (t.core p).l1 }
  bytes : SameBytes s t

/-- Page `n` of the save area of logical index `i` stands at `a n`: none is a control page, nor in a view where written. -/
def AreaAt (s : State) (base : Word) (i : Nat) (acc : Acc) (a : Nat → Nat) : Prop :=
  ∀ n, n < 0x2A8 → s.translateSup (base + BitVec.ofNat 64 (0x2A8000 * i) + BitVec.ofNat 64 (4096 * n)) acc = .ok (a n) ∧
    (∀ o, s.space (a n) ≠ .ctl o) ∧ (acc = .write → s.inView (.phys (a n)) = false)

/-- The bytes of the areas of some cores stand in cells of their own. -/
def Apart (s : State) (ps : List CoreId) (a : CoreId → Nat → Nat) : Prop :=
  ∀ p ∈ ps, ∀ q ∈ ps, ∀ i j x y, i < 0x2A8 → j < 0x2A8 → x < 4096 → y < 4096 →
    s.key (a p i + x) = s.key (a q j + y) → p = q ∧ i = j ∧ x = y

/-- The save sequencer may go on: no region change is in progress, and a record it may have to post has room in bent 0
(log 7). -/
def SequencerFree (s : State) : Prop := s.changing = false ∧ s.flt.on = false ∧ (s.bent 0).faults.length < 64

/-- A core whose snapshot may be taken (R321, R110). -/
def MaySave (s : State) (p : CoreId) : Prop :=
  (s.core p).settled = true ∧ s.stalled p = false ∧ (s.bay (bayOf p)).fused = false

/-- A fault of the save sequencer: held in bent 0 with a ticket, of code `code` at `va` (R314, R315). -/
def SequencerParked (s t : State) (code : Byte) (va : Word) (x : FaultRec) : Prop :=
  (t.bent 0).faults = (s.bent 0).faults ++ [x] ∧ x.ticket ≠ none ∧ (x.words.getD 0 0).getLsbD 63 = true ∧
    (x.words.getD 0 0).extractLsb' 0 8 = code ∧ (x.words.getD 0 0).extractLsb' 32 4 = 10 ∧ x.words.getD 3 0 = va ∧
    t.pm.op = s.pm.op ∧ SameBytes s t

/-- The address of the area of a saved core. -/
def areaOf (e : PreGang) (x : CoreId × Core) : Word := e.base + BitVec.ofNat 64 (0x2A8000 * placeLidx x.2.place)

/-- The 16-bit field at byte `o` of a header. -/
def half (h : List Byte) (o : Nat) : Nat := (h.getD o 0).toNat + 256 * (h.getD (o + 1) 0).toNat

/-- Byte `o` of an area, as it reads. -/
def areaByte (s : State) (a : Nat → Nat) (o : Nat) : Byte := BitVec.ofNat 8 (s.readAny (a (o / 4096) + o % 4096) 1)

/-- The doubleword at byte `o` of an area. -/
def areaWord (s : State) (a : Nat → Nat) (o : Nat) : Word :=
  BitVec.ofNat 64 ((List.range 8).map fun j => (areaByte s a (o + j)).toNat * 256 ^ j).sum

end Sys2Proof.Claims

open Sys2Proof Sys2Proof.Machine Sys2Proof.Claims

/-- R320, R321: PRE_EMPT begins the save of the gang PMREC names, or of the next one the watchdog asked for; an operation
in progress, a record of no gang or an area that is taken fails as R320 says. SAVE_COMPLETE waits until every core has
settled, then writes each core's area, its scratchpad at 0xA_8000, and puts the gang in the table with its cores free; a
page fault in the area parks the sequencer, whose record waits in bent 0 (the model's choice, log 7). KILL ends the gang with status KILLED. -/
def Sys2Proof.Claims.GangsSaved : Prop :=
  ∀ (s : State),
    (s.pm.op ≠ none → exec .preEmpt s = .next s ∧ exec .restore s = .next s ∧ exec .kill s = .next s) ∧
    (s.pm.op = none → s.pm.req = 1 →
      (NoneNamed s → exec .preEmpt s = .next (failedOp s 1)) ∧
      (∀ g, Named s g → AreaTaken s (saveArea s g) → exec .preEmpt s = .next (failedOp s 2)) ∧
      (∀ g, Named s g → ¬ AreaTaken s (saveArea s g) → Quiet s g → s.trace.ctl.getLsbD 0 = false →
        ∃ t, exec .preEmpt s = .next t ∧ Saving s t g ∧ t.pm.req = 0)) ∧
    (s.pm.op = none → s.pm.req = 0 →
      (s.pm.wd = [] → exec .preEmpt s = .next s) ∧
      (∀ n rest, s.pm.wd = n :: rest → s.gang? n = none → exec .preEmpt s = .next (s.modPm fun x => { x with wd := rest })) ∧
      (∀ g rest, s.pm.wd = g.id :: rest → s.gang? g.id = some g →
        (AreaTaken s (saveArea s g) → exec .preEmpt s = .next (s.modPm fun x => { x with wd := rest })) ∧
        (¬ AreaTaken s (saveArea s g) → Quiet s g → s.trace.ctl.getLsbD 0 = false →
          ∃ t, exec .preEmpt s = .next t ∧ Saving s t g ∧ t.pm.wd = rest))) ∧
    ((∀ n, s.pm.op ≠ some (.preempt n)) → exec .saveComplete s = .next s) ∧
    (∀ g, s.pm.op = some (.preempt g.id) → s.gang? g.id = some g →
      (g.saveTicket ≠ none ∨ s.changing = true ∨
          (∃ p ∈ s.holders g, (s.core p).settled = false ∨ s.stalled p = true ∨ (s.bay (bayOf p)).fused = true) →
        exec .saveComplete s = .next s) ∧
      (∀ base (a : CoreId → Nat → Nat), g.saving = some base → g.saveTicket = none → SequencerFree s →
        (∀ p ∈ s.holders g, MaySave s p ∧ AreaAt s base (placeLidx (s.core p).place) .write (a p)) →
        Apart s (s.holders g) a → (s.holders g).Nodup → Canonical s →
        ∃ t e, exec .saveComplete s = .next t ∧ t.launch.pre = s.launch.pre ++ [e] ∧ e.base = base ∧
          e.gang = { g with saving := none, saveTicket := none } ∧ e.saved.map (·.1) = s.holders g ∧
          (∀ x ∈ e.saved, x.2 = { s.core x.1 with frzAt := x.2.frzAt, frzPast := x.2.frzPast }) ∧
          t.launch.gangs = s.launch.gangs.filter (fun x => x.id != g.id) ∧ t.pm.op = none ∧ t.pm.done = true ∧
          (∀ p ∈ s.holders g, Gone t p ∧
            (∀ o, o < 0x200000 → t.rawByte (a p (0xA8 + o / 4096) + o % 4096) = (s.core p).scratch.get o) ∧
            ∀ k : Ctx, ∀ j, j < 8 →
              t.rawByte (a p ((0x40 + 0x500 * k.idx.val) / 4096) + ((0x40 + 0x500 * k.idx.val) % 4096 + j)) =
                ((s.ctx p k).pc >>> (8 * j)).setWidth 8) ∧
          ∀ b, (∀ p ∈ s.holders g, ∀ n x, n < 0x2A8 → x < 4096 → s.key b ≠ s.key (a p n + x)) → t.rawByte b = s.rawByte b) ∧
      (∀ p rest base cause va, s.holders g = p :: rest → g.saving = some base → g.saveTicket = none → SequencerFree s →
        (∀ q ∈ s.holders g, MaySave s q) → va = base + BitVec.ofNat 64 (0x2A8000 * placeLidx (s.core p).place) →
        s.translateSup va .write = .error (.page cause) →
        ∃ t x h, exec .saveComplete s = .next t ∧ SequencerParked s t 0x08 va x ∧
          t.gang? g.id = some h ∧ h.saveTicket = x.ticket)) ∧
    (s.pm.op = none → s.pm.req ≠ 3 → exec .kill s = .next s) ∧
    (s.pm.op = none → s.pm.req = 3 →
      (NoneNamed s → exec .kill s = .next (failedOp s 1)) ∧
      (∀ g, Named s g → Quiet s g → Canonical s → s.changing = false → ∃ t, exec .kill s = .next t ∧ (∀ p ∈ s.holders g, Gone t p) ∧
        t.launch.gangs = s.launch.gangs.filter (fun x => x.id != g.id) ∧ t.pm.done = true ∧ t.pm.op = none ∧ t.pm.req = 0 ∧
        Posted s t g.statusa g.donectr 0x15))

/-- R322, R325: RESTORE takes the table's entry at PMSAVE. RESTORE_PLACEMENT refuses an entry of which a snapshot is not of
version 1.0, and parks on a page fault in a header; else it waits for as many eligible cores as NCORES says, then gives
each saved core's area to the core that has its logical index: its contexts stand at their saved pc, its scratchpad holds
the saved bytes, its L1 and TLB are empty; the gang runs again and the entry is free. Of several headers the one of the
lowest logical index gives NCORES, the model's choice (log 20). -/
def Sys2Proof.Claims.GangsRestored : Prop :=
  ∀ (s : State),
    (s.pm.op = none → s.pm.req ≠ 2 → exec .restore s = .next s) ∧
    (s.pm.op = none → s.pm.req = 2 →
      ((∀ e ∈ s.launch.pre, e.base ≠ s.pm.save &&& ~~~0xFFF) → exec .restore s = .next (failedOp s 1)) ∧
      (∀ e, s.launch.pre.find? (fun x => x.base == s.pm.save &&& ~~~0xFFF) = some e →
        exec .restore s = .next (s.modPm fun x => { x with req := 0, op := some (.restore e.base) }))) ∧
    ((∀ a, s.pm.op ≠ some (.restore a)) → exec .restorePlacement s = .next s) ∧
    (∀ e, s.pm.op = some (.restore e.base) → s.launch.pre.find? (fun x => x.base == e.base) = some e →
      (e.ticket ≠ none ∨ s.changing = true → exec .restorePlacement s = .next s) ∧
      (e.ticket = none → SequencerFree s →
        (∀ x rest cause, e.saved = x :: rest → s.translateSup (areaOf e x) .read = .error (.page cause) →
          ∃ t r d, exec .restorePlacement s = .next t ∧ SequencerParked s t 0x07 (areaOf e x) r ∧
            t.launch.pre.find? (fun y => y.base == e.base) = some d ∧ d = { e with ticket := r.ticket }) ∧
        ∀ (hdr : CoreId × Core → List Byte) (y : CoreId × Core) (n : Nat),
          (∀ x ∈ e.saved, s.supBytes (areaOf e x) 64 = some (hdr x)) →
          (e.saved.map fun x => placeLidx x.2.place).Nodup → (e.saved.map (·.1)).Nodup →
          y ∈ e.saved → (∀ x ∈ e.saved, placeLidx y.2.place ≤ placeLidx x.2.place) → n = half (hdr y) 0x14 →
          ((∃ x ∈ e.saved, half (hdr x) 0 ≠ 0x0100 ∨ n ≤ placeLidx x.2.place) →
            exec .restorePlacement s = .next (s.modPm fun z => { z with op := none, err := true, ecode := 3 })) ∧
          ((∀ x ∈ e.saved, half (hdr x) 0 = 0x0100 ∧ placeLidx x.2.place < n) →
            (search s.eligible n = none → exec .restorePlacement s = .next s) ∧
            ∀ cs (a : CoreId → Nat → Nat), search s.eligible n = some cs →
              (∀ x ∈ e.saved, AreaAt s e.base (placeLidx x.2.place) .read (a x.1)) →
              (∀ x ∈ e.saved, x.2.tickets = [] ∧ ∀ f ∈ x.2.flights, f.isCe = false) → e.replies = [] →
              (∀ b, ∀ h ∈ (s.bent b).held, h.pkt.gang ≠ e.gang.id) →
              ∃ t g, exec .restorePlacement s = .next t ∧ t.launch.gangs = s.launch.gangs ++ [g] ∧ g.id = e.gang.id ∧
                g.cores = cs ∧ g.reca = e.gang.reca ∧ t.launch.pre = s.launch.pre.filter (fun x => x.base != e.base) ∧
                t.pm.op = none ∧ t.pm.done = true ∧ t.mem = s.mem ∧ (t.lq g.lq).wdStart = s.nanos ∧
                ∀ x ∈ e.saved, ∀ q, cs[placeLidx x.2.place]? = some q →
                  (∀ k, (t.ctx q k).pc = areaWord s (a x.1) (0x40 + 0x500 * k.idx.val) ∧
                    (t.ctx q k).status = areaWord s (a x.1) (0x48 + 0x500 * k.idx.val)) ∧
                  (∀ o, o < 0x200000 → (t.core q).scratch.get o = areaByte s (a x.1) (0xA8000 + o)) ∧
                  (t.core q).l1 = [] ∧ (t.core q).tlb = [] ∧ (t.core q).mon = [] ∧ (t.core q).fuse = false ∧
                  (t.core q).place = x.2.place)))

/-- Gangs are saved, killed and restored (R320–R322). -/
def Obligations.GangsMoved : Prop := Sys2Proof.Claims.GangsSaved ∧ Sys2Proof.Claims.GangsRestored

namespace Sys2Proof.Claims

open Sys2Proof.Machine

/-! ### Invalidation and the module's registers -/

/-- A register after a write of `v`: `bits` take the value, reserved bits stay. -/
def tookBits (old v bits : Word) : Word := (old &&& ~~~bits) ||| (v &&& bits)

/-- A TRINV value names a page that a TLB entry overlaps, or every page (R107). -/
def Names (v : Word) (x : TlbEntry) : Prop :=
  v.getLsbD 4 = true ∨
    (v.toNat % 2 ^ 52 / 2 ^ pageLog (v.toNat % 16) = x.va.toNat / 2 ^ pageLog x.size / 2 ^ (pageLog (v.toNat % 16) - pageLog x.size) ∧
      pageLog x.size ≤ pageLog (v.toNat % 16)) ∨
    (x.va.toNat / 2 ^ pageLog x.size = v.toNat % 2 ^ 52 / 2 ^ pageLog (v.toNat % 16) / 2 ^ (pageLog x.size - pageLog (v.toNat % 16)) ∧
      pageLog (v.toNat % 16) ≤ pageLog x.size)

/-- Of all TLBs exactly the entries that `v` names have gone, and nothing else has changed. -/
structure Invalidated (s t : State) (v : Word) : Prop where
  module : t = { s with cores := t.cores, bents := t.bents }
  cores : ∀ p, t.core p = { s.core p with tlb := (t.core p).tlb } ∧
    ∀ x, x ∈ (t.core p).tlb ↔ x ∈ (s.core p).tlb ∧ ¬ Names v x
  bents : ∀ b, t.bent b = { s.bent b with tlb := (t.bent b).tlb } ∧
    ∀ x, x ∈ (t.bent b).tlb ↔ x ∈ (s.bent b).tlb ∧ ¬ Names v x

/-- The queue of translation invalidations. -/
def withInv (s : State) (l : List Word) : State := { s with trans := { s.trans with inv := l } }

/-- A core has no access, combining entry, chunk, vector or command under way. -/
def IdleCore (c : Core) : Prop :=
  (∀ k, (c.getCtx k).pend = []) ∧ c.comb = [] ∧ c.flights = [] ∧ c.chunks = [] ∧
    ∀ q : Fin 8, ∀ e ∈ vget c.ve.oq q.val, e.val ≠ none

/-- No core, and none as a pre-empted gang's save holds it, has anything under way, and no controller a command whose core
has left. -/
def AllIdle (s : State) : Prop :=
  (∀ p, IdleCore (s.core p)) ∧ (∀ e ∈ s.launch.pre, ∀ x ∈ e.saved, IdleCore x.2) ∧
  ∀ b, ∀ k : Fin 2, ∀ f ∈ (vget (s.bent b).ctl k.val).cmds, f.orphan = false

/-- An instruction-cache line that an ICINV value names. -/
def named (v : Word) (x : L1Line) : Bool := v.getLsbD 0 || x.line == v.toNat % 2 ^ 56 / 128 * 128

/-- The conditions of R109 under which a bay's L1 fuses. -/
def Fusible (s : State) (y : Fin 64) : Prop :=
  (s.bay y).fused = false ∧ (∃ g, ∀ q, q.val / 4 = y.val → (s.core q).place.map (·.gang) = some g) ∧
    ∀ q, q.val / 4 = y.val → (s.core q).fuse = true ∧ (s.core q).saving = false

/-- An access of the bay's cores to device memory is outstanding (R110). -/
def L1Used (s : State) (y : Fin 64) : Prop :=
  ∃ q k i l x, q.val / 4 = y.val ∧ i ∈ (s.ctx q k).pend ∧ i.loc? = some (l, x) ∧ s.isDev l = true

/-! ### Registers -/

/-- The device registers that software writes and reads back whole: byte offset, log2 of the width in bytes, the bits that
take the value (R41, R313, R320, R353, R358, R359, R54, R376, R388). -/
def plainReg (o : Nat) : Option (Fin 4 × Word) :=
  let w64 : Option (Fin 4 × Word) := some (3, BitVec.allOnes 64)
  let w32 : Option (Fin 4 × Word) := some (2, 0xFFFFFFFF)
  if 0x10000 ≤ o ∧ o < 0x11000 then
    (if o % 64 = 0 then w64
     else if o % 64 ∈ [0x08, 0x0C, 0x14, 0x18, 0x1C, 0x20] then w32 else none)
  else if 0x1000000 ≤ o ∧ o < 0x3000000 then (if o % 0x200000 = 0 then some (2, 0x3FF) else none)
  else if 0x3002000 ≤ o ∧ o < 0x3003000 then (if o % 4 = 0 then some (2, 0x3FFFF) else none)
  else if o ∈ [0x4000, 0x5000, 0x5008, 0x7000, 0x7018, 0x7020] then w64
  else if o ∈ [0x4008, 0x400C, 0x7008, 0x7028] then w32
  else if o = 0x3000008 then some (3, 0x1FFF0000000)
  else if o = 0x3000020 then some (2, 0x3FF)
  else none

/-- Registers whose writes are ignored: LQHEAD, FEATLVL, FLTTAIL, FLTSTAT, PMCNT, RDY, TRTAIL, TRSTAT, HLSTAT, ERRCE, ERRUE. -/
def readOnly (o : Nat) : Bool :=
  (decide (0x10000 ≤ o ∧ o < 0x11000) && o % 64 == 0x10) || [0x3100, 0x4010, 0x4014, 0x5018, 0x6000, 0x7010, 0x702C, 0x3000000].contains o ||
    (decide (0x1000000 ≤ o ∧ o < 0x3000000) && (o % 0x200000 == 0x100 || o % 0x200000 == 0x108))

/-- The control-page offset of number `n` of context `k` of a core (R32, R177). -/
def pageAt (p : CoreId) (k : Ctx) (n : Nat) : BitVec 26 :=
  BitVec.ofNat 26 (0x1000000 + p.val / 16 * 0x200000 + 0x100000 + p.val % 16 * 0x8000 + 0x80 * k.idx.val + 8 * n)

/-- A controller of a bent changed. -/
def onCtl (s : State) (b : BentId) (k : Fin 2) (f : Ctl → Ctl) : State :=
  s.modBent b fun x => { x with ctl := vmod x.ctl k.val f }

/-- FRCTL's check (R114): the value written, with its region's other registers, gives no region. -/
def BadRegion (c : Ctl) (stack r : Nat) (x : FmtReg) : Prop :=
  x.fmt ∈ [2, 3, 4, 9, 14, 15] ∨ x.ctl.extractLsb' 8 2 ≠ 0 ∨ (x.plane = false ∧ (x.fmt = 5 ∨ x.fmt = 8)) ∨
  x.vbase / 2 ^ 21 ≠ (x.vbase + 128 * x.allRows - 1) / 2 ^ 21 ∨ x.vbase / 2 ^ 21 % 32 ≠ stack ∨
  devSize ≤ x.vbase + 128 * x.allRows - 1 ∨
  ∃ j, j < 16 ∧ j ≠ r ∧ (vget c.fr j).en = true ∧ x.vbase < (vget c.fr j).vbase + 128 * (vget c.fr j).allRows ∧
    (vget c.fr j).vbase < x.vbase + 128 * x.allRows

/-- A region change is in progress at another controller. -/
def Elsewhere (s : State) (b : BentId) (k : Fin 2) : Prop :=
  ∃ (j : BentId) (l : Fin 2), (j ≠ b ∨ l ≠ k) ∧ (vget (s.bent j).ctl l.val).chg ≠ none

/-- The LLC holds no line of a region's view. -/
def NoneOf (t : State) (x : FmtReg) : Prop := ∀ l ∈ t.llc, l.line + 128 ≤ x.vbase ∨ x.vbase + 128 * x.allRows ≤ l.line

end Sys2Proof.Claims

open Sys2Proof Sys2Proof.Machine Sys2Proof.Claims

/-- R106, R107, R109, R110, R241, R354: TRINV drops every TLB entry its page overlaps, or queues behind the one in progress,
which ends once no access that may have used an entry is outstanding, of a pre-empted gang's saved command too (SIZE 10 to 15
is taken as 9, log 52); TRROOT acts as a TRINV of all; ICINV drops its line from every instruction cache; VTCTL clears the
table-store tag, a running VRUN's when it finishes; a bay fuses when all its cores of one gang ask for it, its L1s emptied,
and one that is to separate does so: either waits until no access of the bay's cores to device memory is outstanding, the
model's reading of R110's L1 accesses (log 19). -/
def Sys2Proof.Claims.Invalidations : Prop :=
  ∀ (s : State),
    (∀ v, (s.trans.inv = [] → ∃ u, Invalidated s u v ∧ exec (.trinv v) s = .next (withInv u [v])) ∧
      (s.trans.inv ≠ [] → exec (.trinv v) s = .next (withInv s (s.trans.inv ++ [v])))) ∧
    (s.trans.inv = [] → exec .trinvComplete s = .next s) ∧
    (∀ v, AllIdle s → s.trans.inv = [v] → exec .trinvComplete s = .next (withInv s [])) ∧
    (∀ v w rest, AllIdle s → s.trans.inv = v :: w :: rest →
      ∃ u, Invalidated s u w ∧ exec .trinvComplete s = .next (withInv u (w :: rest))) ∧
    (∀ v rest p k i va l n x, s.trans.inv = v :: rest → i ∈ (s.ctx p k).pend → i.kind = .load va l n x → v.getLsbD 4 = true →
      exec .trinvComplete s = .next s) ∧
    (∀ v rest e x f h c, s.trans.inv = v :: rest → e ∈ s.launch.pre → x ∈ e.saved → f ∈ x.2.flights → f.finished = false →
      decodeCmd f.words = some (.fqry h c) → c.ctr ≠ 0 → v.getLsbD 4 = true → exec .trinvComplete s = .next s) ∧
    (∀ v, s.trans.inv ≠ [] → exec (.trroot v) s = .next { s with
      trans := { root := tookBits s.trans.root v 0x00FFFFFFFFFF0001, inv := s.trans.inv ++ [0x10] } }) ∧
    (∀ v, s.trans.inv = [] → ∃ u, Invalidated s u 0x10 ∧ exec (.trroot v) s = .next { u with
      trans := { root := tookBits s.trans.root v 0x00FFFFFFFFFF0001, inv := [0x10] } }) ∧
    (∀ v, exec (.icinv v) s = .next { s with trace := { s.trace with icinv := s.trace.icinv ++ [v] } }) ∧
    (s.trace.icinv = [] → exec .icbusyClear s = .next s) ∧
    (∀ v rest, s.trace.icinv = v :: rest → ∃ t, exec .icbusyClear s = .next t ∧ t.trace.icinv = rest ∧ SameBytes s t ∧
      (∀ p, (t.core p).icache = (s.core p).icache.filter fun x => !named v x) ∧
      (∀ b, (t.bent b).icache = (s.bent b).icache.filter fun x => !named v x) ∧
      (v.getLsbD 1 = false → ∀ p, t.ve p = s.ve p) ∧
      (v.getLsbD 1 = true → v.getLsbD 0 = true → ∀ p, (s.ve p).tag ≠ none →
        ((s.ve p).run = none → (t.ve p).tag = none) ∧ ((s.ve p).run ≠ none → (t.ve p).invPend = true))) ∧
    (∀ p v, (v.getLsbD 0 = false → exec (.vtctlInv p v) s = .next s) ∧
      (v.getLsbD 0 = true → (s.ve p).run = none → exec (.vtctlInv p v) s = .next (onVe s p fun u => { u with tag := none })) ∧
      (v.getLsbD 0 = true → (s.ve p).run ≠ none →
        exec (.vtctlInv p v) s = .next (onVe s p fun u => { u with invPend := true }))) ∧
    (∀ y, ((s.bay y).unfusing = false → ¬ Fusible s y ∨ L1Used s y → exec (.l1Fusion y) s = .next s) ∧
      ((s.bay y).unfusing = false → Fusible s y → ¬ L1Used s y → ∃ t, exec (.l1Fusion y) s = .next t ∧ (t.bay y).fused = true ∧ SameBytes s t ∧
        ∀ p, t.core p = if p.val / 4 = y.val then { s.core p with l1 := [] } else s.core p) ∧
      ((s.bay y).unfusing = true → L1Used s y → exec (.l1Fusion y) s = .next s) ∧
      ((s.bay y).unfusing = true → ¬ L1Used s y → ∃ t, exec (.l1Fusion y) s = .next t ∧
        t.bay y = { s.bay y with fused := false, unfusing := false } ∧ SameBytes s t ∧
        ∀ p, t.core p = if p.val / 4 = y.val then { s.core p with l1 := [] } else s.core p))

/-- R112, R114, R294, R297, R371: a write to a format region's register takes its bits, drops the LLC's lines of the old and
the new view, and an FRCTL that makes no region disables it with ERR; FWCC takes the new region and sets CHG; once the
controller holds no command the lines whose form changes leave the LLC, the region applies and CHG clears, and with no other
change in progress what the scheduler owes is written; HPBASE and HPSIZE take their bits with the pool's lines dropped. -/
def Sys2Proof.Claims.RegionWrites : Prop :=
  ∀ (s : State) (b : BentId) (k : Fin 2),
    (∀ (r : Fin 16) (v : Word) (old x : FmtReg), old = vget (vget (s.bent b).ctl k.val).fr r.val →
      (x = { old with view := tookBits old.view v 0x00FFFFFFFFFFFF80 } → ∃ t, exec (.formatRegionWrite b k r 0 v) s = .next t ∧
        t = onCtl { s with llc := t.llc } b k (fun c => { c with fr := vset c.fr r.val x }) ∧ NoneOf t old ∧ NoneOf t x) ∧
      (x = { old with src := tookBits old.src v 0x00FFFFFFFFFFFFE0 } → ∃ t, exec (.formatRegionWrite b k r 1 v) s = .next t ∧
        t = onCtl { s with llc := t.llc } b k (fun c => { c with fr := vset c.fr r.val x }) ∧ NoneOf t old) ∧
      (x = { old with scl := v } → ∃ t, exec (.formatRegionWrite b k r 2 v) s = .next t ∧
        t = onCtl { s with llc := t.llc } b k (fun c => { c with fr := vset c.fr r.val x }) ∧ NoneOf t old) ∧
      (x = { old with ctl := tookBits old.ctl v 0xFFFC03F9 &&& ~~~2 } → ∃ t y, exec (.formatRegionWrite b k r 3 v) s = .next t ∧
        t = onCtl { s with llc := t.llc } b k (fun c => { c with fr := vset c.fr r.val y }) ∧ NoneOf t old ∧ NoneOf t x ∧
        (BadRegion (vget (s.bent b).ctl k.val) (2 * b.val + k.val) r.val x → y = { x with ctl := (x.ctl &&& ~~~1) ||| 2 }) ∧
        (¬ BadRegion (vget (s.bent b).ctl k.val) (2 * b.val + k.val) r.val x → y = x))) ∧
    (∀ v w, w = (v &&& 0xFFFF) ||| (if 192 < v.toNat % 256 + v.toNat / 256 % 256 then 0x10000 else 0) →
      exec (.fwcc b k v) s = .next (onCtl s b k fun c => { c with chg := some w })) ∧
    (∀ c, c = vget (s.bent b).ctl k.val →
      (c.chg = none ∨ c.cmds ≠ [] → exec (.regionChange b k) s = .next s) ∧
      (∀ w a d code, c.chg = some w → c.cmds = [] → ¬ Elsewhere s b k → s.launch.owed = [.outcome a d code] → Canonical s →
        ∃ t u, exec (.regionChange b k) s = .next t ∧ t = withStores u t ∧ Posted u t a d code ∧
          u = onCtl { s with llc := u.llc, launch := { s.launch with owed := [] } } b k
            (fun z => { z with fwcc := w, chg := none })) ∧
      ∀ w, c.chg = some w → c.cmds = [] → s.launch.owed = [] ∨ Elsewhere s b k → ∃ t, exec (.regionChange b k) s = .next t ∧
        t = onCtl { s with llc := t.llc } b k (fun z => { z with fwcc := w, chg := none }) ∧
        ∀ x, x ∈ t.llc ↔ x ∈ s.llc ∧ ¬ (stackOf x.line = 2 * b.val + k.val ∧
          inRegion c.fwcc (framePos x.line) ≠ inRegion w (framePos x.line))) ∧
    (∀ v, exec (.hostPoolWrite false v) s = .next { s with links := { s.links with pool := [], hpbase := tookBits s.links.hpbase v 0xFFFFFFFE00000 } } ∧
      exec (.hostPoolWrite true v) s = .next { s with links := { s.links with pool := [], hpsize := tookBits s.links.hpsize v 0x1FFFFE00000 } })

/-- Invalidation, and the regions and pool the LLC serves (R106–R114, R241, R294–R297, R354, R371). -/
def Obligations.ViewsChange : Prop := Sys2Proof.Claims.Invalidations ∧ Sys2Proof.Claims.RegionWrites

/-- R4, R5, R32, R41, R42, R54, R177, R313, R320, R353, R358, R376: a register write takes the bits of a plain register, which then
read back, with the others zero, and changes no core and no memory; a read-only register ignores it; a W1C bit written 1
clears; a context's trap registers take the value. -/
def Obligations.RegisterWrites : Prop :=
  ∀ (s : State),
    (∀ (o : BitVec 26) (n : Fin 4) (bits v : Word), plainReg o.toNat = some (n, bits) →
      BitVec.ofNat 64 (s.ctlRead o.toNat (2 ^ n.val)) &&& ~~~bits = 0 →
      ∃ t, exec (.registerWrite o n v) s = .next t ∧ t.ctlRead o.toNat (2 ^ n.val) = (v &&& bits).toNat ∧
        t.cores = s.cores ∧ t.mem = s.mem) ∧
    (∀ (o : BitVec 26) (v : Word), readOnly o.toNat = true → exec (.registerWrite o 2 v) s = .next s) ∧
    (∀ (q : BitVec 6) (v : Word), exec (.registerWrite (BitVec.ofNat 26 (0x10024 + 64 * q.toNat)) 2 v) s =
      .next (s.modLq q fun x => { x with stat := x.stat &&& ~~~(v.setWidth 32 &&& 0x3C) })) ∧
    (∀ p k v, exec (.registerWrite (pageAt p k 0) 3 v) s =
        .next (s.modCtx p k fun x => { x with status := tookBits x.status v 0x1E }) ∧
      exec (.registerWrite (pageAt p k 1) 3 v) s = .next (s.modCtx p k fun x => { x with tvec := v }) ∧
      exec (.registerWrite (pageAt p k 2) 3 v) s = .next (s.modCtx p k fun x => { x with tepc := v }) ∧
      exec (.registerWrite (pageAt p k 3) 3 v) s =
        .next (s.modCtx p k fun x => { x with tcause := tookBits x.tcause v 0xFF00FF }) ∧
      exec (.registerWrite (pageAt p k 4) 3 v) s = .next (s.modCtx p k fun x => { x with tval := v }) ∧
      exec (.registerWrite (pageAt p k 5) 3 v) s = .next (s.modCtx p k fun x => { x with tscr := v }) ∧
      exec (.registerWrite (pageAt p k 6) 3 v) s = .next (s.modCtx p k fun x => { x with tword := v }))

namespace Sys2Proof.Claims

open Sys2Proof.Machine

/-! ### Clocks, sensors and the trace -/

/-- The clock unit changed. -/
def onClock (s : State) (f : Clock → Clock) : State := { s with clock := f s.clock }

/-- The target of R384. -/
def targetOf (c : Clock) : BitVec 2 :=
  if c.emergency then 3 else if c.lock then c.op else if c.req.toNat < c.cap.toNat then c.cap else c.req

/-- One point slower, 3 the slowest. -/
def slowerBy1 (x : BitVec 2) : BitVec 2 := if x = 3 then 3 else x + 1

/-- Reading `i` of a sensor word, in eighths of a degree (R386). -/
def eighths (w : Word) (i : Nat) : Int := signedLow 16 (w >>> (16 * i))

/-- The readings of a sample as they stand in the registers. -/
def columnWord (r : Readings) (i : Nat) : W32 := r.cols.getD i 0
def stackWord (r : Readings) (i : Nat) : Word := r.stks.getD i 0

/-- Some column reads at least `col` degrees, or some stack at least `stk`. -/
def Reaches (r : Readings) (col stk : Int) : Prop :=
  (∃ i j, i < 272 ∧ j < 2 ∧ 8 * col ≤ eighths ((columnWord r i).setWidth 64) j) ∨
    ∃ i j, i < 32 ∧ j < 4 ∧ 8 * stk ≤ eighths (stackWord r i) j

/-- Every sensor reads at most so much. -/
def Below (r : Readings) (col stk : Int) : Prop :=
  (∀ i j, i < 272 → j < 2 → eighths ((columnWord r i).setWidth 64) j ≤ 8 * col) ∧
    ∀ i j, i < 32 → j < 4 → eighths (stackWord r i) j ≤ 8 * stk

/-- A bent's current has stood above 1,000 A for 100 µs. -/
def OverLong (s : State) (b : BentId) : Prop := ∃ t, (s.bent b).overAmps = some t ∧ t + 100000 ≤ s.nanos

/-- The state warned: CAP one step slower than CUR, where no warning was on. -/
def warned (s : State) : State :=
  if s.clock.warn.isSome then s else onClock s fun c => { c with cap := slowerBy1 c.cur, warn := some s.nanos }

/-- The trace ring with one record more, of the words `ws`. -/
structure TracePut (s t : State) (ws : List Word) : Prop where
  module : t = { withStores s t with trace := { s.trace with tail := s.trace.tail + 1 } }
  bytes : Stored s { s with mem := t.mem } 0
    (.phys (s.trace.base.toNat / 64 * 64 + 64 * (s.trace.tail.toNat % s.trace.size.toNat))) (ws.flatMap fun w => bytesOfNat w.toNat 8)

/-- The trace ring has room, at a place that takes a record, and no region change holds it. -/
def RingTakes (s : State) : Prop :=
  s.trace.tail - s.trace.head ≠ s.trace.size ∧ s.changing = false ∧
    ∃ a, a = s.trace.base.toNat / 64 * 64 + 64 * (s.trace.tail.toNat % s.trace.size.toNat) ∧ s.ringAt a = true ∧
      s.inView (.phys a) = false

/-- A SESSION record: type 5, its sub-code, the session, no core; CYCLE; TRLOST (R360, R361). -/
def sessionRecord (sub session cycle : Nat) (lost : Word) : List Word :=
  [BitVec.ofNat 64 (5 + sub * 2 ^ 8 + session * 2 ^ 16 + 0xFF * 2 ^ 32), BitVec.ofNat 64 cycle, lost, 0, 0, 0, 0, 0]

/-- The trace control with its low four bits. -/
def trctl (session : Nat) (low : W32) : W32 := BitVec.ofNat 32 (session % 2 ^ 16 * 2 ^ 16 + low.toNat % 16)

/-- The number of the session. -/
def sessionOf (s : State) : Nat := s.trace.ctl.toNat / 2 ^ 16

end Sys2Proof.Claims

open Sys2Proof Sys2Proof.Machine Sys2Proof.Claims

/-- R363, R384, R385, R387: OPPT and CLKLOCK take their fields; a change toward a target other than CUR starts once 1 ms has
passed, or at once in an emergency, discards every open window, and ends 16 µs later with CUR at the target; each core's time
without freezes stands meanwhile. Its trace records are not stated here. -/
def Sys2Proof.Claims.ClockChanges : Prop :=
  ∀ (s : State), s.trace.ctl.getLsbD 0 = false →
    (∀ v, exec (.opptRequest v) s = .next (onClock s fun c => { c with req := v.extractLsb' 8 2 })) ∧
    (∀ v, s.clock.emergency = false → exec (.clklockLock v) s = .next (onClock s fun c =>
      { c with lock := true, op := v.extractLsb' 0 2, broken := c.broken && !v.getLsbD 5 })) ∧
    (∀ v, s.clock.emergency = true → exec (.clklockLock v) s = .next (onClock s fun c =>
      { c with lock := false, op := v.extractLsb' 0 2, broken := true })) ∧
    (∀ v, exec (.clklockUnlock v) s = .next (onClock s fun c =>
      { c with lock := false, op := v.extractLsb' 0 2, broken := c.broken && !v.getLsbD 5 })) ∧
    (s.clock.busy = none → targetOf s.clock ≠ s.clock.cur →
      (s.clock.emergency = true ∨ (∀ t, s.clock.lastEnd = some t → t + 1000000 ≤ s.nanos)) →
      ∃ u, exec .operatingPointChange s = .next u ∧
        u = { onClock s (fun c => { c with busy := some (targetOf s.clock, s.nanos + 16000) }) with cores := u.cores } ∧
        ∀ p, u.live p = s.live p ∧
          u.core p = { s.core p with plumb := (u.core p).plumb, frzAt := (u.core p).frzAt, frzPast := (u.core p).frzPast } ∧
          ∀ n, u.sym p n = { s.sym p n with wmax := 0, cnt := 0, full := false, lowcnt := 0 }) ∧
    (s.clock.busy ≠ none ∨ targetOf s.clock = s.clock.cur ∨
        (s.clock.emergency = false ∧ ∃ t, s.clock.lastEnd = some t ∧ s.nanos < t + 1000000) →
      exec .operatingPointChange s = .next s) ∧
    (∀ x e, s.clock.busy = some (x, e) →
      (s.nanos < e → exec .operatingPointChangeEnd s = .next s) ∧
      (e ≤ s.nanos → ∃ t, exec .operatingPointChangeEnd s = .next t ∧
        t = { onClock s (fun c => { c with cur := x, busy := none, lastEnd := some s.nanos }) with cores := t.cores } ∧
        ∀ p, t.core p = { s.core p with frzAt := (t.core p).frzAt, frzPast := (t.core p).frzPast } ∧
          ((∀ a, (s.core p).frzAt = some a → a ≤ s.cycle) → t.live p = s.live p)))

/-- R386, R387: a sample every 20 µs takes every reading; at its warning threshold CAP becomes one step slower than CUR, at
the emergency threshold an emergency starts and breaks a lock, at the trip threshold the module switches off. CAP steps once
more after each further 1 ms of warning and relaxes after 10 ms 5 °C below it; an emergency ends after 10 ms 10 °C below. -/
def Sys2Proof.Claims.ThermalLevels : Prop :=
  ∀ (s : State), s.trace.ctl.getLsbD 0 = false →
    (∀ r t, s.clock.lastSample = some t → s.nanos < t + 20000 → exec (.sensorSample r) s = .next s) ∧
    (∀ r, (∀ t, s.clock.lastSample = some t → t + 20000 ≤ s.nanos) → ∃ u, exec (.sensorSample r) s = .next u ∧
      u = { s with clock := u.clock, bents := u.bents } ∧
      (∀ i, i < 272 → vget u.clock.tscol i = columnWord r i) ∧ (∀ i, i < 32 → vget u.clock.tsstk i = stackWord r i) ∧
      u.clock.lastSample = some s.nanos ∧ u.clock.cur = s.clock.cur ∧ u.clock.busy = s.clock.busy ∧
      (∀ b x, x = (if 1000 < r.amps.getD b.val 0 then some ((s.bent b).overAmps.getD s.nanos) else none) →
        u.bent b = { s.bent b with overAmps := x }) ∧
      (Reaches r 120 105 → u.clock.tripped = true) ∧
      (¬ Reaches r 120 105 → u.clock.tripped = s.clock.tripped ∧
        (Reaches r 110 100 → u.clock.emergency = true ∧ u.clock.lock = false ∧ (s.clock.lock = true → u.clock.broken = true)) ∧
        (¬ Reaches r 110 100 → u.clock.emergency = s.clock.emergency ∧ u.clock.lock = s.clock.lock) ∧
        (Reaches r 100 95 → (s.clock.warn = none → u.clock.cap = slowerBy1 s.clock.cur ∧ u.clock.warn = some s.nanos) ∧
          (s.clock.warn ≠ none → u.clock.cap = s.clock.cap ∧ u.clock.warn = s.clock.warn)) ∧
        (¬ Reaches r 100 95 → (∀ b, ¬ OverLong u b) → u.clock.cap = s.clock.cap ∧ u.clock.warn = none) ∧
        (Below r 95 90 → u.clock.coolSince = some (s.clock.coolSince.getD s.nanos)) ∧
        (¬ Below r 95 90 → u.clock.coolSince = none) ∧
        (Below r 100 90 → u.clock.coldSince = some (s.clock.coldSince.getD s.nanos)) ∧
        (¬ Below r 100 90 → u.clock.coldSince = none))) ∧
    (∀ t, s.clock.warn = some t →
      (s.nanos < t + 1000000 → exec .capStep s = .next s) ∧
      (t + 1000000 ≤ s.nanos → (∃ b, OverLong s b) ∨ s.clock.anyHot 100 95 = true → exec .capStep s = .next (onClock s fun c =>
        { c with cap := slowerBy1 c.cap, warn := some s.nanos }))) ∧
    (s.clock.warn = none → exec .capStep s = .next s) ∧
    (s.clock.coolSince = none → exec .capRelax s = .next s) ∧
    (∀ t, s.clock.coolSince = some t →
      (s.nanos < t + 10000000 → exec .capRelax s = .next s) ∧
      (t + 10000000 ≤ s.nanos → exec .capRelax s = .next (onClock s fun c =>
        { c with cap := if c.cap = 0 then 0 else c.cap - 1, coolSince := some s.nanos }))) ∧
    (∀ b, (OverLong s b → exec (.currentLimit b) s = .next (warned s)) ∧
      (¬ OverLong s b → exec (.currentLimit b) s = .next s)) ∧
    (s.clock.coldSince = none ∨ s.clock.emergency = false → exec .emergencyEnd s = .next s) ∧
    (∀ t, s.clock.coldSince = some t → s.clock.emergency = true →
      (s.nanos < t + 10000000 → exec .emergencyEnd s = .next s) ∧
      (t + 10000000 ≤ s.nanos → exec .emergencyEnd s = .next (onClock s fun c => { c with emergency := false })))

/-- Operating points and heat (R363, R384–R387). -/
def Obligations.ClocksFollow : Prop := Sys2Proof.Claims.ClockChanges ∧ Sys2Proof.Claims.ThermalLevels

/-- R352, R357–R361: TRCTL with EN from 0 to 1 opens a session, one number higher with TRLOST 0 and a SESSION record; from 1
to 0 closes it with another, every buffer written out first; a bent's buffer is written 10 µs after its oldest record; a
record that finds the ring full is dropped and counted. A counter of a timed event moves by a free amount (log 5), not during
a freeze but for event 0x01, and sets OVF where it wraps; VEGO releases a held VE and clears its request; that it
leaves the request of a VE not held is log 16's reading. -/
def Obligations.TracesAndCounters : Prop :=
  ∀ (s : State),
    (∀ v, s.changing = true → exec (.traceSessionOpen v) s = .next s ∧ exec (.traceSessionClose v) s = .next s) ∧
    (∀ v, s.trace.ctl.getLsbD 0 = false → s.trace.on = true → RingTakes s → Canonical s →
      ∃ t u, exec (.traceSessionOpen v) s = .next t ∧
        u = { s with trace := { s.trace with lost := 0, ctl := trctl (sessionOf s + 1) (v ||| 1) } } ∧
        TracePut u t (sessionRecord 0 ((sessionOf s + 1) % 2 ^ 16) s.cycle 0)) ∧
    (∀ v, s.trace.ctl.getLsbD 0 = true → s.changing = false → exec (.traceSessionOpen v) s =
      .next { s with trace := { s.trace with ctl := trctl (sessionOf s) (v ||| 1) } }) ∧
    (∀ v, s.trace.ctl.getLsbD 0 = true → s.trace.on = true → RingTakes s → Canonical s →
      (∀ b, (s.bent b).trace = []) →
      ∃ t u, exec (.traceSessionClose v) s = .next t ∧ TracePut s u (sessionRecord 1 (sessionOf s) s.cycle s.trace.lost) ∧
        t = { u with trace := { u.trace with ctl := trctl (sessionOf s) (v &&& ~~~1) } }) ∧
    (∀ v, s.trace.ctl.getLsbD 0 = false → s.changing = false → exec (.traceSessionClose v) s =
      .next { s with trace := { s.trace with ctl := trctl (sessionOf s) (v &&& ~~~1) } }) ∧
    (∀ b, s.trace.rst = none →
      ((s.bent b).trace = [] ∨ s.changing = true → exec (.traceFlush b) s = .next s) ∧
      (∀ r rest, (s.bent b).trace = r :: rest → s.nanos < r.born + 10000 → exec (.traceFlush b) s = .next s) ∧
      (∀ r, (s.bent b).trace = [r] → r.born + 10000 ≤ s.nanos → RingTakes s → r.words.length = 8 → Canonical s →
        ∃ u, TracePut s u r.words ∧ exec (.traceFlush b) s = .next (u.modBent b fun x => { x with trace := [] })) ∧
      (∀ r, (s.bent b).trace = [r] → r.born + 10000 ≤ s.nanos → s.trace.tail - s.trace.head = s.trace.size →
        s.changing = false →
        exec (.traceFlush b) s = .next (({ s with trace := { s.trace with lost := s.trace.lost + 1 } } : State).modBent b
          fun x => { x with trace := [] }))) ∧
    (∀ p (n : BitVec 4) c, c = (s.core p).dbg.code n.toNat →
      (c ∉ [0x01, 0x05, 0x07, 0x0A, 0x0F] ∨ (c ≠ 0x01 ∧ s.stalled p = true) → exec (.pmctrWrap p n) s = .next s) ∧
      (c ∈ [0x01, 0x05, 0x07, 0x0A, 0x0F] → (c = 0x01 ∨ s.stalled p = false) → ∃ k t, exec (.pmctrWrap p n) s = .next t ∧
        t = s.modCore p (fun x => { x with dbg := (t.core p).dbg }) ∧
        vget (t.core p).dbg.pmctr n.toNat = vget (s.core p).dbg.pmctr n.toNat + BitVec.ofNat 64 k ∧
        (∀ j, j < 16 → j ≠ n.toNat → vget (t.core p).dbg.pmctr j = vget (s.core p).dbg.pmctr j) ∧
        ((t.core p).dbg.pmctl.getLsbD n.toNat = true ↔
          (s.core p).dbg.pmctl.getLsbD n.toNat = true ∨ 2 ^ 64 ≤ (vget (s.core p).dbg.pmctr n.toNat).toNat + k))) ∧
    (∀ p v, (s.ve p).held = true → exec (.veRelease p v) s = .next (s.modCore p fun c =>
        { c with dbg := { c.dbg with dbgctl := tookBits c.dbg.dbgctl v 0x107 &&& ~~~0x100 },
                 ve := { c.ve with held := false, installed := true } })) ∧
    (∀ p v, (s.ve p).held = false → exec (.veRelease p v) s = .next (s.modCore p fun c =>
        { c with dbg := { c.dbg with dbgctl := tookBits c.dbg.dbgctl v 0x107 } }))

namespace Sys2Proof.Claims

open Sys2Proof.Machine

/-! ### Bring-up, tests and repair -/

/-- The readiness unit changed. -/
def onReady (s : State) (f : Ready → Ready) : State := { s with ready := f s.ready }

/-- An image that the Sill ROM accepts (R381): format, ECDSA, LMS, and a version the fuses allow for its kind. -/
def Accepted (link : Bool) (img : List Byte) : Prop :=
  Config.fwFormat img = true ∧ Config.fwEcdsa img = true ∧ Config.fwLms img = true ∧ Config.fusedSvn link ≤ Config.fwSvn img

/-- The lowest-numbered check that an image fails. -/
inductive FirstFailed (link : Bool) (img : List Byte) : Nat → Prop
  | format : Config.fwFormat img = false → FirstFailed link img 1
  | ecdsa : Config.fwFormat img = true → Config.fwEcdsa img = false → FirstFailed link img 2
  | lms : Config.fwFormat img = true → Config.fwEcdsa img = true → Config.fwLms img = false → FirstFailed link img 3
  | svn : Config.fwFormat img = true → Config.fwEcdsa img = true → Config.fwLms img = true →
      Config.fwSvn img < Config.fusedSvn link → FirstFailed link img 4

/-- What BOOTERR reports of a refused slot. -/
def SlotFails (bent link : List Byte) (e : Nat) : Prop := FirstFailed false bent e ∨ (Accepted false bent ∧ FirstFailed true link e)

/-- Nanoseconds since bent `b`'s turn at T_F + 2 ms × b have reached `d`. -/
def TurnPassed (s : State) (b : BentId) (d : Nat) : Prop := ∃ t, s.ready.tf = some t ∧ t + 2000000 * b.val + d ≤ s.nanos

/-- Bent `b` may power up: its turn has come, and the bent below it did so 2 ms ago or more (R377). -/
def PowerTurn (s : State) (b : BentId) : Prop :=
  TurnPassed s b 0 ∧ (s.bent b).powered = false ∧
    ∀ c : BentId, c.val + 1 = b.val → (s.bent c).powered = true ∧ (s.bent c).poweredAt + 2000000 ≤ s.nanos

/-- Both stacks of a bent have trained. -/
def Trained (s : State) (b : BentId) : Prop :=
  s.stackReady (2 * b.val) = true ∧ s.stackReady (2 * b.val + 1) = true

/-- A valid repair entry of a row (R388). -/
def repairOf (arr : BitVec 3) (site row : Nat) : Word := BitVec.ofNat 64 (2 ^ 63 + arr.toNat * 2 ^ 60 + site * 2 ^ 55 + row)

/-- No repair entry of a bent is in use, and no spare drawn. -/
def Unrepaired (s : State) (b : BentId) : Prop :=
  (∀ e, e < 64 → (vget (s.bent b).rep e).getLsbD 63 = false) ∧ (s.bent b).drawn = []

/-- The bit of a core in RDYCORE. -/
def coreReady (s : State) (p : CoreId) : Bool := (vget s.ready.core (p.val / 64)).getLsbD (p.val % 64)

/-- SITEMAP's fields: the failed sites, the site that site 16 replaces, the fence (R388). -/
def mapWord (failed spareFor : Nat) (fenced : Bool) : Word :=
  BitVec.ofNat 64 (failed + spareFor * 2 ^ 17 + fenced.toNat * 2 ^ 22)

/-- A march test of bent `b` that ends with no row to repair: only the map, the bits of its cores and its own change. -/
structure Tested (s t : State) (b : BentId) (map : Word) (works : Bool) : Prop where
  module : t = { s with bents := t.bents, ready := t.ready }
  bents : ∀ c, t.bent c = if c = b then
    { s.bent b with sitemap := map ||| ((s.bent b).sitemap &&& 0x800000), marched := true } else s.bent c
  ready : t.ready = { s.ready with rdy := t.ready.rdy, und := s.ready.und ||| BitVec.twoPow 32 b.val, core := t.ready.core }
  bent : t.ready.rdy = if works then setBit s.ready.rdy b.val true else s.ready.rdy
  cores : ∀ p, coreReady t p = if bentOf p = b then works else coreReady s p

/-- REPe's fields of a value, and its rows (R388). -/
def repArray (v : Word) : Nat := v.toNat / 2 ^ 60 % 8
def repSite (v : Word) : Nat := v.toNat / 2 ^ 55 % 32
def repRow (v : Word) : Nat := v.toNat % 2 ^ 18
def rowsOf (arr : Nat) : Nat := if arr = 0 then 0x200000 / 128 else if arr = 1 then 0x100000 / 128 else if arr = 2 then 0x1C00000 / 128 else 0x400000 / 128

/-- REPe stored. -/
def repaired (s : State) (b : BentId) (e : BitVec 6) (v : Word) (ds : List (BitVec 5 × BitVec 3)) : State :=
  s.modBent b fun x => { x with rep := vset x.rep e.toNat (tookBits (vget x.rep e.toNat) v 0xFF8000000003FFFF), drawn := ds }

/-- Spares drawn of an array of a site. -/
def drawnOf (s : State) (b : BentId) (v : Word) : Nat :=
  ((s.bent b).drawn.filter fun x => x.1.toNat == repSite v && x.2.toNat == repArray v).length

/-- A REP write names a row of a site on which a free core stands, and a spare remains (R388). -/
structure Draws (s : State) (b : BentId) (v : Word) (p : CoreId) : Prop where
  valid : v.getLsbD 63 = true
  site : bentOf p = b ∧ s.siteOf p = repSite v ∧ ∀ q, bentOf q = b → s.siteOf q = repSite v → q = p
  row : repSite v < 17 ∧ repRow v < rowsOf (repArray v)
  spare : (s.core p).place = none ∧ drawnOf s b v < 32

end Sys2Proof.Claims

open Sys2Proof Sys2Proof.Machine Sys2Proof.Claims

/-- R6, R15, R377–R382: a cold reset gives every field its reset value; power-good measures the ROM and the fuses; the slot
whose two images pass every check runs, slot A before slot B, and is measured, else BOOTERR names the first failed check;
each bent powers up, 2 ms or more after the one below it, its stacks train and its march test ends on its turn, which
repairs a failing row, maps the bent, enables its cores, or fences it. The order of the fused bytes in measurement 2 is the
model's (log 21). -/
def Obligations.BringUp : Prop :=
  ∀ (s : State),
    exec .coldReset s = .next { State.reset with
      sched := { State.reset.sched with inputs := s.sched.inputs, tick := s.sched.tick } } ∧
    (s.ready.powerGood = true → exec .powerGood s = .next s) ∧
    (s.ready.powerGood = false → exec .powerGood s = .next (onReady s fun r =>
      { r with powerGood := true, meas := [(1, sha384 Config.romImage), (2, sha384 fusedBytes)] })) ∧
    (∀ f, (s.ready.powerGood = false ∨ s.ready.tf ≠ none ∨ s.ready.rdy.extractLsb' 52 4 ≠ 0 →
        exec (.firmwareVerify f) s = .next s) ∧
      (s.ready.powerGood = true → s.ready.tf = none → s.ready.rdy.extractLsb' 52 4 = 0 →
        (Accepted false f.bentA → Accepted true f.linkA → exec (.firmwareVerify f) s = .next (onReady s fun r =>
          { r with rdy := setBit (setBit r.rdy 51 false) 50 true, tf := some s.nanos,
                   meas := r.meas ++ [(3, sha384 f.bentA), (4, sha384 f.linkA)] })) ∧
        (¬ (Accepted false f.bentA ∧ Accepted true f.linkA) → Accepted false f.bentB → Accepted true f.linkB →
          exec (.firmwareVerify f) s = .next (onReady s fun r =>
            { r with rdy := setBit (setBit r.rdy 51 true) 50 true, tf := some s.nanos,
                     meas := r.meas ++ [(3, sha384 f.bentB), (4, sha384 f.linkB)] })) ∧
        (∀ e, ¬ (Accepted false f.bentA ∧ Accepted true f.linkA) → SlotFails f.bentB f.linkB e →
          exec (.firmwareVerify f) s = .next (onReady s fun r => { r with rdy := r.rdy ||| BitVec.ofNat 64 (e * 2 ^ 52) })))) ∧
    (∀ b, (PowerTurn s b → exec (.bentPowerUp b) s =
        .next (s.modBent b fun x => { x with powered := true, poweredAt := s.nanos })) ∧
      (¬ PowerTurn s b → exec (.bentPowerUp b) s = .next s)) ∧
    (∀ b, ((s.bent b).powered = true → TurnPassed s b 4000000 → exec (.stackTrainingEnd b) s = .next (onReady s fun r =>
        { r with rdy := setBit (setBit r.rdy (16 + 2 * b.val) true) (17 + 2 * b.val) true })) ∧
      ((s.bent b).powered = false ∨ ¬ TurnPassed s b 4000000 → exec (.stackTrainingEnd b) s = .next s)) ∧
    (∀ b r, ((s.bent b).powered = false ∨ (s.bent b).marched = true ∨ ¬ TurnPassed s b 12000000 ∨ ¬ Trained s b →
        exec (.marchTestEnd b r) s = .next s) ∧
      ((s.bent b).powered = true → (s.bent b).marched = false → TurnPassed s b 12000000 → Trained s b → r.rows = [] →
        (r.logic = 0 → ∃ t, exec (.marchTestEnd b r) s = .next t ∧ Tested s t b (mapWord 0 0x1F false) true) ∧
        (∀ n, n < 16 → r.logic = BitVec.twoPow 17 n →
          ∃ t, exec (.marchTestEnd b r) s = .next t ∧ Tested s t b (mapWord (2 ^ n) n false) true) ∧
        (r.logic = BitVec.twoPow 17 16 →
          ∃ t, exec (.marchTestEnd b r) s = .next t ∧ Tested s t b (mapWord (2 ^ 16) 0x1F false) true) ∧
        ((∃ m n, m < n ∧ n < 17 ∧ r.logic.getLsbD m = true ∧ r.logic.getLsbD n = true) → (s.bent b).held = [] →
          ∃ t, exec (.marchTestEnd b r) s = .next t ∧ Tested s t b (mapWord r.logic.toNat 0x1F true) false)) ∧
      (∀ arr (site : BitVec 5) row, (s.bent b).powered = true → (s.bent b).marched = false → TurnPassed s b 12000000 →
        Trained s b → r.rows = [(arr, site, row)] → r.logic = 0 → site.toNat < 17 → Unrepaired s b →
        ∃ t, exec (.marchTestEnd b r) s = .next t ∧ vget (t.bent b).rep 0 = repairOf arr site.toNat row.toNat ∧
          (t.bent b).drawn = [(site, arr)] ∧ (t.bent b).sitemap = mapWord 0 0x1F false ||| ((s.bent b).sitemap &&& 0x800000) ∧
          ∀ q, bentOf q = b → coreReady t q = true))

/-- R388, R389: a REP write of VALID = 1 draws a spare, or is refused with REPERR; a core's reset ends its gang with KILLED,
clears its bit and tests it, after which it serves again with nothing in it, a newly failing row repaired, or is fenced. What
a replaced row holds, and which line stood in a row of an L1 or an LLC, is free (log 11). -/
def Obligations.RepairAndReset : Prop :=
  ∀ (s : State),
    (∀ b e v, v.getLsbD 63 = false → exec (.repairEntry b e v) s = .next (repaired s b e v (s.bent b).drawn)) ∧
    (∀ b e v, v.getLsbD 63 = true →
      ((∃ p, bentOf p = b ∧ s.siteOf p = repSite v ∧ (s.core p).place ≠ none) ∨ 32 ≤ drawnOf s b v ∨ 4 ≤ repArray v ∨
          17 ≤ repSite v ∨ rowsOf (repArray v) ≤ repRow v →
        exec (.repairEntry b e v) s = .next (s.modBent b fun x => { x with sitemap := setBit x.sitemap 23 true }))) ∧
    (∀ b e v p, Draws s b v p → repArray v = 0 → (s.core p).scratch.wf = true →
      ∃ t, exec (.repairEntry b e v) s = .next t ∧
        t = (repaired s b e v ((BitVec.ofNat 5 (repSite v), 0) :: (s.bent b).drawn)).modCore p
          (fun c => { c with scratch := (t.core p).scratch }) ∧
        ∀ o, o < 128 * repRow v ∨ 128 * repRow v + 128 ≤ o → (t.core p).scratch.get o = (s.core p).scratch.get o) ∧
    (∀ b e v p, Draws s b v p → repArray v = 1 → ∃ t, exec (.repairEntry b e v) s = .next t ∧
      t = (repaired s b e v ((BitVec.ofNat 5 (repSite v), 1) :: (s.bent b).drawn)).modCore p
        (fun c => { c with l1 := (t.core p).l1 }) ∧
      (t.core p).l1.map (fun x => x.line) = (s.core p).l1.map (fun x => x.line) ∧
      ∃ n, ∀ i : Nat, i ≠ n → (t.core p).l1[i]? = (s.core p).l1[i]?) ∧
    (∀ b e v p a, Draws s b v p → repArray v = 2 → s.mem.wf = true →
      a = underBase + 0x20000000 * b.val + 0x1C00000 * (p.val % 16) + 128 * repRow v → ∃ t, exec (.repairEntry b e v) s = .next t ∧
        t = { repaired s b e v ((BitVec.ofNat 5 (repSite v), 2) :: (s.bent b).drawn) with mem := t.mem } ∧
        ∀ k, (∀ j < 128, k ≠ s.key (a + j)) → t.mem.get k = s.mem.get k) ∧
    (∀ b e v p a, Draws s b v p → repArray v = 3 → s.mem.wf = true → a = Config.repairedLine s.sched.tick / 128 * 128 →
      ∃ t, exec (.repairEntry b e v) s = .next t ∧
        t = { repaired s b e v ((BitVec.ofNat 5 (repSite v), 3) :: (s.bent b).drawn) with mem := t.mem, llc := t.llc } ∧
        (∀ x, x ∈ t.llc ↔ x ∈ s.llc ∧ ¬ (stackOf x.line / 2 = b.val ∧ x.line / 128 % 16 = p.val % 16)) ∧
        ∀ k, (∀ j < 128, k ≠ s.key (a + j)) → t.mem.get k = s.mem.get k) ∧
    (∀ b e v, v.getLsbD 63 = true → repArray v < 4 → repSite v < 17 → repRow v < rowsOf (repArray v) → drawnOf s b v < 32 →
      (∀ q, bentOf q = b → s.siteOf q ≠ repSite v) → exec (.repairEntry b e v) s =
        .next (repaired s b e v ((BitVec.ofNat 5 (repSite v), BitVec.ofNat 3 (repArray v)) :: (s.bent b).drawn))) ∧
    (∀ b, exec (.coreReset b 0) s = .next s) ∧
    (∀ b (j : Fin 16) p, p.val = 16 * b.val + j.val → (s.core p).place = none →
      ∃ t, exec (.coreReset b (BitVec.twoPow 32 (16 + j.val))) s = .next t ∧ coreReady t p = false ∧
        (∀ q, q ≠ p → coreReady t q = coreReady s q ∧ t.core q = s.core q) ∧
        t = { s with cores := t.cores, ready := { s.ready with core := t.ready.core } } ∧
        t.core p = { s.core p with testing := true }) ∧
    (∀ b (j : Fin 16) p g, p.val = 16 * b.val + j.val → s.changing = false → s.gangOf p = some g → Quiet s g → Canonical s →
      ∃ t, exec (.coreReset b (BitVec.twoPow 32 (16 + j.val))) s = .next t ∧ coreReady t p = false ∧
        (t.core p).testing = true ∧ (∀ q ∈ s.holders g, Gone t q) ∧
        t.launch.gangs = s.launch.gangs.filter (fun y => y.id != g.id) ∧ Posted s t g.statusa g.donectr 0x15) ∧
    (∀ p r, (s.core p).testing = false → exec (.coreMarchTest p r) s = .next s) ∧
    (∀ p, (s.core p).testing = true →
      (bentFenced (s.bent (bentOf p)).sitemap = false → ∃ t z, exec (.coreMarchTest p ⟨true, []⟩) s = .next t ∧
        t = { (s.modCore p fun _ => { ({} : Core) with seq := (s.core p).seq, chunks := (s.core p).chunks, frzAt := z }) with
          ready := { s.ready with core := t.ready.core } } ∧
        ∀ q, coreReady t q = (q == p || coreReady s q)) ∧
      (∃ z, exec (.coreMarchTest p ⟨false, []⟩) s = .next (s.modCore p fun _ =>
        { ({} : Core) with seq := (s.core p).seq, chunks := (s.core p).chunks, fenced := true, frzAt := z })) ∧
      ∀ arr row, Unrepaired s (bentOf p) → bentFenced (s.bent (bentOf p)).sitemap = false →
        ∃ t, exec (.coreMarchTest p ⟨true, [(arr, row)]⟩) s = .next t ∧ coreReady t p = true ∧ (t.core p).fenced = false ∧
          vget (t.bent (bentOf p)).rep 0 = repairOf arr (s.siteOf p) row.toNat ∧
          (t.bent (bentOf p)).drawn = [(BitVec.ofNat 5 (s.siteOf p), arr)])

namespace Sys2Proof.Claims

open Sys2Proof.Machine

/-! ### Links, host, peers, SPDM -/

/-- The link block changed. -/
def onLinks (s : State) (f : Links → Links) : State := { s with links := f s.links }

/-- A host request's completion. -/
def completed (s : State) (c : Completion) : State := onLinks s fun l => { l with hostOut := l.hostOut ++ [c] }

/-- An offset made a multiple of the size of the access. -/
def lowered (o n : Nat) : Nat := o / n * n

/-- The BAR2/3 size, a power of two from 256 MiB to 2 TiB that the host sets (R367). -/
def barBytes (s : State) : Nat := 2 ^ (28 + min 13 s.links.barLog)

/-- The device-memory offset that a BAR2/3 offset names: DMWBASE without the bits below the BAR size, and the offset in the
BAR (R367, R376). -/
def windowAt (s : State) (r : HostReq) : Nat :=
  lowered (s.links.dmwbase.toNat / barBytes s * barBytes s + r.off.toNat % barBytes s) (2 ^ r.n.val)

/-- No device memory there yet, or none at all (R367, R380). -/
def Absent (s : State) (a : Nat) : Prop := 0x18000000000 ≤ a ∨ s.stackReady (stackOf a) = false

/-- Not served: no device memory there, or a write into a format-region view (R113, R367). -/
def Unserved (s : State) (a : Nat) (wr : Bool) : Prop := Absent s a ∨ (wr = true ∧ s.inView (.phys a) = true)

/-- Byte offset in BAR0/1 of a request. -/
def regOff (r : HostReq) : Nat := lowered (r.off.toNat % 2 ^ 26) (2 ^ r.n.val)

/-- A region change holds the request: one to a frame that changes its form, or to the trace control (R297). -/
def HostHolds (s : State) (r : HostReq) : Prop :=
  match r.bar with
  | 0 => r.wr = true ∧ s.changing = true ∧ regOff r < 0x7018 ∧ 0x7014 < regOff r + 2 ^ r.n.val
  | 1 => ¬ Unserved s (windowAt s r) r.wr ∧ s.formHeld (.phys (windowAt s r)) = true
  | 2 => False

/-- A request is served now: its link is up, and neither it nor an earlier one of its link is held. -/
structure HostServed (s : State) (r : HostReq) : Prop where
  up : vget s.links.up r.link.val = true
  free : ¬ HostHolds s r
  first : ∀ x ∈ s.links.hostHeld, x.link ≠ r.link

/-- Only bytes change, what their writes note, and the replies. -/
def OnlyMemory (s t : State) : Prop :=
  t = { s with mem := t.mem, marks := t.marks,
               links := { s.links with hostOut := t.links.hostOut, peerOut := t.links.peerOut } }

/-- The state that a read from outside leaves: the line of a view that it reads stays in its LLC (R114), one with bad check
bits is noted (R319). -/
def seen (s : State) (a n : Nat) : State := (s.touchView a).meet none (.phys a) n

def scarfOf (s : State) (n : Fin 18) : Scarf := vget s.links.sc n.val
def onScarf (s : State) (n : Fin 18) (f : Scarf → Scarf) : State :=
  onLinks s fun l => { l with sc := vset l.sc n.val (f (scarfOf s n)) }

/-- A flit that is whole (R372), and its sequence number. -/
def Whole (flit : List Byte) : Prop :=
  flit.length = 256 ∧ Config.crc64 (flit.take 248) = BitVec.ofNat 64 (leOfBytes (flit.drop 248))
def flitNumber (flit : List Byte) : Nat := leOfBytes (flit.take 4) % 4096

def bump (x : BitVec w) : BitVec w := if x = BitVec.allOnes w then x else x + 1

/-- RESEND with more flits resent, saturating. -/
def resent (x : Scarf) (k : Nat) : Scarf := { x with resend := BitVec.ofNat 32 (min (2 ^ 32 - 1) (x.resend.toNat + k)) }

/-- An answer of the SPDM responder, whole. -/
def answers (s : State) (m : List Byte) : State := onLinks s fun l => { l with spdm := l.spdm ++ [m] }

/-- A measurement as its DMTF block (log 27). -/
def block (m : Nat × List Byte) : List Byte :=
  [BitVec.ofNat 8 m.1, 0x01] ++ bytesOfNat (m.2.length + 3) 2 ++ [if m.1 = 1 then 0 else if m.1 = 2 then 2 else 1] ++ bytesOfNat m.2.length 2 ++ m.2

/-- A peer answered. -/
def replied (s : State) (x : PeerReply) : State := onLinks s fun l => { l with peerOut := l.peerOut ++ [x] }

/-- A place of `n` bytes in a device memory that is there, which no region change holds, outside every view. -/
def PlainHome (s : State) (a n : Nat) : Prop :=
  ¬ Absent s a ∧ s.formHeld (.phys a) = false ∧ PlainAt s (.phys a) n ∧ Canonical s

/-- The place a peer's request names, whether it writes there, and the reply where it is not served: the Unsupported Request
that a host gets, all ones where a value is due (R367, R375). -/
def peerPlace (r : PeerReq) : Nat := lowered r.off.toNat (2 ^ r.n.val)
def peerWrites (r : PeerReq) : Bool :=
  match r.op with
  | .load | .confirm .. => false
  | _ => true
def peerConfirm (r : PeerReq) : Bool :=
  match r.op with
  | .confirm .. => true
  | _ => false
def peerUR (r : PeerReq) : PeerReply :=
  match r.op with
  | .load | .atomic .. => .unsupported (BitVec.ofNat 64 (2 ^ (8 * 2 ^ r.n.val) - 1))
  | _ => .unsupported 0

/-- A region change holds the request (R297). -/
def PeerHolds (s : State) (r : PeerReq) : Prop :=
  peerConfirm r = false ∧ ¬ Unserved s (peerPlace r) (peerWrites r) ∧ s.formHeld (.phys (peerPlace r)) = true

/-- An earlier request of the same device is held. -/
def PeerBehind (s : State) (r : PeerReq) : Prop := ∃ x ∈ s.links.peerHeld, x.dev = r.dev

/-- The chunk of a peer's RCPY, at its place. -/
def peerChunk (off : Nat) (pcore : Byte) (seq : W32) (fmt : BitVec 4) (rop : BitVec 3) (bs : List Byte) : Chunk :=
  ⟨pcore, seq, .phys off, fmt, rop, bs, 0, 0, true, false, 0⟩

end Sys2Proof.Claims

open Sys2Proof Sys2Proof.Machine Sys2Proof.Claims

/-- R366–R368, R371, R380: a host link trains in the mode of the one already up, and goes down; HLSTAT reports it; a host
access through each BAR is served at what it maps to, or completes as an Unsupported Request; one that a region change holds
waits, and with it the later ones of its link, and is served once nothing holds it (R297); a pool line that the host takes for
writing leaves the LLC and holds the host's bytes. The BAR2/3 size at reset, that the host sets it between accesses, and that
a link which trains comes up are the model's (log 14); how a pool line's bytes are kept is log 36's. -/
def Obligations.LinksServed : Prop :=
  ∀ (s : State),
    (∀ j c, (s.ready.powerGood = false → exec (.hostLinkTrained j c) s = .next s) ∧
      (s.ready.powerGood = true → exec (.hostLinkTrained j c) s = .next
        { s with
          links := { s.links with
            cxl := if vget s.links.up 0 = true ∨ vget s.links.up 1 = true then s.links.cxl else c
            up := vset s.links.up j.val true }
          ready := { s.ready with rdy := setBit s.ready.rdy (48 + j.val) true } }) ∧
      exec (.hostLinkDown j) s = .next (onLinks s fun l => { l with up := vset l.up j.val false })) ∧
    s.ctlRead 0x3000000 4 = 16 * s.links.cxl.toNat + 2 * (vget s.links.up 1).toNat + (vget s.links.up 0).toNat ∧
    (∀ log, s.setBar log = onLinks s (fun l => { l with barLog := min 13 log }) ∧
      barBytes (s.setBar log) = 2 ^ (28 + min 13 log)) ∧
    (∀ r : HostReq, (vget s.links.up r.link.val = false → exec (.hostAccess r) s = .next s) ∧
      (vget s.links.up r.link.val = true → HostHolds s r ∨ (∃ x ∈ s.links.hostHeld, x.link = r.link) →
        exec (.hostAccess r) s = .next (onLinks s fun l => { l with hostHeld := l.hostHeld ++ [r] })) ∧
      (HostServed s r → r.bar = 0 →
        (r.wr = true → ∃ t, exec (.registerWrite (BitVec.ofNat 26 (regOff r)) r.n r.v) s = .next t ∧
          exec (.hostAccess r) s = .next (completed t .written)) ∧
        (r.wr = false → exec (.hostAccess r) s = .next (completed s
          (.value (BitVec.ofNat 64 (s.ctlRead (regOff r) (2 ^ r.n.val))))))) ∧
      (HostServed s r → r.bar = 1 →
        (Unserved s (windowAt s r) r.wr → exec (.hostAccess r) s = .next (completed s (.unsupported
          (if r.wr = true then 0 else BitVec.ofNat 64 (2 ^ (8 * 2 ^ r.n.val) - 1))))) ∧
        (¬ Unserved s (windowAt s r) r.wr → r.wr = false → exec (.hostAccess r) s =
          .next (completed (seen s (windowAt s r) (2 ^ r.n.val)) (.value (BitVec.ofNat 64 (s.readPhys (windowAt s r) (2 ^ r.n.val)))))) ∧
        (PlainHome s (windowAt s r) (2 ^ r.n.val) →
          (r.wr = true → ∃ t, exec (.hostAccess r) s = .next t ∧ OnlyMemory s t ∧
            t.links.hostOut = s.links.hostOut ++ [.written] ∧ t.links.peerOut = s.links.peerOut ∧
            Stored s t 0 (.phys (windowAt s r)) (bytesOfNat r.v.toNat (2 ^ r.n.val))) ∧
          (r.wr = false → exec (.hostAccess r) s = .next (completed (seen s (windowAt s r) (2 ^ r.n.val))
            (.value (BitVec.ofNat 64 (leNat s.rawByte (windowAt s r) (2 ^ r.n.val)))))))) ∧
      (∀ q : BitVec 6, HostServed s r → r.bar = 2 → r.n = 2 → r.off.toNat % 2 ^ 18 = 4096 * q.toNat →
        (r.wr = true → ∃ t, exec (.registerWrite (BitVec.ofNat 26 (0x10014 + 0x40 * q.toNat)) 2 r.v) s = .next t ∧
          exec (.hostAccess r) s = .next (completed t .written)) ∧
        (r.wr = false → exec (.hostAccess r) s = .next (completed s
          (.value (BitVec.ofNat 64 (s.ctlRead (0x10014 + 0x40 * q.toNat) 4)))))) ∧
      (HostServed s r → r.bar = 2 → 8 ≤ r.off.toNat % 4096 →
        exec (.hostAccess r) s = .next (completed s (if r.wr = true then .written else .value 0)))) ∧
    (∀ r rest, s.links.hostHeld = r :: rest → HostHolds s r → (∀ x ∈ rest, x.link = r.link) → s.serveHost = s) ∧
    (∀ r, s.links.hostHeld = [r] → ¬ HostHolds s r → vget s.links.up r.link.val = true →
      exec (.hostAccess r) (onLinks s fun l => { l with hostHeld := [] }) = .next s.serveHost) ∧
    (∀ a, exec (.cxlCacheRequest a none) s = .next (onLinks s fun l => { l with
      pool := l.pool.map fun x => if x.line = lowered a.toNat 128 then { x with excl := false } else x })) ∧
    (∀ a bs, bs.length = 128 → lowered a.toNat 128 < 2 ^ 52 → Canonical s →
      ∃ t, exec (.cxlCacheRequest a (some bs)) s = .next t ∧
        t = onLinks { s with mem := t.mem, marks := t.marks } (fun l =>
          { l with pool := l.pool.filter fun x => decide (x.line ≠ lowered a.toNat 128) }) ∧
        Stored s t 0 (.phys (2 ^ 53 + lowered a.toNat 128)) bs)

/-- R383, with the message layout of log 27 (PRESUMED): while the responder can be reached each request is answered once:
version 1.3 alone; certificates, challenges and signed measurements as its capabilities; SHA-384 with ECDSA P-384 as its
algorithms; the digest of the certificate chain, a portion of it from slot 0, a challenge and the measurements
recorded so far, signed; a session request with UnsupportedRequest. -/
def Obligations.SpdmAnswered : Prop :=
  ∀ (s : State),
    (s.ready.powerGood = false ∨ (vget s.links.up 0 = false ∧ vget s.links.up 1 = false) →
      exec .getVersion s = .next s ∧ exec .getDigests s = .next s ∧
        ∀ r o l (x : BitVec 8), exec (.getCapabilities r) s = .next s ∧ exec (.negotiateAlgorithms r) s = .next s ∧
          exec (.getCertificate x o l) s = .next s ∧ exec (.challenge r) s = .next s ∧
          exec (.getMeasurements r) s = .next s ∧ exec (.sessionRequest r) s = .next s) ∧
    (s.ready.powerGood = true → vget s.links.up 0 = true ∨ vget s.links.up 1 = true →
      exec .getVersion s = .next (answers s [0x10, 0x04, 0, 0, 0, 1, 0x00, 0x13]) ∧
      exec .getDigests s = .next (answers s ([0x13, 0x01, 0, 1] ++ sha384 Config.certChain)) ∧
      (∃ (time : Byte) (sizes : W32 × W32), ∀ r, exec (.getCapabilities r) s = .next (answers s
          ([0x13, 0x61, 0, 0, 0, time, 0, 0, 0x16, 0, 0, 0] ++ bytesOfNat sizes.1.toNat 4 ++ bytesOfNat sizes.2.toNat 4))) ∧
      (∀ r, exec (.negotiateAlgorithms r) s = .next (answers s ([0x13, 0x63, 0, 0, 0x24, 0, 0x01, 0, 0x04, 0, 0, 0,
          0x80, 0, 0, 0, 0x02, 0, 0, 0] ++ List.replicate 16 0)) ∧
        exec (.sessionRequest r) s = .next (answers s [0x13, 0x7F, 0x07, 0])) ∧
      (∀ o n, o < Config.certChain.length → ∃ lens : List Byte, lens.length = 4 ∧
        exec (.getCertificate 0 o n) s =
          .next (answers s ([0x13, 0x02, 0, 0] ++ lens ++ (Config.certChain.drop o).take n))) ∧
      (∀ (x : BitVec 8) o n, x ≠ 0 ∨ Config.certChain.length ≤ o →
        exec (.getCertificate x o n) s = .next (answers s [0x13, 0x7F, 0x01, 0])) ∧
      (∀ r, ∃ m, m = [0x13, 0x03, 0, 1] ++ sha384 Config.certChain ∧
        exec (.challenge r) s = .next (answers s (m ++ Config.spdmSign (r ++ m)))) ∧
      (∀ r, ∃ m lens, m = [0x13, 0x60, 0, 0, BitVec.ofNat 8 s.ready.meas.length] ++ lens ++ (s.ready.meas.map block).flatten ∧
        lens.length = 3 ∧ exec (.getMeasurements r) s = .next (answers s (m ++ Config.spdmSign (r ++ m)))))

namespace Sys2Proof.Claims

open Sys2Proof.Machine

/-! ### The whole machine -/

/-- The inputs that remain once the first has been taken. -/
def fed (s : State) (rest : List Turn) : State := { s with sched := { s.sched with inputs := rest } }

/-- The context issues, its core held by nothing (R36, R67, R110). -/
structure MayIssue (s : State) (p : CoreId) (k : Ctx) : Prop where
  run : (s.ctx p k).run = .issuing
  free : s.stalled p = false ∧ s.halted p = false ∧ (s.core p).fenced = false ∧ s.fuseHeld (bayOf p) = false
  room : s.faultRoom (bentOf p) = true

/-- A word that is a BRK (R194). -/
def IsBrk (w : W32) : Prop := ∃ sb n, decodeScalar w = some (.brk sb n)

/-- What a word does: its instruction's meaning, or ILLEGAL_OP where it is none. -/
def does (w : W32) (s : State) : Host.Outcome State Fault Refusal :=
  match decodeScalar w with
  | some i => exec i s
  | none => .next (s.trapNow 0x01 0 0)

/-- The word at the context's pc, and the state once it has been fetched. -/
def Fetched (s : State) (p : CoreId) (k : Ctx) (w : W32) (u : State) : Prop :=
  ∃ l, s.fetchAt p k = .ok l ∧ s.formHeld l = false ∧ (s.note p (s.ctx p k).pc).fetchWord p l = (w, u)

/-- No stop and no sample is asked for at the word, or it is no safe point (R133, R351). -/
def Unasked (u : State) (p : CoreId) (k : Ctx) (w : W32) : Prop :=
  w.getLsbD 31 = false ∨ ((u.core p).dbg.dbgctl.getLsbD k.idx.val = false ∧ (u.core p).dbg.sample = 0)

/-- The state in which a word of a context, or a command of an endpoint, acts. -/
def asContext (s : State) (p : CoreId) (k : Ctx) (w : W32) : State :=
  { s with sched := { s.sched with core := p, ctx := k, word := w } }
def asEngine (s : State) (p : CoreId) (e : Ep) : State := { s with sched := { s.sched with core := p, ep := e } }

/-- A command's endpoint has its turn, and nothing else of the core acts in it: of the CE the other queue is empty, and
either had the last start or stays empty (R210). -/
def HasTurn (s : State) (p : CoreId) (e : Ep) (i : Instr) : Prop :=
  (∀ f ∈ (s.core p).flights, f.waiting = false) ∧
  (e = .m ∨ e = .v ∨ ∃ o, (e = .l ∧ o = .s ∨ e = .s ∧ o = .l) ∧ s.head? p o = none ∧
    ((s.core p).offered = o ∨ ∀ t, exec i (asEngine s p e) = .next t →
      (t.core p).nextOrd ≠ (s.core p).nextOrd ∨ t.head? p o = none))

/-- The time that passes with a step (log 5). -/
def later (t : State) : State :=
  { t with sched := { t.sched with
      cycle := t.sched.cycle + Config.dCycle t.sched.tick, nanos := t.sched.nanos + Config.dNanos t.sched.tick,
      tick := t.sched.tick + 1 } }

/-- A step from `s` whose agent does `o`: lines with bad check bits that it read raise their errors (R319), then time
passes. -/
def stepOf (s : State) (o : Host.Outcome State Fault Refusal) : Host.Outcome State Fault Refusal :=
  match o with
  | .next t => .next (later (s.settleMet t))
  | .fault f => .fault f
  | .refused r => .refused r

/-- The error of a line with bad check bits that an agent has read: of a dirty LLC line, or of the DRAM it was written back
to (R319). -/
def lineError (s : State) (c : Option CoreId) (a : Nat) : UncorrErr :=
  { b := bentOfNat (stackOf a / 2), aux := if ∃ x ∈ s.llc, x.line = a ∧ x.dirty = true then 7 else 8,
    loc := BitVec.ofNat 64 a, clean := false, consumer := c }

/-- Numbers of issued items lie below the next to be given, in every context and combining buffer. -/
def AllNumbered (s : State) : Prop :=
  ∀ p, (∀ k, ∀ i ∈ (s.ctx p k).pend, i.id < (s.ctx p k).nextId) ∧ ∀ e ∈ (s.core p).comb, e.id < (s.core p).combNext

/-- `Ordered` of a saved core as well: a restore takes it up (R322). -/
def AllOrdered (s : State) : Prop :=
  Ordered s ∧ ∀ e ∈ s.launch.pre, ∀ x ∈ e.saved, (x.2.flights.map (·.ord) ++ [x.2.nextOrd]).Pairwise (· < ·)

/-- The capacities of R169, of saved cores as well. -/
def AllFit (s : State) : Prop := (∀ p, (s.core p).Fits) ∧ ∀ e ∈ s.launch.pre, ∀ x ∈ e.saved, x.2.Fits

/-- Registers whose reset value is not 0: byte offset, width, value (R54, R93, R345, R388). -/
def resetWords : List (Nat × Nat × Nat) :=
  [(0x3000, 8, 0x0008202001000102), (0x3010, 8, 0x0006202001000003), (0x3020, 8, 0x0007202001000003),
   (0x3030, 8, 0x0005202001000003), (0x3040, 8, 0x0000202001010000), (0x3100, 4, 0x00010100), (0x3108, 8, 0xFFF)]

/-- Registers of the device and link blocks that a table gives the reset value 0. -/
def zeroWords : List (Nat × Nat) :=
  [(0x2000, 8), (0x2008, 8), (0x2010, 4), (0x3110, 8), (0x3118, 8), (0x3120, 8), (0x4000, 8), (0x4008, 4), (0x400C, 4),
   (0x4010, 4), (0x4014, 4), (0x4018, 4), (0x5000, 8), (0x5008, 8), (0x5010, 4), (0x5018, 4), (0x7000, 8), (0x7008, 4),
   (0x700C, 4), (0x7010, 4), (0x7014, 4), (0x7018, 8), (0x702C, 4), (0x3000000, 4), (0x3000008, 8), (0x3000010, 8),
   (0x3000018, 8), (0x3000020, 4)]

end Sys2Proof.Claims

open Sys2Proof Sys2Proof.Machine Sys2Proof.Claims

/-- Words that the spec encodes in its examples (R127, R128, R135, R144), each the instruction it is written for. -/
def Obligations.WordsRead : Prop :=
  decodeScalar 0x0250C400 = some (.add ⟨false, 5, 1, true, 2, false⟩) ∧
  decodeScalar 0x1A430A04 = some (.ldz ⟨false, 4, 6, false, 2, 2, 4⟩) ∧
  decodeScalar 0x2BF180FA = some (.bne ⟨false, 3, false, 0, false, 0x1FFA⟩) ∧
  decodeScalar 0x25100009 = some (.rel ⟨false, .bay, 9⟩) ∧
  decodeScalar 0x41841200 = some (.epush ⟨false, .s, 8, false, 9, false⟩) ∧
  decodeCmd [0xE1F00000] = some (.cnop ⟨3, true, 3, 0, 0⟩) ∧
  decodeCmd [0xEC000000] = some (.cend ⟨0, false, 0, 0, 0⟩) ∧
  decodeOrder 0x0BFB2C00 = some (.time ⟨false, 0xFD, 2, 5, true⟩) ∧
  decodeOrder 0x022C0000 = some (.inj ⟨false, 1, 3, false⟩) ∧
  decodeOrder 0xA10C4B00 = some (.vadd ⟨true, 4, 3, 1, 2, 6, false, false, 0, false, false⟩)

/-- R127–R129, R131, R135, R139, R144, R145: every well-formed instruction that has words is read back from them, with
every operand; an event has none. -/
def Obligations.EncodeDecode : Prop :=
  ∀ i : Instr, i.wf = true →
    (wordKind i = .scalar → ∃ w, encode i = [w] ∧ decodeScalar w = some i) ∧
    (wordKind i = .command → decodeCmd (encode i) = some i) ∧
    (wordKind i = .order → ∃ w, encode i = [w] ∧ decodeOrder w = some i) ∧
    (wordKind i = .event → encode i = [])

/-- The other way: what a decoder reads is well formed and of its kind, and has no other words than those read. -/
def Obligations.DecodeEncode : Prop :=
  (∀ w i, decodeScalar w = some i → i.wf = true ∧ wordKind i = .scalar ∧ encode i = [w]) ∧
  (∀ ws i, decodeCmd ws = some i → i.wf = true ∧ wordKind i = .command ∧ encode i = ws) ∧
  (∀ w i, decodeOrder w = some i → i.wf = true ∧ wordKind i = .order ∧ encode i = [w])

/-- R131, R139, R194, R195: a step runs the decoded word, and one that is none traps ILLEGAL_OP: of a context, which fetches at
its pc from its scratchpad (log 13) or, where no instruction cache holds the line, from memory (R102, R104, R131), a fetch
that fails trapping; of an endpoint, whose queue's head passes R139; an event of the module's own units. A shadow word in
hand runs in place of the BRK that named it, and one that is itself a BRK is illegal; past a step-over a BRK of a valid
entry gives way to its shadow word, and any other word runs as it stands. Lines with bad check bits that an agent
has read raise their errors at the end of its turn (R319; log 19). Which agent acts is the model's free order (log 1),
and time passes by free amounts (log 5). -/
def Obligations.StepRuns : Prop :=
  ∀ (s : State) (rest : List Turn),
    (∀ p k u, s.sched.inputs = .context p k :: rest → s.clock.tripped = false → u = fed s rest → MayIssue u p k →
      (∀ w, (u.ctx p k).shadow = some w →
        (¬ IsBrk w → step s = stepOf u (does w (asContext u p k w))) ∧
        (IsBrk w → step s = stepOf u (.next ((asContext u p k w).trapNow 0x01 0 0)))) ∧
      (∀ code aux, (u.ctx p k).shadow = none → u.fetchAt p k = .error (code, aux) →
        (code = cHeld → step s = stepOf u (.next u)) ∧
        (code ≠ cHeld → step s = stepOf u (.next ((asContext (u.noteFail p (u.ctx p k).pc) p k 0).trapNow code aux (u.ctx p k).pc)))) ∧
      (∀ l, (u.ctx p k).shadow = none → u.fetchAt p k = .ok l → u.formHeld l = true → step s = stepOf u (.next u)) ∧
      (∀ w v, (u.ctx p k).shadow = none → Fetched u p k w v → Unasked v p k w →
        ((u.ctx p k).stepOver = false ∨ ¬ IsBrk w → step s = stepOf u (does w (asContext v p k w))) ∧
        (∀ sb n, (u.ctx p k).stepOver = true → decodeScalar w = some (.brk sb n) →
          ((vget s.bksh n.toNat).getLsbD 32 = false → step s = stepOf u (does w (asContext v p k w))) ∧
          ((vget s.bksh n.toNat).getLsbD 32 = true → ∀ x, x = (vget s.bksh n.toNat).setWidth 32 →
            (¬ IsBrk x → step s = stepOf u (does x (asContext v p k x))) ∧
            (IsBrk x → step s = stepOf u (.next ((asContext v p k x).trapNow 0x01 0 0))))))) ∧
    (∀ p o, s.fetchWord p (.spad o) = (BitVec.ofNat 32 (leNat (s.core p).scratch.get o 4), s)) ∧
    (∀ p a, s.ctlOff (.phys a) = none → a % 4 = 0 → findLine (s.core p).icache (a / 128 * 128) = none →
      findLine (s.bent (bentOf p)).icache (a / 128 * 128) = none →
      (s.fetchWord p (.phys a)).1 = BitVec.ofNat 32 (s.readPhys a 4)) ∧
    (∀ p e q i, s.sched.inputs = .engine p e :: rest → s.clock.tripped = false → s.stalled p = false →
      s.halted p = false → (s.core p).fenced = false → s.changing = false → HasTurn (fed s rest) p e i →
      s.head? p e = some q → q.ticket = none → headerCheck (headerOf q.words) { ep := e, x := false } = none →
      decodeCmd q.words = some i → step s = stepOf (fed s rest) (exec i (asEngine (fed s rest) p e))) ∧
    (∀ i, s.sched.inputs = .event i :: rest → s.clock.tripped = false → step s = stepOf (fed s rest) (exec i (fed s rest))) ∧
    (s.sched.inputs = .event .coldReset :: rest → step s = stepOf (fed s rest) (exec .coldReset (fed s rest))) ∧
    (∀ t, s.sched.inputs = t :: rest → t ≠ .event .coldReset → s.clock.tripped = true → step s = .fault .poweredOff) ∧
    (∀ n, s.sched.inputs = [] → Config.schedule s.sched.tick = 3 * n →
      step s = step (fed s [.context (coreOfNat n) (ctxOfNat (n / 256))])) ∧
    (∀ n, s.sched.inputs = [] → Config.schedule s.sched.tick = 3 * n + 1 →
      step s = step (fed s [.engine (coreOfNat n) (epOfNat (n / 256))])) ∧
    (∀ n, s.sched.inputs = [] → s.clock.tripped = false →
      (Config.schedule s.sched.tick = 3 * (53 * n + 50) + 2 → step s = stepOf s (.next (s.rowTurn (n % 32) (n / 32)))) ∧
      (Config.schedule s.sched.tick = 3 * (53 * n + 51) + 2 → step s = stepOf s (.next s.serveHost.servePeers))) ∧
    (∀ log, s.sched.inputs = .barSize log :: rest → s.clock.tripped = false →
      step s = stepOf (fed s rest) (.next ((fed s rest).setBar log))) ∧
    (∀ n first run, s.sched.inputs = .resendAsked n first run :: rest → s.clock.tripped = false →
      step s = stepOf (fed s rest) (.next ((fed s rest).resendAsked n first run))) ∧
    (∀ t : State, (t.marks.met = [] → s.settleMet t = t) ∧
      ∀ c a, t.marks.met = [(c, a)] →
        ((∀ p, c = some p → s.gangNo p = none) → s.settleMet t =
          ({ t with marks := { t.marks with met := [] } } : State).raiseError (lineError t c a)) ∧
        (∀ p, c = some p → s.gangNo p ≠ none → s.settleMet t =
          ({ s with marks := { s.marks with met := [] } } : State).raiseError (lineError s c a)))

/-- Reset: the registers of the device, of each bent and of the links at their tables' values (R41, R54, R93, R313, R320,
R345, R358, R376, R388), no context started (R48), no gang, nothing ready and every link down (R379). -/
def Obligations.ResetValues : Prop :=
  (∀ x ∈ resetWords, State.reset.ctlRead x.1 x.2.1 = x.2.2) ∧
  (∀ x ∈ zeroWords, State.reset.ctlRead x.1 x.2 = 0) ∧
  (∀ b : BentId, State.reset.ctlRead (0x1000000 + 0x200000 * b.val) 4 = 50 ∧
    State.reset.ctlRead (0x1000200 + 0x200000 * b.val) 8 = 0x3E0000 ∧
    State.reset.ctlRead (0x1000100 + 0x200000 * b.val) 8 = 0 ∧ State.reset.ctlRead (0x1000108 + 0x200000 * b.val) 8 = 0) ∧
  (∀ q : BitVec 6, ∀ o ∈ [0x08, 0x0C, 0x10, 0x14, 0x18, 0x1C, 0x20, 0x24],
    State.reset.ctlRead (0x10000 + 64 * q.toNat + o) 4 = 0) ∧
  (∀ p k, (State.reset.ctx p k).run = .notStarted ∧ (State.reset.core p).place = none ∧
    (State.reset.ctx p k).status = 0 ∧ (State.reset.ctx p k).tvec = 0) ∧
  State.reset.launch.gangs = [] ∧ State.reset.ready.rdy = 0 ∧ State.reset.links.up = #v[false, false] ∧
  (∀ p, coreReady State.reset p = false)

/-- At reset the memories are canonical (log 3), registers and channels hold what they can (R169), and the numbers of what
is issued rise (log 4). -/
def Obligations.ResetFits : Prop :=
  Canonical State.reset ∧ AllFit State.reset ∧ AllNumbered State.reset ∧ AllOrdered State.reset

/-- Every step keeps the memories in their canonical form (log 3). -/
def Obligations.StepsCanonical : Prop := ∀ s t : State, Canonical s → step s = .next t → Canonical t

/-- R169: no step leaves a queue register or a channel with more than four entries, or x0 with any. -/
def Obligations.QueuesFit : Prop := ∀ s t : State, AllFit s → step s = .next t → AllFit t

/-- The numbers by which the model names what is issued (log 4) stay below the next to be given, and those of started
commands rise: the premise of the statements on performing, on fences and on finishing. -/
def Obligations.NumbersRise : Prop :=
  ∀ s t : State, AllNumbered s → AllOrdered s → step s = .next t → AllNumbered t ∧ AllOrdered t

/-- R316, R372–R375: a Scarf flit is delivered in sequence, and any other is discarded and a resend asked for from the first
missing number; a link retrains after 8 failed resends of one flit in either direction and is down after 3 failed retrains; a
peer's request performs at the home and is answered, a chunk once; one that is not served gets the Unsupported Request of a
host's, and one that a region change holds waits, with the later ones of its device. How a flit shows that it is sent again,
the numbering of a peer's operations, the refusal of a chunk of no format, and that RESEND counts in both directions are the
model's (log 14). -/
def Obligations.PeersServed : Prop :=
  ∀ (s : State),
    (∀ n (flit : Flit) x b, x = resent (scarfOf s n) (if flit.resent = none then 0 else 1) → b = flit.bytes →
      ((scarfOf s n).up = false → exec (.scarfFlit n flit) s = .next s) ∧
      ((scarfOf s n).up = true → Whole b → flitNumber b = x.expect.toNat →
        exec (.scarfFlit n flit) s = .next (onLinks (onScarf s n fun _ => { x with
            expect := x.expect + 1, resends := 0,
            type := BitVec.ofNat 4 (leOfBytes (b.take 4) / 2 ^ 12), credits := BitVec.ofNat 16 (leOfBytes (b.take 4) / 2 ^ 16) })
          fun l => { l with rx := l.rx ++ [(b.drop 4).take 244] })) ∧
      ((scarfOf s n).up = true → ¬ (Whole b ∧ flitNumber b = x.expect.toNat) →
        exec (.scarfFlit n flit) s = .next (onLinks (onScarf s n fun _ => { x with
            resends := if flit.resent = some x.expect then x.resends + 1 else x.resends })
          fun l => { l with asks := l.asks ++ [(n, x.expect)] }))) ∧
    (∀ n first run, ((scarfOf s n).up = false → s.resendAsked n first run = s) ∧
      ((scarfOf s n).up = true → s.resendAsked n first run = onScarf s n fun x => { resent x (min run 512) with
        askedFrom := some first, sendFails := if x.askedFrom = some first then x.sendFails + 1 else 0 })) ∧
    (∀ n, ((scarfOf s n).up = true → (scarfOf s n).training = false →
        8 ≤ (scarfOf s n).resends ∨ 8 ≤ (scarfOf s n).sendFails →
        (scarfOf s n).failed < 3 → exec (.linkRetrain n) s = .next (onScarf s n fun x =>
          { x with training := true, resends := 0, sendFails := 0, askedFrom := none, retrain := bump x.retrain })) ∧
      ((scarfOf s n).up = false ∨ (scarfOf s n).training = true ∨
          ((scarfOf s n).resends < 8 ∧ (scarfOf s n).sendFails < 8) ∨ 3 ≤ (scarfOf s n).failed →
        exec (.linkRetrain n) s = .next s) ∧
      ((scarfOf s n).training = true →
        exec (.retrainEnd n true) s = .next (onScarf s n fun x => { x with up := true, training := false, failed := 0 }) ∧
        exec (.retrainEnd n false) s =
          .next (onScarf s n fun x => { x with training := false, resends := 8, failed := x.failed + 1 })) ∧
      ((scarfOf s n).training = false → (scarfOf s n).up = false → (scarfOf s n).failed = 0 →
        exec (.retrainEnd n true) s = .next (onScarf s n fun x => { x with up := true, training := false, failed := 0 }) ∧
        exec (.retrainEnd n false) s = .next s) ∧
      ((scarfOf s n).training = false → (scarfOf s n).up = true ∨ (scarfOf s n).failed ≠ 0 →
        ∀ good, exec (.retrainEnd n good) s = .next s) ∧
      (3 ≤ (scarfOf s n).failed → exec (.linkDown n) s = .next (onScarf s n fun x => { x with up := false, training := false })) ∧
      ((scarfOf s n).failed < 3 → exec (.linkDown n) s = .next s)) ∧
    (∀ r : PeerReq, (PeerHolds s r ∨ PeerBehind s r → exec (.peerRequest r) s =
        .next (onLinks s fun l => { l with peerHeld := l.peerHeld ++ [r] })) ∧
      (¬ PeerBehind s r → peerConfirm r = false → Unserved s (peerPlace r) (peerWrites r) →
        exec (.peerRequest r) s = .next (replied s (peerUR r))) ∧
      (¬ PeerBehind s r → r.op = .load → ¬ Unserved s (peerPlace r) false → s.formHeld (.phys (peerPlace r)) = false →
        exec (.peerRequest r) s = .next (replied ((s.meet none (.phys (peerPlace r)) (2 ^ r.n.val)).touchView (peerPlace r))
          (.value (BitVec.ofNat 64 (s.readPhys (peerPlace r) (2 ^ r.n.val))))))) ∧
    (∀ (d : BitVec 10) (off : BitVec 45) (n : Fin 4) op a m, a = lowered off.toNat (2 ^ n.val) → PlainHome s a (2 ^ n.val) →
      ¬ PeerBehind s ⟨d, off, n, op⟩ → m = leNat s.rawByte a (2 ^ n.val) →
      (op = .load → ∃ t, exec (.peerRequest ⟨d, off, n, op⟩) s = .next t ∧ OnlyMemory s t ∧
        t.links = (replied s (.value (BitVec.ofNat 64 m))).links ∧ SameBytes s t) ∧
      (∀ v, op = .store v → ∃ t, exec (.peerRequest ⟨d, off, n, op⟩) s = .next t ∧ OnlyMemory s t ∧
        t.links = (replied s .ack).links ∧ Stored s t 0 (.phys a) (bytesOfNat v.toNat (2 ^ n.val))) ∧
      (∀ o b new, op = .atomic o b new → 2 ≤ n.val → ∃ t, exec (.peerRequest ⟨d, off, n, op⟩) s = .next t ∧ OnlyMemory s t ∧
        t.links = (replied s (.value (BitVec.ofNat 64 m))).links ∧
        Stored s t 0 (.phys a) (bytesOfNat (homeResult (peerAtomic o) (2 ^ n.val) m b new) (2 ^ n.val))) ∧
      (∀ o v, op = .reduce o v → 2 ≤ n.val → ∃ t, exec (.peerRequest ⟨d, off, n, op⟩) s = .next t ∧ OnlyMemory s t ∧
        t.links = (replied s .ack).links ∧
        Stored s t 0 (.phys a) (bytesOfNat (homeResult (peerAtomic o) (2 ^ n.val) m v 0) (2 ^ n.val)))) ∧
    (∀ (d : BitVec 10) (off : BitVec 45) (n : Fin 4) pcore seq fmt rop len vals a w, a = lowered off.toNat (2 ^ n.val) →
      ¬ Unserved s a true → s.formHeld (.phys a) = false → (∀ x ∈ s.links.peerHeld, x.dev ≠ d) → w = peerUnit d →
      (rcpyFmt fmt = none → exec (.peerRequest ⟨d, off, n, .chunk pcore seq fmt rop len vals⟩) s =
        .next (replied s (.unsupported 0))) ∧
      ∀ f, rcpyFmt fmt = some f →
        ((w, pcore, seq) ∈ s.dedup →
          exec (.peerRequest ⟨d, off, n, .chunk pcore seq fmt rop len vals⟩) s = .next (replied s .ack)) ∧
        ((w, pcore, seq) ∉ s.dedup → 4096 ≤ (s.dedup.filter fun x => x.1 == w).length →
          exec (.peerRequest ⟨d, off, n, .chunk pcore seq fmt rop len vals⟩) s = .next s) ∧
        ((w, pcore, seq) ∉ s.dedup → (s.dedup.filter fun x => x.1 == w).length < 4096 →
          ChunkPlain s f (peerChunk off.toNat pcore seq fmt rop (vals.take len)) →
          off.toNat + (vals.take len).length ≤ 0x18000000000 → Canonical s →
          ∃ t, exec (.peerRequest ⟨d, off, n, .chunk pcore seq fmt rop len vals⟩) s = .next t ∧
            t.dedup = (w, pcore, seq) :: s.dedup ∧ t = { withStores (replied s .ack) t with dedup := t.dedup } ∧
            Stored s t 0 (.phys off.toNat) (chunkBytes s 0 f (peerChunk off.toNat pcore seq fmt rop (vals.take len))))) ∧
    (∀ r : PeerReq, ∀ pcore seq, r.op = .confirm pcore seq → ¬ PeerBehind s r → exec (.peerRequest r) s =
      .next { s with dedup := s.dedup.filter fun x => decide (x ≠ (peerUnit r.dev, pcore, seq)) }) ∧
    (∀ r rest, s.links.peerHeld = r :: rest → PeerHolds s r → (∀ x ∈ rest, x.dev = r.dev) → s.servePeers = s) ∧
    (∀ r, s.links.peerHeld = [r] → ¬ PeerHolds s r →
      exec (.peerRequest r) (onLinks s fun l => { l with peerHeld := [] }) = .next s.servePeers)
end

