-- ==== Sys2Proof/Laws/Acc.lean ====
section
/-! SUPPORT. Reading a part of the state after an update of a part. -/

namespace Sys2Proof.Machine

/-! ### Tables -/

@[simp] theorem vget_vset_same {α : Type} [Inhabited α] {n : Nat} (v : Vector α n) (i : Nat) (x : α) (h : i < n) :
    vget (vset v i x) i = x := by
  simp [vget, vset, Vector.getD, h]

@[simp] theorem vget_vset_ne {α : Type} [Inhabited α] {n : Nat} (v : Vector α n) (i j : Nat) (x : α) (h : i ≠ j) :
    vget (vset v i x) j = vget v j := by
  simp [vget, vset, Vector.getD, h]

theorem vget_vset {α : Type} [Inhabited α] {n : Nat} (v : Vector α n) (i j : Nat) (x : α) (h : i < n) :
    vget (vset v i x) j = if i = j then x else vget v j := by
  by_cases e : i = j
  · subst e; simp [h]
  · simp [e]

@[simp] theorem vset_vget {α : Type} [Inhabited α] {n : Nat} (v : Vector α n) (i : Nat) : vset v i (vget v i) = v := by
  ext j hj
  by_cases e : i = j
  · subst e; simp [vget, vset, Vector.getD, hj]
  · simp [vget, vset, e]

@[simp] theorem vset_vset {α : Type} {n : Nat} (v : Vector α n) (i : Nat) (x y : α) :
    vset (vset v i x) i y = vset v i y := by
  ext j hj
  by_cases e : i = j
  · subst e; simp [vset]
  · simp [vset, e]

@[simp] theorem vget_vmod_same {α : Type} [Inhabited α] {n : Nat} (v : Vector α n) (i : Nat) (f : α → α) (h : i < n) :
    vget (vmod v i f) i = f (vget v i) := by simp [vmod, h]

@[simp] theorem vget_vmod_ne {α : Type} [Inhabited α] {n : Nat} (v : Vector α n) (i j : Nat) (f : α → α) (h : i ≠ j) :
    vget (vmod v i f) j = vget v j := by simp [vmod, h]

@[simp] theorem vget_vmap {α : Type} [Inhabited α] {n : Nat} (f : α → α) (v : Vector α n) (i : Nat) (h : i < n) :
    vget (vmap f v) i = f (vget v i) := by
  simp [vget, vmap, Vector.getD, h]

@[simp] theorem vget_vgen {α : Type} [Inhabited α] {n : Nat} (f : Nat → α) (i : Nat) (h : i < n) :
    vget (vgen n f) i = f i := by
  simp [vget, vgen, Vector.getD, h]

/-! ### Lists -/

@[simp] theorem lmod_length {α : Type} (f : α → α) (l : List α) (i : Nat) : (lmod i f l).length = l.length := by
  induction l generalizing i with
  | nil => simp [lmod]
  | cons a t ih => cases i <;> simp [lmod, ih]

@[simp] theorem modFirst_length {α : Type} (p : α → Bool) (f : α → α) (l : List α) :
    (modFirst p f l).length = l.length := by
  induction l with
  | nil => rfl
  | cons a t ih => by_cases h : p a <;> simp [modFirst, h, ih]

/-! ### Cores -/

@[simp] theorem core_setCore (s : State) (p : CoreId) (c : Core) : (s.setCore p c).core p = c := by
  simp [State.core, State.setCore]

@[simp] theorem core_setCore_ne (s : State) (p q : CoreId) (c : Core) (h : p ≠ q) : (s.setCore p c).core q = s.core q := by
  have : p.val ≠ q.val := fun e => h (Fin.ext e)
  simp [State.core, State.setCore, this]

@[simp] theorem setCore_core (s : State) (p : CoreId) : s.setCore p (s.core p) = s := by
  simp [State.core, State.setCore]

@[simp] theorem setCore_setCore (s : State) (p : CoreId) (c d : Core) : (s.setCore p c).setCore p d = s.setCore p d := by
  simp [State.setCore]

@[simp] theorem core_modCore (s : State) (p : CoreId) (f : Core → Core) : (s.modCore p f).core p = f (s.core p) := by
  simp [State.modCore]

@[simp] theorem core_modCore_ne (s : State) (p q : CoreId) (f : Core → Core) (h : p ≠ q) :
    (s.modCore p f).core q = s.core q := by simp [State.modCore, h]

@[simp] theorem modCore_modCore (s : State) (p : CoreId) (f g : Core → Core) :
    (s.modCore p f).modCore p g = s.modCore p (fun c => g (f c)) := by simp [State.modCore]

@[simp] theorem getCtx_setCtx (c : Core) (k : Ctx) (x : Context) : (c.setCtx k x).getCtx k = x := by
  simp [Core.getCtx, Core.setCtx]

theorem ctx_idx_inj {j k : Ctx} (h : j ≠ k) : j.idx.val ≠ k.idx.val := by
  cases j <;> cases k <;> first | exact absurd rfl h | decide

@[simp] theorem getCtx_setCtx_ne (c : Core) (j k : Ctx) (x : Context) (h : j ≠ k) :
    (c.setCtx j x).getCtx k = c.getCtx k := by
  simp [Core.getCtx, Core.setCtx, ctx_idx_inj h]

@[simp] theorem setCtx_getCtx (c : Core) (k : Ctx) : c.setCtx k (c.getCtx k) = c := by
  simp [Core.getCtx, Core.setCtx]

@[simp] theorem setCtx_setCtx (c : Core) (k : Ctx) (x y : Context) : (c.setCtx k x).setCtx k y = c.setCtx k y := by
  simp [Core.setCtx]

@[simp] theorem ctx_setCtx (s : State) (p : CoreId) (k : Ctx) (x : Context) : (s.setCtx p k x).ctx p k = x := by
  simp [State.ctx, State.setCtx]

@[simp] theorem ctx_modCtx (s : State) (p : CoreId) (k : Ctx) (f : Context → Context) :
    (s.modCtx p k f).ctx p k = f (s.ctx p k) := by simp [State.modCtx]

@[simp] theorem setCtx_setCtx_state (s : State) (p : CoreId) (k : Ctx) (x y : Context) :
    (s.setCtx p k x).setCtx p k y = s.setCtx p k y := by simp [State.setCtx]

@[simp] theorem setCtx_ctx (s : State) (p : CoreId) (k : Ctx) : s.setCtx p k (s.ctx p k) = s := by
  simp [State.setCtx, State.modCore, State.ctx]

@[simp] theorem ctx_setCtx_ne (s : State) (p : CoreId) (j k : Ctx) (x : Context) (h : j ≠ k) :
    (s.setCtx p j x).ctx p k = s.ctx p k := by simp [State.ctx, State.setCtx, h]

@[simp] theorem core_setCtx (s : State) (p : CoreId) (k : Ctx) (x : Context) :
    (s.setCtx p k x).core p = (s.core p).setCtx k x := by simp [State.setCtx]

theorem ep_idx_inj {j k : Ep} (h : j ≠ k) : j.idx.val ≠ k.idx.val := by
  cases j <;> cases k <;> first | exact absurd rfl h | decide

@[simp] theorem getEng_setEng (c : Core) (e : Ep) (x : Engine) : (c.setEng e x).getEng e = x := by
  simp [Core.getEng, Core.setEng]

@[simp] theorem getEng_setEng_ne (c : Core) (d e : Ep) (x : Engine) (h : d ≠ e) :
    (c.setEng d x).getEng e = c.getEng e := by
  simp [Core.getEng, Core.setEng, ep_idx_inj h]

@[simp] theorem eng_modEng (s : State) (p : CoreId) (e : Ep) (f : Engine → Engine) :
    (s.modEng p e f).eng p e = f (s.eng p e) := by
  simp [State.eng, State.modEng, Core.modEng]

/-! ### Bents, bays, launch queues -/

@[simp] theorem bent_setBent (s : State) (b : BentId) (x : Bent) : (s.setBent b x).bent b = x := by
  simp [State.bent, State.setBent]

@[simp] theorem bent_setBent_ne (s : State) (b d : BentId) (x : Bent) (h : b ≠ d) :
    (s.setBent b x).bent d = s.bent d := by
  have : b.val ≠ d.val := fun e => h (Fin.ext e)
  simp [State.bent, State.setBent, this]

@[simp] theorem bent_modBent (s : State) (b : BentId) (f : Bent → Bent) : (s.modBent b f).bent b = f (s.bent b) := by
  simp [State.modBent]

@[simp] theorem bay_modBay (s : State) (y : Fin 64) (f : Bay → Bay) : (s.modBay y f).bay y = f (s.bay y) := by
  simp [State.bay, State.modBay]

@[simp] theorem bay_modBay_ne (s : State) (y z : Fin 64) (f : Bay → Bay) (h : y ≠ z) : (s.modBay y f).bay z = s.bay z := by
  have : y.val ≠ z.val := fun e => h (Fin.ext e)
  simp [State.bay, State.modBay, this]

@[simp] theorem lq_modLq (s : State) (q : BitVec 6) (f : LaunchQ → LaunchQ) : (s.modLq q f).lq q = f (s.lq q) := by
  have : q.toNat < 64 := q.isLt
  simp [State.lq, State.modLq, this]

end Sys2Proof.Machine
end

