-- ==== Sys2Proof/Laws/Dispatch.lean ====
section
/-! SUPPORT. Each arm of the dispatch as a rewrite. -/

namespace Sys2Proof.Machine

@[simp] theorem exec_add (r : R3) (s : State) : exec (.add r) s = execAdd r s := rfl
@[simp] theorem exec_sub (r : R3) (s : State) : exec (.sub r) s = execSub r s := rfl
@[simp] theorem exec_and (r : R3) (s : State) : exec (.and r) s = execAnd r s := rfl
@[simp] theorem exec_or (r : R3) (s : State) : exec (.or r) s = execOr r s := rfl
@[simp] theorem exec_xor (r : R3) (s : State) : exec (.xor r) s = execXor r s := rfl
@[simp] theorem exec_andn (r : R3) (s : State) : exec (.andn r) s = execAndn r s := rfl
@[simp] theorem exec_shl (r : R3) (s : State) : exec (.shl r) s = execShl r s := rfl
@[simp] theorem exec_shr (r : R3) (s : State) : exec (.shr r) s = execShr r s := rfl
@[simp] theorem exec_sra (r : R3) (s : State) : exec (.sra r) s = execSra r s := rfl
@[simp] theorem exec_rotr (r : R3) (s : State) : exec (.rotr r) s = execRotr r s := rfl
@[simp] theorem exec_min (r : R3) (s : State) : exec (.min r) s = execMin r s := rfl
@[simp] theorem exec_max (r : R3) (s : State) : exec (.max r) s = execMax r s := rfl
@[simp] theorem exec_minu (r : R3) (s : State) : exec (.minu r) s = execMinu r s := rfl
@[simp] theorem exec_maxu (r : R3) (s : State) : exec (.maxu r) s = execMaxu r s := rfl
@[simp] theorem exec_cmpeq (r : R3) (s : State) : exec (.cmpeq r) s = execCmpeq r s := rfl
@[simp] theorem exec_cmpne (r : R3) (s : State) : exec (.cmpne r) s = execCmpne r s := rfl
@[simp] theorem exec_cmplt (r : R3) (s : State) : exec (.cmplt r) s = execCmplt r s := rfl
@[simp] theorem exec_cmpltu (r : R3) (s : State) : exec (.cmpltu r) s = execCmpltu r s := rfl
@[simp] theorem exec_cmple (r : R3) (s : State) : exec (.cmple r) s = execCmple r s := rfl
@[simp] theorem exec_cmpleu (r : R3) (s : State) : exec (.cmpleu r) s = execCmpleu r s := rfl
@[simp] theorem exec_sel (r : R3) (s : State) : exec (.sel r) s = execSel r s := rfl
@[simp] theorem exec_clz (r : R2) (s : State) : exec (.clz r) s = execClz r s := rfl
@[simp] theorem exec_ctz (r : R2) (s : State) : exec (.ctz r) s = execCtz r s := rfl
@[simp] theorem exec_popc (r : R2) (s : State) : exec (.popc r) s = execPopc r s := rfl
@[simp] theorem exec_sext (r : R3) (s : State) : exec (.sext r) s = execSext r s := rfl
@[simp] theorem exec_zext (r : R3) (s : State) : exec (.zext r) s = execZext r s := rfl
@[simp] theorem exec_mul (r : R3) (s : State) : exec (.mul r) s = execMul r s := rfl
@[simp] theorem exec_mulh (r : R3) (s : State) : exec (.mulh r) s = execMulh r s := rfl
@[simp] theorem exec_mulhu (r : R3) (s : State) : exec (.mulhu r) s = execMulhu r s := rfl
@[simp] theorem exec_div (r : R3) (s : State) : exec (.div r) s = execDiv r s := rfl
@[simp] theorem exec_divu (r : R3) (s : State) : exec (.divu r) s = execDivu r s := rfl
@[simp] theorem exec_rem (r : R3) (s : State) : exec (.rem r) s = execRem r s := rfl
@[simp] theorem exec_remu (r : R3) (s : State) : exec (.remu r) s = execRemu r s := rfl
@[simp] theorem exec_addi (r : I12) (s : State) : exec (.addi r) s = execAddi r s := rfl
@[simp] theorem exec_andi (r : I12) (s : State) : exec (.andi r) s = execAndi r s := rfl
@[simp] theorem exec_ori (r : I12) (s : State) : exec (.ori r) s = execOri r s := rfl
@[simp] theorem exec_xori (r : I12) (s : State) : exec (.xori r) s = execXori r s := rfl
@[simp] theorem exec_shli (r : Sh) (s : State) : exec (.shli r) s = execShli r s := rfl
@[simp] theorem exec_shri (r : Sh) (s : State) : exec (.shri r) s = execShri r s := rfl
@[simp] theorem exec_srai (r : Sh) (s : State) : exec (.srai r) s = execSrai r s := rfl
@[simp] theorem exec_rotri (r : Sh) (s : State) : exec (.rotri r) s = execRotri r s := rfl
@[simp] theorem exec_cmpeqi (r : I12) (s : State) : exec (.cmpeqi r) s = execCmpeqi r s := rfl
@[simp] theorem exec_cmpnei (r : I12) (s : State) : exec (.cmpnei r) s = execCmpnei r s := rfl
@[simp] theorem exec_cmplti (r : I12) (s : State) : exec (.cmplti r) s = execCmplti r s := rfl
@[simp] theorem exec_cmpltui (r : I12) (s : State) : exec (.cmpltui r) s = execCmpltui r s := rfl
@[simp] theorem exec_lih (r : U20) (s : State) : exec (.lih r) s = execLih r s := rfl
@[simp] theorem exec_pcah (r : U20) (s : State) : exec (.pcah r) s = execPcah r s := rfl
@[simp] theorem exec_qcnt (r : QCnt) (s : State) : exec (.qcnt r) s = execQcnt r s := rfl
@[simp] theorem exec_qclr (r : QReg) (s : State) : exec (.qclr r) s = execQclr r s := rfl
@[simp] theorem exec_dup (r : QReg) (s : State) : exec (.dup r) s = execDup r s := rfl
@[simp] theorem exec_drop (r : QReg) (s : State) : exec (.drop r) s = execDrop r s := rfl
@[simp] theorem exec_movq (r : R2) (s : State) : exec (.movq r) s = execMovq r s := rfl
@[simp] theorem exec_lds (r : Mem) (s : State) : exec (.lds r) s = execLds r s := rfl
@[simp] theorem exec_ldz (r : Mem) (s : State) : exec (.ldz r) s = execLdz r s := rfl
@[simp] theorem exec_st (r : Mem) (s : State) : exec (.st r) s = execSt r s := rfl
@[simp] theorem exec_aadd (r : Atom) (s : State) : exec (.aadd r) s = execAadd r s := rfl
@[simp] theorem exec_aand (r : Atom) (s : State) : exec (.aand r) s = execAand r s := rfl
@[simp] theorem exec_aor (r : Atom) (s : State) : exec (.aor r) s = execAor r s := rfl
@[simp] theorem exec_axor (r : Atom) (s : State) : exec (.axor r) s = execAxor r s := rfl
@[simp] theorem exec_amin (r : Atom) (s : State) : exec (.amin r) s = execAmin r s := rfl
@[simp] theorem exec_amax (r : Atom) (s : State) : exec (.amax r) s = execAmax r s := rfl
@[simp] theorem exec_aminu (r : Atom) (s : State) : exec (.aminu r) s = execAminu r s := rfl
@[simp] theorem exec_amaxu (r : Atom) (s : State) : exec (.amaxu r) s = execAmaxu r s := rfl
@[simp] theorem exec_aswap (r : Atom) (s : State) : exec (.aswap r) s = execAswap r s := rfl
@[simp] theorem exec_acas (r : Atom) (s : State) : exec (.acas r) s = execAcas r s := rfl
@[simp] theorem exec_radd (r : Red) (s : State) : exec (.radd r) s = execRadd r s := rfl
@[simp] theorem exec_rand (r : Red) (s : State) : exec (.rand r) s = execRand r s := rfl
@[simp] theorem exec_ror (r : Red) (s : State) : exec (.ror r) s = execRor r s := rfl
@[simp] theorem exec_rxor (r : Red) (s : State) : exec (.rxor r) s = execRxor r s := rfl
@[simp] theorem exec_rmin (r : Red) (s : State) : exec (.rmin r) s = execRmin r s := rfl
@[simp] theorem exec_rmax (r : Red) (s : State) : exec (.rmax r) s = execRmax r s := rfl
@[simp] theorem exec_rminu (r : Red) (s : State) : exec (.rminu r) s = execRminu r s := rfl
@[simp] theorem exec_rmaxu (r : Red) (s : State) : exec (.rmaxu r) s = execRmaxu r s := rfl
@[simp] theorem exec_rfadd (r : RedF) (s : State) : exec (.rfadd r) s = execRfadd r s := rfl
@[simp] theorem exec_fence (sb : Bool) (mask : BitVec 16) (s : State) :
    exec (.fence sb mask) s = execFence sb mask s := rfl
@[simp] theorem exec_acq (r : Fen) (s : State) : exec (.acq r) s = execAcq r s := rfl
@[simp] theorem exec_rel (r : Fen) (s : State) : exec (.rel r) s = execRel r s := rfl
@[simp] theorem exec_acqrel (r : Fen) (s : State) : exec (.acqrel r) s = execAcqrel r s := rfl
@[simp] theorem exec_waitge (r : R3) (s : State) : exec (.waitge r) s = execWaitge r s := rfl
@[simp] theorem exec_waitne (r : R3) (s : State) : exec (.waitne r) s = execWaitne r s := rfl
@[simp] theorem exec_monclr (r : Src) (s : State) : exec (.monclr r) s = execMonclr r s := rfl
@[simp] theorem exec_beq (r : Br) (s : State) : exec (.beq r) s = execBeq r s := rfl
@[simp] theorem exec_bne (r : Br) (s : State) : exec (.bne r) s = execBne r s := rfl
@[simp] theorem exec_blt (r : Br) (s : State) : exec (.blt r) s = execBlt r s := rfl
@[simp] theorem exec_bge (r : Br) (s : State) : exec (.bge r) s = execBge r s := rfl
@[simp] theorem exec_bltu (r : Br) (s : State) : exec (.bltu r) s = execBltu r s := rfl
@[simp] theorem exec_bgeu (r : Br) (s : State) : exec (.bgeu r) s = execBgeu r s := rfl
@[simp] theorem exec_j (sb : Bool) (off : BitVec 25) (s : State) : exec (.j sb off) s = execJ sb off s := rfl
@[simp] theorem exec_jal (r : U20) (s : State) : exec (.jal r) s = execJal r s := rfl
@[simp] theorem exec_jalr (r : I12) (s : State) : exec (.jalr r) s = execJalr r s := rfl
@[simp] theorem exec_csrr (sb : Bool) (d : BitVec 5) (num : BitVec 12) (s : State) :
    exec (.csrr sb d num) s = execCsrr sb d num s := rfl
@[simp] theorem exec_csrw (r : Csr) (s : State) : exec (.csrw r) s = execCsrw r s := rfl
@[simp] theorem exec_csrs (r : Csr) (s : State) : exec (.csrs r) s = execCsrs r s := rfl
@[simp] theorem exec_csrc (r : Csr) (s : State) : exec (.csrc r) s = execCsrc r s := rfl
@[simp] theorem exec_trap (sb : Bool) (n : BitVec 8) (s : State) : exec (.trap sb n) s = execTrap sb n s := rfl
@[simp] theorem exec_sysret (sb : Bool) (s : State) : exec (.sysret sb) s = execSysret sb s := rfl
@[simp] theorem exec_idle (sb : Bool) (s : State) : exec (.idle sb) s = execIdle sb s := rfl
@[simp] theorem exec_brk (sb : Bool) (n : BitVec 8) (s : State) : exec (.brk sb n) s = execBrk sb n s := rfl
@[simp] theorem exec_stepover (sb : Bool) (s : State) : exec (.stepover sb) s = execStepover sb s := rfl
@[simp] theorem exec_trapWord (w : W32) (s : State) : exec (.trapWord w) s = execTrapWord w s := rfl
@[simp] theorem exec_spawn (r : Spw) (s : State) : exec (.spawn r) s = execSpawn r s := rfl
@[simp] theorem exec_epush (r : Push) (s : State) : exec (.epush r) s = execEpush r s := rfl
@[simp] theorem exec_echain (r : ChainOp) (s : State) : exec (.echain r) s = execEchain r s := rfl
@[simp] theorem exec_etail (r : ChainOp) (s : State) : exec (.etail r) s = execEtail r s := rfl
@[simp] theorem exec_eseq (sb : Bool) (e : Ep) (d : BitVec 5) (s : State) :
    exec (.eseq sb e d) s = execEseq sb e d s := rfl
@[simp] theorem exec_xcmd (r : Push) (s : State) : exec (.xcmd r) s = execXcmd r s := rfl
@[simp] theorem exec_mcfg (r : MCfg) (s : State) : exec (.mcfg r) s = execMcfg r s := rfl
@[simp] theorem exec_tnext (sb : Bool) (d : BitVec 5) (s : State) : exec (.tnext sb d) s = execTnext sb d s := rfl
@[simp] theorem exec_tdone (sb : Bool) (s : State) : exec (.tdone sb) s = execTdone sb s := rfl
@[simp] theorem exec_tyield (sb : Bool) (s : State) : exec (.tyield sb) s = execTyield sb s := rfl
@[simp] theorem exec_iinv (r : IInv) (s : State) : exec (.iinv r) s = execIinv r s := rfl
@[simp] theorem exec_tinv (r : Inv) (s : State) : exec (.tinv r) s = execTinv r s := rfl
@[simp] theorem exec_l1inv (r : Inv) (s : State) : exec (.l1inv r) s = execL1inv r s := rfl
@[simp] theorem exec_pref (r : Pref) (s : State) : exec (.pref r) s = execPref r s := rfl
@[simp] theorem exec_qregFill (p : CoreId) (k : Ctx) (n : Nat) (s : State) :
    exec (.qregFill p k n) s = execQregFill p k n s := rfl
@[simp] theorem exec_waitWake (p : CoreId) (k : Ctx) (s : State) : exec (.waitWake p k) s = execWaitWake p k s := rfl
@[simp] theorem exec_monitorPoll (p : CoreId) (k : Ctx) (s : State) :
    exec (.monitorPoll p k) s = execMonitorPoll p k s := rfl
@[simp] theorem exec_combiningFlush (p : CoreId) (n : Nat) (s : State) :
    exec (.combiningFlush p n) s = execCombiningFlush p n s := rfl
@[simp] theorem exec_cpy (h : Hdr) (c : CopyOps) (s : State) : exec (.cpy h c) s = execCpy h c s := rfl
@[simp] theorem exec_cpyn (h : Hdr) (c : CopyNOps) (s : State) : exec (.cpyn h c) s = execCpyn h c s := rfl
@[simp] theorem exec_gath (h : Hdr) (c : GatherOps) (s : State) : exec (.gath h c) s = execGath h c s := rfl
@[simp] theorem exec_scat (h : Hdr) (c : GatherOps) (s : State) : exec (.scat h c) s = execScat h c s := rfl
@[simp] theorem exec_rcpy (h : Hdr) (c : RcpyOps) (s : State) : exec (.rcpy h c) s = execRcpy h c s := rfl
@[simp] theorem exec_fill (h : Hdr) (c : FillOps) (s : State) : exec (.fill h c) s = execFill h c s := rfl
@[simp] theorem exec_prefCmd (h : Hdr) (c : PrefOps) (s : State) : exec (.prefCmd h c) s = execPrefCmd h c s := rfl
@[simp] theorem exec_cpyp (h : Hdr) (c : CpypOps) (s : State) : exec (.cpyp h c) s = execCpyp h c s := rfl
@[simp] theorem exec_psub (h : Hdr) (c : PsubOps) (s : State) : exec (.psub h c) s = execPsub h c s := rfl
@[simp] theorem exec_puns (h : Hdr) (strm : BitVec 4) (s : State) : exec (.puns h strm) s = execPuns h strm s := rfl
@[simp] theorem exec_chunkApply (p : CoreId) (seq : W32) (s : State) :
    exec (.chunkApply p seq) s = execChunkApply p seq s := rfl
@[simp] theorem exec_chunkResend (p : CoreId) (seq : W32) (s : State) :
    exec (.chunkResend p seq) s = execChunkResend p seq s := rfl
@[simp] theorem exec_qinit (h : Hdr) (desc : Word) (s : State) : exec (.qinit h desc) s = execQinit h desc s := rfl
@[simp] theorem exec_qacq (h : Hdr) (desc : Word) (resa : Word) (s : State) :
    exec (.qacq h desc resa) s = execQacq h desc resa s := rfl
@[simp] theorem exec_qrel (h : Hdr) (desc : Word) (slot : Word) (s : State) :
    exec (.qrel h desc slot) s = execQrel h desc slot s := rfl
@[simp] theorem exec_qres (h : Hdr) (desc : Word) (resa : Word) (nw : Bool) (s : State) :
    exec (.qres h desc resa nw) s = execQres h desc resa nw s := rfl
@[simp] theorem exec_qcom (h : Hdr) (desc : Word) (slot : Word) (s : State) :
    exec (.qcom h desc slot) s = execQcom h desc slot s := rfl
@[simp] theorem exec_qstat (h : Hdr) (desc : Word) (resa : Word) (s : State) :
    exec (.qstat h desc resa) s = execQstat h desc resa s := rfl
@[simp] theorem exec_clampRefill (b : BentId) (n : Nat) (s : State) :
    exec (.clampRefill b n) s = execClampRefill b n s := rfl
@[simp] theorem exec_csig (h : Hdr) (ctr : Word) (inc : W32) (s : State) :
    exec (.csig h ctr inc) s = execCsig h ctr inc s := rfl
@[simp] theorem exec_cwait (h : Hdr) (ctr : Word) (target : Word) (s : State) :
    exec (.cwait h ctr target) s = execCwait h ctr target s := rfl
@[simp] theorem exec_cseq (h : Hdr) (addr : Word) (val : Word) (s : State) :
    exec (.cseq h addr val) s = execCseq h addr val s := rfl
@[simp] theorem exec_cnop (h : Hdr) (s : State) : exec (.cnop h) s = execCnop h s := rfl
@[simp] theorem exec_clink (h : Hdr) (next : Word) (s : State) : exec (.clink h next) s = execClink h next s := rfl
@[simp] theorem exec_cloop (h : Hdr) (rep : W32) (s : State) : exec (.cloop h rep) s = execCloop h rep s := rfl
@[simp] theorem exec_cend (h : Hdr) (s : State) : exec (.cend h) s = execCend h s := rfl
@[simp] theorem exec_launch (h : Hdr) (q : BitVec 6) (reca : Word) (s : State) :
    exec (.launch h q reca) s = execLaunch h q reca s := rfl
@[simp] theorem exec_tokenPush (p : CoreId) (n : Nat) (s : State) :
    exec (.tokenPush p n) s = execTokenPush p n s := rfl
@[simp] theorem exec_counterAdd (p : CoreId) (n : Nat) (s : State) :
    exec (.counterAdd p n) s = execCounterAdd p n s := rfl
@[simp] theorem exec_chainBlockFetch (p : CoreId) (e : Ep) (s : State) :
    exec (.chainBlockFetch p e) s = execChainBlockFetch p e s := rfl
@[simp] theorem exec_sequenceAdvance (p : CoreId) (e : Ep) (s : State) :
    exec (.sequenceAdvance p e) s = execSequenceAdvance p e s := rfl
@[simp] theorem exec_podRowDelivery (bay : Fin 64) (strm : BitVec 4) (s : State) :
    exec (.podRowDelivery bay strm) s = execPodRowDelivery bay strm s := rfl
@[simp] theorem exec_mfmt (h : Hdr) (f : MFmt) (s : State) : exec (.mfmt h f) s = execMfmt h f s := rfl
@[simp] theorem exec_mnest (h : Hdr) (kstep : BitVec 8) (nlev : BitVec 3) (s : State) :
    exec (.mnest h kstep nlev) s = execMnest h kstep nlev s := rfl
@[simp] theorem exec_mgo (h : Hdr) (c : MGoOps) (s : State) : exec (.mgo h c) s = execMgo h c s := rfl
@[simp] theorem exec_mbld (h : Hdr) (c : MBldOps) (s : State) : exec (.mbld h c) s = execMbld h c s := rfl
@[simp] theorem exec_mzero (h : Hdr) (qm : BitVec 4) (s : State) : exec (.mzero h qm) s = execMzero h qm s := rfl
@[simp] theorem exec_mhad (h : Hdr) (c : MHadOps) (s : State) : exec (.mhad h c) s = execMhad h c s := rfl
@[simp] theorem exec_mdrn (h : Hdr) (c : MDrnOps) (s : State) : exec (.mdrn h c) s = execMdrn h c s := rfl
@[simp] theorem exec_meStep (p : CoreId) (s : State) : exec (.meStep p) s = execMeStep p s := rfl
@[simp] theorem exec_bBlockLoad (p : CoreId) (s : State) : exec (.bBlockLoad p) s = execBBlockLoad p s := rfl
@[simp] theorem exec_vrun (h : Hdr) (c : VRunOps) (s : State) : exec (.vrun h c) s = execVrun h c s := rfl
@[simp] theorem exec_vstop (h : Hdr) (imm : Bool) (s : State) : exec (.vstop h imm) s = execVstop h imm s := rfl
@[simp] theorem exec_vbase (h : Hdr) (n : BitVec 4) (base : Word) (s : State) :
    exec (.vbase h n base) s = execVbase h n base s := rfl
@[simp] theorem exec_vsdesc (h : Hdr) (n : BitVec 4) (d : SDesc) (s : State) :
    exec (.vsdesc h n d) s = execVsdesc h n d s := rfl
@[simp] theorem exec_bundleIssue (p : CoreId) (s : State) : exec (.bundleIssue p) s = execBundleIssue p s := rfl
@[simp] theorem exec_cutDrain (p : CoreId) (s : State) : exec (.cutDrain p) s = execCutDrain p s := rfl
@[simp] theorem exec_walkRequest (p : CoreId) (q : Fin 8) (s : State) :
    exec (.walkRequest p q) s = execWalkRequest p q s := rfl
@[simp] theorem exec_vectorLanding (p : CoreId) (q : Fin 8) (s : State) :
    exec (.vectorLanding p q) s = execVectorLanding p q s := rfl
@[simp] theorem exec_windowClose (p : CoreId) (n : BitVec 4) (s : State) :
    exec (.windowClose p n) s = execWindowClose p n s := rfl
@[simp] theorem exec_writeWalkWrite (p : CoreId) (q : Fin 4) (s : State) :
    exec (.writeWalkWrite p q) s = execWriteWalkWrite p q s := rfl
@[simp] theorem exec_inj (o : InjOp) (s : State) : exec (.inj o) s = execInj o s := rfl
@[simp] theorem exec_drn (o : DrnOp) (s : State) : exec (.drn o) s = execDrn o s := rfl
@[simp] theorem exec_srd (o : SrdOp) (s : State) : exec (.srd o) s = execSrd o s := rfl
@[simp] theorem exec_swr (o : SwrOp) (s : State) : exec (.swr o) s = execSwr o s := rfl
@[simp] theorem exec_time (o : TimeOp) (s : State) : exec (.time o) s = execTime o s := rfl
@[simp] theorem exec_jmpt (eob : Bool) (tgt : BitVec 13) (s : State) :
    exec (.jmpt eob tgt) s = execJmpt eob tgt s := rfl
@[simp] theorem exec_loopt (o : LoopOp) (s : State) : exec (.loopt o) s = execLoopt o s := rfl
@[simp] theorem exec_halt (eob : Bool) (s : State) : exec (.halt eob) s = execHalt eob s := rfl
@[simp] theorem exec_vadd (o : StOrd) (s : State) : exec (.vadd o) s = execVadd o s := rfl
@[simp] theorem exec_vsub (o : StOrd) (s : State) : exec (.vsub o) s = execVsub o s := rfl
@[simp] theorem exec_vmul (o : StOrd) (s : State) : exec (.vmul o) s = execVmul o s := rfl
@[simp] theorem exec_vfma (o : StOrd) (s : State) : exec (.vfma o) s = execVfma o s := rfl
@[simp] theorem exec_vmin (o : StOrd) (s : State) : exec (.vmin o) s = execVmin o s := rfl
@[simp] theorem exec_vmax (o : StOrd) (s : State) : exec (.vmax o) s = execVmax o s := rfl
@[simp] theorem exec_vabs (o : StOrd) (s : State) : exec (.vabs o) s = execVabs o s := rfl
@[simp] theorem exec_vneg (o : StOrd) (s : State) : exec (.vneg o) s = execVneg o s := rfl
@[simp] theorem exec_vand (o : StOrd) (s : State) : exec (.vand o) s = execVand o s := rfl
@[simp] theorem exec_vor (o : StOrd) (s : State) : exec (.vor o) s = execVor o s := rfl
@[simp] theorem exec_vxor (o : StOrd) (s : State) : exec (.vxor o) s = execVxor o s := rfl
@[simp] theorem exec_vnot (o : StOrd) (s : State) : exec (.vnot o) s = execVnot o s := rfl
@[simp] theorem exec_vshl (o : StOrd) (s : State) : exec (.vshl o) s = execVshl o s := rfl
@[simp] theorem exec_vshr (o : StOrd) (s : State) : exec (.vshr o) s = execVshr o s := rfl
@[simp] theorem exec_vsra (o : StOrd) (s : State) : exec (.vsra o) s = execVsra o s := rfl
@[simp] theorem exec_vcmp (o : StOrd) (s : State) : exec (.vcmp o) s = execVcmp o s := rfl
@[simp] theorem exec_vsel (o : StOrd) (s : State) : exec (.vsel o) s = execVsel o s := rfl
@[simp] theorem exec_vcvt (o : StOrd) (s : State) : exec (.vcvt o) s = execVcvt o s := rfl
@[simp] theorem exec_vdot4 (o : StOrd) (s : State) : exec (.vdot4 o) s = execVdot4 o s := rfl
@[simp] theorem exec_vredadd (o : StOrd) (s : State) : exec (.vredadd o) s = execVredadd o s := rfl
@[simp] theorem exec_vredmax (o : StOrd) (s : State) : exec (.vredmax o) s = execVredmax o s := rfl
@[simp] theorem exec_vredmin (o : StOrd) (s : State) : exec (.vredmin o) s = execVredmin o s := rfl
@[simp] theorem exec_vexp2 (o : StOrd) (s : State) : exec (.vexp2 o) s = execVexp2 o s := rfl
@[simp] theorem exec_vlog2 (o : StOrd) (s : State) : exec (.vlog2 o) s = execVlog2 o s := rfl
@[simp] theorem exec_vrcp (o : StOrd) (s : State) : exec (.vrcp o) s = execVrcp o s := rfl
@[simp] theorem exec_vrsq (o : StOrd) (s : State) : exec (.vrsq o) s = execVrsq o s := rfl
@[simp] theorem exec_vperm (o : StOrd) (s : State) : exec (.vperm o) s = execVperm o s := rfl
@[simp] theorem exec_vbcast (o : StOrd) (s : State) : exec (.vbcast o) s = execVbcast o s := rfl
@[simp] theorem exec_vrotm (o : StOrd) (s : State) : exec (.vrotm o) s = execVrotm o s := rfl
@[simp] theorem exec_vpln (o : StOrd) (s : State) : exec (.vpln o) s = execVpln o s := rfl
@[simp] theorem exec_vunpl (o : StOrd) (s : State) : exec (.vunpl o) s = execVunpl o s := rfl
@[simp] theorem exec_vscale (o : StOrd) (s : State) : exec (.vscale o) s = execVscale o s := rfl
@[simp] theorem exec_vqmx (o : StOrd) (s : State) : exec (.vqmx o) s = execVqmx o s := rfl
@[simp] theorem exec_vmovs (o : StOrd) (s : State) : exec (.vmovs o) s = execVmovs o s := rfl
@[simp] theorem exec_vldi (o : StOrd) (s : State) : exec (.vldi o) s = execVldi o s := rfl
@[simp] theorem exec_vmask (o : StOrd) (s : State) : exec (.vmask o) s = execVmask o s := rfl
@[simp] theorem exec_fcopy (h : Hdr) (f : Fur) (s1 : Word) (s : State) :
    exec (.fcopy h f s1) s = execFcopy h f s1 s := rfl
@[simp] theorem exec_ffill (h : Hdr) (f : Fur) (ones : Bool) (s : State) :
    exec (.ffill h f ones) s = execFfill h f ones s := rfl
@[simp] theorem exec_fand (h : Hdr) (f : Fur) (s1 : Word) (s2 : Word) (s : State) :
    exec (.fand h f s1 s2) s = execFand h f s1 s2 s := rfl
@[simp] theorem exec_forRow (h : Hdr) (f : Fur) (s1 : Word) (s2 : Word) (s : State) :
    exec (.forRow h f s1 s2) s = execForRow h f s1 s2 s := rfl
@[simp] theorem exec_fxor (h : Hdr) (f : Fur) (s1 : Word) (s2 : Word) (s : State) :
    exec (.fxor h f s1 s2) s = execFxor h f s1 s2 s := rfl
@[simp] theorem exec_fnot (h : Hdr) (f : Fur) (s1 : Word) (s : State) :
    exec (.fnot h f s1) s = execFnot h f s1 s := rfl
@[simp] theorem exec_fmaj (h : Hdr) (f : Fur) (s1 : Word) (s2 : Word) (s3 : Word) (s : State) :
    exec (.fmaj h f s1 s2 s3) s = execFmaj h f s1 s2 s3 s := rfl
@[simp] theorem exec_fqry (h : Hdr) (c : FQryOps) (s : State) : exec (.fqry h c) s = execFqry h c s := rfl
@[simp] theorem exec_lqtail (q : BitVec 6) (v : W32) (s : State) : exec (.lqtail q v) s = execLqtail q v s := rfl
@[simp] theorem exec_gangPlacement (s : State) : exec .gangPlacement s = execGangPlacement s := rfl
@[simp] theorem exec_spawnDelivery (b : BentId) (n : Nat) (s : State) :
    exec (.spawnDelivery b n) s = execSpawnDelivery b n s := rfl
@[simp] theorem exec_balancerInterval (n : Nat) (s : State) :
    exec (.balancerInterval n) s = execBalancerInterval n s := rfl
@[simp] theorem exec_stageSwitch (p : CoreId) (s : State) : exec (.stageSwitch p) s = execStageSwitch p s := rfl
@[simp] theorem exec_watchdogPreempt (q : BitVec 6) (s : State) :
    exec (.watchdogPreempt q) s = execWatchdogPreempt q s := rfl
@[simp] theorem exec_watchdogKill (q : BitVec 6) (s : State) : exec (.watchdogKill q) s = execWatchdogKill q s := rfl
@[simp] theorem exec_watchdogFence (q : BitVec 6) (s : State) :
    exec (.watchdogFence q) s = execWatchdogFence q s := rfl
@[simp] theorem exec_correctableError (b : BentId) (core : Option (Fin 16)) (s : State) :
    exec (.correctableError b core) s = execCorrectableError b core s := rfl
@[simp] theorem exec_eccFreezeEnd (p : CoreId) (s : State) : exec (.eccFreezeEnd p) s = execEccFreezeEnd p s := rfl
@[simp] theorem exec_uncorrectableError (e : UncorrErr) (s : State) :
    exec (.uncorrectableError e) s = execUncorrectableError e s := rfl
@[simp] theorem exec_faultRecordRelease (b : BentId) (s : State) :
    exec (.faultRecordRelease b) s = execFaultRecordRelease b s := rfl
@[simp] theorem exec_faultReplay (ticket : BitVec 16) (s : State) :
    exec (.faultReplay ticket) s = execFaultReplay ticket s := rfl
@[simp] theorem exec_faultAbort (ticket : BitVec 16) (s : State) :
    exec (.faultAbort ticket) s = execFaultAbort ticket s := rfl
@[simp] theorem exec_preEmpt (s : State) : exec .preEmpt s = execPreEmpt s := rfl
@[simp] theorem exec_saveComplete (s : State) : exec .saveComplete s = execSaveComplete s := rfl
@[simp] theorem exec_restore (s : State) : exec .restore s = execRestore s := rfl
@[simp] theorem exec_restorePlacement (s : State) : exec .restorePlacement s = execRestorePlacement s := rfl
@[simp] theorem exec_kill (s : State) : exec .kill s = execKill s := rfl
@[simp] theorem exec_trinv (v : Word) (s : State) : exec (.trinv v) s = execTrinv v s := rfl
@[simp] theorem exec_trinvComplete (s : State) : exec .trinvComplete s = execTrinvComplete s := rfl
@[simp] theorem exec_trroot (v : Word) (s : State) : exec (.trroot v) s = execTrroot v s := rfl
@[simp] theorem exec_l1Fusion (bay : Fin 64) (s : State) : exec (.l1Fusion bay) s = execL1Fusion bay s := rfl
@[simp] theorem exec_formatRegionWrite (b : BentId) (k : Fin 2) (r : Fin 16) (reg : Fin 4) (v : Word) (s : State) :
    exec (.formatRegionWrite b k r reg v) s = execFormatRegionWrite b k r reg v s := rfl
@[simp] theorem exec_vtctlInv (p : CoreId) (v : Word) (s : State) : exec (.vtctlInv p v) s = execVtctlInv p v s := rfl
@[simp] theorem exec_fwcc (b : BentId) (k : Fin 2) (v : Word) (s : State) :
    exec (.fwcc b k v) s = execFwcc b k v s := rfl
@[simp] theorem exec_regionChange (b : BentId) (k : Fin 2) (s : State) :
    exec (.regionChange b k) s = execRegionChange b k s := rfl
@[simp] theorem exec_launchQueueReset (v : W32) (s : State) :
    exec (.launchQueueReset v) s = execLaunchQueueReset v s := rfl
@[simp] theorem exec_icinv (v : Word) (s : State) : exec (.icinv v) s = execIcinv v s := rfl
@[simp] theorem exec_icbusyClear (s : State) : exec .icbusyClear s = execIcbusyClear s := rfl
@[simp] theorem exec_traceSessionOpen (v : W32) (s : State) :
    exec (.traceSessionOpen v) s = execTraceSessionOpen v s := rfl
@[simp] theorem exec_traceSessionClose (v : W32) (s : State) :
    exec (.traceSessionClose v) s = execTraceSessionClose v s := rfl
@[simp] theorem exec_traceFlush (b : BentId) (s : State) : exec (.traceFlush b) s = execTraceFlush b s := rfl
@[simp] theorem exec_pmctrWrap (p : CoreId) (n : BitVec 4) (s : State) :
    exec (.pmctrWrap p n) s = execPmctrWrap p n s := rfl
@[simp] theorem exec_veRelease (p : CoreId) (v : Word) (s : State) :
    exec (.veRelease p v) s = execVeRelease p v s := rfl
@[simp] theorem exec_clklockLock (v : W32) (s : State) : exec (.clklockLock v) s = execClklockLock v s := rfl
@[simp] theorem exec_clklockUnlock (v : W32) (s : State) : exec (.clklockUnlock v) s = execClklockUnlock v s := rfl
@[simp] theorem exec_opptRequest (v : W32) (s : State) : exec (.opptRequest v) s = execOpptRequest v s := rfl
@[simp] theorem exec_operatingPointChange (s : State) :
    exec .operatingPointChange s = execOperatingPointChange s := rfl
@[simp] theorem exec_operatingPointChangeEnd (s : State) :
    exec .operatingPointChangeEnd s = execOperatingPointChangeEnd s := rfl
@[simp] theorem exec_sensorSample (r : Readings) (s : State) : exec (.sensorSample r) s = execSensorSample r s := rfl
@[simp] theorem exec_capStep (s : State) : exec .capStep s = execCapStep s := rfl
@[simp] theorem exec_capRelax (s : State) : exec .capRelax s = execCapRelax s := rfl
@[simp] theorem exec_currentLimit (b : BentId) (s : State) : exec (.currentLimit b) s = execCurrentLimit b s := rfl
@[simp] theorem exec_emergencyEnd (s : State) : exec .emergencyEnd s = execEmergencyEnd s := rfl
@[simp] theorem exec_coreReset (b : BentId) (v : W32) (s : State) :
    exec (.coreReset b v) s = execCoreReset b v s := rfl
@[simp] theorem exec_coreMarchTest (p : CoreId) (r : CoreTest) (s : State) :
    exec (.coreMarchTest p r) s = execCoreMarchTest p r s := rfl
@[simp] theorem exec_repairEntry (b : BentId) (e : BitVec 6) (v : Word) (s : State) :
    exec (.repairEntry b e v) s = execRepairEntry b e v s := rfl
@[simp] theorem exec_hostPoolWrite (reg : Bool) (v : Word) (s : State) :
    exec (.hostPoolWrite reg v) s = execHostPoolWrite reg v s := rfl
@[simp] theorem exec_registerWrite (off : BitVec 26) (n : Fin 4) (v : Word) (s : State) :
    exec (.registerWrite off n v) s = execRegisterWrite off n v s := rfl
@[simp] theorem exec_coldReset (s : State) : exec .coldReset s = execColdReset s := rfl
@[simp] theorem exec_powerGood (s : State) : exec .powerGood s = execPowerGood s := rfl
@[simp] theorem exec_firmwareVerify (f : Flash) (s : State) :
    exec (.firmwareVerify f) s = execFirmwareVerify f s := rfl
@[simp] theorem exec_bentPowerUp (b : BentId) (s : State) : exec (.bentPowerUp b) s = execBentPowerUp b s := rfl
@[simp] theorem exec_stackTrainingEnd (b : BentId) (s : State) :
    exec (.stackTrainingEnd b) s = execStackTrainingEnd b s := rfl
@[simp] theorem exec_marchTestEnd (b : BentId) (r : MarchResult) (s : State) :
    exec (.marchTestEnd b r) s = execMarchTestEnd b r s := rfl
@[simp] theorem exec_hostLinkTrained (j : Fin 2) (cxl : Bool) (s : State) :
    exec (.hostLinkTrained j cxl) s = execHostLinkTrained j cxl s := rfl
@[simp] theorem exec_hostAccess (r : HostReq) (s : State) : exec (.hostAccess r) s = execHostAccess r s := rfl
@[simp] theorem exec_getVersion (s : State) : exec .getVersion s = execGetVersion s := rfl
@[simp] theorem exec_getCapabilities (req : List Byte) (s : State) :
    exec (.getCapabilities req) s = execGetCapabilities req s := rfl
@[simp] theorem exec_negotiateAlgorithms (req : List Byte) (s : State) :
    exec (.negotiateAlgorithms req) s = execNegotiateAlgorithms req s := rfl
@[simp] theorem exec_getDigests (s : State) : exec .getDigests s = execGetDigests s := rfl
@[simp] theorem exec_getCertificate (slot : BitVec 8) (off : Nat) (len : Nat) (s : State) :
    exec (.getCertificate slot off len) s = execGetCertificate slot off len s := rfl
@[simp] theorem exec_challenge (req : List Byte) (s : State) : exec (.challenge req) s = execChallenge req s := rfl
@[simp] theorem exec_getMeasurements (req : List Byte) (s : State) :
    exec (.getMeasurements req) s = execGetMeasurements req s := rfl
@[simp] theorem exec_sessionRequest (req : List Byte) (s : State) :
    exec (.sessionRequest req) s = execSessionRequest req s := rfl
@[simp] theorem exec_scarfFlit (n : Fin 18) (flit : Flit) (s : State) :
    exec (.scarfFlit n flit) s = execScarfFlit n flit s := rfl
@[simp] theorem exec_linkRetrain (n : Fin 18) (s : State) : exec (.linkRetrain n) s = execLinkRetrain n s := rfl
@[simp] theorem exec_linkDown (n : Fin 18) (s : State) : exec (.linkDown n) s = execLinkDown n s := rfl
@[simp] theorem exec_peerRequest (r : PeerReq) (s : State) : exec (.peerRequest r) s = execPeerRequest r s := rfl
@[simp] theorem exec_retrainEnd (n : Fin 18) (good : Bool) (s : State) :
    exec (.retrainEnd n good) s = execRetrainEnd n good s := rfl
@[simp] theorem exec_hostLinkDown (j : Fin 2) (s : State) : exec (.hostLinkDown j) s = execHostLinkDown j s := rfl
@[simp] theorem exec_chunkAcknowledgement (p : CoreId) (seq : W32) (s : State) :
    exec (.chunkAcknowledgement p seq) s = execChunkAcknowledgement p seq s := rfl
@[simp] theorem exec_acknowledgementConfirmation (p : CoreId) (seq : W32) (s : State) :
    exec (.acknowledgementConfirmation p seq) s = execAcknowledgementConfirmation p seq s := rfl
@[simp] theorem exec_homeAcknowledgement (p : CoreId) (k : Ctx) (n : Nat) (s : State) :
    exec (.homeAcknowledgement p k n) s = execHomeAcknowledgement p k n s := rfl
@[simp] theorem exec_cxlCacheRequest (addr : Word) (wr : Option (List Byte)) (s : State) :
    exec (.cxlCacheRequest addr wr) s = execCxlCacheRequest addr wr s := rfl

end Sys2Proof.Machine
end

