-- ==== Sys2Proof/Laws/State.lean ====
section
/-! SUPPORT. Each field of the state after each update of a part: one lemma per field and update. -/

namespace Sys2Proof.Machine

@[simp] theorem setCore_bays (s : State) (p : CoreId) (c : Core) : (s.setCore p c).bays = s.bays := rfl
@[simp] theorem setCore_bents (s : State) (p : CoreId) (c : Core) : (s.setCore p c).bents = s.bents := rfl
@[simp] theorem setCore_mem (s : State) (p : CoreId) (c : Core) : (s.setCore p c).mem = s.mem := rfl
@[simp] theorem setCore_llc (s : State) (p : CoreId) (c : Core) : (s.setCore p c).llc = s.llc := rfl
@[simp] theorem setCore_dedup (s : State) (p : CoreId) (c : Core) : (s.setCore p c).dedup = s.dedup := rfl
@[simp] theorem setCore_marks (s : State) (p : CoreId) (c : Core) : (s.setCore p c).marks = s.marks := rfl
@[simp] theorem setCore_launch (s : State) (p : CoreId) (c : Core) : (s.setCore p c).launch = s.launch := rfl
@[simp] theorem setCore_pm (s : State) (p : CoreId) (c : Core) : (s.setCore p c).pm = s.pm := rfl
@[simp] theorem setCore_flt (s : State) (p : CoreId) (c : Core) : (s.setCore p c).flt = s.flt := rfl
@[simp] theorem setCore_trans (s : State) (p : CoreId) (c : Core) : (s.setCore p c).trans = s.trans := rfl
@[simp] theorem setCore_trace (s : State) (p : CoreId) (c : Core) : (s.setCore p c).trace = s.trace := rfl
@[simp] theorem setCore_clock (s : State) (p : CoreId) (c : Core) : (s.setCore p c).clock = s.clock := rfl
@[simp] theorem setCore_ready (s : State) (p : CoreId) (c : Core) : (s.setCore p c).ready = s.ready := rfl
@[simp] theorem setCore_links (s : State) (p : CoreId) (c : Core) : (s.setCore p c).links = s.links := rfl
@[simp] theorem setCore_bksh (s : State) (p : CoreId) (c : Core) : (s.setCore p c).bksh = s.bksh := rfl
@[simp] theorem setCore_sched (s : State) (p : CoreId) (c : Core) : (s.setCore p c).sched = s.sched := rfl
@[simp] theorem setCore_bent (s : State) (p : CoreId) (c : Core) (d : BentId) : (s.setCore p c).bent d = s.bent d := rfl

@[simp] theorem modCore_bays (s : State) (p : CoreId) (f : Core → Core) : (s.modCore p f).bays = s.bays := rfl
@[simp] theorem modCore_bents (s : State) (p : CoreId) (f : Core → Core) : (s.modCore p f).bents = s.bents := rfl
@[simp] theorem modCore_mem (s : State) (p : CoreId) (f : Core → Core) : (s.modCore p f).mem = s.mem := rfl
@[simp] theorem modCore_llc (s : State) (p : CoreId) (f : Core → Core) : (s.modCore p f).llc = s.llc := rfl
@[simp] theorem modCore_dedup (s : State) (p : CoreId) (f : Core → Core) : (s.modCore p f).dedup = s.dedup := rfl
@[simp] theorem modCore_marks (s : State) (p : CoreId) (f : Core → Core) : (s.modCore p f).marks = s.marks := rfl
@[simp] theorem modCore_launch (s : State) (p : CoreId) (f : Core → Core) : (s.modCore p f).launch = s.launch := rfl
@[simp] theorem modCore_pm (s : State) (p : CoreId) (f : Core → Core) : (s.modCore p f).pm = s.pm := rfl
@[simp] theorem modCore_flt (s : State) (p : CoreId) (f : Core → Core) : (s.modCore p f).flt = s.flt := rfl
@[simp] theorem modCore_trans (s : State) (p : CoreId) (f : Core → Core) : (s.modCore p f).trans = s.trans := rfl
@[simp] theorem modCore_trace (s : State) (p : CoreId) (f : Core → Core) : (s.modCore p f).trace = s.trace := rfl
@[simp] theorem modCore_clock (s : State) (p : CoreId) (f : Core → Core) : (s.modCore p f).clock = s.clock := rfl
@[simp] theorem modCore_ready (s : State) (p : CoreId) (f : Core → Core) : (s.modCore p f).ready = s.ready := rfl
@[simp] theorem modCore_links (s : State) (p : CoreId) (f : Core → Core) : (s.modCore p f).links = s.links := rfl
@[simp] theorem modCore_bksh (s : State) (p : CoreId) (f : Core → Core) : (s.modCore p f).bksh = s.bksh := rfl
@[simp] theorem modCore_sched (s : State) (p : CoreId) (f : Core → Core) : (s.modCore p f).sched = s.sched := rfl
@[simp] theorem modCore_bent (s : State) (p : CoreId) (f : Core → Core) (d : BentId) : (s.modCore p f).bent d = s.bent d := rfl

@[simp] theorem mapCores_bays (s : State) (f : Core → Core) : (s.mapCores f).bays = s.bays := rfl
@[simp] theorem mapCores_bents (s : State) (f : Core → Core) : (s.mapCores f).bents = s.bents := rfl
@[simp] theorem mapCores_mem (s : State) (f : Core → Core) : (s.mapCores f).mem = s.mem := rfl
@[simp] theorem mapCores_llc (s : State) (f : Core → Core) : (s.mapCores f).llc = s.llc := rfl
@[simp] theorem mapCores_dedup (s : State) (f : Core → Core) : (s.mapCores f).dedup = s.dedup := rfl
@[simp] theorem mapCores_marks (s : State) (f : Core → Core) : (s.mapCores f).marks = s.marks := rfl
@[simp] theorem mapCores_launch (s : State) (f : Core → Core) : (s.mapCores f).launch = s.launch := rfl
@[simp] theorem mapCores_pm (s : State) (f : Core → Core) : (s.mapCores f).pm = s.pm := rfl
@[simp] theorem mapCores_flt (s : State) (f : Core → Core) : (s.mapCores f).flt = s.flt := rfl
@[simp] theorem mapCores_trans (s : State) (f : Core → Core) : (s.mapCores f).trans = s.trans := rfl
@[simp] theorem mapCores_trace (s : State) (f : Core → Core) : (s.mapCores f).trace = s.trace := rfl
@[simp] theorem mapCores_clock (s : State) (f : Core → Core) : (s.mapCores f).clock = s.clock := rfl
@[simp] theorem mapCores_ready (s : State) (f : Core → Core) : (s.mapCores f).ready = s.ready := rfl
@[simp] theorem mapCores_links (s : State) (f : Core → Core) : (s.mapCores f).links = s.links := rfl
@[simp] theorem mapCores_bksh (s : State) (f : Core → Core) : (s.mapCores f).bksh = s.bksh := rfl
@[simp] theorem mapCores_sched (s : State) (f : Core → Core) : (s.mapCores f).sched = s.sched := rfl
@[simp] theorem mapCores_bent (s : State) (f : Core → Core) (d : BentId) : (s.mapCores f).bent d = s.bent d := rfl

@[simp] theorem setCtx_bays (s : State) (p : CoreId) (k : Ctx) (x : Context) : (s.setCtx p k x).bays = s.bays := rfl
@[simp] theorem setCtx_bents (s : State) (p : CoreId) (k : Ctx) (x : Context) : (s.setCtx p k x).bents = s.bents := rfl
@[simp] theorem setCtx_mem (s : State) (p : CoreId) (k : Ctx) (x : Context) : (s.setCtx p k x).mem = s.mem := rfl
@[simp] theorem setCtx_llc (s : State) (p : CoreId) (k : Ctx) (x : Context) : (s.setCtx p k x).llc = s.llc := rfl
@[simp] theorem setCtx_dedup (s : State) (p : CoreId) (k : Ctx) (x : Context) : (s.setCtx p k x).dedup = s.dedup := rfl
@[simp] theorem setCtx_marks (s : State) (p : CoreId) (k : Ctx) (x : Context) : (s.setCtx p k x).marks = s.marks := rfl
@[simp] theorem setCtx_launch (s : State) (p : CoreId) (k : Ctx) (x : Context) : (s.setCtx p k x).launch = s.launch := rfl
@[simp] theorem setCtx_pm (s : State) (p : CoreId) (k : Ctx) (x : Context) : (s.setCtx p k x).pm = s.pm := rfl
@[simp] theorem setCtx_flt (s : State) (p : CoreId) (k : Ctx) (x : Context) : (s.setCtx p k x).flt = s.flt := rfl
@[simp] theorem setCtx_trans (s : State) (p : CoreId) (k : Ctx) (x : Context) : (s.setCtx p k x).trans = s.trans := rfl
@[simp] theorem setCtx_trace (s : State) (p : CoreId) (k : Ctx) (x : Context) : (s.setCtx p k x).trace = s.trace := rfl
@[simp] theorem setCtx_clock (s : State) (p : CoreId) (k : Ctx) (x : Context) : (s.setCtx p k x).clock = s.clock := rfl
@[simp] theorem setCtx_ready (s : State) (p : CoreId) (k : Ctx) (x : Context) : (s.setCtx p k x).ready = s.ready := rfl
@[simp] theorem setCtx_links (s : State) (p : CoreId) (k : Ctx) (x : Context) : (s.setCtx p k x).links = s.links := rfl
@[simp] theorem setCtx_bksh (s : State) (p : CoreId) (k : Ctx) (x : Context) : (s.setCtx p k x).bksh = s.bksh := rfl
@[simp] theorem setCtx_sched (s : State) (p : CoreId) (k : Ctx) (x : Context) : (s.setCtx p k x).sched = s.sched := rfl
@[simp] theorem setCtx_bent (s : State) (p : CoreId) (k : Ctx) (x : Context) (d : BentId) : (s.setCtx p k x).bent d = s.bent d := rfl

@[simp] theorem modCtx_bays (s : State) (p : CoreId) (k : Ctx) (f : Context → Context) : (s.modCtx p k f).bays = s.bays := rfl
@[simp] theorem modCtx_bents (s : State) (p : CoreId) (k : Ctx) (f : Context → Context) : (s.modCtx p k f).bents = s.bents := rfl
@[simp] theorem modCtx_mem (s : State) (p : CoreId) (k : Ctx) (f : Context → Context) : (s.modCtx p k f).mem = s.mem := rfl
@[simp] theorem modCtx_llc (s : State) (p : CoreId) (k : Ctx) (f : Context → Context) : (s.modCtx p k f).llc = s.llc := rfl
@[simp] theorem modCtx_dedup (s : State) (p : CoreId) (k : Ctx) (f : Context → Context) : (s.modCtx p k f).dedup = s.dedup := rfl
@[simp] theorem modCtx_marks (s : State) (p : CoreId) (k : Ctx) (f : Context → Context) : (s.modCtx p k f).marks = s.marks := rfl
@[simp] theorem modCtx_launch (s : State) (p : CoreId) (k : Ctx) (f : Context → Context) : (s.modCtx p k f).launch = s.launch := rfl
@[simp] theorem modCtx_pm (s : State) (p : CoreId) (k : Ctx) (f : Context → Context) : (s.modCtx p k f).pm = s.pm := rfl
@[simp] theorem modCtx_flt (s : State) (p : CoreId) (k : Ctx) (f : Context → Context) : (s.modCtx p k f).flt = s.flt := rfl
@[simp] theorem modCtx_trans (s : State) (p : CoreId) (k : Ctx) (f : Context → Context) : (s.modCtx p k f).trans = s.trans := rfl
@[simp] theorem modCtx_trace (s : State) (p : CoreId) (k : Ctx) (f : Context → Context) : (s.modCtx p k f).trace = s.trace := rfl
@[simp] theorem modCtx_clock (s : State) (p : CoreId) (k : Ctx) (f : Context → Context) : (s.modCtx p k f).clock = s.clock := rfl
@[simp] theorem modCtx_ready (s : State) (p : CoreId) (k : Ctx) (f : Context → Context) : (s.modCtx p k f).ready = s.ready := rfl
@[simp] theorem modCtx_links (s : State) (p : CoreId) (k : Ctx) (f : Context → Context) : (s.modCtx p k f).links = s.links := rfl
@[simp] theorem modCtx_bksh (s : State) (p : CoreId) (k : Ctx) (f : Context → Context) : (s.modCtx p k f).bksh = s.bksh := rfl
@[simp] theorem modCtx_sched (s : State) (p : CoreId) (k : Ctx) (f : Context → Context) : (s.modCtx p k f).sched = s.sched := rfl
@[simp] theorem modCtx_bent (s : State) (p : CoreId) (k : Ctx) (f : Context → Context) (d : BentId) : (s.modCtx p k f).bent d = s.bent d := rfl

@[simp] theorem modEng_bays (s : State) (p : CoreId) (e : Ep) (f : Engine → Engine) : (s.modEng p e f).bays = s.bays := rfl
@[simp] theorem modEng_bents (s : State) (p : CoreId) (e : Ep) (f : Engine → Engine) : (s.modEng p e f).bents = s.bents := rfl
@[simp] theorem modEng_mem (s : State) (p : CoreId) (e : Ep) (f : Engine → Engine) : (s.modEng p e f).mem = s.mem := rfl
@[simp] theorem modEng_llc (s : State) (p : CoreId) (e : Ep) (f : Engine → Engine) : (s.modEng p e f).llc = s.llc := rfl
@[simp] theorem modEng_dedup (s : State) (p : CoreId) (e : Ep) (f : Engine → Engine) : (s.modEng p e f).dedup = s.dedup := rfl
@[simp] theorem modEng_marks (s : State) (p : CoreId) (e : Ep) (f : Engine → Engine) : (s.modEng p e f).marks = s.marks := rfl
@[simp] theorem modEng_launch (s : State) (p : CoreId) (e : Ep) (f : Engine → Engine) : (s.modEng p e f).launch = s.launch := rfl
@[simp] theorem modEng_pm (s : State) (p : CoreId) (e : Ep) (f : Engine → Engine) : (s.modEng p e f).pm = s.pm := rfl
@[simp] theorem modEng_flt (s : State) (p : CoreId) (e : Ep) (f : Engine → Engine) : (s.modEng p e f).flt = s.flt := rfl
@[simp] theorem modEng_trans (s : State) (p : CoreId) (e : Ep) (f : Engine → Engine) : (s.modEng p e f).trans = s.trans := rfl
@[simp] theorem modEng_trace (s : State) (p : CoreId) (e : Ep) (f : Engine → Engine) : (s.modEng p e f).trace = s.trace := rfl
@[simp] theorem modEng_clock (s : State) (p : CoreId) (e : Ep) (f : Engine → Engine) : (s.modEng p e f).clock = s.clock := rfl
@[simp] theorem modEng_ready (s : State) (p : CoreId) (e : Ep) (f : Engine → Engine) : (s.modEng p e f).ready = s.ready := rfl
@[simp] theorem modEng_links (s : State) (p : CoreId) (e : Ep) (f : Engine → Engine) : (s.modEng p e f).links = s.links := rfl
@[simp] theorem modEng_bksh (s : State) (p : CoreId) (e : Ep) (f : Engine → Engine) : (s.modEng p e f).bksh = s.bksh := rfl
@[simp] theorem modEng_sched (s : State) (p : CoreId) (e : Ep) (f : Engine → Engine) : (s.modEng p e f).sched = s.sched := rfl
@[simp] theorem modEng_bent (s : State) (p : CoreId) (e : Ep) (f : Engine → Engine) (d : BentId) : (s.modEng p e f).bent d = s.bent d := rfl

@[simp] theorem modVe_bays (s : State) (p : CoreId) (f : Ve → Ve) : (s.modVe p f).bays = s.bays := rfl
@[simp] theorem modVe_bents (s : State) (p : CoreId) (f : Ve → Ve) : (s.modVe p f).bents = s.bents := rfl
@[simp] theorem modVe_mem (s : State) (p : CoreId) (f : Ve → Ve) : (s.modVe p f).mem = s.mem := rfl
@[simp] theorem modVe_llc (s : State) (p : CoreId) (f : Ve → Ve) : (s.modVe p f).llc = s.llc := rfl
@[simp] theorem modVe_dedup (s : State) (p : CoreId) (f : Ve → Ve) : (s.modVe p f).dedup = s.dedup := rfl
@[simp] theorem modVe_marks (s : State) (p : CoreId) (f : Ve → Ve) : (s.modVe p f).marks = s.marks := rfl
@[simp] theorem modVe_launch (s : State) (p : CoreId) (f : Ve → Ve) : (s.modVe p f).launch = s.launch := rfl
@[simp] theorem modVe_pm (s : State) (p : CoreId) (f : Ve → Ve) : (s.modVe p f).pm = s.pm := rfl
@[simp] theorem modVe_flt (s : State) (p : CoreId) (f : Ve → Ve) : (s.modVe p f).flt = s.flt := rfl
@[simp] theorem modVe_trans (s : State) (p : CoreId) (f : Ve → Ve) : (s.modVe p f).trans = s.trans := rfl
@[simp] theorem modVe_trace (s : State) (p : CoreId) (f : Ve → Ve) : (s.modVe p f).trace = s.trace := rfl
@[simp] theorem modVe_clock (s : State) (p : CoreId) (f : Ve → Ve) : (s.modVe p f).clock = s.clock := rfl
@[simp] theorem modVe_ready (s : State) (p : CoreId) (f : Ve → Ve) : (s.modVe p f).ready = s.ready := rfl
@[simp] theorem modVe_links (s : State) (p : CoreId) (f : Ve → Ve) : (s.modVe p f).links = s.links := rfl
@[simp] theorem modVe_bksh (s : State) (p : CoreId) (f : Ve → Ve) : (s.modVe p f).bksh = s.bksh := rfl
@[simp] theorem modVe_sched (s : State) (p : CoreId) (f : Ve → Ve) : (s.modVe p f).sched = s.sched := rfl
@[simp] theorem modVe_bent (s : State) (p : CoreId) (f : Ve → Ve) (d : BentId) : (s.modVe p f).bent d = s.bent d := rfl

@[simp] theorem modMe_bays (s : State) (p : CoreId) (f : Me → Me) : (s.modMe p f).bays = s.bays := rfl
@[simp] theorem modMe_bents (s : State) (p : CoreId) (f : Me → Me) : (s.modMe p f).bents = s.bents := rfl
@[simp] theorem modMe_mem (s : State) (p : CoreId) (f : Me → Me) : (s.modMe p f).mem = s.mem := rfl
@[simp] theorem modMe_llc (s : State) (p : CoreId) (f : Me → Me) : (s.modMe p f).llc = s.llc := rfl
@[simp] theorem modMe_dedup (s : State) (p : CoreId) (f : Me → Me) : (s.modMe p f).dedup = s.dedup := rfl
@[simp] theorem modMe_marks (s : State) (p : CoreId) (f : Me → Me) : (s.modMe p f).marks = s.marks := rfl
@[simp] theorem modMe_launch (s : State) (p : CoreId) (f : Me → Me) : (s.modMe p f).launch = s.launch := rfl
@[simp] theorem modMe_pm (s : State) (p : CoreId) (f : Me → Me) : (s.modMe p f).pm = s.pm := rfl
@[simp] theorem modMe_flt (s : State) (p : CoreId) (f : Me → Me) : (s.modMe p f).flt = s.flt := rfl
@[simp] theorem modMe_trans (s : State) (p : CoreId) (f : Me → Me) : (s.modMe p f).trans = s.trans := rfl
@[simp] theorem modMe_trace (s : State) (p : CoreId) (f : Me → Me) : (s.modMe p f).trace = s.trace := rfl
@[simp] theorem modMe_clock (s : State) (p : CoreId) (f : Me → Me) : (s.modMe p f).clock = s.clock := rfl
@[simp] theorem modMe_ready (s : State) (p : CoreId) (f : Me → Me) : (s.modMe p f).ready = s.ready := rfl
@[simp] theorem modMe_links (s : State) (p : CoreId) (f : Me → Me) : (s.modMe p f).links = s.links := rfl
@[simp] theorem modMe_bksh (s : State) (p : CoreId) (f : Me → Me) : (s.modMe p f).bksh = s.bksh := rfl
@[simp] theorem modMe_sched (s : State) (p : CoreId) (f : Me → Me) : (s.modMe p f).sched = s.sched := rfl
@[simp] theorem modMe_bent (s : State) (p : CoreId) (f : Me → Me) (d : BentId) : (s.modMe p f).bent d = s.bent d := rfl

@[simp] theorem modGate_bays (s : State) (p : CoreId) (f : Gate → Gate) : (s.modGate p f).bays = s.bays := rfl
@[simp] theorem modGate_bents (s : State) (p : CoreId) (f : Gate → Gate) : (s.modGate p f).bents = s.bents := rfl
@[simp] theorem modGate_mem (s : State) (p : CoreId) (f : Gate → Gate) : (s.modGate p f).mem = s.mem := rfl
@[simp] theorem modGate_llc (s : State) (p : CoreId) (f : Gate → Gate) : (s.modGate p f).llc = s.llc := rfl
@[simp] theorem modGate_dedup (s : State) (p : CoreId) (f : Gate → Gate) : (s.modGate p f).dedup = s.dedup := rfl
@[simp] theorem modGate_marks (s : State) (p : CoreId) (f : Gate → Gate) : (s.modGate p f).marks = s.marks := rfl
@[simp] theorem modGate_launch (s : State) (p : CoreId) (f : Gate → Gate) : (s.modGate p f).launch = s.launch := rfl
@[simp] theorem modGate_pm (s : State) (p : CoreId) (f : Gate → Gate) : (s.modGate p f).pm = s.pm := rfl
@[simp] theorem modGate_flt (s : State) (p : CoreId) (f : Gate → Gate) : (s.modGate p f).flt = s.flt := rfl
@[simp] theorem modGate_trans (s : State) (p : CoreId) (f : Gate → Gate) : (s.modGate p f).trans = s.trans := rfl
@[simp] theorem modGate_trace (s : State) (p : CoreId) (f : Gate → Gate) : (s.modGate p f).trace = s.trace := rfl
@[simp] theorem modGate_clock (s : State) (p : CoreId) (f : Gate → Gate) : (s.modGate p f).clock = s.clock := rfl
@[simp] theorem modGate_ready (s : State) (p : CoreId) (f : Gate → Gate) : (s.modGate p f).ready = s.ready := rfl
@[simp] theorem modGate_links (s : State) (p : CoreId) (f : Gate → Gate) : (s.modGate p f).links = s.links := rfl
@[simp] theorem modGate_bksh (s : State) (p : CoreId) (f : Gate → Gate) : (s.modGate p f).bksh = s.bksh := rfl
@[simp] theorem modGate_sched (s : State) (p : CoreId) (f : Gate → Gate) : (s.modGate p f).sched = s.sched := rfl
@[simp] theorem modGate_bent (s : State) (p : CoreId) (f : Gate → Gate) (d : BentId) : (s.modGate p f).bent d = s.bent d := rfl

@[simp] theorem modDbg_bays (s : State) (p : CoreId) (f : Debug → Debug) : (s.modDbg p f).bays = s.bays := rfl
@[simp] theorem modDbg_bents (s : State) (p : CoreId) (f : Debug → Debug) : (s.modDbg p f).bents = s.bents := rfl
@[simp] theorem modDbg_mem (s : State) (p : CoreId) (f : Debug → Debug) : (s.modDbg p f).mem = s.mem := rfl
@[simp] theorem modDbg_llc (s : State) (p : CoreId) (f : Debug → Debug) : (s.modDbg p f).llc = s.llc := rfl
@[simp] theorem modDbg_dedup (s : State) (p : CoreId) (f : Debug → Debug) : (s.modDbg p f).dedup = s.dedup := rfl
@[simp] theorem modDbg_marks (s : State) (p : CoreId) (f : Debug → Debug) : (s.modDbg p f).marks = s.marks := rfl
@[simp] theorem modDbg_launch (s : State) (p : CoreId) (f : Debug → Debug) : (s.modDbg p f).launch = s.launch := rfl
@[simp] theorem modDbg_pm (s : State) (p : CoreId) (f : Debug → Debug) : (s.modDbg p f).pm = s.pm := rfl
@[simp] theorem modDbg_flt (s : State) (p : CoreId) (f : Debug → Debug) : (s.modDbg p f).flt = s.flt := rfl
@[simp] theorem modDbg_trans (s : State) (p : CoreId) (f : Debug → Debug) : (s.modDbg p f).trans = s.trans := rfl
@[simp] theorem modDbg_trace (s : State) (p : CoreId) (f : Debug → Debug) : (s.modDbg p f).trace = s.trace := rfl
@[simp] theorem modDbg_clock (s : State) (p : CoreId) (f : Debug → Debug) : (s.modDbg p f).clock = s.clock := rfl
@[simp] theorem modDbg_ready (s : State) (p : CoreId) (f : Debug → Debug) : (s.modDbg p f).ready = s.ready := rfl
@[simp] theorem modDbg_links (s : State) (p : CoreId) (f : Debug → Debug) : (s.modDbg p f).links = s.links := rfl
@[simp] theorem modDbg_bksh (s : State) (p : CoreId) (f : Debug → Debug) : (s.modDbg p f).bksh = s.bksh := rfl
@[simp] theorem modDbg_sched (s : State) (p : CoreId) (f : Debug → Debug) : (s.modDbg p f).sched = s.sched := rfl
@[simp] theorem modDbg_bent (s : State) (p : CoreId) (f : Debug → Debug) (d : BentId) : (s.modDbg p f).bent d = s.bent d := rfl

@[simp] theorem setBent_cores (s : State) (b : BentId) (x : Bent) : (s.setBent b x).cores = s.cores := rfl
@[simp] theorem setBent_bays (s : State) (b : BentId) (x : Bent) : (s.setBent b x).bays = s.bays := rfl
@[simp] theorem setBent_mem (s : State) (b : BentId) (x : Bent) : (s.setBent b x).mem = s.mem := rfl
@[simp] theorem setBent_llc (s : State) (b : BentId) (x : Bent) : (s.setBent b x).llc = s.llc := rfl
@[simp] theorem setBent_dedup (s : State) (b : BentId) (x : Bent) : (s.setBent b x).dedup = s.dedup := rfl
@[simp] theorem setBent_marks (s : State) (b : BentId) (x : Bent) : (s.setBent b x).marks = s.marks := rfl
@[simp] theorem setBent_launch (s : State) (b : BentId) (x : Bent) : (s.setBent b x).launch = s.launch := rfl
@[simp] theorem setBent_pm (s : State) (b : BentId) (x : Bent) : (s.setBent b x).pm = s.pm := rfl
@[simp] theorem setBent_flt (s : State) (b : BentId) (x : Bent) : (s.setBent b x).flt = s.flt := rfl
@[simp] theorem setBent_trans (s : State) (b : BentId) (x : Bent) : (s.setBent b x).trans = s.trans := rfl
@[simp] theorem setBent_trace (s : State) (b : BentId) (x : Bent) : (s.setBent b x).trace = s.trace := rfl
@[simp] theorem setBent_clock (s : State) (b : BentId) (x : Bent) : (s.setBent b x).clock = s.clock := rfl
@[simp] theorem setBent_ready (s : State) (b : BentId) (x : Bent) : (s.setBent b x).ready = s.ready := rfl
@[simp] theorem setBent_links (s : State) (b : BentId) (x : Bent) : (s.setBent b x).links = s.links := rfl
@[simp] theorem setBent_bksh (s : State) (b : BentId) (x : Bent) : (s.setBent b x).bksh = s.bksh := rfl
@[simp] theorem setBent_sched (s : State) (b : BentId) (x : Bent) : (s.setBent b x).sched = s.sched := rfl
@[simp] theorem setBent_core (s : State) (b : BentId) (x : Bent) (r : CoreId) : (s.setBent b x).core r = s.core r := rfl

@[simp] theorem modBent_cores (s : State) (b : BentId) (f : Bent → Bent) : (s.modBent b f).cores = s.cores := rfl
@[simp] theorem modBent_bays (s : State) (b : BentId) (f : Bent → Bent) : (s.modBent b f).bays = s.bays := rfl
@[simp] theorem modBent_mem (s : State) (b : BentId) (f : Bent → Bent) : (s.modBent b f).mem = s.mem := rfl
@[simp] theorem modBent_llc (s : State) (b : BentId) (f : Bent → Bent) : (s.modBent b f).llc = s.llc := rfl
@[simp] theorem modBent_dedup (s : State) (b : BentId) (f : Bent → Bent) : (s.modBent b f).dedup = s.dedup := rfl
@[simp] theorem modBent_marks (s : State) (b : BentId) (f : Bent → Bent) : (s.modBent b f).marks = s.marks := rfl
@[simp] theorem modBent_launch (s : State) (b : BentId) (f : Bent → Bent) : (s.modBent b f).launch = s.launch := rfl
@[simp] theorem modBent_pm (s : State) (b : BentId) (f : Bent → Bent) : (s.modBent b f).pm = s.pm := rfl
@[simp] theorem modBent_flt (s : State) (b : BentId) (f : Bent → Bent) : (s.modBent b f).flt = s.flt := rfl
@[simp] theorem modBent_trans (s : State) (b : BentId) (f : Bent → Bent) : (s.modBent b f).trans = s.trans := rfl
@[simp] theorem modBent_trace (s : State) (b : BentId) (f : Bent → Bent) : (s.modBent b f).trace = s.trace := rfl
@[simp] theorem modBent_clock (s : State) (b : BentId) (f : Bent → Bent) : (s.modBent b f).clock = s.clock := rfl
@[simp] theorem modBent_ready (s : State) (b : BentId) (f : Bent → Bent) : (s.modBent b f).ready = s.ready := rfl
@[simp] theorem modBent_links (s : State) (b : BentId) (f : Bent → Bent) : (s.modBent b f).links = s.links := rfl
@[simp] theorem modBent_bksh (s : State) (b : BentId) (f : Bent → Bent) : (s.modBent b f).bksh = s.bksh := rfl
@[simp] theorem modBent_sched (s : State) (b : BentId) (f : Bent → Bent) : (s.modBent b f).sched = s.sched := rfl
@[simp] theorem modBent_core (s : State) (b : BentId) (f : Bent → Bent) (r : CoreId) : (s.modBent b f).core r = s.core r := rfl

@[simp] theorem mapBents_cores (s : State) (f : Bent → Bent) : (s.mapBents f).cores = s.cores := rfl
@[simp] theorem mapBents_bays (s : State) (f : Bent → Bent) : (s.mapBents f).bays = s.bays := rfl
@[simp] theorem mapBents_mem (s : State) (f : Bent → Bent) : (s.mapBents f).mem = s.mem := rfl
@[simp] theorem mapBents_llc (s : State) (f : Bent → Bent) : (s.mapBents f).llc = s.llc := rfl
@[simp] theorem mapBents_dedup (s : State) (f : Bent → Bent) : (s.mapBents f).dedup = s.dedup := rfl
@[simp] theorem mapBents_marks (s : State) (f : Bent → Bent) : (s.mapBents f).marks = s.marks := rfl
@[simp] theorem mapBents_launch (s : State) (f : Bent → Bent) : (s.mapBents f).launch = s.launch := rfl
@[simp] theorem mapBents_pm (s : State) (f : Bent → Bent) : (s.mapBents f).pm = s.pm := rfl
@[simp] theorem mapBents_flt (s : State) (f : Bent → Bent) : (s.mapBents f).flt = s.flt := rfl
@[simp] theorem mapBents_trans (s : State) (f : Bent → Bent) : (s.mapBents f).trans = s.trans := rfl
@[simp] theorem mapBents_trace (s : State) (f : Bent → Bent) : (s.mapBents f).trace = s.trace := rfl
@[simp] theorem mapBents_clock (s : State) (f : Bent → Bent) : (s.mapBents f).clock = s.clock := rfl
@[simp] theorem mapBents_ready (s : State) (f : Bent → Bent) : (s.mapBents f).ready = s.ready := rfl
@[simp] theorem mapBents_links (s : State) (f : Bent → Bent) : (s.mapBents f).links = s.links := rfl
@[simp] theorem mapBents_bksh (s : State) (f : Bent → Bent) : (s.mapBents f).bksh = s.bksh := rfl
@[simp] theorem mapBents_sched (s : State) (f : Bent → Bent) : (s.mapBents f).sched = s.sched := rfl
@[simp] theorem mapBents_core (s : State) (f : Bent → Bent) (r : CoreId) : (s.mapBents f).core r = s.core r := rfl

@[simp] theorem modBay_cores (s : State) (y : Fin 64) (f : Bay → Bay) : (s.modBay y f).cores = s.cores := rfl
@[simp] theorem modBay_bents (s : State) (y : Fin 64) (f : Bay → Bay) : (s.modBay y f).bents = s.bents := rfl
@[simp] theorem modBay_mem (s : State) (y : Fin 64) (f : Bay → Bay) : (s.modBay y f).mem = s.mem := rfl
@[simp] theorem modBay_llc (s : State) (y : Fin 64) (f : Bay → Bay) : (s.modBay y f).llc = s.llc := rfl
@[simp] theorem modBay_dedup (s : State) (y : Fin 64) (f : Bay → Bay) : (s.modBay y f).dedup = s.dedup := rfl
@[simp] theorem modBay_marks (s : State) (y : Fin 64) (f : Bay → Bay) : (s.modBay y f).marks = s.marks := rfl
@[simp] theorem modBay_launch (s : State) (y : Fin 64) (f : Bay → Bay) : (s.modBay y f).launch = s.launch := rfl
@[simp] theorem modBay_pm (s : State) (y : Fin 64) (f : Bay → Bay) : (s.modBay y f).pm = s.pm := rfl
@[simp] theorem modBay_flt (s : State) (y : Fin 64) (f : Bay → Bay) : (s.modBay y f).flt = s.flt := rfl
@[simp] theorem modBay_trans (s : State) (y : Fin 64) (f : Bay → Bay) : (s.modBay y f).trans = s.trans := rfl
@[simp] theorem modBay_trace (s : State) (y : Fin 64) (f : Bay → Bay) : (s.modBay y f).trace = s.trace := rfl
@[simp] theorem modBay_clock (s : State) (y : Fin 64) (f : Bay → Bay) : (s.modBay y f).clock = s.clock := rfl
@[simp] theorem modBay_ready (s : State) (y : Fin 64) (f : Bay → Bay) : (s.modBay y f).ready = s.ready := rfl
@[simp] theorem modBay_links (s : State) (y : Fin 64) (f : Bay → Bay) : (s.modBay y f).links = s.links := rfl
@[simp] theorem modBay_bksh (s : State) (y : Fin 64) (f : Bay → Bay) : (s.modBay y f).bksh = s.bksh := rfl
@[simp] theorem modBay_sched (s : State) (y : Fin 64) (f : Bay → Bay) : (s.modBay y f).sched = s.sched := rfl
@[simp] theorem modBay_core (s : State) (y : Fin 64) (f : Bay → Bay) (r : CoreId) : (s.modBay y f).core r = s.core r := rfl
@[simp] theorem modBay_bent (s : State) (y : Fin 64) (f : Bay → Bay) (d : BentId) : (s.modBay y f).bent d = s.bent d := rfl

@[simp] theorem modLq_cores (s : State) (q : BitVec 6) (f : LaunchQ → LaunchQ) : (s.modLq q f).cores = s.cores := rfl
@[simp] theorem modLq_bays (s : State) (q : BitVec 6) (f : LaunchQ → LaunchQ) : (s.modLq q f).bays = s.bays := rfl
@[simp] theorem modLq_bents (s : State) (q : BitVec 6) (f : LaunchQ → LaunchQ) : (s.modLq q f).bents = s.bents := rfl
@[simp] theorem modLq_mem (s : State) (q : BitVec 6) (f : LaunchQ → LaunchQ) : (s.modLq q f).mem = s.mem := rfl
@[simp] theorem modLq_llc (s : State) (q : BitVec 6) (f : LaunchQ → LaunchQ) : (s.modLq q f).llc = s.llc := rfl
@[simp] theorem modLq_dedup (s : State) (q : BitVec 6) (f : LaunchQ → LaunchQ) : (s.modLq q f).dedup = s.dedup := rfl
@[simp] theorem modLq_marks (s : State) (q : BitVec 6) (f : LaunchQ → LaunchQ) : (s.modLq q f).marks = s.marks := rfl
@[simp] theorem modLq_pm (s : State) (q : BitVec 6) (f : LaunchQ → LaunchQ) : (s.modLq q f).pm = s.pm := rfl
@[simp] theorem modLq_flt (s : State) (q : BitVec 6) (f : LaunchQ → LaunchQ) : (s.modLq q f).flt = s.flt := rfl
@[simp] theorem modLq_trans (s : State) (q : BitVec 6) (f : LaunchQ → LaunchQ) : (s.modLq q f).trans = s.trans := rfl
@[simp] theorem modLq_trace (s : State) (q : BitVec 6) (f : LaunchQ → LaunchQ) : (s.modLq q f).trace = s.trace := rfl
@[simp] theorem modLq_clock (s : State) (q : BitVec 6) (f : LaunchQ → LaunchQ) : (s.modLq q f).clock = s.clock := rfl
@[simp] theorem modLq_ready (s : State) (q : BitVec 6) (f : LaunchQ → LaunchQ) : (s.modLq q f).ready = s.ready := rfl
@[simp] theorem modLq_links (s : State) (q : BitVec 6) (f : LaunchQ → LaunchQ) : (s.modLq q f).links = s.links := rfl
@[simp] theorem modLq_bksh (s : State) (q : BitVec 6) (f : LaunchQ → LaunchQ) : (s.modLq q f).bksh = s.bksh := rfl
@[simp] theorem modLq_sched (s : State) (q : BitVec 6) (f : LaunchQ → LaunchQ) : (s.modLq q f).sched = s.sched := rfl
@[simp] theorem modLq_core (s : State) (q : BitVec 6) (f : LaunchQ → LaunchQ) (r : CoreId) : (s.modLq q f).core r = s.core r := rfl
@[simp] theorem modLq_bent (s : State) (q : BitVec 6) (f : LaunchQ → LaunchQ) (d : BentId) : (s.modLq q f).bent d = s.bent d := rfl

@[simp] theorem modGang_cores (s : State) (g : Nat) (f : Gang → Gang) : (s.modGang g f).cores = s.cores := rfl
@[simp] theorem modGang_bays (s : State) (g : Nat) (f : Gang → Gang) : (s.modGang g f).bays = s.bays := rfl
@[simp] theorem modGang_bents (s : State) (g : Nat) (f : Gang → Gang) : (s.modGang g f).bents = s.bents := rfl
@[simp] theorem modGang_mem (s : State) (g : Nat) (f : Gang → Gang) : (s.modGang g f).mem = s.mem := rfl
@[simp] theorem modGang_llc (s : State) (g : Nat) (f : Gang → Gang) : (s.modGang g f).llc = s.llc := rfl
@[simp] theorem modGang_dedup (s : State) (g : Nat) (f : Gang → Gang) : (s.modGang g f).dedup = s.dedup := rfl
@[simp] theorem modGang_marks (s : State) (g : Nat) (f : Gang → Gang) : (s.modGang g f).marks = s.marks := rfl
@[simp] theorem modGang_pm (s : State) (g : Nat) (f : Gang → Gang) : (s.modGang g f).pm = s.pm := rfl
@[simp] theorem modGang_flt (s : State) (g : Nat) (f : Gang → Gang) : (s.modGang g f).flt = s.flt := rfl
@[simp] theorem modGang_trans (s : State) (g : Nat) (f : Gang → Gang) : (s.modGang g f).trans = s.trans := rfl
@[simp] theorem modGang_trace (s : State) (g : Nat) (f : Gang → Gang) : (s.modGang g f).trace = s.trace := rfl
@[simp] theorem modGang_clock (s : State) (g : Nat) (f : Gang → Gang) : (s.modGang g f).clock = s.clock := rfl
@[simp] theorem modGang_ready (s : State) (g : Nat) (f : Gang → Gang) : (s.modGang g f).ready = s.ready := rfl
@[simp] theorem modGang_links (s : State) (g : Nat) (f : Gang → Gang) : (s.modGang g f).links = s.links := rfl
@[simp] theorem modGang_bksh (s : State) (g : Nat) (f : Gang → Gang) : (s.modGang g f).bksh = s.bksh := rfl
@[simp] theorem modGang_sched (s : State) (g : Nat) (f : Gang → Gang) : (s.modGang g f).sched = s.sched := rfl
@[simp] theorem modGang_core (s : State) (g : Nat) (f : Gang → Gang) (r : CoreId) : (s.modGang g f).core r = s.core r := rfl
@[simp] theorem modGang_bent (s : State) (g : Nat) (f : Gang → Gang) (d : BentId) : (s.modGang g f).bent d = s.bent d := rfl

@[simp] theorem modLaunch_cores (s : State) (f : Launch → Launch) : (s.modLaunch f).cores = s.cores := rfl
@[simp] theorem modLaunch_bays (s : State) (f : Launch → Launch) : (s.modLaunch f).bays = s.bays := rfl
@[simp] theorem modLaunch_bents (s : State) (f : Launch → Launch) : (s.modLaunch f).bents = s.bents := rfl
@[simp] theorem modLaunch_mem (s : State) (f : Launch → Launch) : (s.modLaunch f).mem = s.mem := rfl
@[simp] theorem modLaunch_llc (s : State) (f : Launch → Launch) : (s.modLaunch f).llc = s.llc := rfl
@[simp] theorem modLaunch_dedup (s : State) (f : Launch → Launch) : (s.modLaunch f).dedup = s.dedup := rfl
@[simp] theorem modLaunch_marks (s : State) (f : Launch → Launch) : (s.modLaunch f).marks = s.marks := rfl
@[simp] theorem modLaunch_launch (s : State) (f : Launch → Launch) : (s.modLaunch f).launch = f s.launch := rfl
@[simp] theorem modLaunch_pm (s : State) (f : Launch → Launch) : (s.modLaunch f).pm = s.pm := rfl
@[simp] theorem modLaunch_flt (s : State) (f : Launch → Launch) : (s.modLaunch f).flt = s.flt := rfl
@[simp] theorem modLaunch_trans (s : State) (f : Launch → Launch) : (s.modLaunch f).trans = s.trans := rfl
@[simp] theorem modLaunch_trace (s : State) (f : Launch → Launch) : (s.modLaunch f).trace = s.trace := rfl
@[simp] theorem modLaunch_clock (s : State) (f : Launch → Launch) : (s.modLaunch f).clock = s.clock := rfl
@[simp] theorem modLaunch_ready (s : State) (f : Launch → Launch) : (s.modLaunch f).ready = s.ready := rfl
@[simp] theorem modLaunch_links (s : State) (f : Launch → Launch) : (s.modLaunch f).links = s.links := rfl
@[simp] theorem modLaunch_bksh (s : State) (f : Launch → Launch) : (s.modLaunch f).bksh = s.bksh := rfl
@[simp] theorem modLaunch_sched (s : State) (f : Launch → Launch) : (s.modLaunch f).sched = s.sched := rfl
@[simp] theorem modLaunch_core (s : State) (f : Launch → Launch) (r : CoreId) : (s.modLaunch f).core r = s.core r := rfl
@[simp] theorem modLaunch_bent (s : State) (f : Launch → Launch) (d : BentId) : (s.modLaunch f).bent d = s.bent d := rfl

@[simp] theorem modTrace_cores (s : State) (f : Trace → Trace) : (s.modTrace f).cores = s.cores := rfl
@[simp] theorem modTrace_bays (s : State) (f : Trace → Trace) : (s.modTrace f).bays = s.bays := rfl
@[simp] theorem modTrace_bents (s : State) (f : Trace → Trace) : (s.modTrace f).bents = s.bents := rfl
@[simp] theorem modTrace_mem (s : State) (f : Trace → Trace) : (s.modTrace f).mem = s.mem := rfl
@[simp] theorem modTrace_llc (s : State) (f : Trace → Trace) : (s.modTrace f).llc = s.llc := rfl
@[simp] theorem modTrace_dedup (s : State) (f : Trace → Trace) : (s.modTrace f).dedup = s.dedup := rfl
@[simp] theorem modTrace_marks (s : State) (f : Trace → Trace) : (s.modTrace f).marks = s.marks := rfl
@[simp] theorem modTrace_launch (s : State) (f : Trace → Trace) : (s.modTrace f).launch = s.launch := rfl
@[simp] theorem modTrace_pm (s : State) (f : Trace → Trace) : (s.modTrace f).pm = s.pm := rfl
@[simp] theorem modTrace_flt (s : State) (f : Trace → Trace) : (s.modTrace f).flt = s.flt := rfl
@[simp] theorem modTrace_trans (s : State) (f : Trace → Trace) : (s.modTrace f).trans = s.trans := rfl
@[simp] theorem modTrace_trace (s : State) (f : Trace → Trace) : (s.modTrace f).trace = f s.trace := rfl
@[simp] theorem modTrace_clock (s : State) (f : Trace → Trace) : (s.modTrace f).clock = s.clock := rfl
@[simp] theorem modTrace_ready (s : State) (f : Trace → Trace) : (s.modTrace f).ready = s.ready := rfl
@[simp] theorem modTrace_links (s : State) (f : Trace → Trace) : (s.modTrace f).links = s.links := rfl
@[simp] theorem modTrace_bksh (s : State) (f : Trace → Trace) : (s.modTrace f).bksh = s.bksh := rfl
@[simp] theorem modTrace_sched (s : State) (f : Trace → Trace) : (s.modTrace f).sched = s.sched := rfl
@[simp] theorem modTrace_core (s : State) (f : Trace → Trace) (r : CoreId) : (s.modTrace f).core r = s.core r := rfl
@[simp] theorem modTrace_bent (s : State) (f : Trace → Trace) (d : BentId) : (s.modTrace f).bent d = s.bent d := rfl

@[simp] theorem modFlt_cores (s : State) (f : Faults → Faults) : (s.modFlt f).cores = s.cores := rfl
@[simp] theorem modFlt_bays (s : State) (f : Faults → Faults) : (s.modFlt f).bays = s.bays := rfl
@[simp] theorem modFlt_bents (s : State) (f : Faults → Faults) : (s.modFlt f).bents = s.bents := rfl
@[simp] theorem modFlt_mem (s : State) (f : Faults → Faults) : (s.modFlt f).mem = s.mem := rfl
@[simp] theorem modFlt_llc (s : State) (f : Faults → Faults) : (s.modFlt f).llc = s.llc := rfl
@[simp] theorem modFlt_dedup (s : State) (f : Faults → Faults) : (s.modFlt f).dedup = s.dedup := rfl
@[simp] theorem modFlt_marks (s : State) (f : Faults → Faults) : (s.modFlt f).marks = s.marks := rfl
@[simp] theorem modFlt_launch (s : State) (f : Faults → Faults) : (s.modFlt f).launch = s.launch := rfl
@[simp] theorem modFlt_pm (s : State) (f : Faults → Faults) : (s.modFlt f).pm = s.pm := rfl
@[simp] theorem modFlt_flt (s : State) (f : Faults → Faults) : (s.modFlt f).flt = f s.flt := rfl
@[simp] theorem modFlt_trans (s : State) (f : Faults → Faults) : (s.modFlt f).trans = s.trans := rfl
@[simp] theorem modFlt_trace (s : State) (f : Faults → Faults) : (s.modFlt f).trace = s.trace := rfl
@[simp] theorem modFlt_clock (s : State) (f : Faults → Faults) : (s.modFlt f).clock = s.clock := rfl
@[simp] theorem modFlt_ready (s : State) (f : Faults → Faults) : (s.modFlt f).ready = s.ready := rfl
@[simp] theorem modFlt_links (s : State) (f : Faults → Faults) : (s.modFlt f).links = s.links := rfl
@[simp] theorem modFlt_bksh (s : State) (f : Faults → Faults) : (s.modFlt f).bksh = s.bksh := rfl
@[simp] theorem modFlt_sched (s : State) (f : Faults → Faults) : (s.modFlt f).sched = s.sched := rfl
@[simp] theorem modFlt_core (s : State) (f : Faults → Faults) (r : CoreId) : (s.modFlt f).core r = s.core r := rfl
@[simp] theorem modFlt_bent (s : State) (f : Faults → Faults) (d : BentId) : (s.modFlt f).bent d = s.bent d := rfl

@[simp] theorem modPm_cores (s : State) (f : Pm → Pm) : (s.modPm f).cores = s.cores := rfl
@[simp] theorem modPm_bays (s : State) (f : Pm → Pm) : (s.modPm f).bays = s.bays := rfl
@[simp] theorem modPm_bents (s : State) (f : Pm → Pm) : (s.modPm f).bents = s.bents := rfl
@[simp] theorem modPm_mem (s : State) (f : Pm → Pm) : (s.modPm f).mem = s.mem := rfl
@[simp] theorem modPm_llc (s : State) (f : Pm → Pm) : (s.modPm f).llc = s.llc := rfl
@[simp] theorem modPm_dedup (s : State) (f : Pm → Pm) : (s.modPm f).dedup = s.dedup := rfl
@[simp] theorem modPm_marks (s : State) (f : Pm → Pm) : (s.modPm f).marks = s.marks := rfl
@[simp] theorem modPm_launch (s : State) (f : Pm → Pm) : (s.modPm f).launch = s.launch := rfl
@[simp] theorem modPm_pm (s : State) (f : Pm → Pm) : (s.modPm f).pm = f s.pm := rfl
@[simp] theorem modPm_flt (s : State) (f : Pm → Pm) : (s.modPm f).flt = s.flt := rfl
@[simp] theorem modPm_trans (s : State) (f : Pm → Pm) : (s.modPm f).trans = s.trans := rfl
@[simp] theorem modPm_trace (s : State) (f : Pm → Pm) : (s.modPm f).trace = s.trace := rfl
@[simp] theorem modPm_clock (s : State) (f : Pm → Pm) : (s.modPm f).clock = s.clock := rfl
@[simp] theorem modPm_ready (s : State) (f : Pm → Pm) : (s.modPm f).ready = s.ready := rfl
@[simp] theorem modPm_links (s : State) (f : Pm → Pm) : (s.modPm f).links = s.links := rfl
@[simp] theorem modPm_bksh (s : State) (f : Pm → Pm) : (s.modPm f).bksh = s.bksh := rfl
@[simp] theorem modPm_sched (s : State) (f : Pm → Pm) : (s.modPm f).sched = s.sched := rfl
@[simp] theorem modPm_core (s : State) (f : Pm → Pm) (r : CoreId) : (s.modPm f).core r = s.core r := rfl
@[simp] theorem modPm_bent (s : State) (f : Pm → Pm) (d : BentId) : (s.modPm f).bent d = s.bent d := rfl

@[simp] theorem modClock_cores (s : State) (f : Clock → Clock) : (s.modClock f).cores = s.cores := rfl
@[simp] theorem modClock_bays (s : State) (f : Clock → Clock) : (s.modClock f).bays = s.bays := rfl
@[simp] theorem modClock_bents (s : State) (f : Clock → Clock) : (s.modClock f).bents = s.bents := rfl
@[simp] theorem modClock_mem (s : State) (f : Clock → Clock) : (s.modClock f).mem = s.mem := rfl
@[simp] theorem modClock_llc (s : State) (f : Clock → Clock) : (s.modClock f).llc = s.llc := rfl
@[simp] theorem modClock_dedup (s : State) (f : Clock → Clock) : (s.modClock f).dedup = s.dedup := rfl
@[simp] theorem modClock_marks (s : State) (f : Clock → Clock) : (s.modClock f).marks = s.marks := rfl
@[simp] theorem modClock_launch (s : State) (f : Clock → Clock) : (s.modClock f).launch = s.launch := rfl
@[simp] theorem modClock_pm (s : State) (f : Clock → Clock) : (s.modClock f).pm = s.pm := rfl
@[simp] theorem modClock_flt (s : State) (f : Clock → Clock) : (s.modClock f).flt = s.flt := rfl
@[simp] theorem modClock_trans (s : State) (f : Clock → Clock) : (s.modClock f).trans = s.trans := rfl
@[simp] theorem modClock_trace (s : State) (f : Clock → Clock) : (s.modClock f).trace = s.trace := rfl
@[simp] theorem modClock_clock (s : State) (f : Clock → Clock) : (s.modClock f).clock = f s.clock := rfl
@[simp] theorem modClock_ready (s : State) (f : Clock → Clock) : (s.modClock f).ready = s.ready := rfl
@[simp] theorem modClock_links (s : State) (f : Clock → Clock) : (s.modClock f).links = s.links := rfl
@[simp] theorem modClock_bksh (s : State) (f : Clock → Clock) : (s.modClock f).bksh = s.bksh := rfl
@[simp] theorem modClock_sched (s : State) (f : Clock → Clock) : (s.modClock f).sched = s.sched := rfl
@[simp] theorem modClock_core (s : State) (f : Clock → Clock) (r : CoreId) : (s.modClock f).core r = s.core r := rfl
@[simp] theorem modClock_bent (s : State) (f : Clock → Clock) (d : BentId) : (s.modClock f).bent d = s.bent d := rfl

@[simp] theorem modReady_cores (s : State) (f : Ready → Ready) : (s.modReady f).cores = s.cores := rfl
@[simp] theorem modReady_bays (s : State) (f : Ready → Ready) : (s.modReady f).bays = s.bays := rfl
@[simp] theorem modReady_bents (s : State) (f : Ready → Ready) : (s.modReady f).bents = s.bents := rfl
@[simp] theorem modReady_mem (s : State) (f : Ready → Ready) : (s.modReady f).mem = s.mem := rfl
@[simp] theorem modReady_llc (s : State) (f : Ready → Ready) : (s.modReady f).llc = s.llc := rfl
@[simp] theorem modReady_dedup (s : State) (f : Ready → Ready) : (s.modReady f).dedup = s.dedup := rfl
@[simp] theorem modReady_marks (s : State) (f : Ready → Ready) : (s.modReady f).marks = s.marks := rfl
@[simp] theorem modReady_launch (s : State) (f : Ready → Ready) : (s.modReady f).launch = s.launch := rfl
@[simp] theorem modReady_pm (s : State) (f : Ready → Ready) : (s.modReady f).pm = s.pm := rfl
@[simp] theorem modReady_flt (s : State) (f : Ready → Ready) : (s.modReady f).flt = s.flt := rfl
@[simp] theorem modReady_trans (s : State) (f : Ready → Ready) : (s.modReady f).trans = s.trans := rfl
@[simp] theorem modReady_trace (s : State) (f : Ready → Ready) : (s.modReady f).trace = s.trace := rfl
@[simp] theorem modReady_clock (s : State) (f : Ready → Ready) : (s.modReady f).clock = s.clock := rfl
@[simp] theorem modReady_ready (s : State) (f : Ready → Ready) : (s.modReady f).ready = f s.ready := rfl
@[simp] theorem modReady_links (s : State) (f : Ready → Ready) : (s.modReady f).links = s.links := rfl
@[simp] theorem modReady_bksh (s : State) (f : Ready → Ready) : (s.modReady f).bksh = s.bksh := rfl
@[simp] theorem modReady_sched (s : State) (f : Ready → Ready) : (s.modReady f).sched = s.sched := rfl
@[simp] theorem modReady_core (s : State) (f : Ready → Ready) (r : CoreId) : (s.modReady f).core r = s.core r := rfl
@[simp] theorem modReady_bent (s : State) (f : Ready → Ready) (d : BentId) : (s.modReady f).bent d = s.bent d := rfl

@[simp] theorem modLinks_cores (s : State) (f : Links → Links) : (s.modLinks f).cores = s.cores := rfl
@[simp] theorem modLinks_bays (s : State) (f : Links → Links) : (s.modLinks f).bays = s.bays := rfl
@[simp] theorem modLinks_bents (s : State) (f : Links → Links) : (s.modLinks f).bents = s.bents := rfl
@[simp] theorem modLinks_mem (s : State) (f : Links → Links) : (s.modLinks f).mem = s.mem := rfl
@[simp] theorem modLinks_llc (s : State) (f : Links → Links) : (s.modLinks f).llc = s.llc := rfl
@[simp] theorem modLinks_dedup (s : State) (f : Links → Links) : (s.modLinks f).dedup = s.dedup := rfl
@[simp] theorem modLinks_marks (s : State) (f : Links → Links) : (s.modLinks f).marks = s.marks := rfl
@[simp] theorem modLinks_launch (s : State) (f : Links → Links) : (s.modLinks f).launch = s.launch := rfl
@[simp] theorem modLinks_pm (s : State) (f : Links → Links) : (s.modLinks f).pm = s.pm := rfl
@[simp] theorem modLinks_flt (s : State) (f : Links → Links) : (s.modLinks f).flt = s.flt := rfl
@[simp] theorem modLinks_trans (s : State) (f : Links → Links) : (s.modLinks f).trans = s.trans := rfl
@[simp] theorem modLinks_trace (s : State) (f : Links → Links) : (s.modLinks f).trace = s.trace := rfl
@[simp] theorem modLinks_clock (s : State) (f : Links → Links) : (s.modLinks f).clock = s.clock := rfl
@[simp] theorem modLinks_ready (s : State) (f : Links → Links) : (s.modLinks f).ready = s.ready := rfl
@[simp] theorem modLinks_links (s : State) (f : Links → Links) : (s.modLinks f).links = f s.links := rfl
@[simp] theorem modLinks_bksh (s : State) (f : Links → Links) : (s.modLinks f).bksh = s.bksh := rfl
@[simp] theorem modLinks_sched (s : State) (f : Links → Links) : (s.modLinks f).sched = s.sched := rfl
@[simp] theorem modLinks_core (s : State) (f : Links → Links) (r : CoreId) : (s.modLinks f).core r = s.core r := rfl
@[simp] theorem modLinks_bent (s : State) (f : Links → Links) (d : BentId) : (s.modLinks f).bent d = s.bent d := rfl

@[simp] theorem modSched_cores (s : State) (f : Sched → Sched) : (s.modSched f).cores = s.cores := rfl
@[simp] theorem modSched_bays (s : State) (f : Sched → Sched) : (s.modSched f).bays = s.bays := rfl
@[simp] theorem modSched_bents (s : State) (f : Sched → Sched) : (s.modSched f).bents = s.bents := rfl
@[simp] theorem modSched_mem (s : State) (f : Sched → Sched) : (s.modSched f).mem = s.mem := rfl
@[simp] theorem modSched_llc (s : State) (f : Sched → Sched) : (s.modSched f).llc = s.llc := rfl
@[simp] theorem modSched_dedup (s : State) (f : Sched → Sched) : (s.modSched f).dedup = s.dedup := rfl
@[simp] theorem modSched_marks (s : State) (f : Sched → Sched) : (s.modSched f).marks = s.marks := rfl
@[simp] theorem modSched_launch (s : State) (f : Sched → Sched) : (s.modSched f).launch = s.launch := rfl
@[simp] theorem modSched_pm (s : State) (f : Sched → Sched) : (s.modSched f).pm = s.pm := rfl
@[simp] theorem modSched_flt (s : State) (f : Sched → Sched) : (s.modSched f).flt = s.flt := rfl
@[simp] theorem modSched_trans (s : State) (f : Sched → Sched) : (s.modSched f).trans = s.trans := rfl
@[simp] theorem modSched_trace (s : State) (f : Sched → Sched) : (s.modSched f).trace = s.trace := rfl
@[simp] theorem modSched_clock (s : State) (f : Sched → Sched) : (s.modSched f).clock = s.clock := rfl
@[simp] theorem modSched_ready (s : State) (f : Sched → Sched) : (s.modSched f).ready = s.ready := rfl
@[simp] theorem modSched_links (s : State) (f : Sched → Sched) : (s.modSched f).links = s.links := rfl
@[simp] theorem modSched_bksh (s : State) (f : Sched → Sched) : (s.modSched f).bksh = s.bksh := rfl
@[simp] theorem modSched_sched (s : State) (f : Sched → Sched) : (s.modSched f).sched = f s.sched := rfl
@[simp] theorem modSched_core (s : State) (f : Sched → Sched) (r : CoreId) : (s.modSched f).core r = s.core r := rfl
@[simp] theorem modSched_bent (s : State) (f : Sched → Sched) (d : BentId) : (s.modSched f).bent d = s.bent d := rfl

/-! ### One core -/

@[simp] theorem core_setCtx_chans (c : Core) (k : Ctx) (x : Context) : (c.setCtx k x).chans = c.chans := rfl
@[simp] theorem core_setCtx_tok (c : Core) (k : Ctx) (x : Context) : (c.setCtx k x).tok = c.tok := rfl
@[simp] theorem core_setCtx_eng (c : Core) (k : Ctx) (x : Context) : (c.setCtx k x).eng = c.eng := rfl
@[simp] theorem core_setCtx_flights (c : Core) (k : Ctx) (x : Context) : (c.setCtx k x).flights = c.flights := rfl
@[simp] theorem core_setCtx_nextOrd (c : Core) (k : Ctx) (x : Context) : (c.setCtx k x).nextOrd = c.nextOrd := rfl
@[simp] theorem core_setCtx_lastCe (c : Core) (k : Ctx) (x : Context) : (c.setCtx k x).lastCe = c.lastCe := rfl
@[simp] theorem core_setCtx_scratch (c : Core) (k : Ctx) (x : Context) : (c.setCtx k x).scratch = c.scratch := rfl
@[simp] theorem core_setCtx_l1 (c : Core) (k : Ctx) (x : Context) : (c.setCtx k x).l1 = c.l1 := rfl
@[simp] theorem core_setCtx_icache (c : Core) (k : Ctx) (x : Context) : (c.setCtx k x).icache = c.icache := rfl
@[simp] theorem core_setCtx_tlb (c : Core) (k : Ctx) (x : Context) : (c.setCtx k x).tlb = c.tlb := rfl
@[simp] theorem core_setCtx_comb (c : Core) (k : Ctx) (x : Context) : (c.setCtx k x).comb = c.comb := rfl
@[simp] theorem core_setCtx_combNext (c : Core) (k : Ctx) (x : Context) : (c.setCtx k x).combNext = c.combNext := rfl
@[simp] theorem core_setCtx_mon (c : Core) (k : Ctx) (x : Context) : (c.setCtx k x).mon = c.mon := rfl
@[simp] theorem core_setCtx_monfull (c : Core) (k : Ctx) (x : Context) : (c.setCtx k x).monfull = c.monfull := rfl
@[simp] theorem core_setCtx_plumb (c : Core) (k : Ctx) (x : Context) : (c.setCtx k x).plumb = c.plumb := rfl
@[simp] theorem core_setCtx_gate (c : Core) (k : Ctx) (x : Context) : (c.setCtx k x).gate = c.gate := rfl
@[simp] theorem core_setCtx_rng (c : Core) (k : Ctx) (x : Context) : (c.setCtx k x).rng = c.rng := rfl
@[simp] theorem core_setCtx_fuse (c : Core) (k : Ctx) (x : Context) : (c.setCtx k x).fuse = c.fuse := rfl
@[simp] theorem core_setCtx_ve (c : Core) (k : Ctx) (x : Context) : (c.setCtx k x).ve = c.ve := rfl
@[simp] theorem core_setCtx_me (c : Core) (k : Ctx) (x : Context) : (c.setCtx k x).me = c.me := rfl
@[simp] theorem core_setCtx_pods (c : Core) (k : Ctx) (x : Context) : (c.setCtx k x).pods = c.pods := rfl
@[simp] theorem core_setCtx_engflt (c : Core) (k : Ctx) (x : Context) : (c.setCtx k x).engflt = c.engflt := rfl
@[simp] theorem core_setCtx_dbg (c : Core) (k : Ctx) (x : Context) : (c.setCtx k x).dbg = c.dbg := rfl
@[simp] theorem core_setCtx_sqt (c : Core) (k : Ctx) (x : Context) : (c.setCtx k x).sqt = c.sqt := rfl
@[simp] theorem core_setCtx_place (c : Core) (k : Ctx) (x : Context) : (c.setCtx k x).place = c.place := rfl
@[simp] theorem core_setCtx_fenced (c : Core) (k : Ctx) (x : Context) : (c.setCtx k x).fenced = c.fenced := rfl
@[simp] theorem core_setCtx_move (c : Core) (k : Ctx) (x : Context) : (c.setCtx k x).move = c.move := rfl
@[simp] theorem core_setCtx_eccUntil (c : Core) (k : Ctx) (x : Context) : (c.setCtx k x).eccUntil = c.eccUntil := rfl
@[simp] theorem core_setCtx_seq (c : Core) (k : Ctx) (x : Context) : (c.setCtx k x).seq = c.seq := rfl
@[simp] theorem core_setCtx_chunks (c : Core) (k : Ctx) (x : Context) : (c.setCtx k x).chunks = c.chunks := rfl
@[simp] theorem core_setCtx_saving (c : Core) (k : Ctx) (x : Context) : (c.setCtx k x).saving = c.saving := rfl
@[simp] theorem core_setCtx_testing (c : Core) (k : Ctx) (x : Context) : (c.setCtx k x).testing = c.testing := rfl

@[simp] theorem core_setEng_ctx (c : Core) (e : Ep) (x : Engine) : (c.setEng e x).ctx = c.ctx := rfl
@[simp] theorem core_setEng_chans (c : Core) (e : Ep) (x : Engine) : (c.setEng e x).chans = c.chans := rfl
@[simp] theorem core_setEng_tok (c : Core) (e : Ep) (x : Engine) : (c.setEng e x).tok = c.tok := rfl
@[simp] theorem core_setEng_flights (c : Core) (e : Ep) (x : Engine) : (c.setEng e x).flights = c.flights := rfl
@[simp] theorem core_setEng_nextOrd (c : Core) (e : Ep) (x : Engine) : (c.setEng e x).nextOrd = c.nextOrd := rfl
@[simp] theorem core_setEng_lastCe (c : Core) (e : Ep) (x : Engine) : (c.setEng e x).lastCe = c.lastCe := rfl
@[simp] theorem core_setEng_scratch (c : Core) (e : Ep) (x : Engine) : (c.setEng e x).scratch = c.scratch := rfl
@[simp] theorem core_setEng_l1 (c : Core) (e : Ep) (x : Engine) : (c.setEng e x).l1 = c.l1 := rfl
@[simp] theorem core_setEng_icache (c : Core) (e : Ep) (x : Engine) : (c.setEng e x).icache = c.icache := rfl
@[simp] theorem core_setEng_tlb (c : Core) (e : Ep) (x : Engine) : (c.setEng e x).tlb = c.tlb := rfl
@[simp] theorem core_setEng_comb (c : Core) (e : Ep) (x : Engine) : (c.setEng e x).comb = c.comb := rfl
@[simp] theorem core_setEng_combNext (c : Core) (e : Ep) (x : Engine) : (c.setEng e x).combNext = c.combNext := rfl
@[simp] theorem core_setEng_mon (c : Core) (e : Ep) (x : Engine) : (c.setEng e x).mon = c.mon := rfl
@[simp] theorem core_setEng_monfull (c : Core) (e : Ep) (x : Engine) : (c.setEng e x).monfull = c.monfull := rfl
@[simp] theorem core_setEng_plumb (c : Core) (e : Ep) (x : Engine) : (c.setEng e x).plumb = c.plumb := rfl
@[simp] theorem core_setEng_gate (c : Core) (e : Ep) (x : Engine) : (c.setEng e x).gate = c.gate := rfl
@[simp] theorem core_setEng_rng (c : Core) (e : Ep) (x : Engine) : (c.setEng e x).rng = c.rng := rfl
@[simp] theorem core_setEng_fuse (c : Core) (e : Ep) (x : Engine) : (c.setEng e x).fuse = c.fuse := rfl
@[simp] theorem core_setEng_ve (c : Core) (e : Ep) (x : Engine) : (c.setEng e x).ve = c.ve := rfl
@[simp] theorem core_setEng_me (c : Core) (e : Ep) (x : Engine) : (c.setEng e x).me = c.me := rfl
@[simp] theorem core_setEng_pods (c : Core) (e : Ep) (x : Engine) : (c.setEng e x).pods = c.pods := rfl
@[simp] theorem core_setEng_engflt (c : Core) (e : Ep) (x : Engine) : (c.setEng e x).engflt = c.engflt := rfl
@[simp] theorem core_setEng_dbg (c : Core) (e : Ep) (x : Engine) : (c.setEng e x).dbg = c.dbg := rfl
@[simp] theorem core_setEng_sqt (c : Core) (e : Ep) (x : Engine) : (c.setEng e x).sqt = c.sqt := rfl
@[simp] theorem core_setEng_place (c : Core) (e : Ep) (x : Engine) : (c.setEng e x).place = c.place := rfl
@[simp] theorem core_setEng_fenced (c : Core) (e : Ep) (x : Engine) : (c.setEng e x).fenced = c.fenced := rfl
@[simp] theorem core_setEng_move (c : Core) (e : Ep) (x : Engine) : (c.setEng e x).move = c.move := rfl
@[simp] theorem core_setEng_eccUntil (c : Core) (e : Ep) (x : Engine) : (c.setEng e x).eccUntil = c.eccUntil := rfl
@[simp] theorem core_setEng_seq (c : Core) (e : Ep) (x : Engine) : (c.setEng e x).seq = c.seq := rfl
@[simp] theorem core_setEng_chunks (c : Core) (e : Ep) (x : Engine) : (c.setEng e x).chunks = c.chunks := rfl
@[simp] theorem core_setEng_saving (c : Core) (e : Ep) (x : Engine) : (c.setEng e x).saving = c.saving := rfl
@[simp] theorem core_setEng_testing (c : Core) (e : Ep) (x : Engine) : (c.setEng e x).testing = c.testing := rfl

@[simp] theorem core_modEng_ctx (c : Core) (e : Ep) (f : Engine → Engine) : (c.modEng e f).ctx = c.ctx := rfl
@[simp] theorem core_modEng_chans (c : Core) (e : Ep) (f : Engine → Engine) : (c.modEng e f).chans = c.chans := rfl
@[simp] theorem core_modEng_tok (c : Core) (e : Ep) (f : Engine → Engine) : (c.modEng e f).tok = c.tok := rfl
@[simp] theorem core_modEng_flights (c : Core) (e : Ep) (f : Engine → Engine) : (c.modEng e f).flights = c.flights := rfl
@[simp] theorem core_modEng_nextOrd (c : Core) (e : Ep) (f : Engine → Engine) : (c.modEng e f).nextOrd = c.nextOrd := rfl
@[simp] theorem core_modEng_lastCe (c : Core) (e : Ep) (f : Engine → Engine) : (c.modEng e f).lastCe = c.lastCe := rfl
@[simp] theorem core_modEng_scratch (c : Core) (e : Ep) (f : Engine → Engine) : (c.modEng e f).scratch = c.scratch := rfl
@[simp] theorem core_modEng_l1 (c : Core) (e : Ep) (f : Engine → Engine) : (c.modEng e f).l1 = c.l1 := rfl
@[simp] theorem core_modEng_icache (c : Core) (e : Ep) (f : Engine → Engine) : (c.modEng e f).icache = c.icache := rfl
@[simp] theorem core_modEng_tlb (c : Core) (e : Ep) (f : Engine → Engine) : (c.modEng e f).tlb = c.tlb := rfl
@[simp] theorem core_modEng_comb (c : Core) (e : Ep) (f : Engine → Engine) : (c.modEng e f).comb = c.comb := rfl
@[simp] theorem core_modEng_combNext (c : Core) (e : Ep) (f : Engine → Engine) : (c.modEng e f).combNext = c.combNext := rfl
@[simp] theorem core_modEng_mon (c : Core) (e : Ep) (f : Engine → Engine) : (c.modEng e f).mon = c.mon := rfl
@[simp] theorem core_modEng_monfull (c : Core) (e : Ep) (f : Engine → Engine) : (c.modEng e f).monfull = c.monfull := rfl
@[simp] theorem core_modEng_plumb (c : Core) (e : Ep) (f : Engine → Engine) : (c.modEng e f).plumb = c.plumb := rfl
@[simp] theorem core_modEng_gate (c : Core) (e : Ep) (f : Engine → Engine) : (c.modEng e f).gate = c.gate := rfl
@[simp] theorem core_modEng_rng (c : Core) (e : Ep) (f : Engine → Engine) : (c.modEng e f).rng = c.rng := rfl
@[simp] theorem core_modEng_fuse (c : Core) (e : Ep) (f : Engine → Engine) : (c.modEng e f).fuse = c.fuse := rfl
@[simp] theorem core_modEng_ve (c : Core) (e : Ep) (f : Engine → Engine) : (c.modEng e f).ve = c.ve := rfl
@[simp] theorem core_modEng_me (c : Core) (e : Ep) (f : Engine → Engine) : (c.modEng e f).me = c.me := rfl
@[simp] theorem core_modEng_pods (c : Core) (e : Ep) (f : Engine → Engine) : (c.modEng e f).pods = c.pods := rfl
@[simp] theorem core_modEng_engflt (c : Core) (e : Ep) (f : Engine → Engine) : (c.modEng e f).engflt = c.engflt := rfl
@[simp] theorem core_modEng_dbg (c : Core) (e : Ep) (f : Engine → Engine) : (c.modEng e f).dbg = c.dbg := rfl
@[simp] theorem core_modEng_sqt (c : Core) (e : Ep) (f : Engine → Engine) : (c.modEng e f).sqt = c.sqt := rfl
@[simp] theorem core_modEng_place (c : Core) (e : Ep) (f : Engine → Engine) : (c.modEng e f).place = c.place := rfl
@[simp] theorem core_modEng_fenced (c : Core) (e : Ep) (f : Engine → Engine) : (c.modEng e f).fenced = c.fenced := rfl
@[simp] theorem core_modEng_move (c : Core) (e : Ep) (f : Engine → Engine) : (c.modEng e f).move = c.move := rfl
@[simp] theorem core_modEng_eccUntil (c : Core) (e : Ep) (f : Engine → Engine) : (c.modEng e f).eccUntil = c.eccUntil := rfl
@[simp] theorem core_modEng_seq (c : Core) (e : Ep) (f : Engine → Engine) : (c.modEng e f).seq = c.seq := rfl
@[simp] theorem core_modEng_chunks (c : Core) (e : Ep) (f : Engine → Engine) : (c.modEng e f).chunks = c.chunks := rfl
@[simp] theorem core_modEng_saving (c : Core) (e : Ep) (f : Engine → Engine) : (c.modEng e f).saving = c.saving := rfl
@[simp] theorem core_modEng_testing (c : Core) (e : Ep) (f : Engine → Engine) : (c.modEng e f).testing = c.testing := rfl

@[simp] theorem setEng_getCtx (c : Core) (e : Ep) (x : Engine) (k : Ctx) : (c.setEng e x).getCtx k = c.getCtx k := rfl
@[simp] theorem setCtx_getEng (c : Core) (e : Ep) (x : Context) (k : Ctx) : (c.setCtx k x).getEng e = c.getEng e := rfl

end Sys2Proof.Machine
end

