-- ==== Sys2Proof/Laws/Memory.lean ====
section
/-! SUPPORT. A memory reads back what was written, a write leaves every other byte alone, and every write keeps the
canonical form. -/

namespace Sys2Proof.Machine

theorem wfFrom_mono (m : Memory) (lo hi : Nat) (h : lo ≤ hi) (w : m.wfFrom hi = true) : m.wfFrom lo = true := by
  cases m with
  | nil => rfl
  | cons c t =>
    obtain ⟨a, v⟩ := c
    simp only [Memory.wfFrom, Bool.and_eq_true, decide_eq_true_eq] at *
    exact ⟨⟨by omega, w.1.2⟩, w.2⟩

theorem get_below (m : Memory) (lo a : Nat) (w : m.wfFrom lo = true) (h : a < lo) : m.get a = 0 := by
  cases m with
  | nil => rfl
  | cons c t =>
    obtain ⟨b, v⟩ := c
    simp only [Memory.wfFrom, Bool.and_eq_true, decide_eq_true_eq] at w
    simp only [Memory.get]
    rw [if_neg (by omega), if_pos (by omega)]

theorem wfFrom_set (m : Memory) (a : Nat) (v : Byte) (lo : Nat) (h : lo ≤ a) (w : m.wfFrom lo = true) :
    (m.set a v).wfFrom lo = true := by
  induction m generalizing lo with
  | nil =>
    by_cases e : v = 0#8 <;> simp [Memory.set, Memory.wfFrom, e, h]
  | cons c t ih =>
    obtain ⟨b, x⟩ := c
    simp only [Memory.wfFrom, Bool.and_eq_true, decide_eq_true_eq] at w
    obtain ⟨⟨h1, h2⟩, h3⟩ := w
    by_cases e1 : a = b
    · subst e1
      by_cases e : v = 0#8
      · simpa [Memory.set, e] using wfFrom_mono t lo (a + 1) (by omega) h3
      · simp [Memory.set, Memory.wfFrom, e, h, h3]
    · by_cases e2 : a < b
      · have tail : Memory.wfFrom (a + 1) ((b, x) :: t) = true := by
          simp only [Memory.wfFrom, Bool.and_eq_true, decide_eq_true_eq]
          exact ⟨⟨by omega, h2⟩, h3⟩
        by_cases e : v = 0#8
        · simpa [Memory.set, e1, e2, e] using wfFrom_mono _ lo (a + 1) (by omega) tail
        · have : Memory.set ((b, x) :: t) a v = (a, v) :: (b, x) :: t := by simp [Memory.set, e1, e2, e]
          rw [this]
          simp only [Memory.wfFrom, Bool.and_eq_true, decide_eq_true_eq, bne_iff_ne] at tail ⊢
          exact ⟨⟨h, e⟩, tail⟩
      · simp only [Memory.set, e1, e2, if_false, Memory.wfFrom]
        simp only [Bool.and_eq_true, decide_eq_true_eq]
        exact ⟨⟨h1, h2⟩, ih (b + 1) (by omega) h3⟩

/-- A write keeps the canonical form (log 3). -/
theorem wf_set (m : Memory) (a : Nat) (v : Byte) (w : m.wf = true) : (m.set a v).wf = true :=
  wfFrom_set m a v 0 (Nat.zero_le a) w

theorem get_set_from (m : Memory) (a b : Nat) (v : Byte) (lo : Nat) (w : m.wfFrom lo = true) :
    (m.set a v).get b = if b = a then v else m.get b := by
  induction m generalizing lo with
  | nil =>
    by_cases e : v = 0#8
    · by_cases h : b = a <;> simp [Memory.set, Memory.get, e, h]
    · by_cases h : b = a <;> simp [Memory.set, Memory.get, e, h]
  | cons c t ih =>
    obtain ⟨k, x⟩ := c
    simp only [Memory.wfFrom, Bool.and_eq_true, decide_eq_true_eq] at w
    obtain ⟨⟨_, _⟩, h3⟩ := w
    have zero := fun y (hy : y < k + 1) => get_below t (k + 1) y h3 hy
    by_cases e1 : a = k
    · subst e1
      by_cases e : v = 0#8
      · by_cases h : b = a
        · subst h; simp [Memory.set, e, zero b (by omega)]
        · by_cases h' : b < a
          · simp [Memory.set, Memory.get, e, h, h', zero b (by omega)]
          · simp [Memory.set, Memory.get, e, h, h']
      · by_cases h : b = a <;> simp [Memory.set, Memory.get, e, h]
    · by_cases e2 : a < k
      · by_cases e : v = 0#8
        · by_cases h : b = a
          · subst h; simp [Memory.set, Memory.get, e1, e2, e]
          · simp [Memory.set, e1, e2, e, h]
        · by_cases h : b = a
          · subst h; simp [Memory.set, Memory.get, e1, e2, e]
          · by_cases h' : b < a
            · have h3 : b ≠ k := by omega
              have h4 : b < k := by omega
              simp [Memory.set, Memory.get, e1, e2, e, h, h', h3, h4]
            · simp [Memory.set, Memory.get, e1, e2, e, h, h']
      · by_cases h : b = k
        · subst h
          have : b ≠ a := fun q => e1 q.symm
          simp [Memory.set, Memory.get, e1, e2, this]
        · by_cases h' : b < k
          · have : b ≠ a := by omega
            simp [Memory.set, Memory.get, e1, e2, h, h', this]
          · simp [Memory.set, Memory.get, e1, e2, h, h', ih (k + 1) h3]

/-- A byte read after a byte written. -/
theorem get_set (m : Memory) (a b : Nat) (v : Byte) (w : m.wf = true) :
    (m.set a v).get b = if b = a then v else m.get b := get_set_from m a b v 0 w

@[simp] theorem wf_write (m : Memory) (a : Nat) (bs : List Byte) (w : m.wf = true) : (m.write a bs).wf = true := by
  induction bs generalizing m a with
  | nil => exact w
  | cons b t ih => exact ih _ _ (wf_set m a b w)

/-- A byte read after a run of bytes written. -/
theorem get_write (m : Memory) (a b : Nat) (bs : List Byte) (w : m.wf = true) :
    (m.write a bs).get b = if a ≤ b ∧ b < a + bs.length then bs.getD (b - a) 0 else m.get b := by
  induction bs generalizing m a with
  | nil =>
    have : ¬ (a ≤ b ∧ b < a) := by omega
    simp [Memory.write, this]
  | cons x t ih =>
    simp only [Memory.write]
    rw [ih _ _ (wf_set m a x w), get_set m a b x w]
    by_cases h : b = a
    · subst h
      rw [if_neg (by omega), if_pos rfl, if_pos (by simp)]
      simp
    · by_cases h' : a + 1 ≤ b ∧ b < a + 1 + t.length
      · have h2 : a ≤ b ∧ b < a + (x :: t).length := by simp only [List.length_cons]; omega
        rw [if_pos h', if_pos h2]
        obtain ⟨d, rfl⟩ : ∃ d, b = a + 1 + d := ⟨b - (a + 1), by omega⟩
        have e1 : a + 1 + d - (a + 1) = d := by omega
        have e2 : a + 1 + d - a = d + 1 := by omega
        rw [e1, e2]; simp
      · have h2 : ¬ (a ≤ b ∧ b < a + (x :: t).length) := by simp only [List.length_cons]; omega
        rw [if_neg h', if_neg h2, if_neg h]

/-! ### The bytes of the module -/

@[simp] theorem space_setByte (s : State) (a b : Nat) (v : Byte) : (s.setByte a v).space b = s.space b := rfl

@[simp] theorem key_setByte (s : State) (a b : Nat) (v : Byte) : (s.setByte a v).key b = s.key b := rfl

@[simp] theorem core_setByte (s : State) (a : Nat) (v : Byte) (p : CoreId) : (s.setByte a v).core p = s.core p := rfl

@[simp] theorem core_storePhys (s : State) (a : Nat) (bs : List Byte) (p : CoreId) :
    (s.storePhys a bs).core p = s.core p := by
  induction bs generalizing s a with
  | nil => rfl
  | cons b t ih => simp [State.storePhys, ih]

@[simp] theorem core_writePhys (s : State) (a : Nat) (bs : List Byte) (p : CoreId) :
    (s.writePhys a bs).core p = s.core p := core_storePhys s a bs p

@[simp] theorem mem_writePhys (s : State) (a : Nat) (bs : List Byte) : (s.writePhys a bs).mem = (s.storePhys a bs).mem := rfl

theorem wf_storePhys (s : State) (a : Nat) (bs : List Byte) (w : s.mem.wf = true) : (s.storePhys a bs).mem.wf = true := by
  induction bs generalizing s a with
  | nil => exact w
  | cons b t ih => exact ih _ _ (wf_set s.mem (s.key a) b w)

theorem wf_writePhys (s : State) (a : Nat) (bs : List Byte) (w : s.mem.wf = true) : (s.writePhys a bs).mem.wf = true :=
  wf_storePhys s a bs w

/-- A write that is noted for waiting contexts changes the marks alone. -/
@[simp] theorem wake_mem (s : State) (p : CoreId) (l : Loc) (n : Nat) : (s.wake p l n).mem = s.mem := rfl
@[simp] theorem wake_core (s : State) (p q : CoreId) (l : Loc) (n : Nat) : (s.wake p l n).core q = s.core q := rfl

theorem rawByte_setByte (s : State) (a b : Nat) (v : Byte) (w : s.mem.wf = true) :
    (s.setByte a v).rawByte b = if s.key b = s.key a then v else s.rawByte b := by
  have : (s.setByte a v).rawByte b = (s.mem.set (s.key a) v).get (s.key b) := rfl
  rw [this, get_set _ _ _ _ w]; rfl

end Sys2Proof.Machine
end

