-- ==== Sys2Proof/Laws/Operands.lean ====
section
/-! SUPPORT. Queue registers: what a queue reads after a queue is changed, and what pops and pushes leave alone. -/

namespace Sys2Proof.Machine

/-! ### Which queue a register names -/

/-- The number of a channel a register names. -/
def RKind.chan (x : RKind) : Option Nat :=
  match x with
  | .prod ch | .cons ch => some ch
  | _ => none

theorem chan_lt (k : Ctx) (sup : Bool) (r : BitVec 5) : ((regKind k sup r).chan).all (fun c => decide (c < 4)) = true := by
  cases k <;> cases sup <;> revert r <;> decide

theorem sup_range (k : Ctx) (sup : Bool) (r : BitVec 5) :
    (regKind k sup r = .sup) → 24 ≤ r.toNat ∧ r.toNat < 28 := by
  cases k <;> cases sup <;> revert r <;> decide

/-- Two registers of a context never name one channel. -/
theorem chan_inj (k : Ctx) (sup : Bool) (r t : BitVec 5) :
    ((regKind k sup r).chan).isSome = true → (regKind k sup r).chan = (regKind k sup t).chan → r = t := by
  cases k <;> cases sup <;> revert r t <;> decide

theorem zero_iff (k : Ctx) (sup : Bool) (r : BitVec 5) : regKind k sup r = .zero ↔ r = 0 := by
  cases k <;> cases sup <;> revert r <;> decide

/-! ### A queue changed -/

@[simp] theorem getCtx_chans (c : Core) (v : Vector Queue 4) (k : Ctx) :
    ({ c with chans := v } : Core).getCtx k = c.getCtx k := rfl

@[simp] theorem setCtx_chans (c : Core) (x : Context) (k : Ctx) : (c.setCtx k x).chans = c.chans := rfl

@[simp] theorem setQueue_status (c : Core) (k j : Ctx) (r : BitVec 5) (q : Queue) :
    ((c.setQueue k r q).getCtx j).status = (c.getCtx j).status := by
  unfold Core.setQueue
  by_cases h : k = j
  · subst h; dsimp only; split <;> simp
  · dsimp only; split <;> simp [h]

theorem setQueue_getCtx (c : Core) (k : Ctx) (r : BitVec 5) (q : Queue) :
    (c.setQueue k r q).getCtx k =
      { c.getCtx k with regs := ((c.setQueue k r q).getCtx k).regs, sup := ((c.setQueue k r q).getCtx k).sup } := by
  unfold Core.setQueue
  dsimp only; split <;> simp

@[simp] theorem setQueue_getCtx_ne (c : Core) (k j : Ctx) (r : BitVec 5) (q : Queue) (h : k ≠ j) :
    (c.setQueue k r q).getCtx j = c.getCtx j := by
  unfold Core.setQueue
  dsimp only; split <;> simp [h]

/-- A queue changed leaves all of the core but its contexts and channels. -/
theorem setQueue_core (c : Core) (k : Ctx) (r : BitVec 5) (q : Queue) :
    c.setQueue k r q = { c with ctx := (c.setQueue k r q).ctx, chans := (c.setQueue k r q).chans } := by
  unfold Core.setQueue
  dsimp only; split <;> rfl

@[simp] theorem setQueue_supMode (c : Core) (k j : Ctx) (r : BitVec 5) (q : Queue) :
    ((c.setQueue k r q).getCtx j).supMode = (c.getCtx j).supMode := by
  simp [Context.supMode]

theorem queue_setQueue (c : Core) (k : Ctx) (r : BitVec 5) (q : Queue) (h : r ≠ 0) :
    (c.setQueue k r q).queue k r = q := by
  have hz : regKind k (c.getCtx k).supMode r ≠ .zero := fun e => h ((zero_iff _ _ _).1 e)
  have hc := chan_lt k (c.getCtx k).supMode r
  have hs := sup_range k (c.getCtx k).supMode r
  have hr : r.toNat < 32 := r.isLt
  unfold Core.queue
  simp only [setQueue_supMode]
  unfold Core.setQueue
  dsimp only
  generalize regKind k (c.getCtx k).supMode r = x at *
  cases x with
  | zero => exact absurd rfl hz
  | priv => simp [hr]
  | sup =>
    have : r.toNat - 24 < 4 := by have := hs rfl; omega
    simp [this]
  | prod ch => simp [RKind.chan] at hc; simp [hc]
  | cons ch => simp [RKind.chan] at hc; simp [hc]

theorem queue_setQueue_ne (c : Core) (k : Ctx) (r t : BitVec 5) (q : Queue) (h : r ≠ t) :
    (c.setQueue k r q).queue k t = c.queue k t := by
  have hi := chan_inj k (c.getCtx k).supMode r t
  have hs := sup_range k (c.getCtx k).supMode r
  have ht := sup_range k (c.getCtx k).supMode t
  have hn : r.toNat ≠ t.toNat := fun e => h (BitVec.eq_of_toNat_eq e)
  unfold Core.queue
  simp only [setQueue_supMode]
  unfold Core.setQueue
  dsimp only
  generalize regKind k (c.getCtx k).supMode r = x at *
  generalize regKind k (c.getCtx k).supMode t = y at *
  have hc : ∀ a b : Nat, x.chan = some a → y.chan = some b → a ≠ b := fun a b ha hb e =>
    h (hi (by simp [ha]) (by rw [ha, hb, e]))
  cases x with
  | zero => rfl
  | priv => cases y <;> simp [hn]
  | sup =>
    cases y with
    | sup =>
      have a := hs rfl
      have b := ht rfl
      have : r.toNat - 24 ≠ t.toNat - 24 := by omega
      simp [this]
    | _ => simp
  | prod ch =>
    cases y with
    | prod b => simp [hc ch b rfl rfl]
    | cons b => simp [hc ch b rfl rfl]
    | _ => rfl
  | cons ch =>
    cases y with
    | prod b => simp [hc ch b rfl rfl]
    | cons b => simp [hc ch b rfl rfl]
    | _ => rfl

/-! ### What pops and pushes leave alone -/

/-- Two cores that differ in queue registers alone: of the contexts, only context `k`'s queues and next entry number. -/
def SameButQueues (k : Ctx) (c d : Core) : Prop :=
  d = { c with ctx := d.ctx, chans := d.chans } ∧ (∀ j, j ≠ k → d.getCtx j = c.getCtx j) ∧
    d.getCtx k = { c.getCtx k with regs := (d.getCtx k).regs, sup := (d.getCtx k).sup, nextId := (d.getCtx k).nextId }

theorem SameButQueues.refl (k : Ctx) (c : Core) : SameButQueues k c c := ⟨rfl, fun _ _ => rfl, rfl⟩

theorem SameButQueues.trans {k : Ctx} {c d e : Core} (h : SameButQueues k c d) (i : SameButQueues k d e) :
    SameButQueues k c e := by
  obtain ⟨h1, h2, h3⟩ := h
  obtain ⟨i1, i2, i3⟩ := i
  refine ⟨?_, fun j hj => (i2 j hj).trans (h2 j hj), ?_⟩
  · rw [i1, h1]
  · rw [i3, h3]

theorem SameButQueues.setQueue (c : Core) (k : Ctx) (r : BitVec 5) (q : Queue) :
    SameButQueues k c (c.setQueue k r q) := by
  refine ⟨setQueue_core c k r q, fun j hj => setQueue_getCtx_ne c k j r q (Ne.symm hj), ?_⟩
  have h := setQueue_getCtx c k r q
  rw [h]

theorem SameButQueues.supMode {k : Ctx} {c d : Core} (h : SameButQueues k c d) (j : Ctx) :
    (d.getCtx j).supMode = (c.getCtx j).supMode := by
  by_cases e : j = k
  · subst e; rw [h.2.2]; rfl
  · rw [h.2.1 j e]

theorem popAll_same (c : Core) (k : Ctx) (l : List Rd) : SameButQueues k c (popAll c k l) := by
  induction l generalizing c with
  | nil => exact SameButQueues.refl k c
  | cons x t ih =>
    unfold popAll
    split
    · exact ih c
    · exact (SameButQueues.setQueue c k x.r _).trans (ih _)

theorem popAll_nextId (c : Core) (k : Ctx) (l : List Rd) : ((popAll c k l).getCtx k).nextId = (c.getCtx k).nextId := by
  induction l generalizing c with
  | nil => rfl
  | cons x t ih =>
    unfold popAll
    rw [ih]
    split
    · rfl
    · rw [setQueue_getCtx]

/-- A register that the reads do not pop keeps its queue. -/
theorem popAll_queue_ne (c : Core) (k : Ctx) (l : List Rd) (r : BitVec 5) (h : ∀ x ∈ l, x.peek = false → x.r ≠ r) :
    (popAll c k l).queue k r = c.queue k r := by
  induction l generalizing c with
  | nil => rfl
  | cons x t ih =>
    have ht : ∀ y ∈ t, y.peek = false → y.r ≠ r := fun y hy => h y (List.mem_cons_of_mem x hy)
    unfold popAll
    rw [ih _ ht]
    split
    · rfl
    · rename_i hp
      exact queue_setQueue_ne c k x.r r _ (h x List.mem_cons_self (by simpa using hp))

@[simp] theorem getCtx_nextId (c : Core) (k : Ctx) (n : Nat) (r : BitVec 5) :
    (c.setCtx k { c.getCtx k with nextId := n }).queue k r = c.queue k r := by
  unfold Core.queue
  simp only [getCtx_setCtx, setCtx_chans]
  rfl

theorem push_same (c : Core) (k : Ctx) (r : BitVec 5) (v : Word) : SameButQueues k c (c.push k r v) := by
  refine (SameButQueues.setQueue c k r
    (c.queue k r ++ [{ id := (c.getCtx k).nextId, val := v, filled := true }])).trans ⟨?_, fun j hj => ?_, ?_⟩
  · rfl
  · simp [Core.push, Core.pushEntry, Ne.symm hj]
  · simp [Core.push, Core.pushEntry]

theorem push_nextId (c : Core) (k : Ctx) (r : BitVec 5) (v : Word) :
    ((c.push k r v).getCtx k).nextId = (c.getCtx k).nextId + 1 := by
  unfold Core.push Core.pushEntry
  simp only [getCtx_setCtx]
  rw [setQueue_getCtx]

/-- A push adds one present entry at the tail (R171, R174). -/
theorem push_queue (c : Core) (k : Ctx) (r : BitVec 5) (v : Word) (h : r ≠ 0) :
    (c.push k r v).queue k r = c.queue k r ++ [{ id := (c.getCtx k).nextId, val := v, filled := true }] := by
  unfold Core.push Core.pushEntry
  dsimp only
  rw [getCtx_nextId, queue_setQueue _ _ _ _ h]

theorem push_queue_ne (c : Core) (k : Ctx) (r t : BitVec 5) (v : Word) (h : r ≠ t) :
    (c.push k r v).queue k t = c.queue k t := by
  unfold Core.push Core.pushEntry
  dsimp only
  rw [getCtx_nextId, queue_setQueue_ne _ _ _ _ _ h]

end Sys2Proof.Machine
end

