-- ==== Sys2Proof/Laws/Ops.lean ====
section
/-! SUPPORT. What the shared operations of the scalar words do: counting, committing a word, pushing a result, taking a
trap. -/

namespace Sys2Proof.Machine

/-! ### Counting (R357) -/

/-- An event counted changes the core's debug registers alone. -/
theorem count_eq (s : State) (p : CoreId) (code : Byte) (n : Nat) :
    s.count p code n = s.setCore p { s.core p with dbg := ((s.count p code n).core p).dbg } := by
  unfold State.count
  dsimp only
  split
  · simp [State.modDbg, State.modCore]
  · exact (setCore_core s p).symm

theorem count_core_ne (s : State) (p q : CoreId) (code : Byte) (n : Nat) (h : p ≠ q) :
    (s.count p code n).core q = s.core q := by
  rw [count_eq]; simp [h]

@[simp] theorem count_getCtx (s : State) (p q : CoreId) (code : Byte) (n : Nat) (k : Ctx) :
    ((s.count p code n).core q).getCtx k = (s.core q).getCtx k := by
  by_cases h : p = q
  · subst h; rw [count_eq]; simp only [core_setCore]; rfl
  · rw [count_core_ne s p q code n h]

@[simp] theorem count_ctx (s : State) (p q : CoreId) (code : Byte) (n : Nat) (k : Ctx) :
    (s.count p code n).ctx q k = s.ctx q k := count_getCtx s p q code n k

@[simp] theorem count_mem (s : State) (p : CoreId) (code : Byte) (n : Nat) : (s.count p code n).mem = s.mem := by
  rw [count_eq]; rfl

@[simp] theorem count_sched (s : State) (p : CoreId) (code : Byte) (n : Nat) : (s.count p code n).sched = s.sched := by
  rw [count_eq]; rfl

/-- What counting leaves of the core: all but the debug registers. -/
theorem count_core (s : State) (p q : CoreId) (code : Byte) (n : Nat) :
    (s.count p code n).core q = { s.core q with dbg := ((s.count p code n).core q).dbg } := by
  by_cases h : p = q
  · subst h; conv => lhs; rw [count_eq]
    simp
  · rw [count_core_ne s p q code n h]

/-! ### Reads at a home, grants of a bank, shared-TLB misses -/

/-- A grant moves pointers of the core's scratchpad banks and nothing else (R98). -/
theorem grant_eq (s : State) (p : CoreId) (r : Fin 8) (l : Loc) (n : Nat) :
    s.grant p r l n = s.setCore p { s.core p with banks := ((s.grant p r l n).core p).banks } := by
  cases l with
  | phys a => exact (setCore_core s p).symm
  | spad o => simp [State.grant, State.modCore]

@[simp] theorem grant_mem (s : State) (p : CoreId) (r : Fin 8) (l : Loc) (n : Nat) : (s.grant p r l n).mem = s.mem := by
  rw [grant_eq]; rfl

@[simp] theorem grant_sched (s : State) (p : CoreId) (r : Fin 8) (l : Loc) (n : Nat) :
    (s.grant p r l n).sched = s.sched := by
  rw [grant_eq]; rfl

/-- What a grant leaves of the cores: all but the pointers. -/
theorem grant_core (s : State) (p q : CoreId) (r : Fin 8) (l : Loc) (n : Nat) :
    (s.grant p r l n).core q = { s.core q with banks := ((s.grant p r l n).core q).banks } := by
  cases l with
  | phys a => rfl
  | spad o =>
    by_cases h : p = q
    · subst h; simp [State.grant, State.modCore]
    · simp [State.grant, State.modCore, h]

/-- A read that meets a line with bad check bits is noted in the marks alone. -/
@[simp] theorem meet_mem (s : State) (p : Option CoreId) (l : Loc) (n : Nat) : (s.meet p l n).mem = s.mem := by
  unfold State.meet; cases l with
  | spad o => rfl
  | phys a => dsimp only; split <;> rfl

@[simp] theorem meet_core (s : State) (p : Option CoreId) (l : Loc) (n : Nat) (q : CoreId) :
    (s.meet p l n).core q = s.core q := by
  unfold State.meet; cases l with
  | spad o => rfl
  | phys a => dsimp only; split <;> rfl

@[simp] theorem meet_bad (s : State) (p : Option CoreId) (l : Loc) (n : Nat) : (s.meet p l n).marks.bad = s.marks.bad := by
  unfold State.meet; cases l with
  | spad o => rfl
  | phys a => dsimp only; split <;> rfl

/-- With no line of bad check bits nothing is noted. -/
theorem meet_eq (s : State) (p : Option CoreId) (l : Loc) (n : Nat) (h : s.marks.bad = []) : s.meet p l n = s := by
  unfold State.meet; cases l with
  | spad o => rfl
  | phys a => simp [State.badLine, h]

/-- A translation that fails changes the core's debug registers alone. -/
theorem noteFail_eq (s : State) (p : CoreId) (va : Word) :
    s.noteFail p va = s.setCore p { s.core p with dbg := ((s.noteFail p va).core p).dbg } := by
  unfold State.noteFail
  split
  · exact (setCore_core s p).symm
  · exact count_eq s p _ _

/-! ### The agent -/

@[simp] theorem setCore_p (s : State) (q : CoreId) (c : Core) : (s.setCore q c).p = s.p := rfl
@[simp] theorem setCore_k (s : State) (q : CoreId) (c : Core) : (s.setCore q c).k = s.k := rfl
@[simp] theorem modCore_p (s : State) (q : CoreId) (f : Core → Core) : (s.modCore q f).p = s.p := rfl
@[simp] theorem modCore_k (s : State) (q : CoreId) (f : Core → Core) : (s.modCore q f).k = s.k := rfl
@[simp] theorem setCtx_p (s : State) (q : CoreId) (k : Ctx) (x : Context) : (s.setCtx q k x).p = s.p := rfl
@[simp] theorem setCtx_k (s : State) (q : CoreId) (k : Ctx) (x : Context) : (s.setCtx q k x).k = s.k := rfl
@[simp] theorem modCtx_p (s : State) (q : CoreId) (k : Ctx) (f : Context → Context) : (s.modCtx q k f).p = s.p := rfl
@[simp] theorem modCtx_k (s : State) (q : CoreId) (k : Ctx) (f : Context → Context) : (s.modCtx q k f).k = s.k := rfl
@[simp] theorem count_p (s : State) (p : CoreId) (code : Byte) (n : Nat) : (s.count p code n).p = s.p := by
  simp [State.p]
@[simp] theorem count_k (s : State) (p : CoreId) (code : Byte) (n : Nat) : (s.count p code n).k = s.k := by
  simp [State.k]

/-! ### Committing a word (R179, R180) -/

/-- The context after a committed word. -/
def Context.next (x : Context) (pc : Word) : Context :=
  { x with pc := pc, shadow := none, stepOver := false, qclr := none, wait := none, blocked := false, mcfg := none }

/-- A word that commits with no STEP trap: its context goes on at `next`, its event is counted, nothing else changes. -/
theorem commit_eq (s : State) (user : Bool) (next : Word) (h : (user && s.me!.stepBit) = false) :
    s.commit user next =
      s.setCore s.p { (s.core s.p).setCtx s.k (s.me!.next next) with
        dbg := ((s.commit user next).core s.p).dbg } := by
  have e : s.commit user next = (s.setCtx s.p s.k (s.me!.next next)).count s.p
      (match s.k with | .ld => 0x02 | .cp => 0x03 | .st => 0x04) 1 := by
    have hu : ∀ t : State, t.ctx t.p t.k = s.me!.next next →
        (if (user && (t.ctx t.p t.k).stepBit) = true then t.trap t.p t.k cStep 0 0 next t.sched.word else t) = t := by
      intro t ht
      rw [if_neg]
      rw [ht]
      simpa [Context.next, Context.stepBit] using h
    exact hu _ (by simp only [count_p, count_k, count_ctx]; exact ctx_setCtx s s.p s.k (s.me!.next next))
  rw [e]
  conv => lhs; rw [count_eq]
  simp only [State.setCtx, State.modCore, core_setCore, setCore_setCore]

/-- The core after a committed word. -/
theorem commit_core (s : State) (user : Bool) (next : Word) (h : (user && s.me!.stepBit) = false) :
    (s.commit user next).core s.p =
      { (s.core s.p).setCtx s.k (s.me!.next next) with dbg := ((s.commit user next).core s.p).dbg } := by
  conv => lhs; rw [commit_eq s user next h]
  simp

theorem commit_me (s : State) (user : Bool) (next : Word) (h : (user && s.me!.stepBit) = false) :
    (s.commit user next).ctx s.p s.k = s.me!.next next := by
  unfold State.ctx
  rw [commit_core s user next h]
  show ((s.core s.p).setCtx s.k (s.me!.next next)).getCtx s.k = _
  simp

theorem commit_ctx_ne (s : State) (user : Bool) (next : Word) (k : Ctx) (h : (user && s.me!.stepBit) = false)
    (hk : k ≠ s.k) : (s.commit user next).ctx s.p k = s.ctx s.p k := by
  unfold State.ctx
  rw [commit_core s user next h]
  show ((s.core s.p).setCtx s.k (s.me!.next next)).getCtx k = _
  simp [Ne.symm hk]

theorem commit_mem (s : State) (user : Bool) (next : Word) (h : (user && s.me!.stepBit) = false) :
    (s.commit user next).mem = s.mem := by
  rw [commit_eq s user next h]; rfl

/-- A committed word leaves every queue register as it stands. -/
theorem commit_queue (s : State) (user : Bool) (next : Word) (r : BitVec 5) (h : (user && s.me!.stepBit) = false) :
    ((s.commit user next).core s.p).queue s.k r = (s.core s.p).queue s.k r := by
  rw [commit_core s user next h]
  have e : ∀ d : Debug, ({ (s.core s.p).setCtx s.k (s.me!.next next) with dbg := d } : Core).queue s.k r =
      ((s.core s.p).setCtx s.k (s.me!.next next)).queue s.k r := fun _ => rfl
  rw [e]
  unfold Core.queue
  simp only [getCtx_setCtx, setCtx_chans]
  rfl

end Sys2Proof.Machine
end

