-- ==== Sys2Proof/Laws/PerInstr.lean ====
section
/-! SUPPORT. Statements made per instruction: how many words an instruction has (R126, R135). -/

namespace Sys2Proof.Laws

/-- The words of an instruction: none for an event, one for a scalar word and a micro-order, and for a command its
header and as many words as XWC says. -/
def wordCount (i : Instr) : Nat :=
  match wordKind i with
  | .event => 0
  | .scalar | .order => 1
  | .command => 1 + H.xwc ((encode i).headD 0)

theorem xwc_wH (opc : BitVec 6) (h : Hdr) (n : BitVec 4) (ops : BitVec 8) : H.xwc (wH opc h n ops) = n.toNat := by
  have e : fld (wH opc h n ops) 12 4 = n := by
    simp only [fld, wH]
    ext i hi
    simp only [BitVec.getElem_extractLsb', BitVec.getLsbD_append]
    have h1 : ¬ 12 + i < 8 := by omega
    have h2 : ¬ 12 + i - 8 < 2 := by omega
    have h3 : ¬ 12 + i - 8 - 2 < 2 := by omega
    have h4 : 12 + i - 8 - 2 - 2 < 4 := by omega
    have h5 : 12 + i - 8 - 2 - 2 = i := by omega
    simp only [h1, h2, h3, h4, ↓reduceIte]
    simp only [h5, BitVec.getLsbD_eq_getElem hi]
  simp only [H.xwc, e]

theorem length_furWords (f : Fur) (l : List Word) :
    (furWords f l).length = 6 + 2 * l.length + (if f.wrec then 2 else 0) := by
  have e : ∀ m : List Word, (m.flatMap fun s => [lo32 s, hi32 s]).length = 2 * m.length := by
    intro m
    induction m with
    | nil => rfl
    | cons a t ih => simp only [List.flatMap_cons, List.length_append, ih, List.length_cons, List.length_nil]; omega
  simp only [furWords, List.length_append, e]
  split <;> simp

namespace Encoded

def Statement (i : Instr) : Prop := (encode i).length = wordCount i

theorem counted {i : Instr} (op : BitVec 6) (h : Hdr) (n : BitVec 4) (ops : BitVec 8) (ws : List W32)
    (e : encode i = wH op h n ops :: ws) (k : wordKind i = .command) (l : ws.length = n.toNat) : Statement i := by
  unfold Statement wordCount
  rw [k, e]
  simp only [List.headD_cons, xwc_wH, List.length_cons, l, Nat.add_comm]

theorem furCounted {i : Instr} (op : BitVec 6) (h : Hdr) (f : Fur) (n : BitVec 4) (ops : BitVec 8) (srcs : List Word)
    (e : encode i = wH op h (furXwc f n) ops :: furWords f srcs) (k : wordKind i = .command)
    (l : 6 + 2 * srcs.length = n.toNat) (m : (n + 2).toNat = n.toNat + 2) : Statement i := by
  refine counted op h _ ops _ e k ?_
  rw [length_furWords, l, furXwc]
  split
  · exact m.symm
  · rfl

theorem add (r : R3) : Statement (.add r) := rfl
theorem sub (r : R3) : Statement (.sub r) := rfl
theorem and (r : R3) : Statement (.and r) := rfl
theorem or (r : R3) : Statement (.or r) := rfl
theorem xor (r : R3) : Statement (.xor r) := rfl
theorem andn (r : R3) : Statement (.andn r) := rfl
theorem shl (r : R3) : Statement (.shl r) := rfl
theorem shr (r : R3) : Statement (.shr r) := rfl
theorem sra (r : R3) : Statement (.sra r) := rfl
theorem rotr (r : R3) : Statement (.rotr r) := rfl
theorem min (r : R3) : Statement (.min r) := rfl
theorem max (r : R3) : Statement (.max r) := rfl
theorem minu (r : R3) : Statement (.minu r) := rfl
theorem maxu (r : R3) : Statement (.maxu r) := rfl
theorem cmpeq (r : R3) : Statement (.cmpeq r) := rfl
theorem cmpne (r : R3) : Statement (.cmpne r) := rfl
theorem cmplt (r : R3) : Statement (.cmplt r) := rfl
theorem cmpltu (r : R3) : Statement (.cmpltu r) := rfl
theorem cmple (r : R3) : Statement (.cmple r) := rfl
theorem cmpleu (r : R3) : Statement (.cmpleu r) := rfl
theorem sel (r : R3) : Statement (.sel r) := rfl
theorem clz (r : R2) : Statement (.clz r) := rfl
theorem ctz (r : R2) : Statement (.ctz r) := rfl
theorem popc (r : R2) : Statement (.popc r) := rfl
theorem sext (r : R3) : Statement (.sext r) := rfl
theorem zext (r : R3) : Statement (.zext r) := rfl
theorem mul (r : R3) : Statement (.mul r) := rfl
theorem mulh (r : R3) : Statement (.mulh r) := rfl
theorem mulhu (r : R3) : Statement (.mulhu r) := rfl
theorem div (r : R3) : Statement (.div r) := rfl
theorem divu (r : R3) : Statement (.divu r) := rfl
theorem rem (r : R3) : Statement (.rem r) := rfl
theorem remu (r : R3) : Statement (.remu r) := rfl
theorem addi (r : I12) : Statement (.addi r) := rfl
theorem andi (r : I12) : Statement (.andi r) := rfl
theorem ori (r : I12) : Statement (.ori r) := rfl
theorem xori (r : I12) : Statement (.xori r) := rfl
theorem shli (r : Sh) : Statement (.shli r) := rfl
theorem shri (r : Sh) : Statement (.shri r) := rfl
theorem srai (r : Sh) : Statement (.srai r) := rfl
theorem rotri (r : Sh) : Statement (.rotri r) := rfl
theorem cmpeqi (r : I12) : Statement (.cmpeqi r) := rfl
theorem cmpnei (r : I12) : Statement (.cmpnei r) := rfl
theorem cmplti (r : I12) : Statement (.cmplti r) := rfl
theorem cmpltui (r : I12) : Statement (.cmpltui r) := rfl
theorem lih (r : U20) : Statement (.lih r) := rfl
theorem pcah (r : U20) : Statement (.pcah r) := rfl
theorem qcnt (r : QCnt) : Statement (.qcnt r) := rfl
theorem qclr (r : QReg) : Statement (.qclr r) := rfl
theorem dup (r : QReg) : Statement (.dup r) := rfl
theorem drop (r : QReg) : Statement (.drop r) := rfl
theorem movq (r : R2) : Statement (.movq r) := rfl
theorem lds (r : Mem) : Statement (.lds r) := rfl
theorem ldz (r : Mem) : Statement (.ldz r) := rfl
theorem st (r : Mem) : Statement (.st r) := rfl
theorem aadd (r : Atom) : Statement (.aadd r) := rfl
theorem aand (r : Atom) : Statement (.aand r) := rfl
theorem aor (r : Atom) : Statement (.aor r) := rfl
theorem axor (r : Atom) : Statement (.axor r) := rfl
theorem amin (r : Atom) : Statement (.amin r) := rfl
theorem amax (r : Atom) : Statement (.amax r) := rfl
theorem aminu (r : Atom) : Statement (.aminu r) := rfl
theorem amaxu (r : Atom) : Statement (.amaxu r) := rfl
theorem aswap (r : Atom) : Statement (.aswap r) := rfl
theorem acas (r : Atom) : Statement (.acas r) := rfl
theorem radd (r : Red) : Statement (.radd r) := rfl
theorem rand (r : Red) : Statement (.rand r) := rfl
theorem ror (r : Red) : Statement (.ror r) := rfl
theorem rxor (r : Red) : Statement (.rxor r) := rfl
theorem rmin (r : Red) : Statement (.rmin r) := rfl
theorem rmax (r : Red) : Statement (.rmax r) := rfl
theorem rminu (r : Red) : Statement (.rminu r) := rfl
theorem rmaxu (r : Red) : Statement (.rmaxu r) := rfl
theorem rfadd (r : RedF) : Statement (.rfadd r) := rfl
theorem fence (s : Bool) (mask : BitVec 16) : Statement (.fence s mask) := rfl
theorem acq (r : Fen) : Statement (.acq r) := rfl
theorem rel (r : Fen) : Statement (.rel r) := rfl
theorem acqrel (r : Fen) : Statement (.acqrel r) := rfl
theorem waitge (r : R3) : Statement (.waitge r) := rfl
theorem waitne (r : R3) : Statement (.waitne r) := rfl
theorem monclr (r : Src) : Statement (.monclr r) := rfl
theorem beq (r : Br) : Statement (.beq r) := rfl
theorem bne (r : Br) : Statement (.bne r) := rfl
theorem blt (r : Br) : Statement (.blt r) := rfl
theorem bge (r : Br) : Statement (.bge r) := rfl
theorem bltu (r : Br) : Statement (.bltu r) := rfl
theorem bgeu (r : Br) : Statement (.bgeu r) := rfl
theorem j (s : Bool) (off : BitVec 25) : Statement (.j s off) := rfl
theorem jal (r : U20) : Statement (.jal r) := rfl
theorem jalr (r : I12) : Statement (.jalr r) := rfl
theorem csrr (s : Bool) (d : BitVec 5) (num : BitVec 12) : Statement (.csrr s d num) := rfl
theorem csrw (r : Csr) : Statement (.csrw r) := rfl
theorem csrs (r : Csr) : Statement (.csrs r) := rfl
theorem csrc (r : Csr) : Statement (.csrc r) := rfl
theorem trap (s : Bool) (n : BitVec 8) : Statement (.trap s n) := rfl
theorem sysret (s : Bool) : Statement (.sysret s) := rfl
theorem idle (s : Bool) : Statement (.idle s) := rfl
theorem brk (s : Bool) (n : BitVec 8) : Statement (.brk s n) := rfl
theorem stepover (s : Bool) : Statement (.stepover s) := rfl
theorem trapWord (w : W32) : Statement (.trapWord w) := rfl
theorem spawn (r : Spw) : Statement (.spawn r) := rfl
theorem epush (r : Push) : Statement (.epush r) := rfl
theorem echain (r : ChainOp) : Statement (.echain r) := rfl
theorem etail (r : ChainOp) : Statement (.etail r) := rfl
theorem eseq (s : Bool) (e : Ep) (d : BitVec 5) : Statement (.eseq s e d) := rfl
theorem xcmd (r : Push) : Statement (.xcmd r) := rfl
theorem mcfg (r : MCfg) : Statement (.mcfg r) := rfl
theorem tnext (s : Bool) (d : BitVec 5) : Statement (.tnext s d) := rfl
theorem tdone (s : Bool) : Statement (.tdone s) := rfl
theorem tyield (s : Bool) : Statement (.tyield s) := rfl
theorem iinv (r : IInv) : Statement (.iinv r) := rfl
theorem tinv (r : Inv) : Statement (.tinv r) := rfl
theorem l1inv (r : Inv) : Statement (.l1inv r) := rfl
theorem pref (r : Pref) : Statement (.pref r) := rfl
theorem qregFill (p : CoreId) (k : Ctx) (n : Nat) : Statement (.qregFill p k n) := rfl
theorem waitWake (p : CoreId) (k : Ctx) : Statement (.waitWake p k) := rfl
theorem monitorPoll (p : CoreId) (k : Ctx) : Statement (.monitorPoll p k) := rfl
theorem combiningFlush (p : CoreId) (n : Nat) : Statement (.combiningFlush p n) := rfl
theorem cpy (h : Hdr) (c : CopyOps) : Statement (.cpy h c) := counted _ _ _ _ _ rfl rfl rfl
theorem cpyn (h : Hdr) (c : CopyNOps) : Statement (.cpyn h c) := counted _ _ _ _ _ rfl rfl rfl
theorem gath (h : Hdr) (c : GatherOps) : Statement (.gath h c) := counted _ _ _ _ _ rfl rfl rfl
theorem scat (h : Hdr) (c : GatherOps) : Statement (.scat h c) := counted _ _ _ _ _ rfl rfl rfl
theorem rcpy (h : Hdr) (c : RcpyOps) : Statement (.rcpy h c) := counted _ _ _ _ _ rfl rfl rfl
theorem fill (h : Hdr) (c : FillOps) : Statement (.fill h c) := counted _ _ _ _ _ rfl rfl rfl
theorem prefCmd (h : Hdr) (c : PrefOps) : Statement (.prefCmd h c) := counted _ _ _ _ _ rfl rfl rfl
theorem cpyp (h : Hdr) (c : CpypOps) : Statement (.cpyp h c) := counted _ _ _ _ _ rfl rfl rfl
theorem psub (h : Hdr) (c : PsubOps) : Statement (.psub h c) := counted _ _ _ _ _ rfl rfl rfl
theorem puns (h : Hdr) (strm : BitVec 4) : Statement (.puns h strm) := counted _ _ _ _ _ rfl rfl rfl
theorem chunkApply (p : CoreId) (seq : W32) : Statement (.chunkApply p seq) := rfl
theorem chunkResend (p : CoreId) (seq : W32) : Statement (.chunkResend p seq) := rfl
theorem qinit (h : Hdr) (desc : Word) : Statement (.qinit h desc) := counted _ _ _ _ _ rfl rfl rfl
theorem qacq (h : Hdr) (desc : Word) (resa : Word) : Statement (.qacq h desc resa) := counted _ _ _ _ _ rfl rfl rfl
theorem qrel (h : Hdr) (desc : Word) (slot : Word) : Statement (.qrel h desc slot) := counted _ _ _ _ _ rfl rfl rfl
theorem qres (h : Hdr) (desc : Word) (resa : Word) (nw : Bool) : Statement (.qres h desc resa nw) := counted _ _ _ _ _ rfl rfl rfl
theorem qcom (h : Hdr) (desc : Word) (slot : Word) : Statement (.qcom h desc slot) := counted _ _ _ _ _ rfl rfl rfl
theorem qstat (h : Hdr) (desc : Word) (resa : Word) : Statement (.qstat h desc resa) := counted _ _ _ _ _ rfl rfl rfl
theorem clampRefill (b : BentId) (n : Nat) : Statement (.clampRefill b n) := rfl
theorem csig (h : Hdr) (ctr : Word) (inc : W32) : Statement (.csig h ctr inc) := counted _ _ _ _ _ rfl rfl rfl
theorem cwait (h : Hdr) (ctr : Word) (target : Word) : Statement (.cwait h ctr target) := counted _ _ _ _ _ rfl rfl rfl
theorem cseq (h : Hdr) (addr : Word) (val : Word) : Statement (.cseq h addr val) := counted _ _ _ _ _ rfl rfl rfl
theorem cnop (h : Hdr) : Statement (.cnop h) := counted _ _ _ _ _ rfl rfl rfl
theorem clink (h : Hdr) (next : Word) : Statement (.clink h next) := counted _ _ _ _ _ rfl rfl rfl
theorem cloop (h : Hdr) (rep : W32) : Statement (.cloop h rep) := counted _ _ _ _ _ rfl rfl rfl
theorem cend (h : Hdr) : Statement (.cend h) := counted _ _ _ _ _ rfl rfl rfl
theorem launch (h : Hdr) (q : BitVec 6) (reca : Word) : Statement (.launch h q reca) := counted _ _ _ _ _ rfl rfl rfl
theorem tokenPush (p : CoreId) (n : Nat) : Statement (.tokenPush p n) := rfl
theorem counterAdd (p : CoreId) (n : Nat) : Statement (.counterAdd p n) := rfl
theorem chainBlockFetch (p : CoreId) (e : Ep) : Statement (.chainBlockFetch p e) := rfl
theorem sequenceAdvance (p : CoreId) (e : Ep) : Statement (.sequenceAdvance p e) := rfl
theorem podRowDelivery (bay : Fin 64) (strm : BitVec 4) : Statement (.podRowDelivery bay strm) := rfl
theorem mfmt (h : Hdr) (f : MFmt) : Statement (.mfmt h f) := counted _ _ _ _ _ rfl rfl rfl
theorem mnest (h : Hdr) (kstep : BitVec 8) (nlev : BitVec 3) : Statement (.mnest h kstep nlev) := counted _ _ _ _ _ rfl rfl rfl
theorem mgo (h : Hdr) (c : MGoOps) : Statement (.mgo h c) := counted _ _ _ _ _ rfl rfl rfl
theorem mbld (h : Hdr) (c : MBldOps) : Statement (.mbld h c) := counted _ _ _ _ _ rfl rfl rfl
theorem mzero (h : Hdr) (qm : BitVec 4) : Statement (.mzero h qm) := counted _ _ _ _ _ rfl rfl rfl
theorem mhad (h : Hdr) (c : MHadOps) : Statement (.mhad h c) := counted _ _ _ _ _ rfl rfl rfl
theorem mdrn (h : Hdr) (c : MDrnOps) : Statement (.mdrn h c) := counted _ _ _ _ _ rfl rfl rfl
theorem meStep (p : CoreId) : Statement (.meStep p) := rfl
theorem bBlockLoad (p : CoreId) : Statement (.bBlockLoad p) := rfl
theorem vrun (h : Hdr) (c : VRunOps) : Statement (.vrun h c) := counted _ _ _ _ _ rfl rfl rfl
theorem vstop (h : Hdr) (imm : Bool) : Statement (.vstop h imm) := counted _ _ _ _ _ rfl rfl rfl
theorem vbase (h : Hdr) (n : BitVec 4) (base : Word) : Statement (.vbase h n base) := counted _ _ _ _ _ rfl rfl rfl
theorem vsdesc (h : Hdr) (n : BitVec 4) (d : SDesc) : Statement (.vsdesc h n d) := counted _ _ _ _ _ rfl rfl rfl
theorem bundleIssue (p : CoreId) : Statement (.bundleIssue p) := rfl
theorem cutDrain (p : CoreId) : Statement (.cutDrain p) := rfl
theorem walkRequest (p : CoreId) (q : Fin 8) : Statement (.walkRequest p q) := rfl
theorem vectorLanding (p : CoreId) (q : Fin 8) : Statement (.vectorLanding p q) := rfl
theorem windowClose (p : CoreId) (n : BitVec 4) : Statement (.windowClose p n) := rfl
theorem writeWalkWrite (p : CoreId) (q : Fin 4) : Statement (.writeWalkWrite p q) := rfl
theorem inj (o : InjOp) : Statement (.inj o) := rfl
theorem drn (o : DrnOp) : Statement (.drn o) := rfl
theorem srd (o : SrdOp) : Statement (.srd o) := rfl
theorem swr (o : SwrOp) : Statement (.swr o) := rfl
theorem time (o : TimeOp) : Statement (.time o) := rfl
theorem jmpt (eob : Bool) (tgt : BitVec 13) : Statement (.jmpt eob tgt) := rfl
theorem loopt (o : LoopOp) : Statement (.loopt o) := rfl
theorem halt (eob : Bool) : Statement (.halt eob) := rfl
theorem vadd (o : StOrd) : Statement (.vadd o) := rfl
theorem vsub (o : StOrd) : Statement (.vsub o) := rfl
theorem vmul (o : StOrd) : Statement (.vmul o) := rfl
theorem vfma (o : StOrd) : Statement (.vfma o) := rfl
theorem vmin (o : StOrd) : Statement (.vmin o) := rfl
theorem vmax (o : StOrd) : Statement (.vmax o) := rfl
theorem vabs (o : StOrd) : Statement (.vabs o) := rfl
theorem vneg (o : StOrd) : Statement (.vneg o) := rfl
theorem vand (o : StOrd) : Statement (.vand o) := rfl
theorem vor (o : StOrd) : Statement (.vor o) := rfl
theorem vxor (o : StOrd) : Statement (.vxor o) := rfl
theorem vnot (o : StOrd) : Statement (.vnot o) := rfl
theorem vshl (o : StOrd) : Statement (.vshl o) := rfl
theorem vshr (o : StOrd) : Statement (.vshr o) := rfl
theorem vsra (o : StOrd) : Statement (.vsra o) := rfl
theorem vcmp (o : StOrd) : Statement (.vcmp o) := rfl
theorem vsel (o : StOrd) : Statement (.vsel o) := rfl
theorem vcvt (o : StOrd) : Statement (.vcvt o) := rfl
theorem vdot4 (o : StOrd) : Statement (.vdot4 o) := rfl
theorem vredadd (o : StOrd) : Statement (.vredadd o) := rfl
theorem vredmax (o : StOrd) : Statement (.vredmax o) := rfl
theorem vredmin (o : StOrd) : Statement (.vredmin o) := rfl
theorem vexp2 (o : StOrd) : Statement (.vexp2 o) := rfl
theorem vlog2 (o : StOrd) : Statement (.vlog2 o) := rfl
theorem vrcp (o : StOrd) : Statement (.vrcp o) := rfl
theorem vrsq (o : StOrd) : Statement (.vrsq o) := rfl
theorem vperm (o : StOrd) : Statement (.vperm o) := rfl
theorem vbcast (o : StOrd) : Statement (.vbcast o) := rfl
theorem vrotm (o : StOrd) : Statement (.vrotm o) := rfl
theorem vpln (o : StOrd) : Statement (.vpln o) := rfl
theorem vunpl (o : StOrd) : Statement (.vunpl o) := rfl
theorem vscale (o : StOrd) : Statement (.vscale o) := rfl
theorem vqmx (o : StOrd) : Statement (.vqmx o) := rfl
theorem vmovs (o : StOrd) : Statement (.vmovs o) := rfl
theorem vldi (o : StOrd) : Statement (.vldi o) := rfl
theorem vmask (o : StOrd) : Statement (.vmask o) := rfl
theorem fcopy (h : Hdr) (f : Fur) (s1 : Word) : Statement (.fcopy h f s1) := furCounted _ _ _ _ _ _ rfl rfl rfl rfl
theorem ffill (h : Hdr) (f : Fur) (ones : Bool) : Statement (.ffill h f ones) := furCounted _ _ _ _ _ _ rfl rfl rfl rfl
theorem fand (h : Hdr) (f : Fur) (s1 : Word) (s2 : Word) : Statement (.fand h f s1 s2) := furCounted _ _ _ _ _ _ rfl rfl rfl rfl
theorem forRow (h : Hdr) (f : Fur) (s1 : Word) (s2 : Word) : Statement (.forRow h f s1 s2) := furCounted _ _ _ _ _ _ rfl rfl rfl rfl
theorem fxor (h : Hdr) (f : Fur) (s1 : Word) (s2 : Word) : Statement (.fxor h f s1 s2) := furCounted _ _ _ _ _ _ rfl rfl rfl rfl
theorem fnot (h : Hdr) (f : Fur) (s1 : Word) : Statement (.fnot h f s1) := furCounted _ _ _ _ _ _ rfl rfl rfl rfl
theorem fmaj (h : Hdr) (f : Fur) (s1 : Word) (s2 : Word) (s3 : Word) : Statement (.fmaj h f s1 s2 s3) := furCounted _ _ _ _ _ _ rfl rfl rfl rfl
theorem fqry (h : Hdr) (c : FQryOps) : Statement (.fqry h c) := counted _ _ _ _ _ rfl rfl rfl
theorem lqtail (q : BitVec 6) (v : W32) : Statement (.lqtail q v) := rfl
theorem gangPlacement : Statement .gangPlacement := rfl
theorem spawnDelivery (b : BentId) (n : Nat) : Statement (.spawnDelivery b n) := rfl
theorem balancerInterval (n : Nat) : Statement (.balancerInterval n) := rfl
theorem stageSwitch (p : CoreId) : Statement (.stageSwitch p) := rfl
theorem watchdogPreempt (q : BitVec 6) : Statement (.watchdogPreempt q) := rfl
theorem watchdogKill (q : BitVec 6) : Statement (.watchdogKill q) := rfl
theorem watchdogFence (q : BitVec 6) : Statement (.watchdogFence q) := rfl
theorem correctableError (b : BentId) (core : Option (Fin 16)) : Statement (.correctableError b core) := rfl
theorem eccFreezeEnd (p : CoreId) : Statement (.eccFreezeEnd p) := rfl
theorem uncorrectableError (e : UncorrErr) : Statement (.uncorrectableError e) := rfl
theorem faultRecordRelease (b : BentId) : Statement (.faultRecordRelease b) := rfl
theorem faultReplay (ticket : BitVec 16) : Statement (.faultReplay ticket) := rfl
theorem faultAbort (ticket : BitVec 16) : Statement (.faultAbort ticket) := rfl
theorem preEmpt : Statement .preEmpt := rfl
theorem saveComplete : Statement .saveComplete := rfl
theorem restore : Statement .restore := rfl
theorem restorePlacement : Statement .restorePlacement := rfl
theorem kill : Statement .kill := rfl
theorem trinv (v : Word) : Statement (.trinv v) := rfl
theorem trinvComplete : Statement .trinvComplete := rfl
theorem trroot (v : Word) : Statement (.trroot v) := rfl
theorem l1Fusion (bay : Fin 64) : Statement (.l1Fusion bay) := rfl
theorem formatRegionWrite (b : BentId) (k : Fin 2) (r : Fin 16) (reg : Fin 4) (v : Word) : Statement (.formatRegionWrite b k r reg v) := rfl
theorem vtctlInv (p : CoreId) (v : Word) : Statement (.vtctlInv p v) := rfl
theorem fwcc (b : BentId) (k : Fin 2) (v : Word) : Statement (.fwcc b k v) := rfl
theorem regionChange (b : BentId) (k : Fin 2) : Statement (.regionChange b k) := rfl
theorem launchQueueReset (v : W32) : Statement (.launchQueueReset v) := rfl
theorem icinv (v : Word) : Statement (.icinv v) := rfl
theorem icbusyClear : Statement .icbusyClear := rfl
theorem traceSessionOpen (v : W32) : Statement (.traceSessionOpen v) := rfl
theorem traceSessionClose (v : W32) : Statement (.traceSessionClose v) := rfl
theorem traceFlush (b : BentId) : Statement (.traceFlush b) := rfl
theorem pmctrWrap (p : CoreId) (n : BitVec 4) : Statement (.pmctrWrap p n) := rfl
theorem veRelease (p : CoreId) (v : Word) : Statement (.veRelease p v) := rfl
theorem clklockLock (v : W32) : Statement (.clklockLock v) := rfl
theorem clklockUnlock (v : W32) : Statement (.clklockUnlock v) := rfl
theorem opptRequest (v : W32) : Statement (.opptRequest v) := rfl
theorem operatingPointChange : Statement .operatingPointChange := rfl
theorem operatingPointChangeEnd : Statement .operatingPointChangeEnd := rfl
theorem sensorSample (r : Readings) : Statement (.sensorSample r) := rfl
theorem capStep : Statement .capStep := rfl
theorem capRelax : Statement .capRelax := rfl
theorem currentLimit (b : BentId) : Statement (.currentLimit b) := rfl
theorem emergencyEnd : Statement .emergencyEnd := rfl
theorem coreReset (b : BentId) (v : W32) : Statement (.coreReset b v) := rfl
theorem coreMarchTest (p : CoreId) (r : CoreTest) : Statement (.coreMarchTest p r) := rfl
theorem repairEntry (b : BentId) (e : BitVec 6) (v : Word) : Statement (.repairEntry b e v) := rfl
theorem hostPoolWrite (reg : Bool) (v : Word) : Statement (.hostPoolWrite reg v) := rfl
theorem registerWrite (off : BitVec 26) (n : Fin 4) (v : Word) : Statement (.registerWrite off n v) := rfl
theorem coldReset : Statement .coldReset := rfl
theorem powerGood : Statement .powerGood := rfl
theorem firmwareVerify (f : Flash) : Statement (.firmwareVerify f) := rfl
theorem bentPowerUp (b : BentId) : Statement (.bentPowerUp b) := rfl
theorem stackTrainingEnd (b : BentId) : Statement (.stackTrainingEnd b) := rfl
theorem marchTestEnd (b : BentId) (r : MarchResult) : Statement (.marchTestEnd b r) := rfl
theorem hostLinkTrained (j : Fin 2) (cxl : Bool) : Statement (.hostLinkTrained j cxl) := rfl
theorem hostAccess (r : HostReq) : Statement (.hostAccess r) := rfl
theorem getVersion : Statement .getVersion := rfl
theorem getCapabilities (req : List Byte) : Statement (.getCapabilities req) := rfl
theorem negotiateAlgorithms (req : List Byte) : Statement (.negotiateAlgorithms req) := rfl
theorem getDigests : Statement .getDigests := rfl
theorem getCertificate (slot : BitVec 8) (off : Nat) (len : Nat) : Statement (.getCertificate slot off len) := rfl
theorem challenge (req : List Byte) : Statement (.challenge req) := rfl
theorem getMeasurements (req : List Byte) : Statement (.getMeasurements req) := rfl
theorem sessionRequest (req : List Byte) : Statement (.sessionRequest req) := rfl
theorem scarfFlit (n : Fin 18) (flit : Flit) : Statement (.scarfFlit n flit) := rfl
theorem linkRetrain (n : Fin 18) : Statement (.linkRetrain n) := rfl
theorem linkDown (n : Fin 18) : Statement (.linkDown n) := rfl
theorem peerRequest (r : PeerReq) : Statement (.peerRequest r) := rfl
theorem retrainEnd (n : Fin 18) (good : Bool) : Statement (.retrainEnd n good) := rfl
theorem hostLinkDown (j : Fin 2) : Statement (.hostLinkDown j) := rfl
theorem chunkAcknowledgement (p : CoreId) (seq : W32) : Statement (.chunkAcknowledgement p seq) := rfl
theorem acknowledgementConfirmation (p : CoreId) (seq : W32) : Statement (.acknowledgementConfirmation p seq) := rfl
theorem homeAcknowledgement (p : CoreId) (k : Ctx) (n : Nat) : Statement (.homeAcknowledgement p k n) := rfl
theorem cxlCacheRequest (addr : Word) (wr : Option (List Byte)) : Statement (.cxlCacheRequest addr wr) := rfl

end Encoded

end Sys2Proof.Laws
end

