-- ==== Sys2Proof/Laws/Words.lean ====
section
/-! SUPPORT. What a scalar word that pops, pushes or reserves entries and commits leaves of the state. -/

namespace Sys2Proof.Machine

/-- A core that differs only in context `k`'s registers, entry counter and issued accesses, and the channels. -/
def SameButIssue (k : Ctx) (c d : Core) : Prop :=
  d = { c with ctx := d.ctx, chans := d.chans } ∧ (∀ j, j ≠ k → d.getCtx j = c.getCtx j) ∧
    d.getCtx k = { c.getCtx k with regs := (d.getCtx k).regs, sup := (d.getCtx k).sup, nextId := (d.getCtx k).nextId,
                                   pend := (d.getCtx k).pend }

theorem SameButQueues.issue {k : Ctx} {c d : Core} (h : SameButQueues k c d) : SameButIssue k c d := by
  refine ⟨h.1, h.2.1, ?_⟩
  have e := h.2.2
  generalize d.getCtx k = x at *
  cases x
  simp only [Context.mk.injEq] at e ⊢
  simp [e]

theorem SameButQueues.pend {k : Ctx} {c d : Core} (h : SameButQueues k c d) : (d.getCtx k).pend = (c.getCtx k).pend := by
  rw [h.2.2]

theorem SameButIssue.trans {k : Ctx} {c d e : Core} (h : SameButIssue k c d) (i : SameButIssue k d e) :
    SameButIssue k c e := by
  obtain ⟨h1, h2, h3⟩ := h
  obtain ⟨i1, i2, i3⟩ := i
  refine ⟨?_, fun j hj => (i2 j hj).trans (h2 j hj), ?_⟩
  · rw [i1]; conv => lhs; rw [h1]
  · rw [i3]; conv => lhs; rw [h3]

theorem SameButIssue.supMode {k : Ctx} {c d : Core} (h : SameButIssue k c d) (j : Ctx) :
    (d.getCtx j).supMode = (c.getCtx j).supMode := by
  by_cases e : j = k
  · subst e; rw [h.2.2]; rfl
  · rw [h.2.1 j e]

/-- An access issued: the entry it reserves, and the access among the context's. -/
theorem issue_same (c : Core) (k : Ctx) (push : Option (BitVec 5)) (cls : BitVec 4) (kind : PendKind) :
    SameButIssue k c (c.issue k push cls kind) := by
  cases push with
  | none =>
    refine ⟨rfl, fun j hj => ?_, ?_⟩
    · unfold Core.issue; simp [Ne.symm hj]
    · unfold Core.issue; simp
  | some r =>
    have h := (SameButQueues.setQueue c k r
      (c.queue k r ++ [{ id := (c.getCtx k).nextId, val := 0, filled := false }])).issue
    refine h.trans ⟨rfl, fun j hj => ?_, ?_⟩
    · unfold Core.issue Core.pushEntry; simp [Ne.symm hj]
    · unfold Core.issue Core.pushEntry; simp

theorem issue_pend (c : Core) (k : Ctx) (push : Option (BitVec 5)) (cls : BitVec 4) (kind : PendKind) :
    ((c.issue k push cls kind).getCtx k).pend = (c.getCtx k).pend ++
      [{ id := (c.getCtx k).nextId, cls := cls, kind := kind, dst := push.map fun r => (r, (c.getCtx k).supMode) }] := by
  cases push with
  | none => unfold Core.issue; simp
  | some r =>
    unfold Core.issue Core.pushEntry
    simp only [getCtx_setCtx]
    rw [(SameButQueues.setQueue c k r _).pend]

theorem setCtx_pend_queue (c : Core) (k : Ctx) (n : Nat) (l : List Pend) (r : BitVec 5) :
    (c.setCtx k { c.getCtx k with nextId := n, pend := l }).queue k r = c.queue k r := by
  unfold Core.queue
  simp only [getCtx_setCtx, setCtx_chans]
  rfl

theorem issue_queue (c : Core) (k : Ctx) (r : BitVec 5) (cls : BitVec 4) (kind : PendKind) (h : r ≠ 0) :
    (c.issue k (some r) cls kind).queue k r =
      c.queue k r ++ [{ id := (c.getCtx k).nextId, val := 0, filled := false }] := by
  unfold Core.issue Core.pushEntry
  dsimp only
  rw [setCtx_pend_queue, queue_setQueue _ _ _ _ h]

theorem issue_queue_ne (c : Core) (k : Ctx) (push : Option (BitVec 5)) (t : BitVec 5) (cls : BitVec 4) (kind : PendKind)
    (h : push ≠ some t) : (c.issue k push cls kind).queue k t = c.queue k t := by
  cases push with
  | none => unfold Core.issue; dsimp only; rw [setCtx_pend_queue]
  | some r =>
    unfold Core.issue Core.pushEntry
    dsimp only
    rw [setCtx_pend_queue, queue_setQueue_ne _ _ _ _ _ fun e => h (by rw [e])]

/-- The state after the current word's core becomes `c` and the word commits, its context going on at `next`. -/
def State.afterTo (s : State) (c : Core) (next : Word) : State := (s.setCore s.p c).commit s.user next

/-- The same, not branching. -/
def State.after (s : State) (c : Core) : State := (s.setCore s.p c).advance

theorem me_after (s : State) (c : Core) (h : SameButIssue s.k (s.core s.p) c) :
    (s.setCore s.p c).me!.stepBit = s.me!.stepBit ∧ (s.setCore s.p c).user = s.user ∧
      (s.setCore s.p c).me!.pc = s.me!.pc := by
  have f : (s.setCore s.p c).me! = c.getCtx s.k := by unfold State.me! State.ctx; simp
  have g : (s.setCore s.p c).user = !(c.getCtx s.k).supMode := by unfold State.user State.ctx; simp
  rw [f, g, h.supMode, h.2.2]
  exact ⟨rfl, rfl, rfl⟩

theorem after_eq (s : State) (c : Core) (h : SameButIssue s.k (s.core s.p) c) :
    s.after c = s.afterTo c (s.me!.pc + 4) := by
  obtain ⟨_, h2, h3⟩ := me_after s c h
  unfold State.after State.afterTo State.advance
  rw [h2, h3]

/-- A word that commits with no STEP trap changes its core alone. -/
theorem afterTo_core (s : State) (c : Core) (next : Word) (h : SameButIssue s.k (s.core s.p) c)
    (hn : (s.user && s.me!.stepBit) = false) :
    (s.afterTo c next).core s.p =
      { c.setCtx s.k ((c.getCtx s.k).next next) with dbg := ((s.afterTo c next).core s.p).dbg } ∧
    s.afterTo c next = s.setCore s.p ((s.afterTo c next).core s.p) := by
  obtain ⟨h1, h2, h3⟩ := me_after s c h
  have hn' : (s.user && (s.setCore s.p c).me!.stepBit) = false := by rw [h1]; exact hn
  have e1 := commit_core (s.setCore s.p c) s.user next hn'
  have e2 := commit_eq (s.setCore s.p c) s.user next hn'
  have f : (s.setCore s.p c).me! = c.getCtx s.k := by unfold State.me! State.ctx; simp
  simp only [setCore_p, setCore_k, core_setCore, f] at e1 e2
  unfold State.afterTo
  refine ⟨e1, ?_⟩
  rw [e1]
  conv => lhs; rw [e2]
  simp

theorem afterTo_queue (s : State) (c : Core) (next : Word) (h : SameButIssue s.k (s.core s.p) c)
    (hn : (s.user && s.me!.stepBit) = false) (r : BitVec 5) :
    ((s.afterTo c next).core s.p).queue s.k r = c.queue s.k r := by
  rw [(afterTo_core s c next h hn).1]
  have e : ∀ d : Debug, ({ c.setCtx s.k ((c.getCtx s.k).next next) with dbg := d } : Core).queue s.k r =
      (c.setCtx s.k ((c.getCtx s.k).next next)).queue s.k r := fun _ => rfl
  rw [e]
  unfold Core.queue
  simp only [getCtx_setCtx, setCtx_chans]
  rfl

theorem afterTo_me (s : State) (c : Core) (next : Word) (h : SameButIssue s.k (s.core s.p) c)
    (hn : (s.user && s.me!.stepBit) = false) : (s.afterTo c next).ctx s.p s.k = (c.getCtx s.k).next next := by
  unfold State.ctx
  rw [(afterTo_core s c next h hn).1]
  show (c.setCtx s.k _).getCtx s.k = _
  simp

theorem after_core (s : State) (c : Core) (h : SameButIssue s.k (s.core s.p) c)
    (hn : (s.user && s.me!.stepBit) = false) :
    (s.after c).core s.p =
      { c.setCtx s.k ((c.getCtx s.k).next (s.me!.pc + 4)) with dbg := ((s.after c).core s.p).dbg } ∧
    s.after c = s.setCore s.p ((s.after c).core s.p) := by
  rw [after_eq s c h]; exact afterTo_core s c _ h hn

theorem after_queue (s : State) (c : Core) (h : SameButIssue s.k (s.core s.p) c)
    (hn : (s.user && s.me!.stepBit) = false) (r : BitVec 5) :
    ((s.after c).core s.p).queue s.k r = c.queue s.k r := by
  rw [after_eq s c h]; exact afterTo_queue s c _ h hn r

theorem after_me (s : State) (c : Core) (h : SameButIssue s.k (s.core s.p) c)
    (hn : (s.user && s.me!.stepBit) = false) : (s.after c).ctx s.p s.k = (c.getCtx s.k).next (s.me!.pc + 4) := by
  rw [after_eq s c h]; exact afterTo_me s c _ h hn

/-- Operands that block nowhere and find no trap: the body runs on their values, the pops made. -/
theorem scalar_ok {s : State} {rds : List Rd} {push : Option (BitVec 5)} {vals : List Word} (b : Bool)
    (h : operands (s.core s.p) s.k rds push b = .ok vals) (body : List Word → State → State) :
    scalar rds push b s body = body vals (s.setCore s.p (popAll (s.core s.p) s.k rds)) := by
  unfold scalar; rw [h]; rfl

theorem result_eq (s : State) (c : Core) (d : BitVec 5) (v : Word) :
    (s.setCore s.p c).result d v = s.after (c.push s.k d v) := by
  unfold State.result State.after; simp [State.modCore]

theorem later_eq (s : State) (c : Core) (d : BitVec 5) (v : Word) :
    (s.setCore s.p c).later d v = s.after (c.issue s.k (some d) 0 (.value v)) := by
  unfold State.later State.after; simp [State.modCore]

/-! ### Translations noted (R102, R105) -/

/-- State `t` differs from `s` only in core `p`'s L1 TLB and performance counters and in shared TLBs. -/
def SameButTlb (p : CoreId) (s t : State) : Prop :=
  t = { s with cores := t.cores, bents := t.bents } ∧ (∀ q, q ≠ p → t.core q = s.core q) ∧
    t.core p = { s.core p with tlb := (t.core p).tlb, dbg := (t.core p).dbg } ∧
    ∀ b, t.bent b = { s.bent b with tlb := (t.bent b).tlb }

theorem SameButTlb.refl (p : CoreId) (s : State) : SameButTlb p s s := ⟨rfl, fun _ _ => rfl, rfl, fun _ => rfl⟩

theorem SameButTlb.trans {p : CoreId} {s t u : State} (h : SameButTlb p s t) (i : SameButTlb p t u) :
    SameButTlb p s u := by
  obtain ⟨h1, h2, h3, h4⟩ := h
  obtain ⟨i1, i2, i3, i4⟩ := i
  refine ⟨?_, fun q hq => (i2 q hq).trans (h2 q hq), ?_, fun b => ?_⟩
  · rw [i1]; conv => lhs; rw [h1]
  · rw [i3]; conv => lhs; rw [h3]
  · rw [i4 b]; conv => lhs; rw [h4 b]

theorem count_sameButTlb (s : State) (p : CoreId) (code : Byte) (n : Nat) : SameButTlb p s (s.count p code n) := by
  have e := count_eq s p code n
  refine ⟨?_, fun q hq => count_core_ne s p q code n (Ne.symm hq), ?_, fun b => ?_⟩
  · generalize s.count p code n = t at *
    rw [e]; rfl
  · have e2 := count_core s p p code n
    generalize (s.count p code n).core p = c at *
    rw [e2]
  · generalize s.count p code n = t at *
    rw [e]; rfl

theorem tlbs_sameButTlb (s : State) (p : CoreId) (b : BentId) (f g : List TlbEntry → List TlbEntry) :
    SameButTlb p s ((s.modCore p fun c => { c with tlb := f c.tlb }).modBent b fun x => { x with tlb := g x.tlb }) := by
  have e : ∀ q, ((s.modCore p fun c => { c with tlb := f c.tlb }).modBent b fun x => { x with tlb := g x.tlb }).core q =
      (s.modCore p fun c => { c with tlb := f c.tlb }).core q := fun _ => rfl
  refine ⟨rfl, fun q hq => ?_, ?_, fun d => ?_⟩
  · rw [e, core_modCore_ne _ _ _ _ (Ne.symm hq)]
  · rw [e, core_modCore]
  · by_cases h : d = b
    · subst h; rw [bent_modBent]; rfl
    · rw [show ((s.modCore p fun c => { c with tlb := f c.tlb }).modBent b fun x => { x with tlb := g x.tlb }).bent d =
        s.bent d from bent_setBent_ne _ _ _ _ (Ne.symm h)]

theorem fillTlb_sameButTlb (s : State) (p : CoreId) (va : Nat) : SameButTlb p s (s.fillTlb p va) :=
  tlbs_sameButTlb s p (bentOf p) (addTlb 256 (s.newTlb p va)) (addTlb 16384 (s.newTlb p va))

theorem note_sameButTlb (s : State) (p : CoreId) (va : Word) : SameButTlb p s (s.note p va) := by
  unfold State.note State.noteVa
  by_cases h : 2 ^ 52 ≤ va.toNat ∨ spadBase ≤ va.toNat
  · rw [if_pos h]; exact SameButTlb.refl p s
  · rw [if_neg h, if_neg h]
    exact (fillTlb_sameButTlb s p va.toNat).trans (count_sameButTlb _ _ _ _)

/-- Noting any number of translations changes the TLBs and the counters alone. -/
theorem noteAll_sameButTlb (p : CoreId) (l : List Word) (s : State) : SameButTlb p s (s.noteAll p l) := by
  induction l generalizing s with
  | nil => exact SameButTlb.refl p s
  | cons v t ih => exact (note_sameButTlb s p v).trans (ih (s.note p v))

/-! ### Traps (R180) -/

/-- A trap whose handler is at TVEC changes its context alone. -/
theorem trap_eq (s : State) (p : CoreId) (k : Ctx) (code aux : Byte) (tval epc : Word) (w : W32)
    (h : (s.ctx p k).tvec ≠ 0) :
    s.trap p k code aux tval epc w = s.setCtx p k ((s.ctx p k).trap code aux tval epc w) := by
  unfold State.trap
  dsimp only
  rw [if_neg h]

@[simp] theorem getLsbD_setBit (w : Word) (i j : Nat) (b : Bool) (hi : i < 64) :
    (setBit w i b).getLsbD j = if j = i then b else w.getLsbD j := by
  unfold setBit
  cases b <;> by_cases e : j = i
  · subst e; simp [BitVec.getLsbD_twoPow]
  · have e2 : i ≠ j := fun h => e h.symm
    by_cases h : j < 64
    · simp [e, h]
    · simp [e, BitVec.getLsbD_of_ge w j (by omega)]
  · subst e; simp [hi]
  · have e2 : i ≠ j := fun h => e h.symm
    simp [BitVec.getLsbD_twoPow, e, e2]

theorem trapStatus_bits (st : Word) (i : Nat) :
    (trapStatus st).getLsbD i = if i = 0 then true else if i = 1 then st.getLsbD 0 else st.getLsbD i := by
  simp [trapStatus]

theorem causeOf_eq (code aux : Byte) : causeOf code aux = code.setWidth 64 ||| aux.setWidth 64 <<< 16 := by
  revert code aux
  intro code aux
  apply BitVec.eq_of_toNat_eq
  have h1 := code.isLt
  have h2 := aux.isLt
  simp only [causeOf, at_, BitVec.toNat_or, BitVec.toNat_ofNat, BitVec.toNat_shiftLeft, BitVec.toNat_setWidth,
    Nat.shiftLeft_eq, pow_zero, mul_one]
  rw [Nat.or_comm, Nat.mod_eq_of_lt (a := code.toNat) (by omega), Nat.mod_eq_of_lt (a := aux.toNat) (b := 2 ^ 64) (by omega)]

end Sys2Proof.Machine
end

