-- ==== Sys2Proof/Tests/Slice0.lean ====
section
/-! SUPPORT. Tests: words written out from their formats, ill-formed terms, single steps, and for each statement a state
and operands that meet its hypotheses together (a theorem witness_<statement>). -/

namespace Sys2Proof.Tests

set_option Elab.async false

open Sys2Proof Sys2Proof.Machine Sys2Proof.Claims

/-! ### Words laid out from their formats -/

/-- Words laid out field by field (R127, R181–R183, R191). -/
theorem test_decode_alu_0 : ∀ x ∈ ([
    (0x8258D400, .add ⟨true, 5, 17, true, 10, false⟩),
    (0x8258D401, .sub ⟨true, 5, 17, true, 10, false⟩),
    (0x8258D402, .and ⟨true, 5, 17, true, 10, false⟩),
    (0x8258D403, .or ⟨true, 5, 17, true, 10, false⟩),
    (0x8258D404, .xor ⟨true, 5, 17, true, 10, false⟩),
    (0x8258D405, .andn ⟨true, 5, 17, true, 10, false⟩),
    (0x8258D406, .shl ⟨true, 5, 17, true, 10, false⟩),
    (0x8258D407, .shr ⟨true, 5, 17, true, 10, false⟩),
    (0x8258D408, .sra ⟨true, 5, 17, true, 10, false⟩),
    (0x8258D409, .rotr ⟨true, 5, 17, true, 10, false⟩),
    (0x8258D40A, .min ⟨true, 5, 17, true, 10, false⟩),
    (0x8258D40B, .max ⟨true, 5, 17, true, 10, false⟩),
    (0x8258D40C, .minu ⟨true, 5, 17, true, 10, false⟩),
    (0x8258D40D, .maxu ⟨true, 5, 17, true, 10, false⟩),
    (0x8258D40E, .cmpeq ⟨true, 5, 17, true, 10, false⟩),
    (0x8258D40F, .cmpne ⟨true, 5, 17, true, 10, false⟩),
    (0x8258D410, .cmplt ⟨true, 5, 17, true, 10, false⟩),
    (0x8258D411, .cmpltu ⟨true, 5, 17, true, 10, false⟩),
    (0x8258D412, .cmple ⟨true, 5, 17, true, 10, false⟩),
    (0x8258D413, .cmpleu ⟨true, 5, 17, true, 10, false⟩),
    (0x8258D414, .sel ⟨true, 5, 17, true, 10, false⟩),
    (0x8258D418, .sext ⟨true, 5, 17, true, 10, false⟩),
    (0x8258D419, .zext ⟨true, 5, 17, true, 10, false⟩),
    (0x8458D400, .mul ⟨true, 5, 17, true, 10, false⟩)] : List (W32 × Instr)), decodeScalar x.1 = some x.2 := by
  decide +kernel

/-- Words laid out field by field (R127, R181–R183, R191). -/
theorem test_decode_alu_1 : ∀ x ∈ ([
    (0x8458D401, .mulh ⟨true, 5, 17, true, 10, false⟩),
    (0x8458D402, .mulhu ⟨true, 5, 17, true, 10, false⟩),
    (0x8458D403, .div ⟨true, 5, 17, true, 10, false⟩),
    (0x8458D404, .divu ⟨true, 5, 17, true, 10, false⟩),
    (0x8458D405, .rem ⟨true, 5, 17, true, 10, false⟩),
    (0x8458D406, .remu ⟨true, 5, 17, true, 10, false⟩),
    (0xA658D400, .waitge ⟨true, 5, 17, true, 10, false⟩),
    (0xA658D401, .waitne ⟨true, 5, 17, true, 10, false⟩)] : List (W32 × Instr)), decodeScalar x.1 = some x.2 := by
  decide +kernel

/-- Words laid out field by field (R128, R184, R185, R193, R194). -/
theorem test_decode_imm_0 : ∀ x ∈ ([
    (0x0764CA5C, .addi ⟨false, 22, 9, true, 0xA5C⟩),
    (0x0964CA5C, .andi ⟨false, 22, 9, true, 0xA5C⟩),
    (0x0B64CA5C, .ori ⟨false, 22, 9, true, 0xA5C⟩),
    (0x0D64CA5C, .xori ⟨false, 22, 9, true, 0xA5C⟩),
    (0x1164CA5C, .cmpeqi ⟨false, 22, 9, true, 0xA5C⟩),
    (0x1164DA5C, .cmpnei ⟨false, 22, 9, true, 0xA5C⟩),
    (0x1164EA5C, .cmplti ⟨false, 22, 9, true, 0xA5C⟩),
    (0x1164FA5C, .cmpltui ⟨false, 22, 9, true, 0xA5C⟩),
    (0x3964CA5C, .jalr ⟨false, 22, 9, true, 0xA5C⟩),
    (0x3B64DA5C, .csrw ⟨false, 22, 9, true, 0xA5C⟩),
    (0x3B64EA5C, .csrs ⟨false, 22, 9, true, 0xA5C⟩),
    (0x3B64FA5C, .csrc ⟨false, 22, 9, true, 0xA5C⟩),
    (0x0F64C02D, .shli ⟨false, 22, 9, true, 0x2D⟩),
    (0x0F64D02D, .shri ⟨false, 22, 9, true, 0x2D⟩),
    (0x0F64E02D, .srai ⟨false, 22, 9, true, 0x2D⟩),
    (0x0F64F02D, .rotri ⟨false, 22, 9, true, 0x2D⟩),
    (0x1368001A, .lih ⟨false, 22, 0x8001A⟩),
    (0x1568001A, .pcah ⟨false, 22, 0x8001A⟩),
    (0x3768001A, .jal ⟨false, 22, 0x8001A⟩),
    (0x8258C015, .clz ⟨true, 5, 17, true⟩),
    (0x8258C016, .ctz ⟨true, 5, 17, true⟩),
    (0x8258C017, .popc ⟨true, 5, 17, true⟩),
    (0x9658C004, .movq ⟨true, 5, 17, true⟩),
    (0x96588000, .qcnt ⟨true, 5, 17⟩)] : List (W32 × Instr)), decodeScalar x.1 = some x.2 := by
  decide +kernel

/-- Words laid out field by field (R128, R184, R185, R193, R194). -/
theorem test_decode_imm_1 : ∀ x ∈ ([
    (0x96088001, .qclr ⟨true, 17⟩),
    (0x96088002, .dup ⟨true, 17⟩),
    (0x96088003, .drop ⟨true, 17⟩)] : List (W32 × Instr)), decodeScalar x.1 = some x.2 := by
  decide +kernel

/-- Words laid out field by field (R129, R130, R186–R191, R202). -/
theorem test_decode_memory_0 : ∀ x ∈ ([
    (0x183F2E81, .lds ⟨false, 3, 30, false, 11, 2, 0x81⟩),
    (0x1A3F2E81, .ldz ⟨false, 3, 30, false, 11, 2, 0x81⟩),
    (0x1C3F2E81, .st ⟨false, 3, 30, false, 11, 2, 0x81⟩),
    (0xA03F5906, .aadd ⟨true, 3, 30, true, 12, true, 6⟩),
    (0xA03F5916, .aand ⟨true, 3, 30, true, 12, true, 6⟩),
    (0xA03F5926, .aor ⟨true, 3, 30, true, 12, true, 6⟩),
    (0xA03F5936, .axor ⟨true, 3, 30, true, 12, true, 6⟩),
    (0xA03F5946, .amin ⟨true, 3, 30, true, 12, true, 6⟩),
    (0xA03F5956, .amax ⟨true, 3, 30, true, 12, true, 6⟩),
    (0xA03F5966, .aminu ⟨true, 3, 30, true, 12, true, 6⟩),
    (0xA03F5976, .amaxu ⟨true, 3, 30, true, 12, true, 6⟩),
    (0xA03F5986, .aswap ⟨true, 3, 30, true, 12, true, 6⟩),
    (0xA03F5996, .acas ⟨true, 3, 30, true, 12, true, 6⟩),
    (0xA20F1906, .radd ⟨true, 30, 12, true, 6⟩),
    (0xA20F1916, .rand ⟨true, 30, 12, true, 6⟩),
    (0xA20F1926, .ror ⟨true, 30, 12, true, 6⟩),
    (0xA20F1936, .rxor ⟨true, 30, 12, true, 6⟩),
    (0xA20F1946, .rmin ⟨true, 30, 12, true, 6⟩),
    (0xA20F1956, .rmax ⟨true, 30, 12, true, 6⟩),
    (0xA20F1966, .rminu ⟨true, 30, 12, true, 6⟩),
    (0xA20F1976, .rmaxu ⟨true, 30, 12, true, 6⟩),
    (0xA20F1886, .rfadd ⟨true, 30, 12, 6⟩),
    (0x24008005, .fence false 0x8005),
    (0x24C08005, .acq ⟨false, .dev, 0x8005⟩)] : List (W32 × Instr)), decodeScalar x.1 = some x.2 := by
  decide +kernel

/-- Words laid out field by field (R129, R130, R186–R191, R202). -/
theorem test_decode_memory_1 : ∀ x ∈ ([
    (0x25408005, .rel ⟨false, .dev, 0x8005⟩),
    (0x25C08005, .acqrel ⟨false, .dev, 0x8005⟩),
    (0xA60F4002, .monclr ⟨true, 30, true⟩),
    (0xCA0F77F3, .pref ⟨true, 30, true, 0x7F3⟩),
    (0xCA0F4002, .iinv ⟨true, 30, true, false, true⟩),
    (0x4A000001, .iinv ⟨false, 0, false, true, false⟩),
    (0xCA0F5000, .tinv ⟨true, 30, true, false⟩),
    (0xCA0F6000, .l1inv ⟨true, 30, true, false⟩)] : List (W32 × Instr)), decodeScalar x.1 = some x.2 := by
  decide +kernel

/-- Words laid out field by field (R127, R192–R201). -/
theorem test_decode_control_0 : ∀ x ∈ ([
    (0x29A3EB5B, .beq ⟨false, 7, true, 21, true, 0x1A5B⟩),
    (0x2BA3EB5B, .bne ⟨false, 7, true, 21, true, 0x1A5B⟩),
    (0x2DA3EB5B, .blt ⟨false, 7, true, 21, true, 0x1A5B⟩),
    (0x2FA3EB5B, .bge ⟨false, 7, true, 21, true, 0x1A5B⟩),
    (0x31A3EB5B, .bltu ⟨false, 7, true, 21, true, 0x1A5B⟩),
    (0x33A3EB5B, .bgeu ⟨false, 7, true, 21, true, 0x1A5B⟩),
    (0xB5800003, .j true 0x1800003),
    (0x3A4000A0, .csrr false 4 0xA0),
    (0x3C0000C5, .trap false 0xC5),
    (0xBC0003C5, .brk true 0xC5),
    (0xBC000100, .sysret true),
    (0xBC000200, .idle true),
    (0xBC000400, .stepover true),
    (0xC8000001, .tdone true),
    (0xC8000002, .tyield true),
    (0x80000155, .trapWord 0x80000155),
    (0xFFFFFFFF, .trapWord 0xFFFFFFFF),
    (0x3E03EB0D, .spawn ⟨false, 7, true, 21, true, 13⟩),
    (0x48300000, .tnext false 3),
    (0x4103EB00, .epush ⟨false, .v, 7, true, 21, true⟩),
    (0x4503EB00, .xcmd ⟨false, .v, 7, true, 21, true⟩),
    (0x4303C000, .echain ⟨false, .v, 7, true⟩),
    (0x4303C001, .etail ⟨false, .v, 7, true⟩),
    (0x42898002, .eseq false .m 19)] : List (W32 × Instr)), decodeScalar x.1 = some x.2 := by
  decide +kernel

/-- Words laid out field by field (R127, R192–R201). -/
theorem test_decode_control_1 : ∀ x ∈ ([
    (0x4604808D, .mcfg ⟨false, 9, false, 0x8D⟩)] : List (W32 × Instr)), decodeScalar x.1 = some x.2 := by
  decide +kernel

/-- Micro-orders laid out field by field (R140–R145). -/
theorem test_decode_orders_0 : ∀ x ∈ ([
    (0x83360000, .inj ⟨true, 9, 5, true⟩),
    (0x05300000, .drn ⟨false, 9, 2⟩),
    (0x07360000, .srd ⟨false, 9, 5, true⟩),
    (0x09340000, .swr ⟨false, 9, 2, true⟩),
    (0x0BFB2C00, .time ⟨false, 0xFD, 2, 5, true⟩),
    (0x8DA5B000, .jmpt true 0x1A5B),
    (0x8FA5B901, .loopt ⟨true, 0x1A5B, 2, false, 0x101⟩),
    (0x0E001E00, .loopt ⟨false, 1, 3, true, 0⟩),
    (0x90000000, .halt true),
    (0xA1AF536F, .vadd ⟨true, 6, 11, 13, 4, 6, true, true, 3, true, true⟩),
    (0xA3AF536F, .vsub ⟨true, 6, 11, 13, 4, 6, true, true, 3, true, true⟩),
    (0xA5AF536F, .vmul ⟨true, 6, 11, 13, 4, 6, true, true, 3, true, true⟩),
    (0xA7AF536F, .vfma ⟨true, 6, 11, 13, 4, 6, true, true, 3, true, true⟩),
    (0xC3AF576F, .vcvt ⟨true, 6, 11, 13, 5, 6, true, true, 3, true, true⟩),
    (0xC7AF536F, .vredadd ⟨true, 6, 11, 13, 4, 6, true, true, 3, true, true⟩),
    (0xA9AF5741, .vmin ⟨true, 6, 11, 13, 5, 6, true, false, 0, false, true⟩),
    (0xABAF5741, .vmax ⟨true, 6, 11, 13, 5, 6, true, false, 0, false, true⟩),
    (0xC9AF5741, .vredmax ⟨true, 6, 11, 13, 5, 6, true, false, 0, false, true⟩),
    (0xCBAF5741, .vredmin ⟨true, 6, 11, 13, 5, 6, true, false, 0, false, true⟩),
    (0xADAF4103, .vabs ⟨true, 6, 11, 13, 0, 2, false, false, 0, true, true⟩),
    (0xAFAF4103, .vneg ⟨true, 6, 11, 13, 0, 2, false, false, 0, true, true⟩),
    (0xB1AF6601, .vand ⟨true, 6, 11, 13, 9, 4, false, false, 0, false, true⟩),
    (0xB3AF6601, .vor ⟨true, 6, 11, 13, 9, 4, false, false, 0, false, true⟩),
    (0xB5AF6601, .vxor ⟨true, 6, 11, 13, 9, 4, false, false, 0, false, true⟩)] : List (W32 × Instr)), decodeOrder x.1 = some x.2 := by
  decide +kernel

/-- Micro-orders laid out field by field (R140–R145). -/
theorem test_decode_orders_1 : ∀ x ∈ ([
    (0xB9AF6601, .vshl ⟨true, 6, 11, 13, 9, 4, false, false, 0, false, true⟩),
    (0xBBAF6601, .vshr ⟨true, 6, 11, 13, 9, 4, false, false, 0, false, true⟩),
    (0xBDAF6601, .vsra ⟨true, 6, 11, 13, 9, 4, false, false, 0, false, true⟩),
    (0xD5AF6601, .vperm ⟨true, 6, 11, 13, 9, 4, false, false, 0, false, true⟩),
    (0xB7AF4201, .vnot ⟨true, 6, 11, 13, 0, 4, false, false, 0, false, true⟩),
    (0xE3AF4201, .vmovs ⟨true, 6, 11, 13, 0, 4, false, false, 0, false, true⟩),
    (0xBF9B6751, .vcmp ⟨true, 6, 6, 13, 9, 6, true, false, 4, false, true⟩),
    (0xC1AF6601, .vsel ⟨true, 6, 11, 13, 9, 4, false, false, 0, false, true⟩),
    (0xC5AF6583, .vdot4 ⟨true, 6, 11, 13, 9, 3, false, false, 0, true, true⟩),
    (0xCDAF436B, .vexp2 ⟨true, 6, 11, 13, 0, 6, true, true, 2, true, true⟩),
    (0xCFAF436B, .vlog2 ⟨true, 6, 11, 13, 0, 6, true, true, 2, true, true⟩),
    (0xD1AF436B, .vrcp ⟨true, 6, 11, 13, 0, 6, true, true, 2, true, true⟩),
    (0xD3AF436B, .vrsq ⟨true, 6, 11, 13, 0, 6, true, true, 2, true, true⟩),
    (0xD7AF4F15, .vbcast ⟨true, 6, 11, 13, 3, 6, false, false, 5, false, true⟩),
    (0xD9AF65D6, .vrotm ⟨true, 6, 11, 13, 9, 3, true, false, 5, true, false⟩),
    (0xDBAF6180, .vpln ⟨true, 6, 11, 13, 8, 3, false, false, 0, false, false⟩),
    (0xDDAF5B4C, .vunpl ⟨true, 6, 11, 13, 6, 6, true, false, 3, false, false⟩),
    (0xDFAF6740, .vscale ⟨true, 6, 11, 13, 9, 6, true, false, 0, false, false⟩),
    (0xE1AF63D0, .vqmx ⟨true, 6, 11, 13, 8, 7, true, false, 4, false, false⟩),
    (0xE5AE9681, .vldi ⟨true, 6, 11, 10, 5, 5, false, false, 0, false, true⟩),
    (0xE78D5808, .vmask ⟨true, 6, 3, 5, 6, 0, false, false, 2, false, false⟩)] : List (W32 × Instr)), decodeOrder x.1 = some x.2 := by
  decide +kernel

/-- Commands laid out word by word (R135, R138, R214–R305). -/
theorem test_decode_commands_0 : ∀ x ∈ ([
    ([0x6E984D8, 0x20000001, 0x10000001, 0x20000002, 0x10000002, 0x20000003, 0x10000003, 0x7, 0x8], .cpy ⟨5, true, 2, 9, 1⟩ ⟨⟨true, 11⟩, 0x1000000120000001, 0x1000000220000002, 0x1000000320000003, 7, 8⟩),
    ([0xAE994D8, 0x20000001, 0x10000001, 0x20000002, 0x10000002, 0x20000003, 0x10000003, 0x7, 0x20000004, 0x10000004], .cpyn ⟨5, true, 2, 9, 1⟩ ⟨⟨true, 11⟩, 0x1000000120000001, 0x1000000220000002, 0x1000000320000003, 7, 0x1000000420000004⟩),
    ([0xEE994DB, 0x20000001, 0x10000001, 0x20000002, 0x10000002, 0x20000003, 0x10000003, 0x7, 0x801ABCDE, 0x6], .gath ⟨5, true, 2, 9, 1⟩ ⟨⟨true, 11⟩, 3, 0x1000000120000001, 0x1000000220000002, 0x1000000320000003, 7, 0x1ABCDE, true, 6⟩),
    ([0x12E994DA, 0x20000001, 0x10000001, 0x20000002, 0x10000002, 0x20000003, 0x10000003, 0x7, 0x1ABCDE, 0x6], .scat ⟨5, true, 2, 9, 1⟩ ⟨⟨true, 11⟩, 2, 0x1000000120000001, 0x1000000220000002, 0x1000000320000003, 7, 0x1ABCDE, false, 6⟩),
    ([0x16E994D8, 0x20000001, 0x10000001, 0x20000002, 0x10000002, 0x20000003, 0x10000003, 0x7, 0x8, 0x25], .rcpy ⟨5, true, 2, 9, 1⟩ ⟨⟨true, 11⟩, 0x1000000120000001, 0x1000000220000002, 0x1000000320000003, 7, 8, 5, 2⟩),
    ([0x1AE984D8, 0x20000001, 0x10000001, 0x20000002, 0x10000002, 0x20000003, 0x10000003, 0x7, 0x8], .fill ⟨5, true, 2, 9, 1⟩ ⟨⟨true, 11⟩, 0x1000000120000001, 0x1000000220000002, 0x1000000320000003, 7, 8⟩),
    ([0x1EE984D8, 0x0, 0x0, 0x20000002, 0x10000002, 0x20000003, 0x10000003, 0x7, 0x8], .prefCmd ⟨5, true, 2, 9, 1⟩ ⟨⟨true, 11⟩, 0x1000000220000002, 0x1000000320000003, 7, 8⟩),
    ([0x22E984D8, 0xD, 0x0, 0x20000002, 0x10000002, 0x20000003, 0x10000003, 0x7, 0x8], .cpyp ⟨5, true, 2, 9, 1⟩ ⟨⟨true, 11⟩, 13, 0x1000000220000002, 0x1000000320000003, 7, 8⟩),
    ([0x26E92400, 0x1ABC00, 0xD8001], .psub ⟨5, true, 2, 9, 1⟩ ⟨0x1ABC00, 0x8001, 13⟩),
    ([0x2AE91400, 0xD], .puns ⟨5, true, 2, 9, 1⟩ 13),
    ([0x42E91400, 0x301266], .mfmt ⟨5, true, 2, 9, 1⟩ ⟨6, 6, false, true, false, false, true, 0, 3⟩),
    ([0xA2E94400, 0x20000001, 0x10000001, 0x0, 0x0], .qinit ⟨5, true, 2, 9, 1⟩ 0x1000000120000001)] : List (List W32 × Instr)), decodeCmd x.1 = some x.2 := by
  decide +kernel

/-- Commands laid out word by word (R135, R138, R214–R305). -/
theorem test_decode_commands_1 : ∀ x ∈ ([
    ([0xA6E94400, 0x20000001, 0x10000001, 0x20000002, 0x10000002], .qacq ⟨5, true, 2, 9, 1⟩ 0x1000000120000001 0x1000000220000002),
    ([0xAAE94400, 0x20000001, 0x10000001, 0x20000002, 0x10000002], .qrel ⟨5, true, 2, 9, 1⟩ 0x1000000120000001 0x1000000220000002),
    ([0xB2E94400, 0x20000001, 0x10000001, 0x20000002, 0x10000002], .qcom ⟨5, true, 2, 9, 1⟩ 0x1000000120000001 0x1000000220000002),
    ([0xB6E94400, 0x20000001, 0x10000001, 0x20000002, 0x10000002], .qstat ⟨5, true, 2, 9, 1⟩ 0x1000000120000001 0x1000000220000002),
    ([0xC6E94400, 0x20000001, 0x10000001, 0x20000002, 0x10000002], .cwait ⟨5, true, 2, 9, 1⟩ 0x1000000120000001 0x1000000220000002),
    ([0xCAE94400, 0x20000001, 0x10000001, 0x20000002, 0x10000002], .cseq ⟨5, true, 2, 9, 1⟩ 0x1000000120000001 0x1000000220000002),
    ([0xC2E93400, 0x20000001, 0x10000001, 0x9], .csig ⟨5, true, 2, 9, 1⟩ 0x1000000120000001 9),
    ([0xE2E90400], .cnop ⟨5, true, 2, 9, 1⟩),
    ([0xE6E92400, 0x20000001, 0x10000001], .clink ⟨5, true, 2, 9, 1⟩ 0x1000000120000001),
    ([0xEAE91400, 0x9], .cloop ⟨5, true, 2, 9, 1⟩ 9),
    ([0xEEE90400], .cend ⟨5, true, 2, 9, 1⟩),
    ([0xF2E9242D, 0x20000001, 0x10000001], .launch ⟨5, true, 2, 9, 1⟩ 0x2D 0x1000000120000001)] : List (List W32 × Instr)), decodeCmd x.1 = some x.2 := by
  decide +kernel

/-- Commands laid out word by word (R135, R138, R214–R305). -/
theorem test_decode_commands_2 : ∀ x ∈ ([
    ([0x82E9A4C0, 0x20000001, 0x10000001, 0x20000002, 0x10000002, 0x9, 0x5A5, 0x20000005, 0x10000005, 0x20000009, 0x10000009], .fcopy ⟨5, true, 2, 9, 1⟩ ⟨true, true, 0x1000000120000001, 0x1000000220000002, 9, 0x5A5, 0x1000000920000009⟩ 0x1000000520000005),
    ([0x86E984C1, 0x20000001, 0x10000001, 0x20000002, 0x10000002, 0x9, 0x5A5, 0x20000009, 0x10000009], .ffill ⟨5, true, 2, 9, 1⟩ ⟨true, true, 0x1000000120000001, 0x1000000220000002, 9, 0x5A5, 0x1000000920000009⟩ true),
    ([0x8AE9C4C0, 0x20000001, 0x10000001, 0x20000002, 0x10000002, 0x9, 0x5A5, 0x20000005, 0x10000005, 0x20000006, 0x10000006, 0x20000009, 0x10000009], .fand ⟨5, true, 2, 9, 1⟩ ⟨true, true, 0x1000000120000001, 0x1000000220000002, 9, 0x5A5, 0x1000000920000009⟩ 0x1000000520000005 0x1000000620000006),
    ([0x8EE9C4C0, 0x20000001, 0x10000001, 0x20000002, 0x10000002, 0x9, 0x5A5, 0x20000005, 0x10000005, 0x20000006, 0x10000006, 0x20000009, 0x10000009], .forRow ⟨5, true, 2, 9, 1⟩ ⟨true, true, 0x1000000120000001, 0x1000000220000002, 9, 0x5A5, 0x1000000920000009⟩ 0x1000000520000005 0x1000000620000006),
    ([0x92E9C4C0, 0x20000001, 0x10000001, 0x20000002, 0x10000002, 0x9, 0x5A5, 0x20000005, 0x10000005, 0x20000006, 0x10000006, 0x20000009, 0x10000009], .fxor ⟨5, true, 2, 9, 1⟩ ⟨true, true, 0x1000000120000001, 0x1000000220000002, 9, 0x5A5, 0x1000000920000009⟩ 0x1000000520000005 0x1000000620000006),
    ([0x96E9A4C0, 0x20000001, 0x10000001, 0x20000002, 0x10000002, 0x9, 0x5A5, 0x20000005, 0x10000005, 0x20000009, 0x10000009], .fnot ⟨5, true, 2, 9, 1⟩ ⟨true, true, 0x1000000120000001, 0x1000000220000002, 9, 0x5A5, 0x1000000920000009⟩ 0x1000000520000005),
    ([0x9AE9E4C0, 0x20000001, 0x10000001, 0x20000002, 0x10000002, 0x9, 0x5A5, 0x20000005, 0x10000005, 0x20000006, 0x10000006, 0x20000007, 0x10000007, 0x20000009, 0x10000009], .fmaj ⟨5, true, 2, 9, 1⟩ ⟨true, true, 0x1000000120000001, 0x1000000220000002, 9, 0x5A5, 0x1000000920000009⟩ 0x1000000520000005 0x1000000620000006 0x1000000720000007),
    ([0x46E91400, 0x460], .mnest ⟨5, true, 2, 9, 1⟩ 0x60 4),
    ([0x4AE9941B, 0x20000001, 0x10000001, 0x20000002, 0x10000002, 0x20000003, 0x10000003, 0x20000004, 0x10000004, 0xB], .mgo ⟨5, true, 2, 9, 1⟩ ⟨true, 0xD, 0x1000000120000001, 0x1000000220000002, 0x1000000320000003, 0x1000000420000004, 11⟩),
    ([0x4EE9441A, 0x20000001, 0x10000001, 0x20000002, 0x10000002], .mbld ⟨5, true, 2, 9, 1⟩ ⟨false, 0xD, 0x1000000120000001, 0x1000000220000002⟩),
    ([0x52E9040D], .mzero ⟨5, true, 2, 9, 1⟩ 0xD),
    ([0x56E9146D, 0x15], .mhad ⟨5, true, 2, 9, 1⟩ ⟨0xD, 2, true, 0x15⟩)] : List (List W32 × Instr)), decodeCmd x.1 = some x.2 := by
  decide +kernel

/-- Commands laid out word by word (R135, R138, R214–R305). -/
theorem test_decode_commands_3 : ∀ x ∈ ([
    ([0x5AE9740D, 0x20000001, 0x10000001, 0x100, 0x200, 0xB56, 0x20000002, 0x10000002], .mdrn ⟨5, true, 2, 9, 1⟩ ⟨0xD, 0x1000000120000001, 0x100, 0x200, 6, true, false, true, false, 3, true, 0x1000000220000002⟩),
    ([0x62E95400, 0x20000001, 0x10000001, 0x1011A5B, 0x20001, 0x40003], .vrun ⟨5, true, 2, 9, 1⟩ ⟨0x1000000120000001, 0x1A5B, 0x101, 1, 2, 3, 4⟩),
    ([0x66E90401], .vstop ⟨5, true, 2, 9, 1⟩ true),
    ([0x6AE92409, 0x20000001, 0x10000001], .vbase ⟨5, true, 2, 9, 1⟩ 9 0x1000000120000001),
    ([0x6EE99409, 0x20000001, 0x10000001, 0x20001, 0x40003, 0x80, 0x81, 0x82, 0x83, 0x90F1], .vsdesc ⟨5, true, 2, 9, 1⟩ 9 ⟨0x1000000120000001, 1, 2, 3, 4, 0x80, 0x81, 0x82, 0x83, 0x90F1⟩),
    ([0x9EE9E445, 0x20000001, 0x10000001, 0x20000002, 0x10000002, 0x9, 0x5A5, 0x20000003, 0x10000003, 0x20000004, 0x10000004, 0x20000005, 0x10000005, 0x20000006, 0x10000006], .fqry ⟨5, true, 2, 9, 1⟩ ⟨true, 5, 0x1000000120000001, 0x1000000220000002, 9, 0x5A5, 0x1000000320000003, 0x1000000420000004, 0x1000000520000005, 0x1000000620000006⟩),
    ([0xAEE94401, 0x20000001, 0x10000001, 0x20000002, 0x10000002], .qres ⟨5, true, 2, 9, 1⟩ 0x1000000120000001 0x1000000220000002 true)] : List (List W32 × Instr)), decodeCmd x.1 = some x.2 := by
  decide +kernel

/-! ### Small states -/

/-- A filled entry. -/
def ent (v : Word) : QEntry := { id := 0, val := v, filled := true }

/-- Core 0's CP in user mode at pc 0x1000 with a handler at 0x200, a scratchpad address in x1 and [9] in x2. -/
def cpOf (x : Context) : Context :=
  { x with pc := 0x1000, run := .issuing, tvec := 0x200, nextId := 1,
           regs := vset (vset x.regs 1 [ent 0xFFFFFFFE00010]) 2 [ent 9] }

/-- The module with core 0 as `g` changes it and its CP as `f` changes it, that CP being the agent that acts. -/
def at0 (g : Core → Core) (f : Context → Context) : State :=
  (State.reset.modCore 0 fun c => (g c).setCtx .cp (f (cpOf (c.getCtx .cp)))).modSched fun x => { x with core := 0, ctx := .cp }

def user : State := at0 id id
def sup : State := at0 id fun x => { x with status := 1 }

/-- x1 and x2 popped. -/
def rr : R3 := ⟨false, 5, 1, false, 2, false⟩
def both : List Rd := [pop 1, pop 2]

/-- The state a result holds, or the reset state. -/
def nextOf (o : Host.Outcome State Fault Refusal) : State :=
  match o with
  | .next t => t
  | _ => State.reset

/-! ### Well-formedness refuses -/

/-- A station order whose modifiers no member takes together. -/
def badOrd (op : Nat) : StOrd := ⟨false, 0, 8, 8, 15, if op = 0x22 ∨ op = 0x2C ∨ op = 0x33 then 0 else 2, true, true, 7, true, false⟩

theorem test_wf_trap_word : (Instr.trapWord 0x0250C400).wf = false := by decide +kernel

theorem test_wf_all : (Instr.iinv ⟨false, 3, false, true, false⟩).wf = false ∧ (Instr.tinv ⟨false, 3, false, true⟩).wf = false ∧
    (Instr.l1inv ⟨false, 0, true, true⟩).wf = false := by decide +kernel

theorem test_wf_record : ∀ f ∈ [({ (default : Fur) with wrec := false, reca := 8 } : Fur)], (Instr.fcopy default f default).wf = false ∧
    (Instr.fnot default f default).wf = false ∧ (Instr.ffill default f default).wf = false ∧
    (Instr.fand default f default default).wf = false ∧ (Instr.forRow default f default default).wf = false ∧
    (Instr.fxor default f default default).wf = false ∧ (Instr.fmaj default f default default default).wf = false := by
  decide +kernel

theorem test_wf_loop : (Instr.loopt { (default : LoopOp) with vr := true, cnt := 1 }).wf = false := by decide +kernel

theorem test_wf_station : ∀ x ∈ stationTable, (x.2 (badOrd x.1)).wf = false := by decide +kernel

/-! ### One step each, with results worked out from R181–R195 -/

/-- Core 0's CP after `i`, with A in x1 and B in x2. -/
def after (i : Instr) (a b : Word) : Context :=
  (nextOf (exec i (at0 id fun x => { x with regs := vset (vset x.regs 1 [ent a]) 2 [ent b] }))).ctx 0 .cp

def inX5 (x : Context) : List Word := (vget x.regs 5).map fun e => e.val

/-- The value that a later result will fill its entry with. -/
def pending (x : Context) : List Word :=
  x.pend.filterMap fun i => match i.kind with
    | .value v => some v
    | _ => none

theorem test_add_wraps : inX5 (after (.add rr) 0xFFFFFFFFFFFFFFFF 1) = [0] ∧
    vget (after (.add rr) 0xFFFFFFFFFFFFFFFF 1).regs 1 = [] := by decide +kernel
theorem test_sub_wraps : inX5 (after (.sub rr) 0 1) = [0xFFFFFFFFFFFFFFFF] := by decide +kernel
theorem test_shl_takes_six_bits : inX5 (after (.shl rr) 3 64) = [3] := by decide +kernel
theorem test_sra_sign : inX5 (after (.sra rr) 0x8000000000000000 63) = [0xFFFFFFFFFFFFFFFF] := by decide +kernel
theorem test_min_signed : inX5 (after (.min rr) 0xFFFFFFFFFFFFFFFF 1) = [0xFFFFFFFFFFFFFFFF] := by decide +kernel
theorem test_minu_unsigned : inX5 (after (.minu rr) 0xFFFFFFFFFFFFFFFF 1) = [1] := by decide +kernel
theorem test_clz_zero : inX5 (after (.clz ⟨false, 5, 1, false⟩) 0 0) = [64] := by decide +kernel
theorem test_sext_byte : inX5 (after (.sext rr) 0x80 8) = [0xFFFFFFFFFFFFFF80] := by decide +kernel
theorem test_addi_sign_extends : inX5 (after (.addi ⟨false, 5, 1, false, 0xFFF⟩) 0 0) = [0xFFFFFFFFFFFFFFFF] := by decide +kernel
theorem test_andi_zero_extends : inX5 (after (.andi ⟨false, 5, 1, false, 0xFFF⟩) 0xFFFFFFFFFFFFFFFF 0) = [0xFFF] := by decide +kernel
theorem test_cmpltui_unsigned : inX5 (after (.cmpltui ⟨false, 5, 1, false, 0xFFF⟩) 5 0) = [1] := by decide +kernel
theorem test_pcah : inX5 (after (.pcah ⟨false, 5, 1⟩) 0 0) = [0x2000] := by decide +kernel
theorem test_div_least : pending (after (.div rr) 0x8000000000000000 0xFFFFFFFFFFFFFFFF) = [0x8000000000000000] := by decide +kernel
theorem test_rem_dividend_sign : pending (after (.rem rr) 0xFFFFFFFFFFFFFFF9 2) = [0xFFFFFFFFFFFFFFFF] := by decide +kernel
theorem test_divu_zero : pending (after (.divu rr) 7 0) = [0xFFFFFFFFFFFFFFFF] := by decide +kernel
theorem test_mulh_signed : pending (after (.mulh rr) 0xFFFFFFFFFFFFFFFF 1) = [0xFFFFFFFFFFFFFFFF] := by decide +kernel
theorem test_trap : (after (.trap false 7) 0 0).tepc = 0x1004 ∧ (after (.trap false 7) 0 0).tcause = 0x17 ∧
    (after (.trap false 7) 0 0).tval = 7 ∧ (after (.trap false 7) 0 0).pc = 0x200 ∧ (after (.trap false 7) 0 0).status = 1 := by
  decide +kernel
theorem test_underflow : (after (.add ⟨false, 5, 1, false, 3, false⟩) 0 0).tcause = 0x03 ∧
    (after (.add ⟨false, 5, 1, false, 3, false⟩) 0 0).tval = 3 := by decide +kernel
theorem test_blt_backwards : (after (.blt ⟨false, 1, false, 2, false, 0x1FFF⟩) 0xFFFFFFFFFFFFFFFF 0).pc = 0xFFC := by decide +kernel
theorem test_jal : (after (.jal ⟨false, 5, 4⟩) 0 0).pc = 0x1010 ∧ inX5 (after (.jal ⟨false, 5, 4⟩) 0 0) = [0x1004] := by decide +kernel
theorem test_sysret : ((nextOf (exec (.sysret false) (at0 id fun x => { x with status := 1, tepc := 0x3000 }))).ctx 0 .cp).pc = 0x3000 ∧
    ((nextOf (exec (.sysret false) (at0 id fun x => { x with status := 1 }))).ctx 0 .cp).status = 0 := by decide +kernel

/-! ### The premises of the statements can be met: scalar words -/

theorem witness_ShortResults : (∃ f, shortResult (.add rr) user.me!.pc (reg user) = some (both, 5, f)) ∧
    Reads user both (some 5) [0xFFFFFFFE00010, 9] ∧ NoStep user :=
  ⟨⟨_, rfl⟩, by unfold Reads NoStep; decide +kernel⟩

theorem witness_LongResults : (∃ f, longResult (.mul rr) = some (both, 5, f)) ∧
    Reads user both (some 5) [0xFFFFFFFE00010, 9] ∧ NoStep user :=
  ⟨⟨_, rfl⟩, witness_ShortResults.2⟩

/-- A word's channels are used from their right sides: it reads `rds` and pushes `d`. -/
theorem right (s : State) (rds : List Rd) (d : BitVec 5) (h : (∀ y ∈ rds, produces s.k y.r = false) ∧
    (channel s.k d = true → produces s.k d = true)) : RightSides s rds (some d) :=
  ⟨h.1, by rintro _ ⟨⟩; exact h.2⟩

/-- x3 is empty. -/
theorem witness_SourcesMissing :
    registerUse (.add ⟨false, 5, 1, false, 3, false⟩) user.me!.pc (reg user) = some ([pop 1] ++ pop 3 :: [], some 5) ∧
    user.me!.tvec ≠ 0 ∧ RightSides user [pop 1, pop 3] (some 5) ∧ channel user.k 3 = false ∧
    (reg user 3).length < need 3 [pop 1, pop 3] ∧ Supplied user [pop 1, pop 3] [pop 1] :=
  ⟨rfl, by decide +kernel, right _ _ _ (by decide +kernel), by unfold Supplied; decide +kernel⟩

/-- A multiply, a DUP and a DROP of the empty x3. -/
theorem witness_SourcesMissing_others :
    registerUse (.mul ⟨false, 5, 3, false, 2, false⟩) user.me!.pc (reg user) = some ([] ++ pop 3 :: [pop 2], some 5) ∧
    registerUse (.dup ⟨false, 3⟩) user.me!.pc (reg user) = some ([] ++ src 3 true :: [], none) ∧
    registerUse (.drop ⟨false, 3⟩) user.me!.pc (reg user) = some ([] ++ pop 3 :: [], none) ∧
    (reg user 3).length < need 3 [pop 3, pop 2] ∧ (reg user 3).length < need 3 [src 3 true] := by
  refine ⟨rfl, rfl, rfl, ?_⟩; decide +kernel

/-- x2 holds an entry that waits. -/
def pendingX2 : State := at0 id fun x => { x with regs := vset x.regs 2 [{ id := 0, val := 0, filled := false }] }

theorem witness_SourcesMissing_wait :
    registerUse (.add rr) pendingX2.me!.pc (reg pendingX2) = some ([pop 1] ++ pop 2 :: [], some 5) ∧
    pendingX2.me!.tvec ≠ 0 ∧ RightSides pendingX2 both (some 5) ∧ Supplied pendingX2 both both ∧
    ∃ e ∈ (reg pendingX2 2).take (need 2 both), e.filled = false :=
  ⟨rfl, by decide +kernel, right _ _ _ (by decide +kernel), by unfold Supplied; decide +kernel⟩

/-- CP reads the empty channel x28. -/
theorem witness_SourcesMissing_channel :
    registerUse (.add ⟨false, 5, 1, false, 28, false⟩) user.me!.pc (reg user) = some ([pop 1] ++ pop 28 :: [], some 5) ∧
    RightSides user [pop 1, pop 28] (some 5) ∧ Supplied user [pop 1, pop 28] [pop 1, pop 28] ∧ channel user.k 28 = true ∧
    (reg user 28).length < need 28 [pop 1, pop 28] :=
  ⟨rfl, right _ _ _ (by decide +kernel), by unfold Supplied; decide +kernel⟩

/-- x5 is full. -/
def fullX5 : State := at0 id fun x => { x with regs := vset x.regs 5 [ent 1, ent 2, ent 3, ent 4] }

theorem witness_DestinationFull :
    registerUse (.add rr) fullX5.me!.pc (reg fullX5) = some (both, some 5) ∧ fullX5.me!.tvec ≠ 0 ∧
    RightSides fullX5 both (some 5) ∧ channel fullX5.k 5 = false ∧ Filled fullX5 both ∧
    4 ≤ (reg fullX5 5).length - popsOf 5 both :=
  ⟨rfl, by decide +kernel, right _ _ _ (by decide +kernel), by unfold Filled; decide +kernel⟩

/-- Every channel is full. -/
def fullChans : State := at0 (fun c => { c with chans := vmap (fun _ => [ent 1, ent 2, ent 3, ent 4]) c.chans }) id

theorem witness_DestinationFull_channel :
    registerUse (.add ⟨false, 29, 1, false, 2, false⟩) fullChans.me!.pc (reg fullChans) = some (both, some 29) ∧
    RightSides fullChans both (some 29) ∧ channel fullChans.k 29 = true ∧ Supplied fullChans both both ∧
    4 ≤ (reg fullChans 29).length :=
  ⟨rfl, right _ _ _ (by decide +kernel), by unfold Supplied; decide +kernel⟩

/-- CP pushes x28, which it only reads. -/
theorem witness_DestinationFull_side :
    registerUse (.add ⟨false, 28, 1, false, 2, false⟩) user.me!.pc (reg user) = some (both, some 28) ∧
    ¬ RightSides user both (some 28) ∧ Filled user both ∧
    (∀ d, some (28#5) = some d → produces user.k d = true → (reg user d).length < 4) :=
  ⟨rfl, fun h => absurd (h.2 28 rfl (by decide +kernel)) (by decide +kernel), by unfold Filled; decide +kernel,
    by rintro _ ⟨⟩; decide +kernel⟩

theorem witness_Traps : user.me!.tvec ≠ 0 ∧ (vget user.bksh 3).getLsbD 32 = false ∧
    supervisorOnly (.sysret false) = true ∧ user.me!.status.getLsbD 0 = false := by decide +kernel

theorem witness_TrapStops : (at0 id fun x => { x with tvec := 0 }).me!.tvec = 0 ∧
    (at0 id fun x => { x with tvec := 0 }).flt.on = false := by decide +kernel

/-- MUL's major with fn 0x07, which is none. -/
theorem witness_LongResults_illegal : (user.as 0 .cp 0x04000007).me!.tvec ≠ 0 ∧
    majorOf (user.as 0 .cp 0x04000007).sched.word = 2 ∧ multiplyWord (user.as 0 .cp 0x04000007).sched.word = none := by
  decide +kernel

/-- ADDI's major. -/
theorem witness_ShortResults_read : 3 ≤ majorOf 0x06508001 ∧ majorOf 0x06508001 ≤ 10 := by decide +kernel

/-- A user context with STEP = 1. -/
def stepping : State := at0 id fun x => { x with status := 8 }

theorem witness_StepTraps : (∃ f, shortResult (.add rr) stepping.me!.pc (reg stepping) = some (both, 5, f)) ∧
    Reads stepping both (some 5) [0xFFFFFFFE00010, 9] ∧ stepping.me!.status.getLsbD 0 = false ∧
    stepping.me!.status.getLsbD 3 = true ∧ stepping.me!.tvec ≠ 0 := ⟨⟨_, rfl⟩, by unfold Reads; decide +kernel⟩

/-- A valid shadow word 3: an ADD. -/
def shadowed : State := { user with bksh := vset user.bksh 3 0x10250C400 }

theorem witness_System : sup.me!.status.getLsbD 0 = true ∧ shadowed.me!.status.getLsbD 4 = false ∧
    (vget shadowed.bksh 3).getLsbD 32 = true := by decide +kernel

def fullX1 : State := at0 id fun x => { x with regs := vset x.regs 1 [ent 1, ent 2, ent 3, ent 4] }

theorem witness_QueueWords : NoStep user ∧ wrongRead user.k user.me!.supMode (pop 1) = false ∧
    Reads user [src 1 true] none [0xFFFFFFFE00010] ∧ (reg user 1).length < 4 ∧ NoStep fullX1 ∧
    Reads fullX1 [src 1 true] none [1] ∧ 4 ≤ (reg fullX1 1).length ∧ fullX1.me!.tvec ≠ 0 ∧
    Reads user [pop 1] none [0xFFFFFFFE00010] := by unfold Reads NoStep; decide +kernel

theorem witness_Branches : (∃ c, branchTaken (.beq ⟨false, 1, false, 2, false, 4⟩) = some (⟨false, 1, false, 2, false, 4⟩, c)) ∧
    Reads user both none [0xFFFFFFFE00010, 9] ∧ NoStep user := ⟨⟨_, rfl⟩, by unfold Reads NoStep; decide +kernel⟩

theorem witness_Jumps : (∃ f, jump (.jalr ⟨false, 5, 1, false, 4⟩) user.me!.pc = some ([pop 1], some 5, f)) ∧
    Reads user [pop 1] (some 5) [0xFFFFFFFE00010] ∧ NoStep user := ⟨⟨_, rfl⟩, by unfold Reads NoStep; decide +kernel⟩

def spad : Loc := .spad 0x10

theorem witness_LoadsIssue : Reads user [src 1 false] (some 5) [0xFFFFFFFE00010] ∧ NoStep user ∧ user.me!.pend = [] ∧
    user.scalarAt (ea 0xFFFFFFFE00010 ⟨false, 5, 1, false, 2, 2, 0⟩) 4 .read true true = .ok spad ∧ user.formHeld spad = false ∧
    (user.core 0).comb = [] := by
  unfold Reads NoStep; decide +kernel

theorem witness_StoresIssue : Reads user [src 1 false, pop 2] none [0xFFFFFFFE00010, 9] ∧
    user.scalarAt (ea 0xFFFFFFFE00010 ⟨false, 2, 1, false, 2, 2, 0⟩) 4 .write true false = .ok spad ∧ user.formHeld spad = false := by
  unfold Reads; decide +kernel

theorem witness_AtomicsIssue : atomicOp (.aadd ⟨false, 5, 1, false, 2, true, 0⟩) = some (⟨false, 5, 1, false, 2, true, 0⟩, .add) ∧
    Reads user (atomicReads ⟨false, 5, 1, false, 2, true, 0⟩ .add) (some 5) [0xFFFFFFFE00010, 9] ∧
    user.scalarAt 0xFFFFFFFE00010 8 .rmw true true = .ok spad ∧ user.isOnChip spad = true ∧ user.formHeld spad = false := by unfold Reads; decide +kernel

/-- One entry of the combining buffer, over the word that x1 names. -/
def comb1 : State := at0 (fun c => { c with
  comb := [{ id := 0, loc := spad, n := 8, op := .add, v := 5, taken := 0, flush := false }], combNext := 1 }) id

theorem witness_AccessesIssue_flush : Reads comb1 [src 1 false] (some 5) [0xFFFFFFFE00010] ∧ NoStep comb1 ∧
    comb1.scalarAt (ea 0xFFFFFFFE00010 ⟨false, 5, 1, false, 2, 2, 0⟩) 4 .read true true = .ok spad ∧ ¬ Uncombined comb1 spad 4 ∧
    Reads comb1 [src 1 false, pop 2] none [0xFFFFFFFE00010, 9] ∧
    comb1.scalarAt (ea 0xFFFFFFFE00010 ⟨false, 2, 1, false, 2, 2, 0⟩) 4 .write true false = .ok spad ∧
    Reads comb1 (atomicReads ⟨false, 5, 1, false, 2, true, 0⟩ .add) (some 5) [0xFFFFFFFE00010, 9] ∧
    comb1.scalarAt 0xFFFFFFFE00010 8 .rmw true true = .ok spad ∧ ¬ Uncombined comb1 spad 8 ∧ comb1.me!.pend = [] := by
  unfold Reads NoStep Uncombined; decide +kernel

/-- 64 entries, elsewhere. -/
def comb64 : State := at0 (fun c => { c with
  comb := List.replicate 64 { id := 0, loc := .spad 0x100, n := 8, op := .add, v := 5, taken := 0, flush := false },
  combNext := 1 }) id

theorem witness_Reductions : reductionOp (.radd ⟨false, 1, 2, true, 0⟩) = some (1, 2, 8, .add) ∧
    Reads user both none [0xFFFFFFFE00010, 9] ∧ user.scalarAt 0xFFFFFFFE00010 8 .rmw true false = .ok spad ∧
    user.formHeld spad = false ∧ user.isOnChip spad = true ∧ (user.core user.p).comb.length < 64 ∧ Reads comb1 both none [0xFFFFFFFE00010, 9] ∧
    comb1.scalarAt 0xFFFFFFFE00010 8 .rmw true false = .ok spad ∧ comb1.formHeld spad = false ∧
    (comb1.core comb1.p).comb = [] ++ { id := 0, loc := spad, n := 8, op := .add, v := 5, taken := 0, flush := false } :: [] ∧
    Combines spad 8 .add { id := 0, loc := spad, n := 8, op := .add, v := 5, taken := 0, flush := false } := by
  unfold Reads Combines; decide +kernel

/-- Another operation, another width, an RFADD over the entry, and a full buffer. -/
theorem witness_Reductions_wait :
    reductionOp (.rmax ⟨false, 1, 2, true, 0⟩) = some (1, 2, 8, .max) ∧ clashes spad 8 .max ((comb1.core comb1.p).comb.getD 0 default) = true ∧
    reductionOp (.radd ⟨false, 1, 2, false, 0⟩) = some (1, 2, 4, .add) ∧ clashes spad 4 .add ((comb1.core comb1.p).comb.getD 0 default) = true ∧
    reductionOp (.rfadd ⟨false, 1, 2, 0⟩) = some (1, 2, 4, .fadd) ∧ clashes spad 4 .fadd ((comb1.core comb1.p).comb.getD 0 default) = true ∧
    (∀ e ∈ (comb1.core comb1.p).comb, ¬ Combines spad 8 .max e ∧ ¬ Combines spad 4 .add e ∧ ¬ Combines spad 4 .fadd e) ∧
    comb1.scalarAt 0xFFFFFFFE00010 4 .rmw true false = .ok spad := by
  unfold Combines; refine ⟨rfl, ?_, rfl, ?_, rfl, ?_, ?_, ?_⟩ <;> decide +kernel

theorem witness_Reductions_full : Reads comb64 both none [0xFFFFFFFE00010, 9] ∧ comb64.scalarAt 0xFFFFFFFE00010 8 .rmw true false = .ok spad ∧
    (∀ e ∈ (comb64.core comb64.p).comb, ¬ Combines spad 8 .add e ∧ clashes spad 8 .add e = false) ∧
    64 ≤ (comb64.core comb64.p).comb.length := by
  unfold Reads Combines; decide +kernel

/-- An RFADD that only another RFADD's entry stands in no way of: two entries of one word. -/
def combF : State := at0 (fun c => { c with
  comb := [{ id := 0, loc := spad, n := 4, op := .fadd, v := 5, taken := 0, flush := false }], combNext := 1 }) id

theorem witness_Reductions_rfadd : Reads combF both none [0xFFFFFFFE00010, 9] ∧
    combF.scalarAt 0xFFFFFFFE00010 4 .rmw true false = .ok spad ∧
    (∀ e ∈ (combF.core combF.p).comb, ¬ Combines spad 4 .fadd e ∧ clashes spad 4 .fadd e = false) ∧
    (combF.core combF.p).comb.length < 64 := by unfold Reads Combines; decide +kernel

/-- A fence over class 0 and a load of class 0 stand among the issued items. -/
def load0 : Pend := { id := 0, cls := 0, kind := .load 0 spad 8 false, dst := none }
def fence0 : Pend := { id := 0, cls := 0, kind := .fence 1, dst := none }
def fenced : State := at0 id fun x => { x with pend := [load0, fence0] }

theorem witness_FencedWait : Reads fenced [src 1 false] (some 5) [0xFFFFFFFE00010] ∧
    Reads fenced [src 1 false, pop 2] none [0xFFFFFFFE00010, 9] ∧
    Reads fenced (atomicReads ⟨false, 5, 1, false, 2, true, 0⟩ .add) (some 5) [0xFFFFFFFE00010, 9] ∧
    ¬ Unfenced fenced 0 false ∧ ¬ Unfenced fenced 0 true := by
  have h : ∀ w, ¬ Unfenced fenced 0 w := fun w h => absurd (show (1#16).getLsbD 0 = false from h fence0 (by decide +kernel)) (by decide)
  exact ⟨by unfold Reads; decide +kernel, by unfold Reads; decide +kernel, by unfold Reads; decide +kernel, h _, h _⟩

/-- A fused bay. -/
def fusedUser : State := user.modBay 0 fun y => { y with fused := true }

theorem witness_Fences : fenceKind (.fence false 1) fenced = some (.fence 1) ∧ NoStep fenced ∧ Settled fenced ∧
    Outstanding fenced (.fence 1) :=
  ⟨rfl, by unfold NoStep; decide +kernel, by unfold Settled; decide +kernel, ⟨load0, by decide +kernel, by decide +kernel⟩⟩

theorem acq_free (sc : Scope) (s : State) (h : s.me!.pend = []) : ¬ Outstanding s (.acq sc 1) := by
  rintro ⟨i, hi, -⟩; simp [h] at hi

theorem witness_Fences_bent : fenceKind (.acq ⟨false, .bent, 1⟩) user = some (.acq .bent 1) ∧ NoStep user ∧ Settled user ∧
    emptied user (.acq .bent 1) user.p := by
  refine ⟨rfl, by unfold NoStep; decide +kernel, by unfold Settled; decide +kernel,
    ⟨_, _, rfl, by decide⟩, acq_free _ _ (by decide +kernel), ?_⟩
  rw [if_neg (by decide +kernel)]

theorem witness_Fences_fused : fenceKind (.acq ⟨false, .bay, 1⟩) fusedUser = some (.acq .bay 1) ∧ NoStep fusedUser ∧
    Settled fusedUser ∧ emptied fusedUser (.acq .bay 1) 3 := by
  refine ⟨rfl, by unfold NoStep; decide +kernel, by unfold Settled; decide +kernel,
    ⟨_, _, rfl, by decide⟩, acq_free _ _ (by decide +kernel), ?_⟩
  rw [if_pos (by decide +kernel)]; decide +kernel

theorem witness_Fences_release : fenceKind (.rel ⟨false, .bay, 1⟩) comb1 = some (.rel .bay 1 1) ∧ NoStep comb1 ∧ Settled comb1 ∧
    Outstanding comb1 (.rel .bay 1 1) :=
  ⟨by decide +kernel, by unfold NoStep; decide +kernel, by unfold Settled; decide +kernel,
    .inr ⟨{ id := 0, loc := spad, n := 8, op := .add, v := 5, taken := 0, flush := false }, by decide +kernel, rfl⟩⟩

theorem witness_WaitWords : (∃ c, waitCond (.waitge rr) = some (rr, c)) ∧ Reads user both (some 5) [0xFFFFFFFE00010, 9] ∧
    NoStep user ∧ user.scalarAt 0xFFFFFFFE00010 8 .read true true = .ok spad ∧ user.isOnChip spad = true ∧
    user.formHeld spad = false ∧ user.me!.wait = none ∧ ¬ (9 ≤ (wordAt user spad).toNat) ∧ (user.core user.p).mon = [] :=
  ⟨⟨_, rfl⟩, by unfold Reads NoStep; decide +kernel⟩

/-- A wait on the word that x1 names, that a MONCLR has ended. -/
def wait1 : Wait :=
  { loc := spad, seen := 3, monitored := true, nextPoll := 0, ready := false, ended := true, op := rr, word := 0 }
def waiting : State := at0 id fun x => { x with wait := some wait1 }

/-- LD sleeps on the same word, with the same operands, x5 free or full. -/
def ldSleeps (x5 : Queue) : State := at0 (fun c => c.setCtx .ld { cpOf (c.getCtx .ld) with
  regs := vset (cpOf (c.getCtx .ld)).regs 5 x5, wait := some { wait1 with ended := false } }) id
def sleeper : State := ldSleeps []
def sleeperFull : State := ldSleeps [ent 1, ent 2, ent 3, ent 4]

theorem witness_WaitsEnded : Reads user [src 1 false] none [0xFFFFFFFE00010] ∧ NoStep user ∧
    user.scalarAt 0xFFFFFFFE00010 8 .read false true = .ok spad ∧ user.isOnChip spad = true ∧ user.formHeld spad = false ∧
    (∀ k w, ¬ WaitsOn user spad k w) ∧
    Reads waiting both (some 5) [0xFFFFFFFE00010, 9] ∧ NoStep waiting ∧ waiting.me!.wait = some wait1 ∧ wait1.ended = true := by
  have h : ∀ k, (user.ctx user.p k).wait = none := fun k => by cases k <;> decide +kernel
  exact ⟨by unfold Reads; decide +kernel, by unfold NoStep; decide +kernel, by decide +kernel, by decide +kernel, by decide +kernel,
    fun k w x => Option.some_ne_none _ (x.2.1.symm.trans (h k)), by unfold Reads; decide +kernel, by unfold NoStep; decide +kernel, by decide +kernel, rfl⟩

theorem witness_WaitsEnded_other : Reads sleeper [src 1 false] none [0xFFFFFFFE00010] ∧
    sleeper.scalarAt 0xFFFFFFFE00010 8 .read false true = .ok spad ∧
    WaitsOn sleeper spad .ld { wait1 with ended := false } ∧
    Reads (onCtx (popped sleeper [src 1 false]) .ld) (waitReads wait1) (some 5) [0xFFFFFFFE00010, 9] ∧
    NoStep (onCtx (popped sleeper [src 1 false]) .ld) ∧ (sleeper.ctx sleeper.p .st).wait = none := by
  unfold Reads NoStep WaitsOn; decide +kernel

/-- Its destination is full. -/
theorem witness_WaitsEnded_full : WaitsOn sleeperFull spad .ld { wait1 with ended := false } ∧
    4 ≤ (reg (onCtx (popped sleeperFull [src 1 false]) .ld) 5).length - popsOf 5 (waitReads wait1) := by
  unfold WaitsOn; decide +kernel

/-- A monitor entry of CP on the word; then, with a write noted, and without. -/
def monitored (noted : Bool) : State :=
  { at0 (fun c => { c with mon := [{ loc := spad, ctx := .cp }] }) fun x => { x with wait := some { wait1 with ended := false } } with
    marks := { woken := if noted then [(0, .cp)] else [], bad := [], met := [] } }

theorem witness_WaitsWoken : ({ loc := spad, ctx := .cp } : Mon) ∈ ((monitored false).core 0).mon ∧
    spad.overlap 8 spad [0#8].length = true ∧
    ((monitored true).ctx 0 .cp).wait = some { wait1 with ended := false } ∧ wait1.monitored = true ∧
    (0, .cp) ∈ (monitored true).marks.woken ∧ (0, .cp) ∉ (monitored false).marks.woken := by decide +kernel

/-- The wait has no monitor entry and its poll is due; or not yet. -/
theorem witness_WaitsWoken_poll : wait1.nextPoll ≤ waiting.nanos ∧ waiting.stalled 0 = false ∧
    waiting.nanos < { wait1 with nextPoll := 1 : Wait }.nextPoll := by decide +kernel

theorem witness_ControlRegisters : NoStep sup ∧ sup.me!.status.getLsbD 0 = true ∧ csrValue sup 1 = some 0x200 ∧
    Reads sup [] (some 5) [] ∧ (∃ f, csrWrites (.csrs ⟨false, 5, 1, false, 1⟩) = some (⟨false, 5, 1, false, 1⟩, f)) ∧
    Reads sup [src 1 false] (some 5) [0xFFFFFFFE00010] ∧ csrValue sup 0 = some 1 ∧ csrValue sup 3 = some 0 := by
  refine ⟨?_, ?_, ?_, ?_, ⟨_, rfl⟩, ?_⟩ <;>
    first | decide +kernel | (unfold NoStep; decide +kernel) | (unfold Reads; decide +kernel)

/-- The user's numbers: RNGSEED, L1CFG of a bay that is not fused, MONSTAT, XRES. -/
theorem witness_ControlRegisters_user : NoStep user ∧ user.me!.status.getLsbD 0 = false ∧ user.me!.tvec ≠ 0 ∧
    userCsr 0xA0 ∧ csrValue user 0xA0 = some 0 ∧ userCsr 0xA1 ∧ csrValue user 0xA1 = some 0 ∧
    (user.bay (bayOf user.p)).fused = false ∧ userCsr 0xA2 ∧ csrValue user 0xA2 = some 0 ∧ userCsr 7 ∧ csrValue user 7 = some 0 ∧
    Reads user [src 1 false] (some 5) [0xFFFFFFFE00010] ∧ ¬ userCsr 1 ∧ ¬ (0xC0 ≤ 1 ∧ 1 ≤ 0xFF) := by
  refine ⟨?_, ?_, ?_, ?_, ?_, ?_, ?_, ?_, ?_, ?_, ?_, ?_, ?_, ?_, ?_⟩ <;>
    first | decide +kernel | (unfold NoStep; decide +kernel) | (unfold userCsr; decide) | (unfold Reads; decide +kernel)

/-- x1 holds the header of a CNOP. -/
def cnopX1 : State := at0 id fun x => { x with regs := vset x.regs 1 [ent 0xE0000000] }
/-- x1 holds no header. -/
def badX1 : State := at0 id fun x => { x with regs := vset x.regs 1 [ent 0] }

theorem witness_EnginePush : Reads cnopX1 (pushReads ⟨false, .s, 1, false, 2, false⟩ 0) none [0xE0000000] ∧
    Reads cnopX1 [src 1 false] none [0xE0000000] ∧
    headerCheck ((0xE0000000#64).setWidth 32) { ep := .s, x := false } = none ∧ cnopX1.me!.pend = [] ∧
    (cnopX1.eng cnopX1.p .s).q = [] ∧ Reads badX1 [src 1 false] none [0] ∧
    headerCheck ((0#64).setWidth 32) { ep := .s, x := false } = some 0x0D ∧ badX1.me!.tvec ≠ 0 := by
  unfold Reads; decide +kernel

theorem witness_ChainWords : Reads user [src 1 false] none [0xFFFFFFFE00010] ∧ (user.eng user.p .l).chain.ticket = none ∧
    (user.eng user.p .l).chain.start = none ∧ (user.eng user.p .l).chain.fetch = (user.eng user.p .l).chain.tail ∧
    user.me!.pend = [] ∧ Reads user [] (some 5) [] ∧ (user.eng user.p .m).q = [] := by unfold Reads; decide +kernel

/-- An MNEST stands in the M queue. -/
def nestQueued : State := at0 (fun c => c.modEng .m fun g => { g with
  q := [{ words := [0x44000000#32, 0], pc := 0, chain := false, blk := 0, dup := false, ticket := none }] }) id

theorem witness_ChainWords_nest : nestQueued.me!.mcfg = none ∧ ∃ q ∈ (nestQueued.eng nestQueued.p .m).q, opcOf q.words = 0x11 := by
  decide +kernel

/-! ### The premises of the statements can be met: performing, caches, tasks -/

/-- An instruction whose address translates as the page-table root 0 leaves it, in the scratchpad; one at an address with no
page, and a store still to perform. -/
theorem witness_CacheWords_fail : sup.translate sup.p 0x1000 .read sup.user = .error (.page 1) ∧
    (XErr.page 1) ≠ .held ∧ Reads sup [src 2 false] none [9] ∧
    ¬ StoresDone (at0 id fun x => { x with pend := [⟨1, 0, .store 0 (.spad 0x80) 8 9, none, {}⟩] }) := by
  refine ⟨by decide +kernel, by decide, by unfold Reads; decide +kernel, fun h => ?_⟩
  exact absurd rfl (h ⟨1, 0, .store 0 (.spad 0x80) 8 9, none, {}⟩ (by decide +kernel) _ _)

/-- An instruction whose address translates as the page-table root 0 leaves it, in the scratchpad. -/
theorem witness_CacheWords : NoStep sup ∧ Reads sup [src 1 false] none [0xFFFFFFFE00010] ∧ StoresDone sup ∧
    sup.me!.status.getLsbD 0 = true ∧ sup.translate sup.p 0xFFFFFFFE00010 .locate sup.user = .ok spad ∧
    sup.formHeld spad = false ∧ sup.me!.tvec ≠ 0 ∧ ¬ 2 ^ 52 ≤ (0xFFFFFFFE00010#64).toNat := by
  refine ⟨?_, ?_, ?_, ?_, ?_⟩
  · unfold NoStep; decide +kernel
  · unfold Reads; decide +kernel
  · have e : sup.me!.pend = [] := by decide +kernel
    intro i h
    rw [e] at h
    exact absurd h (List.not_mem_nil)
  · decide +kernel
  · decide +kernel

/-- The first issued item is a value for x5, the second a load, the third an atomic, the fourth a store. -/
def issued : State := at0 (fun c => { c with comb := [⟨0, spad, 8, .add, 5, 0, true⟩, ⟨1, spad, 8, .add, 5, 0, false⟩], combNext := 2 })
  fun x => { x with
    regs := vset x.regs 5 [{ id := 1, val := 0, filled := false }],
    pend := [{ id := 1, cls := 0, kind := .value 7, dst := some (5, false) },
             { id := 2, cls := 0, kind := .load 0 (.phys 0x1000) 8 false, dst := some (6, false) },
             { id := 3, cls := 1, kind := .atomic spad 8 .add 1 0, dst := some (7, false) },
             { id := 4, cls := 2, kind := .store 0 (.spad 0x80) 8 9, dst := none },
             { id := 5, cls := 2, kind := .fence 4, dst := none },
             { id := 6, cls := 2, kind := .store 0 (.spad 0x80) 8 9, dst := none }] }

theorem witness_EntriesFilled : (issued.ctx 0 .cp).pend[0]? = some ⟨1, 0, .value 7, some (5, false), {}⟩ ∧
    issued.stalled 0 = false ∧ (∀ i ∈ (issued.ctx 0 .cp).pend, issued.itemHeld i = false) ∧ mayPerform (issued.ctx 0 .cp).pend ⟨1, 0, .value 7, some (5, false), {}⟩ = true ∧
    (issued.ctx 0 .cp).pend[1]? = some ⟨2, 0, .load 0 (.phys 0x1000) 8 false, some (6, false), {}⟩ ∧
    mayPerform (issued.ctx 0 .cp).pend ⟨2, 0, .load 0 (.phys 0x1000) 8 false, some (6, false), {}⟩ = true ∧
    issued.gone (.phys 0x1000) = false ∧ issued.ctlOff (.phys 0x1000) = none ∧ PlainAt issued (.phys 0x1000) 8 ∧
    (issued.ctx 0 .cp).pend[2]? = some ⟨3, 1, .atomic spad 8 .add 1 0, some (7, false), {}⟩ ∧
    mayPerform (issued.ctx 0 .cp).pend ⟨3, 1, .atomic spad 8 .add 1 0, some (7, false), {}⟩ = true ∧
    AtHome issued spad ∧ PlainAt issued spad 8 ∧ Canonical issued := by
  unfold AtHome PlainAt Canonical; decide +kernel

/-- The bank grants CP; with an access of LD, or a read of the VE, pending at the bank it does not. -/
def contended : State := issued.modCore 0 fun c => c.setCtx .ld { c.getCtx .ld with pend := [⟨1, 0, .load 0 (.spad 0x18) 8 false, none, {}⟩] }
def veReads : State := issued.modVe 0 fun v => { v with oq := vset v.oq 0 [{ (default : OqEntry) with loc := .spad 0x40, val := none }] }

theorem witness_Granted : Granted issued 0 (seat .cp) (.spad 0x10) ∧ ¬ Granted contended 0 (seat .cp) (.spad 0x10) ∧
    ¬ Granted veReads 0 (seat .cp) (.spad 0x10) ∧ accessAt ⟨3, 1, .atomic spad 8 .add 1 0, some (7, false), {}⟩ = some (spad, true, true) := by
  unfold Granted; dsimp only; decide +kernel

/-- A core in a freeze. -/
theorem witness_EntriesFilled_frozen : (issued.modCore 0 fun c => { c with eccUntil := some 9 }).stalled 0 = true := by decide +kernel

theorem witness_StoresPerform : (issued.ctx 0 .cp).pend[3]? = some ⟨4, 2, .store 0 (.spad 0x80) 8 9, none, {}⟩ ∧
    mayPerform (issued.ctx 0 .cp).pend ⟨4, 2, .store 0 (.spad 0x80) 8 9, none, {}⟩ = true ∧ AtHome issued (.spad 0x80) ∧
    PlainAt issued (.spad 0x80) 8 ∧
    (issued.ctx 0 .cp).pend[5]? = some ⟨6, 2, .store 0 (.spad 0x80) 8 9, none, {}⟩ ∧
    mayPerform (issued.ctx 0 .cp).pend ⟨6, 2, .store 0 (.spad 0x80) 8 9, none, {}⟩ = false := by
  unfold AtHome PlainAt; decide +kernel

theorem witness_CombiningFlushes : (issued.core 0).comb[0]? = some ⟨0, spad, 8, .add, 5, 0, true⟩ ∧
    issued.gone spad = false ∧ issued.formHeld spad = false ∧ PlainAt issued spad 8 ∧ Canonical issued ∧
    (issued.core 0).comb[1]? = some ⟨1, spad, 8, .add, 5, 0, false⟩ ∧ issued.cycle < 0 + 1024 := by
  unfold PlainAt Canonical; decide +kernel

/-- A group without queues that hands out 4 tasks, and its gang of one core. -/
def grp0 : Group := { (default : Group) with tasks := 4, next := 1, ins := [], outs := [], back := [] }
def gang0 : Gang := { (default : Gang) with id := 1, groups := [grp0], cores := [0], n := 1 }
def place0 : Place := { (default : Place) with gang := 1, group := 0 }
def pkt0 : Packet := { (default : Packet) with gang := 1, target := 0xFFFFFFFE00000 }

/-- Core 0 in that gang. -/
def ganged (g : Core → Core) (f : Context → Context) : State :=
  (at0 (fun c => g { c with place := some place0 }) f).modLaunch fun l => { l with gangs := [gang0] }

def idle0 : State := ganged id id
def packed : State := ganged (fun c => { c with gate := { c.gate with spawnq := [pkt0] } }) id
def moving : State := ganged (fun c => { c with move := some default }) id
/-- The group's tasks are all handed out and none is out. -/
def spent : State := idle0.modLaunch fun l => { l with gangs := [{ gang0 with groups := [{ grp0 with next := 4 }] }] }

theorem member_of (s : State) (g : Gang) (grp : Group) (h : s.gangOf s.p = some g) (e : (s.core s.p).place = some place0)
    (k : g.groups[0]? = some grp) : Member s g grp 0 := ⟨h, ⟨place0, e, rfl⟩, k⟩

theorem witness_TasksDelivered : NoStep idle0 ∧ idle0.k = .cp ∧ (idle0.core 0).gate.cur = none ∧ Reads idle0 [] (some 5) [] ∧
    Member idle0 gang0 grp0 0 ∧ idle0.traceOn 1 (some 0) = false ∧ (idle0.core 0).move = none ∧
    (idle0.core 0).gate.spawnq = [] ∧ grp0.next < grp0.tasks.toNat ∧ (packed.core 0).gate.spawnq = pkt0 :: [] ∧
    (moving.core 0).move ≠ none ∧ (idle0.takeTask 0 gang0 0).isSome = true := by
  refine ⟨?_, ?_, ?_, ?_, member_of _ _ _ ?_ ?_ ?_, ?_⟩ <;>
    first | decide +kernel | (unfold NoStep; decide +kernel) | (unfold Reads; decide +kernel)

/-- A session that traces tiles of every queue. -/
def tracing (s : State) : State := { s with trace := { s.trace with size := 1024, ctl := 3, qmask := BitVec.allOnes 64 } }
def stamp0 : Stamp := { (default : Stamp) with s0 := 5 }

theorem witness_TilesTraced : (∀ s ∈ [tracing idle0, tracing packed], NoStep s ∧ s.k = .cp ∧ s.traceOn 1 (some s.p) = true ∧
      (s.core s.p).gate.cur = none ∧ (s.core s.p).move = none ∧ Reads s [] (some 5) []) ∧
    Member (tracing idle0) gang0 grp0 0 ∧ ((tracing packed).core 0).gate.spawnq = pkt0 :: [] ∧ grp0.next < grp0.tasks.toNat ∧
    (∀ f ∈ [some (Task.packet pkt0), some (.stage 0 [] [])], ∀ s ∈ [tracing (ganged (fun c => { c with gate := { c.gate with
        cur := f, stamp := some stamp0 } }) id)],
      s.released s.p s.k = true ∧ (s.core s.p).place = some place0 ∧ (s.core s.p).gate.cur = f ∧
      (s.core s.p).gate.stamp = some stamp0 ∧ (s.bent (bentOf s.p)).trace.length < 31) := by
  refine ⟨?_, member_of _ _ _ ?_ ?_ ?_, ?_, ?_, ?_⟩ <;>
    first | decide +kernel | (unfold NoStep Reads; decide +kernel)

/-- Queue 0 holds position 3 in its slot 1; queue 1 is empty. -/
def sq0 : StageQ := { (default : StageQ) with desc := 0, size := 64, slots := [.free, .full 3], nextClaim := 3, nextRes := 4 }
def sq1 : StageQ := { (default : StageQ) with desc := 64, size := 64, slots := [.free, .free] }
def in0 : Claim := { desc := 0, slot := 1, pos := 3 }
def out1 : Claim := { desc := 64, slot := 0, pos := 0 }
def grpQ : Group := { grp0 with ins := [0], outs := [1] }
/-- Core 0 in a group that takes from queue 0 and gives to queue 1. -/
def staged (qs : List StageQ) (x : Option Task) : State :=
  (at0 (fun c => { c with place := some place0, sqt := qs, gate := { c.gate with cur := x } }) id).modLaunch fun l =>
    { l with gangs := [{ gang0 with groups := [grpQ] }] }

theorem witness_TasksDelivered_stage : ((staged [sq0, sq1] none).core 0).gate.spawnq = [] ∧
    [in0].map (·.desc) = grpQ.ins.map ({ gang0 with groups := [grpQ] } : Gang).descAt ∧
    [out1].map (·.desc) = grpQ.outs.map ({ gang0 with groups := [grpQ] } : Gang).descAt ∧
    CanClaim (staged [sq0, sq1] none) in0 ∧ CanReserve (staged [sq0, sq1] none) out1 := by
  refine ⟨?_, ?_, ?_, ⟨sq0, ?_⟩, ⟨sq1, ?_⟩⟩ <;> decide +kernel

theorem witness_TasksDelivered_end : (spent.core 0).gate.spawnq = [] ∧
    spent.takeTask 0 { gang0 with groups := [{ grp0 with next := 4 }] } 0 = none ∧
    spent.finished { gang0 with groups := [{ grp0 with next := 4 }] } 0 = true ∧ spent.outstanding 1 = false := by
  decide +kernel

def tasked (x : Task) : State := ganged (fun c => { c with gate := { c.gate with cur := some x } }) id
def ended : State := ganged (fun c => { c with gate := { c.gate with ended := true } }) fun x => { x with pc := 0 }
def storing (x : Task) : State := ganged (fun c => { c with gate := { c.gate with cur := some x } }) fun x => { x with
  pend := [⟨1, 0, .store 0 spad 8 9, none, {}⟩] }

/-- A task with slot 1 of queue 0 claimed and slot 0 of queue 1 reserved. -/
def claiming : State := staged [{ sq0 with slots := [.free, .claimed 3] }, { sq1 with slots := [.reserved 0, .free] }]
  (some (.stage 1 [in0] [out1]))

theorem witness_TasksEnd_stage : NoStep claiming ∧ claiming.k = .cp ∧ ReleasesDone claiming ∧
    (claiming.core 0).gate.cur = some (.stage 1 [in0] [out1]) ∧ (claiming.core 0).gate.stamp = none ∧
    taskQuiet claiming 0 (.stage 1 [in0] [out1]) = true ∧
    (claiming.findQ 0 in0.desc).isSome = true ∧ (claiming.findQ 0 out1.desc).isSome = true := by
  unfold NoStep ReleasesDone; decide +kernel

/-- A copy that still reads the slot, which lies in the scratchpad at 64. -/
def busySlot : State := (staged [{ sq0 with slotVa := 0xFFFFFFFE00000, slots := [.free, .claimed 3] }, sq1] (some (.stage 1 [in0] []))).modCore 0
  fun c => { c with flights := [{ (default : Flight) with ep := .s, words := [67141632, 0xFFE00048, 0xFFFFF, 0x1000, 0, 0, 0, 0, 8] }] }

theorem witness_TasksEnd_waits : (busySlot.core 0).gate.cur = some (.stage 1 [in0] []) ∧ ReleasesDone busySlot ∧
    taskQuiet busySlot 0 (.stage 1 [in0] []) = false := by unfold ReleasesDone; decide +kernel

/-- TNEXT with a task current; each of the three in ST. -/
theorem witness_TasksEnd_illegal : (claiming.core claiming.p).gate.cur ≠ none ∧ produces claiming.k 5 = false ∧ claiming.me!.tvec ≠ 0 ∧
    ((at0 id id).modSched fun x => { x with ctx := .st }).k ≠ .cp := by decide +kernel

theorem witness_TasksEnd : (idle0.core 0).gate.cur = none ∧ (idle0.core 0).gate.ended = false ∧
    ((tasked (.packet pkt0)).core 0).gate.cur = some (.packet pkt0) ∧ ReleasesDone (tasked (.packet pkt0)) ∧
    taskQuiet (tasked (.packet pkt0)) 0 (.packet pkt0) = true ∧ ((tasked (.packet pkt0)).core 0).gate.stamp = none ∧
    ((tasked (.packet pkt0)).core 0).gate.spawnq.length < 32 ∧
    ((tasked (.stage 0 [] [])).core 0).gate.cur = some (.stage 0 [] []) ∧
    ((tasked (.stage 0 [] [])).core 0).place = some place0 ∧ ReleasesDone (tasked (.stage 0 [] [])) ∧
    ¬ ReleasesDone (storing (.packet pkt0)) ∧ (ended.core 0).gate.ended = true ∧ ReleasesDone ended ∧
    (ended.core 0).idle = true ∧ ended.gangOf 0 = some gang0 ∧
    (at0 id id).k = .cp ∧ ((at0 id id).modSched fun x => { x with ctx := .st }).k ≠ .cp := by
  unfold ReleasesDone; decide +kernel

/-- A third entry for SPAWN, the first an address with no page, in no space of R52's table, or in device memory. -/
def spawns (a : Word) : State := ganged id fun x => { x with regs := vset (vset x.regs 2 [ent 5, ent 6]) 1 [ent a] }
def spawning : State := spawns 0xFFFFFFFE00010
def lost : State := spawns 0x60000000000000

/-- The core's spawn queue is full, and so is its dispatcher. -/
def dispatching : State := (spawning.modCore 0 fun c => { c with gate := { c.gate with spawnq := List.replicate 32 pkt0 } }).modBent 0
  fun b => { b with held := List.replicate 256 { (default : Held) with core := 1 } }

theorem witness_Spawns : NoStep spawning ∧ Reads spawning [src 1 false, src 2 false, src 2 false] none [0xFFFFFFFE00010, 5, 6] ∧
    spawning.translate spawning.p 0xFFFFFFFE00010 .locate spawning.user = .ok spad ∧ spawning.gangOf spawning.p = some gang0 ∧
    Receives spawning gang0 spad spawning.p ∧ ReleasesDone spawning ∧ SpawnRoom spawning 0 ∧ ¬ WayFull spawning gang0 spad 0 := by
  refine ⟨by unfold NoStep; decide +kernel, by unfold Reads; decide +kernel, by decide +kernel, by decide +kernel, rfl,
    by unfold ReleasesDone; decide +kernel, by unfold SpawnRoom; decide +kernel, ?_⟩
  rintro (⟨b, h, -⟩ | ⟨-, h⟩)
  · exact h
  · exact absurd h (by decide +kernel)

theorem witness_Spawns_full : Receives dispatching gang0 spad dispatching.p ∧ ¬ SpawnRoom dispatching 0 ∧
    WayFull dispatching gang0 spad 0 ∧ ReleasesDone dispatching :=
  have h : ¬ SpawnRoom dispatching 0 := by unfold SpawnRoom; decide +kernel
  ⟨rfl, h, .inr ⟨.inr h, by decide +kernel⟩, by unfold ReleasesDone; decide +kernel⟩

theorem witness_Spawns_trap : (spawns 0x1000).translate (spawns 0x1000).p 0x1000 .locate (spawns 0x1000).user = .error (.page 1) ∧
    (spawns 0x1000).me!.tvec ≠ 0 ∧ lost.translate lost.p 0x60000000000000 .locate lost.user = .error .access ∧
    Reads (spawns 0x1000) [src 1 false, src 2 false, src 2 false] none [0x1000, 5, 6] ∧
    Reads lost [src 1 false, src 2 false, src 2 false] none [0x60000000000000, 5, 6] := by unfold Reads; decide +kernel

/-- A store still to perform. -/
theorem witness_Spawns_wait : ¬ ReleasesDone (ganged id fun x => { x with
    pend := [⟨1, 0, .store 0 spad 8 9, none, {}⟩], regs := vset x.regs 2 [ent 5, ent 6] }) := by unfold ReleasesDone; decide +kernel

/-- A place in the control-register space is none of R52's. -/
theorem witness_Spawns_none : NoReceiver spawning (.phys 0x60000000000000) := by
  unfold NoReceiver
  have e : spawning.space 0x60000000000000 = .ctl 0 := by decide +kernel
  simp [e]

/-- A running core of the bent of an understore line, in whose column it lies. -/
theorem witness_Spawns_column : Running spawning gang0 0 ∧ column 0 0x40 = 0 := ⟨⟨⟨by decide +kernel, place0, by decide +kernel, rfl⟩,
  by decide +kernel, by decide +kernel, by decide +kernel⟩, by decide +kernel⟩

/-! ### The premises of the statements can be met: commands -/

/-- Address a of the first GiB is device-memory byte a, the next understore 0, the third the control registers. -/
def paged (s : State) : State :=
  { s with
    mem := [(0, 0x01), (1, 0x10), (0x1000, 0x7B), (0x1007, 0x08), (0x1008, 0x7B), (0x100E, 0x40), (0x100F, 0x08),
            (0x1010, 0x7B), (0x1016, 0x60), (0x1017, 0x08), (0x1018, 0x7B), (0x101E, 0x80), (0x101F, 0x08)],
    trans := { s.trans with root := 1 }, ready := { s.ready with rdy := 0x10000, und := 1 } }

def pairs : List W32 → List Word
  | a :: b :: t => ((b ++ a : BitVec 64)) :: pairs t
  | [a] => [a.setWidth 64]
  | [] => []

def hd : Hdr := { wait := 0, sige := false, sigt := 0, cls := 3, hinti := 0 }

/-- x1 and x2 hold a command's words. -/
def crossing (i : Instr) : State := paged (at0 id fun x => { x with
  regs := vset (vset x.regs 1 ((pairs (encode i)).take 1 |>.map ent)) 2 ((pairs (encode i)).drop 1 |>.map ent) })

def push : Push := ⟨false, .s, 1, false, 2, false⟩
def entries (i : Instr) : List Word := pairs (encode i)

def cs : Instr := .csig hd 0x2008 5
def cw : Instr := .cwait hd 0x2008 0
def cw9 : Instr := .cwait hd 0x2008 9
def cq : Instr := .cseq hd 0x2008 7
def qi : Instr := .qstat hd 0x2040 0x3000

theorem crosses_of (i : Instr) (c : Hdr) (h : Reads (crossing i) [src 1 false] none [arg (entries i) 0])
    (b : Reads (crossing i) (pushReads push (H.xwc ((arg (entries i) 0).setWidth 32))) none (entries i))
    (n : H.xwc ((arg (entries i) 0).setWidth 32) ≤ 9)
    (k : headerCheck ((arg (entries i) 0).setWidth 32) { ep := push.e, x := true } = none)
    (f : c = H.hdr ((arg (entries i) 0).setWidth 32))
    (w : decodeCmd (pushedWords (entries i) (H.xwc ((arg (entries i) 0).setWidth 32))) = some i) :
    Crosses (crossing i) push (entries i) i c := ⟨h, b, n, fun x => absurd x (by decide), k, f, w⟩

theorem clear_of (i : Instr) (c : Hdr) (h : c.sige = false) (k : (crossing i).me!.pend = []) : Clear (crossing i) push c :=
  ⟨fun x m => absurd (k ▸ m) (List.not_mem_nil), fun x m => absurd (k ▸ m) (List.not_mem_nil),
   fun x => absurd (h ▸ x) (by decide)⟩

theorem crosses (i : Instr) (h : i = cs ∨ i = cw ∨ i = cw9 ∨ i = cq ∨ i = qi) :
    NoStep (crossing i) ∧ Crosses (crossing i) push (entries i) i hd ∧ Clear (crossing i) push hd ∧
      TokensThere (crossing i) 0 push.e hd.wait := by
  rcases h with h | h | h | h | h <;> subst h <;>
    exact ⟨by unfold NoStep; decide +kernel, crosses_of _ _ (by unfold Reads; decide +kernel) (by unfold Reads; decide +kernel)
      (by decide +kernel) (by decide +kernel) (by decide +kernel) (by decide +kernel), clear_of _ _ (by decide +kernel) (by decide +kernel), fun x m => absurd m (List.not_mem_nil)⟩

theorem witness_CommandsCrossing : NoStep (crossing cs) ∧ Crosses (crossing cs) push (entries cs) cs hd ∧
    Clear (crossing cs) push hd ∧ TokensThere (crossing cs) 0 push.e hd.wait ∧ (crossing cs).formHeld (.phys 0x2008) = false ∧
    (crossing cs).engAt 0 0x2008 8 .rmw = .ok (.phys 0x2008) ∧
    (crossing cs).isDevUnder (.phys 0x2008) = true ∧ PlainAt (crossing cs) (.phys 0x2008) 8 ∧ Canonical (crossing cs) := by
  have h := crosses cs (by simp)
  refine ⟨h.1, h.2.1, h.2.2.1, h.2.2.2, ?_⟩
  unfold PlainAt Canonical; decide +kernel

theorem witness_CommandsCrossing_waits :
    Crosses (crossing cw) push (entries cw) cw hd ∧ Clear (crossing cw) push hd ∧
    (crossing cw).engAt 0 0x2008 8 .read = .ok (.phys 0x2008) ∧ (0 : Word).toNat ≤ (crossing cw).readLoc 0 (.phys 0x2008) 8 ∧
    Crosses (crossing cw9) push (entries cw9) cw9 hd ∧ Clear (crossing cw9) push hd ∧
    (crossing cw9).engAt 0 0x2008 8 .read = .ok (.phys 0x2008) ∧ (crossing cw9).isDevUnder (.phys 0x2008) = true ∧
    (crossing cw9).readLoc 0 (.phys 0x2008) 8 < (9 : Word).toNat := by
  have h := crosses cw (by simp)
  have k := crosses cw9 (by simp)
  exact ⟨h.2.1, h.2.2.1, by decide +kernel, by decide +kernel, k.2.1, k.2.2.1, by decide +kernel⟩

theorem witness_CommandsCrossing_stores :
    Crosses (crossing cq) push (entries cq) cq hd ∧ Clear (crossing cq) push hd ∧
    (crossing cq).engAt 0 0x2008 8 .write = .ok (.phys 0x2008) ∧ (crossing cq).seqAt (.phys 0x2008) = true ∧
    PlainAt (crossing cq) (.phys 0x2008) 8 := by
  have h := crosses cq (by simp)
  refine ⟨h.2.1, h.2.2.1, ?_⟩
  unfold PlainAt; decide +kernel

theorem addrs_one (s : State) (p : CoreId) (r : AddrReq) (l : Loc) (h : s.engAt p r.va r.n r.acc = .ok l)
    (k : r.ok s l = true) : s.addrs p [r] = .ok [l] := by simp [State.addrs, h, k]

theorem addrs_two (s : State) (p : CoreId) (r x : AddrReq) (l m : Loc) (h : s.engAt p r.va r.n r.acc = .ok l)
    (k : r.ok s l = true) (g : s.engAt p x.va x.n x.acc = .ok m) (j : x.ok s m = true) :
    s.addrs p [r, x] = .ok [l, m] := by simp [State.addrs, h, k, g, j]

/-- A stage queue of two slots at 0x8000 whose descriptor is at 0x2040. -/
def stq : StageQ :=
  { (default : StageQ) with
    desc := 0x2040, base := .phys 0x8000, slotVa := 0x8000, size := 1024, cbase := .phys 0xA000, quota := 2,
    slots := [.free, .free] }
def queued (s : State) : State := s.modCore 0 fun c => { c with sqt := [stq] }

theorem witness_CommandsCrossing_queues :
    NoStep (queued (crossing qi)) ∧ Crosses (queued (crossing qi)) push (entries qi) qi hd ∧
    Clear (queued (crossing qi)) push hd ∧ queueOp qi = some (.stat, 0x2040, 0x3000) ∧
    (queued (crossing qi)).addrs 0 (queueReqs .stat 0x2040 0x3000) = .ok [.phys 0x2040, .phys 0x3000] ∧
    crossCheck (queued (crossing qi)) qi [.phys 0x2040, .phys 0x3000] = none ∧ crossReqs qi ≠ [] ∧
    (∀ x ∈ [Loc.phys 0x2040, .phys 0x3000], (queued (crossing qi)).formHeld x = false) ∧
    (queued (crossing qi)).qSpent 0 .stat (0x2040 &&& ~~~63) = false ∧
    (queued (crossing qi)).qReady 0 .stat (0x2040 &&& ~~~63) = true ∧ QOp.stat.releases = false := by
  refine ⟨by unfold NoStep; decide +kernel, ⟨?_, ?_, ?_, ?_, ?_, ?_, ?_⟩,
    ⟨fun x m => ?_, fun x m => ?_, fun x => absurd x (by decide)⟩, ?_⟩
  · unfold Reads; decide +kernel
  · unfold Reads; decide +kernel
  · decide +kernel
  · exact fun x => absurd x (by decide)
  · decide +kernel
  · decide +kernel
  · decide +kernel
  · rw [show (queued (crossing qi)).me!.pend = [] by decide +kernel] at m; exact absurd m (List.not_mem_nil)
  · rw [show (queued (crossing qi)).me!.pend = [] by decide +kernel] at m; exact absurd m (List.not_mem_nil)
  · exact ⟨rfl, addrs_two _ _ _ _ _ _ (by decide +kernel) rfl (by decide +kernel) rfl, by decide +kernel, by decide,
      by decide +kernel⟩

/-- A store of the class is outstanding. -/
def laden : State := (crossing cs).modCtx 0 .cp fun x => { x with pend := [⟨1, 3, .store 0 spad 8 9, none, {}⟩] }

theorem witness_CommandsCrossing_held : NoStep laden ∧ Crosses laden push (entries cs) cs hd ∧ ¬ Clear laden push hd ∧
    laden.engAt 0 0x2008 8 .rmw = .ok (.phys 0x2008) ∧ laden.isDevUnder (.phys 0x2008) = true := by
  refine ⟨by unfold NoStep; decide +kernel, ⟨?_, ?_, ?_, ?_, ?_, ?_, ?_⟩, fun h => ?_, ?_⟩
  · unfold Reads; decide +kernel
  · unfold Reads; decide +kernel
  · decide +kernel
  · exact fun x => absurd x (by decide)
  · decide +kernel
  · decide +kernel
  · decide +kernel
  · refine h.2.1 ⟨1, 3, .store 0 spad 8 9, none, {}⟩ ?_ (by decide +kernel) (by decide +kernel)
    decide +kernel
  · decide +kernel

/-! Commands at the head of queue S. -/

def cmdOf (i : Instr) : QCmd := { words := encode i, pc := 0x700, chain := false, blk := 0, dup := false, ticket := none }

/-- `i` at the head of the queue of endpoint `e`, that engine being the agent that acts. -/
def headed (e : Ep) (i : Instr) : State :=
  paged (((at0 id id).modEng 0 e fun x => { x with q := [cmdOf i] }).modSched fun x => { x with ep := e })

/-- No core has a command in flight. -/
theorem ordered_of (s : State) (h : ∀ p, (s.core p).flights = []) : Ordered s := fun p => by simp [h p]

theorem no_flight {s : State} (h : (s.core s.p).flights = []) {f : Flight} (m : f ∈ (s.core s.p).flights) : False :=
  List.not_mem_nil (h ▸ m)

theorem unheld_of (s : State) (h : (s.core s.p).flights = []) {q : QCmd} {d : List Byte} {l : List Nat} : Unheld s q d l :=
  fun _ m => (no_flight h m).elim

theorem earlier_of (s : State) (h : (s.core s.p).flights = []) {c : BitVec 4} : Earlier s c := fun _ m => (no_flight h m).elim

theorem word_of (s : State) (h : (s.core s.p).flights = []) {c : BitVec 4} {a : Word} : WordDone s c a :=
  fun _ m => (no_flight h m).elim

/-- A parked command of the queue and class holds back every later one. -/
theorem held_of (s : State) (q : QCmd) (d : List Byte) (l : List Nat) (g : Flight) (m : g ∈ (s.core s.p).flights)
    (e : g.ep = s.sched.ep) (c : clsOf g.words = clsOf q.words) (f : g.finished = false) (t : g.ticket ≠ none) :
    ¬ Unheld s q d l := fun h => (h g m e c).elim (fun x => by simp [f] at x) fun x => t x.1

theorem starts_of (s : State) (h : Hdr) (i : Instr) (ctr : Word) (inc : W32) (reqs : List AddrReq) (ls : List Loc)
    (a : (s.eng s.p s.sched.ep).q.head? = some (cmdOf i)) (b : TokensThere s s.p s.sched.ep h.wait)
    (g : s.gateOpen s.p s.sched.ep (opcOf (encode i)) = true)
    (k : ∀ p, (s.core p).flights = []) (c : s.addrs s.p (reqs ++ if ctr = 0 then [] else [ctrReq ctr]) = .ok ls)
    (d : s.slotsHold s.p s.sched.ep reqs ls = false) :
    Starts s h (cmdOf i) ctr inc reqs ls (if ctr = 0 then none else ls.getLast?.map fun l => (l, inc.setWidth 64)) :=
  ⟨a, b, g, fun _ => by simp [k s.p], ordered_of s k, c, d, rfl⟩

def waitHd : Hdr := { hd with wait := 1 }
theorem witness_TokensAwaited : tokenWaits (.csig waitHd 0x2008 5) = some waitHd ∧
    ¬ TokensThere (headed .s (.csig waitHd 0x2008 5)) 0 .s waitHd.wait := ⟨rfl, by unfold TokensThere; decide +kernel⟩

/-- A command without a counter to add to, and with one address or none. -/
theorem starts_one (s : State) (h : Hdr) (i : Instr) (r : AddrReq) (l : Loc)
    (a : (s.eng s.p s.sched.ep).q.head? = some (cmdOf i)) (b : TokensThere s s.p s.sched.ep h.wait)
    (g : s.gateOpen s.p s.sched.ep (opcOf (encode i)) = true) (k : ∀ p, (s.core p).flights = []) (c : s.engAt s.p r.va r.n r.acc = .ok l) (o : r.ok s l = true)
    (d : s.slotsHold s.p s.sched.ep [r] [l] = false) : Starts s h (cmdOf i) 0 0 [r] [l] none :=
  starts_of s h i 0 0 [r] [l] a b g k (by simpa using addrs_one s s.p r l c o) d

theorem starts_none (s : State) (h : Hdr) (i : Instr)
    (a : (s.eng s.p s.sched.ep).q.head? = some (cmdOf i)) (b : TokensThere s s.p s.sched.ep h.wait)
    (g : s.gateOpen s.p s.sched.ep (opcOf (encode i)) = true) (k : ∀ p, (s.core p).flights = []) : Starts s h (cmdOf i) 0 0 [] [] none :=
  starts_of s h i 0 0 [] [] a b g k rfl (by simp [State.slotsHold])

theorem witness_SyncCommands : Starts (headed .s cs) hd (cmdOf cs) 0 0 [ctrReq 0x2008] [.phys 0x2008] none ∧
    Earlier (headed .s cs) hd.cls ∧ (∀ f ∈ ((headed .s cs).core 0).flights, f.ep = .s → ∀ w, f.ctr ≠ some (.phys 0x2008, w)) ∧
    PlainAt (headed .s cs) (.phys 0x2008) 8 ∧ Canonical (headed .s cs) := by
  refine ⟨starts_one _ _ _ _ _ ?_ ?_ ?_ ?_ ?_ ?_ ?_, earlier_of _ ?_, ?_, ?_⟩
  case refine_9 =>
    intro f m
    rw [show ((headed .s cs).core 0).flights = [] by decide +kernel] at m
    exact absurd m (List.not_mem_nil)
  all_goals first | decide +kernel | (unfold TokensThere; decide +kernel) | (unfold PlainAt Canonical; decide +kernel)

theorem witness_SyncCommands_waits : Starts (headed .s cw9) hd (cmdOf cw9) 0 0 [waitReq 0x2008] [.phys 0x2008] none ∧
    (headed .s cw9).readLoc 0 (.phys 0x2008) 8 < (9 : Word).toNat ∧
    Starts (headed .s cw) hd (cmdOf cw) 0 0 [waitReq 0x2008] [.phys 0x2008] none ∧ WordDone (headed .s cw) hd.cls 0x2008 ∧
    Unheld ((headed .s cw).used 0 (.phys 0x2008) 8) (cmdOf cw) [] [] ∧
    (0 : Word).toNat ≤ (headed .s cw).readLoc 0 (.phys 0x2008) 8 := by
  refine ⟨starts_one _ _ _ _ _ ?_ ?_ ?_ ?_ ?_ ?_ ?_, ?_, starts_one _ _ _ _ _ ?_ ?_ ?_ ?_ ?_ ?_ ?_, word_of _ ?_,
    unheld_of _ ?_, ?_⟩ <;> first | decide +kernel | (unfold TokensThere; decide +kernel)

def cn : Instr := .cnop hd
def la : Instr := .launch hd 2 0x40000
/-- Launch queue 2 is open with 16 records at 0x4000. -/
def opened (i : Instr) : State := (headed .s i).modLq 2 fun x => { x with base := 0x4000, size := 16, tail := 3 }

theorem witness_SyncCommands_rest : Starts (headed .s cq) hd (cmdOf cq) 0 0 [seqReq 0x2008] [.phys 0x2008] none ∧
    Earlier (headed .s cq) hd.cls ∧ PlainAt (headed .s cq) (.phys 0x2008) 8 ∧ Canonical (headed .s cq) ∧
    Starts (headed .s cn) hd (cmdOf cn) 0 0 [] [] none ∧ Unheld (headed .s cn) (cmdOf cn) [] [] ∧
    Starts (opened la) hd (cmdOf la) 0 0 [] [] none ∧ Earlier (opened la) hd.cls ∧ ((opened la).lq 2).on = true ∧
    ((opened la).lq 2).tail - ((opened la).lq 2).head ≠ ((opened la).lq 2).size ∧
    ((opened la).lq 2).base.toNat / 8 * 8 + 8 * (((opened la).lq 2).tail.toNat % ((opened la).lq 2).size.toNat) = 0x4018 ∧
    (opened la).ringAt 0x4018 = true ∧ PlainAt (opened la) (.phys 0x4018) 8 ∧ Canonical (opened la) := by
  refine ⟨starts_one _ _ _ _ _ ?_ ?_ ?_ ?_ ?_ ?_ ?_, earlier_of _ ?_, ?_, ?_, starts_none _ _ _ ?_ ?_ ?_ ?_,
    unheld_of _ ?_, starts_none _ _ _ ?_ ?_ ?_ ?_, earlier_of _ ?_, ?_⟩ <;>
    first | decide +kernel | (unfold TokensThere; decide +kernel) | (unfold PlainAt; decide +kernel) | (unfold Canonical; decide +kernel) |
      (unfold PlainAt Canonical; decide +kernel)

/-- A CSIG that waits for a token. -/
def cst : Instr := .csig waitHd 0x2008 5

theorem witness_CommandsCrossing_tokens : Crosses (crossing cst) push (entries cst) cst waitHd ∧
    (crossing cst).addrs 0 (crossReqs cst) = .ok [.phys 0x2008] ∧ crossCheck (crossing cst) cst [.phys 0x2008] = none ∧
    crossReqs cst ≠ [] ∧ ¬ TokensThere (crossing cst) 0 push.e waitHd.wait :=
  ⟨crosses_of _ _ (by unfold Reads; decide +kernel) (by unfold Reads; decide +kernel) (by decide +kernel) (by decide +kernel)
     (by decide +kernel) (by decide +kernel), addrs_one _ _ _ _ (by decide +kernel) (by decide +kernel), by decide +kernel,
   by decide, by unfold TokensThere; decide +kernel⟩

/-- `i` at the head of queue S, an earlier command having started. -/
def behind (f : Flight) (i : Instr) : State := (headed .s i).modCore 0 fun c => { c with flights := [f], nextOrd := 1 }

/-- A parked, an unfinished and a finished CNOP; the last has still to add to the word at 0x2008. -/
def parkedCn : Flight := { (default : Flight) with ep := .s, words := encode cn, ticket := some 5 }
def addingCn : Flight := { (default : Flight) with ep := .s, words := encode cn, finished := true, ctr := some (.phys 0x2008, 3) }
/-- An unfinished CSIG to the word at 0x2008. -/
def openCs : Flight := { (default : Flight) with ep := .s, words := encode cs }

theorem starts_behind (f : Flight) (i : Instr) (reqs : List AddrReq) (ls : List Loc) (o : Ordered (behind f i))
    (a : ((behind f i).eng (behind f i).p (behind f i).sched.ep).q.head? = some (cmdOf i))
    (g : (behind f i).gateOpen (behind f i).p (behind f i).sched.ep (opcOf (encode i)) = true)
    (k : isCopyClass (encode i) = false) (c : (behind f i).addrs (behind f i).p reqs = .ok ls)
    (d : (behind f i).slotsHold (behind f i).p (behind f i).sched.ep reqs ls = false) :
    Starts (behind f i) hd (cmdOf i) 0 0 reqs ls none :=
  ⟨a, fun _ m => absurd m List.not_mem_nil, g, fun x => by simp [cmdOf, k] at x, o, by simpa using c, d, rfl⟩

/-- CNOP and CWAIT behind a parked command; CSIG whose counter an earlier command has still to add to; CWAIT of a word
that an earlier command of its class has still to access. -/
theorem witness_SyncCommands_held : Starts (behind parkedCn cn) hd (cmdOf cn) 0 0 [] [] none ∧
    (¬ Unheld (behind parkedCn cn) (cmdOf cn) [] []) ∧
    Starts (behind parkedCn cw) hd (cmdOf cw) 0 0 [waitReq 0x2008] [.phys 0x2008] none ∧
    (¬ Unheld ((behind parkedCn cw).used 0 (.phys 0x2008) 8) (cmdOf cw) [] []) ∧ WordDone (behind parkedCn cw) hd.cls 0x2008 := by
  refine ⟨starts_behind _ _ _ _ ?_ ?_ ?_ ?_ rfl ?_, held_of _ _ _ _ parkedCn ?_ ?_ ?_ rfl (by decide),
    starts_behind _ _ _ _ ?_ ?_ ?_ ?_ (addrs_one _ _ _ _ ?_ ?_) ?_, held_of _ _ _ _ parkedCn ?_ ?_ ?_ rfl (by decide), ?w⟩
  case w =>
    intro g m _ _
    rw [show ((behind parkedCn cw).core (behind parkedCn cw).p).flights = [parkedCn] by decide +kernel] at m
    obtain rfl := List.mem_singleton.mp m
    exact .inr fun x m => by rw [show (behind parkedCn cw).spans (behind parkedCn cw).p parkedCn = [] by decide +kernel] at m; exact (List.not_mem_nil m).elim
  all_goals first | decide +kernel | (unfold Ordered; decide +kernel)

theorem witness_SyncCommands_adds : Starts (behind addingCn cs) hd (cmdOf cs) 0 0 [ctrReq 0x2008] [.phys 0x2008] none ∧
    Earlier (behind addingCn cs) hd.cls ∧
    ∃ f ∈ ((behind addingCn cs).core 0).flights, f.ep = .s ∧ ∃ w, f.ctr = some (.phys 0x2008, w) := by
  refine ⟨starts_behind _ _ _ _ ?_ ?_ ?_ ?_ (addrs_one _ _ _ _ ?_ ?_) ?_, ?_, addingCn, ?_, rfl, 3, rfl⟩
  case refine_8 => unfold Earlier; decide +kernel
  all_goals first | decide +kernel | (unfold Ordered; decide +kernel)

theorem witness_SyncCommands_word : Starts (behind openCs cw) hd (cmdOf cw) 0 0 [waitReq 0x2008] [.phys 0x2008] none ∧
    ¬ WordDone (behind openCs cw) hd.cls 0x2008 := by
  refine ⟨starts_behind _ _ _ _ ?_ ?_ ?_ ?_ (addrs_one _ _ _ _ ?_ ?_) ?_, ?_⟩
  case refine_8 => unfold WordDone; decide +kernel
  all_goals first | decide +kernel | (unfold Ordered; decide +kernel)

/-- The ring of launch queue 2 is full; its entry lies beyond device memory. -/
theorem witness_SyncCommands_launch :
    Starts ((opened la).modLq 2 fun x => { x with tail := 16 }) hd (cmdOf la) 0 0 [] [] none ∧
    (((opened la).modLq 2 fun x => { x with tail := 16 }).lq 2).tail - (((opened la).modLq 2 fun x => { x with tail := 16 }).lq 2).head =
      (((opened la).modLq 2 fun x => { x with tail := 16 }).lq 2).size ∧
    Starts ((opened la).modLq 2 fun x => { x with base := 0x20000000000 }) hd (cmdOf la) 0 0 [] [] none ∧
    ((opened la).modLq 2 fun x => { x with base := 0x20000000000 }).ringAt 0x20000000018 = false ∧
    (opened la).flt.on = false ∧ ((opened la).bent (bentOf 0)).faults.length < 64 := by
  refine ⟨starts_none _ _ _ ?_ ?_ ?_ ?_, ?_, starts_none _ _ _ ?_ ?_ ?_ ?_, ?_⟩ <;>
    first | decide +kernel | (unfold TokensThere; decide +kernel)

/-! Copies. -/

/-- No region register is enabled. -/
def NoViews (s : State) : Prop := ∀ n < 32, (vlist (s.ctlOf n).fr).all (fun x => !x.en) = true

theorem viewAt_of_noViews (s : State) (h : NoViews s) (o : Nat) : s.viewAt o = none := by
  have k := List.all_eq_true.mp (h (stackOf o) (Nat.mod_lt _ (by decide)))
  exact List.find?_eq_none.mpr fun x m => by simpa [FmtReg.covers] using fun e => absurd (k x m) (by simp [e])

theorem moves_one (s : State) (p : CoreId) (j : Job) (ls : List Loc) (bs : List Byte) (c : j.count = 1)
    (r : (if j.old then s else s.usedAll p j 0).readSrc p j.size (j.src 0) = .ok bs)
    (d : (s.usedAll p j 0).placeDst p j.size (j.dst 0) = .ok ls) : Moves s p j [(ls, bs)] := by
  refine ⟨c.symm, fun k x h => ?_, fun k x h => ?_⟩ <;> rcases k with - | k <;> simp at h <;> subst h
  · simpa [moved] using r
  · simpa [moved] using d

def tag0 : Tag := ⟨false, 0⟩
def cpy1 : CopyOps := { tag := tag0, dst := 0xFFFFFFFE00100, src := 0x40002008, ctr := 0x2008, inc := 5, len := 1 }
def gat1 : GatherOps :=
  { tag := tag0, esz := 2, dst := 0xFFFFFFFE00100, src := 0x2000, ctr := 0, inc := 0, idx := 0x200, isz := false, count := 1 }

/-- Understore byte 0x2008 holds 0xAB, and scratchpad word 0x200 the index −1. -/
def filled (i : Instr) : State :=
  let s := (headed .s i).modCore 0 fun c => { c with scratch := [(0x200, 255), (0x201, 255), (0x202, 255), (0x203, 255)] }
  { s with mem := s.mem ++ [(0x40000000002008, 0xAB)] }

theorem witness_Copies :
    copyElements (.cpy hd cpy1) (filled (.cpy hd cpy1)) = some (hd, 0x2008, 5, tag0,
      { count := 1, size := 1, src := fun k => .va (0x40002008 + BitVec.ofNat 64 k),
        dst := fun k => .va (0xFFFFFFFE00100 + BitVec.ofNat 64 k), old := true }) ∧
    Starts (filled (.cpy hd cpy1)) hd (cmdOf (.cpy hd cpy1)) 0x2008 5 [] [.phys 0x2008] (some (.phys 0x2008, 5)) ∧
    (cpyJob cpy1).slotsOk (filled (.cpy hd cpy1)) 0 = true ∧
    Unheld (filled (.cpy hd cpy1)) (cmdOf (.cpy hd cpy1)) [] [] ∧
    Moves (filled (.cpy hd cpy1)) 0 (cpyJob cpy1) [([.spad 0x100], [0xAB])] ∧ Canonical (filled (.cpy hd cpy1)) := by
  refine ⟨rfl, starts_of _ _ _ _ _ _ _ ?_ ?_ ?_ ?_ (addrs_one _ _ _ _ ?_ ?_) ?_, ?_, unheld_of _ ?_,
    moves_one _ _ _ _ _ rfl ?_ ?_, ?_⟩ <;> 
    first | (unfold TokensThere; decide +kernel) | (unfold Canonical; decide +kernel) |
      decide +kernel

/-- An index of −1 names the element before the base. -/
theorem witness_Copies_gathered : ∃ j,
    copyElements (.gath hd gat1) (filled (.gath hd gat1)) = some (hd, 0, 0, tag0, j) ∧
    Starts (filled (.gath hd gat1)) hd (cmdOf (.gath hd gat1)) 0 0 [] [] none ∧
    j.slotsOk (filled (.gath hd gat1)) 0 = true ∧ Unheld (filled (.gath hd gat1)) (cmdOf (.gath hd gat1)) [] [] ∧
    j.src 0 = .va 0x1FFC ∧
    Moves (filled (.gath hd gat1)) 0 j [([.spad 0x100, .spad 0x101, .spad 0x102, .spad 0x103], [0, 0, 0, 0])] := by
  refine ⟨_, rfl, starts_none _ _ _ ?_ ?_ ?_ ?_, ?_, unheld_of _ ?_, ?_, moves_one _ _ _ _ _ rfl ?_ ?_⟩ <;>
    first | (unfold TokensThere; decide +kernel) | decide +kernel

def flight0 : Flight :=
  { (default : Flight) with ord := 0, ep := .s, words := encode (.cpy hd cpy1), elem := 3, ticket := some 7, finished := false }
/-- Core 0 has a parked CPY of the queue and class in flight. -/
def parked (i : Instr) : State := (filled i).modCore 0 fun c => { c with flights := [flight0], nextOrd := 1 }
def far1 : CopyOps := { cpy1 with src := 0x200000000 }

theorem ordered_parked : Ordered (parked (.cpy hd cpy1)) := by unfold Ordered; decide +kernel

theorem witness_CopiesHeld :
    Starts (parked (.cpy hd cpy1)) hd (cmdOf (.cpy hd cpy1)) 0x2008 5 [] [.phys 0x2008] (some (.phys 0x2008, 5)) ∧
    (cpyJob cpy1).slotsOk (parked (.cpy hd cpy1)) 0 = true ∧
    ¬ Unheld (parked (.cpy hd cpy1)) (cmdOf (.cpy hd cpy1)) [] [] := by
  refine ⟨⟨?_, ?_, ?_, ?_, ordered_parked, addrs_one _ _ _ _ ?_ ?_, ?_, rfl⟩, ?_, held_of _ _ _ _ flight0 ?_ ?_ ?_ rfl (by decide)⟩
  all_goals first | (unfold TokensThere; decide +kernel) | decide +kernel

theorem witness_CopiesHeld_fault :
    Starts (filled (.cpy hd far1)) hd (cmdOf (.cpy hd far1)) 0x2008 5 [] [.phys 0x2008] (some (.phys 0x2008, 5)) ∧
    Unheld (filled (.cpy hd far1)) (cmdOf (.cpy hd far1)) [] [] ∧ 0 < (cpyJob far1).count ∧
    (cpyJob far1).src 0 = .va 0x200000000 ∧ (filled (.cpy hd far1)).flt.on = false ∧
    ((filled (.cpy hd far1)).bent (bentOf 0)).faults.length < 64 ∧
    (filled (.cpy hd far1)).engAt 0 0x200000000 1 .read = .error (.page 1) := by
  refine ⟨starts_of _ _ _ _ _ _ _ ?_ ?_ ?_ ?_ (addrs_one _ _ _ _ ?_ ?_) ?_, unheld_of _ ?_, ?_⟩ <;> first | (unfold TokensThere; decide +kernel) | decide +kernel

/-! Strided and reducing copies, chunks. -/

def cpn : CopyNOps := { tag := tag0, dst := 0xFFFFFFFE00100, src := 0x2000, ctr := 0, inc := 0, desc := 0xFFFFFFFE00400 }
/-- The scratchpad holds a descriptor of one element. -/
def described (i : Instr) : State := (headed .s i).modCore 0 fun c => { c with scratch := [(0x410, 1)] }
def parts : List Loc := [.spad 0x400, .spad 0x440, .spad 0x480, .spad 0x4C0]
def desc0 : List Byte := (described (.cpyn hd cpn)).descBytes 0 parts

theorem addrs_cons (s : State) (p : CoreId) (r : AddrReq) (t : List AddrReq) (l : Loc) (ls : List Loc)
    (h : s.engAt p r.va r.n r.acc = .ok l) (k : r.ok s l = true) (g : s.addrs p t = .ok ls) :
    s.addrs p (r :: t) = .ok (l :: ls) := by simp [State.addrs, h, k, g]

theorem witness_StridedCopies :
    Starts (described (.cpyn hd cpn)) hd (cmdOf (.cpyn hd cpn)) 0 0 (descReqs cpn.desc) parts none ∧ cpynOk desc0 = true ∧
    (cpynJob cpn desc0).slotsOk (described (.cpyn hd cpn)) 0 = true ∧
    Unheld (descRead (described (.cpyn hd cpn)) parts) (cmdOf (.cpyn hd cpn)) desc0 [] ∧
    Moves (descRead (described (.cpyn hd cpn)) parts) 0 (cpynJob cpn desc0) [([.spad 0x100], [0])] ∧
    Canonical (described (.cpyn hd cpn)) := by
  refine ⟨starts_of _ _ _ _ _ _ _ ?_ ?_ ?_ ?_ (addrs_cons _ _ _ _ _ _ ?_ rfl (addrs_cons _ _ _ _ _ _ ?_ rfl
    (addrs_cons _ _ _ _ _ _ ?_ rfl (addrs_cons _ _ _ _ _ _ ?_ rfl rfl)))) ?_, ?_, ?_, unheld_of _ ?_,
    moves_one _ _ _ _ _ ?_ ?_ ?_, ?_⟩ <;> 
    first | (unfold TokensThere; decide +kernel) | (unfold Canonical; decide +kernel) |
      decide +kernel

/-- Its descriptor is all zeros. -/
def plainCpyn : State := headed .s (.cpyn hd cpn)

theorem witness_StridedCopies_refused :
    Starts plainCpyn hd (cmdOf (.cpyn hd cpn)) 0 0 (descReqs cpn.desc) parts none ∧
    cpynOk (plainCpyn.descBytes 0 parts) = false ∧ plainCpyn.flt.on = false ∧ (plainCpyn.bent (bentOf 0)).faults.length < 64 := by
  refine ⟨starts_of _ _ _ _ _ _ _ ?_ ?_ ?_ ?_ (addrs_cons _ _ _ _ _ _ ?_ rfl (addrs_cons _ _ _ _ _ _ ?_ rfl
    (addrs_cons _ _ _ _ _ _ ?_ rfl (addrs_cons _ _ _ _ _ _ ?_ rfl rfl)))) ?_, ?_⟩ <;>
    first | (unfold TokensThere; decide +kernel) | decide +kernel

theorem witness_StridedCopies_tuple : [0].length = cpynDims desc0 ∧ ∀ x ∈ [0].zip (cpynCounts desc0), x.1 < x.2 := by
  decide +kernel

def prf : PrefOps := { tag := tag0, src := 0x2010, ctr := 0, inc := 0, len := 8 }
theorem witness_StridedCopies_prefetch :
    Starts (headed .s (.prefCmd hd prf)) hd (cmdOf (.prefCmd hd prf)) 0 0 [] [] none ∧
    Unheld (headed .s (.prefCmd hd prf)) (cmdOf (.prefCmd hd prf)) [] [] ∧
    128 * 0 < prf.src.toNat % 128 + prf.len.toNat ∧
    (headed .s (.prefCmd hd prf)).engAt 0 ((prf.src &&& ~~~127) + BitVec.ofNat 64 (128 * 0)) 128 .read = .ok (.phys 0x2000) ∧
    (headed .s (.prefCmd hd prf)).space 0x2000 = .dev 0x2000 ∧
    (headed .s (.prefCmd hd prf)).stackReady (stackOf 0x2000) = true ∧ (headed .s (.prefCmd hd prf)).moving 0x2000 = false ∧
    (headed .s (.prefCmd hd prf)).furHeld 0x2000 = false ∧ ((headed .s (.prefCmd hd prf)).llc.map (·.line)).Nodup ∧
    (∀ b, ((headed .s (.prefCmd hd prf)).llc.filter fun y => llcSlice y.line == b).length +
      ((headed .s (.prefCmd hd prf)).links.pool.filter fun y => poolSlice y.line == b).length +
      (prf.src.toNat % 128 + prf.len.toNat + 127) / 128 ≤ 32768) := by
  have l : (headed .s (.prefCmd hd prf)).llc = [] := by decide +kernel
  have k : (headed .s (.prefCmd hd prf)).links.pool = [] := by decide +kernel
  refine ⟨starts_none _ _ _ ?_ ?_ ?_ ?_, unheld_of _ ?_, ?_, ?_, ?_, ?_, ?_, ?_, by simp [l], fun b => ?_⟩
  case refine_12 => simp only [l, k, List.filter_nil, List.length_nil]; decide
  all_goals first | (unfold TokensThere; decide +kernel) | decide +kernel

def rcp : RcpyOps := { tag := tag0, dst := 0x2008, src := 0xFFFFFFFE00200, ctr := 0, inc := 0, len := 4, fmt := 3, rop := 0 }
def rcp0 : RcpyOps := { rcp with fmt := 1 }

theorem witness_ReducingCopies :
    Starts (filled (.rcpy hd rcp)) hd (cmdOf (.rcpy hd rcp)) 0 0 [] [] none ∧ rcpyOk rcp = true ∧
    rcpyFmt rcp.fmt = some .int32 ∧ (rcpyJob rcp).slotsOk (filled (.rcpy hd rcp)) 0 = true ∧
    Unheld (filled (.rcpy hd rcp)) (cmdOf (.rcpy hd rcp)) [] [] ∧ rcp.len.toNat / (Fmt.int32.width / 8) = 1 ∧
    (afterReads (filled (.rcpy hd rcp)) 0 4 (fun _ => 0xFFFFFFFE00200) 0).engAt 0 0x2008 4 .rmw = .ok (.phys 0x2008) ∧
    (filled (.rcpy hd rcp)).isDevUnder (.phys 0x2008) = true ∧
    (afterReads (filled (.rcpy hd rcp)) 0 4 (fun _ => 0xFFFFFFFE00200) 0).readVa 0 (0xFFFFFFFE00200 &&& ~~~3) 4 =
      .ok [255, 255, 255, 255] ∧
    ((headed .s (.rcpy hd rcp0)).eng 0 .s).q.head? = some (cmdOf (.rcpy hd rcp0)) ∧ rcpyOk rcp0 = false ∧
    (headed .s (.rcpy hd rcp0)).flt.on = false ∧
    ((headed .s (.rcpy hd rcp0)).bent (bentOf 0)).faults.length < 64 := by
  refine ⟨starts_none _ _ _ ?_ ?_ ?_ ?_, ?_, ?_, ?_, unheld_of _ ?_, ?_⟩ <;> first | (unfold TokensThere; decide +kernel) | decide +kernel

def chunk (n : W32) (home ack : Bool) : Chunk :=
  { pcore := 0, seq := n, loc := .phys 0x2008, fmt := 3, rop := 0, vals := [1, 0, 0, 0], ord := 0, sent := 0, atHome := home,
    acked := ack }
/-- Chunk 1 stands at its home, 2 is applied, 3 is acknowledged. -/
def chunked : State :=
  let s := (paged (at0 id id)).modCore 0 fun c => { c with chunks := [chunk 1 true false, chunk 2 false false, chunk 3 false true] }
  { s with dedup := [(s.homeUnit (.phys 0x2008), 0, 2)], sched := { s.sched with nanos := 20000 } }

theorem witness_ChunksOnce :
    (chunked.core 0).chunks.find? (fun y => y.seq == 1) = some (chunk 1 true false) ∧
    (chunked.homeUnit (.phys 0x2008), 0, 1) ∉ chunked.dedup ∧
    (chunked.dedup.filter fun d => d.1 == chunked.homeUnit (.phys 0x2008)).length < 4096 ∧ rcpyFmt 3 = some .int32 ∧
    chunked.formHeld (.phys 0x2008) = false ∧ chunked.isPeer (.phys 0x2008) = false ∧ chunked.stalled 0 = false ∧
    ChunkPlain chunked .int32 (chunk 1 true false) ∧ Canonical chunked ∧
    (chunked.core 0).chunks.find? (fun y => y.seq == 2) = some (chunk 2 false false) ∧
    (chunked.homeUnit (.phys 0x2008), 0, 2) ∈ chunked.dedup ∧ 0 + 10000 ≤ chunked.nanos ∧
    (chunked.core 0).chunks.find? (fun y => y.seq == 3) = some (chunk 3 false true) := by
  refine ⟨?_, ?_, ?_, ?_, ?_, ?_, ?_, ⟨0x2008, ?_⟩, ?_, ?_⟩ <;> 
    first | (unfold Canonical; decide +kernel) |
      decide +kernel

/-! Pod streams. -/

def psb : PsubOps := { ring := 0x1000, rows := 4, strm := 2 }
def psb0 : PsubOps := { psb with rows := 0 }
def psi : Instr := .psub hd psb
def psi0 : Instr := .psub hd psb0
def pui : Instr := .puns hd 2
def cpp : CpypOps := { tag := tag0, strm := 2, src := 0xFFFFFFFE00200, ctr := 0, inc := 0, len := 128 }
def cpi : Instr := .cpyp hd cpp
def sub0 : PodSub := { (default : PodSub) with valid := true, rows := 4, ring := 0x1000 }
/-- The core's gang, its stream 2 and its subscription to it. -/
def streaming (rows : List PodRow) (i : Instr) : State :=
  let s := (headed .l i).modCore 0 fun c => { c with place := some place0, pods := vset c.pods 2 sub0 }
  (s.modStream 0 2 fun x => { x with gang := some 1, rows := rows }).modLaunch fun l => { l with gangs := [gang0] }
def row0 : PodRow := { data := vecOfBytes (List.replicate 128 7), dest := [0], ord := 0, pcore := 0 }

theorem witness_PodStreams :
    Starts (headed .l psi) hd (cmdOf psi) 0 0 [] [] none ∧ psubOk psb (headed .l psi) 0 = true ∧
    Unheld (headed .l psi) (cmdOf psi) [] [] ∧ ((headed .l psi0).eng 0 .l).q.head? = some (cmdOf psi0) ∧
    psubOk psb0 (headed .l psi0) 0 = false ∧ (headed .l psi0).flt.on = false ∧
    ((headed .l psi0).bent (bentOf 0)).faults.length < 64 := by
  refine ⟨starts_none _ _ _ ?_ ?_ ?_ ?_, ?_, unheld_of _ ?_, ?_⟩ <;> first | (unfold TokensThere; decide +kernel) | decide +kernel

theorem witness_PodStreams_ends :
    Starts (headed .l pui) hd (cmdOf pui) 0 0 [] [] none ∧ decodeCmd (cmdOf pui).words = some pui ∧
    ((headed .l pui).sub 0 2).valid = false ∧ Unheld (headed .l pui) (cmdOf pui) [] [] ∧
    Starts (streaming [] pui) hd (cmdOf pui) 0 0 [] [] none ∧ Unheld (streaming [] pui) (cmdOf pui) [] [] ∧
    ((streaming [] pui).sub 0 2).valid = true ∧ (streaming [] pui).podOwes 0 2 = false ∧
    Starts (streaming [row0] pui) hd (cmdOf pui) 0 0 [] [] none ∧ Unheld (streaming [row0] pui) (cmdOf pui) [] [] ∧
    ((streaming [row0] pui).sub 0 2).valid = true ∧ (streaming [row0] pui).podOwes 0 2 = true := by
  refine ⟨starts_none _ _ _ ?_ ?_ ?_ ?_, ?_, ?_, unheld_of _ ?_, starts_none _ _ _ ?_ ?_ ?_ ?_, unheld_of _ ?_, ?_, ?_,
    starts_none _ _ _ ?_ ?_ ?_ ?_, unheld_of _ ?_, ?_⟩ <;> first | (unfold TokensThere; decide +kernel) | decide +kernel

theorem witness_PodStreams_copies :
    Starts (headed .l cpi) hd (cmdOf cpi) 0 0 [] [] none ∧ Unheld (headed .l cpi) (cmdOf cpi) [] ((headed .l cpi).subscribers 0 2) ∧
    (headed .l cpi).subscribers 0 2 = [] ∧ cpp.len.toNat % 128 = 0 ∧ (cpypJob cpp).slotsOk (headed .l cpi) 0 = true ∧
    Starts (streaming [] cpi) hd (cmdOf cpi) 0 0 [] [] none ∧ Unheld (streaming [] cpi) (cmdOf cpi) [] ((streaming [] cpi).subscribers 0 2) ∧
    (cpypJob cpp).slotsOk (streaming [] cpi) 0 = true ∧ (streaming [] cpi).subscribers 0 2 ≠ [] ∧
    decodeCmd (cmdOf cpi).words = some cpi ∧ [vecOfBytes (List.replicate 128 0)].length = cpp.len.toNat / 128 ∧
    (streaming [] cpi).halted 0 = false ∧ (streaming [] cpi).stalled 0 = false ∧ (streaming [] cpi).changing = false ∧
    (streaming [] cpi).faultRoom (bentOf 0) = true ∧
    (((streaming [] cpi).gangNo 0).bind (streaming [] cpi).gang?).isSome = true ∧
    ((streaming [] cpi).stream (bayOf 0) 2).feed = [] ∧ ((streaming [] cpi).stream (bayOf 0) 2).rows = [] ∧
    (afterReads (streaming [] cpi) 0 128 (fun _ => cpp.src) 0).readVa 0 ((cpp.src + BitVec.ofNat 64 (128 * 0)) &&& ~~~127) 128 = .ok (List.replicate 128 0) := by
  refine ⟨starts_none _ _ _ ?_ ?_ ?_ ?_, unheld_of _ ?_, ?_, ?_, ?_, starts_none _ _ _ ?_ ?_ ?_ ?_, unheld_of _ ?_, ?_⟩ <;>
    first | (unfold TokensThere; decide +kernel) | decide +kernel

theorem witness_PodDelivery : ((streaming [row0] cn).stream 0 2).rows = [row0] ∧
    ((streaming [row0] cn).stream 0 2).feed = [] ∧
    (streaming [row0] cn).member ((streaming [row0] cn).stream 0 2).gang 0 = some 0 ∧ ((streaming [row0] cn).sub 0 2).valid = true ∧
    ((streaming [row0] cn).sub 0 2).closing = false ∧ ((streaming [row0] cn).sub 0 2).win < ((streaming [row0] cn).sub 0 2).rows ∧
    (streaming [row0] cn).stalled 0 = false ∧ (streaming [row0] cn).halted 0 = false ∧
    (streaming [row0] cn).trace.ctl.getLsbD 0 = false ∧ Canonical (streaming [row0] cn) := by
  unfold Canonical; decide +kernel

/-- A parked CNOP of queue L stands before `i`. -/
def behindL (i : Instr) : State :=
  (headed .l i).modCore 0 fun c => { c with flights := [{ parkedCn with ep := .l }], nextOrd := 1 }

theorem starts_behindL (i : Instr) (o : Ordered (behindL i))
    (a : ((behindL i).eng (behindL i).p (behindL i).sched.ep).q.head? = some (cmdOf i))
    (g : (behindL i).gateOpen (behindL i).p (behindL i).sched.ep (opcOf (encode i)) = true)
    (k : ((behindL i).core (behindL i).p).flights = [{ parkedCn with ep := .l }])
    (d : (behindL i).slotsHold (behindL i).p (behindL i).sched.ep [] [] = false) :
    Starts (behindL i) hd (cmdOf i) 0 0 [] [] none :=
  ⟨a, fun _ m => absurd m List.not_mem_nil, g, fun _ => by rw [k]; decide, o, rfl, d, rfl⟩

theorem witness_PodStreams_held :
    Starts (behindL psi) hd (cmdOf psi) 0 0 [] [] none ∧ psubOk psb (behindL psi) 0 = true ∧
    (¬ Unheld (behindL psi) (cmdOf psi) [] []) ∧
    Starts (behindL pui) hd (cmdOf pui) 0 0 [] [] none ∧ ¬ Unheld (behindL pui) (cmdOf pui) [] [] := by
  refine ⟨starts_behindL _ ?_ ?_ ?_ ?_ ?_, ?_, held_of _ _ _ _ { parkedCn with ep := .l } ?_ ?_ ?_ rfl (by decide),
    starts_behindL _ ?_ ?_ ?_ ?_ ?_, held_of _ _ _ _ { parkedCn with ep := .l } ?_ ?_ ?_ rfl (by decide)⟩ <;>
    first | decide +kernel | (unfold Ordered; decide +kernel)

/-- A chunk for module 1, to which no link is up; its command has not finished. -/
def farChunk : Chunk := { chunk 4 true false with loc := .phys 0x80200000002000 }
def lostFlight : Flight := { (default : Flight) with ord := 0, words := encode (.rcpy hd rcp) }
def lostChunk : State := chunked.modCore 0 fun c =>
  { c with chunks := [farChunk], flights := [lostFlight] }
/-- The core stands in an ECC freeze. -/
def frozenChunk : State := lostChunk.modCore 0 fun c => { c with eccUntil := some 0x100000000 }

theorem witness_ChunksOnce_lost : (lostChunk.core 0).chunks.find? (fun y => y.seq == 4) = some farChunk ∧
    farChunk.atHome = true ∧ lostChunk.formHeld farChunk.loc = false ∧ lostChunk.isPeer farChunk.loc = true ∧
    lostChunk.reachableLoc farChunk.loc = false ∧ farChunk.acked = false ∧ lostChunk.flt.on = false ∧
    (lostChunk.bent (bentOf 0)).faults.length < 64 ∧ lostChunk.stalled 0 = false ∧
    (∃ f, (lostChunk.core 0).flight? farChunk.ord = some f ∧ f.finished = false) ∧
    frozenChunk.stalled 0 = true ∧ (frozenChunk.core 0).chunks.find? (fun y => y.seq == 4) = some farChunk := by
  refine ⟨?_, ?_, ?_, ?_, ?_, ?_, ?_, ?_, ?_, ⟨lostFlight, ?_, rfl⟩, ?_⟩ <;> decide +kernel

/-! Stage queues. -/

/-- A queue at 0x2040 with one slot full, one reserved, one free and one claimed, live in the core's table. -/
def stq1 : StageQ := { stq with slots := [.full 3, .reserved 4, .free, .claimed 2], nextClaim := 3, nextRes := 5, quota := 0 }
def live (i : Instr) : State := (headed .s i).modCore 0 fun c => { c with sqt := [stq1] }
/-- The queue commands, with their operations: QINIT of a descriptor in the scratchpad, the others of queue 0x2040. -/
def qn : Instr := .qinit hd 0xFFFFFFFE00400
def qa : Instr := .qacq hd 0x2040 0x3000
def ql : Instr := .qrel hd 0x2040 0x8C00
def qs : Instr := .qres hd 0x2040 0x3000 false
def qc : Instr := .qcom hd 0x2040 0x8400

/-- The scratchpad holds a descriptor of one slot of 128 bytes at scratchpad address 0x800. -/
def initial : State := (headed .s qn).modCore 0 fun c =>
  { c with scratch := [(0x401, 8), (0x402, 0xE0), (0x403, 0xFF), (0x404, 0xFF), (0x405, 0xFF), (0x406, 0x0F), (0x408, 128),
                       (0x40C, 1)] }

theorem witness_StageQueues_init : queueOp qn = some (.init, 0xFFFFFFFE00400, 0) ∧
    Starts initial hd (cmdOf qn) 0 0 (queueReqs .init 0xFFFFFFFE00400 0) [.spad 0x400] none ∧
    initial.qCheck 0 .init (0xFFFFFFFE00400 &&& ~~~63) = none ∧
    initial.qInitBad 0 .init (0xFFFFFFFE00400 &&& ~~~63) [.spad 0x400] = none ∧
    initial.qSpent 0 .init (0xFFFFFFFE00400 &&& ~~~63) = false ∧ initial.qReady 0 .init (0xFFFFFFFE00400 &&& ~~~63) = true ∧
    Unheld initial (cmdOf qn) [] [] ∧ (initial.descQ 0 (0xFFFFFFFE00400 &&& ~~~63) (.spad 0x400) false).isSome = true := by
  refine ⟨rfl, starts_of _ _ _ _ _ _ _ ?_ ?_ ?_ ?_ (addrs_one _ _ _ _ ?_ rfl) ?_, ?_, ?_, ?_, ?_, unheld_of _ ?_, ?_⟩ <;>
    first | (unfold TokensThere; decide +kernel) | decide +kernel

theorem starts_res (s : State) (i : Instr) (desc resa : Word) (op : QOp) (l m : Loc) (z : queueReqs op desc resa =
      [{ va := desc, acc := if op = .stat then .write else .read, n := 64, ok := fun _ _ => true },
       { va := resa, acc := .write, n := 8, ok := fun _ _ => true }])
    (a : (s.eng s.p s.sched.ep).q.head? = some (cmdOf i)) (b : TokensThere s s.p s.sched.ep hd.wait)
    (g : s.gateOpen s.p s.sched.ep (opcOf (encode i)) = true) (k : ∀ p, (s.core p).flights = []) (c : s.engAt s.p desc 64 (if op = .stat then .write else .read) = .ok l)
    (d : s.engAt s.p resa 8 .write = .ok m) (e : s.slotsHold s.p s.sched.ep (queueReqs op desc resa) [l, m] = false) :
    Starts s hd (cmdOf i) 0 0 (queueReqs op desc resa) [l, m] none :=
  starts_of s hd i 0 0 _ _ a b g k (by rw [z]; exact addrs_two _ _ _ _ _ _ c rfl d rfl) e

theorem witness_StageQueues_results :
    queueOp qa = some (.acq, 0x2040, 0x3000) ∧ queueOp qs = some (.res false, 0x2040, 0x3000) ∧
    queueOp qi = some (.stat, 0x2040, 0x3000) ∧
    Starts (live qa) hd (cmdOf qa) 0 0 (queueReqs .acq 0x2040 0x3000) [.phys 0x2040, .phys 0x3000] none ∧
    Starts (live qs) hd (cmdOf qs) 0 0 (queueReqs (.res false) 0x2040 0x3000) [.phys 0x2040, .phys 0x3000] none ∧
    Starts (live qi) hd (cmdOf qi) 0 0 (queueReqs .stat 0x2040 0x3000) [.phys 0x2040, .phys 0x3000] none ∧
    Unheld (live qa) (cmdOf qa) [] [] ∧ Unheld (live qs) (cmdOf qs) [] [] ∧ Unheld (live qi) (cmdOf qi) [] [] ∧
    (∀ i ∈ [qa, qs, qi], (live i).qCheck 0 .acq (0x2040 &&& ~~~63) = none ∧ PlainAt (live i) (.phys 0x3000) 8 ∧
      Canonical (live i) ∧
      (live i).qReady 0 .acq (0x2040 &&& ~~~63) = true ∧ (live i).qReady 0 (.res false) (0x2040 &&& ~~~63) = true ∧
      (live i).findQ 0 0x2040 = some stq1) ∧
    stq1.desc = 0x2040 &&& ~~~63 ∧ stq1.slots.findIdx? (fun x => x == .full stq1.nextClaim) = some 0 ∧
    stq1.slots.findIdx? (fun x => x == .free) = some 2 ∧ stq1.ring = [] := by
  refine ⟨rfl, rfl, rfl, starts_res _ _ _ _ _ _ _ rfl ?_ ?_ ?_ ?_ ?_ ?_ ?_, starts_res _ _ _ _ _ _ _ rfl ?_ ?_ ?_ ?_ ?_ ?_ ?_,
    starts_res _ _ _ _ _ _ _ rfl ?_ ?_ ?_ ?_ ?_ ?_ ?_, unheld_of _ ?_, unheld_of _ ?_, unheld_of _ ?_, ?_⟩ <;>
    first | (unfold TokensThere; decide +kernel) | (unfold PlainAt Canonical; decide +kernel) | decide +kernel

theorem witness_StageQueues_releases :
    queueOp qc = some (.com 0x8400, 0x2040, 0) ∧ queueOp ql = some (.rel 0x8C00, 0x2040, 0) ∧
    Starts (live qc) hd (cmdOf qc) 0 0 (queueReqs (.com 0x8400) 0x2040 0) [.phys 0x2040] none ∧
    Starts (live ql) hd (cmdOf ql) 0 0 (queueReqs (.rel 0x8C00) 0x2040 0) [.phys 0x2040] none ∧
    Earlier (live qc) hd.cls ∧ Earlier (live ql) hd.cls ∧
    (live qc).qCheck 0 (.com 0x8400) (0x2040 &&& ~~~63) = none ∧
    (live ql).qCheck 0 (.rel 0x8C00) (0x2040 &&& ~~~63) = none ∧
    (live qc).findQ 0 stq1.desc = some stq1 ∧ (live ql).findQ 0 stq1.desc = some stq1 ∧
    stq1.slotOfVa 0x8400 = some 1 ∧ stq1.slots[1]? = some (.reserved 4) ∧ stq1.slotOfVa 0x8C00 = some 3 ∧
    stq1.slots[3]? = some (.claimed 2) := by
  refine ⟨rfl, rfl, starts_of _ _ _ _ _ _ _ ?_ ?_ ?_ ?_ (addrs_one _ _ _ _ ?_ rfl) ?_,
    starts_of _ _ _ _ _ _ _ ?_ ?_ ?_ ?_ (addrs_one _ _ _ _ ?_ rfl) ?_, earlier_of _ ?_, earlier_of _ ?_, ?_⟩ <;>
    first | (unfold TokensThere; decide +kernel) | decide +kernel

/-- A QRES.NW of a queue with no free slot and its quota spent. -/
def qw : Instr := .qres hd 0x2040 0x3000 true
def full1 : StageQ := { stq1 with slots := [.full 3, .reserved 4, .claimed 2] }

theorem witness_StageQueues_quota : queueOp qw = some (.res true, 0x2040, 0x3000) ∧
    (((live qw).modCore 0 fun c => { c with sqt := [full1] }).findQ 0 full1.desc) = some full1 ∧
    full1.desc = 0x2040 &&& ~~~63 ∧ (∀ x ∈ full1.slots, x ≠ .free) ∧ (full1.spill - full1.fill).toNat = full1.quota := by
  decide +kernel

/-- A queue of three slots of 128 bytes, full of 7, claimed and full of 3, with positions in its ring. -/
def ringed (l : List Nat) : StageQ :=
  { stq with size := 128, slots := [.full 7, .claimed 2, .full 3], ring := l, spill := 1 }
def clamping (q : StageQ) (i : Instr) : State := (headed .s i).modCore 0 fun c => { c with sqt := [q] }
/-- The bytes of a queue's slot, and of an entry of its ring. -/
def slotOf (q : StageQ) (i : Nat) : List Loc := runPlaces q.base q.runs (i * q.size) q.size
def entryOf (q : StageQ) (n : Nat) : List Loc := runPlaces q.cbase q.cruns (n % q.quota * q.size) q.size
def qr : Instr := .qrel hd 0x2040 0x8080

theorem clamped_of (s : State) (q : StageQ) (i : Nat) (n : Word) (b : Bool) (h : q.runs = []) (k : q.cruns = [])
    (x y : Nat) (e : q.base = .phys x) (f : q.cbase = .phys y)
    (m : ∀ x ∈ entryOf q n.toNat, s.formHeld x = false ∧ (b = true → s.inView x = false)) :
    Clamped s q i n b (slotOf q i) (entryOf q n.toNat) := by
  refine ⟨rfl, rfl, ?_, fun z w => ?_, m⟩
  · simp [slotOf, entryOf, runPlaces, h, k]
  · simp only [slotOf, entryOf, runPlaces, h, k, e, f, List.isEmpty_nil, if_true, List.mem_append, List.mem_map, Loc.add] at w
    obtain ⟨j, -, rfl⟩ | ⟨j, -, rfl⟩ := w <;> exact ⟨_, rfl⟩

/-- A QRES that spills, and a QREL that the ring's oldest position follows. -/
theorem witness_StageQueues_clamps :
    Starts (clamping (ringed []) qs) hd (cmdOf qs) 0 0 (queueReqs (.res false) 0x2040 0x3000) [.phys 0x2040, .phys 0x3000] none ∧
    (clamping (ringed []) qs).qSpent 0 (.res false) 0x2040 = false ∧ (clamping (ringed []) qs).qReady 0 (.res false) 0x2040 = true ∧
    (clamping (ringed []) qs).findQ 0 0x2040 = some (ringed []) ∧ (∀ x ∈ (ringed []).slots, x ≠ .free) ∧
    (ringed []).slots[0]? = some (.full 7) ∧
    (∀ m < 3, ∀ k < 9, (ringed []).slots[m]? = some (.full k) → m = 0 ∨ k < 7) ∧
    ((ringed []).spill - (ringed []).fill).toNat < (ringed []).quota ∧
    Clamped (clamping (ringed []) qs) (ringed []) 0 (ringed []).spill true (slotOf (ringed []) 0) (entryOf (ringed []) 1) ∧
    Starts (clamping (ringed [5]) qr) hd (cmdOf qr) 0 0 (queueReqs (.rel 0x8080) 0x2040 0) [.phys 0x2040] none ∧
    Earlier (clamping (ringed [5]) qr) hd.cls ∧ (ringed [5]).slotOfVa 0x8080 = some 1 ∧
    (ringed [5]).slots[1]? = some (.claimed 2) ∧ (clamping (ringed [5]) qr).findQ 0 0x2040 = some (ringed [5]) ∧
    Clamped (clamping (ringed [5]) qr) (ringed [5]) 1 (ringed [5]).fill false (slotOf (ringed [5]) 1) (entryOf (ringed [5]) 0) := by
  refine ⟨starts_res _ _ _ _ _ _ _ rfl ?_ ?_ ?_ ?_ ?_ ?_ ?_, ?_, ?_, ?_, ?_, ?_, ?_, ?_, clamped_of _ _ _ _ _ rfl rfl _ _ rfl rfl ?_,
    starts_of _ _ _ _ _ _ _ ?_ ?_ ?_ ?_ (addrs_one _ _ _ _ ?_ rfl) ?_, earlier_of _ ?_, ?_, ?_, ?_,
    clamped_of _ _ _ _ _ rfl rfl _ _ rfl rfl ?_⟩ <;>
    first | (unfold TokensThere; decide +kernel) | decide +kernel

/-- No slot is free and no position may be spilled: QRES waits; nothing is full: QACQ waits. -/
def outOfRing : StageQ := { ringed [] with spill := 2, fill := 0 }
def nothing : StageQ := { ringed [] with slots := [.free], nextClaim := 3 }
theorem witness_StageQueues_waits :
    Starts (clamping outOfRing qs) hd (cmdOf qs) 0 0 (queueReqs (.res false) 0x2040 0x3000) [.phys 0x2040, .phys 0x3000] none ∧
    (clamping outOfRing qs).qSpent 0 (.res false) 0x2040 = false ∧ (clamping outOfRing qs).qReady 0 (.res false) 0x2040 = false ∧
    Starts (clamping nothing qa) hd (cmdOf qa) 0 0 (queueReqs .acq 0x2040 0x3000) [.phys 0x2040, .phys 0x3000] none ∧
    (clamping nothing qa).qReady 0 .acq 0x2040 = false := by
  refine ⟨starts_res _ _ _ _ _ _ _ rfl ?_ ?_ ?_ ?_ ?_ ?_ ?_, ?_, ?_, starts_res _ _ _ _ _ _ _ rfl ?_ ?_ ?_ ?_ ?_ ?_ ?_, ?_⟩ <;>
    first | (unfold TokensThere; decide +kernel) | decide +kernel

/-- A QACQ behind a parked command. -/
def heldQ : State := (behind parkedCn qa).modCore 0 fun c => { c with sqt := [stq1] }

theorem witness_StageQueues_held :
    Starts heldQ hd (cmdOf qa) 0 0 (queueReqs .acq 0x2040 0x3000) [.phys 0x2040, .phys 0x3000] none ∧
    heldQ.qSpent 0 .acq 0x2040 = false ∧ heldQ.qReady 0 .acq 0x2040 = true ∧ ¬ Unheld heldQ (cmdOf qa) [] [] := by
  refine ⟨⟨?_, fun _ m => absurd m List.not_mem_nil, ?_, fun x => absurd x (by decide +kernel), ?_,
    addrs_two _ _ _ _ _ _ ?_ rfl ?_ rfl, ?_, rfl⟩, ?_, ?_, held_of _ _ _ _ parkedCn ?_ ?_ ?_ rfl (by decide)⟩ <;>
    first | decide +kernel | (unfold Ordered; decide +kernel)

/-- Bent 0 holds a queue with a free slot and two positions in its ring. -/
def stq2 : StageQ := { stq with size := 128, base := .phys 0x40000000008000, slots := [.full 3, .free], ring := [4, 5], spill := 2 }
def spilled (l : List Nat) : State := (paged user).modBent 0 fun b => { b with sqt := [{ stq2 with ring := l }] }

theorem witness_ClampRefills : ((spilled []).bent 0).sqt[0]? = some { stq2 with ring := [] } ∧
    ((spilled [4, 5]).bent 0).sqt[0]? = some stq2 ∧ stq2.slots.findIdx? (fun x => x == .free) = some 1 ∧ stq2.ring = 4 :: [5] ∧
    Canonical (spilled [4, 5]) ∧
    Clamped (spilled [4, 5]) stq2 1 stq2.fill false (slotOf stq2 1) (entryOf stq2 0) := by
  refine ⟨?_, ?_, ?_, ?_, ?_, clamped_of _ _ _ _ _ rfl rfl _ _ rfl rfl ?_⟩ <;> first | (unfold Canonical; decide +kernel) | decide +kernel

/-- The frames of the ring change their form. -/
theorem witness_ClampRefills_held :
    let s := (spilled [4, 5]).modCtl 0 fun c => { c with chg := some 0x0100 }
    (s.bent 0).sqt[0]? = some stq2 ∧ (entryOf stq2 0).length = stq2.size ∧ stq2.size % 128 = 0 ∧
    (entryOf stq2 0)[128 * 0]? = some (.phys 0xA000) ∧ s.formHeld (.phys 0xA000) = true ∧ ∀ y ∈ stq2.cruns, y.2 % 128 = 0 := by
  refine ⟨?_, ?_, ?_, ?_, ?_, ?_⟩ <;> decide +kernel

/-! Chains. -/

/-- The nonzero bytes of words at an address. -/
def code (a : Nat) (ws : List W32) : Memory :=
  ((ws.flatMap fun w => bytesOfNat w.toNat 4).zipIdx a).filterMap fun x => if x.1 = 0 then none else some (x.2, x.1)

def ce : Instr := .cend hd
def cl : Instr := .clink hd 0x6800
def co : Instr := .cloop hd 1
def chain0 : Chain := { (default : Chain) with fetch := 0x6000, head := 0x6000, tail := 0x7000 }
/-- Queue S has a chain at 0x6000 whose next command is `i`. -/
def chained (f : Chain → Chain) (i : Instr) : State :=
  let s := paged ((at0 id id).modEng 0 .s fun g => { g with chain := f chain0 })
  { s with mem := s.mem ++ code 0x6000 (encode i) }

theorem fetches_of (s : State) (ws : List W32)
    (a : s.stalled 0 = false ∧ s.halted 0 = false ∧ s.changing = false ∧ (s.eng 0 .s).chain.stopped = false ∧ (s.eng 0 .s).chain.ticket = none)
    (b : (s.eng 0 .s).q.length < depth .s ∧ s.faultRoom (bentOf 0) = true)
    (c : (s.eng 0 .s).chain.start = none → (s.eng 0 .s).chain.fetch ≠ (s.eng 0 .s).chain.tail)
    (d : ((s.eng 0 .s).chain.fetch - (s.eng 0 .s).chain.start.getD (s.eng 0 .s).chain.fetch).toNat + 4 * ws.length ≤ 4096)
    (e : s.fetchWords 0 (s.eng 0 .s).chain.fetch ws.length = .ok ws) (f : ws.length = 1 + H.xwc (ws.headD 0)) :
    Fetches s 0 .s ws := ⟨a, b, c, d, e, f⟩

theorem witness_ChainsFetched :
    Fetches (chained id ce) 0 .s (encode ce) ∧ headerCheck ((encode ce).headD 0) { ep := .s, x := false } = none ∧
    decodeCmd (encode ce) = some ce ∧ Fetches (chained id cl) 0 .s (encode cl) ∧ decodeCmd (encode cl) = some cl ∧
    headerCheck ((encode cl).headD 0) { ep := .s, x := false } = none ∧
    Fetches (chained id cn) 0 .s (encode cn) ∧ headerCheck ((encode cn).headD 0) { ep := .s, x := false } = none := by
  refine ⟨fetches_of _ _ ?_ ?_ ?_ ?_ ?_ ?_, ?_, ?_, fetches_of _ _ ?_ ?_ ?_ ?_ ?_ ?_, ?_, ?_,
    fetches_of _ _ ?_ ?_ ?_ ?_ ?_ ?_, ?_⟩ <;> decide +kernel

/-- The three courses of a CLOOP, and an endpoint with nothing to fetch. -/
theorem witness_ChainsFetched_loops :
    Fetches (chained id co) 0 .s (encode co) ∧ headerCheck ((encode co).headD 0) { ep := .s, x := false } = none ∧
    decodeCmd (encode co) = some co ∧ (Claims.opened ((chained id co).eng 0 .s).chain).looped = false ∧
    (Claims.opened ((chained id co).eng 0 .s).chain).loop.getD (1#16).toNat = 0 + 1 ∧
    Fetches (chained (fun c => { c with start := some 0x6000, loop := some 0 }) co) 0 .s (encode co) ∧
    (Claims.opened ((chained (fun c => { c with start := some 0x6000, loop := some 0 }) co).eng 0 .s).chain).looped = false ∧
    (Claims.opened ((chained (fun c => { c with start := some 0x6000, loop := some 0 }) co).eng 0 .s).chain).loop.getD 1 = 0 ∧
    Fetches (chained (fun c => { c with start := some 0x6000, looped := true }) co) 0 .s (encode co) ∧
    (Claims.opened ((chained (fun c => { c with start := some 0x6000, looped := true }) co).eng 0 .s).chain).looped = true ∧
    (user.eng 0 .s).chain.start = none ∧ (user.eng 0 .s).chain.fetch = (user.eng 0 .s).chain.tail := by
  refine ⟨fetches_of _ _ ?_ ?_ ?_ ?_ ?_ ?_, ?_, ?_, ?_, ?_, fetches_of _ _ ?_ ?_ ?_ ?_ ?_ ?_, ?_, ?_,
    fetches_of _ _ ?_ ?_ ?_ ?_ ?_ ?_, ?_⟩ <;> decide +kernel

/-- The fetch stands at word 1,023 of its block, before a command of three words. -/
theorem witness_ChainsFetched_past :
    let s := chained (fun c => { c with start := some 0x5004 }) cl
    s.fetchWords 0 (s.eng 0 .s).chain.fetch 1 = .ok [(encode cl).headD 0] ∧ H.xwc ((encode cl).headD 0) = 2 ∧
    4096 < ((s.eng 0 .s).chain.fetch - 0x5004).toNat + 4 * (1 + H.xwc ((encode cl).headD 0)) := by
  refine ⟨?_, ?_, ?_⟩ <;> decide +kernel

/-- A flow command at the head that came through the chain, or through EPUSH. -/
def flowing (b : Bool) : State :=
  (at0 id id).modEng 0 .l fun g => { g with q := [{ cmdOf ce with chain := b }] }

theorem witness_FlowCommands : flow ce = some hd ∧
    Starts (flowing true) hd { cmdOf ce with chain := true } 0 0 [] [] none ∧
    ((flowing false).eng 0 (flowing false).sched.ep).q.head? = some (cmdOf ce) ∧ (flowing false).flt.on = false ∧
    ((flowing false).bent (bentOf 0)).faults.length < 64 ∧ Unheld (flowing true) { cmdOf ce with chain := true } [] [] := by
  refine ⟨rfl, ⟨?_, ?_, ?_, fun _ => ?_, ?_, rfl, ?_, rfl⟩, ?_, ?_, ?_, unheld_of _ ?_⟩ <;>
    first | decide +kernel | (unfold Ordered; decide +kernel) | (unfold TokensThere; decide +kernel)

/-- A CEND of the chain behind a parked command of its class. -/
def flowHeld : State := (flowing true).modCore 0 fun c => { c with flights := [{ parkedCn with ep := .l }], nextOrd := 1 }

theorem witness_FlowCommands_held : Starts flowHeld hd { cmdOf ce with chain := true } 0 0 [] [] none ∧
    ¬ Unheld flowHeld { cmdOf ce with chain := true } [] [] := by
  refine ⟨⟨?_, ?_, ?_, fun x => absurd x (by decide +kernel), ?_, rfl, ?_, rfl⟩,
    held_of _ _ _ _ { parkedCn with ep := .l } ?_ ?_ ?_ rfl (by decide)⟩ <;>
    first | decide +kernel | (unfold Ordered; decide +kernel) | (unfold TokensThere; decide +kernel)

/-- Core 0 has a CPY in flight that is finished, with a counter to add to and a token to push. -/
def flight1 : Flight := { flight0 with finished := true, ticket := none, ctr := some (.phys 0x2008, 5), sig := some .v, blk := some 2 }
def flight2 : Flight := { flight1 with ord := 1 }
def flight3 : Flight := { flight1 with ord := 2, finished := false }
def retiring (l : List Flight) (b : Bool) : State :=
  paged (at0 (fun c =>
    { c with flights := l, nextOrd := 3,
             eng := vmod c.eng Ep.s.idx.val fun g => { g with chain := { g.chain with blks := [⟨2, b⟩], blkNo := 2 } } }) id)

theorem witness_CommandsRetired :
    ((retiring [flight1] true).eng 0 .s).chain.blks = ⟨2, true⟩ :: [] ∧ (retiring [flight1] true).stalled 0 = false ∧
    (retiring [flight1, flight2] true).formHeld (.phys 0x2008) = false ∧ (retiring [flight1, flight2] true).stalled 0 = false ∧
    (∀ x ∈ ((retiring [flight1] true).eng 0 .s).q, x.chain = true → x.blk ≠ 2) ∧
    (∀ f ∈ ((retiring [flight1] true).core 0).flights, f.ep = .s → f.blk = some 2 → f.finished = true) ∧
    (∃ f ∈ ((retiring [flight1, flight3] true).core 0).flights, f.ep = .s ∧ f.blk = some 2 ∧ f.finished = false) ∧
    Ordered (retiring [flight1, flight2] true) ∧
    ((retiring [flight1, flight2] true).core 0).flights[0]? = some flight1 ∧ flight1.sig = some .v ∧
    ((retiring [flight1, flight2] true).core 0).flights[1]? = some flight2 ∧
    vget ((retiring [flight1, flight2] true).core 0).tok (tokIdx .s .v) < 16 ∧
    PlainAt (retiring [flight1, flight2] true) (.phys 0x2008) 8 ∧ Canonical (retiring [flight1, flight2] true) ∧
    (∃ g ∈ ((retiring [flight1, flight2] true).core 0).flights.take 1, g.ep = flight2.ep ∧
      g.ctr = some (.phys 0x2008, 5)) := by
  unfold Ordered PlainAt Canonical; decide +kernel

/-! ### The premises of the statements can be met: the matrix engine -/

def fp8 : MFmt := { (default : MFmt) with afmt := 6, bfmt := 6 }
/-- A nest of one level whose count is 1: two steps, of INT8 blocks of 32. -/
def me0 : Me := { (default : Me) with nested := true, kstep := 32, shadow := vset (vgen 48 fun _ => 0) 0 1,
                                      active := vset (vset (vgen 48 fun _ => 0) 0 1) 2 0x1000 }
/-- The core's ME with `f`, and `i` at the head of queue M. -/
def matrixed (f : Me → Me) (i : Instr) : State := (headed .m i).modMe 0 fun _ => f me0

def mf : Instr := .mfmt hd fp8
def mfBad : Instr := .mfmt hd { fp8 with sat := true, bfmt := 0 }
def mn : Instr := .mnest hd 32 0
def mz : Instr := .mzero hd 5
def mh : MHadOps := { qm := 1, n := 0, fo := false, h := 2 }

theorem witness_MatrixCommands :
    Starts (matrixed id mf) hd (cmdOf mf) 0 0 [] [] none ∧ mfmtOk fp8 = true ∧
    Starts (matrixed id mn) hd (cmdOf mn) 0 0 [] [] none ∧ mnestOk ((matrixed id mn).me 0).shadow 32 0 = true ∧
    Starts (matrixed id mz) hd (cmdOf mz) 0 0 [] [] none ∧
    Starts (matrixed (fun m => { m with fmt := fp8 }) (.mhad hd mh)) hd (cmdOf (.mhad hd mh)) 0 0 [] [] none ∧
    ((matrixed (fun m => { m with fmt := fp8 }) (.mhad hd mh)).me 0).fmt.afmt ≠ 0 ∧ mh.n ≠ 3 ∧ mh.qm ≠ 0 ∧
    ((matrixed id mfBad).eng 0 (matrixed id mfBad).sched.ep).q.head? = some (cmdOf mfBad) ∧
    mfmtOk { fp8 with sat := true, bfmt := 0 } = false ∧ (matrixed id mfBad).flt.on = false ∧
    ((matrixed id mfBad).bent (bentOf 0)).faults.length < 64 := by
  refine ⟨starts_none _ _ _ ?_ ?_ ?_ ?_, ?_, starts_none _ _ _ ?_ ?_ ?_ ?_, ?_, starts_none _ _ _ ?_ ?_ ?_ ?_,
    starts_none _ _ _ ?_ ?_ ?_ ?_, ?_⟩ <;>
    first | (unfold TokensThere; decide +kernel) | decide +kernel

def mg : MGoOps := { pre := false, qm := 1, a := 0xFFFFFFFE00000, b := 0xFFFFFFFE10000, sa := 0, sb := 0, c := 2 }
def mb : MBldOps := { pod := false, qm := 1, src := 0xFFFFFFFE10000, ssrc := 0 }
def md : MDrnOps := { (default : MDrnOps) with qm := 2, dst := 0xFFFFFFFE20000, mstr := 512, fmt := 4, zero := true }

theorem witness_MatrixStarts :
    Starts (matrixed id (.mgo hd mg)) hd (cmdOf (.mgo hd mg)) 0 0 [] [] none ∧
    mgoOk mg (matrixed id (.mgo hd mg)) 0 = true ∧
    Starts (matrixed id (.mbld hd mb)) hd (cmdOf (.mbld hd mb)) 0 0 [] [] none ∧
    mbldOk mb (matrixed id (.mbld hd mb)) 0 = true ∧
    Starts (matrixed (fun m => { m with fmt := fp8 }) (.mdrn hd md)) hd (cmdOf (.mdrn hd md)) 0 0 [] [] none ∧
    mdrnOk md ((matrixed (fun m => { m with fmt := fp8 }) (.mdrn hd md)).me 0) = true ∧ md.qm.getLsbD 1 = true ∧
    md.qm.getLsbD 0 = false ∧ ((matrixed (fun m => { m with fmt := fp8 }) (.mdrn hd md)).core 0).rng.mPend = false := by
  refine ⟨starts_none _ _ _ ?_ ?_ ?_ ?_, ?_, starts_none _ _ _ ?_ ?_ ?_ ?_, ?_, starts_none _ _ _ ?_ ?_ ?_ ?_, ?_⟩ <;>
    first | (unfold TokensThere; decide +kernel) | decide +kernel

/-- A running MGO at its first step. -/
def run0 : MRun :=
  { (default : MRun) with ord := 4, c := mg, idx := [0], first := true, aRows := #[], aScales := #[], aHeld := 0 }
def bank0 : Bank := { id := some ((me0).idOf 1 mg.b 0), rows := (List.replicate 32 0).toArray, scales := #[] }
def running : State := matrixed (fun m => { m with run := some run0, banks := vset m.banks 1 bank0 }) cn
def starved : State := matrixed (fun m => { m with run := some run0 }) cn
def step0 : StepAddr := (running.me 0).stepAddr run0.c run0.idx

theorem witness_MatrixSteps : Works running 0 ∧ (running.me 0).drn = none ∧ (running.me 0).run = some run0 ∧
    StepReady running 0 run0 step0 (List.replicate 8 0).toArray [].toArray := by
  refine ⟨by unfold Works; decide +kernel, by decide +kernel, by decide +kernel, rfl, fun _ => by decide +kernel, ?_⟩
  rw [if_pos (by decide +kernel)]
  exact ⟨List.replicate 8 0, [], by decide +kernel, rfl, rfl⟩

theorem witness_MatrixSteps_waits : Works starved 0 ∧ (starved.me 0).run = some run0 ∧ run0.needB step0 = true ∧
    (starved.me 0).spareServes run0 step0 = false ∧ (starved.me 0).fmt.apod = false ∧
    starved.takeB 0 (starved.me 0).fmt 32 1 false step0.b step0.sb = .got (List.replicate 32 0) [] := by
  unfold Works; decide +kernel

theorem witness_BlocksLoaded : Works starved 0 ∧ (starved.me 0).run = some run0 ∧ (starved.me 0).bld = none ∧
    (starved.me 0).loadFor run0 = some [0] ∧
    starved.takeB 0 (starved.me 0).fmt 32 1 false step0.b step0.sb = .got (List.replicate 32 0) [] ∧
    ((matrixed (fun m => { m with bld := some (4, mb) }) cn).me 0).bld = some (4, mb) ∧
    (matrixed (fun m => { m with bld := some (4, mb) }) cn).takeB 0 (starved.me 0).fmt 32 1 false mb.src mb.ssrc =
      .got (List.replicate 32 0) [] := by unfold Works; decide +kernel

def drain0 : Flight :=
  { (default : Flight) with ord := 4, ep := .m, words := encode (.mdrn hd md), ticket := none, finished := false }
/-- An MDRN at row 0 of quadrant 1. -/
def draining : State :=
  (matrixed (fun m => { m with fmt := fp8, drn := some (4, 128) }) cn).modCore 0 fun c => { c with flights := [drain0], nextOrd := 5 }
def places : List Loc := (List.range 512).map fun i => .spad (0x20000 + i)

theorem witness_DrainsWritten : Works draining 0 ∧ (draining.me 0).drn = some (4, 128) ∧
    (draining.core 0).flight? 4 = some drain0 ∧ decodeCmd drain0.words = some (.mdrn hd md) ∧
    (drainRow (isInt8 (draining.me 0).fmt) md (vget (vget (draining.me 0).acc 1) 0) (vlist (draining.core 0).rng.mg)).1.length =
      512 ∧
    (drainRow (isInt8 (draining.me 0).fmt) md (vget (vget (draining.me 0).acc 1) 0) (vlist (draining.core 0).rng.mg)).2.1 = [] ∧
    draining.placeVa 0 (md.dst + BitVec.ofNat 64 0 * md.mstr.signExtend 64 + BitVec.ofNat 64 1 * md.qstr.signExtend 64)
      .write 512 = .ok places ∧
    draining.placeVa 0 (md.sdst + BitVec.ofNat 64 (4 * 128)) .write 0 = .ok [] ∧ drain0.ticket = none ∧
    (∀ l ∈ places, draining.isOnChip l = true ∧ draining.slotWritable 0 l 1 = true ∧ draining.formHeld l = false) ∧ Canonical draining := by
  unfold Works Canonical; decide +kernel

/-- An MGO with no nest and an MBLD from a ring that B has not, behind a running MGO. -/
def nestless (i : Instr) : State := matrixed (fun m => { m with run := some run0, nested := false }) i
def mbp : MBldOps := { mb with pod := true }

theorem witness_MatrixCommands_fault : ∀ i ∈ [Instr.mgo hd mg, Instr.mbld hd mbp],
    ((nestless i).me (nestless i).p).nested = false ∧ ((nestless i).me (nestless i).p).fmt.bpod = false ∧
    ((nestless i).eng (nestless i).p (nestless i).sched.ep).q.head? = some (cmdOf i) ∧ (nestless i).flt.on = false ∧
    ((nestless i).bent (bentOf (nestless i).p)).faults.length < 64 := by decide +kernel

/-! ### The premises of the statements can be met: the vector engine -/

def vec7 : Vec := vecOfBytes (List.replicate 128 7)
def flightV : Flight := { (default : Flight) with ord := 4, ep := .v, words := [0x60000000], ticket := none, finished := false }
def runV : VRun := { (default : VRun) with ord := 4, len := 1 }
/-- Core 0's VE as `f` makes it, with a run in flight, and `i` at the head of queue V. -/
def vectored (f : Ve → Ve) (i : Instr) : State :=
  (headed .v i).modCore 0 fun c => { c with flights := [flightV], nextOrd := 5, ve := f { c.ve with run := some runV } }
/-- The same with no run. -/
def still (i : Instr) : State := headed .v i

def vb : Instr := .vbase hd 3 0x5000
def vd (r : W32) : Instr := .vsdesc hd 3 { (default : SDesc) with dctl := r }
def vr : VRunOps := { (default : VRunOps) with img := 0xFFFFFFFE00000, entry := 5, len := 1 }
def vs : Instr := .vstop hd true

theorem ordered_vectored : Ordered (vectored id vs) := by unfold Ordered; decide +kernel

theorem witness_VectorCommands :
    Starts (still vb) hd (cmdOf vb) 0 0 [] [] none ∧ Starts (still (vd 0)) hd (cmdOf (vd 0)) 0 0 [] [] none ∧
    vsdescOk 3 { (default : SDesc) with dctl := 0 } = true ∧ Starts (still (vd 4)) hd (cmdOf (vd 4)) 0 0 [] [] none ∧
    vsdescOk 3 { (default : SDesc) with dctl := 4 } = false ∧ (still (vd 4)).flt.on = false ∧
    ((still (vd 4)).bent (bentOf 0)).faults.length < 64 ∧
    Starts (still (.vrun hd vr)) hd (cmdOf (.vrun hd vr)) 0 0 [] [] none ∧ vrunOk vr = true ∧
    ((still (.vrun hd vr)).core 0).rng.vPend = false ∧ ((still (.vrun hd vr)).ve 0).tag = none ∧
    ((still (.vrun hd vr)).tableWords 0 vr.img vr.len.toNat).toOption.map (·.2) = some (List.replicate 32 0) ∧
    Starts (still vs) hd (cmdOf vs) 0 0 [] [] none ∧ ((still vs).ve 0).run = none ∧
    Starts (vectored id vs) hd (cmdOf vs) 0 0 [] [] none ∧ ((vectored id vs).ve 0).run ≠ none := by
  refine ⟨starts_none _ _ _ ?_ ?_ ?_ ?_, starts_none _ _ _ ?_ ?_ ?_ ?_, ?_, starts_none _ _ _ ?_ ?_ ?_ ?_, ?_, ?_, ?_,
    starts_none _ _ _ ?_ ?_ ?_ ?_, ?_, ?_, ?_, ?_, starts_none _ _ _ ?_ ?_ ?_ ?_, ?_,
    ⟨?_, ?_, ?_, fun _ => ?_, ordered_vectored, rfl, ?_, rfl⟩, ?_⟩ <;>
    first | (unfold TokensThere; decide +kernel) | decide +kernel

def ent7 (v : Option Vec) : OqEntry := { loc := .spad 0x80, val := v, req := 0, sym := none }
def inj0 : InjOp := { eob := true, strm := 1, oq := 2, keep := false }
def drn0 : DrnOp := { eob := true, strm := 1, wq := 2 }
def srd0 : SrdOp := { eob := true, sd := 3, oq := 2, rst := false }
def swr0 : SwrOp := { eob := true, sd := 3, wq := 2, rst := true }
/-- Operand queue 2 holds a vector; descriptor 3 serves operand queue 5. -/
def fedVe : State := vectored (fun v => { v with oq := vset v.oq 2 [ent7 (some vec7)], oqAtt := vset v.oqAtt 5 (some 3) }) cn
def full : State := vectored (fun v => { v with wq := vset v.wq 2 (List.replicate 16 vec7) }) cn
def bare : State := vectored id cn

theorem witness_StreamOrders : vget (fedVe.ve fedVe.p).oq 2 = ent7 (some vec7) :: [] ∧ vget (bare.ve bare.p).oq 2 = [] ∧
    (vget (bare.ve bare.p).wq 2).length < 16 ∧ 16 ≤ (vget (full.ve full.p).wq 2).length ∧
    MayAttach (bare.ve bare.p) srd0.sd (some srd0.oq.toNat) none ∧ dIdxEn ((bare.ve bare.p).sdOf 3).d = false ∧
    MayAttach (bare.ve bare.p) swr0.sd none (some swr0.wq.toNat) ∧
    (fedVe.ve fedVe.p).refuses srd0.sd (some srd0.oq.toNat) none = true ∧ fedVe.flt.on = false := by
  unfold MayAttach; decide +kernel

def time0 (c : BitVec 8) : TimeOp := { eob := true, c := c, k := 0, sym := 2, cut := false }
/-- Loop counter 1 is armed at 2, loop counter 2 at 0, and the value of 3 is 4. -/
def looping : State := vectored (fun v =>
  { v with armed := vset (vset v.armed 1 true) 2 true, lc := vset v.lc 1 2, lcv := vset v.lcv 3 4 }) cn
def awaited : State := vectored (fun v => { v with oq := vset v.oq 2 [ent7 none] }) cn

theorem witness_ControlOrders : 1 ≤ signedLow 8 ((time0 3).c.setWidth 64) + (time0 3).k.toNat * (0 : Nat) ∧
    signedLow 8 ((time0 0x80).c.setWidth 64) + (time0 0x80).k.toNat * (0 : Nat) < 1 ∧ bare.traceOn 2 (some bare.p) = false ∧
    (bare.sym 0 2).valid = false ∧ vget (looping.ve 0).armed 1 = true ∧ vget (looping.ve 0).lc 1 = 1 + 1 ∧
    vget (looping.ve 0).armed 2 = true ∧ vget (looping.ve 0).lc 2 = 0 ∧ vget (looping.ve 0).armed 3 = false ∧
    (vget (looping.ve 0).lcv 3).toNat = 3 + 1 := by decide +kernel

theorem witness_ControlOrders_halt : (bare.ve bare.p).run = some runV ∧ (bare.ve bare.p).stopr = none ∧
    (bare.core bare.p).flight? runV.ord = some flightV ∧ flightV.finished = false ∧
    (∀ i, i < 8 → vget (bare.ve bare.p).oq i = []) ∧ (∀ i, i < 4 → vget (bare.ve bare.p).wq i = []) ∧
    ent7 none ∈ vget (awaited.ve awaited.p).oq 2 ∧ (ent7 none).val = none := by decide +kernel

/-- The table holds one bundle of `i`. -/
def issuing (i : Instr) : State := vectored (fun v => { v with due := 1, table := encode i }) cn
def vnot : Instr := .vnot { (default : StOrd) with eob := true, stn := 1 }
def noEnd : State := vectored (fun v => { v with due := 1 }) cn

theorem works_bare (s : State) (h : s.stalled 0 = false ∧ s.halted 0 = false ∧ s.faultRoom (bentOf 0) = true) : Works s 0 := h

theorem working_of (s : State) (r : VRun) (f : Flight) (h : s.stalled 0 = false ∧ s.halted 0 = false ∧ s.faultRoom (bentOf 0) = true)
    (a : (s.ve 0).run = some r) (b : (s.core 0).flight? r.ord = some f) (c : f.ticket = none ∧ f.waiting = false)
    (d : (s.ve 0).cutw = false ∧ (s.ve 0).held = false ∧ (s.ve 0).stopr = none ∧ (s.ve 0).ending = none)
    (e : (s.ve 0).due = (s.ve 0).counter + 1) : Working s 0 :=
  ⟨h, ⟨r, a, fun g x => by rw [b] at x; cases x; exact c⟩, d, e⟩

theorem witness_BundlesIssue : bare.trace.ctl.getLsbD 0 = false ∧ Issuing (issuing vnot) 0 (encode vnot) [vnot] ∧
    (stationAct vnot).isSome = true ∧ Issuing (issuing (.jmpt true 7)) 0 (encode (.jmpt true 7)) [.jmpt true 7] ∧
    Issuing (issuing (.inj inj0)) 0 (encode (.inj inj0)) [.inj inj0] ∧
    vget ((issuing (.inj inj0)).ve 0).oq inj0.oq.toNat = [] ∧ Working noEnd 0 ∧
    (noEnd.ve 0).bundle (noEnd.ve 0).step 14 = none ∧ noEnd.flt.on = false := by
  refine ⟨?_, ⟨working_of _ runV flightV ?_ ?_ ?_ ?_ ?_ ?_, ?_, ?_⟩, ?_, ⟨working_of _ runV flightV ?_ ?_ ?_ ?_ ?_ ?_, ?_, ?_⟩,
    ⟨working_of _ runV flightV ?_ ?_ ?_ ?_ ?_ ?_, ?_, ?_⟩, ?_, working_of _ runV flightV ?_ ?_ ?_ ?_ ?_ ?_, ?_⟩ <;>
    decide +kernel

/-- Symbol 2 has a full window. -/
def sampled : State := user.modSym 0 2 fun _ =>
  { (default : Sym) with valid := true, lo := 2, hi := 90, bind := 20, wmax := 30, cnt := 4096, full := true }
theorem witness_WindowsClose : (sampled.sym 0 2).valid = true ∧ (sampled.sym 0 2).full = true ∧
    sampled.traceOn 2 (some 0) = false ∧ (sampled.sym 0 3).valid = false := by decide +kernel

/-- A cut drains: a vector still stands in a slot, or none does and symbol 2 has a binding pending. -/
def cutting (b : Bool) : State :=
  (vectored (fun v => { v with cutw := true, slots := if b then vset v.slots 4 (some vec7) else v.slots,
                               table := encode (.time { time0 3 with cut := true }) }) cn).modSym 0 2 fun _ =>
    { (default : Sym) with valid := true, pend := true, pbind := 30 }

theorem witness_CutsDrain : Works (cutting true) 0 ∧ ((cutting true).ve 0).ending = none ∧ ((cutting true).ve 0).cutw = true ∧
    ((cutting true).ve 0).stopr = none ∧ ((cutting true).ve 0).run = some runV ∧
    ((cutting true).core 0).flight? runV.ord = some flightV ∧ vget ((cutting true).ve 0).slots 4 = some vec7 ∧
    (∀ i, i < 144 → vget ((cutting false).ve 0).slots i = none) ∧ (∀ i, i < 8 → vget ((cutting false).ve 0).oq i = []) ∧
    (∀ i, i < 4 → vget ((cutting false).ve 0).wq i = []) ∧ ((cutting false).core 0).dbg.dbgctl.getLsbD 8 = false ∧
    (cutting false).trace.ctl.getLsbD 0 = false ∧
    ((cutting false).ve 0).bundle ((cutting false).ve 0).step 14 = some (encode (.time { time0 3 with cut := true })) ∧
    isCut (encode (.time { time0 3 with cut := true })) = true ∧ ((cutting false).sym 0 2).pend = true := by
  unfold Works; decide +kernel

/-- Descriptor 3 walks the scratchpad, for operand queue 2 and write queue 1. -/
def walking : State := vectored (fun v =>
  { v with sd := vset v.sd 3 { (default : SdState) with d := { (default : SDesc) with base := 0xFFFFFFFE00800, cnt0 := 3, str0 := 128 } },
           oqAtt := vset v.oqAtt 2 (some 3), wqAtt := vset v.wqAtt 1 (some 3),
           oq := vset v.oq 4 [ent7 (some vec7), ent7 none], wq := vset v.wq 1 [vec7] }) cn
def desc3 : SdState := (walking.ve 0).sdOf 3

theorem witness_WalksRun : Works walking 0 ∧ (walking.ve 0).ending = none ∧ (walking.ve 0).cutw = false ∧
    (walking.ve 0).run = some runV ∧ vget (walking.ve 0).oqAtt 2 = some 3 ∧ dIdxEn desc3.d = false ∧ desc3.ticket = none ∧
    desc3.cur < walkLen desc3.d ∧ (vget (walking.ve 0).oq 2).length < 16 ∧ walking.changing = false ∧ walking.stalled 0 = false ∧ (ent7 none).sym = none ∧
    walking.formHeld (ent7 none).loc = false ∧ walking.reachableLoc (ent7 none).loc = true ∧
    walking.engAt 0 (walkAddr desc3.d desc3.cur) 128 .read = .ok (.spad 0x800) ∧ walking.isOnChip (.spad 0x800) = true ∧
    vget (walking.ve 0).oq 4 = [ent7 (some vec7)] ++ ent7 none :: [] ∧ (walking.core 0).testing = false ∧
    vget (walking.ve 0).wqAtt 1 = some 3 ∧ vget (walking.ve 0).wq 1 = vec7 :: [] ∧
    walking.engAt 0 (walkAddr desc3.d desc3.cur) 128 .write = .ok (.spad 0x800) ∧ Canonical walking ∧
    ({ (default : SDesc) with dctl := 3, cnt0 := 3 } : SDesc).dctl.extractLsb' 0 2 = 3 := by
  unfold Works Canonical; decide +kernel

/-- The landing's bank grants it, or grants a load of CP first. -/
def rival : State := walking.modCore 0 fun c =>
  ({ c with banks := vset c.banks 1 5 }).setCtx .cp
    { c.getCtx .cp with pend := [⟨1, 3, .load 0 (.spad 0x80) 8 false, some (7, false), {}⟩] }
theorem witness_WalksRun_granted : Granted walking 0 3 (ent7 none).loc ∧ ¬ Granted rival 0 3 (ent7 none).loc ∧
    (ent7 none).loc.align 128 = (ent7 none).loc := by
  unfold Granted; dsimp only [ent7]; decide +kernel

/-! Station orders: lane types 0 s8, 2 s32, 3 n8, 6 f32, 7 bf16. -/

def st0 : StOrd := { (default : StOrd) with stn := 2, ds := 1 }
def lt (t : BitVec 3) : StOrd := { st0 with lt := t }

theorem witness_LaneOrders : (∃ f, laneRule (.vadd (lt 2)) user = some (lt 2, f)) ∧ (Instr.vadd (lt 2)).wf = true ∧
    stationOk 0x20 { lt 0 with msk := true } = true ∧ stationOk 0x22 (lt 0) = true ∧
    cvtKind { lt 6 with sb := 3 } = some .same ∧ Fmt.ofCode 3 = some .int32 ∧ stationOk 0x2C (lt 3) = true :=
  ⟨⟨_, rfl⟩, by decide +kernel⟩

theorem witness_MaskOrders : stationOk 0x1F (lt 2) = true ∧ (lt 2).lane.isFloat = false ∧ stationOk 0x1F (lt 6) = true ∧
    (lt 6).lane.isFloat = true ∧ laneOn user (lt 6) 32 3 ∧ ¬ laneOn (onVe user 0 fun v => { v with masks := vset v.masks 2 0 })
      { lt 6 with msk := true } 32 3 ∧ stationOk 0x1F { lt 6 with msk := true } = true ∧ stationOk 0x33 (lt 0) = true := by
  unfold laneOn; decide +kernel

theorem witness_ReductionOrders : stationOk 0x23 { lt 2 with sb := 2 } = true ∧ (lt 2).lane.isFloat = false ∧
    stationOk 0x23 { lt 6 with sb := 5 } = true ∧ (lt 6).lane.isFloat = true ∧ stationOk 0x24 { lt 2 with sb := 2 } = true ∧
    stationOk 0x24 { lt 6 with sb := 5 } = true ∧ stationOk 0x25 { lt 2 with sb := 2 } = true ∧
    stationOk 0x25 { lt 6 with sb := 5 } = true := by decide +kernel

theorem witness_LayoutOrders : cvtKind { lt 6 with sb := 5 } = some .narrow ∧ Fmt.ofCode 5 = some .bf16 ∧
    cvtKind { lt 7 with sb := 4 } = some .widen ∧ Fmt.ofCode 4 = some .fp32 ∧ cvtKind { lt 3 with sb := 0xA } = some .expand ∧
    stationOk 0x2D { lt 3 with sb := 6 } = true ∧ stationOk 0x2D { lt 3 with sb := 8 } = true ∧
    stationOk 0x2D { lt 7 with sb := 5 } = true ∧ stationOk 0x2E { lt 3 with sb := 6 } = true ∧
    stationOk 0x2E { lt 3 with sb := 8 } = true ∧ stationOk 0x2E { lt 7 with sb := 6, rnd := 1 } = true ∧
    stationOk 0x2E { lt 7 with sb := 8, rnd := 1 } = true ∧ stationOk 0x2E { lt 7 with sb := 5, rnd := 1 } = true ∧
    stationOk 0x2F { lt 6 with sb := 9 } = true ∧ stationOk 0x30 { lt 6 with sb := 8 } = true := by decide +kernel

/-- A block with a NaN, one of zeros and one of ones. -/
theorem witness_LayoutOrders_scales : (List.replicate 31 (Val.fin false 0 0) ++ [Val.nan]).length = 32 ∧
    (∃ x ∈ List.replicate 31 (Val.fin false 0 0) ++ [Val.nan], x.isNan = true) ∧
    (∀ x ∈ List.replicate 32 (Val.fin false 0 0), x.isZero = true) ∧ Val.fin false 1 0 ∈ List.replicate 32 (Val.fin false 1 0) ∧
    (∀ x ∈ List.replicate 32 (Val.fin false 1 0), x.isNan = false ∧ x.isInf = false) := by decide +kernel

/-! ### The premises of the statements can be met: Furrow -/

/-- Frames 128 to 255 of stack 0 are compute rows, at addresses from 0x100000000 on. -/
def rowed (i : Instr) : State :=
  let s := headed .s i
  ({ s with mem := (s.mem.take 7) ++ [(0x1010, 0x7B), (0x1016, 0x60), (0x1017, 0x08), (0x1018, 0x7B), (0x101E, 0x80), (0x101F, 0x08),
                    (0x1020, 0xFB), (0x1021, 0x01), (0x1024, 0x02), (0x1027, 0x08)] }).modCtl 0 fun c => { c with fwcc := 0x0101 }

def row (d : Word) (w : Bool) (rec : Word) : Fur :=
  { wrec := w, nofb := false, dst := d, ctr := 0, inc := 0, n1 := 1, reca := rec }
def fc (f : Fur) : Instr := .fcopy hd f 0x100040000
def row1 : Fur := row 0x100001000 false 0
def row2 : Fur := row 0x100001000 true 0xFFFFFFFE00100
def row3 : Fur := row 0x100001004 false 0
def row4 : Fur := row 0xFFFFFFFE00000 false 0

theorem inRows_of (s : State) (va : Word) (acc : Acc) (n a e : Nat) (v : NoViews s) (h : s.furAt s.p va acc = .ok a)
    (k : s.furAt s.p (va + BitVec.ofNat 64 (1024 * n - 1)) acc = .ok e) (c : (s.ctlOf (stackOf a)).chg = none) :
    InRows s s.p va acc n a :=
  ⟨h, ⟨e, k, viewAt_of_noViews s v e⟩, c, fun x _ _ => viewAt_of_noViews s v x⟩

/-- The operands of the FCOPY of two rows to 0x200001000 and of its queries. -/
theorem rows_of (i : Instr) (v : NoViews (rowed i)) (h : (rowed i).furAt 0 0x100001000 .write = .ok 0x200001000)
    (k : (rowed i).furAt 0 (0x100001000 + BitVec.ofNat 64 (1024 * 2 - 1)) .write = .ok 0x2000017FF)
    (c : ((rowed i).ctlOf 0).chg = none) (h' : (rowed i).furAt 0 0x100040000 .read = .ok 0x200040000)
    (k' : (rowed i).furAt 0 (0x100040000 + BitVec.ofNat 64 (1024 * 2 - 1)) .read = .ok 0x2000407FF) :
    RowsAt (rowed i) 0 0x100001000 [0x100040000] 2 0x200001000 [0x200040000] :=
  ⟨inRows_of _ _ _ _ _ _ v h k c, .cons (inRows_of _ _ _ _ _ _ v h' k' c) .nil⟩

theorem witness_FurrowCommands : rowCommand (fc row1) = some (hd, row1, [0x100040000], 0x20, false) ∧
    Starts (rowed (fc row1)) hd (cmdOf (fc row1)) 0 0 [] [] none ∧ Unheld (rowed (fc row1)) (cmdOf (fc row1)) [] [] ∧
    RowsAt (rowed (fc row1)) 0 row1.dst [0x100040000] 2 0x200001000 [0x200040000] ∧
    rejection (rowed (fc row1)) row1.dst [0x100040000] row1.nofb 2 0x200001000 [0x200040000] = none ∧
    ((rowed (fc row1)).ctlOf (stackOf 0x200001000)).cmds = [] := by
  refine ⟨rfl, starts_none _ _ _ ?_ ?_ ?_ ?_, unheld_of _ ?_, rows_of _ ?_ ?_ ?_ ?_ ?_ ?_, ?_⟩ <;>
    first | (unfold TokensThere; decide +kernel) | (unfold NoViews; decide +kernel) | decide +kernel

theorem witness_FurrowCommands_record :
    RecordAt (rowed (fc row2)) 0 row2.reca 16 (.spad 0x100) ∧
    Starts (rowed (fc row2)) hd (cmdOf (fc row2)) 0 0 [] [] none ∧ Unheld (rowed (fc row2)) (cmdOf (fc row2)) [] [] ∧
    RowsAt (rowed (fc row2)) 0 row2.dst [0x100040000] 2 0x200001000 [0x200040000] ∧
    rejection (rowed (fc row2)) row2.dst [0x100040000] row2.nofb 2 0x200001000 [0x200040000] = none := by
  refine ⟨⟨?_, ?_, ?_⟩, starts_none _ _ _ ?_ ?_ ?_ ?_, unheld_of _ ?_, rows_of _ ?_ ?_ ?_ ?_ ?_ ?_, ?_⟩ <;>
    first | (unfold TokensThere; decide +kernel) | (unfold NoViews; decide +kernel) | decide +kernel

theorem witness_FurrowCommands_rejected :
    Starts (rowed (fc row3)) hd (cmdOf (fc row3)) 0 0 [] [] none ∧ Unheld (rowed (fc row3)) (cmdOf (fc row3)) [] [] ∧
    RowsAt (rowed (fc row3)) 0 row3.dst [0x100040000] 2 0x200001004 [0x200040000] ∧
    rejection (rowed (fc row3)) row3.dst [0x100040000] row3.nofb 2 0x200001004 [0x200040000] = some 3 ∧
    (rowed (fc row3)).flt.on = false ∧ (rowed (fc row3)).faultRoom (bentOf 0) = true := by
  refine ⟨starts_none _ _ _ ?_ ?_ ?_ ?_, unheld_of _ ?_,
    ⟨inRows_of _ _ _ _ _ 0x200001803 ?_ ?_ ?_ ?_, .cons (inRows_of _ _ _ _ _ 0x2000407FF ?_ ?_ ?_ ?_) .nil⟩, ?_⟩ <;>
    first | (unfold TokensThere; decide +kernel) | (unfold NoViews; decide +kernel) | decide +kernel

theorem witness_FurrowOutside :
    Starts (rowed (fc row4)) hd (cmdOf (fc row4)) 0 0 [] [] none ∧ Unheld (rowed (fc row4)) (cmdOf (fc row4)) [] [] ∧
    (rowed (fc row4)).furAt 0 row4.dst .write = .bad none ∧
    (rowed (fc row4)).furAt 0 (row4.dst + BitVec.ofNat 64 2047) .write = .bad none ∧
    List.Forall₂ (fun va a => InRows (rowed (fc row4)) 0 va .read 2 a) [0x100040000] [0x200040000] ∧
    (rowed (fc row4)).flt.on = false ∧ (rowed (fc row4)).faultRoom (bentOf 0) = true := by
  refine ⟨starts_none _ _ _ ?_ ?_ ?_ ?_, unheld_of _ ?_, ?_, ?_,
    .cons (inRows_of _ _ _ _ _ 0x2000407FF ?_ ?_ ?_ ?_) .nil, ?_⟩ <;>
    first | (unfold TokensThere; decide +kernel) | (unfold NoViews; decide +kernel) | decide +kernel

def heldRun (n : Nat) (x : FurRun) : State := (rowed (fc row1)).modCtl 0 fun c => { c with cmds := List.replicate n x }
/-- A held FCOPY with both its rows to move, one done, one at an error, one done whose core has left. -/
def fur0 : FurRun := heldRows user 0x20 false 2 0x200001000 [0x200040000] none none
def fur2 : FurRun := { fur0 with row := 2 }
def fur3 : FurRun := { fur0 with row := 1, stop := some 1 }
def fur4 : FurRun := { fur2 with orphan := true }
def flightF : Flight := { (default : Flight) with ord := 0, ep := .s, words := encode (fc row1), finished := false }
def heldBy (x : FurRun) : State := (heldRun 1 x).modCore 0 fun c => { c with flights := [flightF], nextOrd := 1 }

theorem witness_FurrowCommands_full : 64 ≤ ((heldRun 64 fur0).ctlOf (stackOf 0x200001000)).cmds.length := by decide +kernel

theorem witness_RowTurns : Canonical (heldBy fur0) ∧ Ordered (heldBy fur0) ∧
    (∀ x ∈ [fur0, fur2, fur3, fur4], (heldBy x).ctlOf 0 = { (heldBy x).ctlOf 0 with cmds := [x] }) ∧
    (fur0.stop ≠ some fur0.row ∧ fur0.row < fur0.n) ∧ fur3.stop = some fur3.row ∧ fur3.orphan = false ∧
    (heldBy fur3).gangNo fur3.core = none ∧ (fur2.stop ≠ some fur2.row ∧ fur2.n ≤ fur2.row) ∧ (heldBy fur2).furWaits fur2 = false ∧
    (∃ x ∈ ((heldBy fur2).core fur2.core).flights, x.ord = fur2.ord) ∧ stackOf fur2.dst = 0 ∧ fur2.recAt = none ∧
    (heldBy fur4).furWaits fur4 = false ∧ fur4.orphan = true ∧ fur4.ctr = none := by
  unfold Canonical Ordered; decide +kernel

/-- The first source line has kept its bad check bits. -/
def badRow : State := { heldBy fur0 with marks := { (heldBy fur0).marks with bad := [(heldBy fur0).key 0x200040000] } }
theorem witness_RowTurns_bad : badRow.badLine (0x200040000 + 1024 * fur0.row + 128 * 0) = true ∧
    badRow.badLine (0x200040000 + 1024 * fur0.row + 128 * 1) = false ∧ 0x200040000 ∈ fur0.srcs ∧
    (∀ a ∈ fur0.srcs, ∀ j < 8, (heldBy fur0).badLine (a + 1024 * fur0.row + 128 * j) = false) ∧
    (badRow.ctlOf 0).cmds = [fur0] ∧ Canonical badRow ∧ Ordered badRow := by
  unfold Canonical Ordered; decide +kernel

/-- An FCOPY behind a parked command. -/
def furrowHeld : State := (rowed (fc row1)).modCore 0 fun c => { c with flights := [parkedCn], nextOrd := 1 }
theorem witness_FurrowCommands_held : Starts furrowHeld hd (cmdOf (fc row1)) 0 0 [] [] none ∧
    ¬ Unheld furrowHeld (cmdOf (fc row1)) [] [] := by
  refine ⟨⟨?_, fun _ m => absurd m List.not_mem_nil, ?_, fun _ => ?_, ?_, rfl, ?_, rfl⟩,
    held_of _ _ _ _ parkedCn ?_ ?_ ?_ rfl (by decide)⟩ <;>
    first | decide +kernel | (unfold Ordered; decide +kernel)

theorem rowNext_one (s : State) (k : Nat) (f : FurRun) (h : (s.ctlOf k).cmds = [f]) : RowNext s k 0 f := by
  refine ⟨by simp [h], fun g m => ?_⟩
  simp [h] at m

theorem witness_RowTurns_next : ∀ x ∈ [fur0, fur2, fur3, fur4], RowNext (heldBy x) 0 0 x := fun x m =>
  rowNext_one _ _ _ (by rw [witness_RowTurns.2.2.1 x m])

/-- A query for FCOPY, and one whose DST has no translation. -/
def fq (d : Word) : FQryOps :=
  { nofb := false, op := 0, dst := d, ctr := 0, inc := 0, n1 := 1, s1 := 0x100040000, s2 := 0, s3 := 0, res := 0xFFFFFFFE00100 }

theorem witness_FurrowQueries :
    Starts (rowed (.fqry hd (fq 0x100001000))) hd (cmdOf (.fqry hd (fq 0x100001000))) 0 0 [] [] none ∧
    Unheld (rowed (.fqry hd (fq 0x100001000))) (cmdOf (.fqry hd (fq 0x100001000))) [] [] ∧
    RecordAt (rowed (.fqry hd (fq 0x100001000))) 0 (fq 0x100001000).res 8 (.spad 0x100) ∧
    RowsAt (rowed (.fqry hd (fq 0x100001000))) 0 0x100001000 [0x100040000] 2 0x200001000 [0x200040000] ∧
    Canonical (rowed (.fqry hd (fq 0x100001000))) ∧
    Starts (rowed (.fqry hd (fq 0x200000000))) hd (cmdOf (.fqry hd (fq 0x200000000))) 0 0 [] [] none ∧
    (rowed (.fqry hd (fq 0x200000000))).furAt 0 0x200000000 .write = .park 1 ∧
    (∀ x ∈ (rowed (.fqry hd (fq 0x200000000))).furOps 0 (fqryCmd (fq 0x200000000)),
      x.lo.dev.all (fun o => ((rowed (.fqry hd (fq 0x200000000))).ctlOf (stackOf o)).chg == none) = true) := by
  refine ⟨starts_none _ _ _ ?_ ?_ ?_ ?_, unheld_of _ ?_, ⟨?_, ?_, ?_⟩, rows_of _ ?_ ?_ ?_ ?_ ?_ ?_, ?_,
    starts_none _ _ _ ?_ ?_ ?_ ?_, ?_⟩ <;>
    first | (unfold TokensThere; decide +kernel) | (unfold NoViews; decide +kernel) | (unfold Canonical; decide +kernel) | decide +kernel

/-! ### The premises of the statements can be met: gangs -/

/-- Launch queue 2 holds one entry, `e` its address's bytes, and the record at 0x3000 has the nonzero bytes `r`. -/
def launching (r e : Memory) : State :=
  let s := (paged user).modLq 2 fun x => { x with base := 0x4000, size := 16, tail := 1 }
  { s with mem := s.mem ++ r ++ e, ready := { s.ready with rdy := 0x10001, core := vset s.ready.core 0 0xFF } }

def at3000 : Memory := [(0x4001, 0x30)]
def recGood : Memory := [(0x3004, 1), (0x3089, 0x10), (0x30A0, 1), (0x30A2, 1)]
def recBad : Memory := [(0x3004, 2), (0x3089, 0x10), (0x30A0, 1), (0x30A2, 1)]
def recBig : Memory := [(0x3004, 1), (0x3089, 0x10), (0x30A0, 1), (0x30A2, 1), (0x30B9, 0x10)]
def recWait : Memory := [(0x3004, 1), (0x3021, 0x20), (0x3040, 1), (0x3089, 0x10), (0x30A0, 1), (0x30A2, 1)]
/-- The record as the scheduler reads it. -/
def recOf (m : Memory) : LRec := ((launching m at3000).readRecord 0x3000).getD default

/-- Only queue 2 takes records; which the ones listed are changes nothing of that. -/
theorem onlyHead_launching (r e : Memory) : OnlyHead (launching r e) 2 := by
  have h : ∀ q, (launching [] []).lqActive q = decide (q = 2) := by decide +kernel
  exact h

theorem settled (r e : Memory) : (launching r e).changing = false := by
  have h : (launching [] []).changing = false := by decide +kernel
  exact h

theorem witness_GangsPlaced_none : ∀ q, user.lqActive q = false := by decide +kernel

theorem witness_GangsPlaced_dropped : OnlyHead (launching recGood [(0x4000, 8), (0x4001, 0x30)]) 2 ∧ (launching recGood [(0x4000, 8), (0x4001, 0x30)]).changing = false ∧
    (launching recGood [(0x4000, 8), (0x4001, 0x30)]).headEntry 2 = some 0x3008 ∧ (0x3008 : Word).toNat % 256 ≠ 0 :=
  ⟨onlyHead_launching _ _, settled _ _, by decide +kernel⟩

theorem witness_GangsPlaced_malformed : OnlyHead (launching recBad at3000) 2 ∧ (launching recBad at3000).changing = false ∧ (launching recBad at3000).headEntry 2 = some 0x3000 ∧
    (launching recBad at3000).readRecord 0x3000 = some (recOf recBad) ∧ BadRecord (launching recBad at3000) (recOf recBad) ∧
    Canonical (launching recBad at3000) := by
  refine ⟨onlyHead_launching _ _, settled _ _, ?_, ?_, .inr (.inr (.inr (.inr (.inr (.inr (.inr (.inl ?_))))))), ?_⟩ <;>
    first | (unfold Canonical; decide +kernel) | decide +kernel

theorem witness_GangsPlaced_oversize : OnlyHead (launching recBig at3000) 2 ∧ (launching recBig at3000).changing = false ∧ (launching recBig at3000).headEntry 2 = some 0x3000 ∧
    (launching recBig at3000).readRecord 0x3000 = some (recOf recBig) ∧ (launching recBig at3000).malformed (recOf recBig) = false ∧
    BigRecord (recOf recBig) ∧ Canonical (launching recBig at3000) := by
  refine ⟨onlyHead_launching _ _, settled _ _, ?_, ?_, ?_, ⟨(recOf recBig).groups.getD 0 default, ?_, .inl ?_⟩, ?_⟩ <;>
    first | (unfold Canonical; decide +kernel) | decide +kernel

theorem witness_GangsPlaced_waits : OnlyHead (launching recWait at3000) 2 ∧ (launching recWait at3000).changing = false ∧ (launching recWait at3000).headEntry 2 = some 0x3000 ∧
    (launching recWait at3000).readRecord 0x3000 = some (recOf recWait) ∧ (launching recWait at3000).malformed (recOf recWait) = false ∧
    (launching recWait at3000).oversize (recOf recWait) = false ∧ (0x2000, 1) ∈ (recOf recWait).deps ∧
    (launching recWait at3000).translateSup 0x2000 .read = .ok 0x2000 ∧ (launching recWait at3000).readAny 0x2000 8 < 1 :=
  ⟨onlyHead_launching _ _, settled _ _, by decide +kernel⟩

theorem witness_GangsPlaced : OnlyHead (launching recGood at3000) 2 ∧ (launching recGood at3000).changing = false ∧ (launching recGood at3000).headEntry 2 = some 0x3000 ∧
    (launching recGood at3000).readRecord 0x3000 = some (recOf recGood) ∧ (launching recGood at3000).malformed (recOf recGood) = false ∧
    (launching recGood at3000).oversize (recOf recGood) = false ∧ (launching recGood at3000).restoring = false ∧
    (recOf recGood).deps = [] ∧ search (launching recGood at3000).eligible (recOf recGood).n = some [0] :=
  ⟨onlyHead_launching _ _, settled _ _, by decide +kernel⟩

theorem witness_GangsPlaced_search : windowOf 2 1 = some (4, 8) ∧ 2 ≤ (inWindow (fun p => decide (5 ≤ p.val)) (4, 8)).length ∧
    (∀ v < 1, ((windowOf 2 v).map fun y => (inWindow (fun p => decide (5 ≤ p.val)) y).length) = some 0) ∧
    [1, 1].length = [2, 1].length ∧ [1, 1].sum ≤ 3 ∧ 3 ≤ [2, 1].sum := by decide +kernel

/-- A gang of two groups with core 0 in the first. -/
def grp1 : Group := { grp0 with entcp := 0x1000, minc := 1, maxc := 2 }
def gang1 : Gang := { gang0 with groups := [grp1, grp1], lq := 2 }
def placed (g : Core → Core) (f : Launch → Launch) : State :=
  (at0 (fun c => g { c with place := some place0 }) id).modLaunch fun l => f { l with gangs := [gang1] }
def held0 : Held := { (default : Held) with core := 0, pkt := pkt0 }
def holding (g : Core → Core) : State := (placed g id).modBent 0 fun b => { b with held := [held0] }
/-- Core 0 is fenced, core 1 is in the gang too. -/
def left : State :=
  let s := holding fun c => { c with fenced := true }
  (s.modCore 1 fun c => { c with place := some place0 }).modLaunch fun l => { l with gangs := [{ gang1 with cores := [0, 1] }] }

theorem witness_PacketsDelivered : ((placed id id).bent 0).held[0]? = none ∧ ((holding id).bent 0).held[0]? = some held0 ∧
    (holding id).gang? 1 = some gang1 ∧ 0 ∈ (holding id).runners gang1 ∧ ((holding id).core 0).gate.spawnq.length < 32 ∧
    ((holding fun c => { c with gate := { c.gate with spawnq := List.replicate 32 pkt0 } }).core 0).gate.spawnq.length = 32 ∧
    (left.bent 0).held[0]? = some held0 ∧ left.gang? 1 = some { gang1 with cores := [0, 1] } ∧
    0 ∉ left.runners { gang1 with cores := [0, 1] } ∧ left.chooseCore { gang1 with cores := [0, 1] } (bentOf 0) = some 1 ∧
    (left.core 1).gate.spawnq.length < 32 ∧ ∀ y ∈ (left.bent (bentOf 1)).held, y.core ≠ 1 := by decide +kernel

def early : State := (placed id id).modLaunch fun l => { l with gangs := [{ gang1 with balNext := 9 }] }
def switching : State := placed (fun c => { c with move := some 1, gate := { c.gate with switching := true } }) id

theorem witness_StagesBalanced : (placed id id).launch.gangs[3]? = none ∧ (placed id id).launch.gangs[0]? = some gang1 ∧
    (placed id id).gang? 1 = some gang1 ∧ gang1.balNext ≤ (placed id id).nanos ∧ gang1.saving = none ∧
    (∀ p ∈ (placed id id).holders gang1, ((placed id id).core p).move = none) ∧ (placed id id).trace.ctl.getLsbD 0 = false ∧
    early.launch.gangs[0]? = some { gang1 with balNext := 9 } ∧ early.gang? 1 = some { gang1 with balNext := 9 } ∧
    early.nanos < 9 ∧ switching.launch.gangs[0]? = some gang1 ∧ switching.gang? 1 = some gang1 ∧
    (∃ p ∈ switching.holders gang1, (switching.core p).move ≠ none) := by decide +kernel

theorem witness_StagesBalanced_switch : (switching.core 0).move = some 1 ∧ (switching.core 0).gate.cur = none ∧
    (switching.core 0).gate.switching = true ∧ ((placed id id).core 0).move = none ∧
    ((placed (fun c => { c with move := some 1, gate := { c.gate with switching := true, cur := some (.packet pkt0) } }) id).core 0).gate.cur ≠ none ∧
    (switching.core 0).idle = true ∧ switching.stalled 0 = false ∧ switching.halted 0 = false ∧
    (switching.core 0).place = some place0 ∧ switching.gangOf 0 = some gang1 ∧ gang1.groups[(1#4).toNat]? = some grp1 ∧
    (∀ k ∈ [Ctx.ld, .cp, .st], (switching.ctx 0 k).pend = []) ∧ (switching.core 0).comb = [] := by decide +kernel

theorem quiet_of (s : State) (g : Gang) (h : ∀ p ∈ s.holders g, (s.ctx p .ld).pend = [] ∧ (s.ctx p .cp).pend = [] ∧
      (s.ctx p .st).pend = [] ∧ (s.core p).comb = [] ∧ (s.core p).sqt = [] ∧ (s.core p).flights = [])
    (r : g.rings = []) (b : ∀ b, (s.bent b).sqt = []) (n : s.launch.gangs = [g]) : Quiet s g := by
  refine ⟨fun p m => ⟨fun k => ?_, (h p m).2.2.2.1, (h p m).2.2.2.2.1, fun f x => ?_⟩, ⟨r, fun c x y => ?_⟩, ?_, ?_⟩
  · cases k
    · exact (h p m).1
    · exact (h p m).2.1
    · exact (h p m).2.2.1
  · rw [(h p m).2.2.2.2.2] at x; exact absurd x (List.not_mem_nil)
  · rw [b c] at y; exact absurd y (List.not_mem_nil)
  · simp [State.gang?, n]
  · intro x y _; rw [n] at y; simpa using y

/-- Queue 2's limits are 1, 2 and 3 µs, and 5 µs have passed. -/
def limited : State := ((placed id id).modLq 2 fun x => { x with wdl1 := 1, wdl2 := 2, wdl3 := 3 }).modSched fun x => { x with nanos := 5000 }
def unlimited : State := placed id id

theorem witness_WatchdogLimits : (unlimited.lq 2).wdl1 = 0 ∧ (unlimited.lq 2).wdl2 = 0 ∧ (unlimited.lq 2).wdl3 = 0 ∧
    (limited.lq 2).cfgerr = false ∧ limited.launch.gangs.filter (fun g => g.lq == 2) = [gang1] ∧ (limited.lq 2).wdDone = 0 ∧
    (limited.lq 2).wdStart + 1000 * (limited.lq 2).wdl3.toNat ≤ limited.nanos ∧ Quiet limited gang1 ∧
    limited.holders gang1 ≠ [] ∧ limited.changing = false ∧ Canonical limited := by
  refine ⟨?_, ?_, ?_, ?_, ?_, ?_, ?_, quiet_of _ _ ?_ ?_ ?_ ?_, ?_, ?_, ?_⟩ <;>
    first | (unfold Canonical; decide +kernel) | decide +kernel

/-- A limit passes while a region changes. -/
def limitedChange : State := limited.modCtl 0 fun c => { c with chg := some 0x0101 }
theorem witness_WatchdogLimits_change : limitedChange.changing = true ∧ (limitedChange.lq 2).cfgerr = false ∧
    limitedChange.launch.gangs.filter (fun g => g.lq == 2) = [gang1] ∧ (limitedChange.lq 2).wdDone.getLsbD 1 = false ∧
    (limitedChange.lq 2).wdl2 ≠ 0 ∧ (limitedChange.lq 2).wdStart + 1000 * (limitedChange.lq 2).wdl2.toNat ≤ limitedChange.nanos ∧
    Quiet limitedChange gang1 ∧ Canonical limitedChange := by
  refine ⟨?_, ?_, ?_, ?_, ?_, ?_, quiet_of _ _ ?_ ?_ ?_ ?_, ?_⟩ <;>
    first | (unfold Canonical; decide +kernel) | decide +kernel

/-- Launch queue 2 holds one record, at 0x3000, whose STATUSA and DONECTR are 0, and gang 1. -/
def dropping : State :=
  let s := launching recGood at3000
  { s with launch := { s.launch with gangs := [gang1], nextGang := 2 } }
/-- An event session of queue 2, its ring at 0x6000 with room for 1,024 records. -/
def truncating : State :=
  let s := (paged user).modLaunch fun l => { l with gangs := [gang1] }
  { s with trace := { s.trace with ctl := 1, base := 0x6000, size := 1024, qmask := 4 } }
def truncatingFull : State := { truncating with trace := { truncating.trace with tail := 1024 } }

theorem witness_WatchdogLimits_reset : (0x80000002 : W32).setWidth 6 = (2 : BitVec 6) ∧ (0x80000002 : W32).getLsbD 31 = true ∧
    dropping.trace.rst = none ∧ dropping.changing = false ∧ Canonical dropping ∧ ((dropping.lq 2).tail - (dropping.lq 2).head).toNat = 1 ∧
    dropping.launch.gangs.filter (fun g => g.lq == 2) = [gang1] ∧ dropping.launch.pre = [] ∧ Quiet dropping gang1 ∧
    Untraced dropping 2 := by
  refine ⟨?_, ?_, ?_, ?_, ?_, ?_, ?_, ?_, quiet_of _ _ ?_ ?_ ?_ ?_, ?_⟩ <;>
    first | (unfold Canonical; decide +kernel) | (unfold Untraced; decide +kernel) | decide +kernel

theorem witness_WatchdogLimits_truncated : ¬ Untraced truncating 2 ∧ (truncating.lq 2).tail = (truncating.lq 2).head ∧ Canonical truncating ∧
    truncating.launch.pre = [] ∧ gang1.statusa = 0 ∧ gang1.donectr = 0 ∧ (∀ b, (truncating.bent b).trace = []) ∧ truncating.changing = false ∧
    truncating.trace.on = true ∧ truncating.trace.full = false ∧ truncating.ringAt (traceSlot truncating) = true ∧
    truncating.inView (.phys (traceSlot truncating)) = false ∧ truncatingFull.trace.full = true ∧ truncatingFull.trace.on = true := by
  refine ⟨?_, ?_, ?_, ?_⟩ <;> first | (unfold Canonical; decide +kernel) | (unfold Untraced; decide +kernel) | decide +kernel

/-- A TRUNC of queue 2 waits, with room in the ring or none. -/
theorem witness_WatchdogLimits_owed :
    let s : State := { truncating with trace := { truncating.trace with rst := some (2, 1, 7) } }
    let t : State := { truncatingFull with trace := { truncatingFull.trace with rst := some (2, 1, 7) } }
    s.trace.rst = some (2, 1, 7) ∧ Canonical s ∧ (∀ b, (s.bent b).trace = []) ∧ s.changing = false ∧ s.trace.on = true ∧
    s.trace.full = false ∧ s.ringAt (traceSlot s) = true ∧ s.inView (.phys (traceSlot s)) = false ∧
    t.trace.rst ≠ none ∧ (∀ b, (t.bent b).trace = []) ∧ t.trace.on = true ∧ t.trace.full = true := by
  refine ⟨?_, ?_, ?_, ?_, ?_, ?_, ?_, ?_, ?_, ?_, ?_, ?_⟩ <;> first | (unfold Canonical; decide +kernel) | decide +kernel

/-! ### The premises of the statements can be met: errors, records, pre-emption -/

def rec0 : FaultRec := { words := List.replicate 8 7, ticket := none }
def err0 : UncorrErr := { b := 0, aux := 0, loc := 0x2000, clean := true, consumer := some 0 }
def tracked : State := placed id fun l => { l with gangs := [{ gang1 with reca := 0x3000 }] }
def gang3 : Gang := { gang1 with reca := 0x3000 }

theorem witness_StorageErrors : (0 : CoreId).val = 16 * (0 : BentId).val + (0 : Fin 16).val ∧
    ((at0 (fun c => { c with eccUntil := some 9 }) id).core 0).eccUntil = some 9 ∧
    (at0 (fun c => { c with eccUntil := some 9 }) id).cycle < 9 ∧
    ((at0 (fun c => { c with eccUntil := some 0 }) id).core 0).eccUntil = some 0 ∧ err0.clean = true ∧
    err0.consumer = some 0 ∧ err0.b = bentOf 0 ∧ user.flt.on = false ∧ tracked.gangOf 0 = some gang3 ∧ Quiet tracked gang3 ∧
    Room tracked 0 ∧ Canonical tracked ∧
    ((user.modBent 0 fun b => { b with faults := List.replicate 64 rec0 }).bent 0).faults.length = 64 := by
  refine ⟨?_, ?_, ?_, ?_, ?_, ?_, ?_, ?_, ?_, quiet_of _ _ ?_ ?_ ?_ ?_, ?_, ?_, ?_⟩ <;>
    first | (unfold Canonical; decide +kernel) | (unfold Room; decide +kernel) | decide +kernel

/-- The fault ring has 64 records at `a`, and bent 0 holds a record. -/
def faultRing (a : Word) : State :=
  let s := (paged user).modBent 0 fun b => { b with faults := [rec0] }
  { s with flt := { s.flt with base := a, size := 64 } }

/-- Bent 0 is fenced and holds a packet. -/
def emptied : State := user.modBent 0 fun b => { b with sitemap := 0x400000, held := [held0] }

theorem witness_FaultRecords : (user.bent 0).faults = [] ∧ bentFenced (user.bent 0).sitemap = false ∧ user.flt.aborts = [] ∧
    (faultRing 0x6000).changing = false ∧ bentFenced (emptied.bent 0).sitemap = true ∧ (emptied.bent 0).held = [held0] ∧
    (emptied.bent 0).faults = [] ∧ Room emptied 0 ∧ ((faultRing 0x6000).bent 0).faults = rec0 :: [] ∧
    (faultRing 0x6000).flt.on = true ∧ (faultRing 0x6000).flt.tail - (faultRing 0x6000).flt.head ≠ (faultRing 0x6000).flt.size ∧
    rec0.words.length = 8 ∧
    (faultRing 0x6000).flt.base.toNat / 64 * 64 + 64 * ((faultRing 0x6000).flt.tail.toNat % (faultRing 0x6000).flt.size.toNat) = 0x6000 ∧
    (faultRing 0x6000).space 0x6000 = .dev 0x6000 ∧ (faultRing 0x6000).reachable 0x6000 = true ∧ Canonical (faultRing 0x6000) ∧
    (faultRing 0x200000).flt.on = true ∧ (faultRing 0x200000).reachable 0x200000 = false ∧ user.parkedAt 5 = none := by
  unfold Canonical Room; decide +kernel

/-- Ticket 5 names a context, the head of a queue, or a command in flight. -/
def ticketed (g : Core → Core) (f : Context → Context) : State :=
  let s := at0 g f
  { s with flt := { s.flt with tickets := [(5, List.replicate 8 9)] } }
def ctxParked : State := ticketed id fun x => { x with ticket := some 5 }
def headParked : State :=
  ticketed (fun c => { c with eng := vmod c.eng Ep.s.idx.val fun g => { g with q := [{ cmdOf cn with ticket := some 5 }, cmdOf cn] } }) id
def flightP : Flight := { flight0 with ticket := some 5 }
def flightParked : State := ticketed (fun c => { c with flights := [flightP], nextOrd := 1 }) id

theorem witness_FaultRecords_context : ParkedHere ctxParked 5 0 .cp ∧ recordOf' ctxParked 5 (List.replicate 8 9) ∧
    (5 : BitVec 16) ∉ ctxParked.flt.aborts ∧ Room ctxParked (bentOf 0) ∧
    ((ctxParked.modBent 0 fun b => { b with faults := List.replicate 64 rec0 }).bent 0).faults.length = 64 := by
  refine ⟨⟨?_, ?_, fun j h => ?_⟩, ?_, ?_, ?_, ?_⟩
  case refine_3 => cases j <;> first | decide +kernel | exact absurd rfl h
  all_goals first | decide +kernel | (unfold recordOf'; decide +kernel) | (unfold Room; decide +kernel)

theorem witness_FaultRecords_head : ParkedHead headParked 5 0 .s { cmdOf cn with ticket := some 5 } [cmdOf cn] ∧
    recordOf' headParked 5 (List.replicate 8 9) ∧ Room headParked (bentOf 0) := by
  refine ⟨⟨?_, ?_, fun k => ?_, fun j h => ?_⟩, ?_, ?_⟩
  case refine_3 => cases k <;> decide +kernel
  case refine_4 => cases j <;> first | decide +kernel | exact absurd rfl h
  all_goals first | decide +kernel | (unfold recordOf'; decide +kernel) | (unfold Room; decide +kernel)

theorem witness_FaultRecords_flight : ParkedFlight flightParked 5 0 flightP ∧ recordOf' flightParked 5 (List.replicate 8 9) ∧
    Ordered flightParked ∧ Room flightParked (bentOf 0) ∧ (flightParked.core 0).saving = false ∧
    (flightParked.modCore 0 fun c => { c with eccUntil := some 9 }).stalled 0 = true := by
  refine ⟨⟨?_, ?_, fun k => ?_, fun e => ?_, fun o x h => ?_, fun r h => ?_⟩, ?_, ?_, ?_, ?_⟩
  case refine_3 => cases k <;> decide +kernel
  case refine_4 => cases e <;> decide +kernel
  case refine_5 => rw [show (flightParked.me 0).drn = none by decide +kernel] at h; cases h
  case refine_6 => rw [show (flightParked.ve 0).run = none by decide +kernel] at h; cases h
  all_goals first | decide +kernel | (unfold recordOf'; decide +kernel) | (unfold Room; decide +kernel) |
    (unfold Ordered; decide +kernel)

/-! Saving: the record of the gang at 0x3000 is named, its area is in the understore at 0x40010000. -/

def gang4 : Gang := { gang3 with savea := 0x40010000 }
def named4 (g : Gang) (f : Pm → Pm) : State :=
  (paged (placed id fun l => { l with gangs := [g] })).modPm fun x => f { x with pmrec := 0x3000 }
def asked (n : BitVec 2) : State := named4 gang4 fun x => { x with req := n }
def watched : State := named4 gang4 fun x => { x with wd := [1] }
def saving : State := named4 { gang4 with saving := some 0x40010000 } fun x => { x with op := some (.preempt 1) }
def gang5 : Gang := { gang4 with saving := some 0x40010000 }

theorem quiet4 (s : State) (h : s = asked 1 ∨ s = watched ∨ s = asked 3) : Quiet s gang4 := by
  rcases h with h | h | h <;> subst h <;>
    exact quiet_of _ _ (by decide +kernel) rfl (by decide +kernel) (by decide +kernel)

theorem witness_GangsSaved : saving.pm.op ≠ none ∧ (asked 1).pm.op = none ∧ (asked 1).pm.req = 1 ∧ Named (asked 1) gang4 ∧
    ¬ AreaTaken (asked 1) (saveArea (asked 1) gang4) ∧ Quiet (asked 1) gang4 ∧ (asked 1).trace.ctl.getLsbD 0 = false ∧
    NoneNamed (named4 gang1 fun x => { x with req := 1 }) ∧ Named (named4 gang3 fun x => { x with req := 1 }) gang3 ∧
    AreaTaken (named4 gang3 fun x => { x with req := 1 }) (saveArea (named4 gang3 fun x => { x with req := 1 }) gang3) := by
  refine ⟨?_, ?_, ?_, ?_, ?_, quiet4 _ (.inl rfl), ?_, ?_, ?_, .inl ?_⟩ <;>
    first | decide +kernel | (unfold Named; decide +kernel) | (unfold NoneNamed; decide +kernel) | skip
  unfold AreaTaken; decide +kernel

theorem witness_GangsSaved_watchdog : user.pm.op = none ∧ user.pm.req = 0 ∧ user.pm.wd = [] ∧ watched.pm.op = none ∧
    watched.pm.req = 0 ∧ watched.pm.wd = 1 :: [] ∧ watched.gang? 1 = some gang4 ∧ ¬ AreaTaken watched (saveArea watched gang4) ∧
    Quiet watched gang4 ∧ (user.modPm fun x => { x with wd := [7] }).gang? 7 = none := by
  refine ⟨?_, ?_, ?_, ?_, ?_, ?_, ?_, ?_, quiet4 _ (.inr (.inl rfl)), ?_⟩ <;> first | decide +kernel | skip
  unfold AreaTaken; decide +kernel

def areaPage (n : Nat) : Nat := 0x40000000010000 + 4096 * n

theorem apart_area (s : State) (p : CoreId) (h : ∀ n x, n < 0x2A8 → x < 4096 → s.key (areaPage n + x) = areaPage n + x) :
    Apart s [p] fun _ => areaPage := by
  intro q hq r hr i j x y hi hj hx hy e
  obtain rfl : q = p := by simpa using hq
  obtain rfl : r = q := by simpa using hr
  refine ⟨rfl, ?_⟩
  rw [h i x hi hx, h j y hj hy] at e
  simp only [areaPage] at e
  omega

theorem key_area (s : State) (n x : Nat) (h : n < 0x2A8) (k : x < 4096) : s.key (areaPage n + x) = areaPage n + x := by
  have e : s.space (areaPage n + x) = .under 0 (0x10000 + 4096 * n + x) := by
    have e1 : areaPage n + x = underBase + (0x10000 + 4096 * n + x) := by simp only [areaPage, underBase]; omega
    have c1 : ¬ underBase + (0x10000 + 4096 * n + x) < devSize := by simp only [underBase, devSize]; omega
    have c2 : ¬ (hostBase ≤ underBase + (0x10000 + 4096 * n + x) ∧
        underBase + (0x10000 + 4096 * n + x) < hostBase + 0x10000000000000) := by simp only [underBase, hostBase]; omega
    have c3 : underBase ≤ underBase + (0x10000 + 4096 * n + x) ∧
        underBase + (0x10000 + 4096 * n + x) < underBase + 16 * 0x20000000 := by omega
    have c4 : (0x10000 + 4096 * n + x) % 0x20000000 = 0x10000 + 4096 * n + x := by omega
    have c5 : (0x10000 + 4096 * n + x) / 0x20000000 = 0 := by omega
    have c6 : 0x10000 + 4096 * n + x < 0x1C000000 := by omega
    rw [e1]
    simp only [State.space, if_neg c1, if_neg c2, if_pos c3, Nat.add_sub_cancel_left, c4, c5, if_pos c6]
  unfold State.key
  rw [e]

def pte3 : Word := 0x1001
def pte2 : Word := 0x084000000000007B

/-- The second GiB translates by one leaf of the second level. -/
theorem walk_under (s : State) (v : Nat) (r : s.trans.root = 1) (h : v / 2 ^ 30 = 1) (a : s.reachable 0 = true) (b : s.reachable 0x1008 = true)
    (m : s.striped 0 = false ∧ s.striped 0x1008 = false ∧ s.moving 0 = false ∧ s.moving 0x1008 = false)
    (c : BitVec.ofNat 64 (s.readPhys 0 8) = pte3) (d : BitVec.ofNat 64 (s.readPhys 0x1008 8) = pte2) :
    s.walk v = .ok (pte2, 0) := by
  have i3 : v / 2 ^ 39 % 8192 = 0 := by omega
  have i2 : v / 2 ^ (12 + 9 * 2) % 512 = 1 := by omega
  have z : (1 : Word).toNat % 2 ^ 56 / 2 ^ 16 * 2 ^ 16 = 0 := by decide
  unfold State.walk
  rw [r, if_pos (by decide), z]
  have e : s.walkFrom v 2 0x1000 = .ok (pte2, 0) := by
    show s.walkLevel v 2 0x1000 _ = _
    simp only [State.walkLevel, i2, if_neg (show ¬ ((2 : Nat) = 3) by decide), Nat.mul_one]
    simp only [b, d, m.2.1, m.2.2.2]
    rw [if_neg (by decide), if_neg (by decide), if_neg (by decide), if_neg (by decide), if_neg (by decide), if_neg (by decide), if_pos (by decide),
      if_pos (by decide), if_neg (by decide)]
  show s.walkLevel v 3 0 _ = _
  simp only [State.walkLevel, i3, if_pos, Nat.mul_zero, Nat.add_zero, a, c, m.1, m.2.2.1]
  rw [if_neg (by decide), if_neg (by decide), if_neg (by decide), if_neg (by decide), if_neg (by decide), if_neg (by decide), if_neg (by decide), if_neg (by decide)]
  exact e

theorem area_of (s : State) (acc : Acc) (r : s.trans.root = 1) (a : s.reachable 0 = true) (b : s.reachable 0x1008 = true)
    (m : s.striped 0 = false ∧ s.striped 0x1008 = false ∧ s.moving 0 = false ∧ s.moving 0x1008 = false)
    (c : BitVec.ofNat 64 (s.readPhys 0 8) = pte3) (d : BitVec.ofNat 64 (s.readPhys 0x1008 8) = pte2)
    (h : ∀ n, n < 0x2A8 → leafCheck pte2 0 (0x40010000 + 4096 * n) acc false = none ∧
      leafAddr pte2 (0x40010000 + 4096 * n) = areaPage n ∧ s.physCheck (areaPage n) (pteCc pte2) false = none ∧
      s.space (areaPage n) = .under 0 (0x10000 + 4096 * n)) : AreaAt s 0x40010000 0 acc areaPage := by
  intro n k
  obtain ⟨h1, h2, h3, h4⟩ := h n k
  have v : (0x40010000 + BitVec.ofNat 64 (0x2A8000 * 0) + BitVec.ofNat 64 (4096 * n) : Word).toNat = 0x40010000 + 4096 * n := by
    simp; omega
  refine ⟨?_, fun o e => ?_, fun _ => ?_⟩
  · unfold State.translateSup
    rw [v]
    rw [if_neg (show ¬ spadBase ≤ 0x40010000 + 4096 * n by simp only [spadBase]; omega),
      walk_under s (0x40010000 + 4096 * n) r (by omega) a b m c d]
    simp only [h1, h2, h3]
    unfold State.home
    rw [h4]
  · rw [h4] at e; cases e
  · show (match s.space (areaPage n) with | .dev o => (s.viewAt o).isSome | _ => false) = false
    rw [h4]

theorem witness_GangsSaved_complete : saving.pm.op = some (.preempt gang5.id) ∧ saving.gang? gang5.id = some gang5 ∧
    saving.holders gang5 = [0] ∧ gang5.saving = some 0x40010000 ∧ gang5.saveTicket = none ∧ SequencerFree saving ∧
    MaySave saving 0 ∧ AreaAt saving 0x40010000 (placeLidx (saving.core 0).place) .write areaPage ∧
    Apart saving [0] (fun _ => areaPage) ∧ Canonical saving := by
  have e : placeLidx (saving.core 0).place = 0 := by decide +kernel
  rw [e]
  refine ⟨?_, ?_, ?_, ?_, ?_, ?_, ?_, area_of _ _ (by decide +kernel) (by decide +kernel) (by decide +kernel)
    (by decide +kernel) (by decide +kernel) (by decide +kernel) ?_, apart_area _ _ fun n x h k => key_area _ _ _ h k, ?_⟩ <;>
    first | (unfold Canonical; decide +kernel) | (unfold SequencerFree; decide +kernel) | exact ⟨by decide +kernel, by decide +kernel, by decide +kernel⟩ |
      decide +kernel

/-- The area has no translation; a core with a result outstanding has not settled. -/
def parkedSave : State := named4 { gang4 with saving := some 0x200000000 } fun x => { x with op := some (.preempt 1) }
def unsettled : State := saving.modCtx 0 .cp fun x => { x with pend := [⟨1, 3, .store 0 spad 8 9, none, {}⟩] }

theorem witness_GangsSaved_parks : parkedSave.pm.op = some (.preempt 1) ∧
    parkedSave.gang? 1 = some { gang4 with saving := some 0x200000000 } ∧
    parkedSave.holders { gang4 with saving := some 0x200000000 } = [0] ∧ (parkedSave.core 0).settled = true ∧
    parkedSave.translateSup (0x200000000 + BitVec.ofNat 64 (0x2A8000 * placeLidx (parkedSave.core 0).place)) .write =
      .error (.page 1) ∧ (∃ p ∈ unsettled.holders gang5, (unsettled.core p).settled = false) ∧
    (asked 3).pm.op = none ∧ (asked 3).pm.req = 3 ∧ Named (asked 3) gang4 ∧ Quiet (asked 3) gang4 ∧ Canonical (asked 3) ∧
    NoneNamed (named4 gang1 fun x => { x with req := 3 }) := by
  refine ⟨?_, ?_, ?_, ?_, ?_, ?_, ?_, ?_, ?_, quiet4 _ (.inr (.inr rfl)), ?_, ?_⟩ <;>
    first | decide +kernel | (unfold Named; decide +kernel) | (unfold NoneNamed; decide +kernel) | (unfold Canonical; decide +kernel)

/-- An entry of the table with one core, whose snapshot says version `v` and one core. -/
def pre0 : PreGang := { base := 0x40010000, gang := gang4, saved := [(0, { (default : Core) with place := some place0 })], replies := [] }
def tabled (v : Byte) (f : Pm → Pm) : State :=
  let s := ((paged user).modLaunch fun l => { l with pre := [pre0] }).modPm fun x => f { x with save := 0x40010000 }
  { s with mem := s.mem ++ (if v = 0 then [] else [(0x40000000010001, v)]) ++ [(0x40000000010014, 1)],
           ready := { s.ready with rdy := 0x10001, core := vset s.ready.core 0 0xFF } }

/-- Its header and its page as the sequencer reads them. -/
def hdr0 (v : Byte) : List Byte := ((tabled v id).supBytes (areaOf pre0 (0, { (default : Core) with place := some place0 })) 64).getD []

theorem witness_GangsRestored : user.pm.op = none ∧ user.pm.req ≠ 2 ∧ (tabled 1 fun x => { x with req := 2 }).pm.op = none ∧
    (tabled 1 fun x => { x with req := 2 }).pm.req = 2 ∧
    (tabled 1 fun x => { x with req := 2 }).launch.pre.find?
      (fun x => x.base == (tabled 1 fun x => { x with req := 2 }).pm.save &&& ~~~0xFFF) = some pre0 ∧
    (∀ e ∈ (user.modPm fun x => { x with req := 2 }).launch.pre, e.base ≠ 0) := by decide +kernel

def restoring (v : Byte) : State := tabled v fun x => { x with op := some (.restore 0x40010000) }
/-- No core may be placed on. -/
def cramped : State := { restoring 1 with ready := { (restoring 1).ready with rdy := 0x10000 } }

theorem witness_GangsRestored_placed : (restoring 1).pm.op = some (.restore pre0.base) ∧
    (restoring 1).launch.pre.find? (fun x => x.base == pre0.base) = some pre0 ∧ pre0.ticket = none ∧ SequencerFree (restoring 1) ∧
    (∀ x ∈ pre0.saved, (restoring 1).supBytes (areaOf pre0 x) 64 = some (hdr0 1) ∧ half (hdr0 1) 0 = 0x0100 ∧
      placeLidx x.2.place < half (hdr0 1) 0x14 ∧ x.2.tickets = [] ∧ ∀ f ∈ x.2.flights, f.isCe = false) ∧
    half (hdr0 1) 0x14 = 1 ∧ search (restoring 1).eligible 1 = some [0] ∧ AreaAt (restoring 1) 0x40010000 0 .read areaPage ∧
    (pre0.saved.map fun x => placeLidx x.2.place).Nodup ∧ (pre0.saved.map (·.1)).Nodup ∧ pre0.replies = [] ∧
    (∀ b, ∀ h ∈ ((restoring 1).bent b).held, h.pkt.gang ≠ pre0.gang.id) ∧
    cramped.pm.op = some (.restore pre0.base) ∧ search cramped.eligible 1 = none ∧ half (hdr0 0) 0 ≠ 0x0100 := by
  refine ⟨?_, ?_, ?_, ?_, ?_, ?_, ?_, area_of _ _ (by decide +kernel) (by decide +kernel) (by decide +kernel) (by decide +kernel)
    (by decide +kernel) (by decide +kernel) ?_, ?_⟩ <;> first | (unfold SequencerFree; decide +kernel) | decide +kernel

/-- An entry whose area has no translation. -/
def pre1 : PreGang := { pre0 with base := 0x200000000 }
theorem witness_GangsRestored_parks :
    (restoring 1).translateSup (areaOf pre1 (0, { (default : Core) with place := some place0 })) .read = .error (.page 1) := by
  decide +kernel

/-- An array of bent 0 holds the record of an error; a bent with 64 records takes no other. -/
def arrayHeld : State := { user with flt := { user.flt with errors := [(0, rec0)] } }
def brimful : State := user.modBent 0 fun b => { b with faults := List.replicate 64 rec0 }
def err7 : UncorrErr := { err0 with clean := false, aux := 7, consumer := none }
theorem witness_StorageErrors_arrays : arrayHeld.flt.errors = (0, rec0) :: [] ∧ Room arrayHeld 0 ∧ NoErrors user 0 ∧
    err7.clean = false ∧ err7.consumer = none ∧ Room user err7.b ∧ ({ err7 with aux := 3 } : UncorrErr).aux ≠ 7 ∧
    brimful.flt.on = false ∧ 64 ≤ (brimful.bent 0).faults.length := by
  unfold Room NoErrors; decide +kernel

/-! ### The premises of the statements can be met: registers, clocks, traces -/

def withTrans (s : State) (l : List Word) : State := { s with trans := { s.trans with inv := l } }
/-- A load of CP's is outstanding. -/
def loading : State := withTrans (user.modCtx 0 .cp fun x => { x with pend := [⟨1, 3, .load 0x2000 (.phys 0x2000) 8 false, some (6, false), {}⟩] }) [0x10]
def cached (v : Word) : State :=
  let s := vectored (fun u => { u with tag := some (0, 1) }) cn
  { s with trace := { s.trace with icinv := [v] } }

theorem allIdle_of (s : State) (h : ∀ p, ((s.ctx p .ld).pend = [] ∧ (s.ctx p .cp).pend = [] ∧ (s.ctx p .st).pend = []) ∧
    ((s.core p).comb = [] ∧ (s.core p).flights = []) ∧ (s.core p).chunks = [] ∧ ∀ q : Fin 8, vget (s.ve p).oq q.val = [])
    (c : ∀ b, ∀ k : Fin 2, (vget (s.bent b).ctl k.val).cmds = []) (n : s.launch.pre = []) : AllIdle s := by
  refine ⟨fun p => ⟨fun k => ?_, (h p).2.1.1, (h p).2.1.2, (h p).2.2.1, fun q e m => ?_⟩,
    fun e m => absurd (n ▸ m) List.not_mem_nil, fun b k f m => ?_⟩
  · cases k
    · exact (h p).1.1
    · exact (h p).1.2.1
    · exact (h p).1.2.2
  · exact absurd ((h p).2.2.2 q ▸ m) List.not_mem_nil
  · rw [c b k] at m; exact absurd m (List.not_mem_nil)

/-- All cores of bay 1 are one gang's and ask for fusion. -/
def fusing : State :=
  ([4, 5, 6, 7] : List CoreId).foldl (fun s p => s.modCore p fun c => { c with fuse := true, place := some place0 }) user

theorem fusible_of (s : State) (y : Fin 64) (h : (s.bay y).fused = false)
    (g : ∀ q : CoreId, q.val / 4 = y.val → (s.core q).place.map (·.gang) = some 1 ∧ (s.core q).fuse = true ∧
      (s.core q).saving = false) : Fusible s y :=
  ⟨h, ⟨1, fun q e => (g q e).1⟩, fun q e => (g q e).2⟩

/-- Nothing is outstanding in a bay. -/
theorem unused_of (s : State) (y : Fin 64) (e : ∀ q : CoreId, q.val / 4 = y.val → (s.ctx q .ld).pend = [] ∧ (s.ctx q .cp).pend = [] ∧
    (s.ctx q .st).pend = []) : ¬ L1Used s y := by
  rintro ⟨q, k, i, l, x, h, m, -⟩
  cases k
  · rw [(e q h).1] at m; exact absurd m (List.not_mem_nil)
  · rw [(e q h).2.1] at m; exact absurd m (List.not_mem_nil)
  · rw [(e q h).2.2] at m; exact absurd m (List.not_mem_nil)

def ldev0 : Pend := ⟨1, 3, .load 0x2000 (.phys 0x2000) 8 false, some (6, false), {}⟩
/-- A core of bay 1 has a load outstanding. -/
def fusingBusy : State := fusing.modCtx 4 .cp fun x => { x with pend := [ldev0] }

theorem witness_Invalidations_fusing : (fusing.bay 1).unfusing = false ∧ Fusible fusing 1 ∧ ¬ L1Used fusing 1 ∧
    (fusingBusy.bay 1).unfusing = false ∧ L1Used fusingBusy 1 :=
  ⟨by decide +kernel, fusible_of _ _ (by decide +kernel) (by decide +kernel), unused_of _ _ (by decide +kernel),
   by decide +kernel, ⟨4, .cp, ldev0, .phys 0x2000, 8, rfl, by decide +kernel, by decide +kernel, by decide +kernel⟩⟩

/-- Bay 0 is to separate, with a load of device memory outstanding or with none. -/
def separating (b : Bool) : State :=
  let s := if b then loading else user
  s.modBay 0 fun y => { y with fused := true, unfusing := true }

theorem witness_Invalidations_separating : ((separating true).bay 0).unfusing = true ∧ L1Used (separating true) 0 ∧
    ((separating false).bay 0).unfusing = true ∧ ¬ L1Used (separating false) 0 := by
  refine ⟨by decide +kernel, ⟨0, .cp, ⟨1, 3, .load 0x2000 (.phys 0x2000) 8 false, some (6, false), {}⟩, .phys 0x2000, 8, rfl,
    by decide +kernel, by decide +kernel, by decide +kernel⟩, by decide +kernel, ?_⟩
  exact unused_of _ _ (by decide +kernel)

/-- A pre-empted core has a query in flight that has still to add to its counter. -/
def fq9 : FQryOps :=
  { nofb := false, op := 0, dst := 0x100001000, ctr := 0x2008, inc := 1, n1 := 1, s1 := 0x100040000, s2 := 0, s3 := 0, res := 0xFFFFFFFE00100 }
def flight9 : Flight := { (default : Flight) with ep := .s, words := encode (.fqry hd fq9), ticket := some 5 }
def core9 : Core := { (default : Core) with place := some place0, flights := [flight9] }
def preBusy : State :=
  withTrans (user.modLaunch fun l => { l with pre := [{ base := 0, gang := gang1, saved := [(0, core9)], replies := [] }] }) [0x10]

theorem witness_Invalidations_saved : preBusy.trans.inv = 0x10 :: [] ∧
    (⟨0, gang1, [(0, core9)], [], none⟩ : PreGang) ∈ preBusy.launch.pre ∧ flight9 ∈ core9.flights ∧ flight9.finished = false ∧
    decodeCmd flight9.words = some (.fqry hd fq9) ∧ fq9.ctr ≠ 0 ∧ (0x10 : Word).getLsbD 4 = true := by decide +kernel

theorem witness_Invalidations : user.trans.inv = [] ∧ (withTrans user [0x10]).trans.inv = [0x10] ∧ AllIdle (withTrans user [0x10]) ∧
    AllIdle (withTrans user [0x10, 0x2000]) ∧ (withTrans user [0x10, 0x2000]).trans.inv = 0x10 :: 0x2000 :: [] ∧
    loading.trans.inv = 0x10 :: [] ∧ ⟨1, 3, .load 0x2000 (.phys 0x2000) 8 false, some (6, false), {}⟩ ∈ (loading.ctx 0 .cp).pend ∧
    (0x10 : Word).getLsbD 4 = true ∧ user.trace.icinv = [] ∧ (cached 3).trace.icinv = 3 :: [] ∧ ((cached 3).ve 0).tag ≠ none ∧
    ((cached 3).ve 0).run ≠ none ∧ (user.ve 0).run = none ∧ Fusible fusing 1 ∧ (user.core 0).fuse = false := by
  refine ⟨?_, ?_, allIdle_of _ ?_ ?_ ?_, allIdle_of _ ?_ ?_ ?_, ?_, ?_, ?_, ?_, ?_, ?_, ?_, ?_, ?_, fusible_of _ _ ?_ ?_, ?_⟩ <;>
    decide +kernel

def fr0 (c : W32) : FmtReg := { view := 0, src := 0, scl := 0, ctl := c.setWidth 64 }
/-- The controller holds a new region, and a command. -/
def changing (l : List FurRun) : State := user.modCtl 0 fun c => { c with chg := some 0x0101, cmds := l }
theorem witness_RegionWrites_change : (vget (user.bent 0).ctl 0).chg = none ∧
    (vget ((changing []).bent 0).ctl 0).chg = some 0x0101 ∧ (vget ((changing []).bent 0).ctl 0).cmds = [] ∧
    (vget ((changing [default]).bent 0).ctl 0).cmds ≠ [] := by decide +kernel

/-- The status word of a gang that ended is owed; another controller is changing too. -/
def owing (s : State) : State := s.modLaunch fun l => { l with owed := [.outcome 0x2000 0 0x14] }
def changingTwo : State := owing ((changing []).modCtl 3 fun c => { c with chg := some 0x0101 })

theorem witness_RegionWrites_owed : (vget ((owing (changing [])).bent 0).ctl 0).chg = some 0x0101 ∧
    (vget ((owing (changing [])).bent 0).ctl 0).cmds = [] ∧ (¬ Elsewhere (owing (changing [])) 0 0) ∧
    (owing (changing [])).launch.owed = [.outcome 0x2000 0 0x14] ∧ Canonical (owing (changing [])) ∧
    (vget (changingTwo.bent 0).ctl 0).chg = some 0x0101 ∧ (vget (changingTwo.bent 0).ctl 0).cmds = [] ∧
    Elsewhere changingTwo 0 0 := by
  refine ⟨?_, ?_, ?_, ?_, ?_, ?_, ?_, ⟨1, 1, ?_, ?_⟩⟩ <;>
    first | decide +kernel | (unfold Canonical; decide +kernel) | (unfold Elsewhere; decide +kernel)

theorem witness_RegionWrites : BadRegion (vget (user.bent 0).ctl 0) 0 3 (fr0 0x21) ∧ ¬ BadRegion (vget (user.bent 0).ctl 0) 0 3 (fr0 0x01) := by
  refine ⟨.inl (by decide +kernel), ?_⟩
  unfold BadRegion; decide +kernel

theorem witness_RegisterWrites : plainReg (0x4000 : BitVec 26).toNat = some (3, BitVec.allOnes 64) ∧
    BitVec.ofNat 64 (user.ctlRead 0x4000 8) &&& ~~~(BitVec.allOnes 64) = 0 ∧ plainReg (0x3000008 : BitVec 26).toNat = some (3, 0x1FFF0000000) ∧
    BitVec.ofNat 64 (user.ctlRead 0x3000008 8) &&& ~~~0x1FFF0000000 = 0 ∧ readOnly (0x4014 : BitVec 26).toNat = true := by decide +kernel

def clocked (f : Clock → Clock) : State := { user with clock := f user.clock, sched := { user.sched with nanos := 20000000 } }

theorem witness_ClockChanges : user.trace.ctl.getLsbD 0 = false ∧ user.clock.emergency = false ∧
    (clocked fun c => { c with emergency := true }).clock.emergency = true ∧
    (clocked fun c => { c with req := 2, lastEnd := some 5 }).clock.busy = none ∧
    targetOf (clocked fun c => { c with req := 2, lastEnd := some 5 }).clock ≠ (clocked fun c => { c with req := 2, lastEnd := some 5 }).clock.cur ∧
    5 + 1000000 ≤ (clocked fun c => { c with req := 2, lastEnd := some 5 }).nanos ∧ targetOf user.clock = user.clock.cur ∧
    (clocked fun c => { c with busy := some (2, 9) }).clock.busy = some (2, 9) ∧ 9 ≤ (clocked fun c => { c with busy := some (2, 9) }).nanos ∧
    (clocked fun c => { c with busy := some (2, 90000000) }).nanos < 90000000 := by decide +kernel

/-- Readings of 0 °C, of 100 °C in one column, of 110 °C, and of 120 °C. -/
def cold : Readings := { cols := [], stks := [], amps := [] }
def hot (d : W32) : Readings := { cold with cols := [8 * d] }
def amped : State := (clocked id).modBent 0 fun b => { b with overAmps := some 3 }

theorem witness_ThermalLevels : (clocked fun c => { c with lastSample := some 19990000 }).nanos < 19990000 + 20000 ∧
    user.clock.lastSample = none ∧ Reaches (hot 120) 120 105 ∧ ¬ Reaches (hot 110) 120 105 ∧ Reaches (hot 110) 110 100 ∧
    ¬ Reaches (hot 100) 110 100 ∧ Reaches (hot 100) 100 95 ∧ ¬ Reaches cold 100 95 ∧ Below cold 95 90 ∧ ¬ Below (hot 96) 95 90 := by
  have c : ∀ r a b, Below r a b ↔ ((∀ i, i < 272 → ∀ j, j < 2 → eighths ((columnWord r i).setWidth 64) j ≤ 8 * a) ∧
      ∀ i, i < 32 → ∀ j, j < 4 → eighths (stackWord r i) j ≤ 8 * b) := by
    intro r a b
    unfold Below
    exact ⟨fun h => ⟨fun i k j m => h.1 i j k m, fun i k j m => h.2 i j k m⟩, fun h => ⟨fun i j k m => h.1 i k j m, fun i j k m => h.2 i k j m⟩⟩
  have e : ∀ r a b, Reaches r a b ↔ ((∃ i < 272, ∃ j < 2, 8 * a ≤ eighths ((columnWord r i).setWidth 64) j) ∨
      ∃ i < 32, ∃ j < 4, 8 * b ≤ eighths (stackWord r i) j) := by
    intro r a b
    unfold Reaches
    constructor <;> rintro (⟨i, j, h, k, m⟩ | ⟨i, j, h, k, m⟩) <;> first
      | exact .inl ⟨i, h, j, k, m⟩ | exact .inr ⟨i, h, j, k, m⟩
  simp only [e, c]
  decide +kernel

theorem witness_ThermalLevels_warned : (clocked fun c => { c with warn := some 5 }).clock.warn = some 5 ∧
    5 + 1000000 ≤ (clocked fun c => { c with warn := some 5 }).nanos ∧ OverLong amped 0 ∧ ¬ OverLong user 0 ∧
    user.clock.warn = none ∧ user.clock.coolSince = none ∧
    (clocked fun c => { c with coolSince := some 5 }).clock.coolSince = some 5 ∧ 5 + 10000000 ≤ (clocked id).nanos ∧
    (clocked fun c => { c with coldSince := some 5, emergency := true }).clock.coldSince = some 5 ∧ user.clock.coldSince = none := by
  refine ⟨?_, ?_, ⟨3, ?_, ?_⟩, ?_, ?_⟩
  case refine_5 =>
    rintro ⟨t, h, -⟩
    rw [show (user.bent 0).overAmps = none by decide +kernel] at h
    cases h
  all_goals decide +kernel

def trec0 : TraceRec := { words := List.replicate 8 5, born := 0 }
/-- A ring of 1,024 records at 0x6000, with a session open or not, and `l` in bent 0's buffer. -/
def traced (b : W32) (l : List TraceRec) (t : W32) : State :=
  let s := (paged user).modBent 0 fun x => { x with trace := l }
  { s with trace := { s.trace with base := 0x6000, size := 1024, ctl := b, tail := t }, sched := { s.sched with nanos := 20000 } }

theorem witness_TracesAndCounters : (traced 0 [] 0).trace.ctl.getLsbD 0 = false ∧ (traced 0 [] 0).trace.on = true ∧
    RingTakes (traced 0 [] 0) ∧ RingTakes (traced 1 [] 0) ∧ RingTakes (traced 1 [trec0] 0) ∧ (traced 1 [] 0).changing = false ∧
    Canonical (traced 0 [] 0) ∧
    (traced 1 [] 0).trace.ctl.getLsbD 0 = true ∧ (traced 1 [] 0).trace.on = true ∧ (∀ b, ((traced 1 [] 0).bent b).trace = []) ∧
    (traced 1 [trec0] 0).trace.rst = none ∧ ((traced 1 [trec0] 0).bent 0).trace = [trec0] ∧
    trec0.born + 10000 ≤ (traced 1 [trec0] 0).nanos ∧ trec0.words.length = 8 ∧ Canonical (traced 1 [trec0] 0) ∧
    (traced 1 [trec0] 1024).trace.tail - (traced 1 [trec0] 1024).trace.head = (traced 1 [trec0] 1024).trace.size ∧
    ((traced 1 [{ trec0 with born := 15000 }] 0).bent 0).trace = { trec0 with born := 15000 } :: [] ∧
    (traced 1 [{ trec0 with born := 15000 }] 0).nanos < 15000 + 10000 ∧ (changing []).changing = true := by
  refine ⟨?_, ?_, ⟨?_, ?_, 0x6000, ?_⟩, ⟨?_, ?_, 0x6000, ?_⟩, ⟨?_, ?_, 0x6000, ?_⟩, ?_⟩ <;>
    first | decide +kernel | (unfold Canonical; decide +kernel)

/-- Counter 3 counts event 0x01. -/
def counted : State := user.modCore 0 fun c => { c with dbg := { c.dbg with pmsel0 := 0x01000000 } }

theorem witness_TracesAndCounters_counts : (counted.core 0).dbg.code 3 ∈ [0x01, 0x05, 0x07, 0x0A, 0x0F] ∧
    (user.core 0).dbg.code 3 ∉ [0x01, 0x05, 0x07, 0x0A, 0x0F] ∧ (user.ve 0).held = false ∧
    ((vectored (fun v => { v with held := true }) cn).ve 0).held = true := by decide +kernel

/-! ### The premises of the statements can be met: bring-up, repair, links, SPDM, steps -/

/-! What the checks of an image give is free (log 21): in place of an instance, the cases are all there are. -/

theorem image_checked (link : Bool) (img : List Byte) : Accepted link img ∨ ∃ e, FirstFailed link img e := by
  cases h1 : Config.fwFormat img with
  | false => exact .inr ⟨1, .format h1⟩
  | true =>
    cases h2 : Config.fwEcdsa img with
    | false => exact .inr ⟨2, .ecdsa h1 h2⟩
    | true =>
      cases h3 : Config.fwLms img with
      | false => exact .inr ⟨3, .lms h1 h2 h3⟩
      | true =>
        by_cases h4 : Config.fusedSvn link ≤ Config.fwSvn img
        · exact .inl ⟨h1, h2, h3, h4⟩
        · exact .inr ⟨4, .svn h1 h2 h3 (by omega)⟩

theorem slot_checked (b l : List Byte) : (Accepted false b ∧ Accepted true l) ∨ ∃ e, SlotFails b l e := by
  rcases image_checked false b with h | ⟨e, h⟩
  · rcases image_checked true l with k | ⟨e, k⟩
    · exact .inl ⟨h, k⟩
    · exact .inr ⟨e, .inr ⟨h, k⟩⟩
  · exact .inr ⟨e, .inl h⟩

/-- The rails are up, and 16 ms ago the firmware started; bent 0 has power. -/
def booting (t : Option Nat) : State :=
  let s := (onReady user fun r => { r with powerGood := true, tf := t }).modBent 0 fun x => { x with powered := true, poweredAt := 0 }
  { s with sched := { s.sched with nanos := 16000000 } }

/-- Bent 0 has had no power yet; its stacks have trained. -/
def unpowered : State := (booting (some 0)).modBent 0 fun x => { x with powered := false }
def stacked : State := onReady (booting (some 0)) fun r => { r with rdy := 0x30000 }

theorem witness_BringUp : user.ready.powerGood = false ∧ (booting none).ready.powerGood = true ∧ (booting none).ready.tf = none ∧
    (booting none).ready.rdy.extractLsb' 52 4 = 0 ∧ TurnPassed (booting (some 0)) 0 0 ∧ TurnPassed (booting (some 0)) 0 4000000 ∧
    TurnPassed (booting (some 0)) 0 12000000 ∧ ((booting (some 0)).bent 0).powered = true ∧
    ((booting (some 0)).bent 0).marched = false ∧ ((booting (some 0)).bent 0).held = [] ∧ PowerTurn unpowered 0 ∧
    Trained stacked 0 ∧ Unrepaired stacked 0 ∧ (user.bent 0).powered = false ∧
    (3 : BitVec 17).getLsbD 0 = true ∧ (3 : BitVec 17).getLsbD 1 = true := by
  refine ⟨?_, ?_, ?_, ?_, ⟨0, ?_⟩, ⟨0, ?_⟩, ⟨0, ?_⟩, ?_, ?_, ?_, ⟨⟨0, ?_⟩, ?_, fun c e => absurd e (by simp)⟩, ⟨?_, ?_⟩, ⟨?_, ?_⟩, ?_⟩ <;>
    decide +kernel

theorem witness_BringUp_early : ¬ TurnPassed user 0 0 := by
  rintro ⟨t, h, _⟩
  rw [show user.ready.tf = none by decide +kernel] at h
  cases h

/-- A REP value: VALID, the array, a site, row 1. -/
def repV (arr site : Nat) : Word := BitVec.ofNat 64 (2 ^ 63 + arr * 2 ^ 60 + site * 2 ^ 55 + 1)

theorem draws_user (arr : Nat) (h : arr < 4) : Draws user 0 (repV arr 0) 0 := by
  have : arr = 0 ∨ arr = 1 ∨ arr = 2 ∨ arr = 3 := by omega
  rcases this with h | h | h | h <;> subst h <;> refine ⟨?_, ?_, ?_, ?_⟩ <;> decide +kernel

def drained0 : State := user.modBent 0 fun x => { x with drawn := List.replicate 32 (0, 0) }
def testing0 : State := at0 (fun c => { c with testing := true }) id

theorem witness_RepairAndReset : Draws user 0 (repV 0 0) 0 ∧ Draws user 0 (repV 1 0) 0 ∧ Draws user 0 (repV 2 0) 0 ∧
    Draws user 0 (repV 3 0) 0 ∧ repArray (repV 1 0) = 1 ∧ repArray (repV 2 0) = 2 ∧ repArray (repV 3 0) = 3 ∧ user.mem.wf = true ∧
    (∀ q, bentOf q = 0 → user.siteOf q ≠ repSite (repV 0 16)) ∧ repSite (repV 0 16) < 17 ∧ drawnOf user 0 (repV 0 16) < 32 ∧
    (bentOf 0 = 0 ∧ tracked.siteOf 0 = repSite (repV 0 0) ∧ (tracked.core 0).place ≠ none) ∧ 32 ≤ drawnOf drained0 0 (repV 0 0) ∧
    4 ≤ repArray (repV 4 0) ∧ rowsOf (repArray (repV 0 0 + 16384)) ≤ repRow (repV 0 0 + 16384) ∧ (user.core 0).place = none ∧
    tracked.gangOf 0 = some gang3 ∧ Quiet tracked gang3 ∧ Canonical tracked ∧ (testing0.core 0).testing = true ∧
    bentFenced (testing0.bent (bentOf 0)).sitemap = false ∧ Unrepaired testing0 (bentOf 0) := by
  refine ⟨draws_user 0 (by decide), draws_user 1 (by decide), draws_user 2 (by decide), draws_user 3 (by decide), ?_, ?_, ?_, ?_, ?_,
    ?_, ?_, ?_, ?_, ?_, ?_, ?_, ?_, quiet_of _ _ ?_ ?_ ?_ ?_, ?_, ?_, ?_, ⟨?_, ?_⟩⟩ <;>
    first | (unfold Canonical; decide +kernel) | decide +kernel

/-- Both host links are up, in CXL mode, with a host pool of 256 bytes at 0. -/
def linked : State := onLinks (paged (onReady user fun r => { r with powerGood := true })) fun l =>
  { l with up := #v[true, true], cxl := true, hpsize := 256 }
def reqAt (bar : Fin 3) (off : Word) : HostReq := { bar := bar, wr := true, off := off, n := 2, v := 7, link := 1 }

/-- Offset 0 of BAR2/3 is at DMWBASE = 0. -/
theorem window_of (s : State) (r : HostReq) (h : s.links.dmwbase = 0) (k : r.off = 0) : windowAt s r = 0 := by
  simp [windowAt, lowered, h, k]

/-- A link is up and no stack ready; the frames of stack 0's first region change their form; a view begins at 0. -/
def unready : State := onLinks (onReady user fun r => { r with powerGood := true }) fun l => { l with up := #v[true, true] }
def reforming : State := linked.modCtl 0 fun c => { c with chg := some 0x0100 }
def viewed : State := linked.modCtl 0 fun c => { c with fr := vset c.fr 0 (fr0 0x01) }

theorem window_zero : windowAt linked (reqAt 1 0) = 0 ∧ windowAt unready (reqAt 1 0) = 0 ∧
    windowAt reforming (reqAt 1 0) = 0 ∧ windowAt viewed (reqAt 1 0) = 0 :=
  ⟨window_of _ _ (by decide +kernel) rfl, window_of _ _ (by decide +kernel) rfl, window_of _ _ (by decide +kernel) rfl,
   window_of _ _ (by decide +kernel) rfl⟩

theorem served_of (s : State) (r : HostReq) (u : vget s.links.up r.link.val = true) (h : s.links.hostHeld = [])
    (f : ¬ HostHolds s r) : HostServed s r := ⟨u, f, fun _ m => absurd (h ▸ m) List.not_mem_nil⟩

theorem free_of (s : State) (b : Fin 3) (o : Word) (c : s.changing = false)
    (m : s.formHeld (.phys (windowAt s (reqAt b o))) = false) : ¬ HostHolds s (reqAt b o) := by
  have e : b = 0 ∨ b = 1 ∨ b = 2 := by omega
  rcases e with e | e | e <;> subst e <;> simp [HostHolds, reqAt] at m ⊢ <;> simp_all

theorem witness_LinksServed_host : user.ready.powerGood = false ∧ linked.ready.powerGood = true ∧
    vget user.links.up (1 : Fin 2).val = false ∧ vget linked.links.up (1 : Fin 2).val = true ∧
    HostServed linked (reqAt 0 0x1000) ∧ HostServed linked (reqAt 1 0) ∧ HostServed linked (reqAt 2 0x5000) ∧
    HostServed linked (reqAt 2 0x5008) ∧ HostServed unready (reqAt 1 0) ∧
    Unserved unready (windowAt unready (reqAt 1 0)) false ∧ Unserved viewed (windowAt viewed (reqAt 1 0)) true ∧
    (¬ Unserved linked (windowAt linked (reqAt 1 0)) true) ∧ PlainHome linked (windowAt linked (reqAt 1 0)) 4 ∧
    (reqAt 2 0x5000).off.toNat % 2 ^ 18 = 4096 * (5 : BitVec 6).toNat ∧ 8 ≤ (reqAt 2 0x5008).off.toNat % 4096 ∧
    (List.replicate 128 (0 : Byte)).length = 128 ∧ lowered (0x85 : Word).toNat 128 < 2 ^ 52 ∧ Canonical linked := by
  refine ⟨by decide +kernel, by decide +kernel, by decide +kernel, by decide +kernel,
    served_of _ _ (by decide +kernel) (by decide +kernel) (free_of _ _ _ (by decide +kernel) ?_),
    served_of _ _ (by decide +kernel) (by decide +kernel) (free_of _ _ _ (by decide +kernel) ?_),
    served_of _ _ (by decide +kernel) (by decide +kernel) (free_of _ _ _ (by decide +kernel) ?_),
    served_of _ _ (by decide +kernel) (by decide +kernel) (free_of _ _ _ (by decide +kernel) ?_),
    served_of _ _ (by decide +kernel) (by decide +kernel) (free_of _ _ _ (by decide +kernel) ?_), ?_⟩
  case refine_6 =>
    rw [window_zero.1, window_zero.2.1, window_zero.2.2.2]
    unfold PlainHome Unserved Absent PlainAt Canonical
    decide +kernel
  all_goals decide +kernel

/-- A request for the trace control and one for device memory, which a region change holds, and one that is held no more. -/
theorem witness_LinksServed_held : HostHolds reforming (reqAt 0 0x7014) ∧ HostHolds reforming (reqAt 1 0) ∧
    vget reforming.links.up 1 = true ∧
    (onLinks reforming fun l => { l with hostHeld := [reqAt 1 0, reqAt 0 0] }).links.hostHeld = reqAt 1 0 :: [reqAt 0 0] ∧
    HostHolds (onLinks reforming fun l => { l with hostHeld := [reqAt 1 0, reqAt 0 0] }) (reqAt 1 0) ∧
    (onLinks linked fun l => { l with hostHeld := [reqAt 1 0] }).links.hostHeld = [reqAt 1 0] ∧
    (¬ HostHolds (onLinks linked fun l => { l with hostHeld := [reqAt 1 0] }) (reqAt 1 0)) ∧
    vget (onLinks linked fun l => { l with hostHeld := [reqAt 1 0] }).links.up 1 = true := by
  have h : ∀ s : State, windowAt s (reqAt 1 0) = 0 → ¬ Unserved s 0 true → s.formHeld (.phys 0) = true →
      HostHolds s (reqAt 1 0) := fun s w u f => by
    show ¬ Unserved s (windowAt s (reqAt 1 0)) true ∧ _
    rw [w]; exact ⟨u, f⟩
  refine ⟨⟨rfl, by decide +kernel, by decide +kernel, by decide +kernel⟩, h _ window_zero.2.2.1 ?_ ?_, ?_, rfl,
    h _ (window_of _ _ (by decide +kernel) rfl) ?_ ?_, rfl, free_of _ _ _ ?_ ?_, ?_⟩ <;>
    first | (unfold Unserved Absent; decide +kernel) | decide +kernel

def scarfed (f : Scarf → Scarf) : State := onScarf user 0 f

theorem witness_PeersServed_scarf : (scarfOf user 0).up = false ∧ (scarfOf (scarfed fun x => { x with up := true }) 0).up = true ∧
    (¬ Whole []) ∧
    (scarfOf (scarfed fun x => { x with up := true, resends := 8 }) 0).training = false ∧
    8 ≤ (scarfOf (scarfed fun x => { x with up := true, resends := 8 }) 0).resends ∧
    8 ≤ (scarfOf (scarfed fun x => { x with up := true, sendFails := 8 }) 0).sendFails ∧
    (scarfOf user 0).resends < 8 ∧ (scarfOf user 0).sendFails < 8 ∧
    (scarfOf (scarfed fun x => { x with training := true }) 0).training = true ∧
    3 ≤ (scarfOf (scarfed fun x => { x with failed := 3 }) 0).failed ∧ (scarfOf user 0).failed < 3 ∧
    (scarfOf user 0).training = false ∧ (scarfOf user 0).failed = 0 := by
  refine ⟨?_, ?_, fun h => absurd h.1 (by decide), ?_⟩ <;> decide +kernel

theorem leOfBytes_bytesOfNat8 (v : Word) : BitVec.ofNat 64 (leOfBytes (bytesOfNat v.toNat 8)) = v := by
  have h := v.isLt
  have e : leOfBytes (bytesOfNat v.toNat 8) = v.toNat := by
    simp [leOfBytes, bytesOfNat, Machine.byteOf, List.range_succ]
    omega
  rw [e, BitVec.ofNat_toNat, BitVec.setWidth_eq]

/-- A flit of zeros with whatever CRC it takes. -/
def zeros : List Byte := List.replicate 248 0
def flit0 : List Byte := zeros ++ bytesOfNat (Config.crc64 zeros).toNat 8

theorem witness_PeersServed_flit : Whole flit0 ∧
    flitNumber flit0 = (scarfOf (scarfed fun x => { x with up := true }) 0).expect.toNat ∧
    flitNumber flit0 ≠ (scarfOf (scarfed fun x => { x with up := true, expect := 0xFFF }) 0).expect.toNat ∧
    flitNumber flit0 ≠ (scarfOf (scarfed fun x => { x with up := true, expect := 0x800 }) 0).expect.toNat := by
  have z : zeros.length = 248 := by decide +kernel
  have e : flit0.take 248 = zeros := List.take_left' z
  have d : flit0.drop 248 = bytesOfNat (Config.crc64 zeros).toNat 8 := List.drop_left' z
  have f : flit0.take 4 = zeros.take 4 := List.take_append_of_le_length (by rw [z]; decide)
  refine ⟨⟨?_, ?_⟩, ?_, ?_, ?_⟩
  · rw [flit0, List.length_append, z, bytesOfNat, List.length_map, List.length_range]
  · rw [e, d, leOfBytes_bytesOfNat8]
  all_goals rw [flitNumber, f]; decide +kernel

def loadAt (off : BitVec 45) : PeerReq := ⟨5, off, 2, .load⟩
def storeAt (off : BitVec 45) : PeerReq := ⟨5, off, 2, .store 7⟩
/-- A peer's chunk of the place 0x2000. -/
def chunkOf (seq : W32) (fmt : BitVec 4) : PeerReq := ⟨1, 0x2000, 2, .chunk 3 seq fmt 0 4 [1, 2, 3, 4]⟩
def waited (r : PeerReq) : State := onLinks linked fun l => { l with peerHeld := [r] }

theorem behind_of (s : State) (r : PeerReq) (h : s.links.peerHeld = []) : ¬ PeerBehind s r := by
  rintro ⟨x, m, -⟩; rw [h] at m; exact absurd m List.not_mem_nil

theorem witness_PeersServed_peer : Unserved user (peerPlace (loadAt 0x2000)) (peerWrites (loadAt 0x2000)) ∧
    Unserved viewed (peerPlace (storeAt 0)) (peerWrites (storeAt 0)) ∧ (¬ PeerBehind viewed (storeAt 0)) ∧
    peerConfirm (storeAt 0) = false ∧ (¬ Unserved linked (peerPlace (loadAt 0x2000)) false) ∧
    linked.formHeld (.phys (peerPlace (loadAt 0x2000))) = false ∧
    PlainHome linked (lowered (0x2000 : BitVec 45).toNat (2 ^ (2 : Fin 4).val)) (2 ^ (2 : Fin 4).val) ∧
    (¬ Unserved linked (lowered (0x2000 : BitVec 45).toNat (2 ^ (2 : Fin 4).val)) true) ∧ linked.links.peerHeld = [] ∧
    (peerUnit 1, (3 : Byte), (9 : W32)) ∉ linked.dedup ∧
    (linked.dedup.filter fun x => x.1 == peerUnit 1).length < 4096 ∧ rcpyFmt 3 = some .int32 ∧ rcpyFmt 1 = none ∧
    ChunkPlain linked .int32 (Claims.peerChunk (0x2000 : BitVec 45).toNat 3 9 3 0 (([1, 2, 3, 4] : List Byte).take 4)) ∧
    (0x2000 : BitVec 45).toNat + (([1, 2, 3, 4] : List Byte).take 4).length ≤ 0x18000000000 ∧
    (peerUnit 1, (3 : Byte), (9 : W32)) ∈
      ({ linked with dedup := [(peerUnit 1, 3, 9)] } : State).dedup := by
  refine ⟨?_, ?_, behind_of _ _ ?_, ?_, ?_, ?_, ?_, ?_, ?_, ?_, ?_, ?_, ?_, ⟨0x2000, ?_⟩, ?_, ?_⟩ <;>
    first | (unfold PlainHome Absent PlainAt Canonical; decide +kernel) | (unfold Unserved Absent; decide +kernel) | decide +kernel

/-- A load that a region change holds, one behind it, and one that is held no more. -/
theorem witness_PeersServed_held : PeerHolds reforming (loadAt 0x2000) ∧ PeerBehind (waited (loadAt 0x2000)) (storeAt 0) ∧
    (onLinks reforming fun l => { l with peerHeld := [loadAt 0x2000, storeAt 0] }).links.peerHeld =
      loadAt 0x2000 :: [storeAt 0] ∧
    PeerHolds (onLinks reforming fun l => { l with peerHeld := [loadAt 0x2000, storeAt 0] }) (loadAt 0x2000) ∧
    (waited (loadAt 0x2000)).links.peerHeld = [loadAt 0x2000] ∧ ¬ PeerHolds (waited (loadAt 0x2000)) (loadAt 0x2000) := by
  refine ⟨⟨?_, ?_, ?_⟩, ⟨loadAt 0x2000, ?_, ?_⟩, rfl, ⟨?_, ?_, ?_⟩, rfl, fun h => absurd h.2.2 ?_⟩ <;>
    first | (unfold Unserved Absent; decide +kernel) | decide +kernel

/-- The length of the certificate chain is free: an offset lies in it or does not. -/
theorem witness_SpdmAnswered : user.ready.powerGood = false ∧ linked.ready.powerGood = true ∧ vget linked.links.up 0 = true ∧
    ∀ o, o < Config.certChain.length ∨ Config.certChain.length ≤ o := ⟨by decide +kernel, by decide +kernel, by decide +kernel, fun o => by omega⟩

def mulI : Instr := .mul rr
theorem witness_EncodeDecode : mulI.wf = true ∧ wordKind mulI = .scalar ∧ cn.wf = true ∧ wordKind cn = .command ∧
    (Instr.time ⟨false, 0xFD, 2, 5, true⟩).wf = true ∧ wordKind (.time ⟨false, 0xFD, 2, 5, true⟩) = .order ∧
    (Instr.coldReset).wf = true ∧ wordKind .coldReset = .event := by decide +kernel

theorem witness_DecodeEncode : decodeScalar 0x0250C400 = some (.add ⟨false, 5, 1, true, 2, false⟩) ∧
    decodeCmd [0xEC000000] = some (.cend ⟨0, false, 0, 0, 0⟩) ∧ decodeOrder 0x022C0000 = some (.inj ⟨false, 1, 3, false⟩) := by
  decide +kernel

/-- Core 0's CP at the start of its scratchpad, which holds the word `w`, is the next to act. -/
def fetching (w : W32) : State :=
  (at0 (fun c => { c with scratch := c.scratch.write 0 (bytesOfNat w.toNat 4) }) fun x =>
    { x with pc := BitVec.ofNat 64 spadBase }).modSched fun x => { x with inputs := [.context 0 .cp] }

theorem fetch_spad (s : State) (p : CoreId) (k : Ctx) (h : (s.ctx p k).pc = BitVec.ofNat 64 spadBase) :
    s.fetchAt p k = .ok (.spad 0) := by
  have e : (BitVec.ofNat 64 spadBase &&& ~~~3#64).toNat = spadBase := by decide
  have t : s.translate p (BitVec.ofNat 64 spadBase &&& ~~~3#64) .fetch (!(s.ctx p k).supMode) = .ok (.spad 0) := by
    unfold State.translate
    rw [e]
    show (if 2 ^ 52 ≤ spadBase then _ else _) = _
    rw [if_neg (by decide), if_pos (Nat.le_refl _), Nat.sub_self]
  rw [← h] at t
  show (match s.translate p ((s.ctx p k).pc &&& ~~~3#64) .fetch (!(s.ctx p k).supMode) with
    | .error e => .error (xerrCode .fetch e) | .ok l => .ok (l.align 4)) = (Except.ok (Loc.spad 0) : Except (Byte × Byte) Loc)
  rw [t]
  rfl

theorem witness_StepRuns (w : W32) (h : w = 0x0250C400 ∨ w = 0x04000007) :
    (fetching w).sched.inputs = .context 0 .cp :: [] ∧ (fetching w).clock.tripped = false ∧ MayIssue (fed (fetching w) []) 0 .cp ∧
    (∃ u, Fetched (fed (fetching w) []) 0 .cp w u ∧ Unasked u 0 .cp w) ∧
    ((fed (fetching w) []).ctx 0 .cp).shadow = none ∧ ((fed (fetching w) []).ctx 0 .cp).stepOver = false := by
  have m : MayIssue (fed (fetching w) []) 0 .cp := by
    rcases h with h | h <;> subst h <;> exact ⟨by decide +kernel, by decide +kernel, by decide +kernel⟩
  have g : (fed (fetching w) []).fetchAt 0 .cp = .ok (.spad 0) :=
    fetch_spad _ _ _ (by rcases h with h | h <;> subst h <;> decide +kernel)
  have f : BitVec.ofNat 32 (((fed (fetching w) []).note 0 ((fed (fetching w) []).ctx 0 .cp).pc).readLoc 0 (.spad 0) 4) = w := by
    rcases h with h | h <;> subst h <;> decide +kernel
  refine ⟨by rcases h with h | h <;> subst h <;> rfl, by rcases h with h | h <;> subst h <;> decide +kernel, m,
    ⟨(fed (fetching w) []).note 0 ((fed (fetching w) []).ctx 0 .cp).pc, ⟨.spad 0, g, ?_, ?_⟩, .inl ?_⟩, ?_⟩
  · rcases h with h | h <;> subst h <;> decide +kernel
  · show (BitVec.ofNat 32 _, _) = (w, _)
    rw [f]
  · rcases h with h | h <;> subst h <;> decide
  · rcases h with h | h <;> subst h <;> decide +kernel

/-- The context holds a shadow word, an ADD or a BRK, or stands past a step-over at a BRK of entry 3. -/
def shadowing (w : W32) : State := (fetching 0x0250C400).modCtx 0 .cp fun x => { x with shadow := some w }
def brkWord : W32 := 0x3c000303
def stepPast : State := { (fetching brkWord).modCtx 0 .cp (fun x => { x with stepOver := true }) with
  bksh := vset user.bksh 3 0x10250C400 }

theorem witness_StepRuns_shadow : ((shadowing brkWord).ctx 0 .cp).shadow = some brkWord ∧
    ((shadowing brkWord).ctx 0 .cp).run = .issuing ∧ ((shadowing 0x0250C400).ctx 0 .cp).shadow = some 0x0250C400 ∧
    ¬ IsBrk 0x0250C400 ∧ IsBrk brkWord := by
  refine ⟨by decide +kernel, by decide +kernel, by decide +kernel, ?_, ⟨false, 3, by decide +kernel⟩⟩
  rintro ⟨sb, n, h⟩
  rw [show decodeScalar 0x0250C400 = some (.add ⟨false, 5, 1, true, 2, false⟩) by decide +kernel] at h
  cases h

theorem witness_StepRuns_past : (stepPast.ctx 0 .cp).stepOver = true ∧ (stepPast.ctx 0 .cp).shadow = none ∧
    decodeScalar brkWord = some (.brk false 3) ∧ (vget stepPast.bksh (3 : BitVec 4).toNat).getLsbD 32 = true ∧
    (vget (fetching brkWord).bksh (3 : BitVec 4).toNat).getLsbD 32 = false := by decide +kernel

theorem witness_StepRuns_words : decodeScalar 0x0250C400 = some (.add ⟨false, 5, 1, true, 2, false⟩) ∧ decodeScalar 0x04000007 = none ∧
    user.ctlOff (.phys 0x2000) = none ∧ 0x2000 % 4 = 0 ∧ findLine (user.core 0).icache (0x2000 / 128 * 128) = none ∧
    findLine (user.bent (bentOf 0)).icache (0x2000 / 128 * 128) = none := by decide +kernel

def headQueued : State := (headed .s cn).modSched fun x => { x with inputs := [.engine 0 .s, .event .powerGood] }

theorem witness_StepRuns_engine : headQueued.sched.inputs = .engine 0 .s :: [.event .powerGood] ∧ headQueued.clock.tripped = false ∧
    headQueued.stalled 0 = false ∧ headQueued.halted 0 = false ∧ (headQueued.core 0).fenced = false ∧ HasTurn (fed headQueued [.event .powerGood]) 0 .s cn ∧
    headQueued.head? 0 .s = some (cmdOf cn) ∧ (cmdOf cn).ticket = none ∧ headQueued.changing = false ∧
    headerCheck (headerOf (cmdOf cn).words) { ep := .s, x := false } = none ∧ decodeCmd (cmdOf cn).words = some cn := by
  refine ⟨rfl, ?_, ?_, ?_, ?_, ⟨?_, .inr (.inr ⟨.l, .inr ⟨rfl, rfl⟩, ?_, ?_⟩)⟩, ?_⟩
  case refine_7 => exact .inl (by decide +kernel)
  all_goals decide +kernel

/-- An event is the next to act; a trip has switched the rails off. -/
def due (i : Instr) (f : Clock → Clock) : State := { fed user [.event i] with clock := f user.clock }

theorem witness_StepRuns_event : (due .powerGood id).sched.inputs = .event .powerGood :: [] ∧ (due .powerGood id).clock.tripped = false ∧
    (due .coldReset id).sched.inputs = .event .coldReset :: [] ∧
    (due .powerGood fun c => { c with tripped := true }).clock.tripped = true ∧ Turn.event .powerGood ≠ .event .coldReset :=
  ⟨rfl, by decide +kernel, rfl, by decide +kernel, by decide⟩

/-- The bent's other inputs, and the units that serve by turn. -/
theorem witness_StepRuns_inputs :
    ({ user with sched := { user.sched with inputs := [.barSize 3, .resendAsked 0 7 2] } } : State).sched.inputs =
      .barSize 3 :: [.resendAsked 0 7 2] ∧
    ({ user with sched := { user.sched with inputs := [.resendAsked 0 7 2] } } : State).sched.inputs = .resendAsked 0 7 2 :: [] ∧
    user.sched.inputs = [] ∧ user.clock.tripped = false ∧
    ({ user with marks := { user.marks with met := [(some 0, 0x2000)] } } : State).marks.met = [(some 0, 0x2000)] ∧
    user.gangNo 0 = none ∧ tracked.gangNo 0 ≠ none ∧ user.marks.met = [] := by decide +kernel

/-- A fetch without a translation; one whose table a region change holds; one whose word it holds. -/
def farFetch (n : Nat) : State :=
  let s := paged (user.modCtx 0 .cp fun x => { x with pc := 0x200000 })
  ({ s with ready := { s.ready with rdy := 0x30000 } }).modCtl n fun c => { c with chg := some 0x0100 }
theorem witness_StepRuns_fetches : user.fetchAt 0 .cp = .error (0x09, 1) ∧ (0x09 : Byte) ≠ cHeld ∧
    (farFetch 0).fetchAt 0 .cp = .error (cHeld, 0) ∧ (farFetch 1).fetchAt 0 .cp = .ok (.phys 0x200000) ∧
    (farFetch 1).formHeld (.phys 0x200000) = true ∧ MayIssue (farFetch 1) 0 .cp := by
  refine ⟨?_, ?_, ?_, ?_, ?_, ⟨?_, ?_, ?_⟩⟩ <;> decide +kernel

/-- The order of the agents is free: each number is a context's turn, an engine's or a unit's. -/
theorem witness_StepRuns_order (n : Nat) : ∃ m, n = 3 * m ∨ n = 3 * m + 1 ∨ n = 3 * m + 2 := ⟨n / 3, by omega⟩

theorem short_of {n : Nat} (v : Vector Queue n) (h : ∀ i, i < n → (vget v i).length ≤ 4) (i : Nat) : (vget v i).length ≤ 4 := by
  by_cases k : i < n
  · exact h i k
  · have e : vget v i = default := by simp [vget, Vector.getD, Array.getD, k]
    rw [e]; decide

/-- The module right after reset, a power-good next. -/
def fresh : State := fed State.reset [.event .powerGood]

theorem core_fresh (p : CoreId) : fresh.core p = {} := by
  show vget (Vector.replicate 256 ({} : Core)) p.val = _
  simp [vget, Vector.getD, Array.getD, p.isLt]

theorem fits_of (c : Core) (h : ∀ k : Ctx, vget (c.getCtx k).regs 0 = [] ∧ (∀ i, i < 32 → (vget (c.getCtx k).regs i).length ≤ 4) ∧
    ∀ i, i < 4 → (vget (c.getCtx k).sup i).length ≤ 4) (g : ∀ i, i < 4 → (vget c.chans i).length ≤ 4) : c.Fits :=
  ⟨fun k => ⟨(h k).1, short_of _ (h k).2.1, short_of _ (h k).2.2⟩, short_of _ g⟩

theorem fits_new : ({} : Core).Fits := fits_of _ (fun k => by cases k <;> decide +kernel) (by decide +kernel)

theorem witness_QueuesFit : AllFit fresh :=
  ⟨fun p => by rw [core_fresh]; exact fits_new, fun e h => by rw [show fresh.launch.pre = [] by decide +kernel] at h; cases h⟩

theorem witness_NumbersRise : AllNumbered fresh ∧ AllOrdered fresh := by
  refine ⟨fun p => ⟨fun k => ?_, ?_⟩, fun p => ?_, fun e h => ?_⟩
  · show ∀ i ∈ ((fresh.core p).getCtx k).pend, i.id < ((fresh.core p).getCtx k).nextId
    rw [core_fresh]
    cases k <;> decide +kernel
  · rw [core_fresh]; decide +kernel
  · rw [core_fresh]; decide +kernel
  · rw [show fresh.launch.pre = [] by decide +kernel] at h; cases h

theorem witness_StepsCanonical : Canonical fresh :=
  ⟨by decide +kernel, fun p => by rw [core_fresh]; decide +kernel⟩

/-- A step that answers a next state. -/
theorem step_runs (s : State) (h : s.clock.tripped = false) : ∃ t, step (fed s [.event .powerGood]) = .next t := by
  show ∃ t, mapNext State.tickClock (mapNext _ (if s.clock.tripped then _ else execPowerGood _)) = _
  rw [h]
  exact ⟨_, rfl⟩

theorem witness_steps : ∃ t, step fresh = .next t := step_runs State.reset (by decide +kernel)

/-- `addi x5, x0, 1` fetched from the scratchpad. -/
theorem test_step_fetches : inX5 ((nextOf (step (fetching 0x06500001))).ctx 0 .cp) = [1] ∧
    ((nextOf (step (fetching 0x06500001))).ctx 0 .cp).pc = BitVec.ofNat 64 (spadBase + 4) := by decide +kernel

end Sys2Proof.Tests
end

section
/-! PROOFS. The registers of the control space: which register the bytes of an access belong to, what a read of it returns
and what a write of it puts (R4, R5, R32). -/

namespace Sys2Proof.Machine

open Sys2Proof.Claims

/-! ### Whole registers -/

/-- The `n` bytes at `o`, an aligned access, are the first of register `r`, which is `w` bytes wide and starts there. -/
structure Spans (o n : Nat) (r : Reg) (w : Nat) : Prop where
  aligned : o % n = 0
  fits : n ≤ w
  bytes : ∀ i < n, regAt (o + i) = (r, o, w)

/-- The bits that an access of `2^n` bytes at the start of a register covers. -/
def sizeMask (n : Fin 4) : Word := BitVec.ofNat 64 (2 ^ (8 * 2 ^ n.val) - 1)

theorem leNat_of_byteOf {f : Nat → Byte} {a v n : Nat} (h : ∀ i < n, f (a + i) = byteOf v i) :
    leNat f a n = v % 256 ^ n := by
  induction n generalizing a v with
  | zero => simp [leNat, Nat.mod_one]
  | succ n ih =>
    have first : (f a).toNat = v % 256 := by simpa [byteOf] using congrArg BitVec.toNat (h 0 (by omega))
    have rest : leNat f (a + 1) n = v / 256 % 256 ^ n := ih fun i hi => by
      have := h (i + 1) (by omega)
      rw [show a + 1 + i = a + (i + 1) by omega, this, byteOf, byteOf, Nat.pow_succ', Nat.div_div_eq_div_mul]
    rw [leNat, first, rest, Nat.pow_succ', Nat.mod_mul]

theorem ctlRead_of_spans {o n w : Nat} {r : Reg} (h : Spans o n r w) (s : State) :
    s.ctlRead o n = (s.regGet r).toNat % 256 ^ n :=
  leNat_of_byteOf fun i hi => by simp [State.ctlByte, h.bytes i hi]

theorem toNat_mod_size (v : Word) (n : Fin 4) : v.toNat % 2 ^ (8 * 2 ^ n.val) = (v &&& sizeMask n).toNat := by
  have : 8 * 2 ^ n.val ≤ 64 := by fin_cases n <;> decide
  have pos := Nat.two_pow_pos (8 * 2 ^ n.val)
  have le : 2 ^ (8 * 2 ^ n.val) ≤ 2 ^ 64 := Nat.pow_le_pow_right (by decide) this
  have fits : (2 ^ (8 * 2 ^ n.val) - 1) % 2 ^ 64 = 2 ^ (8 * 2 ^ n.val) - 1 := Nat.mod_eq_of_lt (by omega)
  rw [sizeMask, BitVec.toNat_and, BitVec.toNat_ofNat, fits, Nat.and_two_pow_sub_one_eq_mod]

/-- A read of `2^n` bytes at the start of a register. -/
theorem ctlRead_size {o w : Nat} {n : Fin 4} {r : Reg} (h : Spans o (2 ^ n.val) r w) (s : State) :
    s.ctlRead o (2 ^ n.val) = (s.regGet r &&& sizeMask n).toNat := by
  rw [ctlRead_of_spans h, ← toNat_mod_size, show (256 : Nat) = 2 ^ 8 from rfl, ← Nat.pow_mul]

theorem ctlWrite_of_spans {o w : Nat} {n : Fin 4} {r : Reg} (h : Spans o (2 ^ n.val) r w) (s : State) (v : Word) :
    s.ctlWrite o (2 ^ n.val) v.toNat = s.regPut r (v &&& sizeMask n) (sizeMask n) := by
  have here : regAt o = (r, o, w) := h.bytes 0 (Nat.two_pow_pos _)
  have start : o / 2 ^ n.val * 2 ^ n.val = o := Nat.div_mul_cancel (Nat.dvd_of_mod_eq_zero h.aligned)
  have whole : min (2 ^ n.val) (o + w - o) = 2 ^ n.val := by have := h.fits; omega
  simp only [State.ctlWrite, start, here, whole, Nat.lt_irrefl, if_false, State.partWrite, Nat.sub_self, Nat.mul_zero,
    Nat.pow_zero, Nat.mul_one, toNat_mod_size, BitVec.ofNat_toNat, BitVec.setWidth_eq]
  rfl

theorem ctlHeld_of_spans {o w : Nat} {n : Fin 4} {r : Reg} (h : Spans o (2 ^ n.val) r w) (hr : r ≠ .trCtl) (s : State) :
    s.ctlHeld o (2 ^ n.val) = false := by
  have pos := Nat.two_pow_pos n.val
  have start : o / 2 ^ n.val * 2 ^ n.val = o := Nat.div_mul_cancel (Nat.dvd_of_mod_eq_zero h.aligned)
  have first : regAt o = (r, o, w) := h.bytes 0 pos
  have last : regAt (o + 2 ^ n.val - 1) = (r, o, w) := by
    rw [Nat.add_sub_assoc pos]; exact h.bytes _ (by omega)
  cases r <;> simp_all [State.ctlHeld]

/-- REGISTER_WRITE of a whole register, or of its first bytes, other than TRCTL, puts the bits covered. -/
theorem registerWrite_of_spans {o : BitVec 26} {n : Fin 4} {r : Reg} {w : Nat} (h : Spans o.toNat (2 ^ n.val) r w)
    (hr : r ≠ .trCtl) (s : State) (v : Word) :
    exec (.registerWrite o n v) s = .next (s.regPut r (v &&& sizeMask n) (sizeMask n)) := by
  simp [execRegisterWrite, ctlHeld_of_spans h hr, ctlWrite_of_spans h]

/-! ### Where the registers stand (R32) -/

theorem regAt_lq {o : Nat} (h : 0x10000 ≤ o) (h' : o < 0x11000) : regAt o = lqReg o := by
  rw [regAt, if_pos (by omega), devReg, if_pos ⟨h, h'⟩]

theorem spans_lqBase {q : Nat} (hq : q < 64) : Spans (0x10000 + 64 * q) 8 (.lqBase q) 8 where
  aligned := by omega
  fits := by omega
  bytes i hi := by
    have word : (0x10000 + 64 * q + i) % 0x40 / 4 = 0 ∨ (0x10000 + 64 * q + i) % 0x40 / 4 = 1 := by omega
    have queue : (0x10000 + 64 * q + i - 0x10000) / 0x40 = q := by omega
    have start : (0x10000 + 64 * q + i) / 8 * 8 = 0x10000 + 64 * q := by omega
    rw [regAt_lq (by omega) (by omega)]
    rcases word with e | e <;> simp only [lqReg, e, queue, at64, start]

/-- A 32-bit register of a launch queue, at `x` in the queue's block. -/
theorem spans_lq32 {q x : Nat} {r : Nat → Reg} (hq : q < 64) (hx : x < 64) (ha : x % 4 = 0)
    (hr : ∀ o, o % 0x40 / 4 = x / 4 → lqReg o = at32 (r ((o - 0x10000) / 0x40)) o) :
    Spans (0x10000 + 64 * q + x) 4 (r q) 4 where
  aligned := by omega
  fits := by omega
  bytes i hi := by
    have queue : (0x10000 + 64 * q + x + i - 0x10000) / 0x40 = q := by omega
    have start : (0x10000 + 64 * q + x + i) / 4 * 4 = 0x10000 + 64 * q + x := by omega
    rw [regAt_lq (by omega) (by omega), hr _ (by omega), at32, queue, start]

theorem spans_lqSize {q : Nat} (hq : q < 64) : Spans (0x10000 + 64 * q + 0x08) 4 (.lqSize q) 4 :=
  spans_lq32 (r := .lqSize) hq (by decide) rfl fun o e => by simp only [lqReg, e]
theorem spans_lqPrio {q : Nat} (hq : q < 64) : Spans (0x10000 + 64 * q + 0x0C) 4 (.lqPrio q) 4 :=
  spans_lq32 (r := .lqPrio) hq (by decide) rfl fun o e => by simp only [lqReg, e]
theorem spans_lqHead {q : Nat} (hq : q < 64) : Spans (0x10000 + 64 * q + 0x10) 4 (.lqHead q) 4 :=
  spans_lq32 (r := .lqHead) hq (by decide) rfl fun o e => by simp only [lqReg, e]
theorem spans_lqTail {q : Nat} (hq : q < 64) : Spans (0x10000 + 64 * q + 0x14) 4 (.lqTail q) 4 :=
  spans_lq32 (r := .lqTail) hq (by decide) rfl fun o e => by simp only [lqReg, e]
theorem spans_lqWd {q i : Nat} (hq : q < 64) (hi : i < 3) : Spans (0x10000 + 64 * q + (0x18 + 4 * i)) 4 (.lqWd q i) 4 :=
  spans_lq32 (r := fun q => .lqWd q i) hq (by omega) (by omega) fun o e => by
    obtain rfl | rfl | rfl : i = 0 ∨ i = 1 ∨ i = 2 := by omega
    all_goals simp only [lqReg, e]
theorem spans_lqStat {q : Nat} (hq : q < 64) : Spans (0x10000 + 64 * q + 0x24) 4 (.lqStat q) 4 :=
  spans_lq32 (r := .lqStat) hq (by decide) rfl fun o e => by simp only [lqReg, e]

theorem regAt_bent (b : BentId) {x : Nat} (hx : x < 0x200000) :
    regAt (0x1000000 + 0x200000 * b.val + x) = shiftPlace (0x1000000 + b.val * 0x200000) (bentReg b x) := by
  have bent : (0x1000000 + 0x200000 * b.val + x - 0x1000000) / 0x200000 = b.val := by omega
  have off : (0x1000000 + 0x200000 * b.val + x - 0x1000000) % 0x200000 = x := by omega
  have id : bentOfNat b.val = b := Fin.ext (Nat.mod_eq_of_lt b.isLt)
  rw [regAt, if_neg (by omega), if_pos (by omega)]
  simp only [bent, off, id]

/-- A register of a bent's block, at `x` in it. -/
theorem spans_bent {b : BentId} {x n w : Nat} {r : Reg} (ha : x % n = 0) (hn : 0x200000 % n = 0) (hx : x + n ≤ 0x200000) (hw : n ≤ w)
    (h : ∀ i < n, bentReg b (x + i) = (r, x, w)) : Spans (0x1000000 + 0x200000 * b.val + x) n r w where
  aligned := by
    rw [show 0x1000000 + 0x200000 * b.val + x = x + 0x200000 * (8 + b.val) by omega, Nat.add_mod, Nat.mul_mod, hn, ha]
    simp
  fits := hw
  bytes i hi := by
    rw [Nat.add_assoc _ x i, regAt_bent b (by omega), h i hi, shiftPlace, Nat.mul_comm b.val]

theorem spans_balival (b : BentId) : Spans (0x1000000 + 0x200000 * b.val) 4 (.balival b) 4 :=
  spans_bent (x := 0) rfl rfl (by decide) (by decide) fun i hi => by interval_cases i <;> rfl

theorem spans_errce (b : BentId) : Spans (0x1000000 + 0x200000 * b.val + 0x100) 8 (.errce b) 8 :=
  spans_bent rfl rfl (by decide) (by decide) fun i hi => by interval_cases i <;> rfl
theorem spans_errue (b : BentId) : Spans (0x1000000 + 0x200000 * b.val + 0x108) 8 (.errue b) 8 :=
  spans_bent rfl rfl (by decide) (by decide) fun i hi => by interval_cases i <;> rfl
theorem spans_sitemap (b : BentId) : Spans (0x1000000 + 0x200000 * b.val + 0x200) 8 (.sitemap b) 8 :=
  spans_bent rfl rfl (by decide) (by decide) fun i hi => by interval_cases i <;> rfl

/-- The context-banked numbers of a core's page (R177). -/
theorem pageReg_banked (p : CoreId) (k : Ctx) {n i : Nat} (hn : n < 16) (hi : i < 8) :
    pageReg p (0x80 * k.idx.val + 8 * n + i) = (.csr p k n, 0x80 * k.idx.val + 8 * n, 8) := by
  have number : (0x80 * k.idx.val + 8 * n + i) % 0x80 / 8 = n := by omega
  have start : (0x80 * k.idx.val + 8 * n + i) / 8 * 8 = 0x80 * k.idx.val + 8 * n := by omega
  have bank : (if 0x80 * k.idx.val + 8 * n + i < 0x80 then Ctx.ld else if 0x80 * k.idx.val + 8 * n + i < 0x100 then .cp else .st) = k := by
    cases k <;> simp only [Ctx.idx] <;> grind
  rw [pageReg, if_pos (by omega)]
  simp only [bank, number, hn, if_true, at64, start]

theorem spans_page (p : CoreId) (k : Ctx) {n : Nat} (hn : n < 16) :
    Spans (0x1000000 + 0x200000 * (bentOf p).val + (0x100000 + p.val % 16 * 0x8000 + (0x80 * k.idx.val + 8 * n))) 8 (.csr p k n) 8 :=
  spans_bent (by omega) rfl (by omega) (Nat.le_refl 8) fun i hi => by
    have page : (0x100000 + p.val % 16 * 0x8000 + (0x80 * k.idx.val + 8 * n) + i - 0x100000) / 0x8000 = p.val % 16 := by omega
    have off : (0x100000 + p.val % 16 * 0x8000 + (0x80 * k.idx.val + 8 * n) + i) % 0x8000 = 0x80 * k.idx.val + 8 * n + i := by omega
    have core : coreOfBent (bentOf p) (p.val % 16) = p := Fin.ext (by simp only [coreOfBent, bentOf]; omega)
    rw [bentReg, if_pos (by omega)]
    simp only [page, off, core, pageReg_banked p k hn hi]
    congr 2
    omega

theorem spans_peermap {d : Nat} (h : d < 1024) : Spans (0x3002000 + 4 * d) 4 (.peermap d) 4 where
  aligned := by omega
  fits := by omega
  bytes i hi := by
    have number : (0x3002000 + 4 * d + i - 0x3000000 - 0x2000) / 4 = d := by omega
    have start : 0x3000000 + (0x3002000 + 4 * d + i - 0x3000000) / 4 * 4 = 0x3002000 + 4 * d := by omega
    rw [regAt, if_neg (by omega), if_neg (by omega), if_pos (by omega), linkReg, if_neg (by omega), if_pos (by omega)]
    simp only [shiftPlace, at32, number, start]

/-! ### Plain registers -/

/-- The registers that take a whole write in the bits `bits` and read them back: log2 of the width in bytes, and the bits. -/
inductive Plain : Reg → Fin 4 → Word → Prop
  | lqBase (q : Nat) : Plain (.lqBase q) 3 all64
  | lqSize (q : Nat) : Plain (.lqSize q) 2 0xFFFFFFFF
  | lqPrio (q : Nat) : Plain (.lqPrio q) 2 0xFFFFFFFF
  | lqTail (q : Nat) : Plain (.lqTail q) 2 0xFFFFFFFF
  | lqWd (q i : Nat) : Plain (.lqWd q i) 2 0xFFFFFFFF
  | fltBase : Plain .fltBase 3 all64
  | fltSize : Plain .fltSize 2 0xFFFFFFFF
  | fltHead : Plain .fltHead 2 0xFFFFFFFF
  | pmrec : Plain .pmrec 3 all64
  | pmsave : Plain .pmsave 3 all64
  | trBase : Plain .trBase 3 all64
  | trSize : Plain .trSize 2 0xFFFFFFFF
  | trQmask : Plain .trQmask 3 all64
  | trSpBase : Plain .trSpBase 3 all64
  | trSpCnt : Plain .trSpCnt 2 0xFFFFFFFF
  | balival (b : BentId) : Plain (.balival b) 2 0x3FF
  | dmwbase : Plain .dmwbase 3 0x1FFF0000000
  | devid : Plain .devid 2 0x3FF
  | peermap {d : Nat} (h : d < 1024) : Plain (.peermap d) 2 0x3FFFF

variable {r : Reg} {n : Fin 4} {bits : Word}

theorem Plain.bits_covered (h : Plain r n bits) : bits &&& sizeMask n = bits := by
  cases h <;> decide

theorem Plain.ne_trCtl (h : Plain r n bits) : r ≠ .trCtl := by
  rintro rfl; cases h

theorem put_eq_tookBits (old v mask bits : Word) : put old v mask bits = tookBits old v (mask &&& bits) := by
  rw [put, tookBits, BitVec.and_assoc]

theorem put32_eq_tookBits (old : W32) (v : Word) {mask bits : Word} (h : (mask &&& bits) >>> 32 = 0) :
    (put32 old v mask bits).setWidth 64 = tookBits (old.setWidth 64) v (mask &&& bits) := by
  rw [put32, put_eq_tookBits]
  generalize mask &&& bits = m at h
  ext i hi
  have low : 32 ≤ i → m.getLsbD i = false := fun hl => by
    have := congrArg (·.getLsbD (i - 32)) h
    simpa [show 32 + (i - 32) = i by omega] using this
  simp only [tookBits]
  grind

theorem put_double (old v : Word) : put old v (sizeMask 3) all64 = tookBits old v all64 := put_eq_tookBits ..

theorem put32_word (old : W32) (v : Word) :
    (put32 old v (sizeMask 2) all64).setWidth 64 = tookBits (old.setWidth 64) v 0xFFFFFFFF :=
  put32_eq_tookBits old v (by decide)

/-- A plain register written whole takes its bits and keeps its reserved ones. -/
theorem Plain.regGet_regPut (h : Plain r n bits) (s : State) (v : Word) :
    (s.regPut r v (sizeMask n)).regGet r = tookBits (s.regGet r) v bits := by
  cases h with
  | lqBase q => simp [State.regPut, State.regGet, State.lqPut, put_double]
  | lqSize q | lqPrio q | lqTail q => simp [State.regPut, State.regGet, State.lqPut, put32_word]
  | lqWd q i =>
    match i with
    | 0 | 1 | i + 2 => simp [State.regPut, State.regGet, State.lqPut, put32_word]
  | fltBase | pmrec | pmsave | trBase | trQmask | trSpBase => exact put_double ..
  | fltSize | fltHead | trSize | trSpCnt => exact put32_word ..
  | balival b =>
    simp only [State.regPut, State.regGet, bent_modBent]
    exact put32_eq_tookBits _ v (by decide)
  | dmwbase => exact put_eq_tookBits ..
  | devid => exact put32_eq_tookBits _ v (by decide)
  | peermap hd =>
    simp only [State.regPut, State.regGet, modLinks_links, vget_vmod_same _ _ _ hd]
    exact put32_eq_tookBits _ v (by decide)

/-- A write of a plain register changes no core and no memory. -/
theorem Plain.regPut_frame (h : Plain r n bits) (s : State) (v mask : Word) :
    (s.regPut r v mask).cores = s.cores ∧ (s.regPut r v mask).mem = s.mem := by
  cases h <;> exact ⟨rfl, rfl⟩

/-- A whole write of a plain register whose reserved bits are 0 reads back as its bits. -/
theorem Plain.read_back {o : BitVec 26} (h : Plain r n bits) (hs : Spans o.toNat (2 ^ n.val) r (2 ^ n.val)) (s : State) (v : Word)
    (hz : BitVec.ofNat 64 (s.ctlRead o.toNat (2 ^ n.val)) &&& ~~~bits = 0) :
    ∃ t, exec (.registerWrite o n v) s = .next t ∧ t.ctlRead o.toNat (2 ^ n.val) = (v &&& bits).toNat ∧
      t.cores = s.cores ∧ t.mem = s.mem := by
  refine ⟨_, registerWrite_of_spans hs h.ne_trCtl s v, ?_, h.regPut_frame ..⟩
  rw [ctlRead_size hs, h.regGet_regPut]
  rw [ctlRead_size hs, BitVec.ofNat_toNat, BitVec.setWidth_eq] at hz
  have covered := h.bits_covered
  congr 1
  calc tookBits (s.regGet r) (v &&& sizeMask n) bits &&& sizeMask n
      = (s.regGet r &&& sizeMask n &&& ~~~bits) ||| (v &&& sizeMask n &&& (bits &&& sizeMask n)) := by
        ext i hi; simp only [tookBits]; grind
    _ = v &&& bits := by rw [hz, covered, BitVec.and_assoc, BitVec.and_comm (sizeMask n), covered]; exact BitVec.zero_or

/-- The plain registers of a launch queue's block. -/
theorem plainReg_lq {o : Nat} (h : 0x10000 ≤ o) (h' : o < 0x11000) (hp : plainReg o = some (n, bits)) :
    ∃ r, Plain r n bits ∧ Spans o (2 ^ n.val) r (2 ^ n.val) := by
  obtain ⟨q, x, hq, hx, rfl⟩ : ∃ q x, q < 64 ∧ x < 64 ∧ o = 0x10000 + 64 * q + x :=
    ⟨(o - 0x10000) / 64, o % 64, by omega, by omega, by omega⟩
  have off : (0x10000 + 64 * q + x) % 64 = x := by omega
  simp only [plainReg, h, h', and_self, if_true, off] at hp
  split at hp
  · next e =>
    subst e; cases hp
    exact ⟨_, .lqBase q, spans_lqBase hq⟩
  · split at hp
    · next e =>
      cases hp
      simp only [List.mem_cons, List.not_mem_nil, or_false] at e
      rcases e with rfl | rfl | rfl | rfl | rfl | rfl
      · exact ⟨_, .lqSize q, spans_lqSize hq⟩
      · exact ⟨_, .lqPrio q, spans_lqPrio hq⟩
      · exact ⟨_, .lqTail q, spans_lqTail hq⟩
      · exact ⟨_, .lqWd q 0, spans_lqWd (i := 0) hq (by decide)⟩
      · exact ⟨_, .lqWd q 1, spans_lqWd (i := 1) hq (by decide)⟩
      · exact ⟨_, .lqWd q 2, spans_lqWd (i := 2) hq (by decide)⟩
    · cases hp

theorem plainReg_spans {o : Nat} (hp : plainReg o = some (n, bits)) : ∃ r, Plain r n bits ∧ Spans o (2 ^ n.val) r (2 ^ n.val) := by
  by_cases lq : 0x10000 ≤ o ∧ o < 0x11000
  · exact plainReg_lq lq.1 lq.2 hp
  simp only [plainReg, lq, if_false] at hp
  split at hp
  · next bent =>
    split at hp
    · cases hp
      obtain ⟨b, rfl⟩ : ∃ b : BentId, o = 0x1000000 + 0x200000 * b.val :=
        ⟨⟨(o - 0x1000000) / 0x200000, by omega⟩, by simp only; omega⟩
      exact ⟨_, .balival b, spans_balival b⟩
    · cases hp
  split at hp
  · next peer =>
    split at hp
    · cases hp
      obtain ⟨d, hd, rfl⟩ : ∃ d, d < 1024 ∧ o = 0x3002000 + 4 * d := ⟨(o - 0x3002000) / 4, by omega, by omega⟩
      exact ⟨_, .peermap hd, spans_peermap hd⟩
    · cases hp
  split at hp
  · next e =>
    cases hp
    simp only [List.mem_cons, List.not_mem_nil, or_false] at e
    rcases e with rfl | rfl | rfl | rfl | rfl | rfl
    · exact ⟨_, .fltBase, by decide, by decide, by decide⟩
    · exact ⟨_, .pmrec, by decide, by decide, by decide⟩
    · exact ⟨_, .pmsave, by decide, by decide, by decide⟩
    · exact ⟨_, .trBase, by decide, by decide, by decide⟩
    · exact ⟨_, .trQmask, by decide, by decide, by decide⟩
    · exact ⟨_, .trSpBase, by decide, by decide, by decide⟩
  split at hp
  · next e =>
    cases hp
    simp only [List.mem_cons, List.not_mem_nil, or_false] at e
    rcases e with rfl | rfl | rfl | rfl
    · exact ⟨_, .fltSize, by decide, by decide, by decide⟩
    · exact ⟨_, .fltHead, by decide, by decide, by decide⟩
    · exact ⟨_, .trSize, by decide, by decide, by decide⟩
    · exact ⟨_, .trSpCnt, by decide, by decide, by decide⟩
  split at hp
  · next e => cases hp; subst e; exact ⟨_, .dmwbase, by decide, by decide, by decide⟩
  split at hp
  · next e => cases hp; subst e; exact ⟨_, .devid, by decide, by decide, by decide⟩
  · cases hp

/-! ### Read-only registers -/

/-- The registers of `readOnly`: each stands at its place, at least 4 bytes wide, and ignores every write. -/
inductive ReadOnly : Reg → Prop
  | lqHead (q : Nat) : ReadOnly (.lqHead q)
  | featlvl : ReadOnly .featlvl
  | fltTail : ReadOnly .fltTail
  | fltStat : ReadOnly .fltStat
  | pmcnt : ReadOnly .pmcnt
  | rdy : ReadOnly .rdy
  | trTail : ReadOnly .trTail
  | trStat : ReadOnly .trStat
  | hlstat : ReadOnly .hlstat
  | errce (b : BentId) : ReadOnly (.errce b)
  | errue (b : BentId) : ReadOnly (.errue b)

theorem ReadOnly.regPut (h : ReadOnly r) (s : State) (v mask : Word) : s.regPut r v mask = s := by
  cases h <;> rfl

theorem ReadOnly.ne_trCtl (h : ReadOnly r) : r ≠ .trCtl := by
  rintro rfl; cases h

theorem Spans.word {o w : Nat} (h : Spans o 8 r w) : Spans o 4 r w where
  aligned := by have := h.aligned; omega
  fits := by have := h.fits; omega
  bytes i hi := h.bytes i (by omega)

theorem readOnly_spans {o : Nat} (h : readOnly o = true) : ∃ r w, ReadOnly r ∧ Spans o 4 r w := by
  simp only [readOnly, Bool.or_eq_true, Bool.and_eq_true, decide_eq_true_eq, beq_iff_eq, List.contains_eq_mem,
    List.mem_cons, List.not_mem_nil, or_false] at h
  rcases h with (⟨lq, e⟩ | e) | ⟨bent, e⟩
  · obtain ⟨q, hq, rfl⟩ : ∃ q, q < 64 ∧ o = 0x10000 + 64 * q + 0x10 := ⟨(o - 0x10000) / 64, by omega, by omega⟩
    exact ⟨_, _, .lqHead q, spans_lqHead hq⟩
  · rcases e with rfl | rfl | rfl | rfl | rfl | rfl | rfl | rfl
    · exact ⟨_, 4, .featlvl, by decide, by decide, by decide⟩
    · exact ⟨_, 4, .fltTail, by decide, by decide, by decide⟩
    · exact ⟨_, 4, .fltStat, by decide, by decide, by decide⟩
    · exact ⟨_, 4, .pmcnt, by decide, by decide, by decide⟩
    · exact ⟨_, 8, .rdy, by decide, by decide, by decide⟩
    · exact ⟨_, 4, .trTail, by decide, by decide, by decide⟩
    · exact ⟨_, 4, .trStat, by decide, by decide, by decide⟩
    · exact ⟨_, 4, .hlstat, by decide, by decide, by decide⟩
  · obtain ⟨b, hb⟩ : ∃ b : BentId, b.val = (o - 0x1000000) / 0x200000 := ⟨⟨_, by omega⟩, rfl⟩
    rcases e with e | e
    · obtain rfl : o = 0x1000000 + 0x200000 * b.val + 0x100 := by omega
      exact ⟨_, _, .errce b, (spans_errce b).word⟩
    · obtain rfl : o = 0x1000000 + 0x200000 * b.val + 0x108 := by omega
      exact ⟨_, _, .errue b, (spans_errue b).word⟩

theorem ReadOnly.ignored {o : BitVec 26} (h : readOnly o.toNat = true) (s : State) (v : Word) :
    exec (.registerWrite o 2 v) s = .next s := by
  obtain ⟨r, w, hr, hs⟩ := readOnly_spans h
  rw [registerWrite_of_spans hs hr.ne_trCtl, hr.regPut]

/-! ### The status of a launch queue, the trap registers of a context -/

/-- LQSTAT written: BADREC, WDFENCE, WDKILL and WDPREEMPT clear where written 1 (R42). -/
theorem registerWrite_lqStat (q : BitVec 6) (s : State) (v : Word) :
    exec (.registerWrite (BitVec.ofNat 26 (0x10024 + 64 * q.toNat)) 2 v) s =
      .next (s.modLq q fun x => { x with stat := x.stat &&& ~~~(v.setWidth 32 &&& 0x3C) }) := by
  have place : (BitVec.ofNat 26 (0x10024 + 64 * q.toNat)).toNat = 0x10000 + 64 * q.toNat + 0x24 := by
    rw [BitVec.toNat_ofNat]; omega
  have low : ((v &&& sizeMask 2 &&& sizeMask 2) &&& 0x3C).setWidth 32 = v.setWidth 32 &&& 0x3C := by
    rw [BitVec.and_assoc, BitVec.and_assoc, show sizeMask 2 &&& (sizeMask 2 &&& 0x3C) = 0x3C by decide, BitVec.setWidth_and]
    rfl
  rw [registerWrite_of_spans (place ▸ spans_lqStat q.isLt) (by simp)]
  simp only [State.regPut, State.lqPut, BitVec.ofNat_toNat, BitVec.setWidth_eq, low]

theorem pageAt_toNat (p : CoreId) (k : Ctx) {n : Nat} (hn : n < 16) :
    (pageAt p k n).toNat = 0x1000000 + 0x200000 * (bentOf p).val + (0x100000 + p.val % 16 * 0x8000 + (0x80 * k.idx.val + 8 * n)) := by
  have := k.idx.isLt
  rw [pageAt, BitVec.toNat_ofNat]
  simp only [bentOf]
  omega

/-- A whole write of a context's banked number `n` (R177). -/
theorem registerWrite_page (p : CoreId) (k : Ctx) {n : Nat} (hn : n < 16) (s : State) (v : Word) :
    exec (.registerWrite (pageAt p k n) 3 v) s = .next (s.modCtx p k fun x => x.csrPut n v all64) := by
  rw [registerWrite_of_spans (n := 3) (pageAt_toNat p k hn ▸ spans_page p k hn) (by simp), show sizeMask 3 = all64 by decide,
    show v &&& all64 = v from BitVec.and_allOnes]
  simp only [State.regPut, State.csrPut, if_pos hn]

theorem put_all (old v bits : Word) : put old v all64 bits = tookBits old v bits := by
  rw [put_eq_tookBits, all64, BitVec.allOnes_and]

theorem tookBits_all (old v : Word) : tookBits old v all64 = v := by
  rw [tookBits, all64, BitVec.not_allOnes, BitVec.and_zero, BitVec.zero_or, BitVec.and_allOnes]

end Sys2Proof.Machine

namespace Sys2Proof.Proofs

open Sys2Proof.Machine Sys2Proof.Claims

/-- Settles O44: a write acts on the register its bytes belong to; the plain and the read-only registers are named, and each
stands at the places that the statement lists. -/
theorem registerWrites : Obligations.RegisterWrites := by
  intro s
  refine ⟨fun o n bits v hp hz => ?_, fun o v h => ReadOnly.ignored h s v, fun q v => registerWrite_lqStat q s v,
    fun p k v => ⟨?_, ?_, ?_, ?_, ?_, ?_, ?_⟩⟩
  · obtain ⟨r, plain, spans⟩ := plainReg_spans hp
    exact plain.read_back spans s v hz
  all_goals
    rw [registerWrite_page p k (by decide)]
    simp only [Context.csrPut, put_all, tookBits_all]

end Sys2Proof.Proofs
end

section
/-! PROOFS. The module right after a cold reset (R6). -/

namespace Sys2Proof.Machine

open Sys2Proof.Claims

theorem vget_replicate {α : Type} [Inhabited α] {n i : Nat} (x : α) (h : i < n) : vget (Vector.replicate n x) i = x := by
  simp [vget, Vector.getD, Array.getD, h]

@[simp] theorem reset_core (p : CoreId) : State.reset.core p = {} := vget_replicate _ p.isLt
@[simp] theorem reset_bent (b : BentId) : State.reset.bent b = {} := vget_replicate _ b.isLt
@[simp] theorem reset_lq (q : BitVec 6) : State.reset.lq q = {} := vget_replicate _ q.isLt

@[simp] theorem reset_ctx (p : CoreId) (k : Ctx) : State.reset.ctx p k = {} := by
  rw [State.ctx, reset_core]
  exact vget_replicate _ k.idx.isLt

theorem reset_lqStat (q : Nat) : State.reset.regGet (.lqStat q) = 0 := by
  have none_running : State.reset.runningOf (BitVec.ofNat 6 q) = 0 := rfl
  simp only [State.regGet, reset_lq, none_running]
  decide

/-- Every 32-bit register of a launch queue's block that R42 names reads 0 after a reset. -/
theorem reset_lqBlock {q : Nat} (hq : q < 64) {o : Nat} (ho : o ∈ [0x08, 0x0C, 0x10, 0x14, 0x18, 0x1C, 0x20, 0x24]) :
    ∃ r, Spans (0x10000 + 64 * q + o) 4 r 4 ∧ State.reset.regGet r = 0 := by
  simp only [List.mem_cons, List.not_mem_nil, or_false] at ho
  rcases ho with rfl | rfl | rfl | rfl | rfl | rfl | rfl | rfl
  · exact ⟨_, spans_lqSize hq, by simp [State.regGet]⟩
  · exact ⟨_, spans_lqPrio hq, by simp [State.regGet]⟩
  · exact ⟨_, spans_lqHead hq, by simp [State.regGet]⟩
  · exact ⟨_, spans_lqTail hq, by simp [State.regGet]⟩
  · exact ⟨_, spans_lqWd (i := 0) hq (by decide), by simp [State.regGet]⟩
  · exact ⟨_, spans_lqWd (i := 1) hq (by decide), by simp [State.regGet]⟩
  · exact ⟨_, spans_lqWd (i := 2) hq (by decide), by simp [State.regGet]⟩
  · exact ⟨_, spans_lqStat hq, reset_lqStat q⟩

/-- The registers of a bent's block after a reset (R54, R317, R388). -/
theorem reset_bentBlock (b : BentId) :
    State.reset.ctlRead (0x1000000 + 0x200000 * b.val) 4 = 50 ∧
      State.reset.ctlRead (0x1000000 + 0x200000 * b.val + 0x200) 8 = 0x3E0000 ∧
      State.reset.ctlRead (0x1000000 + 0x200000 * b.val + 0x100) 8 = 0 ∧
      State.reset.ctlRead (0x1000000 + 0x200000 * b.val + 0x108) 8 = 0 := by
  rw [ctlRead_of_spans (spans_balival b), ctlRead_of_spans (spans_sitemap b), ctlRead_of_spans (spans_errce b),
    ctlRead_of_spans (spans_errue b)]
  simp only [State.regGet, reset_bent]
  decide

theorem coreReady_reset (p : CoreId) : coreReady State.reset p = false := by
  have word : vget State.reset.ready.core (p.val / 64) = 0#64 := vget_replicate _ (by omega)
  rw [coreReady, word, BitVec.getLsbD_zero]

end Sys2Proof.Machine

namespace Sys2Proof.Proofs

open Sys2Proof.Machine Sys2Proof.Claims

/-- Settles O55: the fixed registers by evaluation, those of each launch queue and bent through the places they stand at. -/
theorem resetValues : Obligations.ResetValues := by
  refine ⟨by decide +kernel, by decide +kernel, fun b => ?_, fun q o ho => ?_,
    fun p k => ⟨by rw [reset_ctx], by rw [reset_core], by rw [reset_ctx], by rw [reset_ctx]⟩, rfl, rfl, rfl, coreReady_reset⟩
  · obtain ⟨balival, sitemap, errce, errue⟩ := reset_bentBlock b
    rw [Nat.add_right_comm] at sitemap errce errue
    exact ⟨balival, sitemap, errce, errue⟩
  · obtain ⟨r, spans, zero⟩ := reset_lqBlock q.isLt ho
    rw [ctlRead_of_spans spans, zero]
    rfl

end Sys2Proof.Proofs
end

section
/-! PROOFS. Bring-up: the firmware's checks, the turns of the bents, and what a march test leaves (R15, R377–R382, R388). -/

namespace Sys2Proof.Machine

open Sys2Proof.Claims

/-! ### The checks of a slot (R381) -/

theorem imageError_eq_zero (link : Bool) (img : List Byte) : imageError link img = 0 ↔ Accepted link img := by
  rw [imageError, Accepted]
  split_ifs with format ecdsa lms svn <;> simp_all

theorem imageError_of_firstFailed {link : Bool} {img : List Byte} {e : Nat} (h : FirstFailed link img e) :
    imageError link img = e := by
  cases h <;> simp [imageError, *]

theorem firstFailed_ne_zero {link : Bool} {img : List Byte} {e : Nat} (h : FirstFailed link img e) : e ≠ 0 := by
  cases h <;> decide

theorem slotError_eq_zero (bent link : List Byte) : slotError bent link = 0 ↔ Accepted false bent ∧ Accepted true link := by
  rw [slotError, ← imageError_eq_zero, ← imageError_eq_zero]
  split <;> simp_all

theorem slotError_of_fails {bent link : List Byte} {e : Nat} (h : SlotFails bent link e) : slotError bent link = e ∧ e ≠ 0 := by
  rcases h with h | ⟨ok, h⟩
  · have eq := imageError_of_firstFailed h
    exact ⟨by rw [slotError, eq, if_neg (firstFailed_ne_zero h)], firstFailed_ne_zero h⟩
  · exact ⟨by rw [slotError, if_pos ((imageError_eq_zero false bent).2 ok), imageError_of_firstFailed h], firstFailed_ne_zero h⟩

/-- The ROM has a verification to do: power is good, no firmware runs, and no boot has failed. -/
def State.verifies (s : State) : Prop :=
  s.ready.powerGood = true ∧ s.ready.tf = none ∧ s.ready.rdy.extractLsb' 52 4 = 0

theorem firmwareVerify_eq (s : State) (h : s.verifies) (f : Flash) :
    exec (.firmwareVerify f) s = .next (
      if slotError f.bentA f.linkA = 0 then s.acceptSlot false f.bentA f.linkA
      else if slotError f.bentB f.linkB = 0 then s.acceptSlot true f.bentB f.linkB
      else onReady s fun r => { r with rdy := r.rdy ||| BitVec.ofNat 64 (slotError f.bentB f.linkB * 2 ^ 52) }) := by
  obtain ⟨power, run, boot⟩ := h
  simp only [exec_firmwareVerify, execFirmwareVerify, power, run, boot]
  rfl

theorem firmwareVerify_waits (s : State) (h : s.ready.powerGood = false ∨ s.ready.tf ≠ none ∨ s.ready.rdy.extractLsb' 52 4 ≠ 0)
    (f : Flash) : exec (.firmwareVerify f) s = .next s := by
  rw [exec_firmwareVerify, execFirmwareVerify, if_pos]
  rcases h with h | h | h
  · simp [h]
  · simp [Option.isSome_iff_ne_none.2 h]
  · rw [bne_iff_ne.2 h, Bool.or_true]

/-! ### Turns (R377) -/

theorem bentDue_iff (s : State) (b : BentId) (d : Nat) : s.bentDue b d = true ↔ TurnPassed s b d := by
  rw [State.bentDue, TurnPassed]
  cases s.ready.tf with
  | none => simp
  | some t => simp only [↓decide_eq_true_eq, ms, Option.some.injEq, exists_eq_left', Nat.reduceMul]

theorem bentTurn_iff (s : State) (b : BentId) : s.bentTurn b = true ↔ PowerTurn s b := by
  have below : (b == 0 || ((s.bent (b - 1)).powered && decide ((s.bent (b - 1)).poweredAt + 2 * ms ≤ s.nanos))) = true ↔
      ∀ c : BentId, c.val + 1 = b.val → (s.bent c).powered = true ∧ (s.bent c).poweredAt + 2000000 ≤ s.nanos := by
    by_cases h : b = 0
    · subst h; simp
    · have pos : b.val ≠ 0 := fun e => h (Fin.ext e)
      have prev : ∀ c : BentId, c.val + 1 = b.val ↔ c = b - 1 := by
        intro c
        rw [Fin.ext_iff, Fin.val_sub]
        show c.val + 1 = b.val ↔ c.val = (16 - 1 + b.val) % 16
        omega
      simp only [beq_eq_false_iff_ne.2 h, Bool.false_or, Bool.and_eq_true, decide_eq_true_eq, prev, forall_eq]
      rfl
  rw [State.bentTurn, PowerTurn, Bool.and_eq_true, Bool.and_eq_true, bentDue_iff, below, Bool.not_eq_true', and_assoc]

/-! ### Bits of the cores of a bent (R379) -/

theorem coreReady_setCoreBit (s : State) (p q : CoreId) (v : Bool) :
    coreReady (s.setCoreBit p v) q = if q = p then v else coreReady s q := by
  have bound : p.val / 64 < 4 := by omega
  simp only [coreReady, State.setCoreBit, modReady_ready]
  by_cases word : p.val / 64 = q.val / 64
  · rw [← word, vget_vmod_same _ _ _ bound, getLsbD_setBit _ _ _ _ (by omega)]
    have : q.val % 64 = p.val % 64 ↔ q = p := by rw [Fin.ext_iff]; omega
    simp only [this]
  · have : q ≠ p := by rintro rfl; exact word rfl
    rw [vget_vmod_ne _ _ _ _ word, if_neg this]

/-- The bits of the cores of a bent, all set to `v`. -/
def State.setCores (s : State) (b : BentId) (v : Bool) : State :=
  (List.range 16).foldl (fun t k => t.setCoreBit (coreOfBent b k) v) s

theorem foldl_setCoreBit_frame (b : BentId) (v : Bool) (l : List Nat) (s : State) :
    ∃ w, l.foldl (fun t k => t.setCoreBit (coreOfBent b k) v) s = onReady s fun r => { r with core := w } := by
  induction l generalizing s with
  | nil => exact ⟨_, rfl⟩
  | cons k l ih =>
    obtain ⟨w, h⟩ := ih (s.setCoreBit (coreOfBent b k) v)
    exact ⟨w, h⟩

theorem setCores_frame (s : State) (b : BentId) (v : Bool) : ∃ w, s.setCores b v = onReady s fun r => { r with core := w } :=
  foldl_setCoreBit_frame b v _ s

theorem coreReady_foldl (b : BentId) (v : Bool) (l : List Nat) (s : State) (q : CoreId) :
    coreReady (l.foldl (fun t k => t.setCoreBit (coreOfBent b k) v) s) q =
      if ∃ k ∈ l, q = coreOfBent b k then v else coreReady s q := by
  induction l generalizing s with
  | nil => simp
  | cons k l ih =>
    rw [List.foldl_cons, ih, coreReady_setCoreBit]
    by_cases h : ∃ j ∈ l, q = coreOfBent b j
    · rw [if_pos h, if_pos (h.imp fun j hj => ⟨List.mem_cons_of_mem k hj.1, hj.2⟩)]
    · simp only [List.exists_mem_cons_iff, h, or_false, if_false]

theorem coreReady_setCores (s : State) (b : BentId) (v : Bool) (q : CoreId) :
    coreReady (s.setCores b v) q = if bentOf q = b then v else coreReady s q := by
  have member : (∃ k ∈ List.range 16, q = coreOfBent b k) ↔ bentOf q = b := by
    constructor
    · rintro ⟨k, -, rfl⟩
      exact Fin.ext (by simp only [bentOf, coreOfBent]; omega)
    · rintro rfl
      exact ⟨q.val % 16, List.mem_range.2 (by omega), Fin.ext (by simp only [bentOf, coreOfBent]; omega)⟩
  simp only [State.setCores, coreReady_foldl, member]

/-! ### Words made of fields -/

theorem at_or {b lo : Nat} (a : Nat) (h : b < 2 ^ lo) : at_ a lo ||| BitVec.ofNat 64 b = BitVec.ofNat 64 (a * 2 ^ lo + b) := by
  rw [at_, ← BitVec.ofNat_or, Nat.mul_comm a, Nat.two_pow_add_eq_or_of_lt h]

theorem at_zero (n : Nat) : at_ n 0 = BitVec.ofNat 64 n := by
  rw [at_, Nat.pow_zero, Nat.mul_one]

theorem repWord_eq (arr : BitVec 3) (site : BitVec 5) (row : BitVec 18) : repWord arr site row = repairOf arr site.toNat row.toNat := by
  have hrow := row.isLt
  have hsite := site.isLt
  have harr := arr.isLt
  rw [repWord, BitVec.or_assoc, BitVec.or_assoc, at_zero, at_or _ (by omega), at_or _ (by omega), at_or _ (by omega), repairOf]
  congr 1
  omega

/-! ### The map of a march test (R378, R388) -/

/-- The sites of a march test's failing logic, in ascending order. -/
def badSites (w : BitVec 17) : List Nat := (List.range 17).filter fun n => w.getLsbD n

theorem badSites_zero : badSites 0 = [] := by decide

theorem badSites_one {n : Nat} (h : n < 17) : badSites (BitVec.twoPow 17 n) = [n] := by
  interval_cases n <;> decide

theorem siteMap_none : siteMap [] = mapWord 0 0x1F false := by decide

theorem siteMap_one {n : Nat} (h : n < 17) : siteMap [n] = mapWord (2 ^ n) (if n = 16 then 0x1F else n) false := by
  interval_cases n <;> decide

theorem mapWord_fenced {n : Nat} (h : n < 2 ^ 17) : at_ n 0 ||| at_ 0x1F 17 ||| at_ 1 22 = mapWord n 0x1F true := by
  rw [BitVec.or_assoc, show at_ 0x1F 17 ||| at_ 1 22 = at_ 0x3F 17 by decide, at_zero, BitVec.or_comm, at_or _ h, mapWord,
    Nat.add_comm, Nat.add_assoc]
  rfl

theorem bentFenced_many {n : Nat} (h : n < 2 ^ 17) : bentFenced (mapWord n 0x1F true) = true := by
  have bit : (at_ 1 22).getLsbD 22 = true := by decide
  rw [← mapWord_fenced h, bentFenced, BitVec.getLsbD_or, bit, Bool.or_true]

theorem bentFenced_none : bentFenced (mapWord 0 0x1F false) = false := by decide

theorem bentFenced_one {n : Nat} (h : n < 17) : bentFenced (mapWord (2 ^ n) (if n = 16 then 0x1F else n) false) = false := by
  interval_cases n <;> decide

theorem sum_filter_range (w : BitVec 17) (n : Nat) :
    (((List.range n).filter fun k => w.getLsbD k).map fun k => 2 ^ k).sum = w.toNat % 2 ^ n := by
  induction n with
  | zero => simp [Nat.mod_one]
  | succ n ih =>
    rw [List.range_succ, List.filter_append, List.map_append, List.sum_append, ih, Nat.mod_pow_succ]
    have bit : w.getLsbD n = decide (w.toNat / 2 ^ n % 2 = 1) := Nat.testBit_eq_decide_div_mod_eq
    rcases Nat.mod_two_eq_zero_or_one (w.toNat / 2 ^ n) with h | h <;> simp [bit, h]

theorem siteMap_badSites (w : BitVec 17) {m n : Nat} (hmn : m < n) (hn : n < 17) (hm : w.getLsbD m = true) (hw : w.getLsbD n = true) :
    siteMap (badSites w) = mapWord w.toNat 0x1F true := by
  have same : (List.range 17).filter (badSites w).contains = badSites w := by
    refine List.filter_congr fun k hk => ?_
    simp [badSites, List.mem_range.1 hk]
  have sum : ((badSites w).map fun k => 2 ^ k).sum = w.toNat := by
    rw [badSites, sum_filter_range, Nat.mod_eq_of_lt w.isLt]
  have mem : m ∈ badSites w ∧ n ∈ badSites w := by simp [badSites, hm, hw, hn]; omega
  rw [siteMap]
  simp only [same, sum]
  rcases e : badSites w with _ | ⟨a, _ | ⟨c, l⟩⟩
  · simp [e] at mem
  · simp [e] at mem; omega
  · exact mapWord_fenced w.isLt

/-! ### Rows repaired (R378) -/

theorem testOrder_one (r : BitVec 3 × BitVec 5 × BitVec 18) (h : r.2.1.toNat < 17) : testOrder [r] = [r] := by
  have sites : (16 :: List.range 16 : List Nat) = [16, 0, 1, 2, 3, 4, 5, 6, 7, 8, 9, 10, 11, 12, 13, 14, 15] := by decide
  rw [testOrder, sites]
  simp only [List.filter_cons, List.filter_nil]
  generalize r.2.1.toNat = k at h
  interval_cases k <;> rfl

theorem findIdx_rep {x : Bent} (h : ∀ e, e < 64 → (vget x.rep e).getLsbD 63 = false) :
    (vlist x.rep).findIdx? (fun w => !w.getLsbD 63) = some 0 := by
  have first := h 0 (by decide)
  rw [List.findIdx?_eq_some_iff_getElem]
  refine ⟨by simp [vlist], ?_, fun j hj => absurd hj (by omega)⟩
  simpa [vlist, vget, Vector.getD] using first

/-- A row repaired in a bent with no entry in use and no spare drawn. -/
def Bent.firstRepair (x : Bent) (arr : BitVec 3) (site : BitVec 5) (row : BitVec 18) : Bent :=
  { x with rep := vset x.rep 0 (repWord arr site row), drawn := [(site, arr)] }

theorem repairRow_first {x : Bent} (h : ∀ e, e < 64 → (vget x.rep e).getLsbD 63 = false) (hd : x.drawn = []) (bad : List Nat)
    (arr : BitVec 3) (site : BitVec 5) (row : BitVec 18) :
    Bent.repairRow (x, bad) (arr, site, row) = (x.firstRepair arr site row, bad) := by
  have spare : x.drawnOf site arr < spareRows := by simp [Bent.drawnOf, hd, spareRows]
  simp only [Bent.repairRow, findIdx_rep h, if_pos spare, Bent.firstRepair, hd]

/-! ### What a march test leaves -/

/-- A march test's bent stored with its map, and its understores marked. -/
def State.mapped (s : State) (b : BentId) (x : Bent) (map : Word) : State :=
  (s.setBent b { x with sitemap := map ||| (x.sitemap &&& 0x800000), marched := true }).modReady fun y =>
    { y with und := y.und ||| BitVec.twoPow 32 b.val }

/-- A march test that ends on its turn. -/
structure Marching (s : State) (b : BentId) : Prop where
  powered : (s.bent b).powered = true
  marched : (s.bent b).marched = false
  due : TurnPassed s b 12000000
  trained : Trained s b

theorem marchTestEnd_waits {s : State} {b : BentId} (h : ¬ Marching s b) (r : MarchResult) :
    exec (.marchTestEnd b r) s = .next s := by
  rw [exec_marchTestEnd, execMarchTestEnd, if_pos]
  by_contra k
  simp only [Bool.or_eq_true, Bool.not_eq_true', not_or, Bool.not_eq_false, Bool.not_eq_true, Bool.and_eq_true] at k
  obtain ⟨⟨⟨powered, marched⟩, due⟩, trained⟩ := k
  exact h ⟨powered, marched, (bentDue_iff s b _).1 due, trained⟩

theorem marchTestEnd_eq {s : State} {b : BentId} (h : Marching s b) {r : MarchResult} {x : Bent} {bad : List Nat}
    (hr : (testOrder r.rows).foldl Bent.repairRow (s.bent b, badSites r.logic) = (x, bad)) :
    exec (.marchTestEnd b r) s = .next (if bentFenced (siteMap bad)
      then ((s.mapped b x (siteMap bad)).setCores b false).returnHeld b
      else ((s.mapped b x (siteMap bad)).setCores b true).setRdy b.val) := by
  have due : s.bentDue b (12 * ms) = true := (bentDue_iff s b _).2 h.due
  rw [exec_marchTestEnd, execMarchTestEnd, if_neg]
  · rw [badSites] at hr
    rw [hr]
    rfl
  · obtain ⟨low, high⟩ := h.trained
    simp [h.powered, h.marched, due, low, high]

theorem bent_mapped (s : State) (b : BentId) (x : Bent) (map : Word) (c : BentId) : (s.mapped b x map).bent c =
    if c = b then { x with sitemap := map ||| (x.sitemap &&& 0x800000), marched := true } else s.bent c := by
  rw [State.mapped, modReady_bent]
  split
  · next e => rw [e, bent_setBent]
  · next e => rw [bent_setBent_ne _ _ _ _ (Ne.symm e)]

theorem bent_setCores (s : State) (b : BentId) (v : Bool) (c : BentId) : (s.setCores b v).bent c = s.bent c := by
  obtain ⟨w, h⟩ := setCores_frame s b v
  rw [h]; rfl

theorem setBent_bent (s : State) (b : BentId) : s.setBent b (s.bent b) = s := by
  simp [State.setBent, State.bent]

theorem returnHeld_none {s : State} {b : BentId} (h : (s.bent b).held = []) : s.returnHeld b = s := by
  rw [State.returnHeld, h, List.foldl_nil, State.modBent, ← h, setBent_bent]

theorem bent_setRdy (s : State) (i : Nat) (c : BentId) : (s.setRdy i).bent c = s.bent c := rfl

theorem coreReady_setRdy (s : State) (i : Nat) (q : CoreId) : coreReady (s.setRdy i) q = coreReady s q := rfl

theorem coreReady_mapped (s : State) (b : BentId) (x : Bent) (map : Word) (q : CoreId) :
    coreReady (s.mapped b x map) q = coreReady s q := rfl

/-- The bent is fenced whole: its map is stored, and the bits of its cores are clear. -/
theorem tested_fenced (s : State) (b : BentId) (map : Word) :
    Tested s ((s.mapped b (s.bent b) map).setCores b false) b map false := by
  obtain ⟨w, h⟩ := setCores_frame (s.mapped b (s.bent b) map) b false
  constructor
  case cores => intro q; rw [coreReady_setCores, coreReady_mapped]
  case bents => intro c; rw [bent_setCores, bent_mapped]
  all_goals rw [h]; rfl

/-- The bent serves: its map is stored, and its bit and those of its cores are set. -/
theorem tested_serves (s : State) (b : BentId) (map : Word) :
    Tested s (((s.mapped b (s.bent b) map).setCores b true).setRdy b.val) b map true := by
  obtain ⟨w, h⟩ := setCores_frame (s.mapped b (s.bent b) map) b true
  constructor
  case cores => intro q; rw [coreReady_setRdy, coreReady_setCores, coreReady_mapped]
  case bents => intro c; rw [bent_setRdy, bent_setCores, bent_mapped]
  all_goals rw [h]; rfl

section
variable {s : State} {b : BentId} {r : MarchResult}

/-- A march test without a failing row whose map does not fence the bent. -/
theorem marchTestEnd_serves (h : Marching s b) (hr : r.rows = []) (hf : bentFenced (siteMap (badSites r.logic)) = false) :
    ∃ t, exec (.marchTestEnd b r) s = .next t ∧ Tested s t b (siteMap (badSites r.logic)) true := by
  refine ⟨_, marchTestEnd_eq h (x := s.bent b) (bad := badSites r.logic) (by rw [hr]; rfl), ?_⟩
  rw [hf, if_neg Bool.false_ne_true]
  exact tested_serves s b _

/-- A march test without a failing row whose map fences the bent, which holds no packet. -/
theorem marchTestEnd_fenced (h : Marching s b) (hr : r.rows = []) (hh : (s.bent b).held = [])
    (hf : bentFenced (siteMap (badSites r.logic)) = true) :
    ∃ t, exec (.marchTestEnd b r) s = .next t ∧ Tested s t b (siteMap (badSites r.logic)) false := by
  refine ⟨_, marchTestEnd_eq h (x := s.bent b) (bad := badSites r.logic) (by rw [hr]; rfl), ?_⟩
  rw [hf, if_pos rfl, returnHeld_none (by rw [bent_setCores, bent_mapped, if_pos rfl]; exact hh)]
  exact tested_fenced s b _

/-- A march test with one failing row in a bent not repaired yet. -/
theorem marchTestEnd_repairs (h : Marching s b) {arr : BitVec 3} {site : BitVec 5} {row : BitVec 18} (hr : r.rows = [(arr, site, row)])
    (hl : r.logic = 0) (hs : site.toNat < 17) (hu : Unrepaired s b) :
    ∃ t, exec (.marchTestEnd b r) s = .next t ∧ vget (t.bent b).rep 0 = repairOf arr site.toNat row.toNat ∧
      (t.bent b).drawn = [(site, arr)] ∧ (t.bent b).sitemap = mapWord 0 0x1F false ||| ((s.bent b).sitemap &&& 0x800000) ∧
      ∀ q, bentOf q = b → coreReady t q = true := by
  obtain ⟨free, drawn⟩ := hu
  have rows : (testOrder r.rows).foldl Bent.repairRow (s.bent b, badSites r.logic) = ((s.bent b).firstRepair arr site row, []) := by
    rw [hr, hl, badSites_zero, testOrder_one _ hs]
    exact repairRow_first free drawn [] arr site row
  refine ⟨_, marchTestEnd_eq h rows, ?_⟩
  rw [siteMap_none, bentFenced_none, if_neg Bool.false_ne_true, bent_setRdy, bent_setCores, bent_mapped, if_pos rfl]
  refine ⟨?_, rfl, rfl, fun q hq => ?_⟩
  · exact (vget_vset_same _ _ _ (by decide)).trans (repWord_eq arr site row)
  · rw [coreReady_setRdy, coreReady_setCores, if_pos hq]
end

end Sys2Proof.Machine

namespace Sys2Proof.Proofs

open Sys2Proof.Machine Sys2Proof.Claims

/-- FIRMWARE_VERIFY where it has work to do: slot A where it passes, else slot B where that passes, else BOOTERR (R381). -/
theorem firmware_verified (s : State) (h : s.verifies) (f : Flash) :
    (Accepted false f.bentA → Accepted true f.linkA → exec (.firmwareVerify f) s = .next (onReady s fun r =>
      { r with rdy := setBit (setBit r.rdy 51 false) 50 true, tf := some s.nanos,
               meas := r.meas ++ [(3, sha384 f.bentA), (4, sha384 f.linkA)] })) ∧
    (¬ (Accepted false f.bentA ∧ Accepted true f.linkA) → Accepted false f.bentB → Accepted true f.linkB →
      exec (.firmwareVerify f) s = .next (onReady s fun r =>
        { r with rdy := setBit (setBit r.rdy 51 true) 50 true, tf := some s.nanos,
                 meas := r.meas ++ [(3, sha384 f.bentB), (4, sha384 f.linkB)] })) ∧
    (∀ e, ¬ (Accepted false f.bentA ∧ Accepted true f.linkA) → SlotFails f.bentB f.linkB e →
      exec (.firmwareVerify f) s = .next (onReady s fun r => { r with rdy := r.rdy ||| BitVec.ofNat 64 (e * 2 ^ 52) })) := by
  rw [firmwareVerify_eq s h, ← slotError_eq_zero]
  refine ⟨fun bent link => ?_, fun refused bent link => ?_, fun e refused fails => ?_⟩
  · rw [if_pos ((slotError_eq_zero _ _).2 ⟨bent, link⟩)]; rfl
  · rw [if_neg refused, if_pos ((slotError_eq_zero _ _).2 ⟨bent, link⟩)]; rfl
  · obtain ⟨code, failed⟩ := slotError_of_fails fails
    rw [if_neg refused, code, if_neg failed]

/-- A march test without a failing row, by the number of sites whose logic fails: none, one, site 16, more (R378). -/
theorem march_ends (s : State) (b : BentId) (r : MarchResult) (h : Marching s b) (hr : r.rows = []) :
    (r.logic = 0 → ∃ t, exec (.marchTestEnd b r) s = .next t ∧ Tested s t b (mapWord 0 0x1F false) true) ∧
    (∀ n, n < 16 → r.logic = BitVec.twoPow 17 n →
      ∃ t, exec (.marchTestEnd b r) s = .next t ∧ Tested s t b (mapWord (2 ^ n) n false) true) ∧
    (r.logic = BitVec.twoPow 17 16 →
      ∃ t, exec (.marchTestEnd b r) s = .next t ∧ Tested s t b (mapWord (2 ^ 16) 0x1F false) true) ∧
    ((∃ m n, m < n ∧ n < 17 ∧ r.logic.getLsbD m = true ∧ r.logic.getLsbD n = true) → (s.bent b).held = [] →
      ∃ t, exec (.marchTestEnd b r) s = .next t ∧ Tested s t b (mapWord r.logic.toNat 0x1F true) false) := by
  have one : ∀ n, n < 17 → r.logic = BitVec.twoPow 17 n → ∃ t, exec (.marchTestEnd b r) s = .next t ∧
      Tested s t b (mapWord (2 ^ n) (if n = 16 then 0x1F else n) false) true := fun n hn hl => by
    have map : siteMap (badSites r.logic) = mapWord (2 ^ n) (if n = 16 then 0x1F else n) false := by
      rw [hl, badSites_one hn, siteMap_one hn]
    exact map ▸ marchTestEnd_serves h hr (map ▸ bentFenced_one hn)
  refine ⟨fun hl => ?_, fun n hn hl => ?_, one 16 (by decide), fun ⟨m, n, hmn, hn, hm, hw⟩ hh => ?_⟩
  · have map : siteMap (badSites r.logic) = mapWord 0 0x1F false := by rw [hl, badSites_zero, siteMap_none]
    exact map ▸ marchTestEnd_serves h hr (map ▸ bentFenced_none)
  · have := one n (by omega) hl
    rwa [if_neg (by omega)] at this
  · have map := siteMap_badSites r.logic hmn hn hm hw
    exact map ▸ marchTestEnd_fenced h hr hh (map ▸ bentFenced_many r.logic.isLt)

/-- Settles O47: each event of bring-up acts on its condition and else leaves the state as it is; what a march test leaves
follows from the sites it finds bad. -/
theorem bringUp : Obligations.BringUp := by
  intro s
  refine ⟨rfl, fun h => ?_, fun h => ?_, fun f => ⟨fun h => firmwareVerify_waits s h f, fun power run boot =>
    firmware_verified s ⟨power, run, boot⟩ f⟩, fun b => ⟨fun h => ?_, fun h => ?_⟩, fun b => ⟨fun power due => ?_, fun h => ?_⟩,
    fun b r => ⟨fun h => ?_, fun power fresh due trained hr => march_ends s b r ⟨power, fresh, due, trained⟩ hr,
      fun arr site row power fresh due trained hr hl hs hu => marchTestEnd_repairs ⟨power, fresh, due, trained⟩ hr hl hs hu⟩⟩
  · rw [exec_powerGood, execPowerGood, if_pos h]
  · rw [exec_powerGood, execPowerGood, h]; rfl
  · rw [exec_bentPowerUp, execBentPowerUp, if_pos ((bentTurn_iff s b).2 h)]
  · rw [exec_bentPowerUp, execBentPowerUp, if_neg (mt (bentTurn_iff s b).1 h)]
  · rw [exec_stackTrainingEnd, execStackTrainingEnd, power, show s.bentDue b (4 * ms) = true from (bentDue_iff s b _).2 due]
    rfl
  · rw [exec_stackTrainingEnd, execStackTrainingEnd, if_neg]
    rw [Bool.and_eq_true, not_and_or, Bool.not_eq_true, bentDue_iff]
    exact h
  · refine marchTestEnd_waits (fun ⟨power, fresh, due, trained⟩ => ?_) r
    rcases h with h | h | h | h
    · rw [power] at h; cases h
    · rw [fresh] at h; cases h
    · exact h due
    · exact h trained

end Sys2Proof.Proofs
end

section
/-! PROOFS. Every step keeps the memories in their canonical form (log 3): one lemma for each function that a step runs,
in the order of the model's files, chained by name. Only the memory writes, the restore and the march test touch `mem`
or a `scratch`; every other update is `Canonical.frame`, `Canonical.setCore_same` or `Canonical.modCore`. -/

namespace Sys2Proof.Claims

set_option Elab.async false

open Sys2Proof.Machine

variable {s t u s0 : State}

/-- An outcome that leaves a state leaves a canonical one. -/
def CanonicalOut (o : Out) : Prop := ∀ t, o = .next t → Canonical t

theorem CanonicalOut.next (h : Canonical s) : CanonicalOut (.next s) := fun _ e => Host.Outcome.next.inj e ▸ h
theorem CanonicalOut.fault {r} : CanonicalOut (.fault r) := fun _ e => nomatch e
theorem CanonicalOut.refused {r} : CanonicalOut (.refused r) := fun _ e => nomatch e

theorem Canonical.mem (h : Canonical s) : s.mem.wf = true := h.1
theorem Canonical.scratch (h : Canonical s) (p : CoreId) : (s.core p).scratch.wf = true := h.2 p

/-- A change of neither the memory nor the cores. -/
theorem Canonical.frame (h : Canonical s) (mem : t.mem = s.mem := by rfl) (cores : t.cores = s.cores := by rfl) :
    Canonical t := by
  simpa only [Canonical, State.core, mem, cores] using h

theorem Canonical.ite {c : Prop} {_ : Decidable c} (hs : Canonical s) (ht : Canonical t) :
    Canonical (if c then s else t) := by
  split
  · exact hs
  · exact ht

theorem Canonical.foldl {α : Type} {f : State → α → State} {l : List α} (h : Canonical s)
    (hf : ∀ t x, Canonical t → Canonical (f t x)) : Canonical (l.foldl f s) := by
  induction l generalizing s with
  | nil => exact h
  | cons x l ih => exact ih (hf s x h)

/-- The state of a pair, after the pair is taken apart. -/
theorem Canonical.of_eq {α : Type} {x : State × α} {a : α} (h : Canonical x.1) (e : x = (t, a)) : Canonical t := by
  subst e
  exact h

theorem reset_canonical : Canonical State.reset := ⟨rfl, fun p => (reset_core p).symm ▸ rfl⟩

variable {c : Core}

theorem setQueue_scratch {k r q} : (c.setQueue k r q).scratch = c.scratch := by
  unfold Core.setQueue
  dsimp only
  split <;> rfl

theorem popAll_scratch {k l} : (popAll c k l).scratch = c.scratch := by
  induction l generalizing c with
  | nil => rfl
  | cons x l ih =>
    rw [popAll, ih]
    split
    · rfl
    · exact setQueue_scratch

theorem push_scratch {k r v} : (c.push k r v).scratch = c.scratch := setQueue_scratch

theorem issue_scratch {k d cls kind o} : (c.issue k d cls kind o).scratch = c.scratch := by
  cases d with
  | none => rfl
  | some r => exact setQueue_scratch (c := c)

theorem fill_scratch {k id dst v} : (c.fill k id dst v).scratch = c.scratch := by
  unfold Core.fill
  split
  · rfl
  · dsimp only
    split <;> rfl

theorem settleFreeze_scratch {now busy} : (c.settleFreeze now busy).scratch = c.scratch := by
  unfold Core.settleFreeze
  split
  · split <;> rfl
  · rfl

theorem freezeAt_scratch {now busy} : (c.freezeAt now busy).scratch = c.scratch := settleFreeze_scratch

theorem thawAt_scratch {now} : (c.thawAt now).scratch = c.scratch := by
  unfold Core.thawAt
  split
  · rfl
  · split <;> rfl
  · rfl

/-- A combining buffer that takes a reduction leaves the scratchpad, and so does one that flushes for it. -/
theorem reduce_scratch {l n op v now d} (e : c.reduce l n op v now = .inl d ∨ c.reduce l n op v now = .inr d) :
    d.scratch = c.scratch := by
  unfold Core.reduce at e
  dsimp only at e
  split at e
  · rcases e with e | e <;> cases e; rfl
  · split at e
    · rcases e with e | e <;> cases e; rfl
    · split at e
      · rcases e with e | e <;> cases e; rfl
      · rcases e with e | e <;> cases e; rfl

/-- A restored core's scratchpad is written afresh from its snapshot (R322). -/
theorem takeUp_reinstate_wf (phys saved : Core) (p : CoreId) (bs : List Byte) (now : Nat) :
    (phys.takeUp (saved.reinstate p bs) now).scratch.wf = true :=
  wf_write [] 0 _ rfl


/-! ### Parts of the state -/

theorem Canonical.setCore {p c} (h : Canonical s) (hc : c.scratch.wf = true) : Canonical (s.setCore p c) := by
  refine ⟨h.mem, fun q => ?_⟩
  by_cases e : p = q
  · subst e; rwa [core_setCore]
  · rw [core_setCore_ne _ _ _ _ e]; exact h.scratch q

/-- A core replaced by one with the same scratchpad. -/
theorem Canonical.setCore_same {p c} (h : Canonical s) (hc : c.scratch = (s.core p).scratch) :
    Canonical (s.setCore p c) :=
  h.setCore (hc ▸ h.scratch p)

theorem Canonical.modCore {p} {f : Core → Core} (h : Canonical s)
    (hf : ∀ c, (f c).scratch = c.scratch := by intro c; rfl) : Canonical (s.modCore p f) :=
  h.setCore_same (hf _)

theorem Canonical.setCtx {p k x} (h : Canonical s) : Canonical (s.setCtx p k x) := h.modCore

theorem Canonical.modCtx {p k f} (h : Canonical s) : Canonical (s.modCtx p k f) := h.setCtx

theorem Canonical.modEng {p e f} (h : Canonical s) : Canonical (s.modEng p e f) := h.modCore

theorem Canonical.modVe {p f} (h : Canonical s) : Canonical (s.modVe p f) := h.modCore

theorem Canonical.modMe {p f} (h : Canonical s) : Canonical (s.modMe p f) := h.modCore

theorem Canonical.modGate {p f} (h : Canonical s) : Canonical (s.modGate p f) := h.modCore

theorem Canonical.modDbg {p f} (h : Canonical s) : Canonical (s.modDbg p f) := h.modCore

theorem Canonical.setBent {b x} (h : Canonical s) : Canonical (s.setBent b x) := h.frame

theorem Canonical.modBent {b f} (h : Canonical s) : Canonical (s.modBent b f) := h.setBent

theorem Canonical.modBay {y f} (h : Canonical s) : Canonical (s.modBay y f) := h.frame

theorem Canonical.modLq {q f} (h : Canonical s) : Canonical (s.modLq q f) := h.frame

theorem Canonical.modLaunch {f} (h : Canonical s) : Canonical (s.modLaunch f) := h.frame

theorem Canonical.modTrace {f} (h : Canonical s) : Canonical (s.modTrace f) := h.frame

theorem Canonical.modFlt {f} (h : Canonical s) : Canonical (s.modFlt f) := h.frame

theorem Canonical.modPm {f} (h : Canonical s) : Canonical (s.modPm f) := h.frame

theorem Canonical.modClock {f} (h : Canonical s) : Canonical (s.modClock f) := h.frame

theorem Canonical.modReady {f} (h : Canonical s) : Canonical (s.modReady f) := h.frame

theorem Canonical.modLinks {f} (h : Canonical s) : Canonical (s.modLinks f) := h.frame

theorem Canonical.modSched {f} (h : Canonical s) : Canonical (s.modSched f) := h.frame

theorem Canonical.mapCores {f : Core → Core} (h : Canonical s)
    (hf : ∀ c, (f c).scratch = c.scratch := by intro c; rfl) : Canonical (s.mapCores f) := by
  refine ⟨h.mem, fun p => ?_⟩
  have core : (s.mapCores f).core p = f (s.core p) := vget_vmap f s.cores p.val p.isLt
  rw [core, hf]
  exact h.scratch p

theorem Canonical.mapBents {f} (h : Canonical s) : Canonical (s.mapBents f) := h.frame

theorem Canonical.modGang {g f} (h : Canonical s) : Canonical (s.modGang g f) := h.modLaunch

/-! ### Memory -/

theorem Canonical.touchView {a} (h : Canonical s) : Canonical (s.touchView a) := h.frame

theorem Canonical.touchLoc {l n} (h : Canonical s) : Canonical (s.touchLoc l n) := by
  unfold State.touchLoc
  split
  · exact h
  · exact h.touchView.ite h.touchView.touchView

theorem Canonical.meet {p l n} (h : Canonical s) : Canonical (s.meet p l n) := by
  unfold State.meet
  dsimp only
  split
  · exact h
  · exact h.ite h.frame

theorem Canonical.wake {p l n} (h : Canonical s) : Canonical (s.wake p l n) := h.frame

theorem Canonical.writePhys {a bs} (h : Canonical s) : Canonical (s.writePhys a bs) :=
  ⟨wf_writePhys s a bs h.mem, fun p => by rw [core_writePhys]; exact h.scratch p⟩

theorem Canonical.writeScratch {p o bs} (h : Canonical s) :
    Canonical (s.modCore p fun c => { c with scratch := c.scratch.write o bs }) :=
  h.setCore (wf_write _ o bs (h.scratch p))

theorem Canonical.writeLoc {p l bs} (h : Canonical s) : Canonical (s.writeLoc p l bs) := by
  cases l with
  | spad o => exact h.writeScratch.wake
  | phys a => exact h.writePhys

theorem Canonical.fillTlb {p va} (h : Canonical s) : Canonical (s.fillTlb p va) := h.modCore.modBent

theorem Canonical.noteVa {p va} (h : Canonical s) : Canonical (s.noteVa p va) := h.ite h.fillTlb

/-! ### Shared operations: records, traps, the end of an instruction, accesses -/

theorem Canonical.holdPool {l n wr} (h : Canonical s) : Canonical (s.holdPool l n wr) := by
  unfold State.holdPool
  dsimp only
  split
  · exact h
  · split
    · exact h.frame.ite h
    · exact h

theorem Canonical.writeSup {a bs} (h : Canonical s) : Canonical (s.writeSup a bs) := h.writePhys.holdPool

theorem Canonical.count {p code k} (h : Canonical s) : Canonical (s.count p code k) := h.modDbg.ite h

theorem Canonical.note {p va} (h : Canonical s) : Canonical (s.note p va) := h.ite h.noteVa.count

theorem Canonical.noteFail {p va} (h : Canonical s) : Canonical (s.noteFail p va) := h.ite h.count

theorem Canonical.noteAll {p vas} (h : Canonical s) : Canonical (s.noteAll p vas) := by
  induction vas generalizing s with
  | nil => exact h
  | cons va vas ih => exact ih h.note

theorem Canonical.writeTrace {r} (h : Canonical s) : Canonical (s.writeTrace r) :=
  h.modTrace.ite (h.ite h.writeSup.modTrace)

theorem Canonical.flushTrace {b} (h : Canonical s) : Canonical (s.flushTrace b) :=
  h.ite ((h.foldl fun _ _ hs => hs.writeTrace).modBent)

theorem Canonical.emit {b type sub p body} (h : Canonical s) : Canonical (s.emit b type sub p body) :=
  h.modBent.flushTrace.ite h.modBent

theorem Canonical.event {b code p body} (h : Canonical s) : Canonical (s.event b code p body) := h.emit.ite h

theorem Canonical.storeFault {r} (h : Canonical s) : Canonical (s.storeFault r).1 := by
  unfold State.storeFault
  dsimp only
  split
  · exact h.writeSup.modFlt
  · exact h.modFlt

theorem Canonical.postFault {b r} (h : Canonical s) : Canonical (s.postFault b r) := by
  unfold State.postFault
  dsimp only
  split
  · split
    · next e => exact h.storeFault.of_eq e
    · next e => exact (h.storeFault.of_eq e).modBent
  · exact h.modBent

theorem Canonical.takeTicket {t words} (h : Canonical s) : Canonical (s.takeTicket t words) := h.modFlt

theorem Canonical.dropTicket {t} (h : Canonical s) : Canonical (s.dropTicket t) := h.modFlt

theorem Canonical.report {b f code aux} (h : Canonical s) : Canonical (s.report b f code aux) := h.postFault

theorem Canonical.reportPage {b f code aux t} (h : Canonical s) : Canonical (s.reportPage b f code aux t) :=
  h.takeTicket.postFault

theorem Canonical.trap {p k code aux tval epc word} (h : Canonical s) : Canonical (s.trap p k code aux tval epc word) :=
  (h.setCtx.reportPage.modCtx.ite h.setCtx.report).ite h.setCtx

theorem Canonical.trapNow {code aux tval} (h : Canonical s) : Canonical (s.trapNow code aux tval) := h.trap

theorem Canonical.commit {user next} (h : Canonical s) : Canonical (s.commit user next) :=
  h.modCtx.count.trap.ite h.modCtx.count

theorem Canonical.advance (h : Canonical s) : Canonical s.advance := h.commit

theorem Canonical.blockNow (h : Canonical s) : Canonical s.blockNow := h.modCtx

/-- What an instruction's body keeps, the instruction keeps: it pops its operands, blocks or traps. -/
theorem Canonical.scalar {rds push illegal} {body : List Word → State → State} (h : Canonical s)
    (hbody : ∀ x t, Canonical t → Canonical (body x t)) : Canonical (scalar rds push illegal s body) := by
  unfold Machine.scalar
  split
  · exact h.blockNow
  · exact h.trapNow
  · exact hbody _ _ (h.modCore fun _ => popAll_scratch)

theorem Canonical.result {d v} (h : Canonical s) : Canonical (s.result d v) := (h.modCore fun _ => push_scratch).advance

theorem Canonical.later {d v} (h : Canonical s) : Canonical (s.later d v) := (h.modCore fun _ => issue_scratch).advance

theorem Canonical.dropL1 {p line} (h : Canonical s) : Canonical (s.dropL1 p line) := h.modCore

theorem Canonical.clearL1 {p} (h : Canonical s) : Canonical (s.clearL1 p) :=
  (h.foldl fun _ _ ht => ht.modCore).ite h.modCore

theorem Canonical.grant {p r l n} (h : Canonical s) : Canonical (s.grant p r l n) := by
  unfold State.grant
  split
  · exact h
  · exact h.modCore

theorem Canonical.used {p l n} (h : Canonical s) : Canonical (s.used p l n) := h.touchLoc.holdPool.meet

theorem Canonical.loadScalar {p l n} (h : Canonical s) : Canonical (s.loadScalar p l n).2 := by
  unfold State.loadScalar
  dsimp only
  split
  · exact h
  · split
    · split
      · exact h.modCore.count
      · exact h.touchView.meet.modCore.count
    · exact h.holdPool

theorem Canonical.storeScalar {p l bs} (h : Canonical s) : Canonical (s.storeScalar p l bs) := by
  unfold State.storeScalar
  dsimp only
  split
  · exact h.writeLoc.holdPool
  · exact h.writeLoc.holdPool.modCore.ite h.writeLoc.holdPool

theorem Canonical.writeHome {p l bs} (h : Canonical s) : Canonical (s.writeHome p l bs) := by
  unfold State.writeHome
  dsimp only
  split
  · exact h.writeLoc.holdPool
  · exact (h.writeLoc.holdPool.dropL1.ite h.writeLoc.holdPool.dropL1.dropL1).ite h.writeLoc.holdPool

theorem Canonical.trapAfter {code aux tval} (h : Canonical s) : Canonical (trapAfter s code aux tval) := h.trapNow

theorem Canonical.trapAt {code aux va} (h : Canonical s) : Canonical (s.trapAt code aux va) :=
  h.blockNow.ite h.noteFail.trapAfter

/-! ### ALU operations, multiply and divide -/

theorem Canonical.alu3 {f r} (h : Canonical s) : CanonicalOut (alu3 f r s) := .next (h.scalar fun _ _ ht => ht.result)

theorem Canonical.alu2 {f r} (h : Canonical s) : CanonicalOut (alu2 f r s) := .next (h.scalar fun _ _ ht => ht.result)

theorem Canonical.slow3 {f r} (h : Canonical s) : CanonicalOut (slow3 f r s) := .next (h.scalar fun _ _ ht => ht.later)

/-! ### Immediate forms and queue housekeeping -/

theorem Canonical.aluI {f imm d a pa} (h : Canonical s) : CanonicalOut (aluI f imm d a pa s) :=
  .next (h.scalar fun _ _ ht => ht.result)

theorem Canonical.execQclr {r} (h : Canonical s) : CanonicalOut (execQclr r s) :=
  .next (h.trapNow.ite ((h.modCore fun _ => setQueue_scratch).advance.ite h.modCtx.blockNow))

theorem Canonical.execDup {r} (h : Canonical s) : CanonicalOut (execDup r s) :=
  .next (h.scalar fun _ _ ht => h.trapAfter.ite ((ht.modCore fun _ => setQueue_scratch).advance))

/-! ### Issuing accesses -/

theorem Canonical.settleCtx {p k} (h : Canonical s) : Canonical (s.settleCtx p k) := h.setCtx.clearL1.ite h.setCtx

theorem Canonical.settle {p} (h : Canonical s) : Canonical (s.settle p) := h.foldl fun _ _ ht => ht.settleCtx

theorem Canonical.issueAccess {va n acc cls ok push kind} (hs0 : Canonical s0) (h : Canonical s) :
    Canonical (issueAccess s0 s va n acc cls ok push kind) := by
  unfold Machine.issueAccess
  split
  · exact hs0.blockNow
  · split
    · exact hs0.trapAt
    · exact hs0.trapAt.ite (hs0.blockNow.ite (hs0.modCore.blockNow.ite (h.note.modCore fun _ => issue_scratch).advance))

theorem Canonical.loadOp {sext r} (h : Canonical s) : CanonicalOut (loadOp sext r s) :=
  .next (h.scalar fun _ _ ht => h.issueAccess ht)

theorem Canonical.atomic {op r} (h : Canonical s) : CanonicalOut (atomic op r s) :=
  .next (h.scalar fun _ _ ht => h.issueAccess ht)

theorem Canonical.reduction {op a b n} (h : Canonical s) : CanonicalOut (reduction op a b n s) := by
  unfold Machine.reduction
  refine .next (h.scalar fun _ _ ht => ?_)
  split
  · exact h.trapAt
  · split
    · exact h.trapAt
    · split
      · exact h.blockNow
      · split
        · next joined => exact (ht.setCore_same (reduce_scratch (.inl joined))).note.advance
        · split
          · next flushed => exact (h.setCore_same (reduce_scratch (.inr flushed))).blockNow
          · exact h.blockNow

theorem Canonical.applyComb {p e} (h : Canonical s) : Canonical (s.applyComb p e) := h.report.ite h.writeHome

theorem Canonical.execCombiningFlush {p n} (h : Canonical s) : CanonicalOut (execCombiningFlush p n s) := by
  unfold Machine.execCombiningFlush
  refine .next ?_
  split
  · exact h
  · exact h.modCore.applyComb.settle.ite h

/-! ### The frame of an engine command -/

theorem Canonical.modFlight {p n f} (h : Canonical s) : Canonical (s.modFlight p n f) := h.modCore

theorem Canonical.engRecord {p e ws pc code aux addr elem} (h : Canonical s) :
    Canonical (s.engRecord p e ws pc code aux addr elem) :=
  h.report.modCore

theorem Canonical.dropHead {p e} (h : Canonical s) : Canonical (s.dropHead p e) := h.modCore.modEng

theorem Canonical.headFault {p e code aux addr} (h : Canonical s) : Canonical (s.headFault p e code aux addr) := by
  unfold State.headFault
  split
  · exact h
  · exact h.dropHead.engRecord.ite h

theorem Canonical.headPark {p e code cause addr} (h : Canonical s) : Canonical (s.headPark p e code cause addr) := by
  unfold State.headPark
  dsimp only
  split
  · exact h
  · exact h.reportPage.modEng.ite h

theorem Canonical.endFlight {p ord} (h : Canonical s) : Canonical (s.endFlight p ord) := h.modCore

theorem Canonical.flightHold {p f elem saved} (h : Canonical s) : Canonical (s.flightHold p f elem saved) := h.modFlight

theorem Canonical.flightFault {p f code aux addr elem saved} (h : Canonical s) :
    Canonical (s.flightFault p f code aux addr elem saved) :=
  h.engRecord.endFlight.ite h.flightHold

theorem Canonical.flightPark {p f code cause addr elem saved} (h : Canonical s) :
    Canonical (s.flightPark p f code cause addr elem saved) :=
  h.reportPage.modFlight.ite h.flightHold

theorem Canonical.stampFinish {p f} (h : Canonical s) : Canonical (s.stampFinish p f) := h.modGate.ite h

theorem Canonical.finish {p ord} (h : Canonical s) : Canonical (s.finish p ord) := by
  unfold State.finish
  split
  · exact h
  · exact h.modCore.stampFinish.count

theorem Canonical.stampStart {p e} (h : Canonical s) : Canonical (s.stampStart p e) := h.modGate.ite h

/-- What a command's effect keeps, the command keeps: all else it does is bookkeeping (R203). -/
theorem Canonical.command {hd} {x : Plan} (h : Canonical s) (hgo : ∀ ls f t, Canonical t → Canonical (x.go ls f t)) :
    Canonical (command hd x s) := by
  unfold Machine.command
  dsimp only
  split
  · exact h
  · split
    · exact h.headFault
    · split
      · exact h
      · split
        · exact h.headPark.noteFail
        · exact h.headFault.noteFail
        · exact h
        · split
          · exact h.headFault
          · exact (hgo _ _ _ h.dropHead.modCore.stampStart).noteAll.ite h

theorem Canonical.goOrWait {p f} {go : State → State} (h : Canonical s) (hgo : ∀ t, Canonical t → Canonical (go t)) :
    Canonical (goOrWait p f go s) :=
  h.modFlight.ite (hgo _ h)

/-! ### Stage queues, the Clamp engine and the queue commands -/

theorem Canonical.modQ {p desc f} (h : Canonical s) : Canonical (s.modQ p desc f) := h.modCore.ite h.mapBents

theorem Canonical.putPieces {p ps bs} (h : Canonical s) : Canonical (s.putPieces p ps bs) := by
  induction ps generalizing s bs with
  | nil => exact h
  | cons x ps ih => exact ih h.writeLoc

theorem Canonical.refill {p q f} (h : Canonical s) (e : s.refill p q = some (t, f)) : Canonical t := by
  unfold State.refill at e
  split at e
  · split at e
    · cases e; exact h.putPieces
    · cases e
  · cases e

theorem Canonical.refillQ {p q} (h : Canonical s) : Canonical (s.refillQ p q) := by
  unfold State.refillQ
  split
  · next e => exact (h.refill e).modQ
  · exact h

theorem Canonical.refills {p desc n} (h : Canonical s) : Canonical (s.refills p desc n) := by
  induction n generalizing s with
  | zero => exact h
  | succ n ih =>
    unfold State.refills
    split
    · exact (ih h.refillQ).ite h
    · exact h

theorem Canonical.spillQ {p q} (h : Canonical s) : Canonical (s.spillQ p q) := by
  unfold State.spillQ
  dsimp only
  split
  · exact h.putPieces.modQ
  · exact h

theorem Canonical.reserveQ {p desc} (h : Canonical s) : Canonical (s.reserveQ p desc).1 := by
  unfold State.reserveQ
  dsimp only
  split
  · exact h
  · split
    · split
      · split
        · exact h.refills.modQ
        · exact h.refills
      · exact h.refills
    · split
      · split
        · split
          · exact h.refills.spillQ.modQ
          · exact h.refills.spillQ
        · exact h
      · exact h.refills

theorem Canonical.claimQ {p desc} (h : Canonical s) : Canonical (s.claimQ p desc).1 := by
  unfold State.claimQ
  dsimp only
  split
  · exact h.modQ
  · exact h

theorem Canonical.wdRestart {p} (h : Canonical s) : Canonical (s.wdRestart p) := by
  unfold State.wdRestart
  split
  · exact h.modLq
  · exact h

theorem Canonical.commitQ {p desc i} (h : Canonical s) : Canonical (s.commitQ p desc i) := h.modQ.wdRestart

theorem Canonical.releaseQ {p desc i} (h : Canonical s) : Canonical (s.releaseQ p desc i) := h.modQ.refills.wdRestart

theorem Canonical.putQ {p q} (h : Canonical s) : Canonical (s.putQ p q) := by
  unfold State.putQ
  dsimp only
  split
  · exact h.modCore.mapBents.modCore
  · split
    · exact h.modCore.mapBents.modBent
    · exact h.modCore.mapBents

theorem Canonical.writeBack {p q l} (h : Canonical s) : Canonical (s.writeBack p q l) := h.writeHome

theorem Canonical.qDo {p op desc l} (h : Canonical s) : Canonical (s.qDo p op desc l).1 := by
  unfold State.qDo
  extract_lets addr
  split
  · dsimp only
    split
    · exact h.putQ
    · exact h
  · exact h.claimQ
  · exact h.reserveQ
  · dsimp only
    split
    · exact h.releaseQ
    · exact h
  · dsimp only
    split
    · exact h.commitQ
    · exact h
  · split
    · exact h.writeBack
    · exact h

theorem Canonical.storeResult {p r ls} (h : Canonical s) : Canonical (s.storeResult p r ls) := by
  unfold State.storeResult
  split
  · exact h.writeHome.grant
  · exact h

theorem Canonical.queueGo {p op d f ls} (h : Canonical s) : Canonical (s.queueGo p op d f ls) := by
  unfold State.queueGo
  dsimp only
  split
  · exact h.flightFault
  · exact (h.qDo.storeResult.finish.clearL1.ite h.qDo.storeResult.finish).ite h.modFlight
  · exact h.finish

theorem Canonical.queueCmd {op hd desc resa} (h : Canonical s) : Canonical (queueCmd op hd desc resa s) :=
  h.command fun _ _ _ hs => hs.goOrWait fun _ ht => ht.queueGo

theorem Canonical.execClampRefill {b n} (h : Canonical s) : CanonicalOut (execClampRefill b n s) := by
  unfold Machine.execClampRefill
  refine .next ?_
  split
  · split
    · next e => exact (h.refill e).modBent
    · exact h
  · exact h

/-! ### Chains, tokens, counters and flow commands -/

theorem Canonical.modChain {p e f} (h : Canonical s) : Canonical (s.modChain p e f) := h.modEng

theorem Canonical.usedWords {p va n} (h : Canonical s) : Canonical (s.usedWords p va n) := by
  induction n generalizing s va with
  | zero => exact h
  | succ n ih =>
    refine ih ?_
    split
    · exact h.used
    · exact h

theorem Canonical.chainFault {p e code va} (h : Canonical s) : Canonical (s.chainFault p e code va) :=
  h.engRecord.modChain

theorem Canonical.chainPark {p e cause va} (h : Canonical s) : Canonical (s.chainPark p e cause va) := by
  unfold State.chainPark
  exact h.reportPage.modChain

theorem Canonical.takeCmd {p e ws} (h : Canonical s) : Canonical (s.takeCmd p e ws) := by
  unfold State.takeCmd
  dsimp only
  split
  · exact h.modEng.modChain
  · exact h.modEng.modChain
  · exact h.modEng.modChain.ite (h.modEng.modChain.ite h.modChain)
  · exact h.modEng.modChain

theorem Canonical.execChainBlockFetch {p e} (h : Canonical s) : CanonicalOut (execChainBlockFetch p e s) := by
  unfold Machine.execChainBlockFetch
  dsimp only
  refine .next ?_
  split
  · exact h
  · split
    · exact (h.ite h.modChain).chainFault
    · exact (h.ite h.modChain).note.note.usedWords.takeCmd
    · exact (h.ite h.modChain).noteFail.chainPark
    · exact (h.ite h.modChain).noteFail.chainFault

theorem Canonical.execSequenceAdvance {p e} (h : Canonical s) : CanonicalOut (execSequenceAdvance p e s) := by
  unfold Machine.execSequenceAdvance
  dsimp only
  refine .next ?_
  split
  · exact h
  · exact h.ite h.modChain

theorem Canonical.execTokenPush {p n} (h : Canonical s) : CanonicalOut (execTokenPush p n s) := by
  unfold Machine.execTokenPush
  dsimp only
  refine .next ?_
  split
  · exact h
  · split
    · exact h
    · refine .ite (h.setCore_same ?_) h
      rfl

theorem Canonical.addAt {p l inc} (h : Canonical s) : Canonical (s.addAt p l inc) := h.writeHome

theorem Canonical.execCounterAdd {p n} (h : Canonical s) : CanonicalOut (execCounterAdd p n s) := by
  unfold Machine.execCounterAdd
  dsimp only
  refine .next ?_
  split
  · exact h
  · split
    · exact h
    · exact h.addAt.modCore.ite h

theorem Canonical.csigGo {p inc f ls} (h : Canonical s) : Canonical (s.csigGo p inc f ls) := by
  unfold State.csigGo
  split
  · exact h.addAt.modFlight.finish.ite h.modFlight
  · exact h.finish

theorem Canonical.execCwait {hd ctr target} (h : Canonical s) : CanonicalOut (execCwait hd ctr target s) :=
  .next (h.command fun _ _ _ ht => (ht.foldl fun _ _ hu => hu.used).goOrWait fun _ hu => hu.finish)

theorem Canonical.execCseq {hd addr val} (h : Canonical s) : CanonicalOut (execCseq hd addr val s) := by
  unfold Machine.execCseq
  refine .next (h.command fun _ _ _ ht => ?_)
  refine .finish ?_
  split
  · exact ht.writeHome.grant
  · exact ht

theorem Canonical.chainCmd {hd} (h : Canonical s) : Canonical (chainCmd hd s) :=
  h.command fun _ _ _ hs => hs.goOrWait fun _ ht => ht.finish

theorem Canonical.postRecord {q r} (h : Canonical s) : Canonical (s.postRecord q r) := h.writeSup.modLq

/-! ### The Plumb unit -/

theorem Canonical.modSym {p n f} (h : Canonical s) : Canonical (s.modSym p n f) := h.modCore

theorem Canonical.closeWindow {p n} (h : Canonical s) : Canonical (s.closeWindow p n) := (h.event.ite h).modSym.ite h

theorem Canonical.execWindowClose {p n} (h : Canonical s) : CanonicalOut (execWindowClose p n s) :=
  .next (h.ite h.closeWindow)

theorem Canonical.sample {p n lat} (h : Canonical s) : Canonical (s.sample p n lat) :=
  h.closeWindow.modSym.ite h.closeWindow

theorem Canonical.installBindings {p} (h : Canonical s) : Canonical (s.installBindings p) := h.modCore.event

/-! ### Stochastic generators -/

theorem Canonical.modRng {p f} (h : Canonical s) : Canonical (s.modRng p f) := h.modCore

/-! ### Copies and reducing copies -/

theorem Canonical.writeBytes {p ls bs} (h : Canonical s) : Canonical (s.writeBytes p ls bs) := by
  induction ls generalizing s bs with
  | nil => exact h
  | cons l ls ih =>
    cases bs with
    | nil => exact h
    | cons b bs => exact ih h.writeHome

theorem Canonical.usedSrc {p n x} (h : Canonical s) : Canonical (s.usedSrc p n x) := by
  unfold State.usedSrc
  dsimp only
  split
  · split
    · refine .grant (.used ?_)
      split
      · exact h.used.grant
      · exact h
    · split
      · exact h.used.grant
      · exact h
  · exact h

theorem Canonical.moved {p j k n} (h : Canonical s) : Canonical (s.moved p j k n) := h.noteAll.noteAll.count

theorem Canonical.storeBytes {p ls bs} (h : Canonical s) : Canonical (s.storeBytes p ls bs) :=
  h.writeBytes.foldl fun _ _ ht => ht.grant

theorem Canonical.copyLoop {p j get n k} (h : Canonical s) : Canonical (copyLoop p j get n k s).1 := by
  induction n generalizing s k with
  | zero => exact h
  | succ n ih =>
    unfold Machine.copyLoop
    split
    · exact h
    · split
      · exact h
      · exact ih (h.ite h.usedSrc).storeBytes

theorem Canonical.copyDone {p f t} (h : Canonical s) : Canonical (s.copyDone p f t) := (h.sample.ite h).finish

theorem Canonical.usedAll {p j k} (h : Canonical s) : Canonical (s.usedAll p j k) :=
  (h.foldl fun _ _ ht => ht.usedSrc).ite h

theorem Canonical.runJob {p f tag j} (h : Canonical s) : Canonical (runJob p f tag j s) := by
  unfold Machine.runJob
  dsimp only
  split
  · next e => exact (h.usedAll.copyLoop.of_eq e).moved.copyDone
  · next e =>
    have copied := h.usedAll.copyLoop.of_eq e
    split
    · exact copied.moved.noteFail.flightPark
    · exact copied.moved.noteFail.flightFault

theorem Canonical.copyCmd {hd t ctr inc mk} (h : Canonical s) : Canonical (copyCmd hd t ctr inc mk s) :=
  h.command fun _ _ _ hs => hs.goOrWait fun _ hu => hu.runJob

theorem Canonical.execCpyn {hd c} (h : Canonical s) : CanonicalOut (execCpyn hd c s) :=
  .next (h.command fun _ _ _ hu => (hu.modFlight.foldl fun _ _ ht => ht.used).goOrWait fun _ hs => hs.runJob)

theorem Canonical.allocLine {line} (h : Canonical s) : Canonical (s.allocLine line) := h.frame

theorem Canonical.prefLoop {p va n} (h : Canonical s) : Canonical (prefLoop p va n s) := by
  induction n generalizing s va with
  | zero => exact h
  | succ n ih =>
    refine ih ?_
    split
    · split
      · exact h.allocLine.ite h
      · exact h
    · exact h

theorem Canonical.runPref {p f c} (h : Canonical s) : Canonical (runPref p f c s) := h.prefLoop.noteAll.count.copyDone

theorem Canonical.applyElems {p f rop l bs n} (h : Canonical s) : Canonical (applyElems p f rop l bs n s) := by
  induction n generalizing s l bs with
  | zero => exact h
  | succ n ih => exact ih h.writeHome

theorem Canonical.rcpyLoop {p ord f c count k0 n k} (h : Canonical s) :
    Canonical (rcpyLoop p ord f c count k0 n k s).1 := by
  induction n generalizing s k with
  | zero => exact h
  | succ n ih =>
    unfold Machine.rcpyLoop
    dsimp only
    split
    · exact h
    · split
      · exact h
      · split
        · exact h
        · split
          · exact h
          · exact ih (h.modCore.ite h.modCore).usedSrc

theorem Canonical.runRcpy {p f c} (h : Canonical s) : Canonical (runRcpy p f c s) := by
  unfold Machine.runRcpy
  split
  · exact h
  · extract_lets r e s1
    have hr : Canonical r.1 := h.rcpyLoop
    have hs1 : Canonical s1 := hr.moved.modFlight
    refine hs1.ite ?_
    split
    · exact hs1.copyDone
    · split
      · exact hs1.noteFail.flightPark
      · exact hs1.noteFail.flightFault

theorem Canonical.rcpyDone {p ord} (h : Canonical s) : Canonical (s.rcpyDone p ord) := by
  unfold State.rcpyDone
  split
  · exact h
  · split
    · exact h.runRcpy.ite h
    · exact h

theorem Canonical.modChunk {p seq f} (h : Canonical s) : Canonical (s.modChunk p seq f) := h.modCore

theorem Canonical.loseChunk {p x} (h : Canonical s) : Canonical (s.loseChunk p x) := by
  unfold State.loseChunk
  dsimp only
  split
  · split
    · exact h.modCore.ite h.modCore.flightFault
    · exact h.modCore
  · exact h

theorem Canonical.execChunkApply {p seq} (h : Canonical s) : CanonicalOut (execChunkApply p seq s) := by
  unfold Machine.execChunkApply
  dsimp only
  refine .next ?_
  split
  · exact h
  · split
    · exact h
    · split
      · exact h.loseChunk
      · split
        · exact h.modChunk
        · split
          · exact h.modChunk
          · exact h.modChunk.applyElems.frame

theorem Canonical.execChunkResend {p seq} (h : Canonical s) : CanonicalOut (execChunkResend p seq s) := by
  unfold Machine.execChunkResend
  refine .next ?_
  split
  · exact h.modChunk.ite h
  · exact h

theorem Canonical.execChunkAcknowledgement {p seq} (h : Canonical s) :
    CanonicalOut (execChunkAcknowledgement p seq s) := by
  unfold Machine.execChunkAcknowledgement
  refine .next ?_
  split
  · exact h.ite (h.loseChunk.ite (h.modChunk.rcpyDone.ite h))
  · exact h

theorem Canonical.execAcknowledgementConfirmation {p seq} (h : Canonical s) :
    CanonicalOut (execAcknowledgementConfirmation p seq s) := by
  have erased := h.modCore (p := p) (f := fun c => { c with chunks := eraseFirst (fun y => y.seq == seq) c.chunks })
  unfold Machine.execAcknowledgementConfirmation
  refine .next ?_
  split
  · exact erased.frame.ite h
  · exact h

/-! ### Pod streams -/

theorem Canonical.modStream {y n f} (h : Canonical s) : Canonical (s.modStream y n f) := h.modBay

theorem Canonical.modSub {p n f} (h : Canonical s) : Canonical (s.modSub p n f) := h.modCore

theorem Canonical.unbind {y n} (h : Canonical s) : Canonical (s.unbind y n) := h.modStream.ite h

theorem Canonical.endSub {p n} (h : Canonical s) : Canonical (s.endSub p n) :=
  (h.modSub.unbind.foldl fun _ _ ht => ht.finish).ite h

theorem Canonical.psubGo {p c f} (h : Canonical s) : Canonical (s.psubGo p c f) :=
  h.modStream.modSub.finish.ite h.flightFault

theorem Canonical.punsGo {p strm f} (h : Canonical s) : Canonical (s.punsGo p strm f) := h.modSub.endSub.ite h.finish

theorem Canonical.dropFeed {y n} (h : Canonical s) : Canonical (s.dropFeed y n) := h.modStream

theorem Canonical.cpypDone {p ord} (h : Canonical s) : Canonical (s.cpypDone p ord) := by
  unfold State.cpypDone
  dsimp only
  split
  · exact h
  · split
    · exact h.ite h.copyDone
    · exact h

theorem Canonical.cpypsDone {y n} (h : Canonical s) : Canonical (s.cpypsDone y n) :=
  h.foldl fun _ _ ht => ht.foldl fun _ _ hu => hu.cpypDone

theorem Canonical.feedStream {y n k} (h : Canonical s) : Canonical (s.feedStream y n k) := by
  induction k generalizing s with
  | zero => exact h
  | succ k ih =>
    unfold State.feedStream
    dsimp only
    split
    · exact h
    · split
      · exact h
      · split
        · exact ih h.dropFeed
        · split
          · refine .ite (ih h.dropFeed.cpypDone) (.ite h ?_)
            split
            · exact ih h.modStream.modFlight.usedSrc
            · exact h.noteFail.flightPark
            · exact ih h.dropFeed.noteFail.flightFault
          · exact ih h.dropFeed

theorem Canonical.noteFed {x} (ht : Canonical t) : Canonical (s.noteFed t x) := by
  unfold State.noteFed
  dsimp only
  split
  · exact ht
  · split
    · exact ht.noteAll.count
    · exact ht

theorem Canonical.feed {y n} (h : Canonical s) : Canonical (s.feed y n) := h.feedStream.foldl fun _ _ ht => ht.noteFed

theorem Canonical.runCpyp {p f c} (h : Canonical s) : Canonical (runCpyp p f c s) := h.copyDone.ite h.feed

theorem Canonical.execCpyp {hd c} (h : Canonical s) : CanonicalOut (execCpyp hd c s) :=
  .next (h.command fun _ _ _ ht => (ht.modFlight.ite ht.modFlight.modStream).goOrWait fun _ hs => hs.runCpyp)

theorem Canonical.execPodRowDelivery {y n} (h : Canonical s) : CanonicalOut (execPodRowDelivery y n s) := by
  unfold Machine.execPodRowDelivery
  dsimp only
  refine .next ?_
  split
  · exact h.feed.cpypsDone
  · split
    · exact h
    · exact h.writeLoc.grant.modSub.modStream.feed.cpypDone.endSub.unbind

theorem Canonical.dropRows {p n y} (h : Canonical s) : Canonical (State.dropRows p n s y) := by
  unfold State.dropRows
  extract_lets i owed s1 s2
  have hs2 : Canonical s2 := h.modStream.foldl fun _ _ hu => hu.modFlight
  exact (hs2.feed.foldl fun _ _ hu => hu.cpypDone).unbind

theorem Canonical.dropSubs {p} (h : Canonical s) : Canonical (s.dropSubs p) :=
  h.foldl fun _ _ ht => (ht.modSub.foldl fun _ _ hs => hs.dropRows).ite ht

theorem Canonical.dropStreams {gid} (h : Canonical s) : Canonical (s.dropStreams gid) := h.frame

/-! ### The matrix engine -/

theorem Canonical.consume {p n k} (h : Canonical s) : Canonical (s.consume p n k) := h.ite h.modSub

theorem Canonical.grantRows {p rows} (h : Canonical s) : Canonical (s.grantRows p rows) :=
  h.foldl fun _ _ ht => ht.grant

theorem Canonical.readA {p f a sa k} (h : Canonical s) : Canonical (s.readA p f a sa k) := h.grantRows

theorem Canonical.readB {p f kstep qm pod b sb k} (h : Canonical s) : Canonical (s.readB p f kstep qm pod b sb k) :=
  h.grantRows

theorem Canonical.mgoFault {p r code va} (h : Canonical s) : Canonical (s.mgoFault p r code va) := by
  unfold State.mgoFault
  dsimp only
  refine .modMe (.consume ?_)
  split
  · exact h.flightFault
  · exact h

theorem Canonical.mgoApply {p r x aRows aSc held} (h : Canonical s) : Canonical (s.mgoApply p r x aRows aSc held) := by
  unfold State.mgoApply
  dsimp only
  split
  · exact h.modMe.count
  · exact h.modMe.consume.count.finish

theorem Canonical.dropA {p r} (h : Canonical s) : Canonical (s.dropA p r) := h.consume.modMe.ite h

theorem Canonical.mgoStep {p r} (h : Canonical s) : Canonical (s.mgoStep p r) := by
  unfold State.mgoStep
  dsimp only
  split
  · split
    · exact h.mgoFault
    · exact h.modMe
    · exact h.modMe
  · split
    · split
      · exact h.dropA.mgoFault
      · exact h.dropA.modMe
      · exact h.dropA.readA.mgoApply
    · exact h.mgoApply

theorem Canonical.loadAhead {p r} (h : Canonical s) : Canonical (s.loadAhead p r) := by
  unfold State.loadAhead
  dsimp only
  split
  · exact h
  · split
    · exact h.readB.consume.modMe
    · exact h

theorem Canonical.loadMbld {p ord c} (h : Canonical s) : Canonical (s.loadMbld p ord c) := by
  unfold State.loadMbld
  dsimp only
  split
  · exact h.readB.consume.modMe.finish
  · exact h.modMe
  · split
    · exact h.flightFault.modMe
    · exact h

theorem Canonical.execBBlockLoad {p} (h : Canonical s) : CanonicalOut (execBBlockLoad p s) := by
  unfold Machine.execBBlockLoad
  refine .next ?_
  split
  · exact h
  · split
    · split
      · exact h.loadMbld
      · split
        · exact h.loadAhead
        · exact h
    · exact h.loadAhead
    · exact h

theorem Canonical.drainStep {p ord i} (h : Canonical s) : Canonical (s.drainStep p ord i) := by
  unfold State.drainStep
  dsimp only
  split
  · exact h
  · split
    · split
      · exact h
      · split
        · exact h.noteFail.flightPark
        · exact h.noteFail.flightFault.modMe
        · split
          · exact h.flightFault.modMe
          · split
            · exact h
            · split
              · exact (h.writeBytes.writeBytes.foldl fun _ _ ht => ht.grant).noteAll.modRng.modMe
              · exact (h.writeBytes.writeBytes.foldl fun _ _ ht => ht.grant).noteAll.modRng.modMe.finish
    · exact h

theorem Canonical.execMeStep {p} (h : Canonical s) : CanonicalOut (execMeStep p s) := by
  unfold Machine.execMeStep
  refine .next ?_
  split
  · exact h
  · split
    · exact h.drainStep
    · exact h.mgoStep
    · exact h

/-! ### Furrow row operations -/

theorem Canonical.modCtl {stack f} (h : Canonical s) : Canonical (s.modCtl stack f) := h.modBent

theorem Canonical.dropLlc {a n} (h : Canonical s) : Canonical (s.dropLlc a n) := h.frame

theorem Canonical.furRow {g dst srcs i} (h : Canonical s) : Canonical (s.furRow g dst srcs i) := h.writePhys

theorem Canonical.furEnter {f} (h : Canonical s) : Canonical (s.furEnter f) := (h.foldl fun _ _ ht => ht.dropLlc).modCtl

theorem Canonical.furForward {p ord f} (h : Canonical s) : Canonical (s.furForward p ord f) :=
  h.furEnter.modFlight.ite h.modFlight

theorem Canonical.furNote {p f record} (h : Canonical s) : Canonical (s.furNote p f record) := h.noteAll

theorem Canonical.furGo {p fl f ones record} (h : Canonical s) : Canonical (s.furGo p fl f ones record) := by
  unfold State.furGo
  dsimp only
  split
  · exact h.furForward
  · split
    · exact h.modFlight
    · refine .furNote ?_
      split
      · exact h.flightPark
      · split
        · split
          · exact h.flightFault.modCtl
          · exact h.flightFault
        · exact h.flightHold
      · split
        · split
          · exact h.flightFault.modCtl
          · exact h.flightFault
        · exact h.flightHold
      · exact h.furForward

theorem Canonical.furRecord {f} (h : Canonical s) : Canonical (s.furRecord f) := by
  unfold State.furRecord
  dsimp only
  split
  · exact h.writeHome.grant
  · exact h

theorem Canonical.furFinish {f} (h : Canonical s) : Canonical (s.furFinish f) := by
  unfold State.furFinish
  split
  · split
    · exact h.addAt
    · exact h
  · exact h.finish

theorem Canonical.fqryGo {p fl f res} (h : Canonical s) : Canonical (s.fqryGo p fl f res) := by
  unfold State.fqryGo
  dsimp only
  split
  · exact h.modFlight
  · split
    · exact h.flightPark
    · exact h.flightFault
    · refine .finish (.furNote ?_)
      split
      · exact h.writeHome.grant
      · exact h

theorem Canonical.furrow {hd opc f srcs ones} (h : Canonical s) : Canonical (furrow hd opc f srcs ones s) :=
  h.command fun _ _ _ ht => ht.goOrWait fun _ hu => hu.furGo

/-! ### Station orders -/

theorem Canonical.sta {f o} (h : Canonical s) : Canonical (State.sta f o s) := h.modVe.modRng

theorem Canonical.staMask {f o} (h : Canonical s) : Canonical (State.staMask f o s) := h.modVe

theorem Canonical.stationAct {i f} (e : stationAct i = some f) (h : Canonical s) : Canonical (f s) := by
  cases i <;> cases e
  case vcmp | vmask => exact h.staMask
  all_goals exact h.sta

/-! ### The vector engine -/

theorem Canonical.tryEnd {p} (h : Canonical s) : Canonical (s.tryEnd p) := by
  unfold State.tryEnd
  dsimp only
  split
  · exact h.modVe
  · split
    · refine .finish ?_
      split
      · exact (h.foldl fun _ _ hs => hs.dropTicket).modVe.finish
      · exact (h.foldl fun _ _ hs => hs.dropTicket).modVe
    · split
      · exact (h.foldl fun _ _ hs => hs.dropTicket).modVe.finish
      · exact (h.foldl fun _ _ hs => hs.dropTicket).modVe

theorem Canonical.tallyFreeze {p} (h : Canonical s) : Canonical (s.tallyFreeze p) := h.modVe.modCore.count.ite h

theorem Canonical.freeze {p} (h : Canonical s) : Canonical (s.freeze p) := h.tallyFreeze.modVe

theorem Canonical.thaw {p} (h : Canonical s) : Canonical (s.thaw p) := h.tallyFreeze.modVe

theorem Canonical.endRun {p fault} (h : Canonical s) : Canonical (s.endRun p fault) := by
  unfold State.endRun
  dsimp only
  refine .tryEnd ?_
  split
  · exact h.thaw.modVe.modFlight.ite h.thaw.modVe
  · exact h.thaw.modVe

theorem Canonical.veFault {p ws pc code va elem} (h : Canonical s) : Canonical (s.veFault p ws pc code va elem) :=
  h.engRecord.endRun

theorem Canonical.loadTable {p f c} (h : Canonical s) : Canonical (s.loadTable p f c) := by
  unfold State.loadTable
  split
  · exact h.modFlight
  · split
    · exact (h.foldl fun _ _ ht => ht.used).modVe.modFlight.noteAll
    · exact h.noteFail.flightPark
    · exact h.noteFail.veFault.ite h.flightHold

theorem Canonical.startRun {p f hd c} (h : Canonical s) : Canonical (s.startRun p f hd c) := h.modRng.modVe.loadTable

theorem Canonical.stationsOf {ws l x} (hx : x ∈ stationsOf ws l) (h : Canonical s) : Canonical (x.2 s) := by
  obtain ⟨y, -, e⟩ := List.mem_filterMap.1 hx
  obtain ⟨f, act, rfl⟩ := Option.map_eq_some_iff.1 e
  exact h.stationAct act

theorem Canonical.execSrd {o} (h : Canonical s) : CanonicalOut (execSrd o s) := by
  unfold Machine.execSrd
  dsimp only
  refine .next ?_
  split
  · exact h.modVe
  · exact h.veFault

theorem Canonical.execSwr {o} (h : Canonical s) : CanonicalOut (execSwr o s) := by
  unfold Machine.execSwr
  dsimp only
  refine .next ?_
  split
  · exact h.modVe
  · exact h.veFault

theorem Canonical.timeSet {p o} (h : Canonical s) : Canonical (s.timeSet p o) := h.modVe

theorem Canonical.clampEvent {p} (h : Canonical s) : Canonical (s.clampEvent p) := h.event.modVe.ite h

theorem Canonical.timeAct {p o} (h : Canonical s) : Canonical (s.timeAct p o) := h.timeSet.clampEvent

theorem Canonical.runStations {ws l} (h : Canonical s) : Canonical (runStations (Machine.stationsOf ws l) s) := by
  refine h.foldl fun _ _ ht => ?_
  split
  · next found => exact ht.stationsOf (List.mem_of_find?_eq_some found)
  · exact ht

theorem Canonical.setDue {p} (h : Canonical s) : Canonical (s.setDue p) := by
  unfold State.setDue
  split
  · exact h.timeSet
  · exact h.modVe

theorem Canonical.issueBundle {p ws l} (h : Canonical s) : Canonical (s.issueBundle p ws l) := by
  unfold State.issueBundle
  dsimp only
  split
  · exact h.modVe.runStations.modVe.count.endRun
  · exact h.modVe.runStations.modVe.count.modVe.setDue
  · exact h.modVe.runStations.modVe.count.modVe.setDue
  · exact h.modVe.runStations.modVe.count.setDue

theorem Canonical.safeRecord {p type bit sub x extra} (h : Canonical s) :
    Canonical (s.safeRecord p type bit sub x extra) :=
  h.emit.ite h

theorem Canonical.bundleIssue {p} (h : Canonical s) : Canonical (s.bundleIssue p) := by
  unfold State.bundleIssue
  extract_lets t v ws? ws cut stop
  have ht : Canonical t := h.modVe
  refine ht.thaw.modVe.ite ?_
  split
  · exact ht.veFault
  · exact ht.thaw.modVe.ite (ht.freeze.ite ht.thaw.clampEvent.issueBundle)

theorem Canonical.execBundleIssue {p} (h : Canonical s) : CanonicalOut (execBundleIssue p s) :=
  .next (h.modSched.bundleIssue.ite h)

theorem Canonical.execCutDrain {p} (h : Canonical s) : CanonicalOut (execCutDrain p s) := by
  unfold Machine.execCutDrain
  dsimp only
  refine .next ?_
  split
  · exact h
  · split
    · exact h.modVe
    · split
      · exact (h.installBindings.ite h).endRun
      · split
        · exact (h.installBindings.ite h).safeRecord.modVe
        · exact (h.installBindings.ite h).modVe

theorem Canonical.walkPark {p n code cause va} (h : Canonical s) : Canonical (s.walkPark p n code cause va) :=
  h.reportPage.modVe

theorem Canonical.walkFault {p n va} (h : Canonical s) : Canonical (s.walkFault p n va) := h.modVe.veFault

theorem Canonical.readIndex {p n} (h : Canonical s) : Canonical (s.readIndex p n) := by
  unfold State.readIndex
  dsimp only
  split
  · exact h.noteFail.walkPark
  · exact h.noteFail.walkFault
  · exact h.used.modVe.note

theorem Canonical.execWalkRequest {p q} (h : Canonical s) : CanonicalOut (execWalkRequest p q s) := by
  unfold Machine.execWalkRequest
  dsimp only
  refine .next ?_
  split
  · exact h
  · split
    · exact h
    · split
      · exact h.readIndex
      · split
        · exact h.noteFail.walkPark
        · exact h.noteFail.walkFault
        · exact h.modVe.note

theorem Canonical.execVectorLanding {p q} (h : Canonical s) : CanonicalOut (execVectorLanding p q s) := by
  unfold Machine.execVectorLanding
  refine .next ?_
  split
  · exact h
  · refine h.ite (.ite (h.modVe.veFault.ite h) ?_)
    extract_lets s1 s2
    have hs1 : Canonical s1 := h.used.grant.modVe
    have hs2 : Canonical s2 := by
      unfold s2
      split
      · exact hs1.sample
      · exact hs1
    exact hs2.tryEnd.ite hs2

theorem Canonical.execWriteWalkWrite {p q} (h : Canonical s) : CanonicalOut (execWriteWalkWrite p q s) := by
  unfold Machine.execWriteWalkWrite
  dsimp only
  refine .next ?_
  split
  · split
    · exact h
    · split
      · exact h.readIndex
      · split
        · exact h.noteFail.walkPark
        · exact h.noteFail.walkFault
        · exact (h.writeHome.grant.modVe.tryEnd.ite h.writeHome.grant.modVe).note
  · exact h

/-! ### Performing what a context has issued -/

theorem Canonical.loseAccess {p k i} (h : Canonical s) (e : s.loseAccess p k i = some t) : Canonical t := by
  have filled : Canonical (s.modCore p fun c => c.fill k i.id i.dst (Config.lostValue s.sched.tick)) :=
    h.modCore fun _ => fill_scratch
  unfold State.loseAccess at e
  dsimp only at e
  split at e
  · cases e
  · split at e
    · cases e; exact filled.trap
    · cases e; exact filled.report

theorem Canonical.dropPend {p k id} (h : Canonical s) : Canonical (s.dropPend p k id) := h.modCtx

theorem Canonical.performItem {p k i} (h : Canonical s) (e : s.performItem p k i = some t) : Canonical t := by
  have filled : ∀ u v, Canonical u → Canonical (u.modCore p fun c => c.fill k i.id i.dst v) :=
    fun _ _ hu => hu.modCore fun _ => fill_scratch
  unfold State.performItem at e
  dsimp only at e
  split at e
  · cases e; exact filled _ _ h.dropPend
  · split at e
    · exact h.dropPend.loseAccess e
    · cases e
      split
      · exact filled _ _ h.dropPend
      · exact filled _ _ h.dropPend.loadScalar.grant
  · split at e
    · exact h.dropPend.loseAccess e
    · split at e
      · cases e
      · cases e; exact h.dropPend.storeScalar.grant
  · split at e
    · exact h.dropPend.loseAccess e
    · cases e; exact filled _ _ h.dropPend.writeHome.grant
  · cases e

theorem Canonical.drainCtx {p k n} (h : Canonical s) : Canonical (s.drainCtx p k n) := by
  induction n generalizing s with
  | zero => exact h
  | succ n ih =>
    unfold State.drainCtx
    dsimp only
    split
    · exact h
    · split
      · next e => exact ih (h.performItem e).settle
      · exact h

theorem Canonical.flushOne {p e} (h : Canonical s) : Canonical (State.flushOne p s e) := h.modCore.ite h.applyComb

theorem Canonical.flushComb {p} (h : Canonical s) : Canonical (s.flushComb p) :=
  (h.modCore.foldl fun _ _ hs => hs.flushOne).settle

theorem Canonical.drain {p} (h : Canonical s) : Canonical (s.drain p) :=
  (h.foldl fun _ _ ht => ht.drainCtx).flushComb.foldl fun _ _ ht => ht.drainCtx

/-! ### Launch queues, gangs and the watchdog -/

theorem Canonical.supWrite {va v} (h : Canonical s) : Canonical (s.supWrite va v) := by
  unfold State.supWrite
  split
  · exact h.ite h.writeSup
  · exact h

theorem Canonical.supAdd {va} (h : Canonical s) : Canonical (s.supAdd va) := by
  unfold State.supAdd
  split
  · exact h.ite h.writeSup
  · exact h

theorem Canonical.outcomeNow {statusa donectr code} (h : Canonical s) : Canonical (s.outcomeNow statusa donectr code) :=
  (h.ite h.supWrite).ite ((h.ite h.supWrite).supAdd)

theorem Canonical.outcome {statusa donectr code} (h : Canonical s) : Canonical (s.outcome statusa donectr code) :=
  h.modLaunch.ite h.outcomeNow

theorem Canonical.separate {y} (h : Canonical s) : Canonical (s.separate y) := (h.foldl fun _ _ ht => ht.modCore).modBay

theorem Canonical.unfuse {y} (h : Canonical s) : Canonical (s.unfuse y) := h.ite (h.modBay.ite h.separate)

theorem Canonical.startGroup {p g keep} (h : Canonical s) : Canonical (s.startGroup p g keep) := by
  unfold State.startGroup
  split
  · split
    · exact h.dropSubs.unfuse.modCore
    · exact h
  · exact h

theorem Canonical.initDesc {g i} (h : Canonical s) : Canonical (s.initDesc g i) := by
  unfold State.initDesc
  dsimp only
  split
  · exact h
  · split
    · exact h
    · split
      · refine h.foldl fun _ _ ht => ?_
        split
        · exact ht.putQ
        · exact ht
      · exact h.putQ

theorem Canonical.dropFeeds {p} (h : Canonical s) : Canonical (s.dropFeeds p) := h.modBay

theorem Canonical.furAdds {p} (h : Canonical s) : Canonical (s.furAdds p) := by
  unfold State.furAdds
  refine h.foldl fun _ _ ht => ?_
  split
  · exact ht.addAt.ite ht
  · exact ht

theorem Canonical.orphanFur {p} (h : Canonical s) : Canonical (s.orphanFur p) := h.mapBents

theorem Canonical.leave {p} (h : Canonical s) : Canonical (s.leave p) := by
  unfold State.leave
  split
  · exact h
  · extract_lets s1 c s2
    have hs1 : Canonical s1 := h.tallyFreeze.drain.furAdds.orphanFur.dropSubs.dropFeeds
    have hs2 : Canonical s2 := (hs1.foldl fun _ _ hs => hs.dropTicket).unfuse
    exact hs2.modGang.modCore

theorem Canonical.queueBackNow {q} (h : Canonical s) : Canonical (s.queueBackNow q) := by
  unfold State.queueBackNow
  split
  · exact h.writeBack.ite h
  · split
    · exact h.ite h.writeBack
    · exact h

theorem Canonical.queueBack {q} (h : Canonical s) : Canonical (s.queueBack q) := h.modLaunch.ite h.queueBackNow

theorem Canonical.payOwed (h : Canonical s) : Canonical s.payOwed := by
  unfold State.payOwed
  split
  · exact h
  · refine h.modLaunch.foldl fun _ _ ht => ?_
    split
    · exact ht.outcomeNow
    · exact ht.queueBackNow

theorem Canonical.dropQueues {g} (h : Canonical s) : Canonical (s.dropQueues g) :=
  (h.foldl fun _ _ hs => hs.queueBack).mapBents

theorem Canonical.endGang {gid code} (h : Canonical s) : Canonical (s.endGang gid code) := by
  unfold State.endGang
  dsimp only
  split
  · exact h
  · exact (h.foldl fun _ _ hs => hs.dropTicket).dropQueues.outcome.modLaunch.mapBents.modPm

theorem Canonical.killGang {gid code} (h : Canonical s) : Canonical (s.killGang gid code) := by
  unfold State.killGang
  split
  · exact h
  · exact (h.foldl fun _ _ hs => hs.leave).endGang

theorem Canonical.killPre {e code} (h : Canonical s) : Canonical (s.killPre e code) :=
  (h.foldl fun _ _ hs => hs.dropTicket).dropStreams.dropQueues.outcome.mapBents.modLaunch

theorem Canonical.sendPacket {p k} (h : Canonical s) : Canonical (s.sendPacket p k) := h.modGate.ite h.modBent

theorem Canonical.rechoose {gid from_ ks} (h : Canonical s) : Canonical (s.rechoose gid from_ ks) := by
  unfold State.rechoose
  refine h.foldl fun _ _ ht => ?_
  split
  · split
    · exact ht.sendPacket
    · exact ht
  · exact ht

theorem Canonical.retire {p} (h : Canonical s) : Canonical (s.retire p) := by
  unfold State.retire
  dsimp only
  split
  · exact h
  · split
    · exact h.wdRestart.modBent.leave.modGang.rechoose.endGang.ite h.wdRestart.modBent.leave.modGang.rechoose
    · exact h.wdRestart.modBent.leave.modGang.rechoose

theorem Canonical.fenceCore {p} (h : Canonical s) : Canonical (s.fenceCore p) := by
  unfold State.fenceCore
  dsimp only
  split
  · exact h.leave.modCore.endGang.ite h.leave.modCore
  · exact h.leave.modCore

theorem Canonical.popHead {q} (h : Canonical s) : Canonical (s.popHead q) := h.modLq

theorem Canonical.refuse {q v} (h : Canonical s) : Canonical (s.refuse q v) := by
  unfold State.refuse
  split
  · exact h.popHead.modLq
  · exact h.popHead.outcome
  · exact h

theorem Canonical.seat {gid cores groups} (h : Canonical s) : Canonical (s.seat gid cores groups) :=
  h.foldl fun _ _ ht => ht.modCore

theorem Canonical.placeGang {q a r cores} (h : Canonical s) : Canonical (s.placeGang q a r cores) := by
  unfold State.placeGang
  extract_lets gid g0 g idle s1 s2 s3 s4
  have hs2 : Canonical s2 := h.popHead.modLaunch.modLq.ite h.popHead.modLaunch
  have hs4 : Canonical s4 := hs2.seat.foldl fun _ _ ht => ht.initDesc
  exact hs4.foldl fun _ _ ht => ht.startGroup

theorem Canonical.watchHeads {heads} (h : Canonical s) : Canonical (s.watchHeads heads) := by
  unfold State.watchHeads
  dsimp only
  refine h.foldl fun _ _ ht => ?_
  split
  · exact ht.modLq
  · exact ht.modLq

theorem Canonical.execGangPlacement (h : Canonical s) : CanonicalOut (execGangPlacement s) := by
  unfold Machine.execGangPlacement
  dsimp only
  refine .next ?_
  split
  · exact h
  · split
    · exact h.refuse
    · split
      · exact h.watchHeads
      · split
        · exact h.watchHeads.placeGang
        · exact h.watchHeads

theorem Canonical.reach {q i} (h : Canonical s) : Canonical (s.reach q i) := h.modLq

theorem Canonical.execWatchdogPreempt {q} (h : Canonical s) : CanonicalOut (execWatchdogPreempt q s) :=
  .next (h.reach.modPm.ite h)

theorem Canonical.execWatchdogKill {q} (h : Canonical s) : CanonicalOut (execWatchdogKill q s) :=
  .next ((h.reach.foldl fun _ _ ht => ht.killGang).ite h)

theorem Canonical.execWatchdogFence {q} (h : Canonical s) : CanonicalOut (execWatchdogFence q s) :=
  .next ((h.reach.foldl fun _ _ ht => ht.foldl fun _ _ hs => hs.fenceCore).ite h)

/-! ### Fences and waits -/

theorem Canonical.placeFence {p k kind} (h : Canonical s) : Canonical (s.placeFence p k kind) := h.modCore.settleCtx

theorem Canonical.placeRel {p k sc m} (h : Canonical s) : Canonical (s.placeRel p k sc m) := h.modCore.placeFence

theorem Canonical.placeAcq {p k sc m} (h : Canonical s) : Canonical (s.placeAcq p k sc m) := h.placeFence

theorem Canonical.endWait {d v} (h : Canonical s) : Canonical (s.endWait d v) := h.modCore.later

theorem Canonical.unwake {p k} (h : Canonical s) : Canonical (s.unwake p k) := h.frame

theorem Canonical.sleepOn {r l v} (h : Canonical s) : Canonical (s.sleepOn r l v) :=
  h.unwake.modCtx.blockNow.ite (h.unwake.modCore.modCtx.blockNow.ite
    (h.unwake.modCtx.blockNow.ite h.unwake.modCore.event.modCtx.blockNow))

theorem Canonical.waitOp_check {holds r v} (h : Canonical s) (ht : Canonical t) :
    Canonical (waitOp.check holds r s v t) := by
  unfold Machine.waitOp.check
  dsimp only
  split
  · exact h.modCore.trapAt
  · exact h.blockNow.ite (ht.note.used.endWait.ite h.note.used.sleepOn)

theorem Canonical.waitOp {holds r} (h : Canonical s) : CanonicalOut (waitOp holds r s) := by
  refine .next (h.scalar fun _ _ ht => ?_)
  split
  · exact ht.endWait.ite (h.blockNow.ite (h.waitOp_check ht))
  · exact h.waitOp_check ht

theorem Canonical.endWaitOf {k w v} (h : Canonical s) : Canonical (s.endWaitOf k w v) := by
  unfold State.endWaitOf
  dsimp only
  split
  · exact (h.modSched.modCore fun _ => popAll_scratch).endWait.modSched
  · exact h.modCtx

theorem Canonical.endWaits {l v} (h : Canonical s) : Canonical (s.endWaits l v) := by
  unfold State.endWaits
  refine h.foldl fun _ _ ht => ?_
  split
  · exact ht.endWaitOf.ite ht
  · exact ht

theorem Canonical.execMonclr {r} (h : Canonical s) : CanonicalOut (execMonclr r s) := by
  unfold Machine.execMonclr
  dsimp only
  refine .next (h.scalar fun _ _ ht => ?_)
  split
  · exact h.trapAt
  · exact h.blockNow.ite ht.note.used.endWaits.modCore.advance

theorem Canonical.execWaitWake {p k} (h : Canonical s) : CanonicalOut (execWaitWake p k s) := by
  unfold Machine.execWaitWake
  dsimp only
  refine .next ?_
  split
  · exact h.setCtx.unwake.ite h
  · exact h

theorem Canonical.execMonitorPoll {p k} (h : Canonical s) : CanonicalOut (execMonitorPoll p k s) := by
  unfold Machine.execMonitorPoll
  dsimp only
  refine .next ?_
  split
  · exact h.setCtx.count.ite h
  · exact h

/-! ### System instructions -/

theorem Canonical.privileged {body : State → State} (h : Canonical s) (hbody : ∀ t, Canonical t → Canonical (body t)) :
    Canonical (privileged s body) :=
  h.trapNow.ite (hbody _ h)

theorem Canonical.execBrk {x n} (h : Canonical s) : CanonicalOut (execBrk x n s) := by
  unfold Machine.execBrk
  refine .next ?_
  split
  · exact h.trapNow
  · split
    · exact h.modCtx
    · exact h.trapNow

/-! ### EPUSH, chain control, XCMD and MCFG -/

theorem Canonical.pushCmd {r x} {body : List W32 → State → State} (h : Canonical s)
    (hbody : ∀ x t, Canonical t → Canonical (body x t)) : Canonical (pushCmd r x s body) := by
  unfold Machine.pushCmd
  dsimp only
  refine h.scalar fun _ _ hu => h.scalar fun _ _ ht => ?_
  split
  · exact h.trapAfter
  · exact h.trapAfter.ite (hbody _ _ ht)

theorem Canonical.enqueue {p e ws} (h : Canonical s) : Canonical (s.enqueue p e ws) := h.modEng

theorem Canonical.queuePlan {op desc resa ls} (h : Canonical s) : Canonical ((queuePlan u op desc resa).go ls s).1 := by
  cases ls with
  | nil => exact h
  | cons l ls =>
    show Canonical ((s.qDo u.p op (descOf desc) l).1.storeResult u.p (s.qDo u.p op (descOf desc) l).2 (l :: ls))
    exact h.qDo.storeResult

/-- What the action of an XCMD's plan does (R225). -/
theorem Canonical.xplan {i x ls} (e : xplan u i = some x) (h : Canonical s) : Canonical (x.go ls s).1 := by
  cases i <;> cases e
  case csig => cases ls with
    | nil => exact h
    | cons l ls => exact h.addAt
  case cwait => exact h.foldl fun _ _ hu => hu.used
  case cseq => cases ls with
    | nil => exact h
    | cons l ls => exact h.writeHome
  all_goals exact h.queuePlan

theorem Canonical.execXcmd {r} (h : Canonical s) : CanonicalOut (execXcmd r s) := by
  unfold Machine.execXcmd
  dsimp only
  refine .next (h.pushCmd fun _ _ ht => ?_)
  split
  · exact h.trapAfter
  · next plan =>
    obtain ⟨i, -, planned⟩ := Option.bind_eq_some_iff.1 plan
    split
    · exact h.trapAt
    · exact h.trapAt
    · exact h.blockNow
    · split
      · exact h.trapAfter
      · refine h.blockNow.ite (h.trapAfter.ite ((h.modCore.ite h).blockNow.ite (h.blockNow.ite
          (.advance (.ite (.clearL1 ?_) ?_)))))
        all_goals exact .ite (ht.modCore.xplan planned).noteAll.modCtx.modCore (ht.modCore.xplan planned).noteAll.modCtx

/-! ### The task gate, spawning and stage switches -/

theorem Canonical.claimAll {p g is r} (h : Canonical s) (e : s.claimAll p g is = some r) : Canonical r.1 := by
  induction is generalizing s r with
  | nil => cases e; exact h
  | cons i is ih =>
    unfold State.claimAll at e
    split at e
    · cases e
    · split at e
      · next claimed =>
        obtain ⟨x, rest, rfl⟩ := Option.map_eq_some_iff.1 e
        exact ih (r := x) (h.claimQ.of_eq claimed) rest
      · cases e

theorem Canonical.reserveAll {p g is r} (h : Canonical s) (e : s.reserveAll p g is = some r) : Canonical r.1 := by
  induction is generalizing s r with
  | nil => cases e; exact h
  | cons i is ih =>
    unfold State.reserveAll at e
    split at e
    · cases e
    · split at e
      · next reserved =>
        obtain ⟨x, rest, rfl⟩ := Option.map_eq_some_iff.1 e
        exact ih (r := x) (h.reserveQ.of_eq reserved) rest
      · cases e

theorem Canonical.modGroup {gid k f} (h : Canonical s) : Canonical (s.modGroup gid k f) := h.modGang

theorem Canonical.takeTask {p g k r} (h : Canonical s) (e : s.takeTask p g k = some r) : Canonical r.1 := by
  unfold State.takeTask at e
  split at e
  · cases e
  · split at e
    · cases e; exact h.modGroup
    · split at e
      · cases e
      · split at e
        · cases e
        · next claimed =>
          split at e
          · cases e
          · next reserved => cases e; exact ((h.claimAll claimed).reserveAll reserved).modGroup

theorem Canonical.openStamp {p t resumed} (h : Canonical s) : Canonical (s.openStamp p t resumed) := h.modGate.ite h

theorem Canonical.closeStamp {p cut} (h : Canonical s) : Canonical (s.closeStamp p cut) := by
  unfold State.closeStamp
  dsimp only
  split
  · exact h
  · exact h.modGate.emit.ite h.modGate

theorem Canonical.deliver {p t w} (h : Canonical s) : Canonical (s.deliver p t w) := h.modGate.openStamp

theorem Canonical.nextTask {p r} (h : Canonical s) (e : s.nextTask p = some r) : Canonical r.1 := by
  unfold State.nextTask at e
  split at e
  · split at e
    · cases e; exact h.modGate.deliver
    · split at e
      · next taken => cases e; exact (h.takeTask taken).deliver
      · split at e
        · cases e; exact h.modGate
        · cases e
  · cases e

theorem Canonical.execTnext {sb d} (h : Canonical s) : CanonicalOut (execTnext sb d s) := by
  refine .next (h.scalar fun _ _ ht => ?_)
  split
  · exact h.modGate.blockNow
  · split
    · exact h.blockNow
    · next e => exact (ht.nextTask e).placeAcq.later

theorem Canonical.awaitRelease (h : Canonical s) : Canonical s.awaitRelease := h.modCore.blockNow

theorem Canonical.giveBack {p c} (h : Canonical s) : Canonical (s.giveBack p c) := by
  unfold State.giveBack
  split
  · exact h.releaseQ.ite h
  · exact h

theorem Canonical.handOn {p c} (h : Canonical s) : Canonical (s.handOn p c) := by
  unfold State.handOn
  split
  · exact h.commitQ.ite h
  · exact h

theorem Canonical.endTask {p t} (h : Canonical s) : Canonical (s.endTask p t) := by
  unfold State.endTask
  dsimp only
  refine .modGate (.closeStamp (.wdRestart ?_))
  split
  · exact (h.foldl fun _ _ hu => hu.giveBack).foldl fun _ _ hu => hu.handOn
  · exact h

theorem Canonical.execTdone {x} (h : Canonical s) : CanonicalOut (execTdone x s) := by
  unfold Machine.execTdone
  dsimp only
  refine .next (h.scalar fun _ _ ht => ?_)
  split
  · exact ht.advance.ite (h.awaitRelease.ite (h.blockNow.ite ht.count.retire))
  · exact h.awaitRelease.ite (h.blockNow.ite ht.endTask.advance)

theorem Canonical.yieldTask {p t} (h : Canonical s) : Canonical (s.yieldTask p t) := by
  unfold State.yieldTask
  dsimp only
  split
  · exact h.closeStamp.modGate.modGroup
  · exact h.closeStamp.modGate.modGate.ite h.closeStamp.modGate.modBent
  · exact h.closeStamp.modGate

theorem Canonical.execTyield {x} (h : Canonical s) : CanonicalOut (execTyield x s) := by
  unfold Machine.execTyield
  refine .next (h.scalar fun _ _ ht => ?_)
  split
  · exact ht.advance
  · exact h.awaitRelease.ite ht.yieldTask.advance

theorem Canonical.execSpawn {r} (h : Canonical s) : CanonicalOut (execSpawn r s) := by
  unfold Machine.execSpawn
  dsimp only
  refine .next (h.scalar fun _ _ ht => ?_)
  split
  · exact h.trapAt
  · split
    · exact h.blockNow
    · split
      · exact h.trapAt
      · exact h.blockNow
      · exact h.awaitRelease.ite (h.blockNow.ite ht.note.sendPacket.advance)

theorem Canonical.execSpawnDelivery {b n} (h : Canonical s) : CanonicalOut (execSpawnDelivery b n s) := by
  unfold Machine.execSpawnDelivery
  dsimp only
  refine .next ?_
  split
  · exact h
  · split
    · exact h
    · split
      · exact h.modBent.modGate.ite h
      · split
        · exact h
        · exact h.ite h.modBent.sendPacket

theorem Canonical.decideMove {g count} (h : Canonical s) : Canonical (s.decideMove g count) := by
  unfold State.decideMove
  dsimp only
  split
  · exact h
  · split
    · exact h
    · exact h.event.modGang.modCore

theorem Canonical.execBalancerInterval {n} (h : Canonical s) : CanonicalOut (execBalancerInterval n s) := by
  unfold Machine.execBalancerInterval
  dsimp only
  refine .next ?_
  split
  · exact h
  · exact h.ite (h.modGang.ite h.modGang.decideMove)

theorem Canonical.execStageSwitch {p} (h : Canonical s) : CanonicalOut (execStageSwitch p s) := by
  unfold Machine.execStageSwitch
  dsimp only
  refine .next ?_
  split
  · exact h.drain.startGroup.ite h
  · exact h

/-! ### Storage errors, replay and abort -/

theorem Canonical.eccFreeze {p} (h : Canonical s) : Canonical (s.eccFreeze p) := h.modCore fun _ => freezeAt_scratch

theorem Canonical.execCorrectableError {b core} (h : Canonical s) : CanonicalOut (execCorrectableError b core s) := by
  unfold Machine.execCorrectableError
  dsimp only
  refine .next ?_
  split
  · exact h.modBent.eccFreeze
  · exact h.modBent

theorem Canonical.execEccFreezeEnd {p} (h : Canonical s) : CanonicalOut (execEccFreezeEnd p s) := by
  unfold Machine.execEccFreezeEnd
  refine .next ?_
  split
  · refine .ite (h.modCore fun c => ?_) h
    exact settleFreeze_scratch
  · exact h

theorem Canonical.dropCopy {e} (h : Canonical s) : Canonical (s.dropCopy e) := by
  unfold State.dropCopy
  dsimp only
  split
  · exact h.modCore.eccFreeze
  · exact h.modCore.eccFreeze
  · exact h.modCore.eccFreeze
  · exact h.modBent
  · exact h.modBent
  · exact h.frame

theorem Canonical.stopRows {a} (h : Canonical s) : Canonical (s.stopRows a) := h.mapBents

theorem Canonical.errorRecord {e} (h : Canonical s) : Canonical (s.errorRecord e) := h.report.ite h.modFlt

theorem Canonical.markLine {a} (h : Canonical s) : Canonical (s.markLine a) := h.frame

theorem Canonical.raiseError {e} (h : Canonical s) : Canonical (s.raiseError e) := by
  unfold State.raiseError
  dsimp only
  split
  · exact (h.modBent.stopRows.ite (h.modBent.markLine.ite h.modBent)).errorRecord.killGang
  · exact (h.modBent.stopRows.ite (h.modBent.markLine.ite h.modBent)).errorRecord

theorem Canonical.settleMet (h : Canonical s) (ht : Canonical t) : Canonical (s.settleMet t) := by
  unfold State.settleMet
  dsimp only
  split
  · exact ht
  · exact (h.ite ht).frame.foldl fun _ _ hv => hv.raiseError

theorem Canonical.furStop {f} (h : Canonical s) : Canonical (s.furStop f) := by
  unfold State.furStop
  dsimp only
  split
  · exact h
  · split
    · exact h.endFlight.killGang
    · exact h.endFlight

theorem Canonical.rowTurn {k n} (h : Canonical s) : Canonical (s.rowTurn k n) := by
  unfold State.rowTurn
  split
  · exact h
  · split
    · exact h
    · split
      · exact h.modCtl.furStop
      · split
        · split
          · exact h.raiseError
          · exact h.furRow.modCtl
        · exact h.ite h.furRecord.modCtl.furFinish

theorem Canonical.resumeFlight {p f} (h : Canonical s) : Canonical (s.resumeFlight p f) := by
  unfold State.resumeFlight
  extract_lets copy fur queue
  have copied {t} : Canonical (copy t) := by
    unfold copy
    split
    · exact h.runJob
    · exact h
  rcases decodeCmd f.words with _ | i
  · exact h.modFlight
  · cases i with
    | cpy | cpyn | gath | scat | fill => exact copied
    | rcpy => exact h.runRcpy
    | prefCmd => exact h.runPref
    | cpyp => exact h.modFlight.runCpyp
    | cnop | clink | cloop | cend | cwait => exact h.finish
    | csig => exact h.csigGo
    | psub => exact h.psubGo
    | puns => exact h.punsGo
    | qinit | qacq | qrel | qres | qcom | qstat => exact h.queueGo
    | vrun => exact h.loadTable
    | fcopy | ffill | fand | forRow | fxor | fnot | fmaj => exact h.furGo
    | fqry => exact h.fqryGo
    | _ => exact h.modFlight

theorem Canonical.resumeWaiting {p f} (h : Canonical s) : Canonical (s.resumeWaiting p f) := h.modFlight.resumeFlight

theorem Canonical.replayFlight {p f} (h : Canonical s) : Canonical (s.replayFlight p f) :=
  h.modFlight.ite h.modFlight.resumeFlight

theorem Canonical.clearHead {p e} (h : Canonical s) : Canonical (s.clearHead p e) := h.modEng

theorem Canonical.modVeSd {p n f} (h : Canonical s) : Canonical (s.modVeSd p n f) := h.modVe

theorem Canonical.retry {x} (h : Canonical s) : Canonical (s.retry x) := by
  unfold State.retry
  split
  · exact h.modCtx
  · exact h.clearHead
  · exact h.modChain
  · split
    · exact h.replayFlight
    · exact h
  · exact h.modVeSd
  · exact h.modGang
  · exact h
  · exact h.modLaunch

theorem Canonical.noteEngflt {p code e} (h : Canonical s) : Canonical (s.noteEngflt p code e) := h.modCore

theorem Canonical.abortFlight {p ord} (h : Canonical s) : Canonical (s.abortFlight p ord) := by
  unfold State.abortFlight
  dsimp only
  split
  · split
    · refine .endRun (.modFlight ?_)
      split
      · exact h.modMe.ite h
      · exact h
    · refine .endFlight ?_
      split
      · exact h.modMe.ite h
      · exact h
  · refine .endFlight ?_
    split
    · exact h.modMe.ite h
    · exact h

theorem Canonical.abandon {x code} (h : Canonical s) : Canonical (s.abandon x code) := by
  unfold State.abandon
  split
  · exact h.modCtx
  · exact h.dropHead.noteEngflt
  · exact h.modChain.noteEngflt
  · split
    · exact h.abortFlight.noteEngflt
    · exact h
  · exact h.modVeSd.modVe.noteEngflt.endRun
  · exact h.killGang
  · exact h
  · exact h.modLaunch.modPm

theorem Canonical.abort {t x} (h : Canonical s) : Canonical (s.abort t x) := h.dropTicket.postFault.abandon.ite h.modFlt

theorem Canonical.reply {t abort} (h : Canonical s) : Canonical (s.reply t abort) := by
  unfold State.reply
  split
  · exact h
  · split
    · exact h
    · exact h.modLaunch
    · exact h.abort.ite (h.ite h.dropTicket.retry)

theorem Canonical.returnOne {b hd} (h : Canonical s) : Canonical (State.returnOne b s hd) := h.postFault.ite h.modBent

theorem Canonical.returnHeld {b} (h : Canonical s) : Canonical (s.returnHeld b) :=
  h.modBent.foldl fun _ _ hs => hs.returnOne

theorem Canonical.postError {b} (h : Canonical s) : Canonical (s.postError b) := by
  unfold State.postError
  split
  · exact h.modFlt.postFault.ite h
  · exact h

theorem Canonical.execFaultRecordRelease {b} (h : Canonical s) : CanonicalOut (execFaultRecordRelease b s) := by
  unfold Machine.execFaultRecordRelease
  refine .next ?_
  split
  · exact h.modFlt.reply
  · split
    · exact h.postError
    · split
      · exact h.returnHeld.ite h
      · split
        · split
          · next e => exact (h.storeFault.of_eq e).modBent
          · next e => exact h.storeFault.of_eq e
        · exact h

/-! ### Pre-emption, restore and kill -/

theorem Canonical.stopCore {p} (h : Canonical s) : Canonical (s.stopCore p) := h.drain.closeStamp.unfuse.modCore

theorem Canonical.beginSave {g} (h : Canonical s) : Canonical (s.beginSave g) :=
  (h.foldl fun _ _ hs => hs.stopCore).modGang.modPm

theorem Canonical.execPreEmpt (h : Canonical s) : CanonicalOut (execPreEmpt s) := by
  unfold Machine.execPreEmpt
  dsimp only
  refine .next ?_
  split
  · exact h
  · split
    · split
      · exact h.modPm.modPm
      · exact h.modPm.modPm.ite h.modPm.beginSave
    · split
      · split
        · exact h
        · split
          · exact h.modPm.ite h.modPm.beginSave
          · exact h.modPm
      · exact h

theorem Canonical.writePages {as bs} (h : Canonical s) : Canonical (s.writePages as bs) := by
  induction as generalizing s bs with
  | nil => exact h
  | cons a as ih => exact ih h.writeSup

theorem Canonical.shelve {g base cores} (h : Canonical s) : Canonical (s.shelve g base cores) :=
  (h.foldl fun _ _ ht => ht.modCore).modLaunch.modPm

theorem Canonical.execSaveComplete (h : Canonical s) : CanonicalOut (execSaveComplete s) := by
  unfold Machine.execSaveComplete
  dsimp only
  refine .next ?_
  split
  · split
    · exact h.modPm
    · split
      · exact h
      · split
        · exact h.reportPage.modGang
        · exact h.killGang
        · exact (h.foldl fun _ _ ht => ht.writePages).shelve
  · exact h

theorem Canonical.execRestore (h : Canonical s) : CanonicalOut (execRestore s) := by
  unfold Machine.execRestore
  dsimp only
  refine .next ?_
  split
  · exact h
  · split
    · exact h.modPm.modPm
    · exact h.modPm.modPm

theorem Canonical.seatStream {gid x} (h : Canonical s) : Canonical (State.seatStream gid s x) := h.modStream

theorem Canonical.moveStreams {gid e newOf} (h : Canonical s) : Canonical (s.moveStreams gid e newOf) :=
  (h.dropStreams.foldl fun _ _ hs => hs.seatStream).foldl fun _ _ ht => ht.foldl fun _ _ hu => hu.modStream.ite hu

theorem Canonical.deliverHeld {g} (h : Canonical s) : Canonical (s.deliverHeld g) := by
  unfold State.deliverHeld
  dsimp only
  refine h.mapBents.foldl fun _ _ ht => ?_
  split
  · exact ht.sendPacket
  · exact ht.modBent

theorem Canonical.retryAll {p} (h : Canonical s) : Canonical (s.retryAll p) := h.foldl fun _ _ ht => ht.reply

/-- A restored gang's pages are read, not written: each core takes a scratchpad written afresh (R322). -/
theorem Canonical.reinstate {e pages cores} (h : Canonical s) : Canonical (s.reinstate e pages cores) := by
  unfold State.reinstate
  extract_lets newOf live src g0 g s1 s2 s3 s4 s5
  have hs1 : Canonical s1 := h.modLaunch.mapBents
  have hs2 : Canonical s2 := by
    refine hs1.foldl fun _ _ ht => ?_
    exact ht.unfuse.setCore (takeUp_reinstate_wf ..)
  have hs3 : Canonical s3 := hs2.moveStreams.modLq
  have hs4 : Canonical s4 := hs3.foldl fun t p ht => by
    split
    · exact ht.openStamp
    · exact ht
  have hs5 : Canonical s5 := hs4.foldl fun _ _ ht => ht.reply
  exact (hs5.foldl fun _ _ ht => ht.retryAll).deliverHeld.modPm

theorem Canonical.restoreFault {e p va x} (h : Canonical s) : Canonical (s.restoreFault e p va x) := by
  unfold State.restoreFault
  dsimp only
  split
  · exact h.reportPage.modLaunch
  · exact h.modPm

theorem Canonical.execRestorePlacement (h : Canonical s) : CanonicalOut (execRestorePlacement s) := by
  unfold Machine.execRestorePlacement
  dsimp only
  refine .next ?_
  split
  · split
    · exact h.modPm
    · split
      · exact h
      · split
        · exact h.restoreFault
        · split
          · exact h.modPm
          · split
            · exact h
            · split
              · exact h.restoreFault
              · exact h.reinstate
  · exact h

theorem Canonical.execKill (h : Canonical s) : CanonicalOut (execKill s) := by
  unfold Machine.execKill
  dsimp only
  refine .next ?_
  split
  · exact h
  · split
    · exact h.modPm.modPm
    · exact h.modPm.killGang.modPm

/-! ### Translation, L1 fusion, format and compute regions -/

theorem Canonical.trCut {v} (h : Canonical s) : Canonical (s.trCut v) := h.mapCores.mapBents

theorem Canonical.trinvWrite {v} (h : Canonical s) : Canonical (s.trinvWrite v) := (h.trCut.ite h).frame

theorem Canonical.execTrinvComplete (h : Canonical s) : CanonicalOut (execTrinvComplete s) := by
  unfold Machine.execTrinvComplete
  dsimp only
  refine .next ?_
  split
  · exact h
  · split
    · exact h
    · split
      · exact h.frame.trCut
      · exact h.frame

theorem Canonical.trrootWrite {v mask} (h : Canonical s) : Canonical (s.trrootWrite v mask) := h.frame.trinvWrite

theorem Canonical.execL1Fusion {bay} (h : Canonical s) : CanonicalOut (execL1Fusion bay s) :=
  .next ((h.ite h.separate).ite ((h.foldl fun _ _ ht => ht.modCore).modBay.ite h))

theorem Canonical.fuseWrite {p v} (h : Canonical s) : Canonical (s.fuseWrite p v) := h.modCore.ite h.modCore.unfuse

theorem Canonical.dropView {r} (h : Canonical s) : Canonical (s.dropView r) := h.dropLlc

theorem Canonical.frWrite {b k n reg v mask} (h : Canonical s) : Canonical (s.frWrite b k n reg v mask) :=
  h.dropView.dropView.modBent

theorem Canonical.vtctlWrite {p v} (h : Canonical s) : Canonical (s.vtctlWrite p v) := h.modVe.ite h

theorem Canonical.fwccWrite {b k v mask} (h : Canonical s) : Canonical (s.fwccWrite b k v mask) := h.modBent

theorem Canonical.execRegionChange {b k} (h : Canonical s) : CanonicalOut (execRegionChange b k s) := by
  unfold Machine.execRegionChange
  dsimp only
  refine .next ?_
  split
  · exact h
  · exact h.frame.modBent.payOwed.ite h

/-! ### Trace sessions, launch-queue reset, the debug registers -/

theorem Canonical.icinvWrite {v} (h : Canonical s) : Canonical (s.icinvWrite v) := h.modTrace

theorem Canonical.icCut {v} (h : Canonical s) : Canonical (s.icCut v) :=
  (h.mapBents.mapCores.foldl fun _ _ ht => ht.modVe).ite h.mapBents.mapCores

theorem Canonical.execIcbusyClear (h : Canonical s) : CanonicalOut (execIcbusyClear s) := by
  unfold Machine.execIcbusyClear
  refine .next ?_
  split
  · exact h
  · exact h.icCut.modTrace

theorem Canonical.flushAllTrace (h : Canonical s) : Canonical s.flushAllTrace := h.foldl fun _ _ hs => hs.flushTrace

theorem Canonical.recordOf {cycle type sub lq body} (h : Canonical s) : Canonical (s.recordOf cycle type sub lq body) :=
  h.writeTrace.ite h

theorem Canonical.deviceRecord {type sub lq body} (h : Canonical s) : Canonical (s.deviceRecord type sub lq body) :=
  h.recordOf

theorem Canonical.trctlWrite {v} (h : Canonical s) : Canonical (s.trctlWrite v) :=
  h.modTrace.deviceRecord.ite (h.flushAllTrace.deviceRecord.modTrace.ite h.modTrace)

theorem Canonical.refuseRecords {q n} (h : Canonical s) : Canonical (s.refuseRecords q n) := by
  induction n generalizing s with
  | zero => exact h
  | succ n ih =>
    unfold State.refuseRecords
    refine h.ite (ih (Canonical.popHead ?_))
    split
    · exact h.outcome
    · exact h

theorem Canonical.endReset {q stamps} (h : Canonical s) : Canonical (s.endReset q stamps) := by
  unfold State.endReset
  dsimp only
  refine .modTrace (.modLq ?_)
  split
  · exact h
  · exact h.recordOf.modTrace

theorem Canonical.finishReset (h : Canonical s) : Canonical s.finishReset := by
  unfold State.finishReset
  dsimp only
  split
  · exact h.flushAllTrace.ite h.flushAllTrace.endReset
  · exact h

theorem Canonical.lqReset {q} (h : Canonical s) : Canonical (s.lqReset q) := by
  unfold State.lqReset
  extract_lets s1 n s2 s3 s4
  have hs1 : Canonical s1 := h.refuseRecords.modLq
  have hs2 : Canonical s2 := hs1.foldl fun _ _ ht => ht.killGang
  have hs3 : Canonical s3 := hs2.foldl fun _ _ ht => ht.killPre
  have hs4 : Canonical s4 := hs3.flushAllTrace
  exact (hs4.modTrace.ite hs4.endReset).ite hs3.endReset

theorem Canonical.lqrstWrite {v} (h : Canonical s) : Canonical (s.lqrstWrite v) := h.ite h.lqReset

theorem Canonical.execTraceFlush {b} (h : Canonical s) : CanonicalOut (execTraceFlush b s) :=
  .next (h.flushTrace.finishReset.ite h.finishReset)

theorem Canonical.execPmctrWrap {p n} (h : Canonical s) : CanonicalOut (execPmctrWrap p n s) := .next (h.modDbg.ite h)

theorem Canonical.dbgctlWrite {p v mask} (h : Canonical s) : Canonical (s.dbgctlWrite p v mask) :=
  h.modDbg.modDbg.modVe.ite h.modDbg

/-! ### Operating points and emergencies -/

theorem Canonical.execOperatingPointChange (h : Canonical s) : CanonicalOut (execOperatingPointChange s) := by
  refine .next (.ite (h.modClock.mapCores fun c => ?_) h)
  exact freezeAt_scratch

theorem Canonical.execOperatingPointChangeEnd (h : Canonical s) : CanonicalOut (execOperatingPointChangeEnd s) := by
  unfold Machine.execOperatingPointChangeEnd
  refine .next ?_
  split
  · exact (h.modClock.mapCores fun _ => thawAt_scratch).ite h
  · exact h

theorem Canonical.opptWrite {v mask} (h : Canonical s) : Canonical (s.opptWrite v mask) := h.modClock

theorem Canonical.clockEvent {code old new why} (h : Canonical s) : Canonical (s.clockEvent code old new why) := h.event

theorem Canonical.breakLock (h : Canonical s) : Canonical s.breakLock := h.modClock.clockEvent.ite h

theorem Canonical.clklockWrite {v mask} (h : Canonical s) : Canonical (s.clklockWrite v mask) :=
  (h.modClock.clockEvent.ite (h.modClock.clockEvent.ite h.modClock)).breakLock

theorem Canonical.warn (h : Canonical s) : Canonical s.warn := h.ite h.modClock

theorem Canonical.levels (h : Canonical s) : Canonical s.levels :=
  h.modClock.ite (((h.modClock.breakLock.ite h).warn.ite ((h.modClock.breakLock.ite h).modClock)).modClock)

theorem Canonical.execCapStep (h : Canonical s) : CanonicalOut (execCapStep s) := by
  unfold Machine.execCapStep
  refine .next ?_
  split
  · exact h.modClock.ite h
  · exact h

theorem Canonical.execCapRelax (h : Canonical s) : CanonicalOut (execCapRelax s) := by
  unfold Machine.execCapRelax
  refine .next ?_
  split
  · exact h.modClock.ite h
  · exact h

theorem Canonical.execCurrentLimit {b} (h : Canonical s) : CanonicalOut (execCurrentLimit b s) := .next (h.warn.ite h)

theorem Canonical.execEmergencyEnd (h : Canonical s) : CanonicalOut (execEmergencyEnd s) := by
  unfold Machine.execEmergencyEnd
  refine .next ?_
  split
  · exact h.modClock.ite h
  · exact h

/-! ### Bring-up and core reset -/

theorem Canonical.setRdy {i} (h : Canonical s) : Canonical (s.setRdy i) := h.modReady

theorem Canonical.setCoreBit {p b} (h : Canonical s) : Canonical (s.setCoreBit p b) := h.modReady

theorem Canonical.execColdReset : CanonicalOut (execColdReset s) := .next reset_canonical.frame

theorem Canonical.acceptSlot {b bent link} (h : Canonical s) : Canonical (s.acceptSlot b bent link) := h.modReady

theorem Canonical.execBentPowerUp {b} (h : Canonical s) : CanonicalOut (execBentPowerUp b s) := .next (h.modBent.ite h)

theorem Canonical.execStackTrainingEnd {b} (h : Canonical s) : CanonicalOut (execStackTrainingEnd b s) :=
  .next (h.setRdy.setRdy.ite h)

theorem Canonical.execMarchTestEnd {b r} (h : Canonical s) : CanonicalOut (execMarchTestEnd b r s) := by
  refine .next (h.ite (.ite (.returnHeld ?_) (.setRdy ?_)))
  all_goals exact h.setBent.modReady.foldl fun _ _ ht => ht.setCoreBit

/-- A replaced row takes free values, written as bytes (R388). -/
theorem Canonical.loseRow {p arr row} (h : Canonical s) : Canonical (s.loseRow p arr row) := by
  unfold State.loseRow
  extract_lets bytes here line t
  split
  · exact h.writeScratch
  · exact h.modCore
  · exact h.writePhys
  · have ht : Canonical t := h.writePhys.ite h
    exact ht.frame

theorem Canonical.repWrite {b e v mask} (h : Canonical s) : Canonical (s.repWrite b e v mask) := by
  unfold State.repWrite
  dsimp only
  split
  · exact h.modBent
  · split
    · exact h.modBent
    · split
      · exact h.modBent.modBent.loseRow
      · exact h.modBent.modBent

theorem Canonical.resetCore {p} (h : Canonical s) : Canonical (s.resetCore p) := by
  unfold State.resetCore
  dsimp only
  refine .modCore (.setCoreBit ?_)
  split
  · exact h.killGang
  · exact h

theorem Canonical.corectlWrite {b v} (h : Canonical s) : Canonical (s.corectlWrite b v) :=
  h.foldl fun _ _ ht => ht.resetCore

theorem Canonical.execCoreMarchTest {p r} (h : Canonical s) : CanonicalOut (execCoreMarchTest p r s) := by
  have tested : ∀ b x c, c.scratch = [] → Canonical ((s.setBent b x).setCore p c) :=
    fun b x c e => h.setBent.setCore (e ▸ rfl)
  exact .next (h.ite (((tested _ _ _ rfl).setCoreBit).ite (tested _ _ _ rfl)))

/-! ### Branches and jumps -/

theorem Canonical.jumpTo {next} (h : Canonical s) : Canonical (s.jumpTo next) := h.commit

theorem Canonical.branch {c r} (h : Canonical s) : CanonicalOut (branch c r s) :=
  .next (h.scalar fun _ _ ht => ht.jumpTo.ite ht.advance)

theorem Canonical.link {d next} (h : Canonical s) : Canonical (s.link d next) :=
  (h.modCore fun _ => push_scratch).jumpTo

/-! ### Cache and TLB maintenance -/

theorem Canonical.dropFetch {p bent line} (h : Canonical s) : Canonical (s.dropFetch p bent line) :=
  h.modBent.ite h.modCore

theorem Canonical.execIinv {r} (h : Canonical s) : CanonicalOut (execIinv r s) := by
  unfold Machine.execIinv
  refine .next (h.scalar fun _ _ ht => ?_)
  split
  · exact h.blockNow
  · split
    · exact ht.dropFetch.advance
    · split
      · exact h.blockNow
      · split
        · exact ht.dropFetch.advance
        · exact ht.advance

theorem Canonical.execTinv {r} (h : Canonical s) : CanonicalOut (execTinv r s) :=
  .next (h.privileged fun _ hs => hs.scalar fun _ _ ht => hs.trapAfter.ite ht.modCore.advance)

theorem Canonical.execL1inv {r} (h : Canonical s) : CanonicalOut (execL1inv r s) := by
  unfold Machine.execL1inv
  refine .next (h.scalar fun _ _ ht => ?_)
  split
  · exact ht.clearL1.advance
  · split
    · exact h.blockNow
    · split
      · exact (ht.dropL1.ite ht).advance
      · exact ht.advance

theorem Canonical.execPref {r} (h : Canonical s) : CanonicalOut (execPref r s) := by
  unfold Machine.execPref
  dsimp only
  refine .next (h.scalar fun _ _ ht => ?_)
  split
  · exact h.blockNow.ite ((ht.note.loadScalar.ite ht.note).advance)
  · exact h.blockNow
  · exact ht.noteFail.advance
  · exact ht.advance

/-! ### Control registers written -/

theorem Canonical.pmctlWrite {v} (h : Canonical s) : Canonical (s.pmctlWrite v) := h.modPm

theorem Canonical.poolWrite {size v mask} (h : Canonical s) : Canonical (s.poolWrite size v mask) := h.modLinks

theorem Canonical.csrPut {p k n v mask} (h : Canonical s) : Canonical (s.csrPut p k n v mask) := by
  unfold State.csrPut
  split
  · exact h.modCtx
  · split
    · exact h.modDbg
    · split
      · exact h.modDbg
      · split
        · exact h.modDbg
        · split
          · exact h.modRng
          · exact h.fuseWrite.ite h
          · exact h.modCore.ite h
          · exact h.vtctlWrite
          · exact h.modDbg
          · exact h.modDbg
          · exact h.modDbg
          · exact h.dbgctlWrite
          · exact h

theorem Canonical.lqPut {q f} (h : Canonical s) : Canonical (s.lqPut q f) := h.modLq

theorem Canonical.regPut {r v mask} (h : Canonical s) : Canonical (s.regPut r v mask) := by
  cases r with
  | lqBase | lqSize | lqPrio | lqTail | lqWd | lqStat => exact h.lqPut
  | trroot => exact h.trrootWrite
  | trinv => exact h.trinvWrite
  | fltBase | fltSize | fltHead => exact h.modFlt
  | fltReplay => exact h.reply
  | pmrec | pmsave => exact h.modPm
  | pmctl => exact h.pmctlWrite
  | oppt => exact h.opptWrite
  | trBase | trSize | trQmask | trSpBase | trSpCnt => exact h.modTrace
  | trHead => exact h.modTrace.finishReset
  | trCtl => exact h.trctlWrite.ite h
  | lqrst => exact h.lqrstWrite
  | icinv => exact h.icinvWrite
  | clklock => exact h.clklockWrite
  | bksh => exact h.frame
  | balival => exact h.modBent
  | sitemap => exact h.modBent.ite h
  | corectl => exact h.corectlWrite
  | rep => exact h.repWrite
  | fwcc => exact h.fwccWrite
  | fr => exact h.frWrite
  | csr => exact h.csrPut
  | dmwbase | devid | peermap => exact h.modLinks
  | hpbase | hpsize => exact h.poolWrite
  | _ => exact h

theorem Canonical.partWrite {o n v} (h : Canonical s) : Canonical (s.partWrite o n v) := h.regPut

theorem Canonical.ctlWrite {o n v} (h : Canonical s) : Canonical (s.ctlWrite o n v) :=
  h.partWrite.partWrite.ite h.partWrite

/-! ### Host links, Scarf links, peers and SPDM -/

theorem Canonical.complete {c} (h : Canonical s) : Canonical (s.complete c) := h.modLinks

theorem Canonical.setBar {log} (h : Canonical s) : Canonical (s.setBar log) := h.modLinks

theorem Canonical.hostMem {r} (h : Canonical s) : Canonical (s.hostMem r) :=
  h.complete.ite (h.writePhys.complete.ite h.touchView.meet.complete)

theorem Canonical.hostTail {r} (h : Canonical s) : Canonical (s.hostTail r) :=
  (h.ctlWrite.ite h).complete.ite h.complete

theorem Canonical.hostRegs {r} (h : Canonical s) : Canonical (s.hostRegs r) := h.ctlWrite.complete.ite h.complete

theorem Canonical.hostDo {r} (h : Canonical s) : Canonical (s.hostDo r) := by
  unfold State.hostDo
  split
  · exact h.hostRegs
  · exact h.hostMem
  · exact h.hostTail

theorem Canonical.serveHost (h : Canonical s) : Canonical s.serveHost := by
  unfold State.serveHost
  split
  · exact h.modLinks.hostDo
  · exact h

theorem Canonical.execCxlCacheRequest {addr wr} (h : Canonical s) : CanonicalOut (execCxlCacheRequest addr wr s) := by
  unfold Machine.execCxlCacheRequest
  dsimp only
  refine .next ?_
  split
  · exact h.modLinks
  · exact (h.writePhys.ite h).modLinks

theorem Canonical.answer {m} (h : Canonical s) : Canonical (s.answer m) := h.modLinks.ite h

theorem Canonical.modScarf {n f} (h : Canonical s) : Canonical (s.modScarf n f) := h.modLinks

theorem Canonical.resendAsked {n first run} (h : Canonical s) : Canonical (s.resendAsked n first run) :=
  h.modScarf.ite h

theorem Canonical.peerAnswer {r} (h : Canonical s) : Canonical (s.peerAnswer r) := h.modLinks

theorem Canonical.peerChunk {dev a key f rop vals} (h : Canonical s) :
    Canonical (s.peerChunk dev a key f rop vals) := by
  refine h.peerAnswer.ite (h.ite (Canonical.peerAnswer ?_))
  exact ⟨(h.applyElems (p := 0) (f := f)).mem, h.scratch⟩

theorem Canonical.peerDo {r} (h : Canonical s) : Canonical (s.peerDo r) := by
  unfold State.peerDo
  dsimp only
  split
  · exact h.frame
  · split
    · exact h.peerAnswer
    · split
      · exact h.meet.touchView.peerAnswer
      · exact h.writePhys.peerAnswer
      · exact h.meet.writePhys.peerAnswer
      · exact h.meet.writePhys.peerAnswer
      · split
        · exact h.peerAnswer
        · exact h.peerChunk
      · exact h

theorem Canonical.servePeers (h : Canonical s) : Canonical s.servePeers := by
  unfold State.servePeers
  split
  · exact h.modLinks.peerDo
  · exact h

theorem Canonical.serveHeld (h : Canonical s) : Canonical s.serveHeld := h.serveHost.servePeers

/-! ### The CSR instructions -/

theorem Canonical.csrGuard {num write} {body : State → State} (h : Canonical s)
    (hbody : ∀ t, Canonical t → Canonical (body t)) : Canonical (csrGuard num write s body) :=
  h.trapNow.ite (hbody _ h)

theorem Canonical.csrRead {d num} (h : Canonical s) : Canonical (csrRead d num s) := h.later

theorem Canonical.csrChange {f r} (h : Canonical s) : CanonicalOut (csrChange f r s) :=
  .next (h.csrGuard fun _ hs => hs.scalar fun _ _ ht => ht.csrPut.later)

/-! ### Values and acknowledgements that arrive -/

theorem Canonical.execQregFill {p k n} (h : Canonical s) : CanonicalOut (execQregFill p k n s) := by
  unfold Machine.execQregFill
  dsimp only
  refine .next ?_
  split
  · exact h
  · split
    · exact h
    · split
      · next e => exact (h.performItem e).settle
      · exact h

theorem Canonical.execHomeAcknowledgement {p k n} (h : Canonical s) :
    CanonicalOut (execHomeAcknowledgement p k n s) := by
  unfold Machine.execHomeAcknowledgement
  dsimp only
  refine .next ?_
  split
  · exact h
  · split
    · split
      · exact h
      · split
        · next e => exact (h.performItem e).settle
        · split
          · exact h.ite h.dropPend.ctlWrite.settle
          · exact h
    · exact h

/-! ### The dispatch -/

/-- Every instruction keeps the canonical form: a word by the operation it shares with others, a command by the frame of
commands, an event by its own case split. -/
theorem Canonical.exec {i} (h : Canonical s) : CanonicalOut (exec i s) := by
  unfold Machine.exec
  cases i with
  | add | sub | and | or | xor | andn | shl | shr | sra | rotr | min | max | minu | maxu | cmpeq | cmpne
  | cmplt | cmpltu | cmple | cmpleu | sext | zext => exact h.alu3
  | sel | lih | pcah | qcnt => exact .next (h.scalar fun _ _ ht => ht.result)
  | clz | ctz | popc | movq => exact h.alu2
  | mul | mulh | mulhu | div | divu | rem | remu => exact h.slow3
  | addi | andi | ori | xori | shli | shri | srai | rotri | cmpeqi | cmpnei | cmplti | cmpltui => exact h.aluI
  | qclr => exact h.execQclr
  | dup => exact h.execDup
  | drop => exact .next (h.scalar fun _ _ ht => ht.advance)
  | lds | ldz => exact h.loadOp
  | st | acas => exact .next (h.scalar fun _ _ ht => h.issueAccess ht)
  | aadd | aand | aor | axor | amin | amax | aminu | amaxu | aswap => exact h.atomic
  | radd | rand | ror | rxor | rmin | rmax | rminu | rmaxu | rfadd => exact h.reduction
  | fence => exact .next (h.scalar fun _ _ ht => ht.placeFence.advance)
  | acq => exact .next (h.scalar fun _ _ ht => ht.placeAcq.advance)
  | rel => exact .next (h.scalar fun _ _ ht => ht.placeRel.advance)
  | acqrel => exact .next (h.scalar fun _ _ ht => ht.placeRel.placeAcq.advance)
  | waitge | waitne => exact h.waitOp
  | monclr => exact h.execMonclr
  | beq | bne | blt | bge | bltu | bgeu => exact h.branch
  | j => exact .next (h.scalar fun _ _ ht => ht.jumpTo)
  | jal | jalr => exact .next (h.scalar fun _ _ ht => ht.link)
  | csrr => exact .next (h.csrGuard fun _ hs => hs.scalar fun _ _ ht => ht.csrRead)
  | csrw | csrs | csrc => exact h.csrChange
  | trap => exact .next h.trap
  | sysret => exact .next (h.privileged fun _ hs => hs.modCtx.count)
  | idle => exact .next (h.privileged fun _ hs => hs.advance.modCtx)
  | brk => exact h.execBrk
  | stepover => exact .next (h.privileged fun _ hs => hs.modCtx.advance)
  | trapWord => exact .next h.trapNow
  | spawn => exact h.execSpawn
  | epush => exact .next (h.pushCmd fun _ _ ht => h.blockNow.ite ht.enqueue.advance)
  | echain => exact .next (h.scalar fun _ _ ht => ht.modChain.advance.ite h.blockNow)
  | etail => exact .next (h.scalar fun _ _ ht => h.blockNow.ite ht.modChain.advance)
  | eseq => exact .next (h.scalar fun _ _ ht => ht.later)
  | xcmd => exact h.execXcmd
  | mcfg => exact .next (h.scalar fun _ _ ht => h.modCtx.blockNow.ite ht.modMe.advance)
  | tnext => exact h.execTnext
  | tdone => exact h.execTdone
  | tyield => exact h.execTyield
  | iinv => exact h.execIinv
  | tinv => exact h.execTinv
  | l1inv => exact h.execL1inv
  | pref => exact h.execPref
  | qregFill => exact h.execQregFill
  | waitWake => exact h.execWaitWake
  | monitorPoll => exact h.execMonitorPoll
  | combiningFlush => exact h.execCombiningFlush
  | cpy | gath | scat | fill => exact .next h.copyCmd
  | cpyn => exact h.execCpyn
  | rcpy => exact .next (h.command fun _ _ _ hs => hs.goOrWait fun _ hs => hs.runRcpy)
  | prefCmd => exact .next (h.command fun _ _ _ hs => hs.goOrWait fun _ hs => hs.runPref)
  | cpyp => exact h.execCpyp
  | psub => exact .next (h.command fun _ _ _ ht => ht.goOrWait fun _ hu => hu.psubGo)
  | puns => exact .next (h.command fun _ _ _ ht => ht.goOrWait fun _ hu => hu.punsGo)
  | chunkApply => exact h.execChunkApply
  | chunkResend => exact h.execChunkResend
  | qinit | qacq | qrel | qres | qcom | qstat => exact .next h.queueCmd
  | clampRefill => exact h.execClampRefill
  | csig => exact .next (h.command fun _ _ _ ht => ht.csigGo)
  | cwait => exact h.execCwait
  | cseq => exact h.execCseq
  | cnop => exact .next (h.command fun _ _ _ hs => hs.goOrWait fun _ ht => ht.finish)
  | clink | cloop | cend => exact .next h.chainCmd
  | launch => exact .next (h.command fun _ _ _ ht => ht.postRecord.finish)
  | tokenPush => exact h.execTokenPush
  | counterAdd => exact h.execCounterAdd
  | chainBlockFetch => exact h.execChainBlockFetch
  | sequenceAdvance => exact h.execSequenceAdvance
  | podRowDelivery => exact h.execPodRowDelivery
  | mfmt | mnest | mzero | mhad => exact .next (h.command fun _ _ _ ht => ht.modMe.finish)
  | mgo | mbld => exact .next (h.command fun _ _ _ ht => ht.modMe)
  | mdrn => exact .next (h.command fun _ _ _ ht => ht.modRng.modMe)
  | meStep => exact h.execMeStep
  | bBlockLoad => exact h.execBBlockLoad
  | vrun => exact .next (h.command fun _ _ _ ht => ht.startRun)
  | vstop => exact .next (h.command fun _ _ _ ht => ht.modVe.ite ht.finish)
  | vbase | vsdesc => exact .next (h.command fun _ _ _ ht => ht.modVe.finish)
  | bundleIssue => exact h.execBundleIssue
  | cutDrain => exact h.execCutDrain
  | walkRequest => exact h.execWalkRequest
  | vectorLanding => exact h.execVectorLanding
  | windowClose => exact h.execWindowClose
  | writeWalkWrite => exact h.execWriteWalkWrite
  | inj | drn => exact .next (h.modVe.ite h.freeze)
  | srd => exact h.execSrd
  | swr => exact h.execSwr
  | time => exact .next h.timeAct
  | jmpt | loopt => exact .next h.modVe
  | halt => exact .next h.endRun
  | vadd | vsub | vmul | vfma | vmin | vmax | vabs | vneg | vand | vor | vxor | vnot | vshl | vshr
  | vsra | vsel | vcvt | vdot4 | vredadd | vredmax | vredmin | vexp2 | vlog2 | vrcp | vrsq | vperm
  | vbcast | vrotm | vpln | vunpl | vscale | vqmx | vmovs | vldi => exact .next h.sta
  | vcmp | vmask => exact .next h.staMask
  | fcopy | ffill | fand | forRow | fxor | fnot | fmaj => exact .next h.furrow
  | fqry => exact .next (h.command fun _ _ _ ht => ht.goOrWait fun _ hu => hu.fqryGo)
  | lqtail => exact .next h.modLq
  | gangPlacement => exact h.execGangPlacement
  | spawnDelivery => exact h.execSpawnDelivery
  | balancerInterval => exact h.execBalancerInterval
  | stageSwitch => exact h.execStageSwitch
  | watchdogPreempt => exact h.execWatchdogPreempt
  | watchdogKill => exact h.execWatchdogKill
  | watchdogFence => exact h.execWatchdogFence
  | correctableError => exact h.execCorrectableError
  | eccFreezeEnd => exact h.execEccFreezeEnd
  | uncorrectableError => exact .next (h.dropCopy.modBent.ite h.raiseError)
  | faultRecordRelease => exact h.execFaultRecordRelease
  | faultReplay | faultAbort => exact .next h.reply
  | preEmpt => exact h.execPreEmpt
  | saveComplete => exact h.execSaveComplete
  | restore => exact h.execRestore
  | restorePlacement => exact h.execRestorePlacement
  | kill => exact h.execKill
  | trinv => exact .next h.trinvWrite
  | trinvComplete => exact h.execTrinvComplete
  | trroot => exact .next h.trrootWrite
  | l1Fusion => exact h.execL1Fusion
  | formatRegionWrite => exact .next h.frWrite
  | vtctlInv => exact .next h.vtctlWrite
  | fwcc => exact .next h.fwccWrite
  | regionChange => exact h.execRegionChange
  | launchQueueReset => exact .next (h.finishReset.ite h.lqrstWrite)
  | icinv => exact .next h.icinvWrite
  | icbusyClear => exact h.execIcbusyClear
  | traceSessionOpen | traceSessionClose => exact .next (h.ite h.trctlWrite)
  | traceFlush => exact h.execTraceFlush
  | pmctrWrap => exact h.execPmctrWrap
  | veRelease => exact .next h.dbgctlWrite
  | clklockLock | clklockUnlock => exact .next h.clklockWrite
  | opptRequest => exact .next h.opptWrite
  | operatingPointChange => exact h.execOperatingPointChange
  | operatingPointChangeEnd => exact h.execOperatingPointChangeEnd
  | sensorSample => exact .next (h.ite ((h.modClock.foldl fun _ _ ht => ht.modBent).levels))
  | capStep => exact h.execCapStep
  | capRelax => exact h.execCapRelax
  | currentLimit => exact h.execCurrentLimit
  | emergencyEnd => exact h.execEmergencyEnd
  | coreReset => exact .next h.corectlWrite
  | coreMarchTest => exact h.execCoreMarchTest
  | repairEntry => exact .next h.repWrite
  | hostPoolWrite => exact .next h.poolWrite
  | registerWrite => exact .next (h.ite h.ctlWrite)
  | coldReset => exact .execColdReset
  | powerGood => exact .next (h.ite h.modReady)
  | firmwareVerify => exact .next (h.ite (h.acceptSlot.ite (h.acceptSlot.ite h.modReady)))
  | bentPowerUp => exact h.execBentPowerUp
  | stackTrainingEnd => exact h.execStackTrainingEnd
  | marchTestEnd => exact h.execMarchTestEnd
  | hostLinkTrained => exact .next (h.modLinks.setRdy.ite h)
  | hostAccess => exact .next (h.ite (h.modLinks.ite h.hostDo))
  | getVersion | getCapabilities | negotiateAlgorithms | getDigests | getCertificate | challenge
  | getMeasurements | sessionRequest => exact .next h.answer
  | scarfFlit => exact .next (h.ite (h.modScarf.modLinks.ite h.modScarf.modLinks))
  | linkRetrain | linkDown => exact .next (h.modScarf.ite h)
  | peerRequest => exact .next (h.modLinks.ite h.peerDo)
  | retrainEnd => exact .next (h.ite (h.modScarf.ite (h.modScarf.ite h)))
  | hostLinkDown => exact .next h.modLinks
  | chunkAcknowledgement => exact h.execChunkAcknowledgement
  | acknowledgementConfirmation => exact h.execAcknowledgementConfirmation
  | homeAcknowledgement => exact h.execHomeAcknowledgement
  | cxlCacheRequest => exact h.execCxlCacheRequest

/-! ### An agent's turn -/

theorem Canonical.fetchWord {p l} (h : Canonical s) : Canonical (s.fetchWord p l).2 := by
  unfold State.fetchWord
  dsimp only
  split
  · exact h
  · split
    · exact h
    · split
      · exact h
      · split
        · exact h.modCore.modBent
        · exact h.modCore.modBent.used

theorem Canonical.as {p k w} (h : Canonical s) : Canonical (s.as p k w) := h.modSched

theorem Canonical.runWord {w} (h : Canonical s) : CanonicalOut (s.runWord w) := by
  unfold State.runWord
  split
  · exact .next h.trapNow
  · exact h.exec

theorem Canonical.runShadow {w} (h : Canonical s) : CanonicalOut (s.runShadow w) := by
  unfold State.runShadow
  dsimp only
  split
  · exact .next h.modSched.trapNow
  · exact h.modSched.runWord

theorem Canonical.takeSample {x} (h : Canonical s) : Canonical (s.takeSample x) := h.safeRecord.modDbg.ite h

theorem Canonical.takeStop {x} (h : Canonical s) : Canonical (s.takeStop x) := h.safeRecord.modDbg.trapNow

theorem Canonical.stepWord {w} (h : Canonical s) : CanonicalOut (s.stepWord w) := by
  unfold State.stepWord
  split
  · split
    · exact h.runShadow
    · exact h.runWord
  · exact h.runWord

theorem Canonical.issueWord (h : Canonical s) : CanonicalOut (s.issueWord) := by
  unfold State.issueWord
  dsimp only
  split
  · split
    · exact .next h.takeSample.takeStop
    · exact h.takeSample.stepWord
  · exact h.stepWord

theorem Canonical.contextWord {p k} (h : Canonical s) : CanonicalOut (s.contextWord p k) := by
  unfold State.contextWord
  split
  · exact h.as.runShadow
  · split
    · exact .next (h.ite h.noteFail.as.trapNow)
    · split
      · exact .next h
      · exact h.note.fetchWord.as.issueWord

theorem Canonical.holdIfFull {p k o} (h : Canonical s) (ho : CanonicalOut o) : CanonicalOut (holdIfFull s p k o) := by
  unfold Machine.holdIfFull
  split
  · split
    · exact .next h.modCtx
    · exact ho
  · exact ho

theorem Canonical.contextTurn {p k} (h : Canonical s) : CanonicalOut (s.contextTurn p k) := by
  unfold State.contextTurn
  split
  · exact h.holdIfFull h.contextWord
  · exact .next h

theorem Canonical.headCommand {p e q} (h : Canonical s) : CanonicalOut (s.headCommand p e q) := by
  unfold State.headCommand
  split
  · exact .next h.headFault
  · split
    · exact .next h.headFault
    · exact h.modSched.exec

theorem Canonical.tryHead {p e} (h : Canonical s) : CanonicalOut (s.tryHead p e) := by
  unfold State.tryHead
  split
  · exact .next h
  · split
    · exact .next h
    · exact h.headCommand

theorem Canonical.goOn {p e} (h : Canonical s) : Canonical (s.goOn p e) := by
  unfold State.goOn
  refine h.foldl fun _ _ ht => ?_
  split
  · exact ht.resumeWaiting.ite ht
  · exact ht

theorem Canonical.ceTurn {p} (h : Canonical s) : CanonicalOut (s.ceTurn p) := by
  unfold State.ceTurn
  dsimp only
  split
  · next t e =>
    have ht : Canonical t := h.tryHead t e
    split
    · exact ht.tryHead
    · exact .next ht
  · exact h.tryHead

theorem Canonical.engineTurn {p e} (h : Canonical s) : CanonicalOut (s.engineTurn p e) := by
  unfold State.engineTurn
  split
  · exact .next h
  · split
    · exact h.goOn.goOn.ceTurn
    · exact h.goOn.goOn.ceTurn
    · exact h.goOn.tryHead
    · exact h.goOn.tryHead

theorem Canonical.unitTurn {c n} (h : Canonical s) : CanonicalOut (s.unitTurn c n) := by
  unfold State.unitTurn
  dsimp only
  split
  · exact h.execQregFill
  · exact h.execHomeAcknowledgement
  · exact h.execWaitWake
  · exact h.execMonitorPoll
  · exact h.execCombiningFlush
  · exact h.execChunkApply
  · exact h.execChunkResend
  · exact h.execChunkAcknowledgement
  · exact h.execAcknowledgementConfirmation
  · exact h.execClampRefill
  · exact h.execTokenPush
  · exact h.execCounterAdd
  · exact h.execChainBlockFetch
  · exact h.execSequenceAdvance
  · exact h.execPodRowDelivery
  · exact h.execMeStep
  · exact h.execBBlockLoad
  · exact h.execBundleIssue
  · exact h.execCutDrain
  · exact h.execWalkRequest
  · exact h.execVectorLanding
  · exact h.execWriteWalkWrite
  · exact h.execWindowClose
  · exact h.execGangPlacement
  · exact h.execSpawnDelivery
  · exact h.execBalancerInterval
  · exact h.execStageSwitch
  · exact h.execWatchdogPreempt
  · exact h.execWatchdogKill
  · exact h.execWatchdogFence
  · exact h.execEccFreezeEnd
  · exact h.execFaultRecordRelease
  · exact h.execPreEmpt
  · exact h.execSaveComplete
  · exact h.execRestore
  · exact h.execRestorePlacement
  · exact h.execKill
  · exact h.execTrinvComplete
  · exact h.execL1Fusion
  · exact h.execRegionChange
  · exact h.execIcbusyClear
  · exact h.execTraceFlush
  · exact h.execPmctrWrap
  · exact h.execOperatingPointChange
  · exact h.execOperatingPointChangeEnd
  · exact h.execCapStep
  · exact h.execCapRelax
  · exact h.execCurrentLimit
  · exact h.execEmergencyEnd
  · exact h.execBentPowerUp
  · exact .next h.rowTurn
  · exact .next h.serveHeld
  · exact h.execStackTrainingEnd

theorem Canonical.autoTurn {n} (h : Canonical s) : CanonicalOut (s.autoTurn n) := by
  unfold State.autoTurn
  dsimp only
  split
  · exact h.contextTurn
  · split
    · exact h.engineTurn
    · exact h.unitTurn

theorem Canonical.act {t} (h : Canonical s) : CanonicalOut (s.act t) := by
  unfold State.act
  split
  · exact h.contextTurn
  · exact h.engineTurn
  · exact h.exec
  · exact .next h.setBar
  · exact .next h.resendAsked

theorem CanonicalOut.powered {o} (ho : CanonicalOut o) : CanonicalOut (s.powered o) := by
  unfold State.powered
  split
  · exact .fault
  · exact ho

theorem CanonicalOut.mapNext {o} {f : State → State} (ho : CanonicalOut o) (hf : ∀ t, Canonical t → Canonical (f t)) :
    CanonicalOut (mapNext f o) := by
  cases o with
  | next t => exact .next (hf t (ho t rfl))
  | fault r => exact .fault
  | refused r => exact .refused

/-- An agent's turn: an input that comes first, or the next agent's own, and the errors it met settled. -/
theorem Canonical.turn (h : Canonical s) : CanonicalOut s.turn := by
  unfold State.turn
  split
  · next t rest _ =>
    have taken : Canonical (s.modSched fun x => { x with inputs := rest }) := h.modSched
    refine .mapNext ?_ fun _ ht => taken.settleMet ht
    split
    · exact taken.act
    · exact taken.act.powered
  · exact h.autoTurn.powered.mapNext fun _ ht => h.settleMet ht

theorem Canonical.tickClock (h : Canonical s) : Canonical s.tickClock := h.modSched

/-! ### A step -/

theorem Canonical.step (h : Canonical s) : CanonicalOut (step s) := h.turn.mapNext fun _ ht => ht.tickClock

end Sys2Proof.Claims
end

section
namespace Sys2Proof.Proofs

open Sys2Proof.Machine Sys2Proof.Claims

/-- Settles O57: every function that a step runs keeps the canonical form, so a step does. -/
theorem stepsCanonical : Obligations.StepsCanonical := fun _ t h e => h.step t e

end Sys2Proof.Proofs
end

section
/-! PROOFS. What a write at a home changes: the bytes it writes, the lines the caches hold, the marks of a write. -/

namespace Sys2Proof.Claims

open Sys2Proof.Machine

variable {s t u : State}

/-! ### The frame of a write at a home -/

/-- The part of `Wrote` that does not speak of the bytes: memory, scratchpads, caches and marks apart, nothing changes. -/
structure AtHomes (s u : State) : Prop where
  module : u = { s with cores := u.cores, mem := u.mem, llc := u.llc, marks := u.marks,
                        links := { s.links with pool := u.links.pool } }
  cores : ∀ q, u.core q = { s.core q with l1 := (u.core q).l1, scratch := (u.core q).scratch }

theorem AtHomes.refl (s : State) : AtHomes s s := ⟨rfl, fun _ => rfl⟩

theorem AtHomes.trans (h : AtHomes s t) (k : AtHomes t u) : AtHomes s u := by
  obtain ⟨module, cores⟩ := h
  obtain ⟨module', cores'⟩ := k
  refine ⟨?_, fun q => ?_⟩
  · rw [module'] at *
    rw [module]
  · rw [cores' q, cores q]

/-- A change of memory, LLC, marks and pool alone. -/
theorem AtHomes.frame (cores : u.cores = s.cores)
    (module : u = { s with cores := u.cores, mem := u.mem, llc := u.llc, marks := u.marks,
                           links := { s.links with pool := u.links.pool } } := by rfl) : AtHomes s u :=
  ⟨module, fun q => by rw [State.core, cores, ← State.core]⟩

theorem atHomes_modCore {p : CoreId} {f : Core → Core}
    (hf : ∀ c, f c = { c with l1 := (f c).l1, scratch := (f c).scratch }) : AtHomes s (s.modCore p f) := by
  refine ⟨rfl, fun q => ?_⟩
  by_cases e : p = q
  · subst e; rw [core_modCore]; exact hf _
  · rw [core_modCore_ne _ _ _ _ e]

theorem atHomes_storePhys (s : State) (a : Nat) (bs : List Byte) : AtHomes s (s.storePhys a bs) := by
  induction bs generalizing s a with
  | nil => exact .refl s
  | cons b bs ih => exact (AtHomes.frame (s := s) (u := s.setByte a b) rfl).trans (ih ..)

theorem atHomes_wake (s : State) (p : CoreId) (l : Loc) (n : Nat) : AtHomes s (s.wake p l n) := .frame rfl

theorem atHomes_writePhys (s : State) (a : Nat) (bs : List Byte) : AtHomes s (s.writePhys a bs) :=
  (atHomes_storePhys s a bs).trans (atHomes_wake ..)

theorem atHomes_writeLoc (s : State) (p : CoreId) (l : Loc) (bs : List Byte) : AtHomes s (s.writeLoc p l bs) := by
  cases l with
  | spad o => exact (atHomes_modCore fun _ => rfl).trans (atHomes_wake ..)
  | phys a => exact atHomes_writePhys s a bs

theorem atHomes_holdPool (s : State) (l : Loc) (n : Nat) (wr : Bool) : AtHomes s (s.holdPool l n wr) := by
  unfold State.holdPool
  split
  · exact .refl s
  · dsimp only
    split
    · split
      · exact .frame rfl
      · exact .refl s
    · exact .refl s

theorem atHomes_dropL1 (s : State) (p : CoreId) (line : Nat) : AtHomes s (s.dropL1 p line) := atHomes_modCore fun _ => rfl

theorem atHomes_writeHome (s : State) (p : CoreId) (l : Loc) (bs : List Byte) : AtHomes s (s.writeHome p l bs) := by
  have written := (atHomes_writeLoc s p l bs).trans (atHomes_holdPool _ l bs.length true)
  unfold State.writeHome
  dsimp only
  split
  · exact written
  · split
    · split
      · exact written.trans (atHomes_dropL1 ..)
      · exact written.trans ((atHomes_dropL1 ..).trans (atHomes_dropL1 ..))
    · exact written

/-! ### Records leave the cores alone -/

@[simp] theorem core_holdPool (s : State) (l : Loc) (n : Nat) (wr : Bool) (q : CoreId) :
    (s.holdPool l n wr).core q = s.core q := by
  unfold State.holdPool
  split
  · rfl
  · dsimp only
    split
    · split <;> rfl
    · rfl

@[simp] theorem core_writeSup (s : State) (a : Nat) (bs : List Byte) (q : CoreId) : (s.writeSup a bs).core q = s.core q := by
  simp [State.writeSup]

@[simp] theorem core_storeFault (s : State) (r : FaultRec) (q : CoreId) : (s.storeFault r).1.core q = s.core q := by
  unfold State.storeFault
  dsimp only
  split
  · exact core_writeSup s _ _ q
  · rfl

@[simp] theorem core_postFault (s : State) (b : BentId) (r : FaultRec) (q : CoreId) : (s.postFault b r).core q = s.core q := by
  have stored := core_storeFault s r q
  unfold State.postFault
  dsimp only
  split
  · split <;> next e => rw [e] at stored; exact stored
  · rfl

@[simp] theorem core_report (s : State) (b : BentId) (f : FaultSrc) (code aux : Byte) (q : CoreId) :
    (s.report b f code aux).core q = s.core q := core_postFault ..

end Sys2Proof.Claims
end

section
/-! PROOFS. The numbers of what is issued (log 4) stay below the next to be given, and those of started commands rise:
one lemma for each function that a step runs, chained by name as those of the canonical memories are. Numbers are given
in `Core.push`, `Core.issue`, `Core.reduce`, the start of a command and the start of a group alone; a restore takes the
commands of a saved core up. Every other update is `Numbered.frame`, or leaves the numbers of its core as they are. -/

namespace Sys2Proof.Claims

set_option Elab.async false

open Sys2Proof.Machine

/-! ### The numbers of one context and of one core -/

/-- The items a context has issued are numbered below its next number. -/
def PendsNumbered (x : Context) : Prop := ∀ i ∈ x.pend, i.id < x.nextId

/-- The ordinals of a core's started commands rise, below the next to be given. -/
def OrdsRise (c : Core) : Prop := (c.flights.map (·.ord) ++ [c.nextOrd]).Pairwise (· < ·)

/-- The numbers of a core: its contexts' items, its combining buffer, its started commands. -/
def CoreNumbered (c : Core) : Prop :=
  (∀ k, PendsNumbered (c.getCtx k)) ∧ (∀ e ∈ c.comb, e.id < c.combNext) ∧ OrdsRise c

/-- The ordinals of every saved core's commands rise: a restore takes the core up (R322). -/
def SavedRise (l : Launch) : Prop := ∀ e ∈ l.pre, ∀ x ∈ e.saved, OrdsRise x.2

/-- The numbers of every core, and of the commands of every saved core. -/
def Numbered (s : State) : Prop := (∀ p, CoreNumbered (s.core p)) ∧ SavedRise s.launch

theorem numbered_iff {s : State} : Numbered s ↔ AllNumbered s ∧ AllOrdered s := by
  constructor
  · rintro ⟨cores, saved⟩
    exact ⟨fun p => ⟨(cores p).1, (cores p).2.1⟩, fun p => (cores p).2.2, saved⟩
  · rintro ⟨numbers, ords, saved⟩
    exact ⟨fun p => ⟨(numbers p).1, (numbers p).2, ords p⟩, saved⟩

variable {c d : Core} {x : Context}

/-- A context changed in anything but its items and its next number. -/
theorem PendsNumbered.same {y : Context} (h : PendsNumbered x) (pend : y.pend = x.pend := by rfl)
    (next : y.nextId = x.nextId := by rfl) : PendsNumbered y := by
  simpa only [PendsNumbered, pend, next] using h

/-- A core changed in nothing that is numbered. -/
theorem CoreNumbered.same (h : CoreNumbered c) (ctx : d.ctx = c.ctx := by rfl) (comb : d.comb = c.comb := by rfl)
    (combNext : d.combNext = c.combNext := by rfl) (flights : d.flights = c.flights := by rfl)
    (nextOrd : d.nextOrd = c.nextOrd := by rfl) : CoreNumbered d := by
  simpa only [CoreNumbered, OrdsRise, Core.getCtx, ctx, comb, combNext, flights, nextOrd] using h

theorem PendsNumbered.sublist {l : List Pend} (h : PendsNumbered x) (sub : ∀ i ∈ l, i ∈ x.pend) :
    PendsNumbered { x with pend := l } :=
  fun i hi => h i (sub i hi)

/-- A context among a core's three, one of which is replaced. -/
theorem getCtx_setCtx_cases (c : Core) (k j : Ctx) (x : Context) :
    (c.setCtx k x).getCtx j = x ∨ (c.setCtx k x).getCtx j = c.getCtx j := by
  by_cases e : k = j
  · subst e; exact .inl (getCtx_setCtx c k x)
  · exact .inr (getCtx_setCtx_ne c k j x e)

theorem CoreNumbered.setCtx {k} (h : CoreNumbered c) (hx : PendsNumbered x) : CoreNumbered (c.setCtx k x) := by
  obtain ⟨ctx, comb, ords⟩ := h
  refine ⟨fun j => ?_, comb, ords⟩
  rcases getCtx_setCtx_cases c k j x with e | e <;> rw [e]
  · exact hx
  · exact ctx j

/-- A queue changed moves no number. -/
theorem CoreNumbered.setQueue {k r q} (h : CoreNumbered c) : CoreNumbered (c.setQueue k r q) := by
  unfold Core.setQueue
  dsimp only
  split
  · exact h
  · exact h.setCtx (h.1 k)
  · exact h.setCtx (h.1 k)
  all_goals exact h

theorem CoreNumbered.popAll {k l} (h : CoreNumbered c) : CoreNumbered (popAll c k l) := by
  induction l generalizing c with
  | nil => exact h
  | cons x l ih =>
    refine ih ?_
    split
    · exact h
    · exact h.setQueue

theorem CoreNumbered.push {k r v} (h : CoreNumbered c) : CoreNumbered (c.push k r v) :=
  h.setQueue.setCtx fun i hi => Nat.lt_succ_of_lt (h.setQueue.1 k i hi)

/-- A queue changed leaves its context's items and next number. -/
theorem setQueue_pend (c : Core) (k : Ctx) (r : BitVec 5) (q : Queue) :
    ((c.setQueue k r q).getCtx k).pend = (c.getCtx k).pend := by
  unfold Core.setQueue
  dsimp only
  split <;> first | rfl | rw [getCtx_setCtx]

/-- An item issued takes the next number. -/
theorem CoreNumbered.issue {k push cls kind o} (h : CoreNumbered c) : CoreNumbered (c.issue k push cls kind o) := by
  have numbered {l : List Pend} {i : Pend} (hl : l = (c.getCtx k).pend) (hi : i.id = (c.getCtx k).nextId) :
      ∀ j ∈ l ++ [i], j.id < (c.getCtx k).nextId + 1 := by
    intro j hj
    rcases List.mem_append.1 hj with hj | hj
    · exact Nat.lt_succ_of_lt (h.1 k j (hl ▸ hj))
    · rw [List.mem_singleton.1 hj, hi]; exact Nat.lt_succ_self _
  cases push with
  | none => exact h.setCtx (numbered rfl rfl)
  | some r => exact h.setQueue.setCtx (numbered (setQueue_pend ..) rfl)

theorem CoreNumbered.fill {k id dst v} (h : CoreNumbered c) : CoreNumbered (c.fill k id dst v) := by
  unfold Core.fill
  split
  · exact h
  · dsimp only
    split
    · exact h
    · exact h
    · exact h.setCtx (h.1 k)
    · exact h.setCtx (h.1 k)
    · exact h

/-- Entries of a list of which one is changed by a map that keeps a key keep their keys. -/
theorem map_modFirst {α β : Type} {key : α → β} {p : α → Bool} {f : α → α} {l : List α}
    (hf : ∀ a, key (f a) = key a) : (modFirst p f l).map key = l.map key := by
  induction l with
  | nil => rfl
  | cons a l ih =>
    unfold modFirst
    split <;> simp [hf, ih]

theorem map_lmod {α β : Type} {key : α → β} {f : α → α} {l : List α} {n : Nat} (hf : ∀ a, key (f a) = key a) :
    (lmod n f l).map key = l.map key := by
  induction l generalizing n with
  | nil => simp [lmod]
  | cons a l ih => cases n <;> simp [lmod, hf, ih]

/-- A combining buffer that holds no number it did not hold. -/
theorem CoreNumbered.comb {l : List Comb} (h : CoreNumbered c) (hl : ∀ n ∈ l.map (·.id), n ∈ c.comb.map (·.id)) :
    CoreNumbered { c with comb := l } := by
  refine ⟨h.1, fun e he => ?_, h.2.2⟩
  obtain ⟨e', he', same⟩ := List.mem_map.1 (hl _ (List.mem_map_of_mem he))
  have below := h.2.1 e' he'
  rwa [same] at below

/-- Entries marked or combined keep their numbers. -/
theorem CoreNumbered.mapComb {f : Comb → Comb} (h : CoreNumbered c) (hf : ∀ e, (f e).id = e.id) :
    CoreNumbered { c with comb := c.comb.map f } :=
  h.comb (by simp [hf, Function.comp_def])

theorem CoreNumbered.flushHits {l n} (h : CoreNumbered c) : CoreNumbered (c.flushHits l n) :=
  h.mapComb fun e => by split <;> rfl

theorem CoreNumbered.flushAll (h : CoreNumbered c) : CoreNumbered c.flushAll := h.mapComb fun _ => rfl

/-- A reduction taken is combined, or takes the next number; one that is not marks entries. -/
theorem CoreNumbered.reduce {l n op v now} (h : CoreNumbered c)
    (e : c.reduce l n op v now = .inl d ∨ c.reduce l n op v now = .inr d) : CoreNumbered d := by
  unfold Core.reduce at e
  dsimp only at e
  split at e
  · rcases e with e | e <;> cases e
    exact h.comb fun n hn => by rwa [map_modFirst (key := Comb.id) fun _ => by rfl] at hn
  · split at e
    · rcases e with e | e <;> cases e
      exact h.mapComb fun e => by split <;> rfl
    · split at e
      · rcases e with e | e <;> cases e
        exact h.comb fun n hn => by rwa [map_lmod (key := Comb.id) fun _ => by rfl] at hn
      · rcases e with e | e <;> cases e
        refine ⟨h.1, fun x hx => ?_, h.2.2⟩
        rcases List.mem_append.1 hx with hx | hx
        · exact Nat.lt_succ_of_lt (h.2.1 x hx)
        · rw [List.mem_singleton.1 hx]; exact Nat.lt_succ_self _

/-- Some of a core's commands, their ordinals kept. -/
theorem OrdsRise.fewer {l : List Flight} (h : OrdsRise c) (sub : (l.map (·.ord)).Sublist (c.flights.map (·.ord))) :
    OrdsRise { c with flights := l } :=
  List.Pairwise.sublist (sub.append (List.Sublist.refl _)) h

theorem CoreNumbered.flights {l : List Flight} (h : CoreNumbered c)
    (sub : (l.map (·.ord)).Sublist (c.flights.map (·.ord))) : CoreNumbered { c with flights := l } :=
  ⟨h.1, h.2.1, h.2.2.fewer sub⟩

theorem CoreNumbered.modFlight {n} {f : Flight → Flight} (h : CoreNumbered c)
    (hf : ∀ x, (f x).ord = x.ord := by intro x; rfl) : CoreNumbered (c.modFlight n f) :=
  h.flights (by rw [map_modFirst hf])

theorem CoreNumbered.sweep (h : CoreNumbered c) : CoreNumbered c.sweep := h.flights (List.filter_sublist.map _)

/-- A command started takes the next ordinal. -/
theorem OrdsRise.start {f : Flight} (h : OrdsRise c) (hf : f.ord = c.nextOrd) :
    OrdsRise { c with flights := c.flights ++ [f], nextOrd := c.nextOrd + 1 } := by
  have below := (List.pairwise_append.1 h).2.2
  unfold OrdsRise at h ⊢
  simp only [List.map_append, List.map_cons, List.map_nil, hf]
  refine List.pairwise_append.2 ⟨h, List.pairwise_singleton .., fun a ha b hb => ?_⟩
  rw [List.mem_singleton.1 hb]
  rcases List.mem_append.1 ha with ha | ha
  · exact Nat.lt_succ_of_lt (below a ha _ (List.mem_singleton_self _))
  · rw [List.mem_singleton.1 ha]; exact Nat.lt_succ_self _

theorem CoreNumbered.start {f : Flight} (h : CoreNumbered c) (hf : f.ord = c.nextOrd) :
    CoreNumbered { c with flights := c.flights ++ [f], nextOrd := c.nextOrd + 1 } :=
  ⟨h.1, h.2.1, h.2.2.start hf⟩

/-- A core with no command and no combining entry, whose contexts' items are numbered. -/
theorem CoreNumbered.ofCtx (h : ∀ k, PendsNumbered (c.getCtx k)) (flights : c.flights = []) (comb : c.comb = []) :
    CoreNumbered c :=
  ⟨h, by simp [comb], by simp [OrdsRise, flights]⟩

/-- A core as a cold reset leaves its contexts. -/
theorem CoreNumbered.fresh (ctx : c.ctx = ({} : Core).ctx) (flights : c.flights = []) (comb : c.comb = []) :
    CoreNumbered c := by
  refine .ofCtx (fun k i hi => ?_) flights comb
  have idle : c.getCtx k = {} := by
    rw [Core.getCtx, ctx]
    exact vget_replicate _ k.idx.isLt
  rw [idle] at hi
  cases hi

/-- Every context changed alike. -/
theorem getCtx_vmap (f : Context → Context) (k : Ctx) : ({ c with ctx := vmap f c.ctx } : Core).getCtx k = f (c.getCtx k) :=
  vget_vmap f c.ctx k.idx.val k.idx.isLt

/-- A core that a gang leaves has no command (R51). -/
theorem CoreNumbered.left (h : CoreNumbered c) : CoreNumbered c.left :=
  ⟨fun k => (getCtx_vmap (c := c) Context.cleared k) ▸ h.1 k, h.2.1, List.pairwise_singleton ..⟩

theorem PendsNumbered.begin {entry param place} (h : PendsNumbered x) : PendsNumbered (x.begin entry param place) := by
  unfold Context.begin
  dsimp only
  split
  · exact h
  · exact fun i hi => Nat.lt_add_right 2 (h i hi)

theorem CoreNumbered.groupStart {i g grp param keep} (h : CoreNumbered c) :
    CoreNumbered (c.groupStart i g grp param keep) := by
  refine ⟨fun k => ?_, h.2.1, List.pairwise_singleton ..⟩
  cases k
  · exact (h.1 .ld).begin
  · exact (h.1 .cp).begin
  · exact (h.1 .st).begin

/-- The commands that a snapshot gives back are some of those saved, their ordinals kept. -/
theorem flightsAt_ords (l : List Byte) (n k : Nat) (fs : List Flight) :
    ((flightsAt l n k fs).map (·.ord)).Sublist (fs.map (·.ord)) := by
  induction fs generalizing k with
  | nil => exact List.Sublist.refl _
  | cons f fs ih =>
    unfold flightsAt
    split
    · exact (ih k).cons_cons _
    · split
      · exact (ih _).cons_cons _
      · split
        · exact (ih _).cons_cons _
        · exact (ih _).cons _

/-- A restored core has nothing issued; its commands are some of those saved (R322). -/
theorem OrdsRise.takeUp {p bs now} (h : OrdsRise d) : CoreNumbered (c.takeUp (d.reinstate p bs) now) := by
  refine ⟨fun k i hi => ?_, fun _ he => (List.not_mem_nil he).elim, h.fewer (l := (d.reinstate p bs).flights) ?_⟩
  · cases k <;> cases hi
  · unfold Core.reinstate
    simpa [Function.comp_def] using flightsAt_ords ..

theorem CoreNumbered.settleFreeze {now busy} (h : CoreNumbered c) : CoreNumbered (c.settleFreeze now busy) := by
  unfold Core.settleFreeze
  split
  · split <;> exact h
  · exact h

theorem CoreNumbered.freezeAt {now busy} (h : CoreNumbered c) : CoreNumbered (c.freezeAt now busy) := h.settleFreeze

theorem CoreNumbered.thawAt {now} (h : CoreNumbered c) : CoreNumbered (c.thawAt now) := by
  unfold Core.thawAt
  split
  · exact h
  · split <;> exact h
  · exact h

/-! ### The numbers of a state -/

variable {s t u s0 : State}

/-- An outcome that leaves a state leaves a numbered one. -/
def NumberedOut (o : Out) : Prop := ∀ t, o = .next t → Numbered t

theorem NumberedOut.next (h : Numbered s) : NumberedOut (.next s) := fun _ e => Host.Outcome.next.inj e ▸ h
theorem NumberedOut.fault {r} : NumberedOut (.fault r) := fun _ e => nomatch e
theorem NumberedOut.refused {r} : NumberedOut (.refused r) := fun _ e => nomatch e

theorem Numbered.core (h : Numbered s) (p : CoreId) : CoreNumbered (s.core p) := h.1 p

theorem Numbered.saved (h : Numbered s) : SavedRise s.launch := h.2

theorem Numbered.ctx (h : Numbered s) (p : CoreId) (k : Ctx) : PendsNumbered (s.ctx p k) := (h.core p).1 k

/-- A change of neither the cores nor the saved cores. -/
theorem Numbered.frame (h : Numbered s) (cores : t.cores = s.cores := by rfl)
    (pre : t.launch.pre = s.launch.pre := by rfl) : Numbered t := by
  refine ⟨fun p => ?_, fun e he => h.saved e (pre ▸ he)⟩
  rw [State.core, cores]
  exact h.core p

theorem Numbered.ite {c : Prop} {_ : Decidable c} (hs : Numbered s) (ht : Numbered t) :
    Numbered (if c then s else t) := by
  split
  · exact hs
  · exact ht

theorem SavedRise.filter {l : Launch} {f : PreGang → Bool} (h : SavedRise l) : SavedRise { l with pre := l.pre.filter f } :=
  fun e he => h e (List.mem_of_mem_filter he)

/-- An entry of the table of pre-empted gangs changed, its saved cores kept. -/
theorem SavedRise.modFirst {l : Launch} {q : PreGang → Bool} {f : PreGang → PreGang} (h : SavedRise l)
    (hf : ∀ e, (f e).saved = e.saved := by intro e; rfl) : SavedRise { l with pre := modFirst q f l.pre } := by
  intro e he
  have kept : e.saved ∈ l.pre.map (·.saved) := map_modFirst (key := PreGang.saved) hf ▸ List.mem_map_of_mem he
  obtain ⟨e', he', same⟩ := List.mem_map.1 kept
  exact same ▸ h e' he'

theorem Numbered.foldl {α : Type} {f : State → α → State} {l : List α} (h : Numbered s)
    (hf : ∀ t x, Numbered t → Numbered (f t x)) : Numbered (l.foldl f s) := by
  induction l generalizing s with
  | nil => exact h
  | cons x l ih => exact ih (hf s x h)

theorem Numbered.foldlMem {α : Type} {f : State → α → State} {l : List α} (h : Numbered s)
    (hf : ∀ t, ∀ x ∈ l, Numbered t → Numbered (f t x)) : Numbered (l.foldl f s) := by
  induction l generalizing s with
  | nil => exact h
  | cons x l ih =>
    exact ih (hf s x List.mem_cons_self h) fun t y hy => hf t y (List.mem_cons_of_mem _ hy)

/-- The state of a pair, after the pair is taken apart. -/
theorem Numbered.of_eq {α : Type} {x : State × α} {a : α} (h : Numbered x.1) (e : x = (t, a)) : Numbered t := by
  subst e
  exact h

/-! ### Fences that take effect -/

/-- The items that stand once fences have taken effect are some of those that stood. -/
theorem settleList_sublist (c : Core) (l before : List Pend) : (settleList c before l).Sublist (before ++ l) := by
  induction l generalizing before with
  | nil => simp [settleList]
  | cons i l ih =>
    unfold settleList
    split
    · exact (ih before).trans ((List.sublist_cons_self i l).append_left before)
    · simpa using ih (before ++ [i])

theorem reset_numbered : Numbered State.reset :=
  ⟨fun p => reset_core p ▸ .fresh rfl rfl rfl, fun _ he => nomatch he⟩

theorem Numbered.setCore {p c} (h : Numbered s) (hc : CoreNumbered c) : Numbered (s.setCore p c) := by
  refine ⟨fun q => ?_, h.2⟩
  by_cases e : p = q
  · subst e; rwa [core_setCore]
  · rw [core_setCore_ne _ _ _ _ e]; exact h.core q

theorem Numbered.modCore {p} {f : Core → Core} (h : Numbered s)
    (hf : ∀ c, CoreNumbered c → CoreNumbered (f c) := by intro c hc; exact hc) : Numbered (s.modCore p f) :=
  h.setCore (hf _ (h.core p))

theorem Numbered.setCtx {p k x} (h : Numbered s) (hx : PendsNumbered x) : Numbered (s.setCtx p k x) :=
  h.modCore fun _ hc => hc.setCtx hx

theorem Numbered.modCtx {p k} {f : Context → Context} (h : Numbered s)
    (hf : ∀ x, PendsNumbered x → PendsNumbered (f x) := by intro x hx; exact hx) : Numbered (s.modCtx p k f) :=
  h.setCtx (hf _ ((h.core p).1 k))

/-! ### Parts of the state -/

theorem Numbered.modEng {p e f} (h : Numbered s) : Numbered (s.modEng p e f) := h.modCore

theorem Numbered.modVe {p f} (h : Numbered s) : Numbered (s.modVe p f) := h.modCore

theorem Numbered.modMe {p f} (h : Numbered s) : Numbered (s.modMe p f) := h.modCore

theorem Numbered.modGate {p f} (h : Numbered s) : Numbered (s.modGate p f) := h.modCore

theorem Numbered.modDbg {p f} (h : Numbered s) : Numbered (s.modDbg p f) := h.modCore

theorem Numbered.setBent {b x} (h : Numbered s) : Numbered (s.setBent b x) := h.frame

theorem Numbered.modBent {b f} (h : Numbered s) : Numbered (s.modBent b f) := h.setBent

theorem Numbered.modBay {y f} (h : Numbered s) : Numbered (s.modBay y f) := h.frame

theorem Numbered.modLq {q f} (h : Numbered s) : Numbered (s.modLq q f) := h.frame

/-- A change of the scheduler that keeps saved cores, or drops some. -/
theorem Numbered.modLaunch {f : Launch → Launch} (h : Numbered s)
    (hf : ∀ l, SavedRise l → SavedRise (f l) := by intro l hl; exact hl) : Numbered (s.modLaunch f) :=
  ⟨h.core, hf _ h.2⟩

theorem Numbered.modTrace {f} (h : Numbered s) : Numbered (s.modTrace f) := h.frame

theorem Numbered.modFlt {f} (h : Numbered s) : Numbered (s.modFlt f) := h.frame

theorem Numbered.modPm {f} (h : Numbered s) : Numbered (s.modPm f) := h.frame

theorem Numbered.modClock {f} (h : Numbered s) : Numbered (s.modClock f) := h.frame

theorem Numbered.modReady {f} (h : Numbered s) : Numbered (s.modReady f) := h.frame

theorem Numbered.modLinks {f} (h : Numbered s) : Numbered (s.modLinks f) := h.frame

theorem Numbered.modSched {f} (h : Numbered s) : Numbered (s.modSched f) := h.frame

theorem Numbered.mapCores {f : Core → Core} (h : Numbered s)
    (hf : ∀ c, CoreNumbered c → CoreNumbered (f c) := by intro c hc; exact hc) : Numbered (s.mapCores f) := by
  refine ⟨fun p => ?_, h.2⟩
  have core : (s.mapCores f).core p = f (s.core p) := vget_vmap f s.cores p.val p.isLt
  rw [core]
  exact hf _ (h.core p)

theorem Numbered.mapBents {f} (h : Numbered s) : Numbered (s.mapBents f) := h.frame

theorem Numbered.modGang {g f} (h : Numbered s) : Numbered (s.modGang g f) := h.modLaunch

/-! ### Memory -/

theorem Numbered.touchView {a} (h : Numbered s) : Numbered (s.touchView a) := h.frame

theorem Numbered.touchLoc {l n} (h : Numbered s) : Numbered (s.touchLoc l n) := by
  unfold State.touchLoc
  split
  · exact h
  · exact h.touchView.ite h.touchView.touchView

theorem Numbered.meet {p l n} (h : Numbered s) : Numbered (s.meet p l n) := by
  unfold State.meet
  dsimp only
  split
  · exact h
  · exact h.ite h.frame

theorem Numbered.wake {p l n} (h : Numbered s) : Numbered (s.wake p l n) := h.frame

theorem Numbered.storePhys (h : Numbered s) (a : Nat) (bs : List Byte) : Numbered (s.storePhys a bs) := by
  induction bs generalizing s a with
  | nil => exact h
  | cons b bs ih => exact ih (s := s.setByte a b) h.frame _

theorem Numbered.writePhys {a bs} (h : Numbered s) : Numbered (s.writePhys a bs) :=
  (h.storePhys a bs).wake

theorem Numbered.writeScratch {p o bs} (h : Numbered s) :
    Numbered (s.modCore p fun c => { c with scratch := c.scratch.write o bs }) :=
  h.modCore

theorem Numbered.writeLoc {p l bs} (h : Numbered s) : Numbered (s.writeLoc p l bs) := by
  cases l with
  | spad o => exact h.writeScratch.wake
  | phys a => exact h.writePhys

theorem Numbered.fillTlb {p va} (h : Numbered s) : Numbered (s.fillTlb p va) := h.modCore.modBent

theorem Numbered.noteVa {p va} (h : Numbered s) : Numbered (s.noteVa p va) := h.ite h.fillTlb

/-! ### Shared operations: records, traps, the end of an instruction, accesses -/

theorem Numbered.holdPool {l n wr} (h : Numbered s) : Numbered (s.holdPool l n wr) := by
  unfold State.holdPool
  dsimp only
  split
  · exact h
  · split
    · exact h.frame.ite h
    · exact h

theorem Numbered.writeSup {a bs} (h : Numbered s) : Numbered (s.writeSup a bs) := h.writePhys.holdPool

theorem Numbered.count {p code k} (h : Numbered s) : Numbered (s.count p code k) := h.modDbg.ite h

theorem Numbered.note {p va} (h : Numbered s) : Numbered (s.note p va) := h.ite h.noteVa.count

theorem Numbered.noteFail {p va} (h : Numbered s) : Numbered (s.noteFail p va) := h.ite h.count

theorem Numbered.noteAll {p vas} (h : Numbered s) : Numbered (s.noteAll p vas) := by
  induction vas generalizing s with
  | nil => exact h
  | cons va vas ih => exact ih h.note

theorem Numbered.writeTrace {r} (h : Numbered s) : Numbered (s.writeTrace r) :=
  h.modTrace.ite (h.ite h.writeSup.modTrace)

theorem Numbered.flushTrace {b} (h : Numbered s) : Numbered (s.flushTrace b) :=
  h.ite ((h.foldl fun _ _ hs => hs.writeTrace).modBent)

theorem Numbered.emit {b type sub p body} (h : Numbered s) : Numbered (s.emit b type sub p body) :=
  h.modBent.flushTrace.ite h.modBent

theorem Numbered.event {b code p body} (h : Numbered s) : Numbered (s.event b code p body) := h.emit.ite h

theorem Numbered.storeFault {r} (h : Numbered s) : Numbered (s.storeFault r).1 := by
  unfold State.storeFault
  dsimp only
  split
  · exact h.writeSup.modFlt
  · exact h.modFlt

theorem Numbered.postFault {b r} (h : Numbered s) : Numbered (s.postFault b r) := by
  unfold State.postFault
  dsimp only
  split
  · split
    · next e => exact h.storeFault.of_eq e
    · next e => exact (h.storeFault.of_eq e).modBent
  · exact h.modBent

theorem Numbered.takeTicket {t words} (h : Numbered s) : Numbered (s.takeTicket t words) := h.modFlt

theorem Numbered.dropTicket {t} (h : Numbered s) : Numbered (s.dropTicket t) := h.modFlt

theorem Numbered.report {b f code aux} (h : Numbered s) : Numbered (s.report b f code aux) := h.postFault

theorem Numbered.reportPage {b f code aux t} (h : Numbered s) : Numbered (s.reportPage b f code aux t) :=
  h.takeTicket.postFault

theorem Numbered.trap {p k code aux tval epc word} (h : Numbered s) : Numbered (s.trap p k code aux tval epc word) :=
  have trapped := h.setCtx (p := p) (k := k) (x := (s.ctx p k).trap code aux tval epc word) (h.ctx p k)
  (trapped.reportPage.modCtx.ite trapped.report).ite trapped

theorem Numbered.trapNow {code aux tval} (h : Numbered s) : Numbered (s.trapNow code aux tval) := h.trap

theorem Numbered.commit {user next} (h : Numbered s) : Numbered (s.commit user next) :=
  h.modCtx.count.trap.ite h.modCtx.count

theorem Numbered.advance (h : Numbered s) : Numbered s.advance := h.commit

theorem Numbered.blockNow (h : Numbered s) : Numbered s.blockNow := h.modCtx

/-- What an instruction's body keeps, the instruction keeps: it pops its operands, blocks or traps. -/
theorem Numbered.scalar {rds push illegal} {body : List Word → State → State} (h : Numbered s)
    (hbody : ∀ x t, Numbered t → Numbered (body x t)) : Numbered (scalar rds push illegal s body) := by
  unfold Machine.scalar
  split
  · exact h.blockNow
  · exact h.trapNow
  · exact hbody _ _ (h.modCore fun _ hc => hc.popAll)

theorem Numbered.result {d v} (h : Numbered s) : Numbered (s.result d v) := (h.modCore fun _ hc => hc.push).advance

theorem Numbered.later {d v} (h : Numbered s) : Numbered (s.later d v) := (h.modCore fun _ hc => hc.issue).advance

theorem Numbered.dropL1 {p line} (h : Numbered s) : Numbered (s.dropL1 p line) := h.modCore

theorem Numbered.clearL1 {p} (h : Numbered s) : Numbered (s.clearL1 p) :=
  (h.foldl fun _ _ ht => ht.modCore).ite h.modCore

theorem Numbered.grant {p r l n} (h : Numbered s) : Numbered (s.grant p r l n) := by
  unfold State.grant
  split
  · exact h
  · exact h.modCore

theorem Numbered.used {p l n} (h : Numbered s) : Numbered (s.used p l n) := h.touchLoc.holdPool.meet

theorem Numbered.loadScalar {p l n} (h : Numbered s) : Numbered (s.loadScalar p l n).2 := by
  unfold State.loadScalar
  dsimp only
  split
  · exact h
  · split
    · split
      · exact h.modCore.count
      · exact h.touchView.meet.modCore.count
    · exact h.holdPool

theorem Numbered.storeScalar {p l bs} (h : Numbered s) : Numbered (s.storeScalar p l bs) := by
  unfold State.storeScalar
  dsimp only
  split
  · exact h.writeLoc.holdPool
  · exact h.writeLoc.holdPool.modCore.ite h.writeLoc.holdPool

theorem Numbered.writeHome {p l bs} (h : Numbered s) : Numbered (s.writeHome p l bs) := by
  unfold State.writeHome
  dsimp only
  split
  · exact h.writeLoc.holdPool
  · exact (h.writeLoc.holdPool.dropL1.ite h.writeLoc.holdPool.dropL1.dropL1).ite h.writeLoc.holdPool

theorem Numbered.trapAfter {code aux tval} (h : Numbered s) : Numbered (trapAfter s code aux tval) := h.trapNow

theorem Numbered.trapAt {code aux va} (h : Numbered s) : Numbered (s.trapAt code aux va) :=
  h.blockNow.ite h.noteFail.trapAfter

/-! ### ALU operations, multiply and divide -/

theorem Numbered.alu3 {f r} (h : Numbered s) : NumberedOut (alu3 f r s) := .next (h.scalar fun _ _ ht => ht.result)

theorem Numbered.alu2 {f r} (h : Numbered s) : NumberedOut (alu2 f r s) := .next (h.scalar fun _ _ ht => ht.result)

theorem Numbered.slow3 {f r} (h : Numbered s) : NumberedOut (slow3 f r s) := .next (h.scalar fun _ _ ht => ht.later)

/-! ### Immediate forms and queue housekeeping -/

theorem Numbered.aluI {f imm d a pa} (h : Numbered s) : NumberedOut (aluI f imm d a pa s) :=
  .next (h.scalar fun _ _ ht => ht.result)

theorem Numbered.execQclr {r} (h : Numbered s) : NumberedOut (execQclr r s) :=
  .next (h.trapNow.ite ((h.modCore fun _ hc => hc.setQueue).advance.ite h.modCtx.blockNow))

theorem Numbered.execDup {r} (h : Numbered s) : NumberedOut (execDup r s) :=
  .next (h.scalar fun _ _ ht => h.trapAfter.ite ((ht.modCore fun _ hc => hc.setQueue).advance))

/-! ### Issuing accesses -/

theorem Numbered.settleCtx {p k} (h : Numbered s) : Numbered (s.settleCtx p k) :=
  have settled := h.setCtx ((h.ctx p k).sublist fun _ hi => by simpa using (settleList_sublist ..).subset hi)
  settled.clearL1.ite settled

theorem Numbered.settle {p} (h : Numbered s) : Numbered (s.settle p) := h.foldl fun _ _ ht => ht.settleCtx

theorem Numbered.issueAccess {va n acc cls ok push kind} (hs0 : Numbered s0) (h : Numbered s) :
    Numbered (issueAccess s0 s va n acc cls ok push kind) := by
  unfold Machine.issueAccess
  split
  · exact hs0.blockNow
  · split
    · exact hs0.trapAt
    · refine hs0.trapAt.ite (hs0.blockNow.ite (.ite (Numbered.blockNow ?_) (Numbered.advance ?_)))
      · exact hs0.modCore fun _ hc => hc.flushHits
      · exact h.note.modCore fun _ hc => hc.issue

theorem Numbered.loadOp {sext r} (h : Numbered s) : NumberedOut (loadOp sext r s) :=
  .next (h.scalar fun _ _ ht => h.issueAccess ht)

theorem Numbered.atomic {op r} (h : Numbered s) : NumberedOut (atomic op r s) :=
  .next (h.scalar fun _ _ ht => h.issueAccess ht)

theorem Numbered.reduction {op a b n} (h : Numbered s) : NumberedOut (reduction op a b n s) := by
  unfold Machine.reduction
  refine .next (h.scalar fun _ _ ht => ?_)
  split
  · exact h.trapAt
  · split
    · exact h.trapAt
    · split
      · exact h.blockNow
      · split
        · next joined => exact (ht.setCore ((ht.core _).reduce (.inl joined))).note.advance
        · split
          · next flushed => exact (h.setCore ((h.core _).reduce (.inr flushed))).blockNow
          · exact h.blockNow

theorem Numbered.applyComb {p e} (h : Numbered s) : Numbered (s.applyComb p e) := h.report.ite h.writeHome

theorem Numbered.execCombiningFlush {p n} (h : Numbered s) : NumberedOut (execCombiningFlush p n s) := by
  unfold Machine.execCombiningFlush
  refine .next ?_
  split
  · exact h
  · exact (h.modCore fun _ hc => hc.comb ((List.eraseIdx_sublist ..).map Comb.id).subset).applyComb.settle.ite h

/-! ### The frame of an engine command -/

theorem Numbered.modFlight {p n} {f : Flight → Flight} (h : Numbered s)
    (hf : ∀ x, (f x).ord = x.ord := by intro x; rfl) : Numbered (s.modFlight p n f) :=
  h.modCore fun _ hc => hc.modFlight hf

theorem Numbered.engRecord {p e ws pc code aux addr elem} (h : Numbered s) :
    Numbered (s.engRecord p e ws pc code aux addr elem) :=
  h.report.modCore

theorem Numbered.dropHead {p e} (h : Numbered s) : Numbered (s.dropHead p e) := h.modCore.modEng

theorem Numbered.headFault {p e code aux addr} (h : Numbered s) : Numbered (s.headFault p e code aux addr) := by
  unfold State.headFault
  split
  · exact h
  · exact h.dropHead.engRecord.ite h

theorem Numbered.headPark {p e code cause addr} (h : Numbered s) : Numbered (s.headPark p e code cause addr) := by
  unfold State.headPark
  dsimp only
  split
  · exact h
  · exact h.reportPage.modEng.ite h

/-- A command changed, and gone where nothing of it is left to do. -/
theorem Numbered.sweepFlight {p n} {f : Flight → Flight} (h : Numbered s)
    (hf : ∀ x, (f x).ord = x.ord := by intro x; rfl) : Numbered (s.modCore p fun c => (c.modFlight n f).sweep) :=
  h.modCore fun _ hc => (hc.modFlight hf).sweep

theorem Numbered.endFlight {p ord} (h : Numbered s) : Numbered (s.endFlight p ord) := h.sweepFlight

theorem Numbered.flightHold {p f elem saved} (h : Numbered s) : Numbered (s.flightHold p f elem saved) := h.modFlight

theorem Numbered.flightFault {p f code aux addr elem saved} (h : Numbered s) :
    Numbered (s.flightFault p f code aux addr elem saved) :=
  h.engRecord.endFlight.ite h.flightHold

theorem Numbered.flightPark {p f code cause addr elem saved} (h : Numbered s) :
    Numbered (s.flightPark p f code cause addr elem saved) :=
  h.reportPage.modFlight.ite h.flightHold

theorem Numbered.stampFinish {p f} (h : Numbered s) : Numbered (s.stampFinish p f) := h.modGate.ite h

theorem Numbered.finish {p ord} (h : Numbered s) : Numbered (s.finish p ord) := by
  unfold State.finish
  split
  · exact h
  · exact h.sweepFlight.stampFinish.count

theorem Numbered.stampStart {p e} (h : Numbered s) : Numbered (s.stampStart p e) := h.modGate.ite h

theorem dropHead_nextOrd (s : State) (p : CoreId) (e : Ep) : ((s.dropHead p e).core p).nextOrd = (s.core p).nextOrd := by
  simp [State.dropHead, State.modEng]

/-- A command that leaves its queue's head to start takes the next ordinal of its core. -/
theorem Numbered.startFlight {p e q hd x ls m} (h : Numbered s) : Numbered ((s.dropHead p e).modCore p fun c =>
    { c.popTokens e m with
      flights := c.flights ++ [s.newFlight p e q hd x ls], nextOrd := c.nextOrd + 1, lastCe := e }) :=
  h.dropHead.setCore ((h.dropHead.core p).start (dropHead_nextOrd s p e).symm)

/-- What a command's effect keeps, the command keeps: all else it does is bookkeeping (R203). -/
theorem Numbered.command {hd} {x : Plan} (h : Numbered s) (hgo : ∀ ls f t, Numbered t → Numbered (x.go ls f t)) :
    Numbered (command hd x s) := by
  unfold Machine.command
  dsimp only
  split
  · exact h
  · split
    · exact h.headFault
    · split
      · exact h
      · split
        · exact h.headPark.noteFail
        · exact h.headFault.noteFail
        · exact h
        · split
          · exact h.headFault
          · exact (hgo _ _ _ h.startFlight.stampStart).noteAll.ite h

theorem Numbered.goOrWait {p f} {go : State → State} (h : Numbered s) (hgo : ∀ t, Numbered t → Numbered (go t)) :
    Numbered (goOrWait p f go s) :=
  h.modFlight.ite (hgo _ h)

/-! ### Stage queues, the Clamp engine and the queue commands -/

theorem Numbered.modQ {p desc f} (h : Numbered s) : Numbered (s.modQ p desc f) := h.modCore.ite h.mapBents

theorem Numbered.putPieces {p ps bs} (h : Numbered s) : Numbered (s.putPieces p ps bs) := by
  induction ps generalizing s bs with
  | nil => exact h
  | cons x ps ih => exact ih h.writeLoc

theorem Numbered.refill {p q f} (h : Numbered s) (e : s.refill p q = some (t, f)) : Numbered t := by
  unfold State.refill at e
  split at e
  · split at e
    · cases e; exact h.putPieces
    · cases e
  · cases e

theorem Numbered.refillQ {p q} (h : Numbered s) : Numbered (s.refillQ p q) := by
  unfold State.refillQ
  split
  · next e => exact (h.refill e).modQ
  · exact h

theorem Numbered.refills {p desc n} (h : Numbered s) : Numbered (s.refills p desc n) := by
  induction n generalizing s with
  | zero => exact h
  | succ n ih =>
    unfold State.refills
    split
    · exact (ih h.refillQ).ite h
    · exact h

theorem Numbered.spillQ {p q} (h : Numbered s) : Numbered (s.spillQ p q) := by
  unfold State.spillQ
  dsimp only
  split
  · exact h.putPieces.modQ
  · exact h

theorem Numbered.reserveQ {p desc} (h : Numbered s) : Numbered (s.reserveQ p desc).1 := by
  unfold State.reserveQ
  dsimp only
  split
  · exact h
  · split
    · split
      · split
        · exact h.refills.modQ
        · exact h.refills
      · exact h.refills
    · split
      · split
        · split
          · exact h.refills.spillQ.modQ
          · exact h.refills.spillQ
        · exact h
      · exact h.refills

theorem Numbered.claimQ {p desc} (h : Numbered s) : Numbered (s.claimQ p desc).1 := by
  unfold State.claimQ
  dsimp only
  split
  · exact h.modQ
  · exact h

theorem Numbered.wdRestart {p} (h : Numbered s) : Numbered (s.wdRestart p) := by
  unfold State.wdRestart
  split
  · exact h.modLq
  · exact h

theorem Numbered.commitQ {p desc i} (h : Numbered s) : Numbered (s.commitQ p desc i) := h.modQ.wdRestart

theorem Numbered.releaseQ {p desc i} (h : Numbered s) : Numbered (s.releaseQ p desc i) := h.modQ.refills.wdRestart

theorem Numbered.putQ {p q} (h : Numbered s) : Numbered (s.putQ p q) := by
  unfold State.putQ
  dsimp only
  split
  · exact h.modCore.mapBents.modCore
  · split
    · exact h.modCore.mapBents.modBent
    · exact h.modCore.mapBents

theorem Numbered.writeBack {p q l} (h : Numbered s) : Numbered (s.writeBack p q l) := h.writeHome

theorem Numbered.qDo {p op desc l} (h : Numbered s) : Numbered (s.qDo p op desc l).1 := by
  unfold State.qDo
  extract_lets addr
  split
  · dsimp only
    split
    · exact h.putQ
    · exact h
  · exact h.claimQ
  · exact h.reserveQ
  · dsimp only
    split
    · exact h.releaseQ
    · exact h
  · dsimp only
    split
    · exact h.commitQ
    · exact h
  · split
    · exact h.writeBack
    · exact h

theorem Numbered.storeResult {p r ls} (h : Numbered s) : Numbered (s.storeResult p r ls) := by
  unfold State.storeResult
  split
  · exact h.writeHome.grant
  · exact h

theorem Numbered.queueGo {p op d f ls} (h : Numbered s) : Numbered (s.queueGo p op d f ls) := by
  unfold State.queueGo
  dsimp only
  split
  · exact h.flightFault
  · exact (h.qDo.storeResult.finish.clearL1.ite h.qDo.storeResult.finish).ite h.modFlight
  · exact h.finish

theorem Numbered.queueCmd {op hd desc resa} (h : Numbered s) : Numbered (queueCmd op hd desc resa s) :=
  h.command fun _ _ _ hs => hs.goOrWait fun _ ht => ht.queueGo

theorem Numbered.execClampRefill {b n} (h : Numbered s) : NumberedOut (execClampRefill b n s) := by
  unfold Machine.execClampRefill
  refine .next ?_
  split
  · split
    · next e => exact (h.refill e).modBent
    · exact h
  · exact h

/-! ### Chains, tokens, counters and flow commands -/

theorem Numbered.modChain {p e f} (h : Numbered s) : Numbered (s.modChain p e f) := h.modEng

theorem Numbered.usedWords {p va n} (h : Numbered s) : Numbered (s.usedWords p va n) := by
  induction n generalizing s va with
  | zero => exact h
  | succ n ih =>
    refine ih ?_
    split
    · exact h.used
    · exact h

theorem Numbered.chainFault {p e code va} (h : Numbered s) : Numbered (s.chainFault p e code va) :=
  h.engRecord.modChain

theorem Numbered.chainPark {p e cause va} (h : Numbered s) : Numbered (s.chainPark p e cause va) := by
  unfold State.chainPark
  exact h.reportPage.modChain

theorem Numbered.takeCmd {p e ws} (h : Numbered s) : Numbered (s.takeCmd p e ws) := by
  unfold State.takeCmd
  dsimp only
  split
  · exact h.modEng.modChain
  · exact h.modEng.modChain
  · exact h.modEng.modChain.ite (h.modEng.modChain.ite h.modChain)
  · exact h.modEng.modChain

theorem Numbered.execChainBlockFetch {p e} (h : Numbered s) : NumberedOut (execChainBlockFetch p e s) := by
  unfold Machine.execChainBlockFetch
  dsimp only
  refine .next ?_
  split
  · exact h
  · split
    · exact (h.ite h.modChain).chainFault
    · exact (h.ite h.modChain).note.note.usedWords.takeCmd
    · exact (h.ite h.modChain).noteFail.chainPark
    · exact (h.ite h.modChain).noteFail.chainFault

theorem Numbered.execSequenceAdvance {p e} (h : Numbered s) : NumberedOut (execSequenceAdvance p e s) := by
  unfold Machine.execSequenceAdvance
  dsimp only
  refine .next ?_
  split
  · exact h
  · exact h.ite h.modChain

theorem Numbered.execTokenPush {p n} (h : Numbered s) : NumberedOut (execTokenPush p n s) := by
  unfold Machine.execTokenPush
  dsimp only
  refine .next ?_
  split
  · exact h
  · split
    · exact h
    · have pushed {e t} : CoreNumbered ((s.core p).pushToken e t) := h.core p
      exact .ite (h.setCore (CoreNumbered.modFlight pushed).sweep) h

theorem Numbered.addAt {p l inc} (h : Numbered s) : Numbered (s.addAt p l inc) := h.writeHome

theorem Numbered.execCounterAdd {p n} (h : Numbered s) : NumberedOut (execCounterAdd p n s) := by
  unfold Machine.execCounterAdd
  dsimp only
  refine .next ?_
  split
  · exact h
  · split
    · exact h
    · exact h.addAt.sweepFlight.ite h

theorem Numbered.csigGo {p inc f ls} (h : Numbered s) : Numbered (s.csigGo p inc f ls) := by
  unfold State.csigGo
  split
  · exact h.addAt.modFlight.finish.ite h.modFlight
  · exact h.finish

theorem Numbered.execCwait {hd ctr target} (h : Numbered s) : NumberedOut (execCwait hd ctr target s) :=
  .next (h.command fun _ _ _ ht => (ht.foldl fun _ _ hu => hu.used).goOrWait fun _ hu => hu.finish)

theorem Numbered.execCseq {hd addr val} (h : Numbered s) : NumberedOut (execCseq hd addr val s) := by
  unfold Machine.execCseq
  refine .next (h.command fun _ _ _ ht => ?_)
  refine .finish ?_
  split
  · exact ht.writeHome.grant
  · exact ht

theorem Numbered.chainCmd {hd} (h : Numbered s) : Numbered (chainCmd hd s) :=
  h.command fun _ _ _ hs => hs.goOrWait fun _ ht => ht.finish

theorem Numbered.postRecord {q r} (h : Numbered s) : Numbered (s.postRecord q r) := h.writeSup.modLq

/-! ### The Plumb unit -/

theorem Numbered.modSym {p n f} (h : Numbered s) : Numbered (s.modSym p n f) := h.modCore

theorem Numbered.closeWindow {p n} (h : Numbered s) : Numbered (s.closeWindow p n) := (h.event.ite h).modSym.ite h

theorem Numbered.execWindowClose {p n} (h : Numbered s) : NumberedOut (execWindowClose p n s) :=
  .next (h.ite h.closeWindow)

theorem Numbered.sample {p n lat} (h : Numbered s) : Numbered (s.sample p n lat) :=
  h.closeWindow.modSym.ite h.closeWindow

theorem Numbered.installBindings {p} (h : Numbered s) : Numbered (s.installBindings p) := h.modCore.event

/-! ### Stochastic generators -/

theorem Numbered.modRng {p f} (h : Numbered s) : Numbered (s.modRng p f) := h.modCore

/-! ### Copies and reducing copies -/

theorem Numbered.writeBytes {p ls bs} (h : Numbered s) : Numbered (s.writeBytes p ls bs) := by
  induction ls generalizing s bs with
  | nil => exact h
  | cons l ls ih =>
    cases bs with
    | nil => exact h
    | cons b bs => exact ih h.writeHome

theorem Numbered.usedSrc {p n x} (h : Numbered s) : Numbered (s.usedSrc p n x) := by
  unfold State.usedSrc
  dsimp only
  split
  · split
    · refine .grant (.used ?_)
      split
      · exact h.used.grant
      · exact h
    · split
      · exact h.used.grant
      · exact h
  · exact h

theorem Numbered.moved {p j k n} (h : Numbered s) : Numbered (s.moved p j k n) := h.noteAll.noteAll.count

theorem Numbered.storeBytes {p ls bs} (h : Numbered s) : Numbered (s.storeBytes p ls bs) :=
  h.writeBytes.foldl fun _ _ ht => ht.grant

theorem Numbered.copyLoop {p j get n k} (h : Numbered s) : Numbered (copyLoop p j get n k s).1 := by
  induction n generalizing s k with
  | zero => exact h
  | succ n ih =>
    unfold Machine.copyLoop
    split
    · exact h
    · split
      · exact h
      · exact ih (h.ite h.usedSrc).storeBytes

theorem Numbered.copyDone {p f t} (h : Numbered s) : Numbered (s.copyDone p f t) := (h.sample.ite h).finish

theorem Numbered.usedAll {p j k} (h : Numbered s) : Numbered (s.usedAll p j k) :=
  (h.foldl fun _ _ ht => ht.usedSrc).ite h

theorem Numbered.runJob {p f tag j} (h : Numbered s) : Numbered (runJob p f tag j s) := by
  unfold Machine.runJob
  dsimp only
  split
  · next e => exact (h.usedAll.copyLoop.of_eq e).moved.copyDone
  · next e =>
    have copied := h.usedAll.copyLoop.of_eq e
    split
    · exact copied.moved.noteFail.flightPark
    · exact copied.moved.noteFail.flightFault

theorem Numbered.copyCmd {hd t ctr inc mk} (h : Numbered s) : Numbered (copyCmd hd t ctr inc mk s) :=
  h.command fun _ _ _ hs => hs.goOrWait fun _ hu => hu.runJob

theorem Numbered.execCpyn {hd c} (h : Numbered s) : NumberedOut (execCpyn hd c s) :=
  .next (h.command fun _ _ _ hu => (hu.modFlight.foldl fun _ _ ht => ht.used).goOrWait fun _ hs => hs.runJob)

theorem Numbered.allocLine {line} (h : Numbered s) : Numbered (s.allocLine line) := h.frame

theorem Numbered.prefLoop {p va n} (h : Numbered s) : Numbered (prefLoop p va n s) := by
  induction n generalizing s va with
  | zero => exact h
  | succ n ih =>
    refine ih ?_
    split
    · split
      · exact h.allocLine.ite h
      · exact h
    · exact h

theorem Numbered.runPref {p f c} (h : Numbered s) : Numbered (runPref p f c s) := h.prefLoop.noteAll.count.copyDone

theorem Numbered.applyElems {p f rop l bs n} (h : Numbered s) : Numbered (applyElems p f rop l bs n s) := by
  induction n generalizing s l bs with
  | zero => exact h
  | succ n ih => exact ih h.writeHome

theorem Numbered.rcpyLoop {p ord f c count k0 n k} (h : Numbered s) :
    Numbered (rcpyLoop p ord f c count k0 n k s).1 := by
  induction n generalizing s k with
  | zero => exact h
  | succ n ih =>
    unfold Machine.rcpyLoop
    dsimp only
    split
    · exact h
    · split
      · exact h
      · split
        · exact h
        · split
          · exact h
          · exact ih (h.modCore.ite h.modCore).usedSrc

theorem Numbered.runRcpy {p f c} (h : Numbered s) : Numbered (runRcpy p f c s) := by
  unfold Machine.runRcpy
  split
  · exact h
  · extract_lets r e s1
    have hr : Numbered r.1 := h.rcpyLoop
    have hs1 : Numbered s1 := hr.moved.modFlight
    refine hs1.ite ?_
    split
    · exact hs1.copyDone
    · split
      · exact hs1.noteFail.flightPark
      · exact hs1.noteFail.flightFault

theorem Numbered.rcpyDone {p ord} (h : Numbered s) : Numbered (s.rcpyDone p ord) := by
  unfold State.rcpyDone
  split
  · exact h
  · split
    · exact h.runRcpy.ite h
    · exact h

theorem Numbered.modChunk {p seq f} (h : Numbered s) : Numbered (s.modChunk p seq f) := h.modCore

theorem Numbered.loseChunk {p x} (h : Numbered s) : Numbered (s.loseChunk p x) := by
  unfold State.loseChunk
  dsimp only
  split
  · split
    · exact h.modCore.ite h.modCore.flightFault
    · exact h.modCore
  · exact h

theorem Numbered.execChunkApply {p seq} (h : Numbered s) : NumberedOut (execChunkApply p seq s) := by
  unfold Machine.execChunkApply
  dsimp only
  refine .next ?_
  split
  · exact h
  · split
    · exact h
    · split
      · exact h.loseChunk
      · split
        · exact h.modChunk
        · split
          · exact h.modChunk
          · exact h.modChunk.applyElems.frame

theorem Numbered.execChunkResend {p seq} (h : Numbered s) : NumberedOut (execChunkResend p seq s) := by
  unfold Machine.execChunkResend
  refine .next ?_
  split
  · exact h.modChunk.ite h
  · exact h

theorem Numbered.execChunkAcknowledgement {p seq} (h : Numbered s) :
    NumberedOut (execChunkAcknowledgement p seq s) := by
  unfold Machine.execChunkAcknowledgement
  refine .next ?_
  split
  · exact h.ite (h.loseChunk.ite (h.modChunk.rcpyDone.ite h))
  · exact h

theorem Numbered.execAcknowledgementConfirmation {p seq} (h : Numbered s) :
    NumberedOut (execAcknowledgementConfirmation p seq s) := by
  have erased := h.modCore (p := p) (f := fun c => { c with chunks := eraseFirst (fun y => y.seq == seq) c.chunks })
  unfold Machine.execAcknowledgementConfirmation
  refine .next ?_
  split
  · exact erased.frame.ite h
  · exact h

/-! ### Pod streams -/

theorem Numbered.modStream {y n f} (h : Numbered s) : Numbered (s.modStream y n f) := h.modBay

theorem Numbered.modSub {p n f} (h : Numbered s) : Numbered (s.modSub p n f) := h.modCore

theorem Numbered.unbind {y n} (h : Numbered s) : Numbered (s.unbind y n) := h.modStream.ite h

theorem Numbered.endSub {p n} (h : Numbered s) : Numbered (s.endSub p n) :=
  (h.modSub.unbind.foldl fun _ _ ht => ht.finish).ite h

theorem Numbered.psubGo {p c f} (h : Numbered s) : Numbered (s.psubGo p c f) :=
  h.modStream.modSub.finish.ite h.flightFault

theorem Numbered.punsGo {p strm f} (h : Numbered s) : Numbered (s.punsGo p strm f) := h.modSub.endSub.ite h.finish

theorem Numbered.dropFeed {y n} (h : Numbered s) : Numbered (s.dropFeed y n) := h.modStream

theorem Numbered.cpypDone {p ord} (h : Numbered s) : Numbered (s.cpypDone p ord) := by
  unfold State.cpypDone
  dsimp only
  split
  · exact h
  · split
    · exact h.ite h.copyDone
    · exact h

theorem Numbered.cpypsDone {y n} (h : Numbered s) : Numbered (s.cpypsDone y n) :=
  h.foldl fun _ _ ht => ht.foldl fun _ _ hu => hu.cpypDone

theorem Numbered.feedStream {y n k} (h : Numbered s) : Numbered (s.feedStream y n k) := by
  induction k generalizing s with
  | zero => exact h
  | succ k ih =>
    unfold State.feedStream
    dsimp only
    split
    · exact h
    · split
      · exact h
      · split
        · exact ih h.dropFeed
        · split
          · refine .ite (ih h.dropFeed.cpypDone) (.ite h ?_)
            split
            · exact ih h.modStream.modFlight.usedSrc
            · exact h.noteFail.flightPark
            · exact ih h.dropFeed.noteFail.flightFault
          · exact ih h.dropFeed

theorem Numbered.noteFed {x} (ht : Numbered t) : Numbered (s.noteFed t x) := by
  unfold State.noteFed
  dsimp only
  split
  · exact ht
  · split
    · exact ht.noteAll.count
    · exact ht

theorem Numbered.feed {y n} (h : Numbered s) : Numbered (s.feed y n) := h.feedStream.foldl fun _ _ ht => ht.noteFed

theorem Numbered.runCpyp {p f c} (h : Numbered s) : Numbered (runCpyp p f c s) := h.copyDone.ite h.feed

theorem Numbered.execCpyp {hd c} (h : Numbered s) : NumberedOut (execCpyp hd c s) :=
  .next (h.command fun _ _ _ ht => (ht.modFlight.ite ht.modFlight.modStream).goOrWait fun _ hs => hs.runCpyp)

theorem Numbered.execPodRowDelivery {y n} (h : Numbered s) : NumberedOut (execPodRowDelivery y n s) := by
  unfold Machine.execPodRowDelivery
  dsimp only
  refine .next ?_
  split
  · exact h.feed.cpypsDone
  · split
    · exact h
    · exact h.writeLoc.grant.modSub.modStream.feed.cpypDone.endSub.unbind

theorem Numbered.dropRows {p n y} (h : Numbered s) : Numbered (State.dropRows p n s y) := by
  unfold State.dropRows
  extract_lets i owed s1 s2
  have hs2 : Numbered s2 := h.modStream.foldl fun _ _ hu => hu.modFlight
  exact (hs2.feed.foldl fun _ _ hu => hu.cpypDone).unbind

theorem Numbered.dropSubs {p} (h : Numbered s) : Numbered (s.dropSubs p) :=
  h.foldl fun _ _ ht => (ht.modSub.foldl fun _ _ hs => hs.dropRows).ite ht

theorem Numbered.dropStreams {gid} (h : Numbered s) : Numbered (s.dropStreams gid) := h.frame

/-! ### The matrix engine -/

theorem Numbered.consume {p n k} (h : Numbered s) : Numbered (s.consume p n k) := h.ite h.modSub

theorem Numbered.grantRows {p rows} (h : Numbered s) : Numbered (s.grantRows p rows) :=
  h.foldl fun _ _ ht => ht.grant

theorem Numbered.readA {p f a sa k} (h : Numbered s) : Numbered (s.readA p f a sa k) := h.grantRows

theorem Numbered.readB {p f kstep qm pod b sb k} (h : Numbered s) : Numbered (s.readB p f kstep qm pod b sb k) :=
  h.grantRows

theorem Numbered.mgoFault {p r code va} (h : Numbered s) : Numbered (s.mgoFault p r code va) := by
  unfold State.mgoFault
  dsimp only
  refine .modMe (.consume ?_)
  split
  · exact h.flightFault
  · exact h

theorem Numbered.mgoApply {p r x aRows aSc held} (h : Numbered s) : Numbered (s.mgoApply p r x aRows aSc held) := by
  unfold State.mgoApply
  dsimp only
  split
  · exact h.modMe.count
  · exact h.modMe.consume.count.finish

theorem Numbered.dropA {p r} (h : Numbered s) : Numbered (s.dropA p r) := h.consume.modMe.ite h

theorem Numbered.mgoStep {p r} (h : Numbered s) : Numbered (s.mgoStep p r) := by
  unfold State.mgoStep
  dsimp only
  split
  · split
    · exact h.mgoFault
    · exact h.modMe
    · exact h.modMe
  · split
    · split
      · exact h.dropA.mgoFault
      · exact h.dropA.modMe
      · exact h.dropA.readA.mgoApply
    · exact h.mgoApply

theorem Numbered.loadAhead {p r} (h : Numbered s) : Numbered (s.loadAhead p r) := by
  unfold State.loadAhead
  dsimp only
  split
  · exact h
  · split
    · exact h.readB.consume.modMe
    · exact h

theorem Numbered.loadMbld {p ord c} (h : Numbered s) : Numbered (s.loadMbld p ord c) := by
  unfold State.loadMbld
  dsimp only
  split
  · exact h.readB.consume.modMe.finish
  · exact h.modMe
  · split
    · exact h.flightFault.modMe
    · exact h

theorem Numbered.execBBlockLoad {p} (h : Numbered s) : NumberedOut (execBBlockLoad p s) := by
  unfold Machine.execBBlockLoad
  refine .next ?_
  split
  · exact h
  · split
    · split
      · exact h.loadMbld
      · split
        · exact h.loadAhead
        · exact h
    · exact h.loadAhead
    · exact h

theorem Numbered.drainStep {p ord i} (h : Numbered s) : Numbered (s.drainStep p ord i) := by
  unfold State.drainStep
  dsimp only
  split
  · exact h
  · split
    · split
      · exact h
      · split
        · exact h.noteFail.flightPark
        · exact h.noteFail.flightFault.modMe
        · split
          · exact h.flightFault.modMe
          · split
            · exact h
            · split
              · exact (h.writeBytes.writeBytes.foldl fun _ _ ht => ht.grant).noteAll.modRng.modMe
              · exact (h.writeBytes.writeBytes.foldl fun _ _ ht => ht.grant).noteAll.modRng.modMe.finish
    · exact h

theorem Numbered.execMeStep {p} (h : Numbered s) : NumberedOut (execMeStep p s) := by
  unfold Machine.execMeStep
  refine .next ?_
  split
  · exact h
  · split
    · exact h.drainStep
    · exact h.mgoStep
    · exact h

/-! ### Furrow row operations -/

theorem Numbered.modCtl {stack f} (h : Numbered s) : Numbered (s.modCtl stack f) := h.modBent

theorem Numbered.dropLlc {a n} (h : Numbered s) : Numbered (s.dropLlc a n) := h.frame

theorem Numbered.furRow {g dst srcs i} (h : Numbered s) : Numbered (s.furRow g dst srcs i) := h.writePhys

theorem Numbered.furEnter {f} (h : Numbered s) : Numbered (s.furEnter f) := (h.foldl fun _ _ ht => ht.dropLlc).modCtl

theorem Numbered.furForward {p ord f} (h : Numbered s) : Numbered (s.furForward p ord f) :=
  h.furEnter.modFlight.ite h.modFlight

theorem Numbered.furNote {p f record} (h : Numbered s) : Numbered (s.furNote p f record) := h.noteAll

theorem Numbered.furGo {p fl f ones record} (h : Numbered s) : Numbered (s.furGo p fl f ones record) := by
  unfold State.furGo
  dsimp only
  split
  · exact h.furForward
  · split
    · exact h.modFlight
    · refine .furNote ?_
      split
      · exact h.flightPark
      · split
        · split
          · exact h.flightFault.modCtl
          · exact h.flightFault
        · exact h.flightHold
      · split
        · split
          · exact h.flightFault.modCtl
          · exact h.flightFault
        · exact h.flightHold
      · exact h.furForward

theorem Numbered.furRecord {f} (h : Numbered s) : Numbered (s.furRecord f) := by
  unfold State.furRecord
  dsimp only
  split
  · exact h.writeHome.grant
  · exact h

theorem Numbered.furFinish {f} (h : Numbered s) : Numbered (s.furFinish f) := by
  unfold State.furFinish
  split
  · split
    · exact h.addAt
    · exact h
  · exact h.finish

theorem Numbered.fqryGo {p fl f res} (h : Numbered s) : Numbered (s.fqryGo p fl f res) := by
  unfold State.fqryGo
  dsimp only
  split
  · exact h.modFlight
  · split
    · exact h.flightPark
    · exact h.flightFault
    · refine .finish (.furNote ?_)
      split
      · exact h.writeHome.grant
      · exact h

theorem Numbered.furrow {hd opc f srcs ones} (h : Numbered s) : Numbered (furrow hd opc f srcs ones s) :=
  h.command fun _ _ _ ht => ht.goOrWait fun _ hu => hu.furGo

/-! ### Station orders -/

theorem Numbered.sta {f o} (h : Numbered s) : Numbered (State.sta f o s) := h.modVe.modRng

theorem Numbered.staMask {f o} (h : Numbered s) : Numbered (State.staMask f o s) := h.modVe

theorem Numbered.stationAct {i f} (e : stationAct i = some f) (h : Numbered s) : Numbered (f s) := by
  cases i <;> cases e
  case vcmp | vmask => exact h.staMask
  all_goals exact h.sta

/-! ### The vector engine -/

theorem Numbered.tryEnd {p} (h : Numbered s) : Numbered (s.tryEnd p) := by
  unfold State.tryEnd
  dsimp only
  split
  · exact h.modVe
  · split
    · refine .finish ?_
      split
      · exact (h.foldl fun _ _ hs => hs.dropTicket).modVe.finish
      · exact (h.foldl fun _ _ hs => hs.dropTicket).modVe
    · split
      · exact (h.foldl fun _ _ hs => hs.dropTicket).modVe.finish
      · exact (h.foldl fun _ _ hs => hs.dropTicket).modVe

theorem Numbered.tallyFreeze {p} (h : Numbered s) : Numbered (s.tallyFreeze p) := h.modVe.modCore.count.ite h

theorem Numbered.freeze {p} (h : Numbered s) : Numbered (s.freeze p) := h.tallyFreeze.modVe

theorem Numbered.thaw {p} (h : Numbered s) : Numbered (s.thaw p) := h.tallyFreeze.modVe

theorem Numbered.endRun {p fault} (h : Numbered s) : Numbered (s.endRun p fault) := by
  unfold State.endRun
  dsimp only
  refine .tryEnd ?_
  split
  · exact h.thaw.modVe.modFlight.ite h.thaw.modVe
  · exact h.thaw.modVe

theorem Numbered.veFault {p ws pc code va elem} (h : Numbered s) : Numbered (s.veFault p ws pc code va elem) :=
  h.engRecord.endRun

theorem Numbered.loadTable {p f c} (h : Numbered s) : Numbered (s.loadTable p f c) := by
  unfold State.loadTable
  split
  · exact h.modFlight
  · split
    · exact (h.foldl fun _ _ ht => ht.used).modVe.modFlight.noteAll
    · exact h.noteFail.flightPark
    · exact h.noteFail.veFault.ite h.flightHold

theorem Numbered.startRun {p f hd c} (h : Numbered s) : Numbered (s.startRun p f hd c) := h.modRng.modVe.loadTable

theorem Numbered.stationsOf {ws l x} (hx : x ∈ stationsOf ws l) (h : Numbered s) : Numbered (x.2 s) := by
  obtain ⟨y, -, e⟩ := List.mem_filterMap.1 hx
  obtain ⟨f, act, rfl⟩ := Option.map_eq_some_iff.1 e
  exact h.stationAct act

theorem Numbered.execSrd {o} (h : Numbered s) : NumberedOut (execSrd o s) := by
  unfold Machine.execSrd
  dsimp only
  refine .next ?_
  split
  · exact h.modVe
  · exact h.veFault

theorem Numbered.execSwr {o} (h : Numbered s) : NumberedOut (execSwr o s) := by
  unfold Machine.execSwr
  dsimp only
  refine .next ?_
  split
  · exact h.modVe
  · exact h.veFault

theorem Numbered.timeSet {p o} (h : Numbered s) : Numbered (s.timeSet p o) := h.modVe

theorem Numbered.clampEvent {p} (h : Numbered s) : Numbered (s.clampEvent p) := h.event.modVe.ite h

theorem Numbered.timeAct {p o} (h : Numbered s) : Numbered (s.timeAct p o) := h.timeSet.clampEvent

theorem Numbered.runStations {ws l} (h : Numbered s) : Numbered (runStations (Machine.stationsOf ws l) s) := by
  refine h.foldl fun _ _ ht => ?_
  split
  · next found => exact ht.stationsOf (List.mem_of_find?_eq_some found)
  · exact ht

theorem Numbered.setDue {p} (h : Numbered s) : Numbered (s.setDue p) := by
  unfold State.setDue
  split
  · exact h.timeSet
  · exact h.modVe

theorem Numbered.issueBundle {p ws l} (h : Numbered s) : Numbered (s.issueBundle p ws l) := by
  unfold State.issueBundle
  dsimp only
  split
  · exact h.modVe.runStations.modVe.count.endRun
  · exact h.modVe.runStations.modVe.count.modVe.setDue
  · exact h.modVe.runStations.modVe.count.modVe.setDue
  · exact h.modVe.runStations.modVe.count.setDue

theorem Numbered.safeRecord {p type bit sub x extra} (h : Numbered s) :
    Numbered (s.safeRecord p type bit sub x extra) :=
  h.emit.ite h

theorem Numbered.bundleIssue {p} (h : Numbered s) : Numbered (s.bundleIssue p) := by
  unfold State.bundleIssue
  extract_lets t v ws? ws cut stop
  have ht : Numbered t := h.modVe
  refine ht.thaw.modVe.ite ?_
  split
  · exact ht.veFault
  · exact ht.thaw.modVe.ite (ht.freeze.ite ht.thaw.clampEvent.issueBundle)

theorem Numbered.execBundleIssue {p} (h : Numbered s) : NumberedOut (execBundleIssue p s) :=
  .next (h.modSched.bundleIssue.ite h)

theorem Numbered.execCutDrain {p} (h : Numbered s) : NumberedOut (execCutDrain p s) := by
  unfold Machine.execCutDrain
  dsimp only
  refine .next ?_
  split
  · exact h
  · split
    · exact h.modVe
    · split
      · exact (h.installBindings.ite h).endRun
      · split
        · exact (h.installBindings.ite h).safeRecord.modVe
        · exact (h.installBindings.ite h).modVe

theorem Numbered.walkPark {p n code cause va} (h : Numbered s) : Numbered (s.walkPark p n code cause va) :=
  h.reportPage.modVe

theorem Numbered.walkFault {p n va} (h : Numbered s) : Numbered (s.walkFault p n va) := h.modVe.veFault

theorem Numbered.readIndex {p n} (h : Numbered s) : Numbered (s.readIndex p n) := by
  unfold State.readIndex
  dsimp only
  split
  · exact h.noteFail.walkPark
  · exact h.noteFail.walkFault
  · exact h.used.modVe.note

theorem Numbered.execWalkRequest {p q} (h : Numbered s) : NumberedOut (execWalkRequest p q s) := by
  unfold Machine.execWalkRequest
  dsimp only
  refine .next ?_
  split
  · exact h
  · split
    · exact h
    · split
      · exact h.readIndex
      · split
        · exact h.noteFail.walkPark
        · exact h.noteFail.walkFault
        · exact h.modVe.note

theorem Numbered.execVectorLanding {p q} (h : Numbered s) : NumberedOut (execVectorLanding p q s) := by
  unfold Machine.execVectorLanding
  refine .next ?_
  split
  · exact h
  · refine h.ite (.ite (h.modVe.veFault.ite h) ?_)
    extract_lets s1 s2
    have hs1 : Numbered s1 := h.used.grant.modVe
    have hs2 : Numbered s2 := by
      unfold s2
      split
      · exact hs1.sample
      · exact hs1
    exact hs2.tryEnd.ite hs2

theorem Numbered.execWriteWalkWrite {p q} (h : Numbered s) : NumberedOut (execWriteWalkWrite p q s) := by
  unfold Machine.execWriteWalkWrite
  dsimp only
  refine .next ?_
  split
  · split
    · exact h
    · split
      · exact h.readIndex
      · split
        · exact h.noteFail.walkPark
        · exact h.noteFail.walkFault
        · exact (h.writeHome.grant.modVe.tryEnd.ite h.writeHome.grant.modVe).note
  · exact h

/-! ### Performing what a context has issued -/

theorem Numbered.loseAccess {p k i} (h : Numbered s) (e : s.loseAccess p k i = some t) : Numbered t := by
  have filled : Numbered (s.modCore p fun c => c.fill k i.id i.dst (Config.lostValue s.sched.tick)) :=
    h.modCore fun _ hc => hc.fill
  unfold State.loseAccess at e
  dsimp only at e
  split at e
  · cases e
  · split at e
    · cases e; exact filled.trap
    · cases e; exact filled.report

theorem Numbered.dropPend {p k id} (h : Numbered s) : Numbered (s.dropPend p k id) :=
  h.modCtx fun _ hx => hx.sublist fun _ hi => (List.mem_filter.1 hi).1

theorem Numbered.performItem {p k i} (h : Numbered s) (e : s.performItem p k i = some t) : Numbered t := by
  have filled : ∀ u v, Numbered u → Numbered (u.modCore p fun c => c.fill k i.id i.dst v) :=
    fun _ _ hu => hu.modCore fun _ hc => hc.fill
  unfold State.performItem at e
  dsimp only at e
  split at e
  · cases e; exact filled _ _ h.dropPend
  · split at e
    · exact h.dropPend.loseAccess e
    · cases e
      split
      · exact filled _ _ h.dropPend
      · exact filled _ _ h.dropPend.loadScalar.grant
  · split at e
    · exact h.dropPend.loseAccess e
    · split at e
      · cases e
      · cases e; exact h.dropPend.storeScalar.grant
  · split at e
    · exact h.dropPend.loseAccess e
    · cases e; exact filled _ _ h.dropPend.writeHome.grant
  · cases e

theorem Numbered.drainCtx {p k n} (h : Numbered s) : Numbered (s.drainCtx p k n) := by
  induction n generalizing s with
  | zero => exact h
  | succ n ih =>
    unfold State.drainCtx
    dsimp only
    split
    · exact h
    · split
      · next e => exact ih (h.performItem e).settle
      · exact h

theorem applyComb_combNext (s : State) (p q : CoreId) (e : Comb) :
    ((s.applyComb p e).core q).combNext = (s.core q).combNext := by
  unfold State.applyComb
  split
  · rw [core_report]
  · rw [(atHomes_writeHome ..).cores]

/-- An entry that leaves the buffer, or stays for want of room, keeps its number. -/
theorem Numbered.flushOne {p e} (h : Numbered s) (he : e.id < (s.core p).combNext) :
    Numbered (State.flushOne p s e) ∧ ((State.flushOne p s e).core p).combNext = (s.core p).combNext := by
  unfold State.flushOne
  split
  · refine ⟨h.setCore ⟨(h.core p).1, fun x hx => ?_, (h.core p).2.2⟩, by rw [core_modCore]⟩
    rcases List.mem_append.1 hx with hx | hx
    · exact (h.core p).2.1 x hx
    · exact List.mem_singleton.1 hx ▸ he
  · exact ⟨h.applyComb, applyComb_combNext s p p e⟩

theorem Numbered.flushEach {p} {l : List Comb} (h : Numbered s) (hl : ∀ e ∈ l, e.id < (s.core p).combNext) :
    Numbered (l.foldl (State.flushOne p) s) := by
  induction l generalizing s with
  | nil => exact h
  | cons e l ih =>
    obtain ⟨flushed, next⟩ := h.flushOne (hl e List.mem_cons_self)
    exact ih flushed fun x hx => next ▸ hl x (List.mem_cons_of_mem _ hx)

theorem Numbered.flushComb {p} (h : Numbered s) : Numbered (s.flushComb p) := by
  have emptied := h.modCore (p := p) (f := fun c => { c with comb := [] }) fun _ hc => hc.comb (List.nil_subset _)
  exact (emptied.flushEach fun e he => by rw [core_modCore]; exact (h.core p).2.1 e he).settle

theorem Numbered.drain {p} (h : Numbered s) : Numbered (s.drain p) :=
  (h.foldl fun _ _ ht => ht.drainCtx).flushComb.foldl fun _ _ ht => ht.drainCtx

/-! ### Launch queues, gangs and the watchdog -/

theorem Numbered.supWrite {va v} (h : Numbered s) : Numbered (s.supWrite va v) := by
  unfold State.supWrite
  split
  · exact h.ite h.writeSup
  · exact h

theorem Numbered.supAdd {va} (h : Numbered s) : Numbered (s.supAdd va) := by
  unfold State.supAdd
  split
  · exact h.ite h.writeSup
  · exact h

theorem Numbered.outcomeNow {statusa donectr code} (h : Numbered s) : Numbered (s.outcomeNow statusa donectr code) :=
  (h.ite h.supWrite).ite ((h.ite h.supWrite).supAdd)

theorem Numbered.outcome {statusa donectr code} (h : Numbered s) : Numbered (s.outcome statusa donectr code) :=
  h.modLaunch.ite h.outcomeNow

theorem Numbered.separate {y} (h : Numbered s) : Numbered (s.separate y) := (h.foldl fun _ _ ht => ht.modCore).modBay

theorem Numbered.unfuse {y} (h : Numbered s) : Numbered (s.unfuse y) := h.ite (h.modBay.ite h.separate)

theorem Numbered.startGroup {p g keep} (h : Numbered s) : Numbered (s.startGroup p g keep) := by
  unfold State.startGroup
  split
  · split
    · exact h.dropSubs.unfuse.modCore fun _ hc => hc.groupStart
    · exact h
  · exact h

theorem Numbered.initDesc {g i} (h : Numbered s) : Numbered (s.initDesc g i) := by
  unfold State.initDesc
  dsimp only
  split
  · exact h
  · split
    · exact h
    · split
      · refine h.foldl fun _ _ ht => ?_
        split
        · exact ht.putQ
        · exact ht
      · exact h.putQ

theorem Numbered.dropFeeds {p} (h : Numbered s) : Numbered (s.dropFeeds p) := h.modBay

theorem Numbered.furAdds {p} (h : Numbered s) : Numbered (s.furAdds p) := by
  unfold State.furAdds
  refine h.foldl fun _ _ ht => ?_
  split
  · exact ht.addAt.ite ht
  · exact ht

theorem Numbered.orphanFur {p} (h : Numbered s) : Numbered (s.orphanFur p) := h.mapBents

theorem Numbered.leave {p} (h : Numbered s) : Numbered (s.leave p) := by
  unfold State.leave
  split
  · exact h
  · extract_lets s1 c s2
    have hs1 : Numbered s1 := h.tallyFreeze.drain.furAdds.orphanFur.dropSubs.dropFeeds
    have hs2 : Numbered s2 := (hs1.foldl fun _ _ hs => hs.dropTicket).unfuse
    exact hs2.modGang.modCore fun _ hc => hc.left

theorem Numbered.queueBackNow {q} (h : Numbered s) : Numbered (s.queueBackNow q) := by
  unfold State.queueBackNow
  split
  · exact h.writeBack.ite h
  · split
    · exact h.ite h.writeBack
    · exact h

theorem Numbered.queueBack {q} (h : Numbered s) : Numbered (s.queueBack q) := h.modLaunch.ite h.queueBackNow

theorem Numbered.payOwed (h : Numbered s) : Numbered s.payOwed := by
  unfold State.payOwed
  split
  · exact h
  · refine h.modLaunch.foldl fun _ _ ht => ?_
    split
    · exact ht.outcomeNow
    · exact ht.queueBackNow

theorem Numbered.dropQueues {g} (h : Numbered s) : Numbered (s.dropQueues g) :=
  (h.foldl fun _ _ hs => hs.queueBack).mapBents

theorem Numbered.endGang {gid code} (h : Numbered s) : Numbered (s.endGang gid code) := by
  unfold State.endGang
  dsimp only
  split
  · exact h
  · exact (h.foldl fun _ _ hs => hs.dropTicket).dropQueues.outcome.modLaunch.mapBents.modPm

theorem Numbered.killGang {gid code} (h : Numbered s) : Numbered (s.killGang gid code) := by
  unfold State.killGang
  split
  · exact h
  · exact (h.foldl fun _ _ hs => hs.leave).endGang

theorem Numbered.killPre {e code} (h : Numbered s) : Numbered (s.killPre e code) :=
  (h.foldl fun _ _ hs => hs.dropTicket).dropStreams.dropQueues.outcome.mapBents.modLaunch fun _ hl => hl.filter

theorem Numbered.sendPacket {p k} (h : Numbered s) : Numbered (s.sendPacket p k) := h.modGate.ite h.modBent

theorem Numbered.rechoose {gid from_ ks} (h : Numbered s) : Numbered (s.rechoose gid from_ ks) := by
  unfold State.rechoose
  refine h.foldl fun _ _ ht => ?_
  split
  · split
    · exact ht.sendPacket
    · exact ht
  · exact ht

theorem Numbered.retire {p} (h : Numbered s) : Numbered (s.retire p) := by
  unfold State.retire
  dsimp only
  split
  · exact h
  · split
    · exact h.wdRestart.modBent.leave.modGang.rechoose.endGang.ite h.wdRestart.modBent.leave.modGang.rechoose
    · exact h.wdRestart.modBent.leave.modGang.rechoose

theorem Numbered.fenceCore {p} (h : Numbered s) : Numbered (s.fenceCore p) := by
  unfold State.fenceCore
  dsimp only
  split
  · exact h.leave.modCore.endGang.ite h.leave.modCore
  · exact h.leave.modCore

theorem Numbered.popHead {q} (h : Numbered s) : Numbered (s.popHead q) := h.modLq

theorem Numbered.refuse {q v} (h : Numbered s) : Numbered (s.refuse q v) := by
  unfold State.refuse
  split
  · exact h.popHead.modLq
  · exact h.popHead.outcome
  · exact h

theorem Numbered.seat {gid cores groups} (h : Numbered s) : Numbered (s.seat gid cores groups) :=
  h.foldl fun _ _ ht => ht.modCore

theorem Numbered.placeGang {q a r cores} (h : Numbered s) : Numbered (s.placeGang q a r cores) := by
  unfold State.placeGang
  extract_lets gid g0 g idle s1 s2 s3 s4
  have hs2 : Numbered s2 := h.popHead.modLaunch.modLq.ite h.popHead.modLaunch
  have hs4 : Numbered s4 := hs2.seat.foldl fun _ _ ht => ht.initDesc
  exact hs4.foldl fun _ _ ht => ht.startGroup

theorem Numbered.watchHeads {heads} (h : Numbered s) : Numbered (s.watchHeads heads) := by
  unfold State.watchHeads
  dsimp only
  refine h.foldl fun _ _ ht => ?_
  split
  · exact ht.modLq
  · exact ht.modLq

theorem Numbered.execGangPlacement (h : Numbered s) : NumberedOut (execGangPlacement s) := by
  unfold Machine.execGangPlacement
  dsimp only
  refine .next ?_
  split
  · exact h
  · split
    · exact h.refuse
    · split
      · exact h.watchHeads
      · split
        · exact h.watchHeads.placeGang
        · exact h.watchHeads

theorem Numbered.reach {q i} (h : Numbered s) : Numbered (s.reach q i) := h.modLq

theorem Numbered.execWatchdogPreempt {q} (h : Numbered s) : NumberedOut (execWatchdogPreempt q s) :=
  .next (h.reach.modPm.ite h)

theorem Numbered.execWatchdogKill {q} (h : Numbered s) : NumberedOut (execWatchdogKill q s) :=
  .next ((h.reach.foldl fun _ _ ht => ht.killGang).ite h)

theorem Numbered.execWatchdogFence {q} (h : Numbered s) : NumberedOut (execWatchdogFence q s) :=
  .next ((h.reach.foldl fun _ _ ht => ht.foldl fun _ _ hs => hs.fenceCore).ite h)

/-! ### Fences and waits -/

theorem Numbered.placeFence {p k kind} (h : Numbered s) : Numbered (s.placeFence p k kind) :=
  (h.modCore fun _ hc => hc.issue).settleCtx

theorem Numbered.placeRel {p k sc m} (h : Numbered s) : Numbered (s.placeRel p k sc m) :=
  (h.modCore fun _ hc => hc.flushAll).placeFence

theorem Numbered.placeAcq {p k sc m} (h : Numbered s) : Numbered (s.placeAcq p k sc m) := h.placeFence

theorem Numbered.endWait {d v} (h : Numbered s) : Numbered (s.endWait d v) := h.modCore.later

theorem Numbered.unwake {p k} (h : Numbered s) : Numbered (s.unwake p k) := h.frame

theorem Numbered.sleepOn {r l v} (h : Numbered s) : Numbered (s.sleepOn r l v) :=
  h.unwake.modCtx.blockNow.ite (h.unwake.modCore.modCtx.blockNow.ite
    (h.unwake.modCtx.blockNow.ite h.unwake.modCore.event.modCtx.blockNow))

theorem Numbered.waitOp_check {holds r v} (h : Numbered s) (ht : Numbered t) :
    Numbered (waitOp.check holds r s v t) := by
  unfold Machine.waitOp.check
  dsimp only
  split
  · exact h.modCore.trapAt
  · exact h.blockNow.ite (ht.note.used.endWait.ite h.note.used.sleepOn)

theorem Numbered.waitOp {holds r} (h : Numbered s) : NumberedOut (waitOp holds r s) := by
  refine .next (h.scalar fun _ _ ht => ?_)
  split
  · exact ht.endWait.ite (h.blockNow.ite (h.waitOp_check ht))
  · exact h.waitOp_check ht

theorem Numbered.endWaitOf {k w v} (h : Numbered s) : Numbered (s.endWaitOf k w v) := by
  unfold State.endWaitOf
  dsimp only
  split
  · exact (h.modSched.modCore fun _ hc => hc.popAll).endWait.modSched
  · exact h.modCtx

theorem Numbered.endWaits {l v} (h : Numbered s) : Numbered (s.endWaits l v) := by
  unfold State.endWaits
  refine h.foldl fun _ _ ht => ?_
  split
  · exact ht.endWaitOf.ite ht
  · exact ht

theorem Numbered.execMonclr {r} (h : Numbered s) : NumberedOut (execMonclr r s) := by
  unfold Machine.execMonclr
  dsimp only
  refine .next (h.scalar fun _ _ ht => ?_)
  split
  · exact h.trapAt
  · exact h.blockNow.ite ht.note.used.endWaits.modCore.advance

theorem Numbered.execWaitWake {p k} (h : Numbered s) : NumberedOut (execWaitWake p k s) := by
  unfold Machine.execWaitWake
  dsimp only
  refine .next ?_
  split
  · exact (h.setCtx (h.ctx p k).same).unwake.ite h
  · exact h

theorem Numbered.execMonitorPoll {p k} (h : Numbered s) : NumberedOut (execMonitorPoll p k s) := by
  unfold Machine.execMonitorPoll
  dsimp only
  refine .next ?_
  split
  · exact (h.setCtx (h.ctx p k).same).count.ite h
  · exact h

/-! ### System instructions -/

theorem Numbered.privileged {body : State → State} (h : Numbered s) (hbody : ∀ t, Numbered t → Numbered (body t)) :
    Numbered (privileged s body) :=
  h.trapNow.ite (hbody _ h)

theorem Numbered.execBrk {x n} (h : Numbered s) : NumberedOut (execBrk x n s) := by
  unfold Machine.execBrk
  refine .next ?_
  split
  · exact h.trapNow
  · split
    · exact h.modCtx
    · exact h.trapNow

/-! ### EPUSH, chain control, XCMD and MCFG -/

theorem Numbered.pushCmd {r x} {body : List W32 → State → State} (h : Numbered s)
    (hbody : ∀ x t, Numbered t → Numbered (body x t)) : Numbered (pushCmd r x s body) := by
  unfold Machine.pushCmd
  dsimp only
  refine h.scalar fun _ _ hu => h.scalar fun _ _ ht => ?_
  split
  · exact h.trapAfter
  · exact h.trapAfter.ite (hbody _ _ ht)

theorem Numbered.enqueue {p e ws} (h : Numbered s) : Numbered (s.enqueue p e ws) := h.modEng

theorem Numbered.queuePlan {op desc resa ls} (h : Numbered s) : Numbered ((queuePlan u op desc resa).go ls s).1 := by
  cases ls with
  | nil => exact h
  | cons l ls =>
    show Numbered ((s.qDo u.p op (descOf desc) l).1.storeResult u.p (s.qDo u.p op (descOf desc) l).2 (l :: ls))
    exact h.qDo.storeResult

/-- What the action of an XCMD's plan does (R225). -/
theorem Numbered.xplan {i x ls} (e : xplan u i = some x) (h : Numbered s) : Numbered (x.go ls s).1 := by
  cases i <;> cases e
  case csig => cases ls with
    | nil => exact h
    | cons l ls => exact h.addAt
  case cwait => exact h.foldl fun _ _ hu => hu.used
  case cseq => cases ls with
    | nil => exact h
    | cons l ls => exact h.writeHome
  all_goals exact h.queuePlan

theorem Numbered.execXcmd {r} (h : Numbered s) : NumberedOut (execXcmd r s) := by
  unfold Machine.execXcmd
  dsimp only
  refine .next (h.pushCmd fun _ _ ht => ?_)
  split
  · exact h.trapAfter
  · next plan =>
    obtain ⟨i, -, planned⟩ := Option.bind_eq_some_iff.1 plan
    split
    · exact h.trapAt
    · exact h.trapAt
    · exact h.blockNow
    · split
      · exact h.trapAfter
      · refine h.blockNow.ite (h.trapAfter.ite (((h.modCore fun _ hc => hc.flushAll).ite h).blockNow.ite (h.blockNow.ite
          (.advance (.ite (.clearL1 ?_) ?_)))))
        all_goals exact .ite (ht.modCore.xplan planned).noteAll.modCtx.modCore (ht.modCore.xplan planned).noteAll.modCtx

/-! ### The task gate, spawning and stage switches -/

theorem Numbered.claimAll {p g is r} (h : Numbered s) (e : s.claimAll p g is = some r) : Numbered r.1 := by
  induction is generalizing s r with
  | nil => cases e; exact h
  | cons i is ih =>
    unfold State.claimAll at e
    split at e
    · cases e
    · split at e
      · next claimed =>
        obtain ⟨x, rest, rfl⟩ := Option.map_eq_some_iff.1 e
        exact ih (r := x) (h.claimQ.of_eq claimed) rest
      · cases e

theorem Numbered.reserveAll {p g is r} (h : Numbered s) (e : s.reserveAll p g is = some r) : Numbered r.1 := by
  induction is generalizing s r with
  | nil => cases e; exact h
  | cons i is ih =>
    unfold State.reserveAll at e
    split at e
    · cases e
    · split at e
      · next reserved =>
        obtain ⟨x, rest, rfl⟩ := Option.map_eq_some_iff.1 e
        exact ih (r := x) (h.reserveQ.of_eq reserved) rest
      · cases e

theorem Numbered.modGroup {gid k f} (h : Numbered s) : Numbered (s.modGroup gid k f) := h.modGang

theorem Numbered.takeTask {p g k r} (h : Numbered s) (e : s.takeTask p g k = some r) : Numbered r.1 := by
  unfold State.takeTask at e
  split at e
  · cases e
  · split at e
    · cases e; exact h.modGroup
    · split at e
      · cases e
      · split at e
        · cases e
        · next claimed =>
          split at e
          · cases e
          · next reserved => cases e; exact ((h.claimAll claimed).reserveAll reserved).modGroup

theorem Numbered.openStamp {p t resumed} (h : Numbered s) : Numbered (s.openStamp p t resumed) := h.modGate.ite h

theorem Numbered.closeStamp {p cut} (h : Numbered s) : Numbered (s.closeStamp p cut) := by
  unfold State.closeStamp
  dsimp only
  split
  · exact h
  · exact h.modGate.emit.ite h.modGate

theorem Numbered.deliver {p t w} (h : Numbered s) : Numbered (s.deliver p t w) := h.modGate.openStamp

theorem Numbered.nextTask {p r} (h : Numbered s) (e : s.nextTask p = some r) : Numbered r.1 := by
  unfold State.nextTask at e
  split at e
  · split at e
    · cases e; exact h.modGate.deliver
    · split at e
      · next taken => cases e; exact (h.takeTask taken).deliver
      · split at e
        · cases e; exact h.modGate
        · cases e
  · cases e

theorem Numbered.execTnext {sb d} (h : Numbered s) : NumberedOut (execTnext sb d s) := by
  refine .next (h.scalar fun _ _ ht => ?_)
  split
  · exact h.modGate.blockNow
  · split
    · exact h.blockNow
    · next e => exact (ht.nextTask e).placeAcq.later

theorem Numbered.awaitRelease (h : Numbered s) : Numbered s.awaitRelease :=
  (h.modCore fun _ hc => hc.flushAll).blockNow

theorem Numbered.giveBack {p c} (h : Numbered s) : Numbered (s.giveBack p c) := by
  unfold State.giveBack
  split
  · exact h.releaseQ.ite h
  · exact h

theorem Numbered.handOn {p c} (h : Numbered s) : Numbered (s.handOn p c) := by
  unfold State.handOn
  split
  · exact h.commitQ.ite h
  · exact h

theorem Numbered.endTask {p t} (h : Numbered s) : Numbered (s.endTask p t) := by
  unfold State.endTask
  dsimp only
  refine .modGate (.closeStamp (.wdRestart ?_))
  split
  · exact (h.foldl fun _ _ hu => hu.giveBack).foldl fun _ _ hu => hu.handOn
  · exact h

theorem Numbered.execTdone {x} (h : Numbered s) : NumberedOut (execTdone x s) := by
  unfold Machine.execTdone
  dsimp only
  refine .next (h.scalar fun _ _ ht => ?_)
  split
  · exact ht.advance.ite (h.awaitRelease.ite (h.blockNow.ite ht.count.retire))
  · exact h.awaitRelease.ite (h.blockNow.ite ht.endTask.advance)

theorem Numbered.yieldTask {p t} (h : Numbered s) : Numbered (s.yieldTask p t) := by
  unfold State.yieldTask
  dsimp only
  split
  · exact h.closeStamp.modGate.modGroup
  · exact h.closeStamp.modGate.modGate.ite h.closeStamp.modGate.modBent
  · exact h.closeStamp.modGate

theorem Numbered.execTyield {x} (h : Numbered s) : NumberedOut (execTyield x s) := by
  unfold Machine.execTyield
  refine .next (h.scalar fun _ _ ht => ?_)
  split
  · exact ht.advance
  · exact h.awaitRelease.ite ht.yieldTask.advance

theorem Numbered.execSpawn {r} (h : Numbered s) : NumberedOut (execSpawn r s) := by
  unfold Machine.execSpawn
  dsimp only
  refine .next (h.scalar fun _ _ ht => ?_)
  split
  · exact h.trapAt
  · split
    · exact h.blockNow
    · split
      · exact h.trapAt
      · exact h.blockNow
      · exact h.awaitRelease.ite (h.blockNow.ite ht.note.sendPacket.advance)

theorem Numbered.execSpawnDelivery {b n} (h : Numbered s) : NumberedOut (execSpawnDelivery b n s) := by
  unfold Machine.execSpawnDelivery
  dsimp only
  refine .next ?_
  split
  · exact h
  · split
    · exact h
    · split
      · exact h.modBent.modGate.ite h
      · split
        · exact h
        · exact h.ite h.modBent.sendPacket

theorem Numbered.decideMove {g count} (h : Numbered s) : Numbered (s.decideMove g count) := by
  unfold State.decideMove
  dsimp only
  split
  · exact h
  · split
    · exact h
    · exact h.event.modGang.modCore

theorem Numbered.execBalancerInterval {n} (h : Numbered s) : NumberedOut (execBalancerInterval n s) := by
  unfold Machine.execBalancerInterval
  dsimp only
  refine .next ?_
  split
  · exact h
  · exact h.ite (h.modGang.ite h.modGang.decideMove)

theorem Numbered.execStageSwitch {p} (h : Numbered s) : NumberedOut (execStageSwitch p s) := by
  unfold Machine.execStageSwitch
  dsimp only
  refine .next ?_
  split
  · exact h.drain.startGroup.ite h
  · exact h

/-! ### Storage errors, replay and abort -/

theorem Numbered.eccFreeze {p} (h : Numbered s) : Numbered (s.eccFreeze p) := h.modCore fun _ hc => hc.freezeAt

theorem Numbered.execCorrectableError {b core} (h : Numbered s) : NumberedOut (execCorrectableError b core s) := by
  unfold Machine.execCorrectableError
  dsimp only
  refine .next ?_
  split
  · exact h.modBent.eccFreeze
  · exact h.modBent

theorem Numbered.execEccFreezeEnd {p} (h : Numbered s) : NumberedOut (execEccFreezeEnd p s) := by
  unfold Machine.execEccFreezeEnd
  refine .next ?_
  split
  · refine .ite (h.modCore fun _ hc => ?_) h
    exact hc.settleFreeze.same
  · exact h

theorem Numbered.dropCopy {e} (h : Numbered s) : Numbered (s.dropCopy e) := by
  unfold State.dropCopy
  dsimp only
  split
  · exact h.modCore.eccFreeze
  · exact h.modCore.eccFreeze
  · exact h.modCore.eccFreeze
  · exact h.modBent
  · exact h.modBent
  · exact h.frame

theorem Numbered.stopRows {a} (h : Numbered s) : Numbered (s.stopRows a) := h.mapBents

theorem Numbered.errorRecord {e} (h : Numbered s) : Numbered (s.errorRecord e) := h.report.ite h.modFlt

theorem Numbered.markLine {a} (h : Numbered s) : Numbered (s.markLine a) := h.frame

theorem Numbered.raiseError {e} (h : Numbered s) : Numbered (s.raiseError e) := by
  unfold State.raiseError
  dsimp only
  split
  · exact (h.modBent.stopRows.ite (h.modBent.markLine.ite h.modBent)).errorRecord.killGang
  · exact (h.modBent.stopRows.ite (h.modBent.markLine.ite h.modBent)).errorRecord

theorem Numbered.settleMet (h : Numbered s) (ht : Numbered t) : Numbered (s.settleMet t) := by
  unfold State.settleMet
  dsimp only
  split
  · exact ht
  · exact (h.ite ht).frame.foldl fun _ _ hv => hv.raiseError

theorem Numbered.furStop {f} (h : Numbered s) : Numbered (s.furStop f) := by
  unfold State.furStop
  dsimp only
  split
  · exact h
  · split
    · exact h.endFlight.killGang
    · exact h.endFlight

theorem Numbered.rowTurn {k n} (h : Numbered s) : Numbered (s.rowTurn k n) := by
  unfold State.rowTurn
  split
  · exact h
  · split
    · exact h
    · split
      · exact h.modCtl.furStop
      · split
        · split
          · exact h.raiseError
          · exact h.furRow.modCtl
        · exact h.ite h.furRecord.modCtl.furFinish

theorem Numbered.resumeFlight {p f} (h : Numbered s) : Numbered (s.resumeFlight p f) := by
  unfold State.resumeFlight
  extract_lets copy fur queue
  have copied {t} : Numbered (copy t) := by
    unfold copy
    split
    · exact h.runJob
    · exact h
  rcases decodeCmd f.words with _ | i
  · exact h.modFlight
  · cases i with
    | cpy | cpyn | gath | scat | fill => exact copied
    | rcpy => exact h.runRcpy
    | prefCmd => exact h.runPref
    | cpyp => exact h.modFlight.runCpyp
    | cnop | clink | cloop | cend | cwait => exact h.finish
    | csig => exact h.csigGo
    | psub => exact h.psubGo
    | puns => exact h.punsGo
    | qinit | qacq | qrel | qres | qcom | qstat => exact h.queueGo
    | vrun => exact h.loadTable
    | fcopy | ffill | fand | forRow | fxor | fnot | fmaj => exact h.furGo
    | fqry => exact h.fqryGo
    | _ => exact h.modFlight

theorem Numbered.resumeWaiting {p f} (h : Numbered s) : Numbered (s.resumeWaiting p f) := h.modFlight.resumeFlight

theorem Numbered.replayFlight {p f} (h : Numbered s) : Numbered (s.replayFlight p f) :=
  h.modFlight.ite h.modFlight.resumeFlight

theorem Numbered.clearHead {p e} (h : Numbered s) : Numbered (s.clearHead p e) := h.modEng

theorem Numbered.modVeSd {p n f} (h : Numbered s) : Numbered (s.modVeSd p n f) := h.modVe

theorem Numbered.retry {x} (h : Numbered s) : Numbered (s.retry x) := by
  unfold State.retry
  split
  · exact h.modCtx
  · exact h.clearHead
  · exact h.modChain
  · split
    · exact h.replayFlight
    · exact h
  · exact h.modVeSd
  · exact h.modGang
  · exact h
  · exact h.modLaunch fun _ hl => hl.modFirst

theorem Numbered.noteEngflt {p code e} (h : Numbered s) : Numbered (s.noteEngflt p code e) := h.modCore

theorem Numbered.abortFlight {p ord} (h : Numbered s) : Numbered (s.abortFlight p ord) := by
  unfold State.abortFlight
  dsimp only
  split
  · split
    · refine .endRun (.modFlight ?_)
      split
      · exact h.modMe.ite h
      · exact h
    · refine .endFlight ?_
      split
      · exact h.modMe.ite h
      · exact h
  · refine .endFlight ?_
    split
    · exact h.modMe.ite h
    · exact h

theorem Numbered.abandon {x code} (h : Numbered s) : Numbered (s.abandon x code) := by
  unfold State.abandon
  split
  · exact h.modCtx
  · exact h.dropHead.noteEngflt
  · exact h.modChain.noteEngflt
  · split
    · exact h.abortFlight.noteEngflt
    · exact h
  · exact h.modVeSd.modVe.noteEngflt.endRun
  · exact h.killGang
  · exact h
  · exact (h.modLaunch fun _ hl => hl.modFirst).modPm

theorem Numbered.abort {t x} (h : Numbered s) : Numbered (s.abort t x) := h.dropTicket.postFault.abandon.ite h.modFlt

theorem Numbered.reply {t abort} (h : Numbered s) : Numbered (s.reply t abort) := by
  unfold State.reply
  split
  · exact h
  · split
    · exact h
    · exact h.modLaunch fun _ hl => hl.modFirst
    · exact h.abort.ite (h.ite h.dropTicket.retry)

theorem Numbered.returnOne {b hd} (h : Numbered s) : Numbered (State.returnOne b s hd) := h.postFault.ite h.modBent

theorem Numbered.returnHeld {b} (h : Numbered s) : Numbered (s.returnHeld b) :=
  h.modBent.foldl fun _ _ hs => hs.returnOne

theorem Numbered.postError {b} (h : Numbered s) : Numbered (s.postError b) := by
  unfold State.postError
  split
  · exact h.modFlt.postFault.ite h
  · exact h

theorem Numbered.execFaultRecordRelease {b} (h : Numbered s) : NumberedOut (execFaultRecordRelease b s) := by
  unfold Machine.execFaultRecordRelease
  refine .next ?_
  split
  · exact h.modFlt.reply
  · split
    · exact h.postError
    · split
      · exact h.returnHeld.ite h
      · split
        · split
          · next e => exact (h.storeFault.of_eq e).modBent
          · next e => exact h.storeFault.of_eq e
        · exact h

/-! ### Pre-emption, restore and kill -/

theorem Numbered.stopCore {p} (h : Numbered s) : Numbered (s.stopCore p) :=
  h.drain.closeStamp.unfuse.modCore fun c hc => ⟨fun k => getCtx_vmap (c := c) _ k ▸ hc.1 k, hc.2⟩

theorem Numbered.beginSave {g} (h : Numbered s) : Numbered (s.beginSave g) :=
  (h.foldl fun _ _ hs => hs.stopCore).modGang.modPm

theorem Numbered.execPreEmpt (h : Numbered s) : NumberedOut (execPreEmpt s) := by
  unfold Machine.execPreEmpt
  dsimp only
  refine .next ?_
  split
  · exact h
  · split
    · split
      · exact h.modPm.modPm
      · exact h.modPm.modPm.ite h.modPm.beginSave
    · split
      · split
        · exact h
        · split
          · exact h.modPm.ite h.modPm.beginSave
          · exact h.modPm
      · exact h

theorem Numbered.writePages {as bs} (h : Numbered s) : Numbered (s.writePages as bs) := by
  induction as generalizing s bs with
  | nil => exact h
  | cons a as ih => exact ih h.writeSup

theorem Numbered.shelve {g base cores} (h : Numbered s) : Numbered (s.shelve g base cores) :=
  have vacated : Numbered (cores.foldl (fun t p => t.modCore p Core.vacate) s) :=
    h.foldl fun _ _ ht => ht.modCore fun _ hc => hc.left
  (vacated.modLaunch fun l hl => by
    intro e he x hx
    rcases List.mem_append.1 he with he | he
    · exact hl e he x hx
    · rw [List.mem_singleton.1 he] at hx
      obtain ⟨p, -, rfl⟩ := List.mem_map.1 hx
      exact (h.core p).settleFreeze.2.2).modPm

theorem Numbered.execSaveComplete (h : Numbered s) : NumberedOut (execSaveComplete s) := by
  unfold Machine.execSaveComplete
  dsimp only
  refine .next ?_
  split
  · split
    · exact h.modPm
    · split
      · exact h
      · split
        · exact h.reportPage.modGang
        · exact h.killGang
        · exact (h.foldl fun _ _ ht => ht.writePages).shelve
  · exact h

theorem Numbered.execRestore (h : Numbered s) : NumberedOut (execRestore s) := by
  unfold Machine.execRestore
  dsimp only
  refine .next ?_
  split
  · exact h
  · split
    · exact h.modPm.modPm
    · exact h.modPm.modPm

theorem Numbered.seatStream {gid x} (h : Numbered s) : Numbered (State.seatStream gid s x) := h.modStream

theorem Numbered.moveStreams {gid e newOf} (h : Numbered s) : Numbered (s.moveStreams gid e newOf) :=
  (h.dropStreams.foldl fun _ _ hs => hs.seatStream).foldl fun _ _ ht => ht.foldl fun _ _ hu => hu.modStream.ite hu

theorem Numbered.deliverHeld {g} (h : Numbered s) : Numbered (s.deliverHeld g) := by
  unfold State.deliverHeld
  dsimp only
  refine h.mapBents.foldl fun _ _ ht => ?_
  split
  · exact ht.sendPacket
  · exact ht.modBent

theorem Numbered.retryAll {p} (h : Numbered s) : Numbered (s.retryAll p) := h.foldl fun _ _ ht => ht.reply

/-- A restored gang leaves the table, and each of its cores takes a saved one up (R322). -/
theorem Numbered.reinstate {e pages cores} (h : Numbered s) (he : e ∈ s.launch.pre) :
    Numbered (s.reinstate e pages cores) := by
  unfold State.reinstate
  extract_lets newOf live src g0 g s1 s2 s3 s4 s5
  have hs1 : Numbered s1 := ⟨h.core, h.saved.filter⟩
  have hs2 : Numbered s2 := hs1.foldlMem fun _ _ hx ht => ht.unfuse.setCore (h.saved e he _ hx).takeUp
  have hs3 : Numbered s3 := hs2.moveStreams.modLq
  have hs4 : Numbered s4 := hs3.foldl fun t p ht => by
    split
    · exact ht.openStamp
    · exact ht
  have hs5 : Numbered s5 := hs4.foldl fun _ _ ht => ht.reply
  exact (hs5.foldl fun _ _ ht => ht.retryAll).deliverHeld.modPm

theorem Numbered.restoreFault {e p va x} (h : Numbered s) : Numbered (s.restoreFault e p va x) := by
  unfold State.restoreFault
  dsimp only
  split
  · exact h.reportPage.modLaunch fun _ hl => hl.modFirst
  · exact h.modPm

theorem Numbered.execRestorePlacement (h : Numbered s) : NumberedOut (execRestorePlacement s) := by
  unfold Machine.execRestorePlacement
  dsimp only
  refine .next ?_
  split
  · split
    · exact h.modPm
    · next found =>
      split
      · exact h
      · split
        · exact h.restoreFault
        · split
          · exact h.modPm
          · split
            · exact h
            · split
              · exact h.restoreFault
              · exact h.reinstate (List.mem_of_find?_eq_some found)
  · exact h

theorem Numbered.execKill (h : Numbered s) : NumberedOut (execKill s) := by
  unfold Machine.execKill
  dsimp only
  refine .next ?_
  split
  · exact h
  · split
    · exact h.modPm.modPm
    · exact h.modPm.killGang.modPm

/-! ### Translation, L1 fusion, format and compute regions -/

theorem Numbered.trCut {v} (h : Numbered s) : Numbered (s.trCut v) := h.mapCores.mapBents

theorem Numbered.trinvWrite {v} (h : Numbered s) : Numbered (s.trinvWrite v) := (h.trCut.ite h).frame

theorem Numbered.execTrinvComplete (h : Numbered s) : NumberedOut (execTrinvComplete s) := by
  unfold Machine.execTrinvComplete
  dsimp only
  refine .next ?_
  split
  · exact h
  · split
    · exact h
    · split
      · exact h.frame.trCut
      · exact h.frame

theorem Numbered.trrootWrite {v mask} (h : Numbered s) : Numbered (s.trrootWrite v mask) := h.frame.trinvWrite

theorem Numbered.execL1Fusion {bay} (h : Numbered s) : NumberedOut (execL1Fusion bay s) :=
  .next ((h.ite h.separate).ite ((h.foldl fun _ _ ht => ht.modCore).modBay.ite h))

theorem Numbered.fuseWrite {p v} (h : Numbered s) : Numbered (s.fuseWrite p v) := h.modCore.ite h.modCore.unfuse

theorem Numbered.dropView {r} (h : Numbered s) : Numbered (s.dropView r) := h.dropLlc

theorem Numbered.frWrite {b k n reg v mask} (h : Numbered s) : Numbered (s.frWrite b k n reg v mask) :=
  h.dropView.dropView.modBent

theorem Numbered.vtctlWrite {p v} (h : Numbered s) : Numbered (s.vtctlWrite p v) := h.modVe.ite h

theorem Numbered.fwccWrite {b k v mask} (h : Numbered s) : Numbered (s.fwccWrite b k v mask) := h.modBent

theorem Numbered.execRegionChange {b k} (h : Numbered s) : NumberedOut (execRegionChange b k s) := by
  unfold Machine.execRegionChange
  dsimp only
  refine .next ?_
  split
  · exact h
  · exact h.frame.modBent.payOwed.ite h

/-! ### Trace sessions, launch-queue reset, the debug registers -/

theorem Numbered.icinvWrite {v} (h : Numbered s) : Numbered (s.icinvWrite v) := h.modTrace

theorem Numbered.icCut {v} (h : Numbered s) : Numbered (s.icCut v) :=
  (h.mapBents.mapCores.foldl fun _ _ ht => ht.modVe).ite h.mapBents.mapCores

theorem Numbered.execIcbusyClear (h : Numbered s) : NumberedOut (execIcbusyClear s) := by
  unfold Machine.execIcbusyClear
  refine .next ?_
  split
  · exact h
  · exact h.icCut.modTrace

theorem Numbered.flushAllTrace (h : Numbered s) : Numbered s.flushAllTrace := h.foldl fun _ _ hs => hs.flushTrace

theorem Numbered.recordOf {cycle type sub lq body} (h : Numbered s) : Numbered (s.recordOf cycle type sub lq body) :=
  h.writeTrace.ite h

theorem Numbered.deviceRecord {type sub lq body} (h : Numbered s) : Numbered (s.deviceRecord type sub lq body) :=
  h.recordOf

theorem Numbered.trctlWrite {v} (h : Numbered s) : Numbered (s.trctlWrite v) :=
  h.modTrace.deviceRecord.ite (h.flushAllTrace.deviceRecord.modTrace.ite h.modTrace)

theorem Numbered.refuseRecords {q n} (h : Numbered s) : Numbered (s.refuseRecords q n) := by
  induction n generalizing s with
  | zero => exact h
  | succ n ih =>
    unfold State.refuseRecords
    refine h.ite (ih (Numbered.popHead ?_))
    split
    · exact h.outcome
    · exact h

theorem Numbered.endReset {q stamps} (h : Numbered s) : Numbered (s.endReset q stamps) := by
  unfold State.endReset
  dsimp only
  refine .modTrace (.modLq ?_)
  split
  · exact h
  · exact h.recordOf.modTrace

theorem Numbered.finishReset (h : Numbered s) : Numbered s.finishReset := by
  unfold State.finishReset
  dsimp only
  split
  · exact h.flushAllTrace.ite h.flushAllTrace.endReset
  · exact h

theorem Numbered.lqReset {q} (h : Numbered s) : Numbered (s.lqReset q) := by
  unfold State.lqReset
  extract_lets s1 n s2 s3 s4
  have hs1 : Numbered s1 := h.refuseRecords.modLq
  have hs2 : Numbered s2 := hs1.foldl fun _ _ ht => ht.killGang
  have hs3 : Numbered s3 := hs2.foldl fun _ _ ht => ht.killPre
  have hs4 : Numbered s4 := hs3.flushAllTrace
  exact (hs4.modTrace.ite hs4.endReset).ite hs3.endReset

theorem Numbered.lqrstWrite {v} (h : Numbered s) : Numbered (s.lqrstWrite v) := h.ite h.lqReset

theorem Numbered.execTraceFlush {b} (h : Numbered s) : NumberedOut (execTraceFlush b s) :=
  .next (h.flushTrace.finishReset.ite h.finishReset)

theorem Numbered.execPmctrWrap {p n} (h : Numbered s) : NumberedOut (execPmctrWrap p n s) := .next (h.modDbg.ite h)

theorem Numbered.dbgctlWrite {p v mask} (h : Numbered s) : Numbered (s.dbgctlWrite p v mask) :=
  h.modDbg.modDbg.modVe.ite h.modDbg

/-! ### Operating points and emergencies -/

theorem Numbered.execOperatingPointChange (h : Numbered s) : NumberedOut (execOperatingPointChange s) := by
  refine .next (.ite (h.modClock.mapCores fun _ hc => ?_) h)
  exact hc.freezeAt

theorem Numbered.execOperatingPointChangeEnd (h : Numbered s) : NumberedOut (execOperatingPointChangeEnd s) := by
  unfold Machine.execOperatingPointChangeEnd
  refine .next ?_
  split
  · exact (h.modClock.mapCores fun _ hc => hc.thawAt).ite h
  · exact h

theorem Numbered.opptWrite {v mask} (h : Numbered s) : Numbered (s.opptWrite v mask) := h.modClock

theorem Numbered.clockEvent {code old new why} (h : Numbered s) : Numbered (s.clockEvent code old new why) := h.event

theorem Numbered.breakLock (h : Numbered s) : Numbered s.breakLock := h.modClock.clockEvent.ite h

theorem Numbered.clklockWrite {v mask} (h : Numbered s) : Numbered (s.clklockWrite v mask) :=
  (h.modClock.clockEvent.ite (h.modClock.clockEvent.ite h.modClock)).breakLock

theorem Numbered.warn (h : Numbered s) : Numbered s.warn := h.ite h.modClock

theorem Numbered.levels (h : Numbered s) : Numbered s.levels :=
  h.modClock.ite (((h.modClock.breakLock.ite h).warn.ite ((h.modClock.breakLock.ite h).modClock)).modClock)

theorem Numbered.execCapStep (h : Numbered s) : NumberedOut (execCapStep s) := by
  unfold Machine.execCapStep
  refine .next ?_
  split
  · exact h.modClock.ite h
  · exact h

theorem Numbered.execCapRelax (h : Numbered s) : NumberedOut (execCapRelax s) := by
  unfold Machine.execCapRelax
  refine .next ?_
  split
  · exact h.modClock.ite h
  · exact h

theorem Numbered.execCurrentLimit {b} (h : Numbered s) : NumberedOut (execCurrentLimit b s) := .next (h.warn.ite h)

theorem Numbered.execEmergencyEnd (h : Numbered s) : NumberedOut (execEmergencyEnd s) := by
  unfold Machine.execEmergencyEnd
  refine .next ?_
  split
  · exact h.modClock.ite h
  · exact h

/-! ### Bring-up and core reset -/

theorem Numbered.setRdy {i} (h : Numbered s) : Numbered (s.setRdy i) := h.modReady

theorem Numbered.setCoreBit {p b} (h : Numbered s) : Numbered (s.setCoreBit p b) := h.modReady

theorem Numbered.execColdReset : NumberedOut (execColdReset s) := .next reset_numbered.frame

theorem Numbered.acceptSlot {b bent link} (h : Numbered s) : Numbered (s.acceptSlot b bent link) := h.modReady

theorem Numbered.execBentPowerUp {b} (h : Numbered s) : NumberedOut (execBentPowerUp b s) := .next (h.modBent.ite h)

theorem Numbered.execStackTrainingEnd {b} (h : Numbered s) : NumberedOut (execStackTrainingEnd b s) :=
  .next (h.setRdy.setRdy.ite h)

theorem Numbered.execMarchTestEnd {b r} (h : Numbered s) : NumberedOut (execMarchTestEnd b r s) := by
  refine .next (h.ite (.ite (.returnHeld ?_) (.setRdy ?_)))
  all_goals exact h.setBent.modReady.foldl fun _ _ ht => ht.setCoreBit

/-- A replaced row takes free values, written as bytes (R388). -/
theorem Numbered.loseRow {p arr row} (h : Numbered s) : Numbered (s.loseRow p arr row) := by
  unfold State.loseRow
  extract_lets bytes here line t
  split
  · exact h.writeScratch
  · exact h.modCore
  · exact h.writePhys
  · have ht : Numbered t := h.writePhys.ite h
    exact ht.frame

theorem Numbered.repWrite {b e v mask} (h : Numbered s) : Numbered (s.repWrite b e v mask) := by
  unfold State.repWrite
  dsimp only
  split
  · exact h.modBent
  · split
    · exact h.modBent
    · split
      · exact h.modBent.modBent.loseRow
      · exact h.modBent.modBent

theorem Numbered.resetCore {p} (h : Numbered s) : Numbered (s.resetCore p) := by
  unfold State.resetCore
  dsimp only
  refine .modCore (.setCoreBit ?_)
  split
  · exact h.killGang
  · exact h

theorem Numbered.corectlWrite {b v} (h : Numbered s) : Numbered (s.corectlWrite b v) :=
  h.foldl fun _ _ ht => ht.resetCore

/-- A core that has been tested starts afresh (R389). -/
theorem Numbered.execCoreMarchTest {p r} (h : Numbered s) : NumberedOut (execCoreMarchTest p r s) := by
  unfold Machine.execCoreMarchTest
  dsimp only
  refine .next (h.ite ?_)
  refine .ite (Numbered.setCoreBit ?_) ?_
  all_goals exact h.setBent.setCore (.fresh rfl rfl rfl)

theorem Numbered.jumpTo {next} (h : Numbered s) : Numbered (s.jumpTo next) := h.commit

theorem Numbered.branch {c r} (h : Numbered s) : NumberedOut (branch c r s) :=
  .next (h.scalar fun _ _ ht => ht.jumpTo.ite ht.advance)

theorem Numbered.link {d next} (h : Numbered s) : Numbered (s.link d next) :=
  (h.modCore fun _ hc => hc.push).jumpTo

/-! ### Cache and TLB maintenance -/

theorem Numbered.dropFetch {p bent line} (h : Numbered s) : Numbered (s.dropFetch p bent line) :=
  h.modBent.ite h.modCore

theorem Numbered.execIinv {r} (h : Numbered s) : NumberedOut (execIinv r s) := by
  unfold Machine.execIinv
  refine .next (h.scalar fun _ _ ht => ?_)
  split
  · exact h.blockNow
  · split
    · exact ht.dropFetch.advance
    · split
      · exact h.blockNow
      · split
        · exact ht.dropFetch.advance
        · exact ht.advance

theorem Numbered.execTinv {r} (h : Numbered s) : NumberedOut (execTinv r s) :=
  .next (h.privileged fun _ hs => hs.scalar fun _ _ ht => hs.trapAfter.ite ht.modCore.advance)

theorem Numbered.execL1inv {r} (h : Numbered s) : NumberedOut (execL1inv r s) := by
  unfold Machine.execL1inv
  refine .next (h.scalar fun _ _ ht => ?_)
  split
  · exact ht.clearL1.advance
  · split
    · exact h.blockNow
    · split
      · exact (ht.dropL1.ite ht).advance
      · exact ht.advance

theorem Numbered.execPref {r} (h : Numbered s) : NumberedOut (execPref r s) := by
  unfold Machine.execPref
  dsimp only
  refine .next (h.scalar fun _ _ ht => ?_)
  split
  · exact h.blockNow.ite ((ht.note.loadScalar.ite ht.note).advance)
  · exact h.blockNow
  · exact ht.noteFail.advance
  · exact ht.advance

/-! ### Control registers written -/

theorem Numbered.pmctlWrite {v} (h : Numbered s) : Numbered (s.pmctlWrite v) := h.modPm

theorem Numbered.poolWrite {size v mask} (h : Numbered s) : Numbered (s.poolWrite size v mask) := h.modLinks

theorem PendsNumbered.csrPut {n v mask} (h : PendsNumbered x) : PendsNumbered (x.csrPut n v mask) := by
  unfold Context.csrPut
  split <;> exact h

theorem Numbered.csrPut {p k n v mask} (h : Numbered s) : Numbered (s.csrPut p k n v mask) := by
  unfold State.csrPut
  split
  · exact h.modCtx fun _ hx => hx.csrPut
  · split
    · exact h.modDbg
    · split
      · exact h.modDbg
      · split
        · exact h.modDbg
        · split
          · exact h.modRng
          · exact h.fuseWrite.ite h
          · exact h.modCore.ite h
          · exact h.vtctlWrite
          · exact h.modDbg
          · exact h.modDbg
          · exact h.modDbg
          · exact h.dbgctlWrite
          · exact h

theorem Numbered.lqPut {q f} (h : Numbered s) : Numbered (s.lqPut q f) := h.modLq

theorem Numbered.regPut {r v mask} (h : Numbered s) : Numbered (s.regPut r v mask) := by
  cases r with
  | lqBase | lqSize | lqPrio | lqTail | lqWd | lqStat => exact h.lqPut
  | trroot => exact h.trrootWrite
  | trinv => exact h.trinvWrite
  | fltBase | fltSize | fltHead => exact h.modFlt
  | fltReplay => exact h.reply
  | pmrec | pmsave => exact h.modPm
  | pmctl => exact h.pmctlWrite
  | oppt => exact h.opptWrite
  | trBase | trSize | trQmask | trSpBase | trSpCnt => exact h.modTrace
  | trHead => exact h.modTrace.finishReset
  | trCtl => exact h.trctlWrite.ite h
  | lqrst => exact h.lqrstWrite
  | icinv => exact h.icinvWrite
  | clklock => exact h.clklockWrite
  | bksh => exact h.frame
  | balival => exact h.modBent
  | sitemap => exact h.modBent.ite h
  | corectl => exact h.corectlWrite
  | rep => exact h.repWrite
  | fwcc => exact h.fwccWrite
  | fr => exact h.frWrite
  | csr => exact h.csrPut
  | dmwbase | devid | peermap => exact h.modLinks
  | hpbase | hpsize => exact h.poolWrite
  | _ => exact h

theorem Numbered.partWrite {o n v} (h : Numbered s) : Numbered (s.partWrite o n v) := h.regPut

theorem Numbered.ctlWrite {o n v} (h : Numbered s) : Numbered (s.ctlWrite o n v) :=
  h.partWrite.partWrite.ite h.partWrite

/-! ### Host links, Scarf links, peers and SPDM -/

theorem Numbered.complete {c} (h : Numbered s) : Numbered (s.complete c) := h.modLinks

theorem Numbered.setBar {log} (h : Numbered s) : Numbered (s.setBar log) := h.modLinks

theorem Numbered.hostMem {r} (h : Numbered s) : Numbered (s.hostMem r) :=
  h.complete.ite (h.writePhys.complete.ite h.touchView.meet.complete)

theorem Numbered.hostTail {r} (h : Numbered s) : Numbered (s.hostTail r) :=
  (h.ctlWrite.ite h).complete.ite h.complete

theorem Numbered.hostRegs {r} (h : Numbered s) : Numbered (s.hostRegs r) := h.ctlWrite.complete.ite h.complete

theorem Numbered.hostDo {r} (h : Numbered s) : Numbered (s.hostDo r) := by
  unfold State.hostDo
  split
  · exact h.hostRegs
  · exact h.hostMem
  · exact h.hostTail

theorem Numbered.serveHost (h : Numbered s) : Numbered s.serveHost := by
  unfold State.serveHost
  split
  · exact h.modLinks.hostDo
  · exact h

theorem Numbered.execCxlCacheRequest {addr wr} (h : Numbered s) : NumberedOut (execCxlCacheRequest addr wr s) := by
  unfold Machine.execCxlCacheRequest
  dsimp only
  refine .next ?_
  split
  · exact h.modLinks
  · exact (h.writePhys.ite h).modLinks

theorem Numbered.answer {m} (h : Numbered s) : Numbered (s.answer m) := h.modLinks.ite h

theorem Numbered.modScarf {n f} (h : Numbered s) : Numbered (s.modScarf n f) := h.modLinks

theorem Numbered.resendAsked {n first run} (h : Numbered s) : Numbered (s.resendAsked n first run) :=
  h.modScarf.ite h

theorem Numbered.peerAnswer {r} (h : Numbered s) : Numbered (s.peerAnswer r) := h.modLinks

theorem Numbered.peerChunk {dev a key f rop vals} (h : Numbered s) :
    Numbered (s.peerChunk dev a key f rop vals) := by
  refine h.peerAnswer.ite (h.ite (Numbered.peerAnswer ?_))
  exact ⟨h.core, (h.applyElems (p := 0) (f := f)).2⟩

theorem Numbered.peerDo {r} (h : Numbered s) : Numbered (s.peerDo r) := by
  unfold State.peerDo
  dsimp only
  split
  · exact h.frame
  · split
    · exact h.peerAnswer
    · split
      · exact h.meet.touchView.peerAnswer
      · exact h.writePhys.peerAnswer
      · exact h.meet.writePhys.peerAnswer
      · exact h.meet.writePhys.peerAnswer
      · split
        · exact h.peerAnswer
        · exact h.peerChunk
      · exact h

theorem Numbered.servePeers (h : Numbered s) : Numbered s.servePeers := by
  unfold State.servePeers
  split
  · exact h.modLinks.peerDo
  · exact h

theorem Numbered.serveHeld (h : Numbered s) : Numbered s.serveHeld := h.serveHost.servePeers

/-! ### The CSR instructions -/

theorem Numbered.csrGuard {num write} {body : State → State} (h : Numbered s)
    (hbody : ∀ t, Numbered t → Numbered (body t)) : Numbered (csrGuard num write s body) :=
  h.trapNow.ite (hbody _ h)

theorem Numbered.csrRead {d num} (h : Numbered s) : Numbered (csrRead d num s) := h.later

theorem Numbered.csrChange {f r} (h : Numbered s) : NumberedOut (csrChange f r s) :=
  .next (h.csrGuard fun _ hs => hs.scalar fun _ _ ht => ht.csrPut.later)

/-! ### Values and acknowledgements that arrive -/

theorem Numbered.execQregFill {p k n} (h : Numbered s) : NumberedOut (execQregFill p k n s) := by
  unfold Machine.execQregFill
  dsimp only
  refine .next ?_
  split
  · exact h
  · split
    · exact h
    · split
      · next e => exact (h.performItem e).settle
      · exact h

theorem Numbered.execHomeAcknowledgement {p k n} (h : Numbered s) :
    NumberedOut (execHomeAcknowledgement p k n s) := by
  unfold Machine.execHomeAcknowledgement
  dsimp only
  refine .next ?_
  split
  · exact h
  · split
    · split
      · exact h
      · split
        · next e => exact (h.performItem e).settle
        · split
          · exact h.ite h.dropPend.ctlWrite.settle
          · exact h
    · exact h

/-! ### The dispatch -/

/-- Every instruction keeps the numbered form: a word by the operation it shares with others, a command by the frame of
commands, an event by its own case split. -/
theorem Numbered.exec {i} (h : Numbered s) : NumberedOut (exec i s) := by
  unfold Machine.exec
  cases i with
  | add | sub | and | or | xor | andn | shl | shr | sra | rotr | min | max | minu | maxu | cmpeq | cmpne
  | cmplt | cmpltu | cmple | cmpleu | sext | zext => exact h.alu3
  | sel | lih | pcah | qcnt => exact .next (h.scalar fun _ _ ht => ht.result)
  | clz | ctz | popc | movq => exact h.alu2
  | mul | mulh | mulhu | div | divu | rem | remu => exact h.slow3
  | addi | andi | ori | xori | shli | shri | srai | rotri | cmpeqi | cmpnei | cmplti | cmpltui => exact h.aluI
  | qclr => exact h.execQclr
  | dup => exact h.execDup
  | drop => exact .next (h.scalar fun _ _ ht => ht.advance)
  | lds | ldz => exact h.loadOp
  | st | acas => exact .next (h.scalar fun _ _ ht => h.issueAccess ht)
  | aadd | aand | aor | axor | amin | amax | aminu | amaxu | aswap => exact h.atomic
  | radd | rand | ror | rxor | rmin | rmax | rminu | rmaxu | rfadd => exact h.reduction
  | fence => exact .next (h.scalar fun _ _ ht => ht.placeFence.advance)
  | acq => exact .next (h.scalar fun _ _ ht => ht.placeAcq.advance)
  | rel => exact .next (h.scalar fun _ _ ht => ht.placeRel.advance)
  | acqrel => exact .next (h.scalar fun _ _ ht => ht.placeRel.placeAcq.advance)
  | waitge | waitne => exact h.waitOp
  | monclr => exact h.execMonclr
  | beq | bne | blt | bge | bltu | bgeu => exact h.branch
  | j => exact .next (h.scalar fun _ _ ht => ht.jumpTo)
  | jal | jalr => exact .next (h.scalar fun _ _ ht => ht.link)
  | csrr => exact .next (h.csrGuard fun _ hs => hs.scalar fun _ _ ht => ht.csrRead)
  | csrw | csrs | csrc => exact h.csrChange
  | trap => exact .next h.trap
  | sysret => exact .next (h.privileged fun _ hs => hs.modCtx.count)
  | idle => exact .next (h.privileged fun _ hs => hs.advance.modCtx)
  | brk => exact h.execBrk
  | stepover => exact .next (h.privileged fun _ hs => hs.modCtx.advance)
  | trapWord => exact .next h.trapNow
  | spawn => exact h.execSpawn
  | epush => exact .next (h.pushCmd fun _ _ ht => h.blockNow.ite ht.enqueue.advance)
  | echain => exact .next (h.scalar fun _ _ ht => ht.modChain.advance.ite h.blockNow)
  | etail => exact .next (h.scalar fun _ _ ht => h.blockNow.ite ht.modChain.advance)
  | eseq => exact .next (h.scalar fun _ _ ht => ht.later)
  | xcmd => exact h.execXcmd
  | mcfg => exact .next (h.scalar fun _ _ ht => h.modCtx.blockNow.ite ht.modMe.advance)
  | tnext => exact h.execTnext
  | tdone => exact h.execTdone
  | tyield => exact h.execTyield
  | iinv => exact h.execIinv
  | tinv => exact h.execTinv
  | l1inv => exact h.execL1inv
  | pref => exact h.execPref
  | qregFill => exact h.execQregFill
  | waitWake => exact h.execWaitWake
  | monitorPoll => exact h.execMonitorPoll
  | combiningFlush => exact h.execCombiningFlush
  | cpy | gath | scat | fill => exact .next h.copyCmd
  | cpyn => exact h.execCpyn
  | rcpy => exact .next (h.command fun _ _ _ hs => hs.goOrWait fun _ hs => hs.runRcpy)
  | prefCmd => exact .next (h.command fun _ _ _ hs => hs.goOrWait fun _ hs => hs.runPref)
  | cpyp => exact h.execCpyp
  | psub => exact .next (h.command fun _ _ _ ht => ht.goOrWait fun _ hu => hu.psubGo)
  | puns => exact .next (h.command fun _ _ _ ht => ht.goOrWait fun _ hu => hu.punsGo)
  | chunkApply => exact h.execChunkApply
  | chunkResend => exact h.execChunkResend
  | qinit | qacq | qrel | qres | qcom | qstat => exact .next h.queueCmd
  | clampRefill => exact h.execClampRefill
  | csig => exact .next (h.command fun _ _ _ ht => ht.csigGo)
  | cwait => exact h.execCwait
  | cseq => exact h.execCseq
  | cnop => exact .next (h.command fun _ _ _ hs => hs.goOrWait fun _ ht => ht.finish)
  | clink | cloop | cend => exact .next h.chainCmd
  | launch => exact .next (h.command fun _ _ _ ht => ht.postRecord.finish)
  | tokenPush => exact h.execTokenPush
  | counterAdd => exact h.execCounterAdd
  | chainBlockFetch => exact h.execChainBlockFetch
  | sequenceAdvance => exact h.execSequenceAdvance
  | podRowDelivery => exact h.execPodRowDelivery
  | mfmt | mnest | mzero | mhad => exact .next (h.command fun _ _ _ ht => ht.modMe.finish)
  | mgo | mbld => exact .next (h.command fun _ _ _ ht => ht.modMe)
  | mdrn => exact .next (h.command fun _ _ _ ht => ht.modRng.modMe)
  | meStep => exact h.execMeStep
  | bBlockLoad => exact h.execBBlockLoad
  | vrun => exact .next (h.command fun _ _ _ ht => ht.startRun)
  | vstop => exact .next (h.command fun _ _ _ ht => ht.modVe.ite ht.finish)
  | vbase | vsdesc => exact .next (h.command fun _ _ _ ht => ht.modVe.finish)
  | bundleIssue => exact h.execBundleIssue
  | cutDrain => exact h.execCutDrain
  | walkRequest => exact h.execWalkRequest
  | vectorLanding => exact h.execVectorLanding
  | windowClose => exact h.execWindowClose
  | writeWalkWrite => exact h.execWriteWalkWrite
  | inj | drn => exact .next (h.modVe.ite h.freeze)
  | srd => exact h.execSrd
  | swr => exact h.execSwr
  | time => exact .next h.timeAct
  | jmpt | loopt => exact .next h.modVe
  | halt => exact .next h.endRun
  | vadd | vsub | vmul | vfma | vmin | vmax | vabs | vneg | vand | vor | vxor | vnot | vshl | vshr
  | vsra | vsel | vcvt | vdot4 | vredadd | vredmax | vredmin | vexp2 | vlog2 | vrcp | vrsq | vperm
  | vbcast | vrotm | vpln | vunpl | vscale | vqmx | vmovs | vldi => exact .next h.sta
  | vcmp | vmask => exact .next h.staMask
  | fcopy | ffill | fand | forRow | fxor | fnot | fmaj => exact .next h.furrow
  | fqry => exact .next (h.command fun _ _ _ ht => ht.goOrWait fun _ hu => hu.fqryGo)
  | lqtail => exact .next h.modLq
  | gangPlacement => exact h.execGangPlacement
  | spawnDelivery => exact h.execSpawnDelivery
  | balancerInterval => exact h.execBalancerInterval
  | stageSwitch => exact h.execStageSwitch
  | watchdogPreempt => exact h.execWatchdogPreempt
  | watchdogKill => exact h.execWatchdogKill
  | watchdogFence => exact h.execWatchdogFence
  | correctableError => exact h.execCorrectableError
  | eccFreezeEnd => exact h.execEccFreezeEnd
  | uncorrectableError => exact .next (h.dropCopy.modBent.ite h.raiseError)
  | faultRecordRelease => exact h.execFaultRecordRelease
  | faultReplay | faultAbort => exact .next h.reply
  | preEmpt => exact h.execPreEmpt
  | saveComplete => exact h.execSaveComplete
  | restore => exact h.execRestore
  | restorePlacement => exact h.execRestorePlacement
  | kill => exact h.execKill
  | trinv => exact .next h.trinvWrite
  | trinvComplete => exact h.execTrinvComplete
  | trroot => exact .next h.trrootWrite
  | l1Fusion => exact h.execL1Fusion
  | formatRegionWrite => exact .next h.frWrite
  | vtctlInv => exact .next h.vtctlWrite
  | fwcc => exact .next h.fwccWrite
  | regionChange => exact h.execRegionChange
  | launchQueueReset => exact .next (h.finishReset.ite h.lqrstWrite)
  | icinv => exact .next h.icinvWrite
  | icbusyClear => exact h.execIcbusyClear
  | traceSessionOpen | traceSessionClose => exact .next (h.ite h.trctlWrite)
  | traceFlush => exact h.execTraceFlush
  | pmctrWrap => exact h.execPmctrWrap
  | veRelease => exact .next h.dbgctlWrite
  | clklockLock | clklockUnlock => exact .next h.clklockWrite
  | opptRequest => exact .next h.opptWrite
  | operatingPointChange => exact h.execOperatingPointChange
  | operatingPointChangeEnd => exact h.execOperatingPointChangeEnd
  | sensorSample => exact .next (h.ite ((h.modClock.foldl fun _ _ ht => ht.modBent).levels))
  | capStep => exact h.execCapStep
  | capRelax => exact h.execCapRelax
  | currentLimit => exact h.execCurrentLimit
  | emergencyEnd => exact h.execEmergencyEnd
  | coreReset => exact .next h.corectlWrite
  | coreMarchTest => exact h.execCoreMarchTest
  | repairEntry => exact .next h.repWrite
  | hostPoolWrite => exact .next h.poolWrite
  | registerWrite => exact .next (h.ite h.ctlWrite)
  | coldReset => exact .execColdReset
  | powerGood => exact .next (h.ite h.modReady)
  | firmwareVerify => exact .next (h.ite (h.acceptSlot.ite (h.acceptSlot.ite h.modReady)))
  | bentPowerUp => exact h.execBentPowerUp
  | stackTrainingEnd => exact h.execStackTrainingEnd
  | marchTestEnd => exact h.execMarchTestEnd
  | hostLinkTrained => exact .next (h.modLinks.setRdy.ite h)
  | hostAccess => exact .next (h.ite (h.modLinks.ite h.hostDo))
  | getVersion | getCapabilities | negotiateAlgorithms | getDigests | getCertificate | challenge
  | getMeasurements | sessionRequest => exact .next h.answer
  | scarfFlit => exact .next (h.ite (h.modScarf.modLinks.ite h.modScarf.modLinks))
  | linkRetrain | linkDown => exact .next (h.modScarf.ite h)
  | peerRequest => exact .next (h.modLinks.ite h.peerDo)
  | retrainEnd => exact .next (h.ite (h.modScarf.ite (h.modScarf.ite h)))
  | hostLinkDown => exact .next h.modLinks
  | chunkAcknowledgement => exact h.execChunkAcknowledgement
  | acknowledgementConfirmation => exact h.execAcknowledgementConfirmation
  | homeAcknowledgement => exact h.execHomeAcknowledgement
  | cxlCacheRequest => exact h.execCxlCacheRequest

/-! ### An agent's turn -/

theorem Numbered.fetchWord {p l} (h : Numbered s) : Numbered (s.fetchWord p l).2 := by
  unfold State.fetchWord
  dsimp only
  split
  · exact h
  · split
    · exact h
    · split
      · exact h
      · split
        · exact h.modCore.modBent
        · exact h.modCore.modBent.used

theorem Numbered.as {p k w} (h : Numbered s) : Numbered (s.as p k w) := h.modSched

theorem Numbered.runWord {w} (h : Numbered s) : NumberedOut (s.runWord w) := by
  unfold State.runWord
  split
  · exact .next h.trapNow
  · exact h.exec

theorem Numbered.runShadow {w} (h : Numbered s) : NumberedOut (s.runShadow w) := by
  unfold State.runShadow
  dsimp only
  split
  · exact .next h.modSched.trapNow
  · exact h.modSched.runWord

theorem Numbered.takeSample {x} (h : Numbered s) : Numbered (s.takeSample x) := h.safeRecord.modDbg.ite h

theorem Numbered.takeStop {x} (h : Numbered s) : Numbered (s.takeStop x) := h.safeRecord.modDbg.trapNow

theorem Numbered.stepWord {w} (h : Numbered s) : NumberedOut (s.stepWord w) := by
  unfold State.stepWord
  split
  · split
    · exact h.runShadow
    · exact h.runWord
  · exact h.runWord

theorem Numbered.issueWord (h : Numbered s) : NumberedOut (s.issueWord) := by
  unfold State.issueWord
  dsimp only
  split
  · split
    · exact .next h.takeSample.takeStop
    · exact h.takeSample.stepWord
  · exact h.stepWord

theorem Numbered.contextWord {p k} (h : Numbered s) : NumberedOut (s.contextWord p k) := by
  unfold State.contextWord
  split
  · exact h.as.runShadow
  · split
    · exact .next (h.ite h.noteFail.as.trapNow)
    · split
      · exact .next h
      · exact h.note.fetchWord.as.issueWord

theorem Numbered.holdIfFull {p k o} (h : Numbered s) (ho : NumberedOut o) : NumberedOut (holdIfFull s p k o) := by
  unfold Machine.holdIfFull
  split
  · split
    · exact .next h.modCtx
    · exact ho
  · exact ho

theorem Numbered.contextTurn {p k} (h : Numbered s) : NumberedOut (s.contextTurn p k) := by
  unfold State.contextTurn
  split
  · exact h.holdIfFull h.contextWord
  · exact .next h

theorem Numbered.headCommand {p e q} (h : Numbered s) : NumberedOut (s.headCommand p e q) := by
  unfold State.headCommand
  split
  · exact .next h.headFault
  · split
    · exact .next h.headFault
    · exact h.modSched.exec

theorem Numbered.tryHead {p e} (h : Numbered s) : NumberedOut (s.tryHead p e) := by
  unfold State.tryHead
  split
  · exact .next h
  · split
    · exact .next h
    · exact h.headCommand

theorem Numbered.goOn {p e} (h : Numbered s) : Numbered (s.goOn p e) := by
  unfold State.goOn
  refine h.foldl fun _ _ ht => ?_
  split
  · exact ht.resumeWaiting.ite ht
  · exact ht

theorem Numbered.ceTurn {p} (h : Numbered s) : NumberedOut (s.ceTurn p) := by
  unfold State.ceTurn
  dsimp only
  split
  · next t e =>
    have ht : Numbered t := h.tryHead t e
    split
    · exact ht.tryHead
    · exact .next ht
  · exact h.tryHead

theorem Numbered.engineTurn {p e} (h : Numbered s) : NumberedOut (s.engineTurn p e) := by
  unfold State.engineTurn
  split
  · exact .next h
  · split
    · exact h.goOn.goOn.ceTurn
    · exact h.goOn.goOn.ceTurn
    · exact h.goOn.tryHead
    · exact h.goOn.tryHead

theorem Numbered.unitTurn {c n} (h : Numbered s) : NumberedOut (s.unitTurn c n) := by
  unfold State.unitTurn
  dsimp only
  split
  · exact h.execQregFill
  · exact h.execHomeAcknowledgement
  · exact h.execWaitWake
  · exact h.execMonitorPoll
  · exact h.execCombiningFlush
  · exact h.execChunkApply
  · exact h.execChunkResend
  · exact h.execChunkAcknowledgement
  · exact h.execAcknowledgementConfirmation
  · exact h.execClampRefill
  · exact h.execTokenPush
  · exact h.execCounterAdd
  · exact h.execChainBlockFetch
  · exact h.execSequenceAdvance
  · exact h.execPodRowDelivery
  · exact h.execMeStep
  · exact h.execBBlockLoad
  · exact h.execBundleIssue
  · exact h.execCutDrain
  · exact h.execWalkRequest
  · exact h.execVectorLanding
  · exact h.execWriteWalkWrite
  · exact h.execWindowClose
  · exact h.execGangPlacement
  · exact h.execSpawnDelivery
  · exact h.execBalancerInterval
  · exact h.execStageSwitch
  · exact h.execWatchdogPreempt
  · exact h.execWatchdogKill
  · exact h.execWatchdogFence
  · exact h.execEccFreezeEnd
  · exact h.execFaultRecordRelease
  · exact h.execPreEmpt
  · exact h.execSaveComplete
  · exact h.execRestore
  · exact h.execRestorePlacement
  · exact h.execKill
  · exact h.execTrinvComplete
  · exact h.execL1Fusion
  · exact h.execRegionChange
  · exact h.execIcbusyClear
  · exact h.execTraceFlush
  · exact h.execPmctrWrap
  · exact h.execOperatingPointChange
  · exact h.execOperatingPointChangeEnd
  · exact h.execCapStep
  · exact h.execCapRelax
  · exact h.execCurrentLimit
  · exact h.execEmergencyEnd
  · exact h.execBentPowerUp
  · exact .next h.rowTurn
  · exact .next h.serveHeld
  · exact h.execStackTrainingEnd

theorem Numbered.autoTurn {n} (h : Numbered s) : NumberedOut (s.autoTurn n) := by
  unfold State.autoTurn
  dsimp only
  split
  · exact h.contextTurn
  · split
    · exact h.engineTurn
    · exact h.unitTurn

theorem Numbered.act {t} (h : Numbered s) : NumberedOut (s.act t) := by
  unfold State.act
  split
  · exact h.contextTurn
  · exact h.engineTurn
  · exact h.exec
  · exact .next h.setBar
  · exact .next h.resendAsked

theorem NumberedOut.powered {o} (ho : NumberedOut o) : NumberedOut (s.powered o) := by
  unfold State.powered
  split
  · exact .fault
  · exact ho

theorem NumberedOut.mapNext {o} {f : State → State} (ho : NumberedOut o) (hf : ∀ t, Numbered t → Numbered (f t)) :
    NumberedOut (mapNext f o) := by
  cases o with
  | next t => exact .next (hf t (ho t rfl))
  | fault r => exact .fault
  | refused r => exact .refused

/-- An agent's turn: an input that comes first, or the next agent's own, and the errors it met settled. -/
theorem Numbered.turn (h : Numbered s) : NumberedOut s.turn := by
  unfold State.turn
  split
  · next t rest _ =>
    have taken : Numbered (s.modSched fun x => { x with inputs := rest }) := h.modSched
    refine .mapNext ?_ fun _ ht => taken.settleMet ht
    split
    · exact taken.act
    · exact taken.act.powered
  · exact h.autoTurn.powered.mapNext fun _ ht => h.settleMet ht

theorem Numbered.tickClock (h : Numbered s) : Numbered s.tickClock := h.modSched

/-! ### A step -/

theorem Numbered.step (h : Numbered s) : NumberedOut (step s) := h.turn.mapNext fun _ ht => ht.tickClock

end Sys2Proof.Claims

end

section
namespace Sys2Proof.Proofs

open Sys2Proof.Machine Sys2Proof.Claims

/-- Settles O59: every function that a step runs keeps the numbers rising, so a step does. -/
theorem numbersRise : Obligations.NumbersRise := fun _ t numbers ords e =>
  numbered_iff.1 ((numbered_iff.2 ⟨numbers, ords⟩).step t e)

end Sys2Proof.Proofs
end

section
/-! PROOFS. Emptied L1s (R110, R116). -/

namespace Sys2Proof.Claims

open Sys2Proof.Machine

/-- The L1s of some cores emptied. -/
def emptyL1s (s : State) (l : List CoreId) : State := l.foldl (fun t q => t.modCore q fun c => { c with l1 := [] }) s

/-- The cores whose L1s core `p` uses: its own, or its bay's when fused (R110). -/
def l1Users (s : State) (p : CoreId) : List CoreId := if (s.bay (bayOf p)).fused then bayCores (bayOf p) else [p]

theorem clearL1_eq (s : State) (p : CoreId) : s.clearL1 p = emptyL1s s (l1Users s p) := by
  unfold State.clearL1 emptyL1s l1Users
  split
  · rfl
  · rfl

theorem emptyL1s_core (s : State) (l : List CoreId) (q : CoreId) :
    (emptyL1s s l).core q = if q ∈ l then { s.core q with l1 := [] } else s.core q := by
  induction l generalizing s with
  | nil => rfl
  | cons p l ih =>
    rw [emptyL1s, List.foldl_cons, ← emptyL1s, ih]
    by_cases e : p = q
    · subst e; simp
    · simp [e, Ne.symm e]

theorem emptyL1s_eq (s : State) (l : List CoreId) : emptyL1s s l = { s with cores := (emptyL1s s l).cores } := by
  induction l generalizing s with
  | nil => rfl
  | cons p l ih => exact ih (s.modCore p fun c => { c with l1 := [] })

theorem mem_bayCores {y : Fin 64} {q : CoreId} : q ∈ bayCores y ↔ bayOf q = y := by
  have own : ∀ j, coreOfBay y j = q ↔ q.val = y.val * 4 + j % 4 := fun j => by
    rw [eq_comm, Fin.ext_iff]; rfl
  have bay : bayOf q = y ↔ q.val / 4 = y.val := Fin.ext_iff
  simp only [bayCores, List.mem_map, List.mem_cons, List.not_mem_nil, or_false, own, bay]
  constructor
  · rintro ⟨j, -, e⟩
    omega
  · intro e
    exact ⟨q.val % 4, by omega, by omega⟩

theorem mem_l1Users {s : State} {p q : CoreId} :
    q ∈ l1Users s p ↔ if (s.bay (bayOf p)).fused then bayOf q = bayOf p else q = p := by
  unfold l1Users
  split
  · exact mem_bayCores
  · exact List.mem_singleton

end Sys2Proof.Claims
end

section
/-! PROOFS. Fences: what a context's fences wait for, and what placing one changes (R116, R117, R190). -/

namespace Sys2Proof.Claims

set_option Elab.async false

open Sys2Proof.Machine

variable {s t u : State} {c d : Core} {p : CoreId} {k : Ctx} {f : PendKind}

/-! ### A word without operands -/

theorem scalar_nil (s : State) (body : List Word → State → State) : scalar [] none false s body = body [] s := by
  have ok : operands (s.core s.p) s.k [] none false = .ok [] := rfl
  rw [scalar_ok false ok]
  exact congrArg (body []) (setCore_core s s.p)

/-! ### What a fence waits for -/

/-- What a fence looks at in a combining buffer: the number and the place of each entry. -/
def combPlaces (c : Core) : List (Nat × Loc) := c.comb.map fun e => (e.id, e.loc)

theorem any_combPlaces (c : Core) (f : Nat × Loc → Bool) : (combPlaces c).any f = c.comb.any fun e => f (e.id, e.loc) :=
  List.any_map

theorem fenceMet_congr (h : combPlaces d = combPlaces c) (l : List Pend) (i : Pend) : fenceMet d l i = fenceMet c l i := by
  have held : ∀ f : Nat × Loc → Bool, (d.comb.any fun e => f (e.id, e.loc)) = c.comb.any fun e => f (e.id, e.loc) :=
    fun f => by rw [← any_combPlaces, ← any_combPlaces, h]
  unfold fenceMet
  split
  · rfl
  · rfl
  · next sc m mark _ => rw [held fun x => decide (x.1 < mark) && relCovers sc x.2]
  · rfl

theorem settleList_congr (h : combPlaces d = combPlaces c) (before l : List Pend) :
    settleList d before l = settleList c before l := by
  induction l generalizing before with
  | nil => rfl
  | cons i l ih => simp [settleList, fenceMet_congr h, ih]

theorem combPlaces_flushAll (c : Core) : combPlaces c.flushAll = combPlaces c := by
  simp [combPlaces, Core.flushAll, Function.comp_def]

/-- Fences settle from the oldest on: an item behind the others is looked at last. -/
theorem settleList_snoc (c : Core) (before l : List Pend) (i : Pend) :
    settleList c before (l ++ [i]) =
      if fenceMet c (settleList c before l) i then settleList c before l else settleList c before l ++ [i] := by
  induction l generalizing before with
  | nil => rfl
  | cons j l ih =>
    rw [List.cons_append, settleList, settleList]
    split <;> exact ih _

theorem isAccess_eq (i : Pend) : i.isAccess = (accessAt i).isSome := by
  unfold Pend.isAccess Pend.loc? accessAt
  cases i.kind <;> rfl

theorem isRead_iff (i : Pend) : i.isRead = true ↔ ∃ l w, accessAt i = some (l, true, w) := by
  unfold Pend.isRead accessAt
  cases i.kind <;> simp

theorem relCovers_iff (sc : Scope) (l : Loc) : relCovers sc l = true ↔ awaited sc l := by
  cases sc <;> simp [relCovers, awaited]

theorem relWaits_iff (sc : Scope) (i : Pend) :
    relWaits sc i = true ↔ ∃ l ld st, accessAt i = some (l, ld, st) ∧ (ld = true ∨ awaited sc l) := by
  unfold relWaits Pend.loc? Pend.isRead accessAt
  cases i.kind <;> simp [relCovers_iff]

/-! ### Placing a fence -/

/-- A fence as it stands among the items of its context. -/
def fenceItem (n : Nat) (f : PendKind) : Pend := { id := n, cls := 0, kind := f, dst := none }

/-- What stands of a fence numbered `n` placed behind `l`: nothing once it takes effect. -/
def standing (c : Core) (l : List Pend) (n : Nat) (f : PendKind) : List Pend :=
  if fenceMet c l (fenceItem n f) then [] else [fenceItem n f]

theorem settleList_standing {l : List Pend} (h : settleList c [] l = l) (n : Nat) (f : PendKind) :
    settleList c [] (l ++ standing c l n f) = l ++ standing c l n f := by
  unfold standing
  split
  · simpa using h
  · next met => rw [settleList_snoc, h, if_neg met]

/-- Whether a fence that takes effect empties the L1s (R116). -/
def empties (f : PendKind) : Bool := acquires (fenceItem 0 f)

theorem acquires_fenceItem (n : Nat) (f : PendKind) : acquires (fenceItem n f) = empties f := rfl

theorem empties_iff : empties f = true ↔ ∃ sc m, f = .acq sc m ∧ (sc = .bay ∨ sc = .bent ∨ sc = .dev ∨ sc = .sys) := by
  cases f with
  | acq sc m => cases sc <;> simp [empties, acquires, fenceItem]
  | _ => simp [empties, acquires, fenceItem]

/-- The state with a fence placed behind the items of a context and numbered, or in effect at once. -/
def withFence (s : State) (p : CoreId) (k : Ctx) (f : PendKind) : State :=
  s.setCtx p k { s.ctx p k with
    nextId := (s.ctx p k).nextId + 1
    pend := (s.ctx p k).pend ++ standing (s.core p) (s.ctx p k).pend (s.ctx p k).nextId f }

/-- Whether a fence placed takes effect at once and empties L1s. -/
def emptiesNow (s : State) (p : CoreId) (k : Ctx) (f : PendKind) : Bool :=
  fenceMet (s.core p) (s.ctx p k).pend (fenceItem (s.ctx p k).nextId f) && empties f

theorem placeFence_eq (settled : settleList (s.core p) [] (s.ctx p k).pend = (s.ctx p k).pend) :
    s.placeFence p k f = if emptiesNow s p k f then (withFence s p k f).clearL1 p else withFence s p k f := by
  have issued : s.modCore p (fun c => c.issue k none 0 f) = s.setCtx p k { s.ctx p k with
      nextId := (s.ctx p k).nextId + 1, pend := (s.ctx p k).pend ++ [fenceItem (s.ctx p k).nextId f] } := rfl
  have comb : ∀ x, combPlaces ((s.setCtx p k x).core p) = combPlaces (s.core p) := fun x => by
    rw [core_setCtx]; rfl
  unfold State.placeFence
  rw [issued, State.settleCtx]
  simp only [ctx_setCtx, setCtx_setCtx_state, settleList_congr (comb _), settleList_snoc, settled]
  unfold emptiesNow withFence standing
  by_cases met : fenceMet (s.core p) (s.ctx p k).pend (fenceItem (s.ctx p k).nextId f) = true
  · have fewer : (decide ((s.ctx p k).pend.countP acquires <
        ((s.ctx p k).pend ++ [fenceItem (s.ctx p k).nextId f]).countP acquires)) = empties f := by
      rw [List.countP_append, List.countP_singleton, acquires_fenceItem]
      cases empties f <;> simp
    simp only [met, if_true, Bool.true_and, fewer, List.append_nil]
  · simp [met]

/-! ### A fence takes effect unless something it waits for is outstanding -/

theorem fenceMet_fence (n : Nat) (m : BitVec 16) :
    fenceMet (s.core s.p) s.me!.pend (fenceItem n (.fence m)) = true ↔ ¬ Outstanding s (.fence m) := by
  simp [fenceMet, fenceItem, Outstanding, isAccess_eq, inMask]

theorem fenceMet_acq (n : Nat) (sc : Scope) (m : BitVec 16) :
    fenceMet (s.core s.p) s.me!.pend (fenceItem n (.acq sc m)) = true ↔ ¬ Outstanding s (.acq sc m) := by
  simp only [Outstanding, ← isRead_iff]
  simp [fenceMet, fenceItem, inMask]

theorem outstanding_rel_iff {sc : Scope} {m : BitVec 16} {mark : Nat} : Outstanding s (.rel sc m mark) ↔
    (∃ i ∈ s.me!.pend, relWaits sc i = true ∧ m.getLsbD i.cls.toNat = true) ∨
      ∃ e ∈ (s.core s.p).comb, relCovers sc e.loc = true := by
  simp only [Outstanding, relWaits_iff, relCovers_iff, ← exists_and_right, and_assoc]

theorem fenceMet_rel (below : ∀ e ∈ (s.core s.p).comb, e.id < (s.core s.p).combNext) (n : Nat) (sc : Scope)
    (m : BitVec 16) : fenceMet (s.core s.p) s.me!.pend (fenceItem n (.rel sc m (s.core s.p).combNext)) = true ↔
      ¬ Outstanding s (.rel sc m (s.core s.p).combNext) := by
  rw [outstanding_rel_iff]
  simp only [fenceMet, fenceItem, inMask, Bool.and_eq_true, Bool.not_eq_true', List.any_eq_false, decide_eq_true_eq,
    not_or, not_exists, not_and]
  refine and_congr (by simp) ⟨fun h e he covers => h e he (below e he) covers, fun h e he _ covers => h e he covers⟩


theorem fenceMet_iff {i : Instr} (kind : fenceKind i s = some f)
    (below : ∀ e ∈ (s.core s.p).comb, e.id < (s.core s.p).combNext) (n : Nat) :
    fenceMet (s.core s.p) s.me!.pend (fenceItem n f) = true ↔ ¬ Outstanding s f := by
  cases i <;> cases kind
  · exact fenceMet_fence n _
  · exact fenceMet_acq n _ _
  · exact fenceMet_rel below n _ _

theorem stands_standing {n : Nat} (met : fenceMet (s.core s.p) s.me!.pend (fenceItem n f) = true ↔ ¬ Outstanding s f) :
    Stands s f n (standing (s.core s.p) s.me!.pend n f) := by
  unfold standing
  by_cases out : Outstanding s f
  · rw [if_neg (by simpa [met] using out)]
    exact ⟨fun _ => ⟨_, rfl, rfl, rfl⟩, fun h => absurd out h⟩
  · rw [if_pos (met.2 out)]
    exact ⟨fun h => absurd h out, fun _ => rfl⟩

/-! ### What placing a fence changes -/

/-- What the placing of fences of one context can change: that context's items and their count, the entries of its core's
combining buffer, and L1s. -/
structure Fencing (p : CoreId) (k : Ctx) (s t : State) : Prop where
  module : t = { s with cores := t.cores }
  others : ∀ q, q ≠ p → t.core q = { s.core q with l1 := (t.core q).l1 }
  core : t.core p = { s.core p with ctx := (t.core p).ctx, comb := (t.core p).comb, l1 := (t.core p).l1 }
  contexts : ∀ j, j ≠ k → t.ctx p j = s.ctx p j
  context : t.ctx p k = { s.ctx p k with pend := (t.ctx p k).pend, nextId := (t.ctx p k).nextId }

theorem Fencing.trans (a : Fencing p k s t) (b : Fencing p k t u) : Fencing p k s u where
  module := by rw [b.module, a.module]
  others q hq := by rw [b.others q hq, a.others q hq]
  core := by rw [b.core, a.core]
  contexts j hj := (b.contexts j hj).trans (a.contexts j hj)
  context := by rw [b.context, a.context]

theorem Fencing.flushAll (s : State) (p : CoreId) (k : Ctx) : Fencing p k s (s.modCore p Core.flushAll) where
  module := rfl
  others q hq := by simp [Ne.symm hq]
  core := by simp [Core.flushAll]
  contexts j _ := by simp [State.ctx, Core.flushAll, Core.getCtx]
  context := by simp [State.ctx, Core.flushAll, Core.getCtx]

theorem core_withFence_ne {q : CoreId} (hq : q ≠ p) : (withFence s p k f).core q = s.core q :=
  core_setCore_ne _ _ _ _ (Ne.symm hq)

theorem core_withFence : (withFence s p k f).core p = { s.core p with ctx := ((withFence s p k f).core p).ctx } := by
  unfold withFence
  rw [core_setCtx]
  rfl

theorem l1_withFence (q : CoreId) : ((withFence s p k f).core q).l1 = (s.core q).l1 := by
  by_cases e : q = p
  · rw [e, core_withFence]
  · rw [core_withFence_ne e]

theorem Fencing.withFence : Fencing p k s (withFence s p k f) where
  module := rfl
  others q hq := by rw [core_withFence_ne hq]
  core := by rw [core_withFence]
  contexts j hj := ctx_setCtx_ne _ _ _ _ _ (Ne.symm hj)
  context := by unfold Claims.withFence; rw [ctx_setCtx]

theorem core_clearL1 (q : CoreId) : (s.clearL1 p).core q = { s.core q with l1 := ((s.clearL1 p).core q).l1 } := by
  rw [clearL1_eq, emptyL1s_core]
  split <;> rfl

theorem ctx_clearL1_any (q : CoreId) (j : Ctx) : (s.clearL1 p).ctx q j = s.ctx q j := by
  unfold State.ctx
  rw [core_clearL1 q]
  rfl

theorem Fencing.clearL1 : Fencing p k s (s.clearL1 p) where
  module := by rw [clearL1_eq]; exact emptyL1s_eq s _
  others q _ := core_clearL1 q
  core := by rw [core_clearL1]
  contexts j _ := ctx_clearL1_any p j
  context := by rw [ctx_clearL1_any]

/-- A fence of context `k` placed, with `cs` the entries of the combining buffer after it. -/
structure FencePlaced (p : CoreId) (k : Ctx) (s t : State) (f : PendKind) (cs : List Comb) : Prop where
  fencing : Fencing p k s t
  pend : (t.ctx p k).pend = (s.ctx p k).pend ++ standing (s.core p) (s.ctx p k).pend (s.ctx p k).nextId f
  nextId : (t.ctx p k).nextId = (s.ctx p k).nextId + 1
  comb : (t.core p).comb = cs
  l1 : ∀ q, (t.core q).l1 = if emptiesNow s p k f = true ∧ q ∈ l1Users s p then [] else (s.core q).l1

theorem placeFence_placed (settled : settleList (s.core p) [] (s.ctx p k).pend = (s.ctx p k).pend) (f : PendKind) :
    FencePlaced p k s (s.placeFence p k f) f (s.core p).comb := by
  have pend : (withFence s p k f).ctx p k = { s.ctx p k with
      nextId := (s.ctx p k).nextId + 1
      pend := (s.ctx p k).pend ++ standing (s.core p) (s.ctx p k).pend (s.ctx p k).nextId f } := ctx_setCtx _ _ _ _
  rw [placeFence_eq settled]
  cases now : emptiesNow s p k f with
  | false =>
    refine ⟨Fencing.withFence, by simp [pend], by simp [pend], ?_, fun q => ?_⟩
    · simp only [Bool.false_eq_true, if_false]
      rw [core_withFence]
    · simp [now, l1_withFence]
  | true =>
    refine ⟨Fencing.withFence.trans Fencing.clearL1, by simp [ctx_clearL1_any, pend], by simp [ctx_clearL1_any, pend], ?_,
      fun q => ?_⟩
    · simp only [if_true]
      rw [core_clearL1, core_withFence]
    · have users : l1Users (withFence s p k f) p = l1Users s p := rfl
      simp only [if_true, now, true_and, clearL1_eq, users, emptyL1s_core]
      by_cases user : q ∈ l1Users s p
      · simp [user]
      · simp [user, l1_withFence]

theorem placeRel_placed (settled : settleList (s.core p) [] (s.ctx p k).pend = (s.ctx p k).pend) (sc : Scope)
    (m : BitVec 16) :
    FencePlaced p k s (s.placeRel p k sc m) (.rel sc m (s.core p).combNext) (s.core p).flushAll.comb := by
  have core : (s.modCore p Core.flushAll).core p = (s.core p).flushAll := core_modCore s p _
  have ctx : (s.modCore p Core.flushAll).ctx p k = s.ctx p k := by unfold State.ctx; rw [core]; rfl
  have places : combPlaces ((s.modCore p Core.flushAll).core p) = combPlaces (s.core p) := by
    rw [core, combPlaces_flushAll]
  have l1 : ∀ q, ((s.modCore p Core.flushAll).core q).l1 = (s.core q).l1 := fun q => by
    by_cases e : p = q
    · rw [← e, core]; rfl
    · rw [core_modCore_ne _ _ _ _ e]
  have done := placeFence_placed (s := s.modCore p Core.flushAll) (p := p) (k := k)
    (by rw [ctx, settleList_congr places, settled]) (.rel sc m (s.core p).combNext)
  refine ⟨(Fencing.flushAll s p k).trans done.fencing, ?_, ?_, ?_, fun q => ?_⟩
  · rw [State.placeRel, done.pend, ctx, standing, standing, fenceMet_congr places]
  · rw [State.placeRel, done.nextId, ctx]
  · rw [State.placeRel, done.comb, core]
  · rw [State.placeRel, done.l1, l1]
    simp [emptiesNow, empties, acquires, fenceItem]

/-! ### Committing behind the fence -/

theorem Fencing.p_eq (h : Fencing p k s t) : t.p = s.p := by rw [h.module]; rfl

theorem Fencing.k_eq (h : Fencing p k s t) : t.k = s.k := by rw [h.module]; rfl

theorem Fencing.noStep (h : Fencing s.p s.k s t) (running : NoStep s) : NoStep t := by
  have me : t.me! = { s.me! with pend := (t.ctx s.p s.k).pend, nextId := (t.ctx s.p s.k).nextId } := by
    unfold State.me!
    rw [h.p_eq, h.k_eq, h.context]
  show (!t.me!.supMode && t.me!.stepBit) = false
  rw [me]
  exact running

/-- A committed word leaves the other cores as they stand. -/
theorem core_advance_ne (running : NoStep s) {q : CoreId} (hq : q ≠ s.p) : s.advance.core q = s.core q := by
  unfold State.advance
  rw [commit_eq s s.user _ running, core_setCore_ne _ _ _ _ (Ne.symm hq)]

theorem advance_eq (running : NoStep s) :
    s.advance = s.setCore s.p { (s.core s.p).setCtx s.k (s.me!.next (s.me!.pc + 4)) with dbg := (s.advance.core s.p).dbg } :=
  commit_eq s s.user _ running

theorem core_advance (running : NoStep s) : s.advance.core s.p =
    { (s.core s.p).setCtx s.k (s.me!.next (s.me!.pc + 4)) with dbg := (s.advance.core s.p).dbg } :=
  commit_core s s.user _ running

theorem l1_advance (running : NoStep s) (q : CoreId) : (s.advance.core q).l1 = (s.core q).l1 := by
  by_cases e : q = s.p
  · rw [e, core_advance running]; rfl
  · rw [core_advance_ne running e]

theorem Fencing.advance (h : Fencing s.p s.k s t) (running : NoStep s) :
    FenceFrame s t.advance ∧ (t.advance.ctx s.p s.k).pend = (t.ctx s.p s.k).pend ∧
      (t.advance.core s.p).comb = (t.core s.p).comb ∧ (t.advance.core s.p).combNext = (t.core s.p).combNext := by
  have still := h.noStep running
  have core := core_advance still
  have me : t.advance.ctx t.p t.k = t.me!.next (t.me!.pc + 4) := commit_me t t.user _ still
  have other : ∀ j, j ≠ t.k → t.advance.ctx t.p j = t.ctx t.p j := fun j hj => commit_ctx_ne t t.user _ j still hj
  have now : t.me! = t.ctx s.p s.k := by unfold State.me!; rw [h.p_eq, h.k_eq]
  rw [h.p_eq, h.k_eq, now] at core me
  rw [h.p_eq, h.k_eq] at other
  refine ⟨⟨?_, fun q hq => ?_, ?_, fun j hj => ?_, ?_⟩, ?_, ?_, ?_⟩
  · rw [advance_eq still, h.module]; rfl
  · rw [core_advance_ne still (by rwa [h.p_eq]), h.others q hq]
  · rw [core, h.core]; rfl
  · rw [other j hj, h.contexts j hj]
  · rw [me, h.context]; rfl
  · rw [me]; rfl
  · rw [core]; rfl
  · rw [core]; rfl

theorem emptied_iff (met : fenceMet (s.core s.p) s.me!.pend (fenceItem s.me!.nextId f) = true ↔ ¬ Outstanding s f)
    (q : CoreId) : emptied s f q ↔ emptiesNow s s.p s.k f = true ∧ q ∈ l1Users s s.p := by
  have now : emptiesNow s s.p s.k f = true ↔ ¬ Outstanding s f ∧ empties f = true := by
    rw [← met]
    exact Bool.and_eq_true_iff
  unfold emptied
  rw [now, empties_iff, mem_l1Users]
  exact ⟨fun ⟨a, b, c⟩ => ⟨⟨b, a⟩, c⟩, fun ⟨⟨b, a⟩, c⟩ => ⟨a, b, c⟩⟩

theorem l1After_iff (met : fenceMet (s.core s.p) s.me!.pend (fenceItem s.me!.nextId f) = true ↔ ¬ Outstanding s f)
    (l1 : ∀ q, (t.core q).l1 = if emptiesNow s s.p s.k f = true ∧ q ∈ l1Users s s.p then [] else (s.core q).l1) :
    L1After s t f := fun q => by
  rw [emptied_iff met]
  exact ⟨fun h => by rw [l1, if_pos h], fun h => by rw [l1, if_neg h]⟩

/-- Placing and committing fences keeps what a context has issued settled. -/
theorem settled_of (below : ∀ e ∈ (s.core s.p).comb, e.id < (s.core s.p).combNext) (frame : FenceFrame s t)
    (places : combPlaces (t.core s.p) = combPlaces (s.core s.p))
    (settled : settleList (s.core s.p) [] (t.ctx s.p s.k).pend = (t.ctx s.p s.k).pend) : Settled t := by
  have p : t.p = s.p := by rw [frame.module]; rfl
  have k : t.k = s.k := by rw [frame.module]; rfl
  have next : (t.core s.p).combNext = (s.core s.p).combNext := by rw [frame.core]
  unfold Settled State.me!
  rw [p, k, settleList_congr places, next]
  refine ⟨settled, fun e he => ?_⟩
  have entry : (e.id, e.loc) ∈ combPlaces (s.core s.p) := places ▸ List.mem_map_of_mem he
  obtain ⟨d, hd, same⟩ := List.mem_map.1 entry
  have := below d hd
  simp only [Prod.mk.injEq] at same
  omega

theorem FencePlaced.settled {cs : List Comb} (h : FencePlaced p k s t f cs)
    (settled : settleList (s.core p) [] (s.ctx p k).pend = (s.ctx p k).pend) :
    settleList (s.core p) [] (t.ctx p k).pend = (t.ctx p k).pend := by
  rw [h.pend]
  exact settleList_standing settled _ _

/-- A fence of R117 placed and committed. -/
theorem FencePlaced.committed {cs : List Comb} (h : FencePlaced s.p s.k s t f cs) (running : NoStep s) (settled : Settled s)
    (places : combPlaces (t.core s.p) = combPlaces (s.core s.p))
    (met : fenceMet (s.core s.p) s.me!.pend (fenceItem s.me!.nextId f) = true ↔ ¬ Outstanding s f) :
    ∃ l, FenceFrame s t.advance ∧ (t.advance.ctx s.p s.k).pend = s.me!.pend ++ l ∧ Stands s f s.me!.nextId l ∧
      L1After s t.advance f ∧ Settled t.advance ∧ (t.advance.core s.p).comb = cs := by
  obtain ⟨frame, pend, comb, -⟩ := h.fencing.advance running
  refine ⟨_, frame, pend.trans h.pend, stands_standing met, l1After_iff met fun q => ?_,
    settled_of settled.2 frame ?_ ?_, comb.trans h.comb⟩
  · rw [l1_advance (h.fencing.noStep running), h.l1]
  · rw [← places, combPlaces, combPlaces, comb]
  · rw [pend]
    exact h.settled settled.1

theorem fences : Fences := by
  intro i s f kind running settled
  have met := fenceMet_iff kind settled.2 s.me!.nextId
  cases i <;> cases kind
  case fence sb m =>
    have placed := placeFence_placed (s := s) (p := s.p) (k := s.k) settled.1 (.fence m)
    obtain ⟨l, done⟩ := placed.committed running settled (by rw [combPlaces, placed.comb]; rfl) met
    exact ⟨_, l, by rw [exec_fence, execFence, scalar_nil], done⟩
  case acq r =>
    have placed := placeFence_placed (s := s) (p := s.p) (k := s.k) settled.1 (.acq r.scope r.mask)
    obtain ⟨l, done⟩ := placed.committed running settled (by rw [combPlaces, placed.comb]; rfl) met
    exact ⟨_, l, by rw [exec_acq, execAcq, scalar_nil]; rfl, done⟩
  case rel r =>
    have placed := placeRel_placed (s := s) (p := s.p) (k := s.k) settled.1 r.scope r.mask
    obtain ⟨l, done⟩ := placed.committed running settled
      (by rw [combPlaces, placed.comb]; exact combPlaces_flushAll _) met
    exact ⟨_, l, by rw [exec_rel, execRel, scalar_nil], done⟩

/-- An acquire waits for reads alone, so that a release before it makes no difference to it. -/
theorem fenceMet_acq_behind (c : Core) (l : List Pend) (n m : Nat) (sc : Scope) (a b : BitVec 16) (mark : Nat) :
    fenceMet d (l ++ standing c l n (.rel sc a mark)) (fenceItem m (.acq sc b)) =
      fenceMet c l (fenceItem m (.acq sc b)) := by
  have release : ∀ i ∈ standing c l n (.rel sc a mark), i.isRead = false := by
    unfold standing
    split
    · simp
    · simp [fenceItem, Pend.isRead]
  have none : ((standing c l n (.rel sc a mark)).any fun j => j.isRead && inMask b j.cls) = false :=
    List.any_eq_false.2 fun i hi => by simp [release i hi]
  simp [fenceMet, fenceItem, none]

theorem releaseAcquire : ReleaseAcquire := by
  intro r s running settled
  have one := placeRel_placed (s := s) (p := s.p) (k := s.k) settled.1 r.scope r.mask
  have run : exec (.acqrel r) s = .next ((s.placeRel s.p s.k r.scope r.mask).placeAcq s.p s.k r.scope r.mask).advance := by
    rw [exec_acqrel, execAcqrel, scalar_nil]
  generalize s.placeRel s.p s.k r.scope r.mask = u at one run
  have places : combPlaces (u.core s.p) = combPlaces (s.core s.p) := by
    rw [combPlaces, one.comb]; exact combPlaces_flushAll _
  have two : FencePlaced s.p s.k u (u.placeAcq s.p s.k r.scope r.mask) (.acq r.scope r.mask) (u.core s.p).comb :=
    placeFence_placed (by rw [settleList_congr places]; exact one.settled settled.1) _
  have fencing := one.fencing.trans two.fencing
  obtain ⟨frame, pend, comb, -⟩ := fencing.advance running
  have behind : ∀ n, fenceMet (u.core s.p) (u.ctx s.p s.k).pend (fenceItem n (.acq r.scope r.mask)) =
      fenceMet (s.core s.p) s.me!.pend (fenceItem n (.acq r.scope r.mask)) := fun n => by
    rw [one.pend]
    exact fenceMet_acq_behind _ _ _ _ _ _ _ _
  have acq : standing (u.core s.p) (u.ctx s.p s.k).pend (u.ctx s.p s.k).nextId (.acq r.scope r.mask) =
      standing (s.core s.p) s.me!.pend (s.me!.nextId + 1) (.acq r.scope r.mask) := by
    rw [standing, behind, one.nextId]; rfl
  refine ⟨_, _, _, run, frame, pend.trans ?_, stands_standing (fenceMet_rel settled.2 _ _ _),
    stands_standing (fenceMet_acq _ _ _), l1After_iff (fenceMet_acq _ _ _) fun q => ?_,
    settled_of settled.2 frame ?_ ?_, comb.trans (two.comb.trans one.comb)⟩
  · rw [two.pend, acq, one.pend]; rfl
  · have now : emptiesNow u s.p s.k (.acq r.scope r.mask) = emptiesNow s s.p s.k (.acq r.scope r.mask) := by
      unfold emptiesNow
      rw [behind]; rfl
    have users : l1Users u s.p = l1Users s s.p := by rw [one.fencing.module]; rfl
    rw [l1_advance (fencing.noStep running), two.l1, one.l1, now, users]
    simp [emptiesNow, empties, acquires, fenceItem]
  · rw [combPlaces, comb, two.comb]
    exact places
  · rw [pend, ← settleList_congr places]
    exact two.settled (by rw [settleList_congr places]; exact one.settled settled.1)

/-! ### What a fence holds back -/

theorem unfenced_iff (cls : BitVec 4) (write : Bool) : Unfenced s cls write ↔ s.me!.fenced cls write = false := by
  unfold Unfenced Context.fenced
  rw [List.any_eq_false]
  refine forall₂_congr fun i _ => ?_
  cases i.kind <;> simp [inMask]

theorem waits_blockNow (s : State) : Waits s s.blockNow := rfl

/-- An access in a class that a fence covers waits, before its address is translated. -/
theorem issueAccess_fenced {s0 : State} {va : Word} {n : Nat} {acc : Acc} {cls : BitVec 4} {ok : Loc → Bool}
    {push : Option (BitVec 5)} {kind : Loc → PendKind} (fenced : ¬ Unfenced s0 cls (acc != .read)) :
    issueAccess s0 s va n acc cls ok push kind = s0.blockNow := by
  rw [unfenced_iff, Bool.not_eq_false] at fenced
  rw [issueAccess, if_pos fenced]

/-- The returning atomics act alike (R188). -/
theorem exec_atomic {i : Instr} {r : Atom} {op : AtomOp} (kind : atomicOp i = some (r, op)) (s : State) :
    exec i s = .next (scalar (atomicReads r op) (some r.d) false s fun v t =>
      issueAccess s t (arg v 0) (szBytes r.sz) .rmw r.cls s.atomicAt (some r.d)
        fun l => .atomic l (szBytes r.sz) op (arg v 1) (if op = .cas then arg v 2 else 0)) := by
  cases i <;> cases kind <;> rfl

theorem fencedWait : FencedWait := by
  intro s vals
  refine ⟨fun x r reads fenced => ?_, fun r reads fenced => ?_, fun i r op kind reads fenced => ?_⟩
  · refine ⟨_, ?_, waits_blockNow s⟩
    have load : exec (if x then .lds r else .ldz r) s = loadOp x r s := by cases x <;> rfl
    rw [load, loadOp, scalar_ok false reads, issueAccess_fenced fenced]
  · refine ⟨_, ?_, waits_blockNow s⟩
    rw [exec_st, execSt, scalar_ok false reads, issueAccess_fenced fenced]
  · refine ⟨_, ?_, waits_blockNow s⟩
    rw [exec_atomic kind, scalar_ok false reads, issueAccess_fenced fenced]

end Sys2Proof.Claims
end

section
namespace Sys2Proof.Proofs

open Sys2Proof.Machine Sys2Proof.Claims

/-- Settles O9: a fence goes behind the items of its context, so it is the last that settling them looks at. -/
theorem fencesOrder : Obligations.FencesOrder := ⟨fencedWait, fences, releaseAcquire⟩

end Sys2Proof.Proofs
end

section
/-! PROOFS. Waits on a word: how they commit and sleep, what a write wakes, what MONCLR ends (R122, R124, R191). -/

namespace Sys2Proof.Claims

set_option Elab.async false

open Sys2Proof.Machine

variable {s t u : State} {c d : Core} {p q : CoreId} {k : Ctx} {l : Loc}

/-! ### Writes at a monitored word -/

theorem mem_woken_wake {x : CoreId × Ctx} {n : Nat} (h : x ∈ s.wakesAt q l n) : x ∈ (s.wake q l n).marks.woken := by
  show x ∈ ((s.wakesAt q l n).filter fun y => !s.marks.woken.contains y) ++ s.marks.woken
  by_cases noted : x ∈ s.marks.woken
  · exact List.mem_append_right _ noted
  · exact List.mem_append_left _ (List.mem_filter.2 ⟨h, by simpa using noted⟩)

theorem mem_allCores (p : CoreId) : p ∈ allCores :=
  List.mem_map.2 ⟨p.val, List.mem_range.2 p.isLt, Fin.ext (Nat.mod_eq_of_lt p.isLt)⟩

theorem mem_wakesAt {e : Mon} {n : Nat} (entry : e ∈ (s.core p).mon) (meets : e.loc.overlap 8 l n = true)
    (own : ∀ o, l = .spad o → q = p) : (p, e.ctx) ∈ s.wakesAt q l n := by
  have wakes : (p, e.ctx) ∈ (s.core p).wakes p l n :=
    List.mem_map.2 ⟨e, List.mem_filter.2 ⟨entry, meets⟩, rfl⟩
  cases l with
  | spad o => rw [← own o rfl] at wakes ⊢; exact wakes
  | phys a => exact List.mem_flatMap.2 ⟨p, mem_allCores p, wakes⟩

theorem storePhys_cores (s : State) (a : Nat) (bs : List Byte) : (s.storePhys a bs).cores = s.cores := by
  induction bs generalizing s a with
  | nil => rfl
  | cons b bs ih => exact ih (s.setByte a b) (a + 1)

theorem woken_writeLoc {bs : List Byte} {e : Mon} (entry : e ∈ (s.core p).mon)
    (meets : e.loc.overlap 8 l bs.length = true) (own : ∀ o, l = .spad o → q = p) :
    (p, e.ctx) ∈ (s.writeLoc q l bs).marks.woken := by
  cases l with
  | spad o =>
    refine mem_woken_wake (mem_wakesAt ?_ meets own)
    rw [own o rfl, core_modCore]
    exact entry
  | phys a =>
    refine mem_woken_wake (mem_wakesAt ?_ meets fun o h => nomatch h)
    rw [State.core, storePhys_cores, ← State.core]
    exact entry

theorem waitsWoken : WaitsWoken := by
  refine ⟨fun s p q l bs e entry meets own => woken_writeLoc entry meets own, fun p k s w wait => ?_⟩
  have wake : exec (.waitWake p k) s = execWaitWake p k s := rfl
  have poll : exec (.monitorPoll p k) s = execMonitorPoll p k s := rfl
  rw [wake, poll, execWaitWake, execMonitorPoll]
  simp only [wait]
  refine ⟨fun mon noted => ?_, fun mon silent => ?_, fun mon due running => ?_, fun early => ?_⟩
  · rw [if_pos ⟨mon, by simpa using noted⟩]
    have keeps : (fun x : CoreId × Ctx => x != (p, k)) = fun x => decide (x ≠ (p, k)) := by
      funext x
      by_cases e : x = (p, k) <;> simp [e]
    rw [State.unwake, keeps]; rfl
  · rw [if_neg fun h => silent (by simpa using h.2)]
  · rw [if_pos ⟨by simp [mon], due, by simp [running]⟩]
  · rw [if_neg]
    rintro ⟨-, due, running⟩
    rcases early with h | h
    · omega
    · simp [h] at running

/-! ### Looking at a word -/

/-- What looking at the word of a wait changes: TLBs, performance counters, the LLC, the pool and the lines met. -/
structure Looked (p : CoreId) (s t : State) : Prop where
  cores : ∀ q, q ≠ p → t.core q = s.core q
  core : t.core p = { s.core p with tlb := (t.core p).tlb, dbg := (t.core p).dbg }
  mem : t.mem = s.mem
  sched : t.sched = s.sched
  woken : t.marks.woken = s.marks.woken

theorem Looked.trans (a : Looked p s t) (b : Looked p t u) : Looked p s u where
  cores q hq := (b.cores q hq).trans (a.cores q hq)
  core := by rw [b.core, a.core]
  mem := b.mem.trans a.mem
  sched := b.sched.trans a.sched
  woken := b.woken.trans a.woken

/-- A change that leaves the cores alone. -/
theorem Looked.frame (cores : t.cores = s.cores) (mem : t.mem = s.mem := by rfl) (sched : t.sched = s.sched := by rfl)
    (woken : t.marks.woken = s.marks.woken := by rfl) : Looked p s t := by
  have core : ∀ q, t.core q = s.core q := fun q => by rw [State.core, cores, ← State.core]
  exact ⟨fun q _ => core q, by rw [core], mem, sched, woken⟩

theorem Looked.refl (p : CoreId) (s : State) : Looked p s s := .frame rfl

theorem looked_note (s : State) (p : CoreId) (va : Word) : Looked p s (s.note p va) := by
  obtain ⟨module, others, core, -⟩ := note_sameButTlb s p va
  exact ⟨others, core, by rw [module], by rw [module], by rw [module]⟩

theorem looked_touchLoc (s : State) (l : Loc) (n : Nat) : Looked p s (s.touchLoc l n) := by
  unfold State.touchLoc
  split
  · exact .refl p s
  · split <;> exact .frame rfl

theorem looked_holdPool (s : State) (l : Loc) (n : Nat) (wr : Bool) : Looked p s (s.holdPool l n wr) := by
  unfold State.holdPool
  split
  · exact .refl p s
  · dsimp only
    split
    · split
      · exact .frame rfl
      · exact .refl p s
    · exact .refl p s

theorem looked_meet (s : State) (o : Option CoreId) (l : Loc) (n : Nat) : Looked p s (s.meet o l n) := by
  unfold State.meet
  split
  · exact .refl p s
  · dsimp only
    split
    · exact .refl p s
    · exact .frame rfl

theorem looked (s : State) (p : CoreId) (va : Word) (l : Loc) (n : Nat) : Looked p s ((s.note p va).used p l n) :=
  (looked_note s p va).trans
    ((looked_touchLoc _ l n).trans ((looked_holdPool _ l n false).trans (looked_meet _ (some p) l n)))

theorem Looked.p_eq (h : Looked q s t) : t.p = s.p := by unfold State.p; rw [h.sched]

theorem Looked.k_eq (h : Looked q s t) : t.k = s.k := by unfold State.k; rw [h.sched]

/-! ### A wait that commits -/

theorem popped_core (s : State) (rds : List Rd) : (popped s rds).core s.p = popAll (s.core s.p) s.k rds := core_modCore ..

/-- A core once its context `k` reserves the entry for a wait's value, its monitor entry freed. -/
def waitIssued (c : Core) (k : Ctx) (d : BitVec 5) (v : Word) : Core := (c.freeMon k).issue k (some d) 0 (.value v)

theorem endWait_eq (s : State) (d : BitVec 5) (v : Word) :
    s.endWait d v = (s.modCore s.p fun c => c.freeMon s.k).after (waitIssued (s.core s.p) s.k d v) := by
  have core : ((s.modCore s.p fun c => c.freeMon s.k).core s.p) = (s.core s.p).freeMon s.k := core_modCore ..
  unfold State.after waitIssued
  rw [← core]
  rfl

theorem me_freeMon (s : State) : (s.modCore s.p fun c => c.freeMon s.k).me! = s.me! := by
  show ((s.modCore s.p fun c => c.freeMon s.k).core s.p).getCtx s.k = _
  rw [core_modCore]; rfl

/-- A wait that commits changes its core alone. -/
theorem core_endWait (running : NoStep s) (d : BitVec 5) (v : Word) :
    (s.endWait d v).core s.p = { (waitIssued (s.core s.p) s.k d v).setCtx s.k
        (((waitIssued (s.core s.p) s.k d v).getCtx s.k).next (s.me!.pc + 4)) with dbg := ((s.endWait d v).core s.p).dbg } ∧
    s.endWait d v = s.setCore s.p ((s.endWait d v).core s.p) := by
  have me := me_freeMon s
  have issued : SameButIssue s.k ((s.modCore s.p fun c => c.freeMon s.k).core s.p) (waitIssued (s.core s.p) s.k d v) := by
    rw [core_modCore]
    exact issue_same _ _ _ _ _
  obtain ⟨core, module⟩ := after_core (s.modCore s.p fun c => c.freeMon s.k) _ issued
    (by show (!(State.me! _).supMode && _) = false; rw [me]; exact running)
  rw [me] at core
  rw [endWait_eq]
  exact ⟨core, module.trans (setCore_setCore _ _ _ _)⟩

theorem waitIssued_pend (c : Core) (k : Ctx) (d : BitVec 5) (v : Word) :
    ((waitIssued c k d v).getCtx k).pend = (c.getCtx k).pend ++
      [{ id := (c.getCtx k).nextId, cls := 0, kind := .value v, dst := some (d, (c.getCtx k).supMode), orig := {} }] :=
  issue_pend (c.freeMon k) k (some d) 0 (.value v)

theorem waitIssued_queue (c : Core) (k : Ctx) {d : BitVec 5} (v : Word) (hd : d ≠ 0) :
    (waitIssued c k d v).queue k d = c.queue k d ++ [{ id := (c.getCtx k).nextId, val := 0, filled := false }] :=
  issue_queue (c.freeMon k) k d 0 (.value v) hd

theorem waitIssued_queue_ne (c : Core) (k : Ctx) {d r : BitVec 5} (v : Word) (h : d ≠ r) :
    (waitIssued c k d v).queue k r = c.queue k r :=
  issue_queue_ne (c.freeMon k) k (some d) r 0 (.value v) fun e => h (Option.some.inj e)

theorem waitIssued_same (c : Core) (k : Ctx) (d : BitVec 5) (v : Word) :
    SameButIssue k (c.freeMon k) (waitIssued c k d v) := issue_same _ _ _ _ _

/-- A context of the core after a committed word; its queues are those before it. -/
theorem queue_next (c : Core) (k : Ctx) (pc : Word) (g : Debug) (r : BitVec 5) :
    ({ c.setCtx k ((c.getCtx k).next pc) with dbg := g } : Core).queue k r = c.queue k r := by
  show (c.setCtx k ((c.getCtx k).next pc)).queue k r = _
  unfold Core.queue
  simp only [getCtx_setCtx, setCtx_chans]
  rfl

/-- The core that looking at the word of a wait leaves, as far as a wait goes on from it. -/
theorem Looked.getCtx (h : Looked p s t) (k : Ctx) : (t.core p).getCtx k = (s.core p).getCtx k := by rw [h.core]; rfl

theorem Looked.queue (h : Looked p s t) (k : Ctx) (r : BitVec 5) : (t.core p).queue k r = (s.core p).queue k r := by
  rw [h.core]; rfl

theorem popped_getCtx (s : State) (rds : List Rd) :
    ((popped s rds).core s.p).getCtx s.k = { s.me! with regs := (((popped s rds).core s.p).getCtx s.k).regs,
                                                        sup := (((popped s rds).core s.p).getCtx s.k).sup } := by
  rw [popped_core]
  have same := (popAll_same (s.core s.p) s.k rds).2.2
  have next := popAll_nextId (s.core s.p) s.k rds
  rw [same] at next ⊢
  simp only at next
  rw [next]
  rfl

theorem me_popped {rds : List Rd} (hp : u.p = s.p) (hk : u.k = s.k) (ctx : u.ctx s.p s.k = (popped s rds).ctx s.p s.k) :
    u.me! = { s.me! with regs := u.me!.regs, sup := u.me!.sup } := by
  unfold State.me!
  rw [hp, hk, ctx]
  exact popped_getCtx s rds

theorem noStep_popped {rds : List Rd} (running : NoStep s) (hp : u.p = s.p) (hk : u.k = s.k)
    (ctx : u.ctx s.p s.k = (popped s rds).ctx s.p s.k) : NoStep u := by
  show (!u.me!.supMode && u.me!.stepBit) = false
  rw [me_popped hp hk ctx]
  exact running

/-- A wait commits with a value, `u` having its context and its queues as the pops left them. -/
theorem endWait_access {rds : List Rd} (running : NoStep s) (hp : u.p = s.p) (hk : u.k = s.k)
    (ctx : u.ctx s.p s.k = (popped s rds).ctx s.p s.k)
    (queue : ∀ r, (u.core s.p).queue s.k r = reg (popped s rds) r) (d : BitVec 5) (v : Word) :
    (u.endWait d v).ctx s.p s.k = { goesOn s.me! (s.me!.pc + 4) with
        regs := ((u.endWait d v).ctx s.p s.k).regs, sup := ((u.endWait d v).ctx s.p s.k).sup,
        pend := ((u.endWait d v).ctx s.p s.k).pend, nextId := ((u.endWait d v).ctx s.p s.k).nextId } ∧
      Access s (u.endWait d v) rds (some d) 0 {} (.value v) := by
  have me := me_popped hp hk ctx
  have still := noStep_popped running hp hk ctx
  obtain ⟨core, -⟩ := core_endWait still d v
  rw [hp, hk] at core
  have now : (u.core s.p).getCtx s.k = u.me! := by unfold State.me! State.ctx; rw [hp, hk]
  have next : (u.endWait d v).ctx s.p s.k = ((waitIssued (u.core s.p) s.k d v).getCtx s.k).next (u.me!.pc + 4) := by
    unfold State.ctx
    rw [core]
    exact getCtx_setCtx _ _ _
  have queues : ∀ r, ((u.endWait d v).core s.p).queue s.k r = (waitIssued (u.core s.p) s.k d v).queue s.k r := fun r => by
    rw [core, queue_next]
  have items := waitIssued_pend (u.core s.p) s.k d v
  have entry := waitIssued_queue (u.core s.p) s.k (d := d) v
  rw [now, me] at items entry
  refine ⟨?_, ?_, fun r hr hr0 => ?_, fun r hr => ?_⟩
  · have same := (waitIssued_same (u.core s.p) s.k d v).2.2
    have freed : ((u.core s.p).freeMon s.k).getCtx s.k = u.me! := now
    rw [freed] at same
    rw [next, same, me]
    rfl
  · rw [next]
    exact items
  · obtain rfl : d = r := Option.some.inj hr
    rw [queues, entry hr0, queue]
  · rw [queues, waitIssued_queue_ne _ _ _ fun e => hr (by rw [e]), queue]

/-- The word of a wait that commits with a value, once its operands are popped and its word looked at. -/
theorem endWait_word {rds : List Rd} {d : BitVec 5} {v : Word} (running : NoStep s) (look : Looked s.p (popped s rds) u) :
    Committed s (u.endWait d v) rds (some d) ∧ ((u.endWait d v).ctx s.p s.k).pc = s.me!.pc + 4 ∧
      Access s (u.endWait d v) rds (some d) 0 {} (.value v) ∧
      ((u.endWait d v).core s.p).mon = (s.core s.p).mon.filter fun e => decide (e.ctx ≠ s.k) := by
  obtain ⟨ctx, access⟩ := endWait_access running look.p_eq look.k_eq (look.getCtx s.k) (look.queue s.k) d v
  have still : NoStep u := noStep_popped running look.p_eq look.k_eq (look.getCtx s.k)
  obtain ⟨core, module⟩ := core_endWait still d v
  have hp : u.p = s.p := look.p_eq
  have hk : u.k = s.k := look.k_eq
  rw [hp, hk] at core
  rw [hp] at module
  have same := waitIssued_same (u.core s.p) s.k d v
  have popped := popAll_same (s.core s.p) s.k rds
  refine ⟨⟨fun q hq => ?_, fun j hj => ?_, ?_, fun r hr => ?_, ?_, ?_⟩, ?_, access, ?_⟩
  · rw [module, core_setCore_ne _ _ _ _ (Ne.symm hq), look.cores q hq]
    exact core_modCore_ne _ _ _ _ (Ne.symm hq)
  · unfold State.ctx
    rw [core]
    refine (getCtx_setCtx_ne _ _ _ _ (Ne.symm hj)).trans ((same.2.1 j hj).trans ?_)
    rw [← popped.2.1 j hj, ← popped_core, ← look.getCtx j]
    rfl
  · rw [ctx]; simp [goesOn]
  · rw [access.popped r hr.2]
    show ((Claims.popped s rds).core s.p).queue s.k r = _
    rw [popped_core]
    exact popAll_queue_ne _ _ _ _ hr.1
  · rw [module]
    exact look.mem
  · have kept : (waitIssued (u.core s.p) s.k d v).scratch = (u.core s.p).scratch := by rw [same.1]; rfl
    rw [core]
    refine kept.trans ?_
    rw [look.core, popped_core, popped.1]
  · rw [ctx]; rfl
  · have kept : (waitIssued (u.core s.p) s.k d v).mon = ((u.core s.p).freeMon s.k).mon := by rw [same.1]
    rw [core]
    refine kept.trans ?_
    rw [Core.freeMon, look.core, popped_core, popped.1]
    refine List.filter_congr fun e _ => ?_
    by_cases own : e.ctx = s.k <;> simp [own]

/-! ### Trace records wake only what their own core monitors -/

/-- What writing records changes, as far as a wait sees it. -/
structure Recorded (s t : State) : Prop where
  cores : t.cores = s.cores
  sched : t.sched = s.sched
  woken : ∀ x ∈ t.marks.woken, x ∈ s.marks.woken ∨ ∃ e ∈ (s.core x.1).mon, e.ctx = x.2

theorem Recorded.frame (cores : t.cores = s.cores := by rfl) (sched : t.sched = s.sched := by rfl)
    (woken : t.marks.woken = s.marks.woken := by rfl) : Recorded s t :=
  ⟨cores, sched, fun _ hx => .inl (woken ▸ hx)⟩

theorem Recorded.trans (a : Recorded s t) (b : Recorded t u) : Recorded s u where
  cores := b.cores.trans a.cores
  sched := b.sched.trans a.sched
  woken x hx := by
    rcases b.woken x hx with noted | woken
    · exact a.woken x noted
    · right
      rwa [State.core, a.cores] at woken

theorem mon_of_wakes {x : CoreId × Ctx} {n : Nat} (h : x ∈ c.wakes p l n) : x.1 = p ∧ ∃ e ∈ c.mon, e.ctx = x.2 := by
  obtain ⟨e, he, rfl⟩ := List.mem_map.1 h
  exact ⟨rfl, e, (List.mem_filter.1 he).1, rfl⟩

theorem recorded_wake (s : State) (p : CoreId) (l : Loc) (n : Nat) : Recorded s (s.wake p l n) := by
  refine ⟨rfl, rfl, fun x hx => ?_⟩
  rcases List.mem_append.1 hx with woken | noted
  · have at_ := (List.mem_filter.1 woken).1
    right
    cases l with
    | spad o =>
      obtain ⟨own, entry⟩ := mon_of_wakes at_
      rwa [own]
    | phys a =>
      obtain ⟨q, -, at_⟩ := List.mem_flatMap.1 at_
      obtain ⟨own, entry⟩ := mon_of_wakes at_
      rwa [own]
  · exact .inl noted

theorem recorded_storePhys (s : State) (a : Nat) (bs : List Byte) : Recorded s (s.storePhys a bs) := by
  induction bs generalizing s a with
  | nil => exact .frame
  | cons b bs ih => exact (Recorded.frame (s := s) (t := s.setByte a b)).trans (ih _ _)

theorem recorded_holdPool (s : State) (l : Loc) (n : Nat) (wr : Bool) : Recorded s (s.holdPool l n wr) := by
  unfold State.holdPool
  split
  · exact .frame
  · dsimp only
    split
    · split
      · exact .frame
      · exact .frame
    · exact .frame

theorem recorded_writeTrace (s : State) (r : TraceRec) : Recorded s (s.writeTrace r) := by
  have written : ∀ a bs, Recorded s (s.writeSup a bs) := fun a bs =>
    (recorded_storePhys s a bs).trans ((recorded_wake _ 0 _ _).trans (recorded_holdPool _ _ _ true))
  unfold State.writeTrace
  split
  · exact .frame
  · dsimp only
    split
    · exact .frame
    · exact (written _ _).trans .frame

theorem recorded_foldl (l : List TraceRec) (s : State) : Recorded s (l.foldl State.writeTrace s) := by
  induction l generalizing s with
  | nil => exact .frame
  | cons r l ih => exact (recorded_writeTrace s r).trans (ih _)

theorem recorded_flushTrace (s : State) (b : BentId) : Recorded s (s.flushTrace b) := by
  unfold State.flushTrace
  split
  · exact .frame
  · exact (recorded_foldl (s.bent b).trace s).trans .frame

theorem recorded_event (s : State) (b : BentId) (n : Nat) (o : Option CoreId) (body : List Word) :
    Recorded s (s.event b n o body) := by
  unfold State.event
  split
  · unfold State.emit
    dsimp only
    split
    · exact Recorded.trans .frame (recorded_flushTrace _ b)
    · exact .frame
  · exact .frame

/-! ### A wait that falls asleep -/

/-- The acting context asleep on a wait. -/
def asleep (s : State) (w : Wait) : State := s.setCtx s.p s.k { s.me! with wait := some w, blocked := true }

/-- A context about to fall asleep: of its core only the monitor changes, besides TLBs and counters, and no write is noted. -/
structure Dozes (s t : State) : Prop where
  core : t.core s.p = { s.core s.p with tlb := (t.core s.p).tlb, dbg := (t.core s.p).dbg, mon := (t.core s.p).mon,
                                        monfull := (t.core s.p).monfull }
  sched : t.sched = s.sched
  silent : (s.p, s.k) ∉ t.marks.woken

theorem Dozes.me (h : Dozes s t) : t.me! = s.me! := by
  have hp : t.p = s.p := by unfold State.p; rw [h.sched]
  have hk : t.k = s.k := by unfold State.k; rw [h.sched]
  unfold State.me! State.ctx
  rw [hp, hk, h.core]
  rfl

theorem Dozes.core_asleep (h : Dozes s t) (w : Wait) :
    (asleep t w).core s.p = (t.core s.p).setCtx s.k { s.me! with wait := some w, blocked := true } := by
  have hp : t.p = s.p := by unfold State.p; rw [h.sched]
  have hk : t.k = s.k := by unfold State.k; rw [h.sched]
  unfold asleep
  rw [hp, hk, h.me, core_setCtx]

theorem Dozes.asleep (h : Dozes s t) (w : Wait) :
    (asleep t w).ctx s.p s.k = { s.me! with wait := some w, blocked := true } ∧
      (∀ q, ((asleep t w).core s.p).queue s.k q = reg s q) ∧ (s.p, s.k) ∉ (asleep t w).marks.woken := by
  have core := h.core_asleep w
  refine ⟨?_, fun q => ?_, h.silent⟩
  · unfold State.ctx
    rw [core, getCtx_setCtx]
  · rw [core, reg, Core.queue, Core.queue]
    simp only [getCtx_setCtx, setCtx_chans]
    rw [h.core]
    rfl

/-- How a context falls asleep, by what its core's monitor holds (R124). -/
theorem sleepOn_eq (s : State) (r : R3) (l : Loc) (v : Word) :
    let t := s.unwake s.p s.k
    let c := s.core s.p
    let w : Bool → Wait := fun mon => { loc := l, seen := v, monitored := mon, nextPoll := s.nanos + 1000, ready := false,
                                        ended := false, op := r, word := s.sched.word }
    s.sleepOn r l v =
      if c.mon.any (fun m => m.ctx == s.k) then asleep t (w true)
      else if c.mon.length < 16 then
        asleep (t.modCore s.p fun c => { c with mon := c.mon ++ [{ loc := l, ctx := s.k }] }) (w true)
      else if c.monfull then asleep t (w false)
      else asleep ((t.modCore s.p fun c => { c with monfull := true }).event (bentOf s.p) 5 (some s.p) []) (w false) := by
  have sleeps : ∀ (t : State) (w : Wait),
      (t.modCtx t.p t.k fun x => { x with wait := some w }).blockNow = asleep t w := fun t w => by
    have me : (t.modCtx t.p t.k fun x => { x with wait := some w }).me! = { t.me! with wait := some w } := ctx_modCtx ..
    have block : (t.modCtx t.p t.k fun x => { x with wait := some w }).blockNow =
        (t.modCtx t.p t.k fun x => { x with wait := some w }).setCtx t.p t.k
          { (t.modCtx t.p t.k fun x => { x with wait := some w }).me! with blocked := true } := rfl
    rw [block, me]
    exact setCtx_setCtx_state ..
  unfold State.sleepOn
  simp only [sleeps]
  rfl

theorem dozes_unwake (look : Looked s.p s u) : Dozes s (u.unwake u.p u.k) where
  core := by
    have core : (u.unwake u.p u.k).core s.p = u.core s.p := rfl
    rw [core, look.core]
  sched := look.sched
  silent h := by
    have other := (List.mem_filter.1 h).2
    rw [look.p_eq, look.k_eq] at other
    simp at other

theorem Dozes.modCore (h : Dozes s t) {f : Core → Core}
    (hf : ∀ c, f c = { c with mon := (f c).mon, monfull := (f c).monfull }) : Dozes s (t.modCore s.p f) where
  core := by rw [core_modCore, hf, h.core]
  sched := h.sched
  silent := h.silent

/-- Records wake a context only by an entry of its own. -/
theorem Dozes.recorded (h : Dozes s t) (r : Recorded t u) (own : ∀ e ∈ (t.core s.p).mon, e.ctx ≠ s.k) : Dozes s u where
  core := by
    have core : u.core s.p = t.core s.p := by rw [State.core, r.cores]; rfl
    rw [core]
    exact h.core
  sched := r.sched.trans h.sched
  silent noted := by
    rcases r.woken _ noted with noted | ⟨e, he, ctx⟩
    · exact h.silent noted
    · exact own e he ctx

/-- Falling asleep with a monitor entry changes nothing but the core. -/
theorem Dozes.committed (h : Dozes s t) (others : ∀ q, q ≠ s.p → t.core q = s.core q) (mem : t.mem = s.mem) (w : Wait) :
    Committed s (Claims.asleep t w) [] none := by
  obtain ⟨ctx, queue, -⟩ := h.asleep w
  have hp : t.p = s.p := by unfold State.p; rw [h.sched]
  have hk : t.k = s.k := by unfold State.k; rw [h.sched]
  refine ⟨fun q hq => ?_, fun j hj => ?_, by rw [ctx]; simp, fun r _ => queue r, mem, ?_⟩
  · unfold Claims.asleep
    rw [hp]
    exact (core_setCore_ne _ _ _ _ (Ne.symm hq)).trans (others q hq)
  · unfold Claims.asleep
    rw [hp, hk, ctx_setCtx_ne _ _ _ _ _ (Ne.symm hj), State.ctx, h.core]
    rfl
  · unfold Claims.asleep
    rw [hp, core_setCtx, core_setCtx_scratch, h.core]

/-- What a wait that falls asleep leaves: asleep on the word, nothing popped, no write noted, and its monitor entry made
where one is free; unless the entries ran out, only its core changes. -/
theorem sleepOn_word (look : Looked s.p s u) (r : R3) (l : Loc) (v : Word) :
    let t := u.sleepOn r l v
    ∃ w, t.ctx s.p s.k = { s.me! with wait := some w, blocked := true } ∧ (∀ q, (t.core s.p).queue s.k q = reg s q) ∧
      (s.p, s.k) ∉ t.marks.woken ∧
      w = { loc := l, seen := v, monitored := w.monitored, nextPoll := w.nextPoll, ready := false, ended := false,
            op := r, word := s.sched.word } ∧
      ((s.core s.p).mon.length < 16 → Committed s t [] none) ∧
      ((∀ e ∈ (s.core s.p).mon, e.ctx ≠ s.k) → (s.core s.p).mon.length < 16 →
        w.monitored = true ∧ (t.core s.p).mon = (s.core s.p).mon ++ [{ loc := l, ctx := s.k }]) ∧
      ((∀ e ∈ (s.core s.p).mon, e.ctx ≠ s.k) → 16 ≤ (s.core s.p).mon.length →
        w.monitored = false ∧ (t.core s.p).monfull = true) := by
  have dozes := dozes_unwake look
  have hp := look.p_eq
  have hk := look.k_eq
  have mon : (u.core s.p).mon = (s.core s.p).mon := by rw [look.core]
  have others : ∀ q, q ≠ s.p → (u.unwake u.p u.k).core q = s.core q := look.cores
  have full : (u.core s.p).monfull = (s.core s.p).monfull := by rw [look.core]
  have own : ((s.core s.p).mon.any fun m => m.ctx == s.k) = true ↔ ¬ ∀ e ∈ (s.core s.p).mon, e.ctx ≠ s.k := by simp
  dsimp only
  rw [sleepOn_eq]
  dsimp only
  simp only [hp, hk, mon, full] at dozes others ⊢
  by_cases has : ((s.core s.p).mon.any fun m => m.ctx == s.k) = true
  · rw [if_pos has]
    obtain ⟨ctx, queue, silent⟩ := dozes.asleep _
    refine ⟨_, ctx, queue, silent, ?_, fun _ => dozes.committed others look.mem _, fun none => absurd none (own.1 has),
      fun none => absurd none (own.1 has)⟩
    rw [look.sched]
  · have none : ∀ e ∈ (s.core s.p).mon, e.ctx ≠ s.k := by_contra fun h => has (own.2 h)
    rw [if_neg has]
    by_cases room : (s.core s.p).mon.length < 16
    · rw [if_pos room]
      have entry := dozes.modCore (f := fun c => { c with mon := c.mon ++ [{ loc := l, ctx := s.k }] }) fun _ => rfl
      obtain ⟨ctx, queue, silent⟩ := entry.asleep _
      refine ⟨_, ctx, queue, silent, ?_, fun _ => entry.committed ?_ look.mem _, fun _ _ => ⟨rfl, ?_⟩, fun _ h => by omega⟩
      · rw [look.sched]
      · intro q hq
        exact (core_modCore_ne _ _ _ _ (Ne.symm hq)).trans (others q hq)
      · rw [entry.core_asleep, core_setCtx_mon, core_modCore]
        show (u.core s.p).mon ++ _ = _
        rw [mon]
    · rw [if_neg room]
      have short : ∀ P : Prop, (s.core s.p).mon.length < 16 → P := fun _ h => absurd h room
      by_cases ran : (s.core s.p).monfull = true
      · rw [if_pos ran]
        obtain ⟨ctx, queue, silent⟩ := dozes.asleep _
        refine ⟨_, ctx, queue, silent, ?_, short _, fun _ => short _, fun _ _ => ⟨rfl, ?_⟩⟩
        · rw [look.sched]
        · rw [dozes.core_asleep, core_setCtx_monfull]
          exact full.trans ran
      · rw [if_neg ran]
        have noted := dozes.modCore (f := fun c => { c with monfull := true }) fun _ => rfl
        have event := noted.recorded (recorded_event _ (bentOf s.p) 5 (some s.p) []) fun e he => by
          rw [core_modCore] at he
          exact none e (mon ▸ he)
        obtain ⟨ctx, queue, silent⟩ := event.asleep _
        refine ⟨_, ctx, queue, silent, ?_, short _, fun _ => short _, fun _ _ => ⟨rfl, ?_⟩⟩
        · rw [look.sched]
        · rw [event.core_asleep, core_setCtx_monfull, State.core, (recorded_event _ _ _ _ _).cores, ← State.core,
            core_modCore]

/-! ### The words of R191 -/

theorem exec_wait {i : Instr} {r : R3} {c : Word → Word → Prop} (kind : waitCond i = some (r, c)) :
    ∃ holds : Word → Word → Bool, (∀ m b, holds m b = true ↔ c m b) ∧ ∀ s, exec i s = waitOp holds r s := by
  cases i <;> cases kind
  · exact ⟨_, fun m b => by simp [ult], fun _ => rfl⟩
  · exact ⟨_, fun m b => by simp, fun _ => rfl⟩

theorem waitAt_ok {va : Word} {wp : Bool} (place : s.scalarAt va 8 .read wp true = .ok l) (chip : s.isOnChip l = true) :
    s.waitAt va wp = .ok l := by
  simp [State.waitAt, place, chip]

/-- A wait looks at its word where no wait stands, or one that was woken. -/
theorem waitOp_check {holds : Word → Word → Bool} {r : R3} {vals : List Word}
    (reads : Reads s [src r.a r.pa, src r.b r.pb] (some r.d) vals)
    (ready : ∀ w, s.me!.wait = some w → w.ready = true ∧ w.ended = false) :
    waitOp holds r s = .next (waitOp.check holds r s vals (popped s [src r.a r.pa, src r.b r.pb])) := by
  unfold waitOp
  rw [scalar_ok false reads]
  cases wait : s.me!.wait with
  | none => rfl
  | some w =>
    obtain ⟨woken, going⟩ := ready w wait
    simp only [woken, going, Bool.false_eq_true, if_false, Bool.not_true]
    rfl

theorem waitWords : WaitWords := by
  intro i r c s vals l kind reads running place chip still ready
  obtain ⟨holds, cond, run⟩ := exec_wait kind
  have check : exec i s = .next (if holds (wordAt s l) (arg vals 1)
      then (((popped s [src r.a r.pa, src r.b r.pb]).note s.p (arg vals 0)).used s.p l 8).endWait r.d (wordAt s l)
      else ((s.note s.p (arg vals 0)).used s.p l 8).sleepOn r l (wordAt s l)) := by
    rw [run, waitOp_check reads ready, waitOp.check, waitAt_ok place chip]
    simp only [still, Bool.false_eq_true, if_false]
    rfl
  refine ⟨fun met => ?_, fun unmet => ?_⟩
  · rw [if_pos ((cond _ _).2 met)] at check
    obtain ⟨word, pc, access, mon⟩ := endWait_word (d := r.d) (v := wordAt s l) running
      (looked (popped s [src r.a r.pa, src r.b r.pb]) s.p (arg vals 0) l 8)
    exact ⟨_, check, word, pc, access, mon⟩
  · rw [if_neg fun h => unmet ((cond _ _).1 h)] at check
    obtain ⟨w, ctx, queue, silent, fields, committed, entry, none⟩ :=
      sleepOn_word (looked s s.p (arg vals 0) l 8) r l (wordAt s l)
    refine ⟨_, w, check, by rw [ctx], by rw [ctx], ?_, ?_, ?_, ?_, ?_, ?_, queue, silent, committed, entry, none⟩
    all_goals rw [fields]

/-- A wait that a MONCLR has ended commits with the value it was given, whatever its condition. -/
theorem endedWait (i : Instr) (r : R3) (c : Word → Word → Prop) (s : State) (vals : List Word) (w : Wait)
    (kind : waitCond i = some (r, c)) (reads : Reads s [src r.a r.pa, src r.b r.pb] (some r.d) vals)
    (running : NoStep s) (wait : s.me!.wait = some w) (ended : w.ended = true) :
    ∃ t, exec i s = .next t ∧ Committed s t [src r.a r.pa, src r.b r.pb] (some r.d) ∧
      (t.ctx s.p s.k).pc = s.me!.pc + 4 ∧ Access s t [src r.a r.pa, src r.b r.pb] (some r.d) 0 {} (.value w.seen) := by
  obtain ⟨holds, -, run⟩ := exec_wait kind
  have commits : exec i s = .next ((popped s [src r.a r.pa, src r.b r.pb]).endWait r.d w.seen) := by
    rw [run, waitOp, scalar_ok false reads]
    simp only [wait, ended, if_true]
    rfl
  obtain ⟨word, pc, access, -⟩ := endWait_word (d := r.d) (v := w.seen) running
    (Looked.refl s.p (popped s [src r.a r.pa, src r.b r.pb]))
  exact ⟨_, commits, word, pc, access⟩

/-! ### What the operands of a context's word depend on -/

/-- Two cores whose context `k` and channels are the same. -/
structure Alike (k : Ctx) (c d : Core) : Prop where
  ctx : d.getCtx k = c.getCtx k
  chans : d.chans = c.chans

theorem Alike.trans {e : Core} (a : Alike k c d) (b : Alike k d e) : Alike k c e :=
  ⟨b.ctx.trans a.ctx, b.chans.trans a.chans⟩

theorem Alike.queue (h : Alike k c d) (r : BitVec 5) : d.queue k r = c.queue k r := by
  unfold Core.queue
  rw [h.ctx, h.chans]

theorem Alike.setQueue (h : Alike k c d) (r : BitVec 5) (q : Queue) : Alike k (c.setQueue k r q) (d.setQueue k r q) := by
  unfold Core.setQueue
  dsimp only
  rw [h.ctx]
  split
  · exact h
  · exact ⟨by rw [getCtx_setCtx, getCtx_setCtx], h.chans⟩
  · exact ⟨by rw [getCtx_setCtx, getCtx_setCtx], h.chans⟩
  · exact ⟨h.ctx, by simp only [h.chans]⟩
  · exact ⟨h.ctx, by simp only [h.chans]⟩

theorem Alike.popAll (h : Alike k c d) (rds : List Rd) : Alike k (popAll c k rds) (popAll d k rds) := by
  induction rds generalizing c d with
  | nil => exact h
  | cons x rds ih =>
    unfold Machine.popAll
    split
    · exact ih h
    · rw [h.queue]
      exact ih (h.setQueue _ _)

theorem Alike.readVals (h : Alike k c d) (rds : List Rd) : readVals d k rds = readVals c k rds := by
  induction rds generalizing c d with
  | nil => rfl
  | cons x rds ih =>
    unfold Machine.readVals
    rw [h.ctx]
    dsimp only
    rw [h.queue]
    by_cases peek : x.peek = true
    · simp only [peek, if_true, ih h]
    · simp only [peek, Bool.false_eq_true, if_false, ih h, ih (h.setQueue _ _)]

theorem Alike.operands (h : Alike k c d) (rds : List Rd) (push : Option (BitVec 5)) (b : Bool) :
    operands d k rds push b = operands c k rds push b := by
  have under : underflows d k rds = underflows c k rds := by
    funext x; unfold underflows; rw [h.ctx, h.queue]
  have waits : readWaits d k rds = readWaits c k rds := by
    funext x; unfold readWaits; rw [h.ctx, h.queue]
  have room : pushWaits d k push = pushWaits c k push := by unfold pushWaits; rw [h.ctx, h.chans]
  have full : pushOverflows d k rds push = pushOverflows c k rds push := by
    cases push with
    | none => rfl
    | some r => unfold pushOverflows; simp only [h.ctx, h.queue]
  unfold Machine.operands
  rw [h.ctx, h.readVals, under, waits, room, full]

/-! ### Registers that are no channel -/

theorem channel_eq (k : Ctx) (sup : Bool) (r : BitVec 5) : channel k r = (regKind k sup r).chan.isSome := by
  cases k <;> cases sup <;> revert r <;> decide

/-- Off the channels, a queue is the context's own. -/
theorem queue_of_ctx {r : BitVec 5} (offChannel : channel k r = false) (ctx : d.getCtx k = c.getCtx k) :
    d.queue k r = c.queue k r := by
  have none := (channel_eq k (c.getCtx k).supMode r).symm.trans offChannel
  unfold Core.queue
  rw [ctx]
  dsimp only
  revert none
  cases regKind k (c.getCtx k).supMode r <;> simp [RKind.chan]

theorem chans_setQueue {r : BitVec 5} (offChannel : channel k r = false) (q : Queue) : (c.setQueue k r q).chans = c.chans := by
  have none := (channel_eq k (c.getCtx k).supMode r).symm.trans offChannel
  unfold Core.setQueue
  dsimp only
  revert none
  cases regKind k (c.getCtx k).supMode r <;> simp [RKind.chan]

theorem chans_popAll {rds : List Rd} (offChannel : ∀ x ∈ rds, channel k x.r = false) : (popAll c k rds).chans = c.chans := by
  induction rds generalizing c with
  | nil => rfl
  | cons x rds ih =>
    unfold popAll
    rw [ih fun y hy => offChannel y (List.mem_cons_of_mem _ hy)]
    split
    · rfl
    · exact chans_setQueue (offChannel x List.mem_cons_self) _

theorem chans_waitIssued {d : BitVec 5} (offChannel : channel k d = false) (v : Word) :
    (waitIssued c k d v).chans = c.chans := by
  unfold waitIssued Core.issue Core.pushEntry
  exact (setCtx_chans _ _ _).trans (chans_setQueue offChannel _)

/-! ### Reports leave the cores and the agent in turn alone -/

theorem recorded_postFault (s : State) (b : BentId) (r : FaultRec) : Recorded s (s.postFault b r) := by
  have written : ∀ a bs, Recorded s (s.writeSup a bs) := fun a bs =>
    (recorded_storePhys s a bs).trans ((recorded_wake _ 0 _ _).trans (recorded_holdPool _ _ _ true))
  have stored : Recorded s (s.storeFault r).1 := by
    unfold State.storeFault
    dsimp only
    split
    · exact (written _ _).trans .frame
    · exact .frame
  unfold State.postFault
  dsimp only
  split
  · split
    · next e => rw [e] at stored; exact stored
    · next e => rw [e] at stored; exact stored.trans .frame
  · exact .frame

/-! ### Ending waits of other contexts -/

/-- What ending waits of the contexts in `K` changes of a core and of the module, as far as MONCLR's word sees it: if `C`,
the channels stand; if `M`, so does the memory. -/
structure Ending (p : CoreId) (K : Ctx → Prop) (C M : Prop) (s t : State) : Prop where
  sched : t.sched = s.sched
  cores : ∀ q, q ≠ p → t.core q = s.core q
  core : t.core p = { s.core p with ctx := (t.core p).ctx, chans := (t.core p).chans, mon := (t.core p).mon,
                                    dbg := (t.core p).dbg }
  contexts : ∀ j, ¬ K j → t.ctx p j = s.ctx p j
  fewer : ∀ e ∈ (t.core p).mon, e ∈ (s.core p).mon
  kept : ∀ e ∈ (s.core p).mon, ¬ K e.ctx → e ∈ (t.core p).mon
  chans : C → (t.core p).chans = (s.core p).chans
  mem : M → t.mem = s.mem

section
variable {K L : Ctx → Prop} {C D M N : Prop}

theorem Ending.refl (p : CoreId) (K : Ctx → Prop) (C M : Prop) (s : State) : Ending p K C M s s :=
  ⟨rfl, fun _ _ => rfl, rfl, fun _ _ => rfl, fun _ h => h, fun _ h _ => h, fun _ => rfl, fun _ => rfl⟩

theorem Ending.trans (a : Ending p K C M s t) (b : Ending p K C M t u) : Ending p K C M s u where
  sched := b.sched.trans a.sched
  cores q hq := (b.cores q hq).trans (a.cores q hq)
  core := by rw [b.core, a.core]
  contexts j hj := (b.contexts j hj).trans (a.contexts j hj)
  fewer e he := a.fewer e (b.fewer e he)
  kept e he hk := b.kept e (a.kept e he hk) hk
  chans h := (b.chans h).trans (a.chans h)
  mem h := (b.mem h).trans (a.mem h)

theorem Ending.mono (a : Ending p K C M s t) (hK : ∀ j, K j → L j) (hC : D → C) (hM : N → M) : Ending p L D N s t where
  sched := a.sched
  cores := a.cores
  core := a.core
  contexts j hj := a.contexts j fun h => hj (hK j h)
  fewer := a.fewer
  kept e he hk := a.kept e he fun h => hk (hK _ h)
  chans h := a.chans (hC h)
  mem h := a.mem (hM h)

/-- A change of one core, made in turn by another context. -/
theorem Ending.setCore (c : Core)
    (core : c = { s.core p with ctx := c.ctx, chans := c.chans, mon := c.mon, dbg := c.dbg })
    (contexts : ∀ j, ¬ K j → c.getCtx j = (s.core p).getCtx j)
    (fewer : ∀ e ∈ c.mon, e ∈ (s.core p).mon) (kept : ∀ e ∈ (s.core p).mon, ¬ K e.ctx → e ∈ c.mon)
    (chans : C → c.chans = (s.core p).chans) : Ending p K C M s (s.setCore p c) where
  sched := rfl
  cores q hq := core_setCore_ne _ _ _ _ (Ne.symm hq)
  core := by rw [core_setCore]; exact core
  contexts j hj := by rw [State.ctx, core_setCore]; exact contexts j hj
  fewer e he := fewer e (by rwa [core_setCore] at he)
  kept e he hk := by rw [core_setCore]; exact kept e he hk
  chans h := by rw [core_setCore]; exact chans h
  mem _ := rfl

theorem Ending.recorded (r : Recorded s t) : Ending p K C False s t := by
  have core : ∀ q, t.core q = s.core q := fun q => by rw [State.core, r.cores]; rfl
  exact ⟨r.sched, fun q _ => core q, by rw [core], fun j _ => by rw [State.ctx, core]; rfl, fun e he => core p ▸ he,
    fun e he _ => (core p).symm ▸ he, fun _ => by rw [core], False.elim⟩

/-- The same with another context the acting one meanwhile. -/
theorem Ending.onCtx {x y : Sched} (h : Ending p K C M { s with sched := x } t) (back : y = s.sched) :
    Ending p K C M s { t with sched := y } :=
  ⟨back, h.cores, h.core, h.contexts, h.fewer, h.kept, h.chans, h.mem⟩

end

/-- A trap that is no page fault changes its context; it may be reported. -/
theorem ending_trap (s : State) (p : CoreId) (k : Ctx) (code aux : Byte) (tval epc : Word) (w : W32)
    (page : isPage code = false) : Ending p (· = k) True False s (s.trap p k code aux tval epc w) := by
  have set : Ending p (· = k) True False s (s.setCtx p k ((s.ctx p k).trap code aux tval epc w)) := by
    refine Ending.setCore _ ?_ (fun j hj => ?_) (fun e he => he) (fun e he _ => he) fun _ => rfl
    · rfl
    · exact getCtx_setCtx_ne _ _ _ _ (Ne.symm hj)
  unfold State.trap
  dsimp only
  split
  · rw [if_neg (by simp [page])]
    exact set.trans (Ending.recorded (recorded_postFault _ _ _))
  · exact set

theorem ending_count (s : State) (p : CoreId) (k : Ctx) (code : Byte) (n : Nat) :
    Ending p (· = k) True False s (s.count p code n) := by
  rw [count_eq]
  exact Ending.setCore _ rfl (fun _ _ => rfl) (fun _ h => h) (fun _ h _ => h) fun _ => rfl

/-- A word that commits changes its context; a STEP trap behind it may be reported. -/
theorem ending_commit (s : State) (user : Bool) (next : Word) :
    Ending s.p (· = s.k) True ((user && s.me!.stepBit) = false) s (s.commit user next) := by
  by_cases running : (user && s.me!.stepBit) = false
  · rw [commit_eq s user next running]
    refine Ending.setCore _ rfl (fun j hj => ?_) (fun _ h => h) (fun _ h _ => h) fun _ => rfl
    exact getCtx_setCtx_ne _ _ _ _ (Ne.symm hj)
  · refine Ending.mono (M := False) (K := (· = s.k)) (C := True) ?_ (fun _ h => h) id fun h => running h
    have set : Ending s.p (· = s.k) True False s (s.setCtx s.p s.k (s.me!.next next)) := by
      refine Ending.setCore _ rfl (fun j hj => ?_) (fun _ h => h) (fun _ h _ => h) fun _ => rfl
      exact getCtx_setCtx_ne _ _ _ _ (Ne.symm hj)
    have counted : ∀ code, Ending s.p (· = s.k) True False s ((s.setCtx s.p s.k (s.me!.next next)).count s.p code 1) :=
      fun code => set.trans (ending_count _ s.p s.k code 1)
    unfold State.commit
    dsimp only
    split_ifs
    · rw [count_p, count_k]
      exact (counted _).trans (ending_trap _ s.p s.k cStep 0 0 next _ rfl)
    · exact counted _

/-- The state with the wait of another context about to be ended: that context acts, on its own word. -/
def inTurn (s : State) (k : Ctx) (w : Wait) : State := { s with sched := { s.sched with ctx := k, word := w.word } }

/-- The same with its operands popped. -/
def waitPopped (s : State) (k : Ctx) (w : Wait) : State :=
  (inTurn s k w).setCore s.p (popAll (s.core s.p) k (waitReads w))

theorem endWaitOf_eq (s : State) (k : Ctx) (w : Wait) (v : Word) :
    s.endWaitOf k w v = match operands (s.core s.p) k (waitReads w) (some w.op.d) false with
      | .ok _ => { (waitPopped s k w).endWait w.op.d v with
          sched := { ((waitPopped s k w).endWait w.op.d v).sched with ctx := s.k, word := s.sched.word } }
      | _ => s.modCtx s.p k fun x => { x with wait := some { w with ended := true, seen := v } } := by
  unfold State.endWaitOf waitPopped waitReads
  dsimp only
  cases operands (s.core s.p) k [src w.op.a w.op.pa, src w.op.b w.op.pb] (some w.op.d) false <;> rfl

theorem ending_endWait (s : State) (d : BitVec 5) (v : Word) :
    Ending s.p (· = s.k) (channel s.k d = false) (NoStep s) s (s.endWait d v) := by
  have same := waitIssued_same (s.core s.p) s.k d v
  have set : Ending s.p (· = s.k) (channel s.k d = false) (NoStep s) s
      (s.setCore s.p (waitIssued (s.core s.p) s.k d v)) := by
    have mon : (waitIssued (s.core s.p) s.k d v).mon = ((s.core s.p).freeMon s.k).mon := by rw [same.1]
    refine Ending.setCore _ ?_ (fun j hj => same.2.1 j hj) (fun e he => ?_) (fun e he hk => ?_)
      fun h => chans_waitIssued h v
    · rw [same.1]; rfl
    · rw [mon] at he
      exact (List.mem_filter.1 he).1
    · rw [mon]
      exact List.mem_filter.2 ⟨he, by simpa using hk⟩
  have me : (s.setCore s.p (waitIssued (s.core s.p) s.k d v)).me! = (waitIssued (s.core s.p) s.k d v).getCtx s.k := by
    show ((s.setCore s.p (waitIssued (s.core s.p) s.k d v)).core s.p).getCtx s.k = _
    rw [core_setCore]
  have still : NoStep s → NoStep (s.setCore s.p (waitIssued (s.core s.p) s.k d v)) := fun running => by
    show (!(State.me! _).supMode && (State.me! _).stepBit) = false
    rw [me, same.2.2]
    exact running
  have core : s.endWait d v = (s.setCore s.p (waitIssued (s.core s.p) s.k d v)).advance := by
    rw [endWait_eq, State.after]
    exact congrArg State.advance (setCore_setCore _ _ _ _)
  rw [core]
  exact set.trans ((ending_commit _ _ _).mono (fun _ h => h) (fun _ => trivial) still)

/-- Ending the wait of one context changes that context; the channels stand if the wait names none, the memory if no STEP
trap follows. -/
theorem ending_endWaitOf (s : State) (k : Ctx) (w : Wait) (v : Word) :
    Ending s.p (· = k) (Private k w) (NoStep (onCtx s k)) s (s.endWaitOf k w v) := by
  have same := popAll_same (s.core s.p) k (waitReads w)
  have pops : Ending s.p (· = k) (Private k w) (NoStep (onCtx s k)) (inTurn s k w) (waitPopped s k w) := by
    refine Ending.setCore (s := inTurn s k w) _ (by rw [same.1]; rfl) (fun j hj => same.2.1 j hj) (fun e he => ?_) (fun e he _ => ?_)
      fun h => chans_popAll (by simp [waitReads, src, h.1, h.2.1])
    · rw [same.1] at he; exact he
    · rw [same.1]; exact he
  have me : (waitPopped s k w).me! = (popAll (s.core s.p) k (waitReads w)).getCtx k := by
    show ((waitPopped s k w).core s.p).getCtx k = _
    rw [waitPopped, core_setCore]
  have still : NoStep (onCtx s k) → NoStep (waitPopped s k w) := fun running => by
    show (!(State.me! _).supMode && (State.me! _).stepBit) = false
    rw [me, same.2.2]
    exact running
  have ends := (ending_endWait (waitPopped s k w) w.op.d v).mono (L := (· = k)) (D := Private k w)
    (fun _ h => h) (fun h => h.2.2) still
  rw [endWaitOf_eq]
  split
  · refine (pops.trans ends).onCtx ?_
    rw [ends.sched]
    rfl
  · refine Ending.setCore _ rfl (fun j hj => ?_) (fun _ h => h) (fun _ h _ => h) fun _ => rfl
    exact getCtx_setCtx_ne _ _ _ _ (Ne.symm hj)

/-- The wait of one context ended, where it is on the word. -/
def endStep (l : Loc) (v : Word) (s : State) (k : Ctx) : State :=
  match (s.ctx s.p k).wait with
  | some w => if w.loc = l then s.endWaitOf k w v else s
  | none => s

/-- The other contexts, in the order in which MONCLR ends their waits. -/
def otherCtxs (k : Ctx) : List Ctx := [Ctx.ld, .cp, .st].filter (· != k)

theorem endWaits_eq (s : State) (l : Loc) (v : Word) : s.endWaits l v = (otherCtxs s.k).foldl (endStep l v) s := rfl

theorem mem_otherCtxs {j k : Ctx} : j ∈ otherCtxs k ↔ j ≠ k := by cases j <;> cases k <;> decide

theorem nodup_otherCtxs (k : Ctx) : (otherCtxs k).Nodup := by cases k <;> decide

/-- A wait of a context of the acting core on a word. -/
def Waiting (s : State) (l : Loc) (k : Ctx) (w : Wait) : Prop := (s.ctx s.p k).wait = some w ∧ w.loc = l

theorem ending_endStep (s : State) (l : Loc) (v : Word) (k : Ctx) :
    Ending s.p (fun j => j = k ∧ ∃ w, Waiting s l k w) (∀ w, Waiting s l k w → Private k w)
      (∀ w, Waiting s l k w → NoStep (onCtx s k)) s (endStep l v s k) := by
  unfold endStep
  split
  · next w wait =>
    split
    · next loc =>
      have waits : Waiting s l k w := ⟨wait, loc⟩
      exact (ending_endWaitOf s k w v).mono (fun j hj => ⟨hj, w, waits⟩) (fun h => h w waits) fun h => h w waits
    · exact .refl ..
  · exact .refl ..

theorem ending_foldl {ks : List Ctx} (nodup : ks.Nodup) (s : State) (l : Loc) (v : Word) :
    Ending s.p (fun j => j ∈ ks ∧ ∃ w, Waiting s l j w) (∀ j ∈ ks, ∀ w, Waiting s l j w → Private j w)
      (∀ j ∈ ks, ∀ w, Waiting s l j w → NoStep (onCtx s j)) s (ks.foldl (endStep l v) s) := by
  induction ks generalizing s with
  | nil => exact .refl ..
  | cons k ks ih =>
    obtain ⟨new, nodup⟩ := List.nodup_cons.1 nodup
    have head := ending_endStep s l v k
    have p : (endStep l v s k).p = s.p := by unfold State.p; rw [head.sched]
    have ctx : ∀ j ∈ ks, (endStep l v s k).ctx s.p j = s.ctx s.p j := fun j hj =>
      head.contexts j fun h => new (h.1 ▸ hj)
    have waiting : ∀ j ∈ ks, ∀ w, Waiting (endStep l v s k) l j w ↔ Waiting s l j w := fun j hj w => by
      unfold Waiting
      rw [p, ctx j hj]
    have running : ∀ j ∈ ks, NoStep (onCtx s j) → NoStep (onCtx (endStep l v s k) j) := fun j hj h => by
      show (!((endStep l v s k).ctx (endStep l v s k).p j).supMode && ((endStep l v s k).ctx (endStep l v s k).p j).stepBit) = false
      rw [p, ctx j hj]
      exact h
    have tail := ih nodup (endStep l v s k)
    rw [p] at tail
    refine (head.mono ?_ ?_ ?_).trans (tail.mono ?_ ?_ ?_)
    · rintro j ⟨rfl, w, waits⟩
      exact ⟨List.mem_cons_self, w, waits⟩
    · exact fun h => h k List.mem_cons_self
    · exact fun h => h k List.mem_cons_self
    · rintro j ⟨hj, w, waits⟩
      exact ⟨List.mem_cons_of_mem k hj, w, (waiting j hj w).1 waits⟩
    · exact fun h j hj w waits => h j (List.mem_cons_of_mem k hj) w ((waiting j hj w).1 waits)
    · exact fun h j hj w waits => running j hj (h j (List.mem_cons_of_mem k hj) w ((waiting j hj w).1 waits))

/-! ### MONCLR -/

/-- The state before MONCLR's own word commits: its operand popped, its word looked at, the waits on it ended and their
monitor entries freed. -/
def waitsCleared (s : State) (rds : List Rd) (va : Word) (l : Loc) : State :=
  ((((popped s rds).note s.p va).used s.p l 8).endWaits l (wordAt s l)).modCore s.p fun c =>
    { c with mon := c.mon.filter fun e => e.loc != l }

theorem exec_monclr_ok {r : Src} {vals : List Word} (reads : Reads s [src r.a r.pa] none vals)
    (place : s.scalarAt (arg vals 0) 8 .read false true = .ok l) (chip : s.isOnChip l = true) (still : s.formHeld l = false) :
    exec (.monclr r) s = .next (waitsCleared s [src r.a r.pa] (arg vals 0) l).advance := by
  rw [exec_monclr, execMonclr, scalar_ok false reads, waitAt_ok place chip]
  simp only [still, Bool.false_eq_true, if_false]
  rfl

/-- Ending the waits on a word ends that of context `k` by itself: those before and after it leave the context, and those
that name no channel leave the channels. -/
theorem endWaits_at {w : Wait} (s : State) (v : Word) (hk : k ≠ s.k) (waits : Waiting s l k w)
    (others : ∀ j w', j ≠ k → j ≠ s.k → Waiting s l j w' → Private j w') :
    ∃ a : State, a.sched = s.sched ∧ Alike k (s.core s.p) (a.core s.p) ∧
      Alike k ((a.endWaitOf k w v).core s.p) ((s.endWaits l v).core s.p) := by
  have nodup := nodup_otherCtxs s.k
  have sub : ∀ j ∈ otherCtxs s.k, j ≠ s.k := fun j => mem_otherCtxs.1
  rw [endWaits_eq]
  obtain ⟨pre, post, split⟩ := List.append_of_mem (mem_otherCtxs.2 hk)
  rw [split] at nodup sub ⊢
  obtain ⟨nodup_pre, nodup_rest, apart⟩ := List.nodup_append.1 nodup
  obtain ⟨last, nodup_post⟩ := List.nodup_cons.1 nodup_rest
  have first : k ∉ pre := fun h => apart k h k List.mem_cons_self rfl
  have before := ending_foldl nodup_pre s l v
  have alike : Alike k (s.core s.p) ((pre.foldl (endStep l v) s).core s.p) :=
    ⟨before.contexts k fun h => first h.1, before.chans fun j hj w' =>
      others j w' (fun e => first (e ▸ hj)) (sub j (List.mem_append_left _ hj))⟩
  rw [List.foldl_append, List.foldl_cons]
  generalize pre.foldl (endStep l v) s = a at before alike
  have p : a.p = s.p := by unfold State.p; rw [before.sched]
  have step : endStep l v a k = a.endWaitOf k w v := by
    have wait : (a.ctx s.p k).wait = some w := by rw [State.ctx, alike.ctx]; exact waits.1
    simp only [endStep, p, wait, waits.2, if_true]
  have ended := ending_endWaitOf a k w v
  have p' : (a.endWaitOf k w v).p = s.p := by unfold State.p; rw [ended.sched, before.sched]
  have after := ending_foldl nodup_post (a.endWaitOf k w v) l v
  rw [p] at ended
  rw [p'] at after
  refine ⟨a, before.sched, alike, ?_⟩
  rw [step]
  refine ⟨after.contexts k fun h => last h.1, after.chans fun j hj w' waits' => ?_⟩
  have new : j ≠ k := fun e => last (e ▸ hj)
  have other : j ≠ s.k := sub j (List.mem_append_right _ (List.mem_cons_of_mem _ hj))
  refine others j w' new other ⟨?_, waits'.2⟩
  have same : (a.endWaitOf k w v).ctx s.p j = s.ctx s.p j :=
    (ended.contexts j new).trans (before.contexts j fun h => apart j h.1 j (List.mem_cons_of_mem _ hj) rfl)
  rw [← same, ← p']
  exact waits'.1

/-- The state in which MONCLR has looked at its word. -/
def wordSeen (s : State) (rds : List Rd) (va : Word) (l : Loc) : State := ((popped s rds).note s.p va).used s.p l 8

section
variable {rds : List Rd} {va : Word}

theorem looked_wordSeen (s : State) (rds : List Rd) (va : Word) (l : Loc) :
    Looked s.p (popped s rds) (wordSeen s rds va l) := looked ..

theorem wordSeen_ctx {j : Ctx} (hj : j ≠ s.k) : (wordSeen s rds va l).ctx s.p j = s.ctx s.p j := by
  have look := (looked_wordSeen s rds va l).getCtx j
  rw [popped_core, (popAll_same _ _ _).2.1 j hj] at look
  exact look

theorem waitsOn_iff {j : Ctx} {w : Wait} : WaitsOn s l j w ↔ j ≠ s.k ∧ Waiting (wordSeen s rds va l) l j w := by
  have p : (wordSeen s rds va l).p = s.p := (looked_wordSeen s rds va l).p_eq
  unfold WaitsOn Waiting
  refine and_congr_right fun hj => ?_
  rw [p, wordSeen_ctx hj]

theorem ending_endWaits (s : State) (rds : List Rd) (va : Word) (l : Loc) (v : Word) :
    Ending s.p (fun j => ∃ w, WaitsOn s l j w) (∀ j w, WaitsOn s l j w → Private j w)
      (∀ j w, WaitsOn s l j w → NoStep (onCtx s j)) (wordSeen s rds va l) ((wordSeen s rds va l).endWaits l v) := by
  have p : (wordSeen s rds va l).p = s.p := (looked_wordSeen s rds va l).p_eq
  have k : (wordSeen s rds va l).k = s.k := (looked_wordSeen s rds va l).k_eq
  have on : ∀ {j w}, j ∈ otherCtxs s.k → Waiting (wordSeen s rds va l) l j w → WaitsOn s l j w :=
    fun hj waits => waitsOn_iff.2 ⟨mem_otherCtxs.1 hj, waits⟩
  have ended := ending_foldl (nodup_otherCtxs s.k) (wordSeen s rds va l) l v
  rw [p] at ended
  rw [endWaits_eq, k]
  refine ended.mono (fun j ⟨hj, w, waits⟩ => ⟨w, on hj waits⟩) (fun h j hj w waits => h j w (on hj waits))
    fun h j hj w waits => ?_
  have same : (onCtx (wordSeen s rds va l) j).me! = (onCtx s j).me! := by
    show (wordSeen s rds va l).ctx (wordSeen s rds va l).p j = s.ctx s.p j
    rw [p, wordSeen_ctx (mem_otherCtxs.1 hj)]
  show (!(State.me! _).supMode && (State.me! _).stepBit) = false
  rw [same]
  exact h j w (on hj waits)

/-- What MONCLR leaves once its own word has committed, `e` the state with the waits on it ended. -/
structure Monclr (s t e : State) (rds : List Rd) (l : Loc) : Prop where
  others : ∀ q, q ≠ s.p → t.core q = s.core q
  mem : t.mem = e.mem
  me : t.ctx s.p s.k = ((popped s rds).ctx s.p s.k).next (s.me!.pc + 4)
  alike : ∀ j, j ≠ s.k → Alike j (e.core s.p) (t.core s.p)
  chans : (t.core s.p).chans = (e.core s.p).chans
  mon : (t.core s.p).mon = (e.core s.p).mon.filter fun x => x.loc != l
  scratch : ∀ q, (t.core q).scratch = (s.core q).scratch

theorem monclr_commits (running : NoStep s) (rds : List Rd) (va : Word) (l : Loc) :
    Monclr s (waitsCleared s rds va l).advance ((wordSeen s rds va l).endWaits l (wordAt s l)) rds l := by
  have look := looked_wordSeen s rds va l
  have ended := ending_endWaits s rds va l (wordAt s l)
  have clear : waitsCleared s rds va l = ((wordSeen s rds va l).endWaits l (wordAt s l)).modCore s.p fun c =>
    { c with mon := c.mon.filter fun e => e.loc != l } := rfl
  rw [clear]
  generalize (wordSeen s rds va l).endWaits l (wordAt s l) = e at ended
  have p : e.p = s.p := by unfold State.p; rw [ended.sched, look.sched]; rfl
  have k : e.k = s.k := by unfold State.k; rw [ended.sched, look.sched]; rfl
  have own : e.ctx s.p s.k = (popped s rds).ctx s.p s.k :=
    (ended.contexts s.k fun ⟨w, waits⟩ => waits.1 rfl).trans (look.getCtx s.k)
  generalize made : (e.modCore s.p fun c => { c with mon := c.mon.filter fun x => x.loc != l }) = y
  have yp : y.p = s.p := by rw [← made]; exact p
  have yk : y.k = s.k := by rw [← made]; exact k
  have core : y.core s.p = { e.core s.p with mon := (e.core s.p).mon.filter fun x => x.loc != l } := by
    rw [← made, core_modCore]
  have ctx : y.ctx s.p s.k = (popped s rds).ctx s.p s.k := by
    rw [← own]; unfold State.ctx; rw [core]; rfl
  have still := noStep_popped running yp yk ctx
  have pc : y.me!.pc = s.me!.pc := by rw [me_popped yp yk ctx]
  have now : y.me! = (popped s rds).ctx s.p s.k := by rw [← ctx, State.me!, yp, yk]
  have done := core_advance still
  rw [yp, yk, pc, now, core] at done
  have other : ∀ q, q ≠ s.p → y.advance.core q = s.core q := fun q hq => by
    rw [core_advance_ne still (by rwa [yp]), ← made, core_modCore_ne _ _ _ _ (Ne.symm hq), ended.cores q hq, look.cores q hq]
    exact core_modCore_ne _ _ _ _ (Ne.symm hq)
  have kept : (e.core s.p).scratch = (s.core s.p).scratch := by
    rw [ended.core, look.core, popped_core, (popAll_same _ _ _).1]
  refine ⟨other, ?_, ?_, fun j hj => ⟨?_, ?_⟩, ?_, ?_, fun q => ?_⟩
  · rw [advance_eq still, ← made]; rfl
  · unfold State.ctx
    rw [done]
    exact getCtx_setCtx _ _ _
  · rw [done]
    exact getCtx_setCtx_ne _ _ _ _ (Ne.symm hj)
  · rw [done]; rfl
  · rw [done]; rfl
  · rw [done]; rfl
  · by_cases hq : q = s.p
    · rw [hq, done]
      exact kept
    · rw [other q hq]

/-- What the word of an access leaves its context is seen in that context and its queues alone. -/
theorem Access.alike {push : Option (BitVec 5)} {cls : BitVec 4} {o : Origin} {f : PendKind}
    (h : Access s t rds push cls o f) (a : Alike s.k (t.core s.p) (u.core s.p)) : Access s u rds push cls o f where
  pend := by rw [← h.pend]; exact congrArg Context.pend a.ctx
  entry d hd hd0 := by rw [a.queue]; exact h.entry d hd hd0
  popped r hr := by rw [a.queue]; exact h.popped r hr

end

theorem mon_wordSeen (s : State) (rds : List Rd) (va : Word) (l : Loc) :
    ((wordSeen s rds va l).core s.p).mon = (s.core s.p).mon := by
  rw [(looked_wordSeen s rds va l).core, popped_core, (popAll_same _ _ _).1]

theorem chans_wordSeen (s : State) (rds : List Rd) (va : Word) (l : Loc) :
    ((wordSeen s rds va l).core s.p).chans = ((popped s rds).core s.p).chans := by
  rw [(looked_wordSeen s rds va l).core]

/-- A committed word leaves each queue of its context as the pops left it, as long as the channels stand. -/
theorem queue_committed {rds : List Rd} {pc : Word} (me : t.ctx s.p s.k = ((popped s rds).ctx s.p s.k).next pc)
    (r : BitVec 5) (stand : channel s.k r = true → (t.core s.p).chans = ((popped s rds).core s.p).chans) :
    (t.core s.p).queue s.k r = reg (popped s rds) r := by
  refine Eq.trans ?_ (queue_next ((popped s rds).core s.p) s.k pc ((popped s rds).core s.p).dbg r)
  have ctx : (t.core s.p).getCtx s.k = (((popped s rds).core s.p).setCtx s.k
      ((((popped s rds).core s.p).getCtx s.k).next pc)).getCtx s.k := by
    rw [getCtx_setCtx]
    exact me
  cases chan : channel s.k r with
  | false => exact queue_of_ctx chan ctx
  | true => exact Alike.queue ⟨ctx, stand chan⟩ r

/-- What MONCLR leaves of a context whose wait on the word it ends: the wait's word committed with the word's value, or the
wait marked, where its register has no room. -/
theorem monclr_ends {rds : List Rd} {va : Word} {w : Wait}
    (done : Monclr s t ((wordSeen s rds va l).endWaits l (wordAt s l)) rds l) (waits : WaitsOn s l k w)
    (others : ∀ k' w', k' ≠ k → WaitsOn s l k' w' → Private k' w') :
    (∀ vs, Reads (onCtx (popped s rds) k) (waitReads w) (some w.op.d) vs → NoStep (onCtx (popped s rds) k) →
      t.ctx s.p k = { goesOn (s.ctx s.p k) ((s.ctx s.p k).pc + 4) with
        regs := (t.ctx s.p k).regs, sup := (t.ctx s.p k).sup, pend := (t.ctx s.p k).pend,
        nextId := (t.ctx s.p k).nextId } ∧
      Access (onCtx (popped s rds) k) t (waitReads w) (some w.op.d) 0 {} (.value (wordAt s l))) ∧
    ((∀ vs, ¬ Reads (onCtx (popped s rds) k) (waitReads w) (some w.op.d) vs) →
      t.ctx s.p k = { s.ctx s.p k with wait := some { w with ended := true, seen := wordAt s l } }) := by
  have look := looked_wordSeen s rds va l
  obtain ⟨hk, waiting⟩ := waitsOn_iff (rds := rds) (va := va).1 waits
  obtain ⟨a, sched, before, after⟩ := endWaits_at (wordSeen s rds va l) (wordAt s l) (by rw [look.k_eq]; exact hk) waiting
    fun j w' hj hj' waits' => others j w' hj (waitsOn_iff.2 ⟨by rw [look.k_eq] at hj'; exact hj', waits'⟩)
  rw [look.p_eq] at before after
  have p : a.p = s.p := by unfold State.p; rw [sched, look.sched]; rfl
  have start : Alike k ((popped s rds).core s.p) (a.core s.p) :=
    Alike.trans ⟨look.getCtx k, by rw [look.core]⟩ before
  have alike := after.trans (done.alike k hk)
  have same : (popped s rds).ctx s.p k = s.ctx s.p k := by
    rw [State.ctx, popped_core, (popAll_same _ _ _).2.1 k hk]; rfl
  have reads : operands (a.core a.p) k (waitReads w) (some w.op.d) false =
      operands ((onCtx (popped s rds) k).core (onCtx (popped s rds) k).p) (onCtx (popped s rds) k).k (waitReads w)
        (some w.op.d) false := by
    rw [p]; exact start.operands _ _ _
  rw [endWaitOf_eq, reads] at alike
  refine ⟨fun vs some running => ?_, fun none => ?_⟩
  · have pops : Alike k (((popped (onCtx (popped s rds) k) (waitReads w))).core s.p) ((waitPopped a k w).core s.p) := by
      have left : (popped (onCtx (popped s rds) k) (waitReads w)).core s.p =
        popAll ((popped s rds).core s.p) k (waitReads w) := core_modCore ..
      rw [left, waitPopped, p, core_setCore]
      exact start.popAll _
    obtain ⟨ctx, access⟩ := endWait_access (s := onCtx (popped s rds) k) (u := waitPopped a k w) (rds := waitReads w)
      running p rfl pops.ctx pops.queue w.op.d (wordAt s l)
    rw [show operands _ _ _ _ _ = _ from some] at alike
    have now : t.ctx s.p k = ((waitPopped a k w).endWait w.op.d (wordAt s l)).ctx s.p k := alike.ctx
    refine ⟨?_, access.alike alike⟩
    rw [now, ← same]
    exact ctx
  · have marked : ((a.modCtx a.p k fun x => { x with wait := some { w with ended := true, seen := wordAt s l } }).core
        s.p).getCtx k = { s.ctx s.p k with wait := some { w with ended := true, seen := wordAt s l } } := by
      rw [p, ← same]
      refine (ctx_modCtx _ _ _ _).trans ?_
      rw [State.ctx, start.ctx]
      rfl
    generalize out : operands _ _ _ _ _ = result at alike
    cases result with
    | ok vs => exact absurd out (none vs)
    | block => exact alike.ctx.trans marked
    | trap code tval => exact alike.ctx.trans marked

theorem waitsEnded : WaitsEnded := by
  refine ⟨fun r s vals l reads running place chip still => ?_, endedWait⟩
  have ended := ending_endWaits s [src r.a r.pa] (arg vals 0) l (wordAt s l)
  have look := looked_wordSeen s [src r.a r.pa] (arg vals 0) l
  have done := monclr_commits running [src r.a r.pa] (arg vals 0) l
  have mon := mon_wordSeen s [src r.a r.pa] (arg vals 0) l
  have chans := chans_wordSeen s [src r.a r.pa] (arg vals 0) l
  refine ⟨_, exec_monclr_ok reads place chip still, ?_, ?_, ?_, ?_, ?_, ?_, ?_, ?_⟩
  all_goals generalize (waitsCleared s [src r.a r.pa] (arg vals 0) l).advance = t at done
  · rw [done.me]; rfl
  · intro k hk none
    exact (done.alike k hk).ctx.trans ((ended.contexts k fun ⟨w, waits⟩ => none w waits).trans (wordSeen_ctx hk))
  · exact fun q hq => queue_committed done.me q fun h => by rw [hq] at h; exact absurd h Bool.false_ne_true
  · intro e he
    rw [done.mon, List.mem_filter] at he
    exact ⟨mon ▸ ended.fewer e he.1, by simpa using he.2⟩
  · intro e he other none
    rw [done.mon, List.mem_filter]
    exact ⟨ended.kept e (mon ▸ he) fun ⟨w, waits⟩ => none w waits, by simpa using other⟩
  · intro running
    exact ⟨done.mem.trans ((ended.mem running).trans look.mem), done.scratch, done.others⟩
  · intro none
    have queues : ∀ q, (t.core s.p).queue s.k q = reg (popped s [src r.a r.pa]) q := fun q =>
      queue_committed done.me q fun _ => done.chans.trans ((ended.chans fun j w h => absurd h (none j w)).trans chans)
    refine ⟨⟨done.others, fun j hj => ?_, ?_, fun q hq => ?_, ?_, done.scratch s.p⟩, queues⟩
    · exact (done.alike j hj).ctx.trans ((ended.contexts j fun ⟨w, waits⟩ => none j w waits).trans (wordSeen_ctx hj))
    · rw [done.me, State.ctx, popped_getCtx]
      simp [Context.next]
    · rw [queues, reg]
      show ((popped s [src r.a r.pa]).core s.p).queue s.k q = _
      rw [popped_core]
      exact popAll_queue_ne _ _ _ _ hq.1
    · exact done.mem.trans ((ended.mem fun j w h => absurd h (none j w)).trans look.mem)
  · intro k w waits others
    exact monclr_ends done waits others

end Sys2Proof.Claims
end

section
namespace Sys2Proof.Proofs

open Sys2Proof.Machine Sys2Proof.Claims

/-- Settles O10: a wait that commits changes only its own context, its queues and its monitor entry, so that the waits a
MONCLR ends do not see one another. -/
theorem waitsRun : Obligations.WaitsRun := ⟨waitWords, waitsEnded, waitsWoken⟩

end Sys2Proof.Proofs
end

section
/-! PROOFS. Bytes written at a home: which cells an aligned run of bytes lies in, and what a write leaves (R31, R99, R293–R297). -/

namespace Sys2Proof.Claims

set_option Elab.async false

open Sys2Proof.Machine

variable {s t u : State} {p q : CoreId} {a b n : Nat} {l : Loc} {bs : List Byte}

/-! ### Cells of one block of 8 bytes -/

/-- A place of the address map some bytes further on. -/
def Space.shift (x : Space) (d : Nat) : Space :=
  match x with
  | .dev o => .dev (o + d)
  | .host h => .host (h + d)
  | .under b o => .under b (o + d)
  | .ctl o => .ctl (o + d)
  | .peer b o => .peer b (o + d)
  | .none => .none

/-- The address map does not change within a block of 8 bytes. -/
theorem space_block (s : State) (block : a / 8 = b / 8) (le : a ≤ b) : s.space b = Space.shift (s.space a) (b - a) := by
  obtain ⟨d, rfl⟩ := Nat.exists_eq_add_of_le le
  have hd : a % 8 + d < 8 := by omega
  have dev : (a + d < devSize) = (a < devSize) := by unfold devSize; apply propext; omega
  have host : (hostBase ≤ a + d ∧ a + d < hostBase + 0x10000000000000) =
      (hostBase ≤ a ∧ a < hostBase + 0x10000000000000) := by unfold hostBase; apply propext; omega
  have under : (underBase ≤ a + d ∧ a + d < underBase + 16 * 0x20000000) =
      (underBase ≤ a ∧ a < underBase + 16 * 0x20000000) := by unfold underBase; apply propext; omega
  have ctl : (ctlBase ≤ a + d ∧ a + d < ctlBase + 0x4000000) = (ctlBase ≤ a ∧ a < ctlBase + 0x4000000) := by
    unfold ctlBase; apply propext; omega
  have peer : (peerBase ≤ a + d ∧ a + d < 2 * peerBase) = (peerBase ≤ a ∧ a < 2 * peerBase) := by
    unfold peerBase; apply propext; omega
  have window : (a + d) / 2 ^ 45 % 1024 = a / 2 ^ 45 % 1024 := by omega
  have offset : (a + d) % 2 ^ 45 = a % 2 ^ 45 + d := by omega
  have past : (devSize ≤ a % 2 ^ 45 + d) = (devSize ≤ a % 2 ^ 45) := by unfold devSize; apply propext; omega
  have add : a + d - a = d := by omega
  unfold State.space
  simp only [dev, host, under, ctl, peer, window, offset, past, add]
  split
  · rfl
  · split
    · simp only [Space.shift, Space.host.injEq]; omega
    · split
      · next inUnder =>
        obtain ⟨low, -⟩ := inUnder
        have row : (a + d - underBase) / 0x20000000 = (a - underBase) / 0x20000000 := by unfold underBase at *; omega
        have byte : (a + d - underBase) % 0x20000000 = (a - underBase) % 0x20000000 + d := by unfold underBase at *; omega
        have kept : ((a - underBase) % 0x20000000 + d < 0x1C000000) = ((a - underBase) % 0x20000000 < 0x1C000000) := by
          unfold underBase at *; apply propext; omega
        simp only [row, byte, kept]
        split <;> rfl
      · split
        · simp only [Space.shift, Space.ctl.injEq]; omega
        · split
          · split
            · rfl
            · split <;> rfl
          · rfl

theorem dev_mod (s : State) {o : Nat} (space : s.space a = .dev o) : o % 8 = a % 8 := by
  unfold State.space at space
  split at space
  · cases space; rfl
  · split at space
    · cases space
    · split at space
      · dsimp only at space
        split at space <;> cases space
      · split at space
        · cases space
        · split at space
          · dsimp only at space
            split at space
            · cases space
            · split at space
              · cases space; omega
              · cases space
          · cases space

/-- Within a block of 8 device-memory bytes the cells follow one another. -/
theorem dramKey_block (s : State) (block : a / 8 = b / 8) (le : a ≤ b) : s.dramKey b = s.dramKey a + (b - a) := by
  have stack : stackOf b = stackOf a := by unfold stackOf; omega
  have frame : framePos b = framePos a := by unfold framePos; omega
  unfold State.dramKey State.striped
  rw [stack, frame]
  split
  · unfold lineAddr stripedPlace
    simp only [stack, frame]
    omega
  · omega

theorem key_block (s : State) (block : a / 8 = b / 8) (le : a ≤ b) : s.key b = s.key a + (b - a) := by
  unfold State.key
  rw [space_block s block le]
  cases space : s.space a with
  | dev o =>
    have same : o / 8 = (o + (b - a)) / 8 := by
      have := dev_mod s space
      omega
    rw [Space.shift]
    dsimp only
    rw [dramKey_block s same (by omega)]
    omega
  | _ => simp only [Space.shift]; omega

/-- The cells of an aligned access follow one another. -/
theorem key_aligned (s : State) (width : n = 1 ∨ n = 2 ∨ n = 4 ∨ n = 8) (aligned : a / n * n = a) {j : Nat} (hj : j < n) :
    s.key (a + j) = s.key a + j := by
  have block : a / 8 = (a + j) / 8 := by rcases width with rfl | rfl | rfl | rfl <;> omega
  rw [key_block s block (by omega)]
  omega

/-! ### What a write leaves -/

theorem mem_storePhys (s : State) (a : Nat) (bs : List Byte) (cells : ∀ j, j < bs.length → s.key (a + j) = s.key a + j) :
    (s.storePhys a bs).mem = s.mem.write (s.key a) bs := by
  induction bs generalizing s a with
  | nil => rfl
  | cons b bs ih =>
    have later : ∀ j, j < bs.length → (s.setByte a b).key (a + 1 + j) = (s.setByte a b).key (a + 1) + j := fun j hj => by
      have one := cells 1 (by simp; omega)
      have more := cells (1 + j) (by simp; omega)
      rw [key_setByte, key_setByte, Nat.add_assoc, more, one]
      omega
    rw [State.storePhys, ih _ _ later, key_setByte]
    cases bs with
    | nil => rfl
    | cons c bs => rw [cells 1 (by simp)]; rfl

theorem key_of_atHomes (h : AtHomes s t) (b : Nat) : t.key b = s.key b := by rw [h.module]; rfl

theorem stored_spad {o : Nat} (wf : (s.core p).scratch.wf = true) (mem : t.mem = s.mem)
    (others : ∀ q, q ≠ p → (t.core q).scratch = (s.core q).scratch)
    (scratch : (t.core p).scratch = (s.core p).scratch.write o bs) : Stored s t p (.spad o) bs := by
  refine ⟨mem, others, fun j hj => ?_, fun a ha => ?_⟩
  · rw [scratch, get_write _ _ _ _ wf, if_pos (by omega)]
    congr 1
    omega
  · rw [scratch, get_write _ _ _ _ wf, if_neg (by omega)]

theorem stored_phys (wf : s.mem.wf = true) (scratch : ∀ q, (t.core q).scratch = (s.core q).scratch)
    (key : ∀ b, t.key b = s.key b) (mem : t.mem = s.mem.write (s.key a) bs)
    (cells : ∀ j, j < bs.length → s.key (a + j) = s.key a + j) : Stored s t p (.phys a) bs := by
  refine ⟨scratch, key, fun j hj => ?_, fun b apart => ?_⟩
  · rw [State.rawByte, mem, key, cells j hj, get_write _ _ _ _ wf, if_pos (by omega)]
    congr 1
    omega
  · rw [State.rawByte, mem, key, get_write _ _ _ _ wf, if_neg]
    · rfl
    · rintro ⟨lo, hi⟩
      refine apart (s.key b - s.key a) (by omega) ?_
      rw [cells _ (by omega)]
      omega

/-- A write of an aligned access at its home. -/
theorem stored_writeLoc (canonical : Canonical s) (plain : PlainAt s l n) (length : bs.length = n) :
    Stored s (s.writeLoc p l bs) p l bs := by
  obtain ⟨wf, wfScratch⟩ := canonical
  obtain ⟨width, aligned, -⟩ := plain
  cases l with
  | spad o =>
    refine stored_spad (wfScratch p) rfl (fun q hq => ?_) ?_
    · rw [State.writeLoc, wake_core, core_modCore_ne _ _ _ _ (Ne.symm hq)]
    · rw [State.writeLoc, wake_core, core_modCore]
  | phys a =>
    have even : a / n * n = a := Loc.phys.inj aligned
    have cells : ∀ j, j < bs.length → s.key (a + j) = s.key a + j := fun j hj => key_aligned s width even (length ▸ hj)
    refine stored_phys wf (fun q => ?_) (key_of_atHomes (atHomes_writePhys s a bs)) (mem_storePhys s a bs cells) cells
    exact congrArg Core.scratch (core_writePhys s a bs q)

theorem SameBytes.refl (s : State) : SameBytes s s := ⟨rfl, fun _ => rfl⟩

theorem SameBytes.trans (h : SameBytes s t) (k : SameBytes t u) : SameBytes s u :=
  ⟨k.1.trans h.1, fun q => (k.2 q).trans (h.2 q)⟩

/-- The bytes stay where they were written. -/
theorem Stored.trans_same (h : Stored s t p l bs) (same : SameBytes t u) (key : ∀ b, u.key b = t.key b) :
    Stored s u p l bs := by
  obtain ⟨mem, scratch⟩ := same
  cases l with
  | spad o =>
    obtain ⟨memory, others, written, rest⟩ := h
    exact ⟨mem.trans memory, fun q hq => (scratch q).trans (others q hq), fun j hj => by rw [scratch]; exact written j hj,
      fun a ha => by rw [scratch]; exact rest a ha⟩
  | phys a =>
    obtain ⟨scratches, keys, written, rest⟩ := h
    have raw : ∀ b, u.rawByte b = t.rawByte b := fun b => by rw [State.rawByte, mem, key]; rfl
    exact ⟨fun q => (scratch q).trans (scratches q), fun b => (key b).trans (keys b), fun j hj => by rw [raw]; exact written j hj,
      fun b hb => by rw [raw]; exact rest b hb⟩

/-- What stands before the write changes no byte. -/
theorem SameBytes.trans_stored (same : SameBytes s t) (key : ∀ b, t.key b = s.key b) (h : Stored t u p l bs) :
    Stored s u p l bs := by
  obtain ⟨mem, scratch⟩ := same
  cases l with
  | spad o =>
    obtain ⟨memory, others, written, rest⟩ := h
    exact ⟨memory.trans mem, fun q hq => (others q hq).trans (scratch q), written, fun a ha => by rw [rest a ha, scratch]⟩
  | phys a =>
    obtain ⟨scratches, keys, written, rest⟩ := h
    refine ⟨fun q => (scratches q).trans (scratch q), fun b => (keys b).trans (key b), written, fun b hb => ?_⟩
    rw [rest b fun j hj => by rw [key, key]; exact hb j hj, State.rawByte, mem, key]
    rfl

/-! ### Writes at a home and their caches -/

/-- A change of cores that leaves the scratchpads alone changes no byte. -/
theorem sameBytes_modCore {f : Core → Core} (hf : ∀ c, (f c).scratch = c.scratch) : SameBytes s (s.modCore p f) := by
  refine ⟨rfl, fun q => ?_⟩
  by_cases e : p = q
  · subst e; rw [core_modCore, hf]
  · rw [core_modCore_ne _ _ _ _ e]

theorem sameBytes_holdPool (s : State) (l : Loc) (n : Nat) (wr : Bool) : SameBytes s (s.holdPool l n wr) :=
  ⟨(looked_holdPool (p := 0) s l n wr).mem, fun q => by rw [core_holdPool]⟩

theorem sameBytes_dropL1 (s : State) (p : CoreId) (line : Nat) : SameBytes s (s.dropL1 p line) :=
  sameBytes_modCore fun _ => rfl

theorem sameBytes_writeHome (s : State) (p : CoreId) (l : Loc) (bs : List Byte) :
    SameBytes (s.writeLoc p l bs) (s.writeHome p l bs) := by
  have held := sameBytes_holdPool (s.writeLoc p l bs) l bs.length true
  unfold State.writeHome
  dsimp only
  split
  · exact held
  · split
    · split
      · exact held.trans (sameBytes_dropL1 ..)
      · exact held.trans ((sameBytes_dropL1 ..).trans (sameBytes_dropL1 ..))
    · exact held

theorem sameBytes_storeScalar (s : State) (p : CoreId) (l : Loc) (bs : List Byte) :
    SameBytes (s.writeLoc p l bs) (s.storeScalar p l bs) := by
  have held := sameBytes_holdPool (s.writeLoc p l bs) l bs.length true
  unfold State.storeScalar
  dsimp only
  split
  · exact held
  · split
    · exact held.trans (sameBytes_modCore fun _ => rfl)
    · exact held

theorem atHomes_storeScalar (s : State) (p : CoreId) (l : Loc) (bs : List Byte) : AtHomes s (s.storeScalar p l bs) := by
  have written := (atHomes_writeLoc s p l bs).trans (atHomes_holdPool _ l bs.length true)
  unfold State.storeScalar
  dsimp only
  split
  · exact written
  · split
    · exact written.trans (atHomes_modCore fun _ => rfl)
    · exact written

theorem key_after_atHomes (h : AtHomes s t) (k : AtHomes s u) (b : Nat) : u.key b = t.key b := by
  rw [key_of_atHomes h, key_of_atHomes k]

theorem stored_writeHome (canonical : Canonical s) (plain : PlainAt s l n) (length : bs.length = n) :
    Stored s (s.writeHome p l bs) p l bs :=
  (stored_writeLoc canonical plain length).trans_same (sameBytes_writeHome s p l bs)
    (key_after_atHomes (atHomes_writeLoc s p l bs) (atHomes_writeHome s p l bs))

theorem stored_storeScalar (canonical : Canonical s) (plain : PlainAt s l n) (length : bs.length = n) :
    Stored s (s.storeScalar p l bs) p l bs :=
  (stored_writeLoc canonical plain length).trans_same (sameBytes_storeScalar s p l bs)
    (key_after_atHomes (atHomes_writeLoc s p l bs) (atHomes_storeScalar s p l bs))

end Sys2Proof.Claims
end

section
/-! PROOFS. What performing an issued item changes (R98, R115–R119, R171). -/

namespace Sys2Proof.Claims

set_option Elab.async false

open Sys2Proof.Machine

variable {s t u : State} {c d : Core} {p q : CoreId} {k : Ctx} {l : Loc} {n : Nat} {B : Vector (Fin 8) 16}

/-! ### The core of the item, and the others -/

/-- What an access at its home changes: memory, caches and marks; of its core also the performance counters and the
pointers of the banks. -/
structure Touched (p : CoreId) (s u : State) : Prop where
  module : u = { s with cores := u.cores, mem := u.mem, llc := u.llc, marks := u.marks,
                        links := { s.links with pool := u.links.pool } }
  others : ∀ q, q ≠ p → u.core q = { s.core q with l1 := (u.core q).l1, scratch := (u.core q).scratch }
  core : u.core p = { s.core p with l1 := (u.core p).l1, scratch := (u.core p).scratch, dbg := (u.core p).dbg,
                                    banks := (u.core p).banks }

theorem Touched.refl (p : CoreId) (s : State) : Touched p s s := ⟨rfl, fun _ _ => rfl, rfl⟩

theorem Touched.trans (a : Touched p s t) (b : Touched p t u) : Touched p s u where
  module := by rw [b.module, a.module]
  others q hq := by rw [b.others q hq, a.others q hq]
  core := by rw [b.core, a.core]

theorem AtHomes.touched (h : AtHomes s t) (p : CoreId) : Touched p s t :=
  ⟨h.module, fun q _ => h.cores q, by rw [h.cores]⟩

theorem AtHomes.banks (h : AtHomes s t) (p : CoreId) : (t.core p).banks = (s.core p).banks := by rw [h.cores]

theorem touched_setCore (c : Core) (hc : c = { s.core p with dbg := c.dbg, banks := c.banks }) :
    Touched p s (s.setCore p c) where
  module := rfl
  others q hq := by rw [core_setCore_ne _ _ _ _ (Ne.symm hq)]
  core := by rw [core_setCore, hc]

theorem touched_count (s : State) (p : CoreId) (code : Byte) (n : Nat) : Touched p s (s.count p code n) := by
  rw [count_eq]
  exact touched_setCore _ rfl

theorem touched_grant (s : State) (p : CoreId) (r : Fin 8) (l : Loc) (n : Nat) : Touched p s (s.grant p r l n) := by
  rw [grant_eq]
  exact touched_setCore _ rfl

theorem sameBytes_setCore (c : Core) (hc : c.scratch = (s.core p).scratch) : SameBytes s (s.setCore p c) := by
  refine ⟨rfl, fun q => ?_⟩
  by_cases e : p = q
  · subst e; rw [core_setCore, hc]
  · rw [core_setCore_ne _ _ _ _ e]

theorem sameBytes_count (s : State) (p : CoreId) (code : Byte) (n : Nat) : SameBytes s (s.count p code n) := by
  rw [count_eq]
  exact sameBytes_setCore _ rfl

theorem sameBytes_grant (s : State) (p : CoreId) (r : Fin 8) (l : Loc) (n : Nat) : SameBytes s (s.grant p r l n) := by
  rw [grant_eq]
  exact sameBytes_setCore _ rfl

/-- The bank of an aligned access grants one row to it (R98). -/
theorem banks_grant (width : n = 1 ∨ n = 2 ∨ n = 4 ∨ n = 8) (aligned : l.align n = l) (r : Fin 8) :
    ((s.grant p r l n).core p).banks = pointers s p r l := by
  cases l with
  | phys a => rfl
  | spad o =>
    have even : o / n * n = o := Loc.spad.inj aligned
    have row : (o % 128 + n + 127) / 128 = 1 := by rcases width with rfl | rfl | rfl | rfl <;> omega
    rw [State.grant, core_modCore, row]
    rfl

/-! ### The entry filled -/

/-- Two cores that differ in what their contexts have issued, in scratchpad, L1, performance counters and bank pointers. -/
structure SameWork (c d : Core) : Prop where
  core : d = { c with ctx := d.ctx, scratch := d.scratch, l1 := d.l1, dbg := d.dbg, banks := d.banks }
  ctx : ∀ j, d.getCtx j = { c.getCtx j with pend := (d.getCtx j).pend }

theorem SameWork.setCtx (h : SameWork c d) (k : Ctx) {x y : Context} (hy : y = { x with pend := y.pend }) :
    SameWork (c.setCtx k x) (d.setCtx k y) where
  core := by
    unfold Core.setCtx
    rw [h.core]
  ctx j := by
    by_cases e : k = j
    · subst e; rw [getCtx_setCtx, getCtx_setCtx]; exact hy
    · rw [getCtx_setCtx_ne _ _ _ _ e, getCtx_setCtx_ne _ _ _ _ e]; exact h.ctx j

/-- An entry filled changes registers and channels alone, alike in two such cores. -/
theorem SameWork.fill (h : SameWork c d) (k : Ctx) (id : Nat) (dst : Option (BitVec 5 × Bool)) (v : Word) :
    SameWork (c.fill k id dst v) (d.fill k id dst v) := by
  unfold Core.fill
  cases dst with
  | none => exact h
  | some x =>
    obtain ⟨r, sup⟩ := x
    dsimp only
    cases regKind k sup r with
    | zero => exact h
    | cons ch => exact h
    | priv => exact h.setCtx k (by rw [h.ctx])
    | sup => exact h.setCtx k (by rw [h.ctx])
    | prod ch =>
      refine ⟨?_, h.ctx⟩
      dsimp only
      rw [h.core]

theorem pend_fill (c : Core) (k j : Ctx) (id : Nat) (dst : Option (BitVec 5 × Bool)) (v : Word) :
    ((c.fill k id dst v).getCtx j).pend = (c.getCtx j).pend := by
  unfold Core.fill
  cases dst with
  | none => rfl
  | some x =>
    obtain ⟨r, sup⟩ := x
    have set : ∀ y : Context, y.pend = (c.getCtx k).pend → ((c.setCtx k y).getCtx j).pend = (c.getCtx j).pend := fun y hy => by
      by_cases e : k = j
      · subst e; rw [getCtx_setCtx, hy]
      · rw [getCtx_setCtx_ne _ _ _ _ e]
    dsimp only
    cases regKind k sup r with
    | zero => rfl
    | cons ch => rfl
    | priv => exact set _ rfl
    | sup => exact set _ rfl
    | prod ch => rfl

/-- The first entry of a queue that waits under a number takes the value. -/
theorem fillsTo_fillEntry (q : Queue) (id : Nat) (v : Word) : FillsTo q (fillEntry id v q) id v := by
  have waits : ∀ e : QEntry, (e.id == id && !e.filled) = false ↔ e.id ≠ id ∨ e.filled = true := fun e => by
    cases e.filled <;> simp
  induction q with
  | nil => exact .inl ⟨by simp, rfl⟩
  | cons x q ih =>
    rw [fillEntry, modFirst, ← fillEntry]
    by_cases here : (x.id == id && !x.filled) = true
    · rw [if_pos here]
      obtain ⟨number, empty⟩ := Bool.and_eq_true_iff.1 here
      exact .inr ⟨[], x, q, rfl, by simp, by simpa using number, by simpa using empty, rfl⟩
    · rw [if_neg here]
      have not_ := (waits x).1 (by simpa using here)
      rcases ih with ⟨none, same⟩ | ⟨pre, e, post, split, before, number, empty, after⟩
      · exact .inl ⟨List.forall_mem_cons.2 ⟨not_, none⟩, by rw [same]⟩
      · exact .inr ⟨x :: pre, e, post, by rw [split]; rfl, List.forall_mem_cons.2 ⟨not_, before⟩, number, empty, by
          rw [after]; rfl⟩

theorem fill_eq_setDst (c : Core) (k : Ctx) (id : Nat) (x : BitVec 5 × Bool) (v : Word) :
    ∃ q, FillsTo (dstQueue c k x) q id v ∧ c.fill k id (some x) v = setDst c k x q := by
  obtain ⟨r, sup⟩ := x
  unfold Core.fill dstQueue setDst
  dsimp only
  cases regKind k sup r with
  | zero => exact ⟨[], .inl ⟨by simp, rfl⟩, rfl⟩
  | cons ch => exact ⟨[], .inl ⟨by simp, rfl⟩, rfl⟩
  | priv => exact ⟨_, fillsTo_fillEntry _ id v, rfl⟩
  | sup => exact ⟨_, fillsTo_fillEntry _ id v, rfl⟩
  | prod ch => exact ⟨_, fillsTo_fillEntry _ id v, rfl⟩

/-! ### Fences that an item held back take effect -/

theorem mem_settleList {i : Pend} {before m : List Pend} (met : ∀ l, fenceMet c l i = false) (h : i ∈ before ∨ i ∈ m) :
    i ∈ settleList c before m := by
  induction m generalizing before with
  | nil => simpa [settleList] using h
  | cons j m ih =>
    rw [settleList]
    split
    · next met' =>
      refine ih ?_
      rcases h with h | h
      · exact .inl h
      · rcases List.mem_cons.1 h with rfl | h
        · rw [met] at met'; cases met'
        · exact .inr h
    · refine ih ?_
      rcases h with h | h
      · exact .inl (List.mem_append_left _ h)
      · rcases List.mem_cons.1 h with rfl | h
        · exact .inl (List.mem_append_right _ (List.mem_singleton.2 rfl))
        · exact .inr h

theorem fenceMet_access {i : Pend} (access : (accessAt i).isSome = true) (m : List Pend) : fenceMet c m i = false := by
  unfold accessAt at access
  unfold fenceMet
  cases kind : i.kind <;> simp [kind] at access ⊢

/-- What fences that take effect change: of the core's contexts only what they have issued, and L1s. -/
structure Settling (p : CoreId) (s t : State) : Prop where
  module : t = { s with cores := t.cores }
  others : ∀ q, q ≠ p → t.core q = { s.core q with l1 := (t.core q).l1 }
  core : t.core p = { s.core p with ctx := (t.core p).ctx, l1 := (t.core p).l1 }
  contexts : ∀ j, t.ctx p j = { s.ctx p j with pend := (t.ctx p j).pend }
  left : ∀ j, ∀ i ∈ (t.ctx p j).pend, i ∈ (s.ctx p j).pend
  kept : ∀ j, ∀ i ∈ (s.ctx p j).pend, (accessAt i).isSome = true → i ∈ (t.ctx p j).pend

theorem Settling.trans (a : Settling p s t) (b : Settling p t u) : Settling p s u where
  module := by rw [b.module, a.module]
  others q hq := by rw [b.others q hq, a.others q hq]
  core := by rw [b.core, a.core]
  contexts j := by rw [b.contexts, a.contexts]
  left j i hi := a.left j i (b.left j i hi)
  kept j i hi access := b.kept j i (a.kept j i hi access) access

theorem settling_clearL1 (s : State) (p : CoreId) : Settling p s (s.clearL1 p) where
  module := by rw [clearL1_eq]; exact emptyL1s_eq s _
  others q _ := core_clearL1 q
  core := by rw [core_clearL1]
  contexts j := by rw [ctx_clearL1_any]
  left j i hi := by rwa [ctx_clearL1_any] at hi
  kept j i hi _ := by rwa [ctx_clearL1_any]

theorem settling_setPend (s : State) (p : CoreId) (k : Ctx) (m : List Pend) (sub : ∀ i ∈ m, i ∈ (s.ctx p k).pend)
    (kept : ∀ i ∈ (s.ctx p k).pend, (accessAt i).isSome = true → i ∈ m) :
    Settling p s (s.setCtx p k { s.ctx p k with pend := m }) where
  module := rfl
  others q hq := by
    have core : (s.setCtx p k { s.ctx p k with pend := m }).core q = s.core q := core_setCore_ne _ _ _ _ (Ne.symm hq)
    rw [core]
  core := by rw [core_setCtx]; rfl
  contexts j := by
    by_cases e : k = j
    · subst e; rw [ctx_setCtx]
    · rw [ctx_setCtx_ne _ _ _ _ _ e]
  left j i hi := by
    by_cases e : k = j
    · subst e; rw [ctx_setCtx] at hi; exact sub i hi
    · rwa [ctx_setCtx_ne _ _ _ _ _ e] at hi
  kept j i hi access := by
    by_cases e : k = j
    · subst e; rw [ctx_setCtx]; exact kept i hi access
    · rwa [ctx_setCtx_ne _ _ _ _ _ e]

theorem settling_settleCtx (s : State) (p : CoreId) (k : Ctx) : Settling p s (s.settleCtx p k) := by
  have settled := settling_setPend s p k (settleList (s.core p) [] (s.ctx p k).pend)
    (fun i hi => List.Sublist.subset (l₂ := [] ++ (s.ctx p k).pend) (settleList_sublist ..) hi)
    fun i hi access => mem_settleList (fenceMet_access access) (.inr hi)
  unfold State.settleCtx
  dsimp only
  split
  · exact settled.trans (settling_clearL1 ..)
  · exact settled

theorem settling_settle (s : State) (p : CoreId) : Settling p s (s.settle p) := by
  unfold State.settle
  simp only [List.foldl_cons, List.foldl_nil]
  exact (settling_settleCtx s p .ld).trans ((settling_settleCtx _ p .cp).trans (settling_settleCtx _ p .st))

theorem Settling.sameBytes (h : Settling p s t) : SameBytes s t := by
  refine ⟨by rw [h.module], fun q => ?_⟩
  by_cases e : q = p
  · rw [e, h.core]
  · rw [h.others q e]

/-! ### An item performed -/

theorem key_of_touched (h : Touched p s u) (b : Nat) : u.key b = s.key b := by rw [h.module]; rfl

theorem key_of_settling (h : Settling p s t) (b : Nat) : t.key b = s.key b := by rw [h.module]; rfl

/-- The state once an item of a context has left what it has issued, acted, and filled its entry. -/
def acted (u : State) (p : CoreId) (k : Ctx) (id : Nat) (dst : Option (BitVec 5 × Bool)) (v : Word) : State :=
  (u.modCore p fun c => c.fill k id dst v).settle p

theorem SameWork.trans {e : Core} (a : SameWork c d) (b : SameWork d e) : SameWork c e :=
  ⟨by rw [b.core, a.core], fun j => by rw [b.ctx, a.ctx]⟩

theorem core_dropPend (s : State) (p : CoreId) (k : Ctx) (id : Nat) : (s.dropPend p k id).core p =
    (s.core p).setCtx k { s.ctx p k with pend := (s.ctx p k).pend.filter fun j => j.id != id } := by
  unfold State.dropPend State.modCtx
  exact core_setCtx ..

theorem core_dropPend_ne (s : State) (k : Ctx) (id : Nat) (hq : q ≠ p) : (s.dropPend p k id).core q = s.core q := by
  unfold State.dropPend State.modCtx
  exact core_setCore_ne _ _ _ _ (Ne.symm hq)

theorem sameWork_dropPend (s : State) (p : CoreId) (k : Ctx) (id : Nat) :
    SameWork (s.core p) ((s.dropPend p k id).core p) := by
  have same : SameWork (s.core p) (s.core p) := ⟨rfl, fun _ => rfl⟩
  have set := same.setCtx k (x := (s.core p).getCtx k)
    (y := { s.ctx p k with pend := (s.ctx p k).pend.filter fun j => j.id != id }) rfl
  rw [setCtx_getCtx] at set
  rwa [core_dropPend]

theorem Touched.sameWork (h : Touched p s u) : SameWork (s.core p) (u.core p) :=
  ⟨by rw [h.core], fun j => by rw [h.core]; rfl⟩

/-- An entry filled leaves all of the core but its contexts and channels. -/
theorem fill_core (c : Core) (k : Ctx) (id : Nat) (dst : Option (BitVec 5 × Bool)) (v : Word) :
    c.fill k id dst v = { c with ctx := (c.fill k id dst v).ctx, chans := (c.fill k id dst v).chans } := by
  unfold Core.fill
  cases dst with
  | none => rfl
  | some x => dsimp only; cases regKind k x.2 x.1 <;> rfl

theorem performed {i : Pend} (touch : Touched p (s.dropPend p k i.id) u)
    (scratch : ∀ q, q ≠ p → (u.core q).scratch = (s.core q).scratch) (dst : Option (BitVec 5 × Bool)) (v : Word) :
    Performed s (acted u p k i.id dst v) p k i ((s.core p).fill k i.id dst v) (u.core p).banks := by
  have work := ((sameWork_dropPend s p k i.id).trans touch.sameWork).fill k i.id dst v
  have filled : (u.modCore p fun c => c.fill k i.id dst v).core p = (u.core p).fill k i.id dst v := core_modCore ..
  have settled := settling_settle (u.modCore p fun c => c.fill k i.id dst v) p
  have pend : ∀ j, ((u.modCore p fun c => c.fill k i.id dst v).ctx p j).pend = ((s.dropPend p k i.id).ctx p j).pend := fun j => by
    rw [State.ctx, filled, pend_fill, touch.core]; rfl
  have left : ((s.dropPend p k i.id).ctx p k).pend = (s.ctx p k).pend.filter fun j => j.id != i.id := by
    rw [State.ctx, core_dropPend, getCtx_setCtx]
  have banks : ((u.core p).fill k i.id dst v).banks = (u.core p).banks := by rw [fill_core]
  unfold acted
  generalize (u.modCore p fun c => c.fill k i.id dst v).settle p = t at settled
  refine ⟨?_, fun q hq => ?_, ?_, fun j => ?_, fun j hj => ?_, fun j hj other access => ?_⟩
  · have module : (u.modCore p fun c => c.fill k i.id dst v) =
        { u with cores := (u.modCore p fun c => c.fill k i.id dst v).cores } := rfl
    have drop : s.dropPend p k i.id = { s with cores := (s.dropPend p k i.id).cores } := rfl
    rw [settled.module, module, touch.module, drop]
  · rw [settled.others q hq, core_modCore_ne _ _ _ _ (Ne.symm hq), touch.others q hq, core_dropPend_ne s k i.id hq,
      scratch q hq]
  · rw [settled.core, filled, work.core, banks]
  · rw [settled.contexts, State.ctx, filled, work.ctx]
  · have before := settled.left k j hj
    rw [pend, left, List.mem_filter] at before
    exact ⟨before.1, by simpa using before.2⟩
  · refine settled.kept k j ?_ access
    rw [pend, left, List.mem_filter]
    exact ⟨hj, by simpa using other⟩

theorem sameBytes_acted (u : State) (p : CoreId) (k : Ctx) (id : Nat) (dst : Option (BitVec 5 × Bool)) (v : Word) :
    SameBytes u (acted u p k id dst v) :=
  (sameBytes_modCore fun c => by rw [fill_core]).trans (settling_settle _ p).sameBytes

theorem key_acted (u : State) (p : CoreId) (k : Ctx) (id : Nat) (dst : Option (BitVec 5 × Bool)) (v : Word) (b : Nat) :
    (acted u p k id dst v).key b = u.key b := key_of_settling (settling_settle _ p) b

end Sys2Proof.Claims
end

section
/-! PROOFS. The values of scalar accesses: bytes read, their extension, the results of R188 and R189. -/

namespace Sys2Proof.Claims

set_option Elab.async false

open Sys2Proof.Machine

variable {s t u : State} {p q : CoreId} {k : Ctx} {l : Loc} {n : Nat}

/-! ### Bytes -/

theorem leNat_congr {f g : Nat → Byte} {a b n : Nat} (h : ∀ j < n, f (a + j) = g (b + j)) : leNat f a n = leNat g b n := by
  induction n generalizing a b with
  | zero => rfl
  | succ n ih =>
    have first : f a = g b := h 0 (by omega)
    rw [leNat, leNat, first, ih fun j hj => ?_]
    have := h (j + 1) (by omega)
    rwa [show a + 1 + j = a + (j + 1) by omega, show b + 1 + j = b + (j + 1) by omega]

theorem leNat_lt (f : Nat → Byte) (a n : Nat) : leNat f a n < 256 ^ n := by
  induction n generalizing a with
  | zero => simp [leNat]
  | succ n ih =>
    have := ih (a + 1)
    have := (f a).isLt
    rw [leNat, Nat.pow_succ]
    omega

/-- A byte of a little-endian number. -/
theorem byteOf_leNat (f : Nat → Byte) (a : Nat) {n i : Nat} (hi : i < n) : Machine.byteOf (leNat f a n) i = f (a + i) := by
  induction n generalizing a i with
  | zero => omega
  | succ n ih =>
    have := (f a).isLt
    cases i with
    | zero =>
      apply BitVec.eq_of_toNat_eq
      simp only [Machine.byteOf, BitVec.toNat_ofNat, leNat, Nat.pow_zero, Nat.div_one, Nat.add_zero]
      omega
    | succ i =>
      have rest : leNat f a (n + 1) / 256 ^ (i + 1) = leNat f (a + 1) n / 256 ^ i := by
        rw [Nat.pow_succ', ← Nat.div_div_eq_div_mul, leNat]
        congr 1
        omega
      have := ih (a + 1) (i := i) (by omega)
      unfold Machine.byteOf at this ⊢
      rw [rest, this]
      congr 1
      omega

theorem vecByte_toVec {v i : Nat} (hv : v < 256 ^ 128) : vecByte (toVec v) i = Machine.byteOf v i := by
  apply BitVec.eq_of_toNat_eq
  have wide : v < 2 ^ (8 * 128) := by rwa [Nat.pow_mul]
  have whole : (toVec v).toNat = v := (BitVec.toNat_ofNat v (8 * 128)).trans (Nat.mod_eq_of_lt wide)
  rw [vecByte, Machine.byteOf, BitVec.extractLsb'_toNat, BitVec.toNat_ofNat, whole, Nat.shiftRight_eq_div_pow, Nat.pow_mul]

/-- The bytes of a line taken up as a vector. -/
theorem vecByte_line (f : Nat → Byte) (a : Nat) {i : Nat} (hi : i < 128) : vecByte (toVec (leNat f a 128)) i = f (a + i) := by
  rw [vecByte_toVec (leNat_lt f a 128), byteOf_leNat f a hi]

theorem bytesOfNat_mod (v n : Nat) : bytesOfNat (v % 2 ^ (8 * n)) n = bytesOfNat v n := by
  refine List.map_congr_left fun i hi => BitVec.eq_of_toNat_eq ?_
  obtain ⟨d, rfl⟩ := Nat.exists_eq_add_of_lt (List.mem_range.1 hi)
  have split : 2 ^ (8 * (i + d + 1)) = 256 ^ i * 256 ^ (d + 1) := by
    rw [Nat.pow_mul, ← Nat.pow_add, Nat.add_assoc]
  have high : 2 ^ 8 ∣ 256 ^ (d + 1) := ⟨256 ^ d, Nat.pow_succ'⟩
  unfold Machine.byteOf
  rw [BitVec.toNat_ofNat, BitVec.toNat_ofNat, split, Nat.mod_mul_right_div_self, Nat.mod_mod_of_dvd _ high]

@[simp] theorem length_bytesOfNat (v n : Nat) : (bytesOfNat v n).length = n := by simp [bytesOfNat]

/-! ### Extension and results -/

/-- A signed number of some bytes is the signed value of its low bits. -/
theorem asInt_eq (n x : Nat) (pos : 0 < n) : asInt n x = (BitVec.ofNat (8 * n) x).toInt := by
  have half : 2 ^ (8 * n) = 2 * 2 ^ (8 * n - 1) := by
    rw [← Nat.pow_succ']
    congr 1
    omega
  have low : x % 2 ^ (8 * n) < 2 ^ (8 * n) := Nat.mod_lt _ (Nat.two_pow_pos _)
  rw [BitVec.toInt_eq_toNat_cond, BitVec.toNat_ofNat, asInt, decodeInt]
  by_cases neg : 2 ^ (8 * n - 1) ≤ x % 2 ^ (8 * n)
  · rw [if_pos ⟨rfl, neg⟩, if_neg (by omega)]
  · rw [if_neg fun h => neg h.2, if_pos (by omega)]

theorem extend_eq (width : n = 1 ∨ n = 2 ∨ n = 4 ∨ n = 8) (sx : Bool) (v : Nat) : Machine.extend sx n v = extended sx n v := by
  cases sx with
  | false => rfl
  | true =>
    have low : (BitVec.ofNat 64 v).toNat % 2 ^ (8 * n) = v % 2 ^ (8 * n) := by
      rw [BitVec.toNat_ofNat]
      refine Nat.mod_mod_of_dvd v (Nat.pow_dvd_pow 2 ?_)
      omega
    unfold Machine.extend extended asInt decodeInt signedLow
    rw [if_pos rfl, if_pos rfl, low]
    by_cases neg : 2 ^ (8 * n - 1) ≤ v % 2 ^ (8 * n)
    · rw [if_pos ⟨rfl, neg⟩, if_neg (by omega)]
    · rw [if_neg fun h => neg h.2, if_pos (by omega)]

/-- The result an operation leaves is that of R188 and R189, on the access's bytes. -/
theorem apply_mod (op : AtomOp) (n m : Nat) (b new : Word) (pos : 0 < n) :
    op.apply n m b.toNat new.toNat % 2 ^ (8 * n) = homeResult op n m b new := by
  have signed : ∀ x, asInt n (x % 2 ^ (8 * n)) = (BitVec.ofNat (8 * n) x).toInt := fun x => by
    rw [asInt_eq n _ pos]
    congr 1
    exact BitVec.eq_of_toNat_eq (by simp)
  have low : ∀ x, x % 2 ^ (8 * n) < 2 ^ (8 * n) := fun x => Nat.mod_lt _ (Nat.two_pow_pos _)
  unfold AtomOp.apply homeResult homeValue
  cases op
  case add => simp
  case and => simp [Nat.mod_eq_of_lt (Nat.lt_of_le_of_lt Nat.and_le_left (low m))]
  case or => rw [Nat.mod_eq_of_lt (Nat.or_lt_two_pow (low _) (low _))]; simp
  case xor => rw [Nat.mod_eq_of_lt (Nat.xor_lt_two_pow (low _) (low _))]; simp
  case min => dsimp only; rw [signed, signed]; split <;> simp
  case max => dsimp only; rw [signed, signed]; split <;> simp
  case minu => simp only [BitVec.toNat_ofNat]; split <;> simp
  case maxu => simp only [BitVec.toNat_ofNat]; split <;> simp
  case swap => simp
  case cas =>
    have eq : (BitVec.ofNat (8 * n) m = BitVec.ofNat (8 * n) b.toNat) = (m % 2 ^ (8 * n) = b.toNat % 2 ^ (8 * n)) := by
      apply propext
      rw [← BitVec.toNat_inj, BitVec.toNat_ofNat, BitVec.toNat_ofNat]
    simp only [eq]
    split <;> simp
  case fadd => simp

theorem bytes_apply (op : AtomOp) (m : Nat) (b new : Word) (pos : 0 < n) :
    bytesOfNat (op.apply n m b.toNat new.toNat) n = bytesOfNat (homeResult op n m b new) n := by
  rw [← bytesOfNat_mod, apply_mod op n m b new pos]

/-! ### Scalar loads -/

/-- A read of a view's bytes aside, a place in device memory is read as its cells. -/
theorem touchView_plain {a : Nat} (plain : s.inView (.phys a) = false) : s.touchView a = s := by
  unfold State.touchView
  unfold State.inView at plain
  dsimp only at plain
  cases space : s.space a with
  | dev o =>
    rw [space] at plain
    have none : s.viewAt o = none := Option.not_isSome_iff_eq_none.1 (by simpa using plain)
    simp only [State.viewLlc, none]
  | _ => rfl

theorem atHomes_meet (s : State) (o : Option CoreId) (l : Loc) (n : Nat) : AtHomes s (s.meet o l n) := by
  unfold State.meet
  split
  · exact .refl s
  · dsimp only
    split
    · exact .refl s
    · exact .frame rfl

/-- What a load changes besides its entry: caches, marks and counters, but no byte. -/
structure Loads (p : CoreId) (s u : State) : Prop where
  touched : Touched p s u
  bytes : SameBytes s u
  banks : (u.core p).banks = (s.core p).banks

theorem Loads.trans (a : Loads p s t) (b : Loads p t u) : Loads p s u :=
  ⟨a.touched.trans b.touched, a.bytes.trans b.bytes, b.banks.trans a.banks⟩

theorem AtHomes.loads (h : AtHomes s t) (bytes : SameBytes s t) : Loads p s t := ⟨h.touched p, bytes, h.banks p⟩

theorem loads_count (s : State) (p : CoreId) (code : Byte) (n : Nat) : Loads p s (s.count p code n) :=
  ⟨touched_count s p code n, sameBytes_count s p code n, by rw [count_core]⟩

theorem loads_modL1 {f : List L1Line → List L1Line} : Loads p s (s.modCore q fun c => { c with l1 := f c.l1 }) :=
  (atHomes_modCore fun _ => rfl).loads (sameBytes_modCore fun _ => rfl)

theorem core_meet (s : State) (o : Option CoreId) (l : Loc) (n : Nat) (q : CoreId) : (s.meet o l n).core q = s.core q := by
  unfold State.meet
  split
  · rfl
  · dsimp only
    split <;> rfl

theorem loads_meet (s : State) (o : Option CoreId) (l : Loc) (n : Nat) : Loads p s (s.meet o l n) :=
  (atHomes_meet s o l n).loads ⟨(looked_meet (p := p) s o l n).mem, fun q => by rw [core_meet]⟩

theorem PlainAt.inView (plain : PlainAt s l n) : s.inView l = false := by
  have first := plain.2.2 0 (by rcases plain.1 with h | h | h | h <;> omega)
  cases l <;> exact first

theorem loads_loadScalar (plain : PlainAt s l n) : Loads p s (s.loadScalar p l n).2 := by
  unfold State.loadScalar
  split
  · exact (AtHomes.refl s).loads (.refl s)
  · next a =>
    split
    · dsimp only
      split
      · exact loads_modL1.trans (loads_count ..)
      · rw [touchView_plain plain.inView]
        exact (loads_meet ..).trans (loads_modL1.trans (loads_count ..))
    · exact (atHomes_holdPool s (.phys a) n false).loads (sameBytes_holdPool s (.phys a) n false)

theorem mem_of_findLine {m : List L1Line} {line : Nat} {v : Vec} (h : findLine m line = some v) :
    ∃ x ∈ m, x.line = line ∧ x.data = v := by
  obtain ⟨x, found, rfl⟩ := Option.map_eq_some_iff.1 h
  exact ⟨x, List.mem_of_find?_eq_some found, by simpa using List.find?_some found, rfl⟩

/-- An aligned access lies in one line. -/
theorem leNat_line (f : Nat → Byte) {a : Nat} (width : n = 1 ∨ n = 2 ∨ n = 4 ∨ n = 8) (even : a / n * n = a) :
    leNat (vecByte (toVec (leNat f (a / 128 * 128) 128))) (a % 128) n = leNat f a n := by
  have fits : a % 128 + n ≤ 128 := by rcases width with rfl | rfl | rfl | rfl <;> omega
  refine leNat_congr fun j hj => ?_
  rw [vecByte_line f _ (by omega)]
  congr 1
  omega

theorem homeByte_meet (s : State) (o : Option CoreId) (l : Loc) (n : Nat) : (s.meet o l n).homeByte = s.homeByte := by
  unfold State.meet
  split
  · rfl
  · dsimp only
    split <;> rfl

theorem loadBytes_loadScalar (plain : PlainAt s l n) : loadBytes s p l n (s.loadScalar p l n).1 := by
  have here := plain.inView
  obtain ⟨width, aligned, -⟩ := plain
  cases l with
  | spad o => rfl
  | phys a =>
    have even : a / n * n = a := Loc.phys.inj aligned
    unfold loadBytes State.loadScalar
    dsimp only
    by_cases dev : s.isDev (.phys a) = true
    · rw [if_pos dev, if_pos dev]
      split
      · next v hit =>
        left
        split at hit
        · next w found =>
          split at hit
          · cases hit
          · cases hit
            obtain ⟨x, hx, line, data⟩ := mem_of_findLine found
            exact ⟨x, hx, line, by rw [data]⟩
        · cases hit
      · right
        dsimp only [State.readPhys]
        rw [touchView_plain here, homeByte_meet, leNat_line _ width even]
        rfl
    · rw [if_neg dev, if_neg dev]

/-! ### Items that perform -/

theorem requester_eq (k : Ctx) : requester k = seat k := by cases k <;> rfl

/-- A bank grants by its rotation (R98). -/
theorem granted_iff (s : State) (p : CoreId) (k : Ctx) (l : Loc) :
    s.granted p (requester k) l = true ↔ Granted s p (seat k) l := by
  rw [requester_eq]
  cases l with
  | phys a => simp [State.granted, Granted]
  | spad o =>
    unfold State.granted Granted bankOf
    dsimp only
    rw [List.all_eq_true]
    refine forall₂_congr fun x _ => ?_
    cases s.asks p (o / 128 % 16) x <;> simp

theorem loc_of_accessAt {i : Pend} {l : Loc} {x : Bool × Bool} (h : accessAt i = some (l, x)) : ∃ n, i.loc? = some (l, n) := by
  unfold accessAt at h
  unfold Pend.loc?
  cases kind : i.kind <;> simp [kind] at h ⊢
  all_goals exact h.1

theorem itemGranted_iff {i : Pend} {l : Loc} {n : Nat} (h : i.loc? = some (l, n)) :
    s.itemGranted p k i = true ↔ Granted s p (seat k) l := by
  unfold State.itemGranted
  rw [h]
  exact granted_iff s p k l

theorem sameBytes_dropPend (s : State) (p : CoreId) (k : Ctx) (id : Nat) : SameBytes s (s.dropPend p k id) := by
  refine ⟨rfl, fun q => ?_⟩
  by_cases e : q = p
  · rw [e, core_dropPend]; rfl
  · rw [core_dropPend_ne s k id e]

theorem banks_dropPend (s : State) (p : CoreId) (k : Ctx) (id : Nat) :
    ((s.dropPend p k id).core p).banks = (s.core p).banks := by rw [core_dropPend]; rfl

theorem l1_dropPend (s : State) (p q : CoreId) (k : Ctx) (id : Nat) : ((s.dropPend p k id).core q).l1 = (s.core q).l1 := by
  by_cases e : q = p
  · rw [e, core_dropPend]; rfl
  · rw [core_dropPend_ne s k id e]

theorem plainAt_dropPend (plain : PlainAt s l n) (id : Nat) : PlainAt (s.dropPend p k id) l n := plain

/-- A load finds the same bytes whatever its context still waits for. -/
theorem loadBytes_dropPend {v id : Nat} (h : loadBytes (s.dropPend p k id) p l n v) : loadBytes s p l n v := by
  have read : (s.dropPend p k id).readLoc p l n = s.readLoc p l n := by
    cases l with
    | spad o => simp only [State.readLoc, (sameBytes_dropPend s p k id).2 p]
    | phys a => rfl
  unfold loadBytes at h ⊢
  rw [read] at h
  simp only [l1_dropPend] at h
  exact h

/-- An item performs and fills its entry. -/
theorem performed_filled {i : Pend} {d : BitVec 5 × Bool} (dst : i.dst = some d) (touch : Touched p (s.dropPend p k i.id) u)
    (scratch : ∀ q, q ≠ p → (u.core q).scratch = (s.core q).scratch) (v : Word) :
    ∃ q, FillsTo (dstQueue (s.core p) k d) q i.id v ∧
      Performed s (acted u p k i.id i.dst v) p k i (setDst (s.core p) k d q) (u.core p).banks := by
  obtain ⟨q, fills, set⟩ := fill_eq_setDst (s.core p) k i.id d v
  refine ⟨q, fills, ?_⟩
  rw [← set, dst]
  exact performed touch scratch (some d) v

/-- An item that fills no entry. -/
theorem acted_none (u : State) (p : CoreId) (k : Ctx) (id : Nat) : acted u p k id none 0 = u.settle p := by
  have same : (u.modCore p fun c => c.fill k id none 0) = u := setCore_core u p
  rw [acted, same]

theorem pointers_congr (h : (t.core p).banks = (s.core p).banks) (r : Fin 8) (l : Loc) : pointers t p r l = pointers s p r l := by
  cases l <;> simp [pointers, h]

theorem Stored.scratch_ne {bs : List Byte} (h : Stored s t p l bs) : ∀ q, q ≠ p → (t.core q).scratch = (s.core q).scratch := by
  cases l with
  | spad o => exact h.2.1
  | phys a => exact fun q _ => h.1 q

theorem canonical_dropPend (h : Canonical s) (id : Nat) : Canonical (s.dropPend p k id) :=
  ⟨h.1, fun q => by rw [(sameBytes_dropPend s p k id).2 q]; exact h.2 q⟩

/-- What a write at its home, its bank's grant and the fences behind it leave of the bytes, `id` its item's number. -/
theorem stored_acted {bs : List Byte} {id : Nat} (h : Stored (s.dropPend p k id) t p l bs) (r : Fin 8)
    (dst : Option (BitVec 5 × Bool)) (v : Word) : Stored s (acted (t.grant p r l n) p k id dst v) p l bs := by
  refine (((sameBytes_dropPend s p k id).trans_stored (fun _ => rfl) h).trans_same (sameBytes_grant t p r l n)
    (key_of_touched (touched_grant t p r l n))).trans_same (sameBytes_acted ..) (key_acted _ _ _ _ _ _)

/-! ### Entries filled -/

theorem exec_qregFill_item {i : Pend} {m : Nat} (item : (s.ctx p k).pend[m]? = some i) :
    exec (.qregFill p k m) s =
      .next (if s.stalled p || i.dst.isNone || s.itemHeld i || !mayPerform (s.ctx p k).pend i || !s.itemGranted p k i then s
        else match s.performItem p k i with
          | some t => t.settle p
          | none => s) := by
  have run : exec (.qregFill p k m) s = execQregFill p k m s := rfl
  rw [run, execQregFill]
  simp only [item] <;> rfl

/-- An item that nothing holds back performs. -/
theorem exec_qregFill_performs {i : Pend} {m : Nat} (item : (s.ctx p k).pend[m]? = some i) {d : BitVec 5 × Bool}
    (dst : i.dst = some d) (running : s.stalled p = false) (free : s.itemHeld i = false)
    (may : mayPerform (s.ctx p k).pend i = true) (granted : s.itemGranted p k i = true)
    (performs : s.performItem p k i = some t) : exec (.qregFill p k m) s = .next (t.settle p) := by
  rw [exec_qregFill_item item, if_neg, performs]
  simp [dst, running, free, may, granted]

theorem entriesFilled : EntriesFilled := by
  intro p k m s i d item dst
  have run := exec_qregFill_item item
  refine ⟨fun stays => ?_, fun behind => ?_, fun l x access refused => ?_, fun running free may => ⟨?_, ?_, ?_⟩⟩
  · rw [run, if_pos]
    rcases stays with h | h <;> simp [h]
  · rw [run, if_pos (by simp [behind])]
  · obtain ⟨w, loc⟩ := loc_of_accessAt access
    have not_ : s.itemGranted p k i = false := by
      rw [← Bool.not_eq_true, itemGranted_iff loc]
      exact refused
    rw [run, if_pos (by simp [not_])]
  · intro v kind
    have granted : s.itemGranted p k i = true := by simp [State.itemGranted, Pend.loc?, kind]
    obtain ⟨q, fills, done⟩ := performed_filled (k := k) dst (Touched.refl p (s.dropPend p k i.id))
      (fun q hq => (sameBytes_dropPend s p k i.id).2 q) v
    rw [banks_dropPend] at done
    refine ⟨_, q, exec_qregFill_performs item dst running free may granted (by rw [State.performItem, kind]), fills, done, ?_⟩
    exact (sameBytes_dropPend s p k i.id).trans (sameBytes_acted ..)
  · intro va l w sx kind home plain grant
    have granted : s.itemGranted p k i = true := (itemGranted_iff (n := w) (by simp [Pend.loc?, kind])).2 grant
    have loads : Loads p (s.dropPend p k i.id) ((s.dropPend p k i.id).loadScalar p l w).2 :=
      loads_loadScalar (plainAt_dropPend plain i.id)
    have value := loadBytes_dropPend (loadBytes_loadScalar (p := p) (plainAt_dropPend (p := p) (k := k) plain i.id))
    have performs : s.performItem p k i = some
        ((((s.dropPend p k i.id).loadScalar p l w).2.grant p (requester k) l w).modCore p fun c =>
          c.fill k i.id i.dst (Machine.extend sx w ((s.dropPend p k i.id).loadScalar p l w).1)) := by
      simp only [State.performItem, kind, home.1, home.2, Bool.false_eq_true, if_false]
    rw [extend_eq plain.1] at performs
    obtain ⟨q, fills, done⟩ := performed_filled (k := k) dst
      (loads.touched.trans (touched_grant _ p (requester k) l w))
      (fun q _ => ((sameBytes_dropPend s p k i.id).trans (loads.bytes.trans (sameBytes_grant ..))).2 q)
      (extended sx w ((s.dropPend p k i.id).loadScalar p l w).1)
    rw [banks_grant plain.1 plain.2.1, requester_eq, pointers_congr (loads.banks.trans (banks_dropPend s p k i.id))] at done
    rw [requester_eq] at performs
    refine ⟨_, q, _, exec_qregFill_performs item dst running free may granted performs, value, fills, done, ?_⟩
    exact (sameBytes_dropPend s p k i.id).trans (loads.bytes.trans ((sameBytes_grant ..).trans (sameBytes_acted ..)))
  · intro l w op b new kind home plain grant wide canonical
    have granted : s.itemGranted p k i = true := (itemGranted_iff (n := w) (by simp [Pend.loc?, kind])).2 grant
    have performs : s.performItem p k i = some
        ((((s.dropPend p k i.id).writeHome p l (bytesOfNat (op.apply w (s.readLoc p l w) b.toNat new.toNat) w)).grant p
          (requester k) l w).modCore p fun c => c.fill k i.id i.dst (Machine.extend true w (s.readLoc p l w))) := by
      simp only [State.performItem, kind, home.1, Bool.false_eq_true, if_false]
    rw [extend_eq plain.1, bytes_apply op _ b new (by omega), requester_eq] at performs
    have stored := stored_writeHome (p := p) (bs := bytesOfNat (homeResult op w (s.readLoc p l w) b new) w)
      (canonical_dropPend (p := p) (k := k) canonical i.id) plain (length_bytesOfNat ..)
    have homes := atHomes_writeHome (s.dropPend p k i.id) p l (bytesOfNat (homeResult op w (s.readLoc p l w) b new) w)
    obtain ⟨q, fills, done⟩ := performed_filled (k := k) dst ((homes.touched p).trans (touched_grant _ p (seat k) l w))
      (fun q hq => ((sameBytes_grant ..).2 q).trans ((stored.scratch_ne q hq).trans ((sameBytes_dropPend s p k i.id).2 q)))
      (extended true w (s.readLoc p l w))
    rw [banks_grant plain.1 plain.2.1, pointers_congr ((homes.banks p).trans (banks_dropPend s p k i.id))] at done
    exact ⟨_, q, exec_qregFill_performs item dst running free may granted performs, fills, done, stored_acted stored ..⟩

/-! ### Stores -/

theorem exec_store_item {i : Pend} {m : Nat} (item : (s.ctx p k).pend[m]? = some i) {va : Word} {v : Word}
    (kind : i.kind = .store va l n v) : exec (.homeAcknowledgement p k m) s =
      .next (if s.itemHeld i || !mayPerform (s.ctx p k).pend i || !s.itemGranted p k i then s
        else match s.performItem p k i with
          | some t => t.settle p
          | none =>
            match s.ctlOff l with
            | some o => if s.ctlHeld o n then s else ((s.dropPend p k i.id).ctlWrite o n v.toNat).settle p
            | none => s) := by
  have run : exec (.homeAcknowledgement p k m) s = execHomeAcknowledgement p k m s := rfl
  rw [run, execHomeAcknowledgement]
  simp only [item, kind] <;> rfl

theorem storesPerform : StoresPerform := by
  intro p k m s i va l w v item kind
  have run := exec_store_item item kind
  have granted : s.itemGranted p k i = true ↔ Granted s p (seat k) l := itemGranted_iff (n := w) (by simp [Pend.loc?, kind])
  refine ⟨fun waits => ?_, fun may free grant home plain canonical => ?_⟩
  · rw [run, if_pos]
    rcases waits with h | h | h
    · simp [h]
    · simp [h]
    · rw [← granted, Bool.not_eq_true] at h
      simp [h]
  · have performs : s.performItem p k i =
        some (((s.dropPend p k i.id).storeScalar p l (bytesOfNat v.toNat w)).grant p (seat k) l w) := by
      simp only [State.performItem, kind, home.1, home.2, Bool.false_eq_true, if_false, requester_eq]
    have stored := stored_storeScalar (p := p) (bs := bytesOfNat v.toNat w)
      (canonical_dropPend (p := p) (k := k) canonical i.id) plain (length_bytesOfNat ..)
    have homes := atHomes_storeScalar (s.dropPend p k i.id) p l (bytesOfNat v.toNat w)
    have done := performed (i := i) ((homes.touched p).trans (touched_grant _ p (seat k) l w))
      (fun q hq => ((sameBytes_grant ..).2 q).trans ((stored.scratch_ne q hq).trans ((sameBytes_dropPend s p k i.id).2 q)))
      none 0
    rw [banks_grant plain.1 plain.2.1, pointers_congr ((homes.banks p).trans (banks_dropPend s p k i.id))] at done
    have bytes := stored_acted (n := w) stored (seat k) none 0
    rw [acted_none] at done bytes
    refine ⟨_, ?_, done, bytes⟩
    rw [run, if_neg (by simp [may, free, granted.2 grant]), performs]

/-! ### The combining buffer -/

/-- An entry of the combining buffer taken out of it. -/
def combTaken (s : State) (p : CoreId) (m : Nat) : State := s.modCore p fun c => { c with comb := c.comb.eraseIdx m }

theorem core_combTaken (s : State) (p : CoreId) (m : Nat) :
    (combTaken s p m).core p = { s.core p with comb := (s.core p).comb.eraseIdx m } := core_modCore ..

theorem sameBytes_combTaken (s : State) (p : CoreId) (m : Nat) : SameBytes s (combTaken s p m) :=
  sameBytes_modCore fun _ => rfl

/-- Taking an entry out of the buffer changes no byte that a read finds. -/
theorem readLoc_combTaken (s : State) (p : CoreId) (m : Nat) (l : Loc) (n : Nat) :
    (combTaken s p m).readLoc p l n = s.readLoc p l n := by
  cases l with
  | spad o => rw [State.readLoc, (sameBytes_combTaken s p m).2 p]; rfl
  | phys a => rfl

theorem combiningFlushes : CombiningFlushes := by
  intro p m s e entry
  have run : exec (.combiningFlush p m) s =
      .next (if (e.flush || decide (e.taken + 1024 ≤ s.cycle)) && s.combMay p e then
        ((combTaken s p m).applyComb p e).settle p
      else s) := by
    have run : exec (.combiningFlush p m) s = execCombiningFlush p m s := rfl
    rw [run, execCombiningFlush]
    simp only [entry]
    rfl
  refine ⟨fun stays => ?_, fun due here free plain wide canonical => ?_⟩
  · rw [run, if_neg]
    rcases stays with ⟨kept, young⟩ | held
    · have : ¬ e.taken + 1024 ≤ s.cycle := by omega
      simp [kept, this]
    · simp [State.combMay, held]
  · have reached : s.combGone e = false := here
    have applied : (combTaken s p m).applyComb p e = (combTaken s p m).writeHome p e.loc
        (bytesOfNat (homeResult e.op e.n (s.readLoc p e.loc e.n) e.v 0) e.n) := by
      rw [State.applyComb, if_neg (by rw [show (combTaken s p m).combGone e = false from reached]; simp),
        readLoc_combTaken, ← bytes_apply e.op _ e.v 0 (by omega)]
      rfl
    have may : s.combMay p e = true := by simp [State.combMay, free, reached]
    have ready : (e.flush || decide (e.taken + 1024 ≤ s.cycle)) = true := by
      rcases due with flushed | old
      · simp [flushed]
      · simp [old]
    rw [ready, may, applied, Bool.and_self, if_pos rfl] at run
    have same := sameBytes_combTaken s p m
    have written := stored_writeHome (s := combTaken s p m) (p := p)
      (bs := bytesOfNat (homeResult e.op e.n (s.readLoc p e.loc e.n) e.v 0) e.n)
      ⟨by rw [same.1]; exact canonical.1, fun q => by rw [same.2 q]; exact canonical.2 q⟩ plain (length_bytesOfNat ..)
    have homes := atHomes_writeHome (combTaken s p m) p e.loc
      (bytesOfNat (homeResult e.op e.n (s.readLoc p e.loc e.n) e.v 0) e.n)
    generalize (combTaken s p m).writeHome p e.loc
      (bytesOfNat (homeResult e.op e.n (s.readLoc p e.loc e.n) e.v 0) e.n) = u at run written homes
    have settled := settling_settle u p
    have core : u.core p = { s.core p with
        comb := (s.core p).comb.eraseIdx m, l1 := (u.core p).l1, scratch := (u.core p).scratch } := by
      rw [homes.cores, core_combTaken]
    refine ⟨_, run, ?_, ?_, ?_, fun q hq => ?_, ?_, fun j => ?_⟩
    · rw [settled.core, core]
    · exact (same.trans_stored (fun _ => rfl) written).trans_same settled.sameBytes (key_of_settling settled)
    · have taken : combTaken s p m = { s with cores := (combTaken s p m).cores } := rfl
      rw [settled.module, homes.module, taken]
    · have other : (combTaken s p m).core q = s.core q := core_modCore_ne _ _ _ _ (Ne.symm hq)
      rw [settled.others q hq, homes.cores q, written.scratch_ne q hq, other]
    · rw [settled.core, core]
    · have ctx : u.ctx p j = s.ctx p j := by rw [State.ctx, core]; rfl
      exact (settled.contexts j).trans (by rw [ctx])

end Sys2Proof.Claims
end

section
namespace Sys2Proof.Proofs

open Sys2Proof.Machine Sys2Proof.Claims

/-- Settles O14: an item leaves its context's accesses, acts at its home, fills its entry, and lets fences take effect; each
of the four changes a part of the state of its own. -/
theorem accessesPerform : Obligations.AccessesPerform := ⟨entriesFilled, storesPerform, combiningFlushes⟩

end Sys2Proof.Proofs
end

section
/-! PROOFS. Invalidation: which TLB entries a TRINV removes, when it ends, what an ICINV drops, and the fusion of a bay's L1s
(R106, R107, R109, R110, R241, R354). -/

namespace Sys2Proof.Claims

set_option Elab.async false

open Sys2Proof.Machine

variable {s t u : State} {p q : CoreId} {v : Word}

/-! ### Tables changed alike, and their entries -/

theorem core_mapCores (s : State) (f : Core → Core) (p : CoreId) : (s.mapCores f).core p = f (s.core p) :=
  vget_vmap f s.cores p.val p.isLt

theorem bent_mapBents (s : State) (f : Bent → Bent) (b : BentId) : (s.mapBents f).bent b = f (s.bent b) :=
  vget_vmap f s.bents b.val b.isLt

theorem mem_vlist {α : Type} [Inhabited α] {n : Nat} {v : Vector α n} {x : α} : x ∈ vlist v ↔ ∃ i : Fin n, vget v i.val = x := by
  rw [vlist, Array.mem_toList_iff, Vector.mem_toArray_iff, Vector.mem_iff_getElem]
  constructor
  · rintro ⟨i, h, rfl⟩
    exact ⟨⟨i, h⟩, by simp [vget, Vector.getD, h]⟩
  · rintro ⟨i, rfl⟩
    exact ⟨i.val, i.isLt, by simp [vget, Vector.getD]⟩

theorem mem_contexts {c : Core} {x : Context} : x ∈ vlist c.ctx ↔ ∃ k, c.getCtx k = x := by
  rw [mem_vlist]
  constructor
  · rintro ⟨i, rfl⟩
    match i with
    | 0 => exact ⟨.ld, rfl⟩
    | 1 => exact ⟨.cp, rfl⟩
    | 2 => exact ⟨.st, rfl⟩
  · rintro ⟨k, rfl⟩
    exact ⟨k.idx, rfl⟩

/-! ### Pages that overlap -/

/-- Two blocks of sizes 2^k and 2^K meet just where the larger holds the smaller. -/
theorem blocks_meet (a b : Nat) {k K : Nat} (le : k ≤ K) :
    (b / 2 ^ k * 2 ^ k < a / 2 ^ K * 2 ^ K + 2 ^ K ∧ a / 2 ^ K * 2 ^ K < b / 2 ^ k * 2 ^ k + 2 ^ k) ↔
      a / 2 ^ K = b / 2 ^ k / 2 ^ (K - k) := by
  obtain ⟨d, rfl⟩ := Nat.exists_eq_add_of_le le
  have unit : 0 < 2 ^ k := by positivity
  have grow : 0 < 2 ^ d := by positivity
  have left : b / 2 ^ k * 2 ^ k < a / 2 ^ (k + d) * 2 ^ (k + d) + 2 ^ (k + d) ↔
      b / 2 ^ k < (a / 2 ^ (k + d) + 1) * 2 ^ d := by
    rw [show a / 2 ^ (k + d) * 2 ^ (k + d) + 2 ^ (k + d) = (a / 2 ^ (k + d) + 1) * 2 ^ d * 2 ^ k by rw [pow_add]; ring]
    exact Nat.mul_lt_mul_right unit
  have right : a / 2 ^ (k + d) * 2 ^ (k + d) < b / 2 ^ k * 2 ^ k + 2 ^ k ↔ a / 2 ^ (k + d) * 2 ^ d < b / 2 ^ k + 1 := by
    rw [show b / 2 ^ k * 2 ^ k + 2 ^ k = (b / 2 ^ k + 1) * 2 ^ k by ring,
      show a / 2 ^ (k + d) * 2 ^ (k + d) = a / 2 ^ (k + d) * 2 ^ d * 2 ^ k by rw [pow_add]; ring]
    exact Nat.mul_lt_mul_right unit
  rw [left, right, Nat.add_sub_cancel_left, eq_comm, Nat.div_eq_iff grow, Nat.add_mul]
  omega

theorem pageLog_ge (n : Nat) : 12 ≤ pageLog n := by
  unfold pageLog
  split <;> omega

/-- The twelve bits below a page's number do not count in a larger page. -/
theorem page_div (a : Nat) {K : Nat} (le : 12 ≤ K) : a / 4096 * 4096 / 2 ^ K = a / 2 ^ K := by
  obtain ⟨d, rfl⟩ := Nat.exists_eq_add_of_le le
  rw [pow_add, ← Nat.div_div_eq_div_mul, ← Nat.div_div_eq_div_mul]
  congr 1
  omega

theorem trHits_iff_names (v : Word) (x : TlbEntry) :
    trHits v (x.va.toNat / 2 ^ pageLog x.size * 2 ^ pageLog x.size) (2 ^ pageLog x.size) = true ↔ Names v x := by
  have size : (v.extractLsb' 0 4).toNat = v.toNat % 16 := by simp
  have page : (trPage v).1 = v.toNat % 2 ^ 52 / 2 ^ pageLog (v.toNat % 16) * 2 ^ pageLog (v.toNat % 16) := by
    rw [trPage, size]
    exact congrArg (· * _) (page_div _ (pageLog_ge _))
  have length : (trPage v).2 = 2 ^ pageLog (v.toNat % 16) := by rw [trPage, size]
  rw [trHits, Bool.or_eq_true, decide_eq_true_eq, page, length, Names, trAll]
  refine or_congr_right ?_
  rcases le_total (pageLog x.size) (pageLog (v.toNat % 16)) with le | le
  · rw [blocks_meet _ _ le, and_iff_left le]
    constructor
    · exact .inl
    · rintro (h | ⟨h, le'⟩)
      · exact h
      · rw [Nat.le_antisymm le' le] at h ⊢
        simpa using h.symm
  · rw [and_comm, blocks_meet _ _ le, and_iff_left le]
    constructor
    · exact .inr
    · rintro (⟨h, le'⟩ | h)
      · rw [Nat.le_antisymm le' le] at h ⊢
        simpa using h.symm
      · exact h

theorem mem_trCut {v : Word} {l : List TlbEntry} {x : TlbEntry} : x ∈ Machine.trCut v l ↔ x ∈ l ∧ ¬ Names v x := by
  rw [Machine.trCut, List.mem_filter, ← trHits_iff_names, Bool.not_eq_true', Bool.not_eq_true]

theorem invalidated_trCut (s : State) (v : Word) : Invalidated s (s.trCut v) v where
  module := rfl
  cores p := by
    have cut : (s.trCut v).core p = { s.core p with tlb := Machine.trCut v (s.core p).tlb } := core_mapCores s _ p
    rw [cut]
    exact ⟨rfl, fun x => mem_trCut⟩
  bents b := by
    have cut : (s.trCut v).bent b = { s.bent b with tlb := Machine.trCut v (s.bent b).tlb } := bent_mapBents _ _ b
    rw [cut]
    exact ⟨rfl, fun x => mem_trCut⟩

/-! ### The queue of invalidations -/

theorem trinvWrite_first (h : s.trans.inv = []) : s.trinvWrite v = withInv (s.trCut v) [v] := by
  have none : (s.trCut v).trans.inv = [] := h
  rw [State.trinvWrite, h]
  dsimp only [List.isEmpty_nil, if_true]
  rw [if_pos rfl, none]
  rfl

theorem trinvWrite_queued (h : s.trans.inv ≠ []) : s.trinvWrite v = withInv s (s.trans.inv ++ [v]) := by
  rw [State.trinvWrite, if_neg (by simpa using h)]
  rfl

theorem put_all (old v bits : Word) : put old v (BitVec.allOnes 64) bits = tookBits old v bits := by
  rw [put, tookBits, BitVec.allOnes_and, BitVec.and_allOnes]

/-- The root register after a write of TRROOT. -/
def withRoot (s : State) (v : Word) : State :=
  { s with trans := { s.trans with root := tookBits s.trans.root v 0x00FFFFFFFFFF0001 } }

theorem exec_trroot (s : State) (v : Word) : exec (.trroot v) s = .next ((withRoot s v).trinvWrite 0x10) := by
  show Host.Outcome.next (s.trrootWrite v (BitVec.allOnes 64)) = _
  rw [State.trrootWrite, put_all]
  rfl

/-- A core with nothing under way has used no entry. -/
theorem IdleCore.usesPage {c : Core} (idle : IdleCore c) (v : Word) : c.usesPage v = false := by
  obtain ⟨pend, comb, flights, chunks, oq⟩ := idle
  have contexts : (vlist c.ctx).any (fun x => x.pend.any (Pend.uses v)) = false := List.any_eq_false.2 fun x hx => by
    obtain ⟨k, rfl⟩ := mem_contexts.1 hx
    simp [pend k]
  have queues : (vlist c.ve.oq).any (fun q => q.any fun e => e.val.isNone && trHits v e.va.toNat 128) = false :=
    List.any_eq_false.2 fun l hl => by
      obtain ⟨i, rfl⟩ := mem_vlist.1 hl
      rw [Bool.not_eq_true, List.any_eq_false]
      intro e he
      have held := oq i e he
      cases hv : e.val with
      | none => exact absurd hv held
      | some x => simp
  rw [Core.usesPage, contexts, queues, comb, flights, chunks]
  rfl

theorem AllIdle.busy (idle : AllIdle s) (v : Word) :
    (s.anyOrphan || s.savedUses v || (vlist s.cores).any fun c => c.usesPage v) = false := by
  obtain ⟨cores, saved, controllers⟩ := idle
  have orphans : s.anyOrphan = false := List.any_eq_false.2 fun b hb => by
    obtain ⟨i, rfl⟩ := mem_vlist.1 hb
    rw [Bool.not_eq_true, List.any_eq_false]
    intro c hc
    obtain ⟨j, rfl⟩ := mem_vlist.1 hc
    rw [Bool.not_eq_true, List.any_eq_false]
    intro f hf
    simpa using controllers i j f hf
  have snapshots : s.savedUses v = false := List.any_eq_false.2 fun e he => by
    rw [Bool.not_eq_true, List.any_eq_false]
    intro x hx
    simpa using (saved e he x hx).usesPage v
  have running : ((vlist s.cores).any fun c => c.usesPage v) = false := List.any_eq_false.2 fun c hc => by
    obtain ⟨i, rfl⟩ := mem_vlist.1 hc
    exact Bool.not_eq_true _ ▸ (cores i).usesPage v
  rw [orphans, snapshots, running]
  rfl

theorem exec_trinvComplete_idle {rest : List Word} (idle : AllIdle s) (inv : s.trans.inv = v :: rest) :
    exec .trinvComplete s = .next (match (generalizing := false) rest with
      | w :: _ => (withInv s rest).trCut w
      | [] => withInv s rest) := by
  show execTrinvComplete s = _
  simp only [execTrinvComplete, inv, idle.busy v, Bool.false_eq_true, if_false]
  cases rest <;> rfl

theorem exec_trinvComplete_busy {rest : List Word} (inv : s.trans.inv = v :: rest)
    (busy : s.savedUses v = true ∨ ∃ p, (s.core p).usesPage v = true) : exec .trinvComplete s = .next s := by
  show execTrinvComplete s = _
  simp only [execTrinvComplete, inv]
  rw [if_pos]
  rcases busy with saved | ⟨p, h⟩
  · rw [saved]; simp
  · have running : ((vlist s.cores).any fun c => c.usesPage v) = true :=
      List.any_eq_true.2 ⟨s.core p, mem_vlist.2 ⟨p, rfl⟩, h⟩
    rw [running]; simp

theorem trHits_all (all : v.getLsbD 4 = true) (a n : Nat) : trHits v a n = true := by simp [trHits, trAll, all]

/-- A load of any address may have used an entry that an invalidation of every page removes. -/
theorem usesPage_of_load {k : Ctx} {i : Pend} {va : Word} {l : Loc} {n : Nat} {x : Bool} {c : Core}
    (item : i ∈ (c.getCtx k).pend) (load : i.kind = .load va l n x) (all : v.getLsbD 4 = true) : c.usesPage v = true := by
  have uses : Pend.uses v i = true := by
    rw [Pend.uses, load]
    exact trHits_all all _ _
  have contexts : (vlist c.ctx).any (fun x => x.pend.any (Pend.uses v)) = true :=
    List.any_eq_true.2 ⟨_, mem_contexts.2 ⟨k, rfl⟩, List.any_eq_true.2 ⟨i, item, uses⟩⟩
  rw [Core.usesPage, contexts]
  simp

/-- So may the address a saved command is to increment. -/
theorem usesPage_of_flight {c : Core} {f : Flight} {h : Hdr} {o : FQryOps} (mem : f ∈ c.flights)
    (unfinished : f.finished = false) (query : decodeCmd f.words = some (.fqry h o)) (counter : o.ctr ≠ 0)
    (all : v.getLsbD 4 = true) : c.usesPage v = true := by
  have held : heldVas f = [o.ctr] := by rw [heldVas, query]
  have flights : c.flights.any (fun f =>
      ((f.ctr.isSome || !f.finished) && (heldVas f).any fun a => a != 0 && trHits v a.toNat 8) ||
      (!f.finished && (f.atController || f.fwd.isSome) && (furSpans f).any fun x => trHits v x.1.toNat x.2)) = true :=
    List.any_eq_true.2 ⟨f, mem, by simp [unfinished, held, show o.ctr ≠ 0#64 from counter, trHits_all all]⟩
  rw [Core.usesPage, flights]
  simp

/-! ### Instruction caches and table stores -/

/-- What an invalidation leaves of an instruction cache (R354). -/
def icLeft (v : Word) (l : List L1Line) : List L1Line :=
  if v.getLsbD 0 then [] else dropLine (v.toNat % 2 ^ 56 / 128 * 128) l

theorem icLeft_eq (v : Word) (l : List L1Line) : icLeft v l = l.filter fun x => !named v x := by
  unfold icLeft named
  split
  · next all => rw [all]; simp
  · next line => rw [Bool.not_eq_true] at line; simp only [dropLine, line, bne, Bool.false_or]

/-- The instruction caches of the module after an invalidation. -/
def icDropped (s : State) (v : Word) : State :=
  (s.mapBents fun b => { b with icache := icLeft v b.icache }).mapCores fun c => { c with icache := icLeft v c.icache }

theorem core_icDropped (s : State) (v : Word) (p : CoreId) :
    (icDropped s v).core p = { s.core p with icache := icLeft v (s.core p).icache } := core_mapCores _ _ p

theorem bent_icDropped (s : State) (v : Word) (b : BentId) :
    (icDropped s v).bent b = { s.bent b with icache := icLeft v (s.bent b).icache } := bent_mapBents s _ b

/-- The table-store tags of some cores cleared. -/
def tagsCleared (s : State) (l : List CoreId) : State := l.foldl (fun t p => t.modVe p Ve.clearTag) s

theorem icCut_eq (s : State) (v : Word) : s.icCut v =
    if v.getLsbD 1 then tagsCleared (icDropped s v) (allCores.filter fun p => s.tagHits p v) else icDropped s v := rfl

theorem clearTag_clearTag (x : Ve) : x.clearTag.clearTag = x.clearTag := by
  cases run : x.run with
  | none => simp [Ve.clearTag, run]
  | some r => simp [Ve.clearTag, run]

theorem core_tagsCleared (s : State) (l : List CoreId) (p : CoreId) :
    (tagsCleared s l).core p = if p ∈ l then { s.core p with ve := (s.core p).ve.clearTag } else s.core p := by
  induction l generalizing s with
  | nil => rfl
  | cons q l ih =>
    rw [tagsCleared, List.foldl_cons, ← tagsCleared, ih, State.modVe]
    by_cases e : q = p
    · subst e; simp [clearTag_clearTag]
    · simp [e, Ne.symm e]

theorem tagsCleared_eq (s : State) (l : List CoreId) : tagsCleared s l = { s with cores := (tagsCleared s l).cores } := by
  induction l generalizing s with
  | nil => rfl
  | cons p l ih => exact ih (s.modVe p Ve.clearTag)

/-- A core after an invalidation: its instruction cache, and its tag where the invalidation clears it. -/
theorem core_icCut (s : State) (v : Word) (p : CoreId) :
    (s.icCut v).core p = { s.core p with
      icache := icLeft v (s.core p).icache
      ve := if v.getLsbD 1 && s.tagHits p v then (s.ve p).clearTag else s.ve p } := by
  rw [icCut_eq]
  cases v.getLsbD 1
  · exact core_icDropped s v p
  · rw [if_pos rfl, core_tagsCleared, core_icDropped, Bool.true_and]
    simp only [List.mem_filter, mem_allCores, true_and]
    split <;> rfl

theorem icCut_module (s : State) (v : Word) : s.icCut v = { icDropped s v with cores := (s.icCut v).cores } := by
  rw [icCut_eq]
  split
  · exact tagsCleared_eq _ _
  · rfl

theorem tagHits_all (all : v.getLsbD 0 = true) (tag : (s.ve p).tag ≠ none) : s.tagHits p v = true := by
  obtain ⟨x, hx⟩ := Option.ne_none_iff_exists'.1 tag
  rw [State.tagHits, hx]
  dsimp only
  rw [all, Bool.true_or]

theorem clearTag_idle {x : Ve} (run : x.run = none) : x.clearTag = { x with tag := none } := by simp [Ve.clearTag, run]

theorem clearTag_running {x : Ve} (run : x.run ≠ none) : x.clearTag = { x with invPend := true } := by
  rw [Ve.clearTag, if_pos (Option.isSome_iff_ne_none.2 run)]

theorem exec_icbusyClear {rest : List Word} (inv : s.trace.icinv = v :: rest) :
    exec .icbusyClear s = .next ((s.icCut v).modTrace fun t => { t with icinv := rest }) := by
  show execIcbusyClear s = _
  simp only [execIcbusyClear, inv]

theorem icbusyClear_drops {rest : List Word} (inv : s.trace.icinv = v :: rest) :
    ∃ t, exec .icbusyClear s = .next t ∧ t.trace.icinv = rest ∧ SameBytes s t ∧
      (∀ p, (t.core p).icache = (s.core p).icache.filter fun x => !named v x) ∧
      (∀ b, (t.bent b).icache = (s.bent b).icache.filter fun x => !named v x) ∧
      (v.getLsbD 1 = false → ∀ p, t.ve p = s.ve p) ∧
      (v.getLsbD 1 = true → v.getLsbD 0 = true → ∀ p, (s.ve p).tag ≠ none →
        ((s.ve p).run = none → (t.ve p).tag = none) ∧ ((s.ve p).run ≠ none → (t.ve p).invPend = true)) := by
  refine ⟨_, exec_icbusyClear inv, rfl, ?_⟩
  have core : ∀ p, ((s.icCut v).modTrace fun t => { t with icinv := rest }).core p = { s.core p with
      icache := icLeft v (s.core p).icache
      ve := if v.getLsbD 1 && s.tagHits p v then (s.ve p).clearTag else s.ve p } := core_icCut s v
  have bent : ∀ b, ((s.icCut v).modTrace fun t => { t with icinv := rest }).bent b =
      { s.bent b with icache := icLeft v (s.bent b).icache } := fun b => by
    rw [← bent_icDropped, modTrace_bent, icCut_module]
    rfl
  have ve : ∀ p, ((s.icCut v).modTrace fun t => { t with icinv := rest }).ve p =
      if v.getLsbD 1 && s.tagHits p v then (s.ve p).clearTag else s.ve p := fun p => by rw [State.ve, core]
  refine ⟨⟨?_, fun p => by rw [core]⟩, fun p => ?_, fun b => ?_, fun tags p => ?_, fun tags all p tag => ?_⟩
  · rw [modTrace_mem, icCut_module]
    rfl
  · rw [core, ← icLeft_eq]
  · rw [bent, ← icLeft_eq]
  · rw [ve, tags]
    rfl
  · rw [ve, tags, tagHits_all all tag, Bool.true_and, if_pos rfl]
    exact ⟨fun run => by rw [clearTag_idle run], fun run => by rw [clearTag_running run]⟩

/-- A write of VTCTL.INV. -/
theorem exec_vtctlInv (p : CoreId) (set : v.getLsbD 0 = true) :
    exec (.vtctlInv p v) s = .next (onVe s p fun _ => (s.ve p).clearTag) := by
  show Host.Outcome.next (s.vtctlWrite p v) = _
  rw [State.vtctlWrite, if_pos set]
  rfl

theorem vtctl_clears (p : CoreId) (v : Word) : (v.getLsbD 0 = false → exec (.vtctlInv p v) s = .next s) ∧
    (v.getLsbD 0 = true → (s.ve p).run = none → exec (.vtctlInv p v) s = .next (onVe s p fun u => { u with tag := none })) ∧
    (v.getLsbD 0 = true → (s.ve p).run ≠ none →
      exec (.vtctlInv p v) s = .next (onVe s p fun u => { u with invPend := true })) := by
  refine ⟨fun clear => ?_, fun set run => ?_, fun set run => ?_⟩
  · show Host.Outcome.next (s.vtctlWrite p v) = _
    rw [State.vtctlWrite, if_neg (by rw [clear]; exact Bool.false_ne_true)]
  · rw [exec_vtctlInv p set, clearTag_idle run]
    rfl
  · rw [exec_vtctlInv p set, clearTag_running run]
    rfl

/-! ### L1 fusion -/

theorem mem_bay {y : Fin 64} : p ∈ bayCores y ↔ p.val / 4 = y.val := by rw [mem_bayCores, Fin.ext_iff]; rfl

theorem l1Busy_iff (s : State) (y : Fin 64) : s.l1Busy y = true ↔ L1Used s y := by
  simp only [State.l1Busy, List.any_eq_true, mem_bay, mem_contexts, L1Used, State.ctx]
  constructor
  · rintro ⟨q, bay, x, ⟨k, rfl⟩, i, item, dev⟩
    split at dev
    · next l n loc => exact ⟨q, k, i, l, n, bay, item, loc, dev⟩
    · exact absurd dev Bool.false_ne_true
  · rintro ⟨q, k, i, l, n, bay, item, loc, dev⟩
    exact ⟨q, bay, _, ⟨k, rfl⟩, i, item, by rw [loc]; exact dev⟩

theorem mayFuse_iff (s : State) (y : Fin 64) : s.mayFuse y = true ↔
    (∃ g, ∀ q, q.val / 4 = y.val → (s.core q).place.map (·.gang) = some g) ∧
      ∀ q, q.val / 4 = y.val → (s.core q).fuse = true ∧ (s.core q).saving = false := by
  have first : (coreOfBay y 0).val / 4 = y.val := mem_bay.1 (List.mem_cons_self ..)
  simp only [State.mayFuse, Bool.and_eq_true, List.all_eq_true, mem_bay, beq_iff_eq, Bool.not_eq_true', State.gangNo]
  constructor
  · rintro ⟨some, all⟩
    obtain ⟨g, hg⟩ := Option.isSome_iff_exists.1 some
    exact ⟨⟨g, fun q hq => (all q hq).1.1.trans hg⟩, fun q hq => ⟨(all q hq).1.2, (all q hq).2⟩⟩
  · rintro ⟨⟨g, gang⟩, asked⟩
    refine ⟨by rw [gang _ first]; rfl, fun q hq => ?_⟩
    obtain ⟨fuse, saving⟩ := asked q hq
    exact ⟨⟨(gang q hq).trans (gang _ first).symm, fuse⟩, saving⟩

theorem fusible_iff (s : State) (y : Fin 64) : (!(s.bay y).fused && s.mayFuse y) = true ↔ Fusible s y := by
  rw [Bool.and_eq_true, mayFuse_iff, Bool.not_eq_true']
  exact Iff.rfl

theorem exec_l1Fusion (s : State) (y : Fin 64) : exec (.l1Fusion y) s = .next (
    if (s.bay y).unfusing then (if s.l1Busy y then s else s.separate y)
    else if !(s.bay y).fused && s.mayFuse y && !s.l1Busy y then
      (emptyL1s s (bayCores y)).modBay y fun b => { b with fused := true }
    else s) := rfl

/-- What the L1s of a bay emptied and its state changed leave. -/
theorem bay_emptied (s : State) (y : Fin 64) (f : Bay → Bay) (t : State) (ht : t = (emptyL1s s (bayCores y)).modBay y f) :
    t.bay y = f (s.bay y) ∧ SameBytes s t ∧
      ∀ p, t.core p = if p.val / 4 = y.val then { s.core p with l1 := [] } else s.core p := by
  subst ht
  have core : ∀ p, ((emptyL1s s (bayCores y)).modBay y f).core p =
      if p.val / 4 = y.val then { s.core p with l1 := [] } else s.core p := fun p => by
    rw [modBay_core, emptyL1s_core]
    simp only [mem_bay]
  refine ⟨?_, ⟨?_, fun p => ?_⟩, core⟩
  · rw [bay_modBay, emptyL1s_eq]
    rfl
  · rw [modBay_mem, emptyL1s_eq]
  · rw [core]
    split <;> rfl

theorem l1sFuse (s : State) (y : Fin 64) :
    ((s.bay y).unfusing = false → ¬ Fusible s y ∨ L1Used s y → exec (.l1Fusion y) s = .next s) ∧
    ((s.bay y).unfusing = false → Fusible s y → ¬ L1Used s y → ∃ t, exec (.l1Fusion y) s = .next t ∧ (t.bay y).fused = true ∧ SameBytes s t ∧
      ∀ p, t.core p = if p.val / 4 = y.val then { s.core p with l1 := [] } else s.core p) ∧
    ((s.bay y).unfusing = true → L1Used s y → exec (.l1Fusion y) s = .next s) ∧
    ((s.bay y).unfusing = true → ¬ L1Used s y → ∃ t, exec (.l1Fusion y) s = .next t ∧
      t.bay y = { s.bay y with fused := false, unfusing := false } ∧ SameBytes s t ∧
      ∀ p, t.core p = if p.val / 4 = y.val then { s.core p with l1 := [] } else s.core p) := by
  rw [exec_l1Fusion]
  refine ⟨fun apart wait => ?_, fun apart fusible free => ?_, fun parting used => ?_, fun parting free => ?_⟩
  · rw [apart, if_neg Bool.false_ne_true, if_neg]
    rw [Bool.and_eq_true, fusible_iff, Bool.not_eq_true', ← Bool.not_eq_true, l1Busy_iff]
    rintro ⟨fusible, free⟩
    exact wait.elim (· fusible) free
  · have now : (!(s.bay y).fused && s.mayFuse y && !s.l1Busy y) = true := by
      rw [Bool.and_eq_true, fusible_iff, Bool.not_eq_true', ← Bool.not_eq_true, l1Busy_iff]
      exact ⟨fusible, free⟩
    rw [apart, if_neg Bool.false_ne_true, if_pos now]
    obtain ⟨bay, bytes, cores⟩ := bay_emptied s y _ _ rfl
    exact ⟨_, rfl, by rw [bay], bytes, cores⟩
  · rw [parting, if_pos rfl, if_pos ((l1Busy_iff s y).2 used)]
  · rw [parting, if_pos rfl, if_neg (mt (l1Busy_iff s y).1 free)]
    exact ⟨_, rfl, bay_emptied s y _ _ rfl⟩

theorem invalidations : Invalidations := by
  intro s
  refine ⟨fun v => ⟨fun idle => ?_, fun busy => ?_⟩, fun idle => ?_, fun v idle inv => ?_, fun v w rest idle inv => ?_,
    fun v rest p k i va l n x inv item load all => ?_,
    fun v rest e x f h c inv saved core flight unfinished query counter all => ?_, fun v busy => ?_, fun v idle => ?_,
    fun v => rfl, fun idle => ?_, fun v rest inv => icbusyClear_drops inv, vtctl_clears, l1sFuse s⟩
  · exact ⟨_, invalidated_trCut s v, congrArg Host.Outcome.next (trinvWrite_first idle)⟩
  · exact congrArg Host.Outcome.next (trinvWrite_queued busy)
  · show execTrinvComplete s = _
    simp only [execTrinvComplete, idle]
  · exact exec_trinvComplete_idle idle inv
  · refine ⟨s.trCut w, invalidated_trCut s w, (exec_trinvComplete_idle idle inv).trans ?_⟩
    rfl
  · exact exec_trinvComplete_busy inv (.inr ⟨p, usesPage_of_load item load all⟩)
  · exact exec_trinvComplete_busy inv (.inl (List.any_eq_true.2 ⟨e, saved, List.any_eq_true.2
      ⟨x, core, usesPage_of_flight flight unfinished query counter all⟩⟩))
  · rw [exec_trroot, trinvWrite_queued (s := withRoot s v) busy]
    rfl
  · refine ⟨s.trCut 0x10, invalidated_trCut s 0x10, ?_⟩
    rw [exec_trroot, trinvWrite_first (s := withRoot s v) idle]
    rfl
  · show execIcbusyClear s = _
    simp only [execIcbusyClear, idle]

end Sys2Proof.Claims
end

section
/-! PROOFS. Writes to the registers of format regions, compute regions and the host pool, and what they drop (R112, R114, R294,
R297, R371). -/

namespace Sys2Proof.Claims

set_option Elab.async false

open Sys2Proof.Machine

variable {s t u : State} {b : BentId} {k : Fin 2} {w : Word}

/-! ### Format regions -/

/-- The bit `m` set in any case does not depend on whether it was cleared before. -/
theorem or_and_not (r m o : Word) : (r &&& ~~~m &&& ~~~o) ||| m = (r &&& ~~~o) ||| m := by
  ext i hi
  simp only [BitVec.getElem_or, BitVec.getElem_and, BitVec.getElem_not]
  cases r[i] <;> cases m[i] <;> cases o[i] <;> rfl

theorem tookBits_all (old v : Word) : tookBits old v 0xFFFFFFFFFFFFFFFF = v := by
  have none : ~~~(0xFFFFFFFFFFFFFFFF : Word) = 0 := by decide
  have whole : (0xFFFFFFFFFFFFFFFF : Word) = BitVec.allOnes 64 := by decide
  rw [tookBits, none, whole, BitVec.and_allOnes]
  exact (congrArg (· ||| v) BitVec.and_zero).trans BitVec.zero_or

/-- The region that a write of FRCTL refuses: disabled, with ERR. -/
def refusedRegion (x : FmtReg) : FmtReg := { x with ctl := (x.ctl &&& ~~~1) ||| 2 }

theorem vbase_refusedRegion (x : FmtReg) : (refusedRegion x).vbase = x.vbase := rfl

theorem extract_refused (c : Word) {at' n : Nat} (above : 2 ≤ at') :
    ((c &&& ~~~1#64) ||| 2#64).extractLsb' at' n = c.extractLsb' at' n := by
  ext i hi
  have one : (1#64).getLsbD (at' + i) = false := by
    rw [BitVec.getLsbD_ofNat, Nat.testBit_two_pow_of_ne (n := 0) (by omega), Bool.and_false]
  have two : (2#64).getLsbD (at' + i) = false := by
    rw [BitVec.getLsbD_ofNat, Nat.testBit_two_pow_of_ne (n := 1) (by omega), Bool.and_false]
  simp only [BitVec.getElem_extractLsb', BitVec.getLsbD_or, BitVec.getLsbD_and, BitVec.getLsbD_not, one, two]
  by_cases inside : at' + i < 64
  · simp [inside]
  · simp [inside, BitVec.getLsbD_of_ge c (at' + i) (by omega)]

theorem allRows_refusedRegion (x : FmtReg) : (refusedRegion x).allRows = x.allRows := by
  have fmt : (refusedRegion x).fmt = x.fmt := extract_refused x.ctl (by decide)
  have rows : (refusedRegion x).rows = x.rows := congrArg (fun z : BitVec 14 => z.toNat + 1) (extract_refused x.ctl (by decide))
  rw [FmtReg.allRows, FmtReg.allRows, fmt, rows]

theorem frFmtOk_iff (f : BitVec 4) : frFmtOk f = false ↔ f ∈ [2, 3, 4, 9, 14, 15] := by
  revert f
  decide

theorem frBad_iff (c : Ctl) (stack r : Nat) (x : FmtReg) : frBad c stack r x = true ↔ BadRegion c stack r x := by
  simp only [frBad, BadRegion, Bool.or_eq_true, Bool.and_eq_true, Bool.not_eq_true', frFmtOk_iff, bne_iff_ne, beq_iff_eq,
    decide_eq_true_eq, List.any_eq_true, List.mem_range, FmtReg.meets, or_assoc, and_assoc]
  exact Iff.rfl

/-- The LLC without the lines of two views, and the region's registers set. -/
def regionSet (s : State) (b : BentId) (k : Fin 2) (r : Fin 16) (old x : FmtReg) : State :=
  onCtl ((s.dropView old).dropView x) b k fun c => { c with fr := vset c.fr r.val x }

/-- The lines of a view are dropped alike for two regions that take the same rows. -/
theorem regionSet_drops (s : State) (b : BentId) (k : Fin 2) (r : Fin 16) (old x y : FmtReg) (base : y.vbase = x.vbase)
    (rows : y.allRows = x.allRows) :
    regionSet s b k r old y = onCtl { s with llc := (regionSet s b k r old y).llc } b k (fun c => { c with fr := vset c.fr r.val y }) ∧
      NoneOf (regionSet s b k r old y) old ∧ NoneOf (regionSet s b k r old y) x := by
  have llc : (regionSet s b k r old y).llc = ((s.dropView old).dropView y).llc := rfl
  refine ⟨rfl, fun l hl => ?_, fun l hl => ?_⟩
  · rw [llc, State.dropView, State.dropLlc, List.mem_filter] at hl
    obtain ⟨hl, -⟩ := hl
    rw [State.dropView, State.dropLlc, List.mem_filter] at hl
    simpa using hl.2
  · rw [llc, State.dropView, State.dropLlc, List.mem_filter, base, rows] at hl
    simpa using hl.2

theorem exec_formatRegionWrite (s : State) (b : BentId) (k : Fin 2) (r : Fin 16) (reg : Fin 4) (v : Word) (old : FmtReg)
    (ho : old = vget (vget (s.bent b).ctl k.val).fr r.val) (plain : reg ≠ 3) :
    exec (.formatRegionWrite b k r reg v) s =
      .next (regionSet s b k r old (old.set reg.val (tookBits (old.get reg.val) v (frMask reg.val)))) := by
  subst ho
  have other : reg.val ≠ 3 := fun e => plain (Fin.ext e)
  show Host.Outcome.next (s.frWrite b k.val r.val reg.val v (BitVec.allOnes 64)) = _
  rw [State.frWrite]
  rw [put_all, if_neg other]
  rfl

/-- The check of FRCTL's write (R114). -/
theorem exec_frctlWrite (s : State) (b : BentId) (k : Fin 2) (r : Fin 16) (v : Word) (old x : FmtReg)
    (ho : old = vget (vget (s.bent b).ctl k.val).fr r.val) (hx : x = { old with ctl := tookBits old.ctl v 0xFFFC03F9 &&& ~~~2 }) :
    exec (.formatRegionWrite b k r 3 v) s = .next (regionSet s b k r old
      (if frBad (vget (s.bent b).ctl k.val) (2 * b.val + k.val) r.val x then refusedRegion x else x)) := by
  have refused : refusedRegion x = { old with ctl := (tookBits old.ctl v 0xFFFC03F9 &&& ~~~1#64) ||| 2#64 } := by
    subst hx
    exact congrArg (fun z => { old with ctl := z }) (or_and_not _ 2#64 1#64)
  rw [refused]
  subst ho hx
  show Host.Outcome.next (s.frWrite b k.val r.val 3 v (BitVec.allOnes 64)) = _
  rw [State.frWrite]
  rw [put_all, if_pos rfl]
  rfl

theorem formatRegionsWritten (s : State) (b : BentId) (k : Fin 2) (r : Fin 16) (v : Word) (old x : FmtReg)
    (ho : old = vget (vget (s.bent b).ctl k.val).fr r.val) :
    (x = { old with view := tookBits old.view v 0x00FFFFFFFFFFFF80 } → ∃ t, exec (.formatRegionWrite b k r 0 v) s = .next t ∧
      t = onCtl { s with llc := t.llc } b k (fun c => { c with fr := vset c.fr r.val x }) ∧ NoneOf t old ∧ NoneOf t x) ∧
    (x = { old with src := tookBits old.src v 0x00FFFFFFFFFFFFE0 } → ∃ t, exec (.formatRegionWrite b k r 1 v) s = .next t ∧
      t = onCtl { s with llc := t.llc } b k (fun c => { c with fr := vset c.fr r.val x }) ∧ NoneOf t old) ∧
    (x = { old with scl := v } → ∃ t, exec (.formatRegionWrite b k r 2 v) s = .next t ∧
      t = onCtl { s with llc := t.llc } b k (fun c => { c with fr := vset c.fr r.val x }) ∧ NoneOf t old) ∧
    (x = { old with ctl := tookBits old.ctl v 0xFFFC03F9 &&& ~~~2 } → ∃ t y, exec (.formatRegionWrite b k r 3 v) s = .next t ∧
      t = onCtl { s with llc := t.llc } b k (fun c => { c with fr := vset c.fr r.val y }) ∧ NoneOf t old ∧ NoneOf t x ∧
      (BadRegion (vget (s.bent b).ctl k.val) (2 * b.val + k.val) r.val x → y = { x with ctl := (x.ctl &&& ~~~1) ||| 2 }) ∧
      (¬ BadRegion (vget (s.bent b).ctl k.val) (2 * b.val + k.val) r.val x → y = x)) := by
  have dropped := regionSet_drops s b k r old
  refine ⟨?_, ?_, ?_, fun hx => ?_⟩
  · rintro rfl
    exact ⟨_, exec_formatRegionWrite s b k r 0 v old ho (by decide), dropped _ _ rfl rfl⟩
  · rintro rfl
    obtain ⟨frame, without, -⟩ := dropped _ _ rfl rfl
    exact ⟨_, exec_formatRegionWrite s b k r 1 v old ho (by decide), frame, without⟩
  · rintro rfl
    have whole : old.set 2 (tookBits (old.get 2) v (frMask 2)) = { old with scl := v } :=
      congrArg (fun z => { old with scl := z }) (tookBits_all _ v)
    obtain ⟨frame, without, -⟩ := dropped { old with scl := v } _ rfl rfl
    exact ⟨_, (exec_formatRegionWrite s b k r 2 v old ho (by decide)).trans (by rw [← whole]; rfl), frame, without⟩
  · have write := exec_frctlWrite s b k r v old x ho hx
    by_cases bad : BadRegion (vget (s.bent b).ctl k.val) (2 * b.val + k.val) r.val x
    · rw [if_pos ((frBad_iff ..).2 bad)] at write
      obtain ⟨frame, without, without'⟩ := dropped x _ (vbase_refusedRegion x) (allRows_refusedRegion x)
      exact ⟨_, _, write, frame, without, without', fun _ => rfl, absurd bad⟩
    · rw [if_neg (mt (frBad_iff ..).1 bad)] at write
      obtain ⟨frame, without, without'⟩ := dropped x x rfl rfl
      exact ⟨_, _, write, frame, without, without', fun h => absurd h bad, fun _ => rfl⟩

/-! ### Compute regions -/

theorem toNat_low (v : Word) : (v &&& 0xFFFF).toNat = v.toNat % 65536 := by
  rw [BitVec.toNat_and]
  exact Nat.and_two_pow_sub_one_eq_mod _ 16

theorem fwccValue_put (old v : Word) : fwccValue (put old v (BitVec.allOnes 64) 0xFFFF) =
    (v &&& 0xFFFF) ||| (if 192 < v.toNat % 256 + v.toNat / 256 % 256 then 0x10000 else 0) := by
  have low : tookBits old v 0xFFFF &&& 0xFFFF = v &&& 0xFFFF := by
    ext i hi
    simp only [tookBits, BitVec.getElem_or, BitVec.getElem_and, BitVec.getElem_not]
    cases old[i] <;> cases v[i] <;> cases (0xFFFF#64)[i] <;> rfl
  have sum : (v &&& 0xFFFF).toNat % 256 + (v &&& 0xFFFF).toNat / 256 = v.toNat % 256 + v.toNat / 256 % 256 := by
    rw [toNat_low]
    omega
  rw [put_all, fwccValue, low, sum]
  split
  · rfl
  · exact (BitVec.or_zero).symm

theorem exec_fwcc (s : State) (b : BentId) (k : Fin 2) (v : Word) :
    exec (.fwcc b k v) s = .next (onCtl s b k fun c => { c with
      chg := some ((v &&& 0xFFFF) ||| (if 192 < v.toNat % 256 + v.toNat / 256 % 256 then 0x10000 else 0)) }) := by
  show Host.Outcome.next (s.fwccWrite b k.val v (BitVec.allOnes 64)) = _
  rw [State.fwccWrite, fwccValue_put]
  rfl

/-! ### A region that applies -/

theorem changing_iff (s : State) : s.changing = true ↔ ∃ (j : BentId) (l : Fin 2), (vget (s.bent j).ctl l.val).chg ≠ none := by
  simp only [State.changing, List.any_eq_true, mem_vlist, Option.isSome_iff_ne_none, State.bent]
  constructor
  · rintro ⟨x, ⟨j, rfl⟩, c, ⟨l, rfl⟩, h⟩
    exact ⟨j, l, h⟩
  · rintro ⟨j, l, h⟩
    exact ⟨_, ⟨j, rfl⟩, _, ⟨l, rfl⟩, h⟩

theorem ctl_onCtl (s : State) (b : BentId) (k : Fin 2) (f : Ctl → Ctl) :
    vget ((onCtl s b k f).bent b).ctl k.val = f (vget (s.bent b).ctl k.val) := by
  rw [onCtl, bent_modBent]
  exact vget_vmod_same _ _ _ k.isLt

theorem ctl_onCtl_ne (s : State) (f : Ctl → Ctl) {j : BentId} {l : Fin 2} (other : j ≠ b ∨ l ≠ k) :
    vget ((onCtl s b k f).bent j).ctl l.val = vget (s.bent j).ctl l.val := by
  by_cases bent : j = b
  · subst bent
    have ctl : k.val ≠ l.val := fun e => other.elim (absurd rfl) fun ne => ne (Fin.ext e.symm)
    rw [onCtl, bent_modBent]
    exact vget_vmod_ne _ _ _ _ ctl
  · rw [onCtl, State.modBent, bent_setBent_ne _ _ _ _ (Ne.symm bent)]

/-- The state once a region of a controller has applied. -/
def regionApplied (s : State) (b : BentId) (k : Fin 2) (w : Word) : State :=
  onCtl { s with llc := dropForms (2 * b.val + k.val) (vget (s.bent b).ctl k.val).fwcc w s.llc } b k
    fun z => { z with fwcc := w, chg := none }

theorem changing_regionApplied (s : State) (b : BentId) (k : Fin 2) (w : Word) :
    (regionApplied s b k w).changing = true ↔ Elsewhere s b k := by
  rw [changing_iff, Elsewhere]
  refine exists_congr fun j => exists_congr fun l => ?_
  by_cases same : j = b ∧ l = k
  · obtain ⟨rfl, rfl⟩ := same
    rw [regionApplied, ctl_onCtl]
    simp
  · have other : j ≠ b ∨ l ≠ k := by tauto
    rw [regionApplied, ctl_onCtl_ne _ _ other, and_iff_right other]
    rfl

theorem exec_regionChange_waits (wait : (vget (s.bent b).ctl k.val).chg = none ∨ (vget (s.bent b).ctl k.val).cmds ≠ []) :
    exec (.regionChange b k) s = .next s := by
  show execRegionChange b k s = _
  unfold execRegionChange State.ctlUnit
  dsimp only
  split
  · rfl
  · next w chg =>
    have held := wait.resolve_left (by rw [chg]; exact Option.some_ne_none w)
    rw [if_neg (by simpa using held)]

theorem exec_regionChange (chg : (vget (s.bent b).ctl k.val).chg = some w) (cmds : (vget (s.bent b).ctl k.val).cmds = []) :
    exec (.regionChange b k) s = .next (regionApplied s b k w).payOwed := by
  show execRegionChange b k s = _
  simp only [execRegionChange, State.ctlUnit, chg, cmds, List.isEmpty_nil, if_true]
  rfl

theorem mem_dropForms {stack : Nat} {old new : Word} {l : List LlcLine} {x : LlcLine} : x ∈ dropForms stack old new l ↔
    x ∈ l ∧ ¬ (stackOf x.line = stack ∧ inRegion old (framePos x.line) ≠ inRegion new (framePos x.line)) := by
  rw [dropForms, List.mem_filter, Bool.not_eq_true', ← Bool.not_eq_true, Bool.and_eq_true, beq_iff_eq, formChanges, bne_iff_ne]

theorem payOwed_nothing (h : s.launch.owed = [] ∨ s.changing = true) : s.payOwed = s := by
  unfold State.payOwed
  split
  · rfl
  · next still =>
    have owed := h.resolve_right still
    have launch : { s.launch with owed := [] } = s.launch := by rw [← owed]
    rw [owed, List.foldl_nil, State.modLaunch, launch]

/-! ### What the scheduler owes -/

theorem cores_storePhys (s : State) (a : Nat) (bs : List Byte) : (s.storePhys a bs).cores = s.cores := by
  induction bs generalizing s a with
  | nil => rfl
  | cons b bs ih => exact ih ..

theorem cores_holdPool (s : State) (l : Loc) (n : Nat) (wr : Bool) : (s.holdPool l n wr).cores = s.cores := by
  unfold State.holdPool
  split
  · rfl
  · dsimp only
    split
    · split <;> rfl
    · rfl

theorem cores_writeSup (s : State) (a : Nat) (bs : List Byte) : (s.writeSup a bs).cores = s.cores :=
  (cores_holdPool ..).trans (cores_storePhys s a bs)

theorem atHomes_writeSup (s : State) (a : Nat) (bs : List Byte) : AtHomes s (s.writeSup a bs) :=
  (atHomes_writePhys s a bs).trans (atHomes_holdPool ..)

/-- A change by writes at homes that leaves every core as it is. -/
structure AtSup (s t : State) : Prop where
  homes : AtHomes s t
  cores : t.cores = s.cores

theorem AtSup.refl (s : State) : AtSup s s := ⟨.refl s, rfl⟩

theorem AtSup.trans (h : AtSup s t) (g : AtSup t u) : AtSup s u := ⟨h.homes.trans g.homes, g.cores.trans h.cores⟩

theorem atSup_writeSup (s : State) (a : Nat) (bs : List Byte) : AtSup s (s.writeSup a bs) :=
  ⟨atHomes_writeSup s a bs, cores_writeSup s a bs⟩

theorem AtSup.stores (h : AtSup s t) : t = withStores s t := by
  obtain ⟨homes, cores⟩ := h
  exact homes.module.trans (by rw [cores]; rfl)

theorem stored_writeSup {a : Nat} {bs : List Byte} (canonical : Canonical s) (plain : PlainAt s (.phys a) bs.length) :
    Stored s (s.writeSup a bs) 0 (.phys a) bs :=
  (stored_writeLoc (p := 0) canonical plain rfl).trans_same (sameBytes_holdPool ..) (key_of_atHomes (atHomes_holdPool ..))

theorem PlainAt.aligned {a n : Nat} (plain : PlainAt s (.phys a) n) : a / n * n = a := Loc.phys.inj plain.2.1

theorem atSup_supWrite (s : State) (va v : Word) : AtSup s (s.supWrite va v) := by
  unfold State.supWrite
  split
  · split
    · exact .refl s
    · exact atSup_writeSup ..
  · exact .refl s

theorem atSup_supAdd (s : State) (va : Word) : AtSup s (s.supAdd va) := by
  unfold State.supAdd
  split
  · split
    · exact .refl s
    · exact atSup_writeSup ..
  · exact .refl s

section
variable {va v : Word} {a : Nat} {e : XErr}

theorem supWrite_error (h : s.translateSup va .write = .error e) : s.supWrite va v = s := by rw [State.supWrite, h]

theorem supWrite_view (h : s.translateSup va .write = .ok a) (view : s.inView (.phys a) = true) : s.supWrite va v = s := by
  rw [State.supWrite, h]
  exact if_pos view

theorem stored_supWrite (canonical : Canonical s) (h : s.translateSup va .write = .ok a) (plain : PlainAt s (.phys a) 8) :
    Stored s (s.supWrite va v) 0 (.phys a) (bytesOfNat v.toNat 8) := by
  rw [State.supWrite, h]
  dsimp only
  rw [if_neg (by rw [plain.inView]; exact Bool.false_ne_true), plain.aligned]
  exact stored_writeSup canonical (by rw [length_bytesOfNat]; exact plain)

theorem supAdd_error (h : s.translateSup va .rmw = .error e) : s.supAdd va = s := by rw [State.supAdd, h]

theorem supAdd_view (h : s.translateSup va .rmw = .ok a) (view : s.inView (.phys a) = true) : s.supAdd va = s := by
  rw [State.supAdd, h]
  exact if_pos view

theorem stored_supAdd (canonical : Canonical s) (h : s.translateSup va .rmw = .ok a) (plain : PlainAt s (.phys a) 8) :
    Stored s (s.supAdd va) 0 (.phys a) (bytesOfNat ((s.readPhys a 8 + 1) % 2 ^ 64) 8) := by
  rw [State.supAdd, h]
  dsimp only
  rw [if_neg (by rw [plain.inView]; exact Bool.false_ne_true), plain.aligned]
  exact stored_writeSup canonical (by rw [length_bytesOfNat]; exact plain)

end

theorem Canonical.atSupWrite {va v : Word} (h : Canonical s) : Canonical (s.supWrite va v) := by
  unfold State.supWrite
  split
  · split
    · exact h
    · exact h.writeSup
  · exact h

/-- Only the bytes count in what a write has stored. -/
theorem Stored.memory {p : CoreId} {l : Loc} {bs : List Byte} (h : Stored s t p l bs) (sup : AtSup s t) :
    Stored s { s with mem := t.mem } p l bs :=
  h.trans_same ⟨rfl, fun q => by rw [State.core, State.core, sup.cores]⟩ fun a => (key_of_atHomes sup.homes a).symm

/-- The state once the status word is written. -/
def statusWritten (s : State) (statusa : Word) (code : Byte) : State :=
  if statusa = 0 then s else s.supWrite statusa (code.setWidth 64)

theorem outcomeNow_eq (s : State) (statusa donectr : Word) (code : Byte) : s.outcomeNow statusa donectr code =
    if donectr = 0 then statusWritten s statusa code else (statusWritten s statusa code).supAdd donectr := rfl

theorem atSup_statusWritten (s : State) (statusa : Word) (code : Byte) : AtSup s (statusWritten s statusa code) := by
  unfold statusWritten
  split
  · exact .refl s
  · exact atSup_supWrite ..

theorem atSup_outcomeNow (s : State) (statusa donectr : Word) (code : Byte) : AtSup s (s.outcomeNow statusa donectr code) := by
  rw [outcomeNow_eq]
  split
  · exact atSup_statusWritten ..
  · exact (atSup_statusWritten ..).trans (atSup_supAdd ..)

theorem posted_outcomeNow (canonical : Canonical s) (statusa donectr : Word) (code : Byte) :
    Posted s (s.outcomeNow statusa donectr code) statusa donectr code := by
  have status : statusa ≠ 0 → statusWritten s statusa code = s.supWrite statusa (code.setWidth 64) := fun h => if_neg h
  have count : donectr ≠ 0 → s.outcomeNow statusa donectr code = (statusWritten s statusa code).supAdd donectr :=
    fun h => if_neg h
  have canonical' : Canonical (statusWritten s statusa code) := by
    unfold statusWritten
    split
    · exact canonical
    · exact canonical.atSupWrite
  have byte : (code.setWidth 64 : Word).toNat = code.toNat := BitVec.toNat_setWidth_of_le (by decide)
  refine ⟨statusWritten s statusa code, (atSup_statusWritten ..).stores, fun none => ?_, fun b some h plain => ?_,
    fun e some h => ?_, fun b some h view => ?_, fun none => ?_, fun b some h plain => ?_, fun e some h => ?_,
    fun b some h view => ?_⟩
  · rw [statusWritten, if_pos none]
  · rw [status some, ← byte]
    exact stored_supWrite canonical h plain
  · rw [status some, supWrite_error h]
  · rw [status some, supWrite_view h view]
  · rw [outcomeNow_eq, if_pos none]
  · rw [count some]
    exact (stored_supAdd canonical' h plain).memory (atSup_supAdd ..)
  · rw [count some, supAdd_error h]
  · rw [count some, supAdd_view h view]

theorem canonical_regionApplied (canonical : Canonical s) : Canonical (regionApplied s b k w) := canonical.frame

/-- What the scheduler owes is written once no region change is in progress. -/
theorem payOwed_outcome {a d : Word} {code : Byte} (still : s.changing = false) (owed : s.launch.owed = [.outcome a d code]) :
    s.payOwed = (s.modLaunch fun l => { l with owed := [] }).outcomeNow a d code := by
  rw [State.payOwed, if_neg (by rw [still]; exact Bool.false_ne_true), owed]
  rfl

theorem regionsApply (s : State) (b : BentId) (k : Fin 2) (c : Ctl) (hc : c = vget (s.bent b).ctl k.val) :
    (c.chg = none ∨ c.cmds ≠ [] → exec (.regionChange b k) s = .next s) ∧
    (∀ w a d code, c.chg = some w → c.cmds = [] → ¬ Elsewhere s b k → s.launch.owed = [.outcome a d code] → Canonical s →
      ∃ t u, exec (.regionChange b k) s = .next t ∧ t = withStores u t ∧ Posted u t a d code ∧
        u = onCtl { s with llc := u.llc, launch := { s.launch with owed := [] } } b k
          (fun z => { z with fwcc := w, chg := none })) ∧
    ∀ w, c.chg = some w → c.cmds = [] → s.launch.owed = [] ∨ Elsewhere s b k → ∃ t, exec (.regionChange b k) s = .next t ∧
      t = onCtl { s with llc := t.llc } b k (fun z => { z with fwcc := w, chg := none }) ∧
      ∀ x, x ∈ t.llc ↔ x ∈ s.llc ∧ ¬ (stackOf x.line = 2 * b.val + k.val ∧
        inRegion c.fwcc (framePos x.line) ≠ inRegion w (framePos x.line)) := by
  subst hc
  refine ⟨exec_regionChange_waits, fun w a d code chg cmds alone owed canonical => ?_, fun w chg cmds nothing => ?_⟩
  · have still : (regionApplied s b k w).changing = false := by
      rw [← Bool.not_eq_true, changing_regionApplied]
      exact alone
    refine ⟨_, (regionApplied s b k w).modLaunch fun l => { l with owed := [] },
      (exec_regionChange chg cmds).trans (congrArg _ (payOwed_outcome still owed)), (atSup_outcomeNow ..).stores,
      posted_outcomeNow (canonical_regionApplied canonical).modLaunch a d code, rfl⟩
  · have kept : (regionApplied s b k w).payOwed = regionApplied s b k w :=
      payOwed_nothing (nothing.imp_right (changing_regionApplied s b k w).2)
    exact ⟨_, (exec_regionChange chg cmds).trans (congrArg _ kept), rfl, fun x => mem_dropForms⟩

theorem exec_hostPoolWrite (s : State) (size : Bool) (v : Word) : exec (.hostPoolWrite size v) s =
    .next { s with links := if size then { s.links with pool := [], hpsize := tookBits s.links.hpsize v 0x1FFFFE00000 }
      else { s.links with pool := [], hpbase := tookBits s.links.hpbase v 0xFFFFFFFE00000 } } := by
  show Host.Outcome.next (s.poolWrite size v (BitVec.allOnes 64)) = _
  simp only [State.poolWrite, put_all]
  rfl

theorem regionWrites : RegionWrites := fun s b k =>
  ⟨fun r v old x ho => formatRegionsWritten s b k r v old x ho, fun v _ hw => hw ▸ exec_fwcc s b k v, regionsApply s b k,
    fun v => ⟨exec_hostPoolWrite s false v, exec_hostPoolWrite s true v⟩⟩

end Sys2Proof.Claims
end

section
namespace Sys2Proof.Proofs

open Sys2Proof.Machine Sys2Proof.Claims

/-- Settles O43: a page meets an entry's page just where the larger of the two holds the smaller; what drops lines keeps the
others by a filter, and what the scheduler owes is a write at its home. -/
theorem viewsChange : Obligations.ViewsChange := ⟨invalidations, regionWrites⟩

end Sys2Proof.Proofs
end
